-- ==== Sys2Proof/Word.lean ====
section
/-! DEFINITION. The widths the manual uses: bytes on every link, 16-bit pack values, 32-bit table words (00 section 5, R163, R191). -/

namespace Sys2Proof

/-- One byte on a link. -/
abbrev Byte := BitVec 8

/-- A pack value: the 16-bit quantity of READ_VALUE and WRITE_VALUE (00 section 6). -/
abbrev Half := BitVec 16

/-- A table word: the 32-bit unit of Table Memory (R163). -/
abbrev Word := BitVec 32

/-- A pack code, 0 to 127 (R48). -/
abbrev Code := BitVec 7

/-- A 7-bit address of the upstream link (R48). -/
abbrev Addr := BitVec 7

end Sys2Proof
end

