-- ==== Sys2Proof/Syntax.lean ====
section
/-! DEFINITION. The rows of spec/opcode_table.json, one constructor each, with the operands that stand on the wire or the line. -/

namespace Sys2Proof

/-- The two bays (00 section 5.4). -/
inductive BayId
  | A | B
  deriving DecidableEq, Repr

/-- "The bay concerned is called X and the other Y" (00 section 5.4). -/
def BayId.other : BayId → BayId
  | .A => .B
  | .B => .A

/-- The four regions of Table Memory (R163). -/
inductive RegionId
  | config | codemap | curve | motion
  deriving DecidableEq, Repr

/-- The input lines that power-on reset samples (R14, R46); a latch line is given as closed (true) or open. -/
structure Lines where
  presA : Bool
  presB : Bool
  latchA : Bool
  latchB : Bool
  ext : Bool
  bridgeReady : Bool
  deriving DecidableEq, Repr

/-- The byte that fixes a platform transaction's direction (R74): the first data byte of a WRITE_VALUE or the length byte of a
WRITE_BLOCK, or the read address after the repeated start with the 7-bit address it names (R48). At MGMT a byte behind the code byte: the
length byte or a parameter byte of a command, or the read address (R180, R183; log 37). -/
inductive DirByte
  | writeByte (byte : Byte)
  | readAddress (addr : Addr)
  deriving DecidableEq, Repr

/-- What the pack did with the transaction in flight when it completes on the bus (R54): it refused a byte, it took every byte of
a write, it returned the two bytes of a value (low byte first, R191), or it returned a length byte and the bytes after it. -/
inductive PackReply
  | refusedByte
  | wrote
  | value (lo hi : Byte)
  | block (len : Byte) (bytes : List Byte)
  deriving DecidableEq, Repr

/-- The rows of the table of operations and events, in the table's order.
A management command carries its parameter bytes as they stand in the frame (R183, R192). -/
inductive Instr
  | powerOnReset (lines : Lines)
  | extPresentChange (asserted : Bool)
  | presenceLineChange (bay : BayId) (asserted : Bool)
  | presenceDebounceExpiry (bay : BayId)
  | latchLineChange (bay : BayId) (closed : Bool)
  | latchDebounceExpiry (bay : BayId)
  | bridgeReadyChange (asserted : Bool)
  | bridgeExpiry
  | joltHoldExpiry (bay : BayId)
  | contextWindowExpiry (bay : BayId)
  | uptimeTick
  | ageTick
  | pollPeriodExpiry
  | pollStart (bay : BayId)
  | pollRetry (bay : BayId)
  | probeReadStart (bay : BayId)
  | slotTransactionStart (bay : BayId)
  | packTransactionEnd (bay : BayId) (reply : PackReply)
  | linkTimeout (bay : BayId)
  | linkRecoverBegin (bay : BayId)
  /-- `released = some k`: the data line was found released at the test after `k` pulses, 0 to 16; `none`: it was still held at the
  test after the sixteenth (R67). -/
  | linkRecoverEnd (bay : BayId) (released : Option Nat)
  | lightSample (b0 b1 b2 : Byte)
  | motionSample (x0 x1 y0 y1 z0 z1 : Byte)
  | frameDiscard (header : Byte) (payload : List Byte)
  | laneGapDiscard (received : List Byte)
  | stallTimeout
  | windowHoldExpiry
  | tableCheckEnd (region : RegionId)
  | platformAddress (addr : Addr) (read : Bool)
  | codeByteCheck (byte : Byte)
  | permitCheck (byte : DirByte)
  | writeBlockLengthRefuse (len : Byte)
  | transactionAbandon
  /-- `count` is the number of bytes the master reads (R49). -/
  | readValue (count : Nat)
  | writeValue (lo hi : Byte)
  | readBlock (count : Nat)
  | writeBlock (bytes : List Byte)
  | resultRead (count : Nat)
  | invalidCommand (code : BitVec 7) (params : List Byte)
  | identify (params : List Byte)
  | senseAttention (params : List Byte)
  | flagTest (params : List Byte)
  | flagSet (params : List Byte)
  | flagClear (params : List Byte)
  | flagToggle (params : List Byte)
  | resetPart (params : List Byte)
  | powerQuery (params : List Byte)
  | bayQuery (params : List Byte)
  | bayRelease (params : List Byte)
  | bayReturn (params : List Byte)
  | bayProbe (params : List Byte)
  | linkRecover (params : List Byte)
  | cacheFlush (params : List Byte)
  | cacheInspect (params : List Byte)
  | budgetQuery (params : List Byte)
  | brightnessSet (params : List Byte)
  | brightnessQuery (params : List Byte)
  | dropStateQuery (params : List Byte)
  | dropLogRead (params : List Byte)
  | dropLogClear (params : List Byte)
  | tableClear (params : List Byte)
  | tableWrite (params : List Byte)
  | tableCheck (params : List Byte)
  | tableRead (params : List Byte)
  | tableLock (params : List Byte)
  deriving DecidableEq, Repr

end Sys2Proof
end

