-- ==== Sys2Proof/Config.lean ====
section
/-! DEFINITION. What the part fixes: addresses, identity, the built-in defaults of Table Memory (R165) and the ranges that field validation tests (R172 to R175).
No rule of the manual leaves a value undefined, so no free value stands here. -/

namespace Sys2Proof.Config

/-- R48: the four addresses of the upstream link. -/
def addrMgmt : Addr := 0x29#7
def addrBayA : Addr := 0x2A#7
def addrBayB : Addr := 0x2B#7
def addrActive : Addr := 0x2D#7

/-- R188: what Identify returns. -/
def partCode : Nat := 0x5240
def revision : Nat := 0x01

/-- R188: the last value of the uptime count. -/
def uptimeMax : Nat := 4294967295

/-- R147: the fixed length of the stall timer, ms. -/
def stallMs : Nat := 250

/-- R67: the most clock pulses of a Link Recover. -/
def maxPulses : Nat := 16

/-- R163: the number of words of each region, check word included. -/
def regionSize : RegionId → Nat
  | .config => 27
  | .codemap => 130
  | .curve => 23
  | .motion => 9

/-- Section 9.6: range and default of one CONFIG field; TEMP_HOT and TEMP_MAX are signed. -/
structure FieldRow where
  lo : Int
  hi : Int
  dflt : Int
  signed : Bool
  deriving DecidableEq, Repr

/-- Section 9.6, words 0 to 25 in order; yes is 1 and no is 0 (R195). -/
def configRows : List FieldRow :=
  [⟨0, 200000, 65000, false⟩,     -- 0 EXT_LIMIT_mW
   ⟨0, 120000, 45000, false⟩,     -- 1 BAY_LIMIT_mW
   ⟨0, 120000, 30000, false⟩,     -- 2 DEFAULT_PACK_mW
   ⟨0, 30000, 8000, false⟩,       -- 3 BRIDGE_mW
   ⟨1000, 60000, 20000, false⟩,   -- 4 BRIDGE_MAX_ms
   ⟨0, 1, 1, false⟩,              -- 5 BRIDGE_ALLOWED
   ⟨0, 1, 0, false⟩,              -- 6 BREAK_FIRST_OK
   ⟨0, 2000, 200, false⟩,         -- 7 VDIFF_MAX_mV
   ⟨0, 65535, 9000, false⟩,       -- 8 V_MIN_mV
   ⟨0, 65535, 13200, false⟩,      -- 9 V_MAX_mV
   ⟨0, 65535, 0, false⟩,          -- 10 STATUS_FAULT_MASK
   ⟨-400, 1250, 550, true⟩,       -- 11 TEMP_HOT
   ⟨-400, 1250, 650, true⟩,       -- 12 TEMP_MAX
   ⟨10, 500, 50, false⟩]          -- 13 PRESENCE_DEBOUNCE_ms
  ++
  [⟨10, 500, 20, false⟩,          -- 14 LATCH_DEBOUNCE_ms
   ⟨0, 2000, 300, false⟩,         -- 15 JOLT_HOLD_ms
   ⟨0, 3600, 600, false⟩,         -- 16 REINSERT_WINDOW_s
   ⟨0, 200000, 24000, false⟩,     -- 17 PLATFORM_RESERVE_mW
   ⟨0, 200000, 18000, false⟩,     -- 18 P_MIN_RUN_mW
   ⟨5, 100, 25, false⟩,           -- 19 LINK_TIMEOUT_ms
   ⟨0, 3, 1, false⟩,              -- 20 LINK_RETRIES
   ⟨1, 15, 3, false⟩,             -- 21 FAULT_LIMIT
   ⟨50, 5000, 250, false⟩,        -- 22 POLL_PERIOD_ms
   ⟨0, 10000, 1500, false⟩,       -- 23 BL_BASE_mW
   ⟨100, 40000, 9000, false⟩,     -- 24 BL_FULL_mW
   ⟨0, 200, 20, false⟩]           -- 25 MIN_LEVEL

/-- Section 9.7, words 1 to 5 in order. -/
def curveRows : List FieldRow :=
  [⟨0, 7, 2, false⟩,              -- 1 K_UP
   ⟨0, 7, 5, false⟩,              -- 2 K_DOWN
   ⟨0, 100, 10, false⟩,           -- 3 HYST
   ⟨1, 1000, 40, false⟩,          -- 4 SLEW_UP
   ⟨1, 1000, 15, false⟩]          -- 5 SLEW_DOWN

/-- Section 9.8, words 0 to 7 in order. -/
def motionRows : List FieldRow :=
  [⟨50, 1600, 400, false⟩,        -- 0 ODR_Hz
   ⟨1, 255, 45, false⟩,           -- 1 FF_THRESH
   ⟨1, 255, 24, false⟩,           -- 2 FF_COUNT
   ⟨256, 2047, 1536, false⟩,      -- 3 IMPACT_THRESH
   ⟨64, 255, 115, false⟩,         -- 4 STILL_LO
   ⟨64, 255, 141, false⟩,         -- 5 STILL_HI
   ⟨1, 1000, 80, false⟩,          -- 6 SETTLE_COUNT
   ⟨10, 4000, 800, false⟩]        -- 7 IMPACT_MAX

/-- The default of word `i` of a list of fields, as the word that would encode it. -/
def defaultOf (rows : List FieldRow) (i : Nat) : Word :=
  match rows[i]? with
  | some r => BitVec.ofInt 32 r.dflt
  | none => 0

/-- R165: the built-in defaults of each region, written as the words that would encode them (R195): the built-in map of R72 (length
128, every entry with both permits and nothing else) and the built-in curve of R123 ((0, 200) and (40,000, 1000)). -/
def defaultWord : RegionId → Nat → Word
  | .config, i => defaultOf configRows i
  | .codemap, 0 => 128
  | .codemap, i => if i ≤ 128 then 3 else 0
  | .curve, 0 => 2
  | .curve, 6 => BitVec.ofNat 32 (200 * 65536)
  | .curve, 7 => BitVec.ofNat 32 (1000 * 65536 + 40000)
  | .curve, i => if i ≤ 5 then defaultOf curveRows (i - 1) else 0
  | .motion, i => defaultOf motionRows i

end Sys2Proof.Config
end

