-- ==== Sys2Proof/WellFormed.lean ====
section
/-! DEFINITION. Which terms of `Instr` are rows that can stand on the wire: the checks of R48, R49, R54, R67, R121, R183 and R192 that no operand type states. -/

namespace Sys2Proof

/-- R196: the source a header byte names, bits 7 to 4. -/
def headerSource (h : Byte) : Nat := h.toNat / 16

/-- R196: the payload length a header byte declares, bits 3 to 0. -/
def headerLength (h : Byte) : Nat := h.toNat % 16

/-- R120, R196: the header of a LIGHT or MOTION frame with that source's own length; every other header's frame is discarded (R121). -/
def headerGood (h : Byte) : Bool :=
  (headerSource h == 1 && headerLength h == 3) || (headerSource h == 2 && headerLength h == 6)

/-- R192: the command codes the part executes. -/
def listedCodes : List Nat :=
  [0x10, 0x11, 0x18, 0x19, 0x1A, 0x1B, 0x1F, 0x20, 0x21, 0x22, 0x23, 0x24, 0x25, 0x28, 0x29, 0x30, 0x31, 0x32,
   0x38, 0x39, 0x3A, 0x40, 0x41, 0x42, 0x43, 0x44]

/-- R54: a reply with a legal block length carries that many bytes. -/
def PackReply.wf : PackReply → Bool
  | .block len bytes => if 1 ≤ len.toNat ∧ len.toNat ≤ 32 then bytes.length == len.toNat else true
  | _ => true

/-- R183: the length byte of a command frame gives 0 to 255 parameter bytes. -/
def paramsWf (params : List Byte) : Bool := params.length ≤ 255

/-- The well-formed rows. -/
def Instr.wf : Instr → Bool
  | .packTransactionEnd _ reply => reply.wf
  | .linkRecoverEnd _ (some k) => k ≤ Config.maxPulses
  | .frameDiscard h payload => !headerGood h && payload.length == headerLength h
  | .laneGapDiscard received =>
      match received with
      | [] => false
      | h :: rest => rest.length < headerLength h
  | .writeBlockLengthRefuse len => len.toNat == 0 || 32 < len.toNat
  | .readValue n | .readBlock n | .resultRead n => 1 ≤ n
  | .writeBlock bytes => 1 ≤ bytes.length && bytes.length ≤ 32
  | .invalidCommand code params => code != 0 && !listedCodes.contains code.toNat && paramsWf params
  | .identify p | .senseAttention p | .flagTest p | .flagSet p | .flagClear p | .flagToggle p | .resetPart p
  | .powerQuery p | .bayQuery p | .bayRelease p | .bayReturn p | .bayProbe p | .linkRecover p | .cacheFlush p
  | .cacheInspect p | .budgetQuery p | .brightnessSet p | .brightnessQuery p | .dropStateQuery p | .dropLogRead p
  | .dropLogClear p | .tableClear p | .tableWrite p | .tableCheck p | .tableRead p | .tableLock p => paramsWf p
  | .powerOnReset _ | .extPresentChange _ | .presenceLineChange _ _ | .presenceDebounceExpiry _ | .latchLineChange _ _
  | .latchDebounceExpiry _ | .bridgeReadyChange _ | .bridgeExpiry | .joltHoldExpiry _ | .contextWindowExpiry _
  | .uptimeTick | .ageTick | .pollPeriodExpiry | .pollStart _ | .pollRetry _ | .probeReadStart _
  | .slotTransactionStart _ | .linkTimeout _ | .linkRecoverBegin _ | .linkRecoverEnd _ none | .lightSample _ _ _
  | .motionSample _ _ _ _ _ _ | .stallTimeout | .windowHoldExpiry | .tableCheckEnd _ | .codeByteCheck _
  | .permitCheck _ | .platformAddress _ _ | .transactionAbandon | .writeValue _ _ => true

end Sys2Proof
end

