-- ==== Sys2Proof/Decode.lean ====
section
/-! DEFINITION. From bits to rows: the host's `decodeTableWord` (the table gives no row any bits), the row that a
transaction at MGMT is (R180, R184, R192), and the row a byte on the sample lane completes (R120, R121, R196). -/

namespace Sys2Proof

/-- spec/opcode_table.json gives no row any bits, so no word spells a row. -/
def decodeTableWord (_nbits _w : Nat) : Option Instr := none

/-- R192: the row that a command write with command code `code`, 1 to 127, and these parameter bytes is; a code that is not listed is
INVALID_COMMAND (R184). Code 0 names the result read and no command (R180). -/
def commandRow (code : BitVec 7) (params : List Byte) : Option Instr :=
  match code.toNat with
  | 0x00 => none
  | 0x10 => some (.identify params)
  | 0x11 => some (.senseAttention params)
  | 0x18 => some (.flagTest params)
  | 0x19 => some (.flagSet params)
  | 0x1A => some (.flagClear params)
  | 0x1B => some (.flagToggle params)
  | 0x1F => some (.resetPart params)
  | 0x20 => some (.powerQuery params)
  | 0x21 => some (.bayQuery params)
  | 0x22 => some (.bayRelease params)
  | 0x23 => some (.bayReturn params)
  | 0x24 => some (.bayProbe params)
  | 0x25 => some (.linkRecover params)
  | 0x28 => some (.cacheFlush params)
  | 0x29 => some (.cacheInspect params)
  | 0x30 => some (.budgetQuery params)
  | 0x31 => some (.brightnessSet params)
  | 0x32 => some (.brightnessQuery params)
  | 0x38 => some (.dropStateQuery params)
  | 0x39 => some (.dropLogRead params)
  | 0x3A => some (.dropLogClear params)
  | 0x40 => some (.tableClear params)
  | 0x41 => some (.tableWrite params)
  | 0x42 => some (.tableCheck params)
  | 0x43 => some (.tableRead params)
  | 0x44 => some (.tableLock params)
  | _ => some (.invalidCommand code params)

/-- R180: the command code that a code byte at MGMT names; with the block marker clear it is refused. -/
def mgmtCode (b : Byte) : Option (BitVec 7) := if 128 ≤ b.toNat then some (BitVec.ofNat 7 b.toNat) else none

/-- R180, R183: the row of a transaction at MGMT that writes code byte `b`, a length byte and as many parameter bytes: a command write. After
code byte 80h the data byte is refused. -/
def mgmtWrite (b : Byte) (params : List Byte) : Option Instr := (mgmtCode b).bind (commandRow · params)

/-- R180, R185: the row of a transaction at MGMT that writes code byte `b` and, after a repeated start, reads `count` bytes at address `a`: a
result read for code byte 80h and MGMT's own address. Any other code byte or address is refused. -/
def mgmtRead (b : Byte) (a : Addr) (count : Nat) : Option Instr :=
  if mgmtCode b = some 0 ∧ a = Config.addrMgmt then some (.resultRead count) else none

/-- The row of a frame whose declared length is complete (R120, R121). -/
def frameRow (header : Byte) (payload : List Byte) : Instr :=
  match headerSource header, payload with
  | 1, [b0, b1, b2] => .lightSample b0 b1 b2
  | 2, [x0, x1, y0, y1, z0, z1] => .motionSample x0 x1 y0 y1 z0 z1
  | _, _ => .frameDiscard header payload

/-- R120, R121: one byte on the sample lane after the bytes `held` of a frame (none: the receiver waits for a header). The receiver
follows the declared length, and the byte that completes it completes one row. -/
def laneFeed (held : List Byte) (b : Byte) : List Byte × Option Instr :=
  match held ++ [b] with
  | [] => ([], none)
  | header :: payload =>
      if payload.length = headerLength header then ([], some (frameRow header payload))
      else (header :: payload, none)

end Sys2Proof
end

