-- ==== Sys2Proof/Machine/State.lean ====
section
/-! DEFINITION. The state of the part: every register, line, timer, buffer and queue the manual gives it (INVENTORY.md, State), as
plain data, with its value after power-on reset. -/

namespace Sys2Proof.Machine

/-- A value for each bay. -/
structure Pair (α : Type) where
  a : α
  b : α
  deriving DecidableEq, Repr

/-- The value of bay `x`. -/
def Pair.get {α : Type} (p : Pair α) : BayId → α
  | .A => p.a
  | .B => p.b

/-- The pair with the value of bay `x` changed by `f`. -/
def Pair.upd {α : Type} (p : Pair α) (x : BayId) (f : α → α) : Pair α :=
  match x with
  | .A => { p with a := f p.a }
  | .B => { p with b := f p.b }

/-! ### Enumerated fields (R193) -/

/-- Bay states, section 2.3. -/
inductive BayState
  | empty | seating | probing | standby | online | releasing | jolt | faulted
  deriving DecidableEq, Repr

/-- Refusal reasons, R29. -/
inductive RefusalReason
  | none | held | drop | lowBudget | mismatch | noSource
  deriving DecidableEq, Repr

/-- Handover kinds, R27 and R28. -/
inductive HandoverKind
  | none | plain | makeFirst | breakFirst | bridgeThrough | bridgeHold
  deriving DecidableEq, Repr

/-- Fault reasons, R35. -/
inductive FaultReason
  | none | link | admission
  deriving DecidableEq, Repr

/-- Probe causes, R20, R34, R45. -/
inductive ProbeCause
  | none | insertion | joltReturn | bayProbe
  deriving DecidableEq, Repr

/-- Settings of a bay switch, R3. -/
inductive Switch
  | off | passive | on
  deriving DecidableEq, Repr

/-- Bridge states, R8 to R10. -/
inductive BridgeState
  | idle | running | expired
  deriving DecidableEq, Repr

/-- Reasons of a bridge start, R8. -/
inductive BridgeReason
  | through | hold | emergency
  deriving DecidableEq, Repr

/-- Budget bases, R108, R109. -/
inductive Basis
  | notCounted | snapshot | dflt
  deriving DecidableEq, Repr

/-- Cache line states, section 5.6. -/
inductive LineState
  | fresh | suspect | parked
  deriving DecidableEq, Repr

/-- Cache classes, R77. -/
inductive CacheClass
  | none | timed | fixed
  deriving DecidableEq, Repr

/-- Meaning tags, R80. -/
inductive Tag
  | none | voltage | maxDischarge | remaining | status | temperature | serial
  deriving DecidableEq, Repr

/-- Region states, R164. -/
inductive RegionState
  | empty | loading | checking | inService
  deriving DecidableEq, Repr

/-- Pipeline modes, R122. -/
inductive PipeMode
  | auto | manual
  deriving DecidableEq, Repr

/-- Detector states, section 8.3. -/
inductive Detector
  | armed | falling | impact
  deriving DecidableEq, Repr

/-- Drop window states, R148. -/
inductive Window
  | closed | open | holding
  deriving DecidableEq, Repr

/-- Kinds of an episode, R142, R144. -/
inductive DropKind
  | fall | strike
  deriving DecidableEq, Repr

/-- How an episode with a record ended, R145, R147. -/
inductive DropEnding
  | settled | unsettled | stalled
  deriving DecidableEq, Repr

/-- Rest axes, R153. -/
inductive RestAxis
  | none | xPos | xNeg | yPos | yNeg | zPos | zNeg
  deriving DecidableEq, Repr

/-- Kinds of a pack transaction, R48, R54. -/
inductive TxKind
  | readValue | writeValue | readBlock | writeBlock
  deriving DecidableEq, Repr

/-- What a pack transaction was started for (R54). `orphan` is a probe read whose probe has ended: its outcome acts on the count and
the snapshot and on nothing else of the probe (R62). -/
inductive Purpose
  | platform | poll | probe | orphan
  deriving DecidableEq, Repr

/-- Link Recover of a bay (R66): waiting for the transaction in flight at its acceptance, or pulsing the link. -/
inductive Recover
  | notRunning | waiting | running
  deriving DecidableEq, Repr

/-- The result codes of R187. -/
inductive ResultCode
  | ok | accepted | empty | invalid | param | busy | state | locked | blank | refused
  deriving DecidableEq, Repr

/-! ### Power Path Controller (chapter 1) -/

/-- R3, R1, R12, R8 to R11. -/
structure PowerPath where
  sw : Pair Switch
  held : Pair Bool
  ext : Bool
  bridgeReady : Bool
  bridge : BridgeState
  timer : Nat
  bridgeSw : Bool
  lowpwr : Bool
  pfail : Bool
  deriving DecidableEq, Repr

/-! ### Bay Controller (chapter 2) -/

/-- The hold timer of a jolt record, R34. -/
inductive HoldTimer
  | stopped
  | waiting
  | running (ms : Nat)
  deriving DecidableEq, Repr

/-- The earlier state of a jolt record, section 2.1. -/
inductive JoltEarlier
  | online | standby | probing
  deriving DecidableEq, Repr

/-- The jolt record, R32. -/
structure JoltRecord where
  earlier : JoltEarlier
  serial : Option Half
  hold : HoldTimer
  deriving DecidableEq, Repr

/-- The departed-pack context, R38. -/
structure Context where
  serial : Option Half
  departure : Nat
  deriving DecidableEq, Repr

/-- The bay record of section 2.1, less the held mark, which the power path keeps (R3). `latchLine` and `latch` are true when
closed; a debounce timer is `none` while stopped. -/
structure Bay where
  state : BayState
  presLine : Bool
  presence : Bool
  presDeb : Option Nat
  latchLine : Bool
  latch : Bool
  latchDeb : Option Nat
  refuse : Bool
  refusal : RefusalReason
  deferred : Bool
  lastHandover : HandoverKind
  faultReason : FaultReason
  probeCause : ProbeCause
  jolt : Option JoltRecord
  context : Option Context
  deriving DecidableEq, Repr

/-! ### Pack Link Relay (chapter 3) -/

/-- What the governing map instance says of one code (R71): the instance, and the entry's class, maximum age and tag. -/
structure Governing where
  inst : Nat
  cls : CacheClass
  maxAge : Nat
  tag : Tag
  deriving DecidableEq, Repr

/-- A platform transaction at or past its forwarding point: kind, code, and the bytes the part sends after the code byte. -/
structure Request where
  kind : TxKind
  code : Code
  payload : List Byte
  gov : Governing
  deriving DecidableEq, Repr

/-- A pack transaction in flight with its timeout timer, ms remaining (R54). -/
structure PackTx where
  req : Request
  purpose : Purpose
  timeout : Nat
  deriving DecidableEq, Repr

/-- A poll in progress: its code, and the attempts issued so far (R61). Its attempt is in flight, or its retry is yet to be made. -/
structure Poll where
  code : Code
  gov : Governing
  attempts : Nat
  deriving DecidableEq, Repr

/-- One read of a probe (R62). -/
structure ProbeRead where
  code : Code
  gov : Governing
  deriving DecidableEq, Repr

/-- A probe in progress: the reads not yet DONE, the attempts issued for the first of them, and whether Bay Probe started it, which
makes it a background operation (R62). -/
structure Probe where
  reads : List ProbeRead
  attempts : Nat
  background : Bool
  deriving DecidableEq, Repr

/-- The pack snapshot of a bay, R63. -/
structure Snapshot where
  voltage : Option Half
  maxDischarge : Option Half
  remaining : Option Half
  status : Option Half
  temperature : Option Half
  serial : Option Half
  deriving DecidableEq, Repr

/-- The relay's state for one bay (chapter 3). -/
structure Relay where
  link : Option PackTx
  slot : Option Request
  pollDue : Bool
  poll : Option Poll
  failCount : Nat
  ring : List Code
  ptr : Nat
  snap : Snapshot
  probe : Option Probe
  recover : Recover
  deriving DecidableEq, Repr

/-- Table Memory's words of one region: (word number, word) with strictly rising numbers; a word not listed is blank (R163). -/
abbrev Memory := List (Nat × Word)

/-- The contents of a map instance (R71): the built-in map of R72, or the words of a CODEMAP in service. -/
inductive MapView
  | builtin
  | loaded (words : Memory)
  deriving DecidableEq, Repr

/-- How far a platform transaction has come (R49, R73, R74). `stretched` is past the forwarding point, with the number of bytes the
master will read. -/
inductive UpStage
  | addressed
  | coded (block : Bool) (code : Code)
  | directed (block : Bool) (code : Code) (write : Bool)
  | stretched (count : Nat)
  deriving DecidableEq, Repr

/-- A platform transaction on the upstream link: the address it began with, the bay it is for (R51), its governing map instance
(R52, R71) and its stage. -/
structure UpTx where
  addr : Addr
  bay : BayId
  inst : Nat
  map : MapView
  stage : UpStage
  deriving DecidableEq, Repr

/-- What the part last did on the upstream link: acknowledged or refused the byte, returned bytes to a reading master, stretches the
clock, or held the link against a master that wants it (R48, R49). The model's own record (log 6). -/
inductive Answer
  | none
  | acknowledged
  | refused
  | data (bytes : List Byte)
  | stretched
  | held
  deriving DecidableEq, Repr

/-- How far a transaction at MGMT has come (R180): its address taken for writing; code byte 80h taken; the read address after it taken,
the result following; a command code taken, the length byte following; the length taken, `left` parameter bytes following the bytes `got`
(R183). -/
inductive MgmtStage
  | addressed
  | resultNamed
  | reading
  | command (code : BitVec 7)
  | params (code : BitVec 7) (left : Nat) (got : List Byte)
  deriving DecidableEq, Repr

/-- The upstream link: the platform transaction or the transaction at MGMT in progress, of which it carries one at a time (R183). -/
structure Upstream where
  tx : Option UpTx
  answer : Answer
  mgmt : Option MgmtStage := none
  deriving DecidableEq, Repr

/-! ### Reading Cache (chapter 5) -/

/-- One line, section 5.1. -/
structure Line where
  valid : Bool
  bay : BayId
  code : Code
  value : Half
  state : LineState
  age : Nat
  deriving DecidableEq, Repr

/-- R85: an invalidated line holds nothing, its fields zero. -/
def Line.invalid : Line :=
  { valid := false, bay := .A, code := 0, value := 0, state := .fresh, age := 0 }

/-- The four ways of a set. -/
inductive Way
  | w0 | w1 | w2 | w3
  deriving DecidableEq, Repr

/-- One set: four lines and the replacement bits S0, S1, S2. -/
structure CacheSet where
  l0 : Line
  l1 : Line
  l2 : Line
  l3 : Line
  s0 : Bool
  s1 : Bool
  s2 : Bool
  deriving DecidableEq, Repr

/-- R104: a set after reset. -/
def CacheSet.reset : CacheSet :=
  { l0 := Line.invalid, l1 := Line.invalid, l2 := Line.invalid, l3 := Line.invalid, s0 := false, s1 := false, s2 := false }

/-! ### Budget Unit and Backlight Pipeline (chapters 6 and 7) -/

/-- The budget record of section 6.1. -/
structure Budget where
  pExt : Nat
  pA : Nat
  pB : Nat
  basisA : Basis
  basisB : Basis
  deratedA : Bool
  deratedB : Bool
  pBridge : Nat
  pAvail : Nat
  h : Int
  cBudget : Nat
  c : Nat
  deriving DecidableEq, Repr

/-- The pipeline record of section 7.2; `o` is the PWM duty of BL_PWM in per-mille (R131). -/
structure Pipeline where
  mode : PipeMode
  manual : Nat
  hostMax : Nat
  l : Nat
  t : Nat
  s : Nat
  d : Nat
  o : Nat
  clampedLux : Bool
  ceilingLimited : Bool
  deriving DecidableEq, Repr

/-! ### Motion Monitor and Drop Log (chapter 8) -/

/-- The monitor record of section 8.1; a timer is `none` while stopped. -/
structure Motion where
  detector : Detector
  run : Nat
  n : Nat
  kind : DropKind
  impacts : Nat
  settle : Nat
  peak : Nat
  saturated : Bool
  stall : Option Nat
  window : Window
  hold : Option Nat
  jolted : Pair Bool
  park : Bool
  deriving DecidableEq, Repr

/-- A drop record, R151. -/
structure DropRecord where
  seq : Nat
  kind : DropKind
  n : Nat
  height : Nat
  peak : Nat
  saturated : Bool
  ending : DropEnding
  rest : RestAxis
  time : Nat
  jolted : Pair Bool
  deriving DecidableEq, Repr

/-- The Drop Log of section 8.6; `next = none` is EXHAUSTED. -/
structure DropLog where
  records : List DropRecord
  next : Option Nat
  deriving DecidableEq, Repr

/-! ### Table Memory, Management Port, Attention Queue, Service Flags -/

/-- One region, R163 and R164. -/
structure Region where
  state : RegionState
  lock : Bool
  words : Memory
  deriving DecidableEq, Repr

/-- The four regions. -/
structure Tables where
  config : Region
  codemap : Region
  curve : Region
  motion : Region
  deriving DecidableEq, Repr

/-- A result frame: the result code and the result data (R185, R191). -/
structure Frame where
  code : ResultCode
  data : List Byte
  deriving DecidableEq, Repr

/-- The result slot, section 10.3. -/
inductive Slot
  | empty
  | executing
  | pending (frame : Frame)
  deriving DecidableEq, Repr

/-- The Management Port: result slot and reset-seen mark (R182, R190). -/
structure Port where
  slot : Slot
  resetSeen : Bool
  deriving DecidableEq, Repr

/-- The sources of PRESENCE attention, R1 and R19. -/
inductive PresenceSource
  | bay (x : BayId)
  | ext
  deriving DecidableEq, Repr

/-- The 23 (cause, source) pairs of section 11.1. -/
inductive AttnKey
  | presence (source : PresenceSource)
  | swapDone (x : BayId)
  | swapRefused (x : BayId)
  | bayFault (x : BayId)
  | linkDone (x : BayId)
  | filterDeny (x : BayId)
  | jolt (x : BayId)
  | tableDone (r : RegionId)
  | drop
  | bridgeOn
  | bridgeLow
  | budgetCut
  deriving DecidableEq, Repr

/-- A detail as R193 codes it: a kind byte and a 16-bit value. -/
structure Detail where
  kind : Nat
  value : Nat
  deriving DecidableEq, Repr

/-- An attention entry, R197. -/
structure AttnEntry where
  key : AttnKey
  count : Nat
  first : Nat
  detail : Detail
  deriving DecidableEq, Repr

/-- The Attention Queue, head first, and the ATTN_REQ line (R198, R199). -/
structure Attn where
  queue : List AttnEntry
  req : Bool
  deriving DecidableEq, Repr

/-- The eight service flags, section 11.3. -/
structure Flags where
  holdSwapA : Bool
  holdSwapB : Bool
  holdPoll : Bool
  holdCurve : Bool
  sem0 : Bool
  sem1 : Bool
  sem2 : Bool
  sem3 : Bool
  deriving DecidableEq, Repr

/-- The time base of 00 section 2.2: the uptime in seconds, and how many 1 ms ticks have passed of the running 100 ms age period and of
the running second (log 21). -/
structure Time where
  uptime : Nat
  ageMs : Nat
  secondMs : Nat
  deriving DecidableEq, Repr

/-- The whole part, and the rows waiting for it. -/
structure State where
  pp : PowerPath
  bays : Pair Bay
  relays : Pair Relay
  pollTimer : Nat
  upstream : Upstream
  mapInst : Nat
  cache : List CacheSet
  budget : Budget
  pipe : Pipeline
  lane : List Byte
  motion : Motion
  log : DropLog
  tables : Tables
  port : Port
  attn : Attn
  flags : Flags
  time : Time
  pending : List Instr
  deriving DecidableEq, Repr

/-- Why the part stops with a fault: never. Every refusal of the manual is an answer (INVENTORY.md, Faults), so this type has no
constructor, which is safe: no step can be lost to it. -/
inductive Fault
  deriving DecidableEq, Repr

/-- Why a row has no meaning. -/
inductive Refusal
  /-- Raised by an arm of `exec` whose row is not modelled yet; safe, since nothing can be proved of such a row. -/
  | notModelled (mnemonic : String)
  deriving DecidableEq, Repr

/-- R69 and R63: every value absent. -/
def Snapshot.absent : Snapshot :=
  { voltage := none, maxDischarge := none, remaining := none, status := none, temperature := none, serial := none }

/-- R46 and section 2.1: the record of an empty bay after POR with its lines released and open. -/
def Bay.reset : Bay :=
  { state := .empty, presLine := false, presence := false, presDeb := none, latchLine := false, latch := false,
    latchDeb := none, refuse := false, refusal := .none, deferred := false, lastHandover := .none, faultReason := .none,
    probeCause := .none, jolt := none, context := none }

/-- R69. -/
def Relay.reset : Relay :=
  { link := none, slot := none, pollDue := false, poll := none, failCount := 0, ring := [], ptr := 0,
    snap := Snapshot.absent, probe := none, recover := .notRunning }

/-- R178. -/
def Region.reset : Region := { state := .empty, lock := false, words := [] }

/-- The part right after power-on reset with every input line low: no pack, latches open, no external supply, bridge cell not
ready (DESIGN CHOICE, log 1). The values are those of R14, R46, R69, R104, R118, R138, R161, R178, R190, R201 and R202; with no source
conducting H is -24,000 mW, C is MIN_LEVEL 20 and O is min(300, 20). -/
def State.reset : State :=
  { pp := { sw := ⟨.off, .off⟩, held := ⟨false, false⟩, ext := false, bridgeReady := false, bridge := .idle, timer := 0,
            bridgeSw := false, lowpwr := false, pfail := false },
    bays := ⟨Bay.reset, Bay.reset⟩,
    relays := ⟨Relay.reset, Relay.reset⟩,
    pollTimer := 250,
    upstream := { tx := none, answer := .none },
    mapInst := 0,
    cache := List.replicate 16 CacheSet.reset,
    budget := { pExt := 0, pA := 0, pB := 0, basisA := .notCounted, basisB := .notCounted, deratedA := false,
                deratedB := false, pBridge := 0, pAvail := 0, h := -24000, cBudget := 20, c := 20 },
    pipe := { mode := .auto, manual := 500, hostMax := 1000, l := 0, t := 20, s := 320, d := 20, o := 20,
              clampedLux := false, ceilingLimited := false },
    lane := [],
    motion := { detector := .armed, run := 0, n := 0, kind := .fall, impacts := 0, settle := 0, peak := 0,
                saturated := false, stall := none, window := .closed, hold := none, jolted := ⟨false, false⟩, park := false },
    log := { records := [], next := some 1 },
    tables := ⟨Region.reset, Region.reset, Region.reset, Region.reset⟩,
    port := { slot := .empty, resetSeen := true },
    attn := { queue := [], req := false },
    flags := { holdSwapA := false, holdSwapB := false, holdPoll := false, holdCurve := false, sem0 := false, sem1 := false,
               sem2 := false, sem3 := false },
    time := { uptime := 0, ageMs := 0, secondMs := 0 },
    pending := [] }

end Sys2Proof.Machine
end

