-- ==== Sys2Proof/Machine/Operands.lean ====
section
/-! DEFINITION. Bytes and codes: byte order (R191), the codes of enumerated fields and details (R193), frames (R185), and the bits of
table words (R195). -/

namespace Sys2Proof.Machine

/-! ### Byte order, R191: low byte first -/

/-- The low byte of a number. -/
def byteOf (n : Nat) : Byte := BitVec.ofNat 8 n

/-- A quantity of two bytes. -/
def le16 (n : Nat) : List Byte := [byteOf n, byteOf (n / 256)]

/-- A quantity of four bytes. -/
def le32 (n : Nat) : List Byte := [byteOf n, byteOf (n / 256), byteOf (n / 65536), byteOf (n / 16777216)]

/-- A signed quantity of four bytes, two's complement. -/
def leInt32 (i : Int) : List Byte := le32 (BitVec.ofInt 32 i).toNat

/-- The 16-bit quantity that arrives as `lo` and then `hi`. -/
def halfOf (lo hi : Byte) : Half := hi ++ lo

/-- The 32-bit quantity that arrives as four bytes. -/
def wordOf (b0 b1 b2 b3 : Byte) : Word := b3 ++ b2 ++ b1 ++ b0

/-- Flag bit `k` of a byte, as a summand. -/
def bitAt (k : Nat) (b : Bool) : Nat := if b then 2 ^ k else 0

/-- An absent value is sent as 0 (R191). -/
def orZero : Option Half → Nat
  | some v => v.toNat
  | none => 0

/-- R49, R185: what a master that reads `count` bytes gets of `bytes`; every byte beyond them is FFh. -/
def readOut (count : Nat) (bytes : List Byte) : List Byte :=
  (bytes ++ List.replicate count (0xFF#8)).take count

/-- R192: parameter bytes of a Table Write after the count byte, as words. -/
def wordsOf : List Byte → List Word
  | b0 :: b1 :: b2 :: b3 :: rest => wordOf b0 b1 b2 b3 :: wordsOf rest
  | _ => []

/-! ### Codes of enumerated fields, R193 -/

def bayCode : BayId → Nat
  | .A => 0
  | .B => 1

def bayStateCode : BayState → Nat
  | .empty => 0 | .seating => 1 | .probing => 2 | .standby => 3 | .online => 4 | .releasing => 5 | .jolt => 6 | .faulted => 7

def refusalCode : RefusalReason → Nat
  | .none => 0 | .held => 1 | .drop => 2 | .lowBudget => 3 | .mismatch => 4 | .noSource => 5

def handoverCode : HandoverKind → Nat
  | .none => 0 | .plain => 1 | .makeFirst => 2 | .breakFirst => 3 | .bridgeThrough => 4 | .bridgeHold => 5

def faultCode : FaultReason → Nat
  | .none => 0 | .link => 1 | .admission => 2

def causeCode : ProbeCause → Nat
  | .none => 0 | .insertion => 1 | .joltReturn => 2 | .bayProbe => 3

def switchCode : Switch → Nat
  | .off => 0 | .passive => 1 | .on => 2

def bridgeCode : BridgeState → Nat
  | .idle => 0 | .running => 1 | .expired => 2

def basisCode : Basis → Nat
  | .notCounted => 0 | .snapshot => 1 | .dflt => 2

def lineStateCode : LineState → Nat
  | .fresh => 0 | .suspect => 1 | .parked => 2

def regionStateCode : RegionState → Nat
  | .empty => 0 | .loading => 1 | .checking => 2 | .inService => 3

def modeCode : PipeMode → Nat
  | .auto => 0 | .manual => 1

def detectorCode : Detector → Nat
  | .armed => 0 | .falling => 1 | .impact => 2

def windowCode : Window → Nat
  | .closed => 0 | .open => 1 | .holding => 2

def dropKindCode : DropKind → Nat
  | .fall => 0 | .strike => 1

def restAxisCode : RestAxis → Nat
  | .none => 0 | .xPos => 1 | .xNeg => 2 | .yPos => 3 | .yNeg => 4 | .zPos => 5 | .zNeg => 6

def joltEarlierState : JoltEarlier → BayState
  | .online => .online
  | .standby => .standby
  | .probing => .probing

def resultByte : ResultCode → Byte
  | .ok => 0x00 | .accepted => 0x01 | .empty => 0x02 | .invalid => 0x03 | .param => 0x04
  | .busy => 0x05 | .state => 0x06 | .locked => 0x07 | .blank => 0x08 | .refused => 0x09

/-- The bay a parameter byte names: 0 A, 1 B (R42, R66). -/
def bayOfByte (b : Byte) : Option BayId :=
  match b.toNat with
  | 0 => some .A
  | 1 => some .B
  | _ => none

/-- The region a parameter byte names (R192). -/
def regionOfByte (b : Byte) : Option RegionId :=
  match b.toNat with
  | 0 => some .config
  | 1 => some .codemap
  | 2 => some .curve
  | 3 => some .motion
  | _ => none

def regionCode : RegionId → Nat
  | .config => 0 | .codemap => 1 | .curve => 2 | .motion => 3

/-- The cause byte of an attention entry (R193). -/
def attnCause : AttnKey → Nat
  | .presence _ => 0x01 | .swapDone _ => 0x02 | .swapRefused _ => 0x03 | .bayFault _ => 0x04 | .linkDone _ => 0x05
  | .filterDeny _ => 0x06 | .jolt _ => 0x07 | .tableDone _ => 0x08 | .drop => 0x09 | .bridgeOn => 0x0A
  | .bridgeLow => 0x0B | .budgetCut => 0x0C

/-- The source byte of an attention entry (R193). -/
def attnSource : AttnKey → Nat
  | .presence (.bay x) => bayCode x
  | .presence .ext => 2
  | .swapDone x | .swapRefused x | .bayFault x | .linkDone x | .filterDeny x | .jolt x => bayCode x
  | .tableDone r => regionCode r
  | .drop | .bridgeOn | .bridgeLow | .budgetCut => 0

/-! ### Details, R193: kind byte and value -/

def dArrived : Detail := ⟨0, 0⟩
def dDeparted : Detail := ⟨1, 0⟩
def dInsertion : Detail := ⟨0, 0⟩
def dReinsertion : Detail := ⟨1, 0⟩
def dTakeOver : Detail := ⟨2, 0⟩
def dRefusal (r : RefusalReason) : Detail := ⟨refusalCode r, 0⟩
def dFault (r : FaultReason) : Detail := ⟨faultCode r, 0⟩
def dAdmitted : Detail := ⟨0, 0⟩
def dNotAdmitted : Detail := ⟨1, 0⟩
def dLinkFailed : Detail := ⟨2, 0⟩
def dAborted : Detail := ⟨3, 0⟩
def dRecoverOk : Detail := ⟨4, 0⟩
def dRecoverFail : Detail := ⟨5, 0⟩
def dDenied (c : Code) : Detail := ⟨0, c.toNat⟩
def dSame : Detail := ⟨0, 0⟩
def dDifferent : Detail := ⟨1, 0⟩
def dExpired : Detail := ⟨2, 0⟩
def dPass : Detail := ⟨0, 0⟩
def dFailBlank (w : Nat) : Detail := ⟨1, w⟩
def dFailSum (w : Nat) : Detail := ⟨2, w⟩
def dFailField (w : Nat) : Detail := ⟨3, w⟩
def dStored (seq : Nat) : Detail := ⟨0, seq⟩
def dDiscarded (seq : Nat) : Detail := ⟨1, seq⟩
def dExhausted : Detail := ⟨2, 0⟩
def dRunTimer (ms : Nat) : Detail := ⟨0, ms⟩
def dCeiling (c : Nat) : Detail := ⟨0, c⟩

/-- The detail of BRIDGE_ON (R8, R193). -/
def dBridge : BridgeReason → Detail
  | .through => ⟨0, 0⟩
  | .hold => ⟨1, 0⟩
  | .emergency => ⟨2, 0⟩

/-! ### Frames -/

/-- R185, R191: a result frame on the link: the number of bytes that follow, the result code, the data. -/
def frameBytes (f : Frame) : List Byte :=
  byteOf (1 + f.data.length) :: resultByte f.code :: f.data

/-- R187: a frame of any code but OK and REFUSED has length 1. -/
def bareFrame (c : ResultCode) : Frame := { code := c, data := [] }

/-- The frame of an OK result. -/
def okFrame (data : List Byte) : Frame := { code := .ok, data := data }

/-- The attention entry of 10 bytes (R194). -/
def attnBytes (e : AttnEntry) : List Byte :=
  [byteOf (attnCause e.key), byteOf (attnSource e.key), byteOf e.count] ++ le32 e.first
    ++ [byteOf e.detail.kind] ++ le16 e.detail.value

/-! ### Table words, R195 -/

/-- Bits `lo` to `lo + len - 1` of a word as a number. -/
def bitField (w : Word) (lo len : Nat) : Nat := (w.toNat / 2 ^ lo) % 2 ^ len

/-- One entry of the code map (section 4.1). -/
structure MapEntry where
  readPermit : Bool
  writePermit : Bool
  cls : CacheClass
  maxAge : Nat
  tag : Tag
  poll : Bool
  deriving DecidableEq, Repr

/-- R193: cache class codes; 3 fails validation (R195) and never stands in a map in service. -/
def classOf : Nat → CacheClass
  | 1 => .timed
  | 2 => .fixed
  | _ => .none

/-- R193: meaning tag codes; 7 fails validation (R195). -/
def tagOf : Nat → Tag
  | 1 => .voltage
  | 2 => .maxDischarge
  | 3 => .remaining
  | 4 => .status
  | 5 => .temperature
  | 6 => .serial
  | _ => .none

/-- R195: the fields of a CODEMAP entry. -/
def entryOf (w : Word) : MapEntry :=
  { readPermit := bitField w 0 1 == 1, writePermit := bitField w 1 1 == 1, cls := classOf (bitField w 2 2),
    maxAge := bitField w 8 8, tag := tagOf (bitField w 16 3), poll := bitField w 20 1 == 1 }

/-- R195: a CURVE breakpoint as (lux, level). -/
def breakpointOf (w : Word) : Nat × Nat := (bitField w 0 16, bitField w 16 16)

/-! ### Code bytes, section 10.7.1 -/

/-- The kind marker of a code byte, bit 7: set for a block transaction. -/
def codeByteBlock (b : Byte) : Bool := 128 ≤ b.toNat

/-- The pack code of a code byte, bits 6 to 0. -/
def codeByteCode (b : Byte) : Code := BitVec.ofNat 7 b.toNat

end Sys2Proof.Machine
end

