-- ==== Sys2Proof/Machine/Flags.lean ====
section
/-! DEFINITION. The service flags by number (R192, R202) and the status byte (R181). -/

namespace Sys2Proof.Machine

/-- R192: the value of flag number `n`, 0 to 7; a number above 7 names no flag. -/
def flagGet (f : Flags) : Nat → Option Bool
  | 0 => some f.holdSwapA
  | 1 => some f.holdSwapB
  | 2 => some f.holdPoll
  | 3 => some f.holdCurve
  | 4 => some f.sem0
  | 5 => some f.sem1
  | 6 => some f.sem2
  | 7 => some f.sem3
  | _ => none

/-- The flags with flag number `n` given the value `v`. -/
def flagPut (f : Flags) (n : Nat) (v : Bool) : Flags :=
  match n with
  | 0 => { f with holdSwapA := v }
  | 1 => { f with holdSwapB := v }
  | 2 => { f with holdPoll := v }
  | 3 => { f with holdCurve := v }
  | 4 => { f with sem0 := v }
  | 5 => { f with sem1 := v }
  | 6 => { f with sem2 := v }
  | 7 => { f with sem3 := v }
  | _ => f

/-- R202: all clear. -/
def flagsClear : Flags :=
  { holdSwapA := false, holdSwapB := false, holdPoll := false, holdCurve := false, sem0 := false, sem1 := false,
    sem2 := false, sem3 := false }

/-- The HOLD_SWAP flag of bay `x` (R26). -/
def holdSwap (s : State) : BayId → Bool
  | .A => s.flags.holdSwapA
  | .B => s.flags.holdSwapB

/-- R45, R62, R66: a background operation runs on the bay's link: a Link Recover, or a probe started by Bay Probe. -/
def background (s : State) (x : BayId) : Bool :=
  (s.relays.get x).recover != .notRunning ||
    match (s.relays.get x).probe with
    | some p => p.background
    | none => false

/-- R164: at least one region is CHECKING. -/
def anyChecking (t : Tables) : Bool :=
  t.config.state == .checking || t.codemap.state == .checking || t.curve.state == .checking || t.motion.state == .checking

/-- R181: the status byte as a status read returns it; the read changes nothing and has no row in the table. -/
def statusByte (s : State) : Byte :=
  byteOf (bitAt 0 (s.port.slot == .empty)
    + bitAt 1 (match s.port.slot with | .pending _ => true | _ => false)
    + bitAt 2 (!s.attn.queue.isEmpty)
    + bitAt 3 (anyChecking s.tables)
    + bitAt 4 (background s .A)
    + bitAt 5 (background s .B)
    + bitAt 6 (s.pp.bridge != .idle)
    + bitAt 7 s.port.resetSeen)

end Sys2Proof.Machine
end

