-- ==== Sys2Proof/Machine/Ops.lean ====
section
/-! DEFINITION. The operations every block shares: Table Memory and the contents in effect (chapter 9), posting attention (chapter 11), the
set of conducting sources and the budget (R2, chapter 6), and the requests the Power Path Controller carries out (chapter 1). -/

namespace Sys2Proof.Machine

/-! ### Access to the parts of the state -/

/-- Change the bay record of `x`. -/
def updBay (x : BayId) (f : Bay → Bay) (s : State) : State := { s with bays := s.bays.upd x f }

/-- Change the relay's state for bay `x`. -/
def updRelay (x : BayId) (f : Relay → Relay) (s : State) : State := { s with relays := s.relays.upd x f }

/-- The region `r`. -/
def Tables.get (t : Tables) : RegionId → Region
  | .config => t.config
  | .codemap => t.codemap
  | .curve => t.curve
  | .motion => t.motion

/-- The tables with region `r` changed. -/
def Tables.upd (t : Tables) (r : RegionId) (f : Region → Region) : Tables :=
  match r with
  | .config => { t with config := f t.config }
  | .codemap => { t with codemap := f t.codemap }
  | .curve => { t with curve := f t.curve }
  | .motion => { t with motion := f t.motion }

/-- Change the region `r`. -/
def updRegion (r : RegionId) (f : Region → Region) (s : State) : State := { s with tables := s.tables.upd r f }

/-- The answer of the part on the upstream link. -/
def setAnswer (a : Answer) (s : State) : State := { s with upstream := { s.upstream with answer := a } }

/-- The platform transaction in progress ends, with the part's answer. -/
def endUpstream (a : Answer) (s : State) : State := { s with upstream := { tx := none, answer := a } }

/-! ### Table Memory: words and blank marks (R163) -/

/-- The word with number `i`, if it has been written since the region was last cleared. -/
def Memory.get? : Memory → Nat → Option Word
  | [], _ => none
  | (k, w) :: rest, i => if k = i then some w else Memory.get? rest i

/-- R176: a blank word reads as 0. -/
def Memory.read (m : Memory) (i : Nat) : Word := (Memory.get? m i).getD 0

/-- Write word `i`, keeping the word numbers strictly rising. -/
def Memory.write : Memory → Nat → Word → Memory
  | [], i, w => [(i, w)]
  | (k, v) :: rest, i, w =>
      if i < k then (i, w) :: (k, v) :: rest
      else if i = k then (i, w) :: rest
      else (k, v) :: Memory.write rest i w

/-- R169: write consecutive words from number `i` on. -/
def Memory.writeAll (m : Memory) (i : Nat) : List Word → Memory
  | [] => m
  | w :: ws => Memory.writeAll (Memory.write m i w) (i + 1) ws

/-- Every word number is above `b`, and they rise strictly. -/
def Memory.risingFrom : Memory → Nat → Bool
  | [], _ => true
  | (k, _) :: rest, b => b ≤ k && Memory.risingFrom rest (k + 1)

/-- The canonical form of a region's words: strictly rising word numbers, all below the region's size. -/
def Memory.wf (size : Nat) (m : Memory) : Bool :=
  Memory.risingFrom m 0 && m.all (fun c => c.1 < size)

/-- R176: how many of the `n` words from number `i` on are blank. -/
def Memory.blanks (m : Memory) (i n : Nat) : Nat :=
  ((List.range n).filter (fun k => (Memory.get? m (i + k)).isNone)).length

/-! ### Contents in effect (R165) -/

/-- Word `i` of the contents in effect of region `r`. -/
def inEffect (s : State) (r : RegionId) (i : Nat) : Word :=
  if (s.tables.get r).state = .inService then Memory.read (s.tables.get r).words i else Config.defaultWord r i

/-- A CONFIG field in effect, unsigned. -/
def cfg (s : State) (i : Nat) : Nat := (inEffect s .config i).toNat

def extLimit (s : State) : Nat := cfg s 0
def bayLimit (s : State) : Nat := cfg s 1
def defaultPack (s : State) : Nat := cfg s 2
def bridgeMw (s : State) : Nat := cfg s 3
def bridgeMax (s : State) : Nat := cfg s 4
def bridgeAllowed (s : State) : Bool := cfg s 5 == 1
def breakFirstOk (s : State) : Bool := cfg s 6 == 1
def vdiffMax (s : State) : Nat := cfg s 7
def vMin (s : State) : Nat := cfg s 8
def vMax (s : State) : Nat := cfg s 9
def statusFaultMask (s : State) : Half := BitVec.ofNat 16 (cfg s 10)
def tempHot (s : State) : Int := (inEffect s .config 11).toInt
def tempMax (s : State) : Int := (inEffect s .config 12).toInt
def presenceDebounce (s : State) : Nat := cfg s 13
def latchDebounce (s : State) : Nat := cfg s 14
def joltHoldMs (s : State) : Nat := cfg s 15
def reinsertWindow (s : State) : Nat := cfg s 16
def platformReserve (s : State) : Nat := cfg s 17
def pMinRun (s : State) : Nat := cfg s 18
def linkTimeoutMs (s : State) : Nat := cfg s 19
def linkRetries (s : State) : Nat := cfg s 20
def faultLimit (s : State) : Nat := cfg s 21
def pollPeriod (s : State) : Nat := cfg s 22
def blBase (s : State) : Nat := cfg s 23
def blFull (s : State) : Nat := cfg s 24
def minLevel (s : State) : Nat := cfg s 25

/-- R71: the contents of the map in service. -/
def mapInService (s : State) : MapView :=
  if s.tables.codemap.state = .inService then .loaded s.tables.codemap.words else .builtin

/-- Word `i` of a map instance. -/
def mapWord : MapView → Nat → Word
  | .builtin, i => Config.defaultWord .codemap i
  | .loaded m, i => Memory.read m i

/-- The map length (R73). -/
def mapLength (v : MapView) : Nat := (mapWord v 0).toNat

/-- The entry of a code, at word code + 1 (R163). -/
def mapEntry (v : MapView) (c : Code) : MapEntry := entryOf (mapWord v (c.toNat + 1))

/-- What instance `inst` with contents `v` says of a code (R71). -/
def governing (inst : Nat) (v : MapView) (c : Code) : Governing :=
  { inst := inst, cls := (mapEntry v c).cls, maxAge := (mapEntry v c).maxAge, tag := (mapEntry v c).tag }

/-- The 128 pack codes in ascending order. -/
def allCodes : List Code := (List.range 128).map (fun n => BitVec.ofNat 7 n)

/-- R59, R82: the poll ring of a map: every code within it that carries the poll flag, ascending. -/
def ringOf (v : MapView) : List Code :=
  allCodes.filter (fun c => c.toNat < mapLength v && (mapEntry v c).poll)

/-- R62: the code that carries a tag. -/
def codeOfTag (v : MapView) (t : Tag) : Option Code :=
  allCodes.find? (fun c => (mapEntry v c).tag == t)

/-! ### Attention (R197 to R199) -/

/-- R197: append a new entry at the tail, or coalesce into the entry of the pair. -/
def coalesce (k : AttnKey) (d : Detail) (now : Nat) : List AttnEntry → List AttnEntry
  | [] => [{ key := k, count := 1, first := now, detail := d }]
  | e :: rest =>
      if e.key = k then { e with count := min 255 (e.count + 1), detail := d } :: rest
      else e :: coalesce k d now rest

/-- Post attention; ATTN_REQ is asserted while the queue holds an entry (R199). -/
def post (k : AttnKey) (d : Detail) (s : State) : State :=
  { s with attn := { queue := coalesce k d s.time.uptime s.attn.queue, req := true } }

/-! ### Conducting sources (R2) -/

/-- R2: a bay conducts while its switch is ON or PASSIVE and its recorded presence is asserted. -/
def conductsBay (s : State) (x : BayId) : Bool := s.pp.sw.get x != .off && (s.bays.get x).presence

/-- R2: the bridge conducts while RUNNING or EXPIRED. -/
def conductsBridge (s : State) : Bool := s.pp.bridge != .idle

/-- R5: a source other than bay `x` is conducting. -/
def otherConducts (s : State) (x : BayId) : Bool := s.pp.ext || conductsBay s x.other || conductsBridge s

/-- The set of conducting sources is not empty. -/
def anyConducts (s : State) : Bool := s.pp.ext || conductsBay s .A || conductsBay s .B || conductsBridge s

/-! ### Budget (chapter 6) -/

/-- The contribution of a bay as R109 and R110 compute it. -/
structure BayPower where
  power : Nat
  basis : Basis
  derated : Bool
  deriving DecidableEq, Repr

/-- R109: raw power and basis. -/
def rawPower (s : State) (x : BayId) : Nat × Basis :=
  match (s.relays.get x).snap.voltage, (s.relays.get x).snap.maxDischarge with
  | some v, some i => (v.toNat * i.toNat / 1000, .snapshot)
  | _, _ => (defaultPack s, .dflt)

/-- R110: TEMPERATURE is present and at least TEMP_HOT, signed. -/
def hot (s : State) (x : BayId) : Bool :=
  match (s.relays.get x).snap.temperature with
  | some t => tempHot s ≤ t.toInt
  | none => false

/-- R109, R110: the contribution of bay `x` as if it were conducting (R116). -/
def bayPower (s : State) (x : BayId) : BayPower :=
  { power := if hot s x then min (rawPower s x).1 (bayLimit s) / 2 else min (rawPower s x).1 (bayLimit s),
    basis := (rawPower s x).2, derated := hot s x }

/-- R108: a bay that is not conducting counts 0. -/
def countedPower (s : State) (x : BayId) : BayPower :=
  if conductsBay s x then bayPower s x else { power := 0, basis := .notCounted, derated := false }

/-- R107. -/
def extPower (s : State) : Nat := if s.pp.ext then extLimit s else 0

/-- R111. -/
def bridgePower (s : State) : Nat := if conductsBridge s then bridgeMw s else 0

/-- R112: the ceiling the headroom allows. -/
def budgetCeiling (minL base full : Nat) (h : Int) : Nat :=
  if h ≤ (base : Int) then minL else min 1000 (max minL (((h - base) * 1000 / (full : Int)).toNat))

/-- R105 to R113: every field afresh from the inputs as they stand. -/
def computeBudget (s : State) : Budget :=
  let a := countedPower s .A
  let b := countedPower s .B
  let avail := extPower s + a.power + b.power + bridgePower s
  let h := (avail : Int) - (platformReserve s : Int)
  let cb := budgetCeiling (minLevel s) (blBase s) (blFull s) h
  { pExt := extPower s, pA := a.power, pB := b.power, basisA := a.basis, basisB := b.basis, deratedA := a.derated,
    deratedB := b.derated, pBridge := bridgePower s, pAvail := avail, h := h, cBudget := cb,
    c := min cb s.pipe.hostMax }

/-- Set the output level (R114, R130). -/
def setOutput (o : Nat) (s : State) : State := { s with pipe := { s.pipe with o := o } }

/-- R114: the ceiling cut and the raise to the floor at the end of a recomputation. -/
def applyCeiling (s : State) : State :=
  if s.budget.c < s.pipe.o then post .budgetCut (dCeiling s.budget.c) (setOutput s.budget.c s)
  else if s.pipe.o < minLevel s then setOutput (minLevel s) s
  else s

/-- R105, R114: one recomputation. -/
def recompute (s : State) : State := applyCeiling { s with budget := computeBudget s }

/-- R116, case 3: the total of the set of conducting sources without `x`. -/
def totalWithout (s : State) (x : BayId) : Nat :=
  extPower s + (countedPower s x.other).power + bridgePower s

/-! ### Power Path Controller (chapter 1) -/

/-- Change the power path and recompute, as R16 hands every change to the Budget Unit. -/
def updPower (f : PowerPath → PowerPath) (s : State) : State := recompute { s with pp := f s.pp }

/-- Set or clear the held mark of a bay (R3). -/
def setHeld (x : BayId) (v : Bool) (s : State) : State :=
  { s with pp := { s.pp with held := s.pp.held.upd x (fun _ => v) } }

/-- Give the switch of a bay a setting and clear its held mark (R3). -/
def setSwitch (x : BayId) (v : Switch) (s : State) : State :=
  updPower (fun p => { p with sw := p.sw.upd x (fun _ => v), held := p.held.upd x (fun _ => false) }) s

/-- R6 for one bay: held, not ONLINE, and another source conducts. -/
def releaseHeldOne (x : BayId) (s : State) : State :=
  if s.pp.held.get x ∧ (s.bays.get x).state ≠ .online ∧ otherConducts s x then setSwitch x .off s else s

/-- R6: held switches are released, bay A and then bay B. -/
def releaseHeld (s : State) : State := releaseHeldOne .B (releaseHeldOne .A s)

/-- R10: the end of a bridge run. -/
def endBridge (s : State) : State :=
  if s.pp.bridge = .idle then s
  else updPower (fun p => { p with bridge := .idle, timer := 0, bridgeSw := false, lowpwr := false, pfail := false }) s

/-- R4: a turn-on request. A switch newly ON with its pack present ends a bridge run (R10) and then releases held switches (R6, log 9). -/
def switchOn (x : BayId) (s : State) : State :=
  if s.pp.sw.get x = .on then setHeld x false s
  else if (s.bays.get x).presence then releaseHeld (endBridge (setSwitch x .on s))
  else setSwitch x .on s

/-- R5: a turn-off request is carried out only if another source conducts; otherwise the switch is held. -/
def switchOff (x : BayId) (s : State) : State :=
  if s.pp.sw.get x = .off then setHeld x false s
  else if otherConducts s x then setSwitch x .off s
  else setHeld x true s

/-- R8: the start test, which also answers "the bridge can start". -/
def bridgeCanStart (s : State) : Bool := s.pp.bridge == .idle && bridgeAllowed s && s.pp.bridgeReady

/-- R8: a bridge start request. -/
def startBridge (why : BridgeReason) (s : State) : State :=
  if bridgeCanStart s then
    releaseHeld (recompute (post .bridgeOn (dBridge why)
      { s with pp := { s.pp with bridge := .running, bridgeSw := true, timer := 0, lowpwr := true } }))
  else s

end Sys2Proof.Machine
end

