-- ==== Sys2Proof/Machine/Cache.lean ====
section
/-! DEFINITION. The Reading Cache (chapter 5): lookup, service, fill, replacement, write-through, and what the notices of other blocks do
to its lines. -/

namespace Sys2Proof.Machine

/-- The line in a way of a set. -/
def CacheSet.get (cs : CacheSet) : Way → Line
  | .w0 => cs.l0
  | .w1 => cs.l1
  | .w2 => cs.l2
  | .w3 => cs.l3

/-- The set with the line in a way replaced. -/
def CacheSet.put (cs : CacheSet) (w : Way) (l : Line) : CacheSet :=
  match w with
  | .w0 => { cs with l0 := l }
  | .w1 => { cs with l1 := l }
  | .w2 => { cs with l2 := l }
  | .w3 => { cs with l3 := l }

/-- The set with every line changed by `f`; the replacement bits stay. -/
def CacheSet.mapLines (f : Line → Line) (cs : CacheSet) : CacheSet :=
  { cs with l0 := f cs.l0, l1 := f cs.l1, l2 := f cs.l2, l3 := f cs.l3 }

/-- R85: the set number of a code. -/
def setOf (c : Code) : Nat := c.toNat % 16

/-- Set number `i` of the cache. -/
def cacheSet (cache : List CacheSet) (i : Nat) : CacheSet := (cache[i]?).getD CacheSet.reset

/-- A line holds a value of bay `x` and code `c` (R86). -/
def Line.holds (l : Line) (x : BayId) (c : Code) : Bool := l.valid && l.bay == x && l.code == c

/-- R86: the way that holds bay and code in a set, whatever the line's state. -/
def CacheSet.find (cs : CacheSet) (x : BayId) (c : Code) : Option Way :=
  if cs.l0.holds x c then some .w0
  else if cs.l1.holds x c then some .w1
  else if cs.l2.holds x c then some .w2
  else if cs.l3.holds x c then some .w3
  else none

/-- R90: the way a new line takes: the first invalid way, else the victim of the replacement bits. -/
def CacheSet.victim (cs : CacheSet) : Way :=
  if !cs.l0.valid then .w0
  else if !cs.l1.valid then .w1
  else if !cs.l2.valid then .w2
  else if !cs.l3.valid then .w3
  else if !cs.s0 then (if !cs.s1 then .w0 else .w1)
  else (if !cs.s2 then .w2 else .w3)

/-- R91: the replacement bits point away from the way used. -/
def CacheSet.touch (cs : CacheSet) : Way → CacheSet
  | .w0 => { cs with s0 := true, s1 := true }
  | .w1 => { cs with s0 := true, s1 := false }
  | .w2 => { cs with s0 := false, s2 := true }
  | .w3 => { cs with s0 := false, s2 := false }

/-- Change one set of the cache. -/
def updSet (i : Nat) (f : CacheSet → CacheSet) (s : State) : State :=
  { s with cache := s.cache.set i (f (cacheSet s.cache i)) }

/-- Change every line of the cache. -/
def mapCache (f : Line → Line) (s : State) : State := { s with cache := s.cache.map (CacheSet.mapLines f) }

/-- A bay in STANDBY, ONLINE or RELEASING: the states in which lines may be FRESH and polls run. -/
def steady (st : BayState) : Bool := st == .standby || st == .online || st == .releasing

/-- R87: the value the cache serves for a platform READ_VALUE, with the way it stands in. -/
def cacheServes (s : State) (x : BayId) (c : Code) (gov : Governing) : Option (Way × Half) :=
  match (cacheSet s.cache (setOf c)).find x c with
  | none => none
  | some w =>
      if ((cacheSet s.cache (setOf c)).get w).state = .fresh ∧
          (gov.cls = .fixed ∨ (gov.cls = .timed ∧ ((cacheSet s.cache (setOf c)).get w).age < gov.maxAge)) then
        some (w, ((cacheSet s.cache (setOf c)).get w).value)
      else none

/-- R89, R90, R91: a set after a fill taken. -/
def CacheSet.fill (cs : CacheSet) (x : BayId) (c : Code) (v : Half) : CacheSet :=
  let w := (cs.find x c).getD cs.victim
  (cs.put w { valid := true, bay := x, code := c, value := v, state := .fresh, age := 0 }).touch w

/-- R89: a DONE READ_VALUE is handed to the cache as a fill. -/
def cacheFill (x : BayId) (c : Code) (gov : Governing) (v : Half) (s : State) : State :=
  if gov.cls ≠ .none ∧ gov.inst = s.mapInst ∧ steady (s.bays.get x).state then
    updSet (setOf c) (fun cs => cs.fill x c v) s
  else s

/-- R92: what a write-through does to the line it hits. -/
def writeLine (isSteady : Bool) (v : Half) (l : Line) : Line :=
  if isSteady then
    match l.state with
    | .parked => l
    | .fresh | .suspect => { l with value := v, state := .fresh, age := 0 }
  else Line.invalid

/-- R92: a DONE WRITE_VALUE is handed to the cache as a write-through; a miss allocates nothing. -/
def cacheWrite (x : BayId) (c : Code) (gov : Governing) (v : Half) (s : State) : State :=
  if gov.inst = s.mapInst then
    match (cacheSet s.cache (setOf c)).find x c with
    | none => s
    | some w => updSet (setOf c) (fun cs => cs.put w (writeLine (steady (s.bays.get x).state) v (cs.get w))) s
  else s

/-- FRESH becomes SUSPECT, keeping value and age; every other line stays. -/
def Line.distrust (l : Line) : Line :=
  if l.valid ∧ l.state = .fresh then { l with state := .suspect } else l

/-- R93: a failed WRITE_VALUE makes a FRESH line of the code SUSPECT. -/
def cacheFailedWrite (x : BayId) (c : Code) (s : State) : State :=
  match (cacheSet s.cache (setOf c)).find x c with
  | none => s
  | some w => updSet (setOf c) (fun cs => cs.put w (cs.get w).distrust) s

/-- R94: one age tick. -/
def Line.older (l : Line) : Line := if l.valid then { l with age := min 255 (l.age + 1) } else l

/-- R95: the bay has entered PROBING, JOLT or FAULTED. -/
def cacheDistrust (x : BayId) (s : State) : State := mapCache (fun l => if l.bay = x then l.distrust else l) s

/-- R96: the detector has entered IMPACT. -/
def cacheImpact (s : State) : State := mapCache Line.distrust s

/-- R97: what the EMPTY notice does to one line of the bay. -/
def parkLine (view : MapView) (l : Line) : Line :=
  match l.state with
  | .fresh => if (mapEntry view l.code).cls = .fixed then { l with state := .parked } else Line.invalid
  | .suspect => Line.invalid
  | .parked => l

/-- R97: the bay has entered EMPTY. -/
def cacheEmpty (x : BayId) (s : State) : State :=
  mapCache (fun l => if l.valid ∧ l.bay = x then parkLine (mapInService s) l else l) s

/-- R99: on a match, the bay's PARKED lines become FRESH. -/
def cacheRestore (x : BayId) (s : State) : State :=
  mapCache (fun l => if l.valid ∧ l.bay = x ∧ l.state = .parked then { l with state := .fresh } else l) s

/-- R99: without a match or on a discard, the bay's PARKED lines are invalidated. -/
def cacheDropParked (x : BayId) (s : State) : State :=
  mapCache (fun l => if l.valid ∧ l.bay = x ∧ l.state = .parked then Line.invalid else l) s

/-- R100, R102: every line of the bay is invalidated. -/
def cacheDropBay (x : BayId) (s : State) : State :=
  mapCache (fun l => if l.valid ∧ l.bay = x then Line.invalid else l) s

/-- R101: every line is invalidated; the replacement bits stay. -/
def cacheDropAll (s : State) : State := mapCache (fun _ => Line.invalid) s

/-- R104: every line invalid and every replacement bit 0. -/
def cacheReset (s : State) : State := { s with cache := List.replicate 16 CacheSet.reset }

/-- How many lines of a set satisfy `p`. -/
def CacheSet.countLines (p : Line → Bool) (cs : CacheSet) : Nat :=
  [cs.l0, cs.l1, cs.l2, cs.l3].countP p

/-- R102: how many lines of the cache satisfy `p`. -/
def cacheCount (p : Line → Bool) (s : State) : Nat := (s.cache.map (CacheSet.countLines p)).sum

end Sys2Proof.Machine
end

