-- ==== Sys2Proof/Machine/Bays.lean ====
section
/-! DEFINITION. The Bay Controller (chapter 2): switch requests, bay states, handover, loss and jolt, admission and placement, and what a
lost pack transaction ends (R55). -/

namespace Sys2Proof.Machine

/-! ### What ends on a pack link when its pack is lost -/

/-- The poll's attempt is in flight. -/
def pollInFlight (r : Relay) : Bool :=
  match r.link with
  | some tx => tx.purpose == .poll
  | none => false

/-- R60, R61: a pending poll is dropped, and a poll whose retry is yet to be made ends without it. A poll with its attempt in flight stays until the
outcome (DESIGN CHOICE, log 45). -/
def dropPending (r : Relay) : Relay :=
  { r with pollDue := false, poll := if pollInFlight r then r.poll else none }

/-- R62: the probe ends at once; a read of it in flight goes on as an orphan. -/
def endProbe (r : Relay) : Relay :=
  { r with
    probe := none,
    link := match r.link with
      | some tx => some { tx with purpose := if tx.purpose = .probe then .orphan else tx.purpose }
      | none => none }

/-- R55: what a LOST outcome ends, by the transaction's purpose; no count, snapshot or cache line changes. -/
def endLost (x : BayId) (p : Purpose) (s : State) : State :=
  match p with
  | .platform => endUpstream .refused s
  | .poll => updRelay x (fun r => { r with poll := none }) s
  | .probe => updRelay x (fun r => { r with probe := none }) s
  | .orphan => s

/-- R57: a transaction waiting in the slot is refused when the loss is recorded against the transaction in flight. -/
def refuseSlot (x : BayId) (s : State) : State :=
  if (s.relays.get x).slot.isSome then endUpstream .refused (updRelay x (fun r => { r with slot := none }) s) else s

/-- R55: the transaction in flight on the link of `x` ends LOST. -/
def loseLink (x : BayId) (s : State) : State :=
  match (s.relays.get x).link with
  | none => s
  | some tx => refuseSlot x (endLost x tx.purpose (updRelay x (fun r => { r with link := none }) s))

/-- R68: the presence line ends a Link Recover with RECOVER_FAIL. -/
def failRecover (x : BayId) (s : State) : State :=
  if (s.relays.get x).recover = .notRunning then s
  else post (.linkDone x) dRecoverFail (updRelay x (fun r => { r with recover := .notRunning }) s)

/-! ### Bay states and switch requests -/

/-- A change of bay state. Leaving ONLINE releases the refuse indicator (R29); leaving PROBING ends the probe (R62); leaving STANDBY, ONLINE and
RELEASING drops a pending poll and an unmade retry (R60, R61); entering EMPTY or FAULTED clears the jolt record (R34). The Budget Unit
recomputes (R106). -/
def setBayState (x : BayId) (st : BayState) (s : State) : State :=
  recompute
    (updRelay x (fun r => if steady st then endProbe r else if st = .probing then dropPending r else dropPending (endProbe r))
      (updBay x (fun b => { b with
        state := st,
        refuse := if b.state = .online ∧ st ≠ .online then false else b.refuse,
        jolt := if st = .empty ∨ st = .faulted then none else b.jolt }) s))

/-- The turn-on request of the Bay Controller (R4). When the switch turns ON, a bay in JOLT whose switch is still ON is requested OFF (R34). -/
def requestOn (x : BayId) (s : State) : State :=
  if s.pp.sw.get x ≠ .on ∧ ((switchOn x s).bays.get x.other).state = .jolt ∧ (switchOn x s).pp.sw.get x.other = .on then
    switchOff x.other (switchOn x s)
  else switchOn x s

/-- The switch is requested ON, the bay goes to ONLINE, and SWAP_DONE is posted (R25). -/
def goOnline (x : BayId) (d : Detail) (s : State) : State :=
  post (.swapDone x) d (setBayState x .online (requestOn x s))

/-- R24, R27: both VOLTAGE snapshots are present and differ by at most VDIFF_MAX_mV. -/
def voltsClose (s : State) : Bool :=
  match (s.relays.get .A).snap.voltage, (s.relays.get .B).snap.voltage with
  | some v, some w => (v.toNat - w.toNat) + (w.toNat - v.toNat) ≤ vdiffMax s
  | _, _ => false

/-- R24: the paralleling rule for turning the switch of `x` ON. -/
def parallelAllows (x : BayId) (s : State) : Bool :=
  if s.pp.sw.get x.other = .on ∧ (s.bays.get x.other).presence then voltsClose s else true

/-- R25: a STANDBY bay with its latch closed goes ONLINE when the rule allows. -/
def standbyJoin (x : BayId) (s : State) : State :=
  if (s.bays.get x).state = .standby ∧ (s.bays.get x).latch ∧ parallelAllows x s then goOnline x dTakeOver s else s

/-- The switch of `y` has left ON, or its presence has fallen, between two states (R25). -/
def otherGone (old new : State) (y : BayId) : Bool :=
  (old.pp.sw.get y == .on && new.pp.sw.get y != .on) || ((old.bays.get y).presence && !(new.bays.get y).presence)

/-- R25, third event, for bay `x`, judged on the states around one action. -/
def settleOne (old new : State) (x : BayId) (s : State) : State :=
  if otherGone old new x.other then standbyJoin x s else s

/-- R25, R26: an action of the Bay Controller is carried out whole, and then the STANDBY bays take the events it made, A before B (log 10). -/
def settle (old new : State) : State := settleOne old new .B (settleOne old new .A new)

/-- An action followed by the events it made. -/
def settling (f : State → State) (s : State) : State := settle s (f s)

/-! ### Handover (R26 to R29) -/

/-- The outcome of a handover evaluation. -/
inductive EvalResult
  | released (k : HandoverKind)
  | refused (r : RefusalReason)
  | deferred
  deriving DecidableEq, Repr

/-- R29: the window is OPEN or HOLDING. -/
def windowOpen (s : State) : Bool := s.motion.window != .closed

/-- The bay goes to RELEASING; its last handover records the kind and its refusal reason becomes NONE (R27, R28, R29). -/
def releaseBay (x : BayId) (k : HandoverKind) (s : State) : State :=
  setBayState x .releasing
    (updBay x (fun b => { b with lastHandover := k, refusal := .none, refuse := false }) s)

/-- R29: a refused handover. `fromLatch` is true but for a Bay Release. -/
def refuseBay (x : BayId) (fromLatch : Bool) (r : RefusalReason) (s : State) : State :=
  if fromLatch then
    post (.swapRefused x) (dRefusal r) (updBay x (fun b => { b with refusal := r, refuse := true }) s)
  else updBay x (fun b => { b with refusal := r }) s

/-- R27, case 4: the pack alternative takes over. -/
def handoverToStandby (x : BayId) (fromLatch : Bool) (s : State) : State × EvalResult :=
  if voltsClose s then
    (releaseBay x .makeFirst (switchOff x (goOnline x.other dTakeOver s)), .released .makeFirst)
  else if breakFirstOk s ∧ otherConducts s x then
    (goOnline x.other dTakeOver (releaseBay x .breakFirst (switchOff x s)), .released .breakFirst)
  else if bridgeCanStart s then
    (goOnline x.other dTakeOver (releaseBay x .bridgeThrough (switchOff x (startBridge .through s))), .released .bridgeThrough)
  else (refuseBay x fromLatch .mismatch s, .refused .mismatch)

/-- R26: the cases of a handover evaluation of ONLINE bay `x`, in order. -/
def evaluateCases (x : BayId) (fromLatch : Bool) (s : State) : State × EvalResult :=
  if holdSwap s x then (refuseBay x fromLatch .held s, .refused .held)
  else if windowOpen s then
    if fromLatch then (updBay x (fun b => { b with deferred := true }) s, .deferred)
    else (refuseBay x fromLatch .drop s, .refused .drop)
  else if s.pp.ext ∨ (s.bays.get x.other).state = .online then
    if pMinRun s ≤ totalWithout s x then (releaseBay x .plain (switchOff x s), .released .plain)
    else (refuseBay x fromLatch .lowBudget s, .refused .lowBudget)
  else if (s.bays.get x.other).state = .standby ∧ (s.bays.get x.other).latch ∧ pMinRun s ≤ (bayPower s x.other).power then
    handoverToStandby x fromLatch s
  else if bridgeCanStart s then
    (releaseBay x .bridgeHold (switchOff x (startBridge .hold s)), .released .bridgeHold)
  else (refuseBay x fromLatch .noSource s, .refused .noSource)

/-- R26: one evaluation, carried out as one action. -/
def evaluate (x : BayId) (fromLatch : Bool) (s : State) : State × EvalResult :=
  (settle s (evaluateCases x fromLatch s).1, (evaluateCases x fromLatch s).2)

/-- R41, R40, R37: a latch-open of an ONLINE bay is evaluated. -/
def evaluateLatch (x : BayId) (s : State) : State := (evaluate x true s).1

/-- R41: HOLD_SWAP of `x` has cleared. -/
def reevaluate (x : BayId) (s : State) : State :=
  if (s.bays.get x).state = .online ∧ (s.bays.get x).refuse ∧ ¬ (s.bays.get x).latch then evaluateLatch x s else s

/-! ### Contexts, EMPTY and SEATING -/

/-- R38, R39: the context becomes absent. -/
def clearContext (x : BayId) (s : State) : State := updBay x (fun b => { b with context := none }) s

/-- R38: the context is discarded and the bay's PARKED lines are invalidated. -/
def discardContext (x : BayId) (s : State) : State := clearContext x (cacheDropParked x s)

/-- R38: save the departed-pack context; an earlier one first costs its PARKED lines. -/
def saveContext (x : BayId) (serial : Option Half) (s : State) : State :=
  updBay x (fun b => { b with context := some { serial := serial, departure := s.time.uptime } })
    (if (s.bays.get x).context.isSome then cacheDropParked x s else s)

/-- R20: enter SEATING with a fresh debounce; the snapshot and the count are cleared (R65). -/
def enterSeating (x : BayId) (s : State) : State :=
  setBayState x .seating
    (updRelay x (fun r => { r with snap := Snapshot.absent, failCount := 0 })
      (updBay x (fun b => { b with presDeb := some (presenceDebounce s) }) s))

/-- R38: with REINSERT_WINDOW_s of 0 the context is discarded at the moment it is saved, after the EMPTY notice. -/
def parkDeparted (x : BayId) (save : Option (Option Half)) (s : State) : State :=
  match save with
  | none => cacheEmpty x s
  | some serial =>
      if reinsertWindow s = 0 then discardContext x (cacheEmpty x (saveContext x serial s))
      else cacheEmpty x (saveContext x serial s)

/-- The notice of a recorded departure (R19). -/
def postDeparted (x : BayId) (departed : Bool) (s : State) : State :=
  if departed then post (.presence (.bay x)) dDeparted s else s

/-- Entering EMPTY (R30, R31, R34, R36, R46): the context is saved where `save` gives its serial, the cache is told (R97), PRESENCE DEPARTED
is posted where `departed` (R19), and the switch is requested OFF. -/
def becomeEmpty (x : BayId) (save : Option (Option Half)) (departed : Bool) (s : State) : State :=
  switchOff x (postDeparted x departed (setBayState x .empty (parkDeparted x save s)))

/-- A bay that has entered EMPTY goes on to SEATING where its presence line is asserted (R20). -/
def enterEmpty (x : BayId) (save : Option (Option Half)) (departed : Bool) (s : State) : State :=
  if ((becomeEmpty x save departed s).bays.get x).presLine then enterSeating x (becomeEmpty x save departed s)
  else becomeEmpty x save departed s

/-- The SERIAL value of the bay's snapshot. -/
def serialOf (s : State) (x : BayId) : Option Half := (s.relays.get x).snap.serial

/-- A probe started by Bay Probe is under way in PROBING (R31, R32, R35). -/
def probedByCommand (b : Bay) : Bool := b.state == .probing && b.probeCause == .bayProbe

/-- LINK_DONE with the given detail where Bay Probe started the probe of the bay as it stood in `before`. -/
def postProbeEnd (before : Bay) (x : BayId) (d : Detail) (s : State) : State :=
  if probedByCommand before then post (.linkDone x) d s else s

/-! ### Loss and jolt (R31 to R34) -/

/-- R31: an abrupt loss with the drop window closed. -/
def abruptLoss (x : BayId) (s : State) : State :=
  postProbeEnd (s.bays.get x) x dAborted
    (enterEmpty x (if (s.bays.get x).state = .probing then none else some (serialOf s x)) true s)

/-- R32: the earlier state a jolt record takes. -/
def joltEarlierOf : BayState → JoltEarlier
  | .online => .online
  | .standby => .standby
  | _ => .probing

/-- R32: the bay enters JOLT; R150: the monitor adds it to the jolted set. -/
def enterJolt (x : BayId) (s : State) : State :=
  let s1 := updBay x (fun b => { b with
    deferred := false,
    jolt := some { earlier := joltEarlierOf (s.bays.get x).state, serial := serialOf s x, hold := .waiting } })
    (setBayState x .jolt s)
  let s2 := postProbeEnd (s.bays.get x) x dAborted (cacheDistrust x s1)
  { s2 with motion := { s2.motion with jolted := s2.motion.jolted.upd x (fun _ => true) } }

/-- R34: the hold runs out without presence. -/
def joltExpire (x : BayId) (s : State) : State :=
  post (.jolt x) dExpired
    (enterEmpty x (some (match (s.bays.get x).jolt with | some j => j.serial | none => none)) false s)

/-- Set the hold timer of the jolt record (R34). -/
def setJoltHold (h : HoldTimer) (b : Bay) : Bay :=
  { b with jolt := match b.jolt with | some j => some { j with hold := h } | none => none }

/-- R33: a STANDBY bay that can take over. -/
def canTakeOver (s : State) (x : BayId) : Bool := (s.bays.get x).state == .standby && (s.bays.get x).presence

/-- R33: a present VOLTAGE counts as greater than an absent one. -/
def voltageRank (s : State) (x : BayId) : Nat :=
  match (s.relays.get x).snap.voltage with
  | some v => v.toNat + 1
  | none => 0

/-- R33: the bay of an emergency take-over. -/
def takeOverBay (s : State) : Option BayId :=
  if canTakeOver s .A then
    if canTakeOver s .B ∧ voltageRank s .A < voltageRank s .B then some .B else some .A
  else if canTakeOver s .B then some .B
  else none

/-- R33: the answer to "no conducting source". -/
def answerNoSource (s : State) : State :=
  match takeOverBay s with
  | some x => goOnline x dTakeOver s
  | none => startBridge .emergency s

/-! ### Faults, admission and placement (R22, R23, R35, R37, R39) -/

/-- R35: the bay enters FAULTED. -/
def enterFault (x : BayId) (why : FaultReason) (s : State) : State :=
  let s1 := switchOff x (updBay x (fun b => { b with faultReason := why, refuse := false, deferred := false })
    (setBayState x .faulted s))
  postProbeEnd (s.bays.get x) x (if why = .admission then dNotAdmitted else dLinkFailed)
    (post (.bayFault x) (dFault why) (cacheDistrust x s1))

/-- R22: every admission value that is present passes. -/
def admissionOk (s : State) (x : BayId) : Bool :=
  (match (s.relays.get x).snap.voltage with | some v => vMin s ≤ v.toNat && v.toNat ≤ vMax s | none => true)
  && (match (s.relays.get x).snap.status with | some v => v &&& statusFaultMask s == 0 | none => true)
  && (match (s.relays.get x).snap.temperature with | some v => decide (v.toInt < tempMax s) | none => true)

/-- R39: the context is present and both serials are present and equal. -/
def contextMatches (s : State) (x : BayId) : Bool :=
  match (s.bays.get x).context, serialOf s x with
  | some c, some v => c.serial == some v
  | _, _ => false

/-- R39, R99: step 2 of R23. -/
def matchContext (x : BayId) (s : State) : State :=
  if contextMatches s x then clearContext x (cacheRestore x s) else clearContext x (cacheDropParked x s)

/-- Step 3 of R23: ONLINE if the latch is closed and the paralleling rule allows, otherwise STANDBY. -/
def placeSwitch (x : BayId) (s : State) : State :=
  if (s.bays.get x).latch ∧ parallelAllows x s then setBayState x .online (requestOn x s)
  else setBayState x .standby (switchOff x s)

/-- Steps 2 to 4 of R23. -/
def placeFresh (x : BayId) (s : State) : State :=
  let s1 := placeSwitch x (matchContext x s)
  if (s1.bays.get x).state = .online then
    post (.swapDone x) (if contextMatches s x then dReinsertion else dInsertion) s1
  else s1

/-- R37: the serials are SAME when both are present and equal. -/
def sameSerial (s : State) (x : BayId) : Bool :=
  match (s.bays.get x).jolt, serialOf s x with
  | some j, some v => j.serial == some v
  | _, _ => false

/-- The jolt record is cleared (R37). -/
def clearJolt (x : BayId) (s : State) : State := updBay x (fun b => { b with jolt := none }) s

/-- R37, SAME with earlier state ONLINE: a switch still ON brings the bay ONLINE, and an open latch is evaluated at once; a switch
turned OFF meanwhile places the bay as in step 3 of R23. R29 does not name this event; its refusal is treated as for a latch-open, with the indicator
and SWAP_REFUSED (DESIGN CHOICE, log 44). -/
def returnOnline (x : BayId) (s : State) : State :=
  if s.pp.sw.get x = .on then
    if (s.bays.get x).latch then setBayState x .online (requestOn x s)
    else evaluateLatch x (setBayState x .online (requestOn x s))
  else placeSwitch x s

/-- R37: the pack of a jolt return that passed admission is settled. -/
def settleJolt (x : BayId) (s : State) : State :=
  if sameSerial s x then
    let s1 := clearJolt x (post (.jolt x) dSame s)
    match (s.bays.get x).jolt with
    | some j =>
        match j.earlier with
        | .online => returnOnline x s1
        | .standby => standbyJoin x (setBayState x .standby (switchOff x s1))
        | .probing => placeFresh x s1
    | none => s1
  else placeFresh x (clearJolt x (post (.jolt x) dDifferent (cacheDropBay x s)))

/-- R23: an admitted pack is placed. -/
def placePack (x : BayId) (s : State) : State :=
  let s1 := updBay x (fun b => { b with faultReason := .none }) s
  if (s.bays.get x).probeCause = .joltReturn then settleJolt x s1
  else postProbeEnd (s.bays.get x) x dAdmitted (placeFresh x s1)

/-- R22: a completed probe leads to admission. -/
def admitPack (x : BayId) (s : State) : State :=
  settling (fun s => if admissionOk s x then placePack x s else enterFault x .admission s) s

/-! ### PROBING (R21, R62) -/

/-- R62: the probe tags in order. -/
def probeTags : List Tag := [.serial, .voltage, .maxDischarge, .status, .temperature]

/-- R62: the reads of a probe, chosen from the map in service. -/
def probeReads (s : State) : List ProbeRead :=
  probeTags.filterMap (fun t =>
    (codeOfTag (mapInService s) t).map (fun c => { code := c, gov := governing s.mapInst (mapInService s) c }))

/-- R62: start the probe of a bay in PROBING; without reads it completes at the moment it starts. -/
def startProbe (x : BayId) (s : State) : State :=
  match probeReads s with
  | [] => admitPack x s
  | r :: rest =>
      updRelay x (fun q => { q with
        probe := some { reads := r :: rest, attempts := 0, background := (s.bays.get x).probeCause == .bayProbe } }) s

/-- R21: enter PROBING; no switch request is made and the cache is told (R95). -/
def enterProbing (x : BayId) (cause : ProbeCause) (s : State) : State :=
  startProbe x (cacheDistrust x (updBay x (fun b => { b with probeCause := cause }) (setBayState x .probing s)))

/-! ### Presence and latch events (R17, R18) -/

/-- The recorded presence rises: a switch that stayed ON or PASSIVE starts to conduct (R6, R10). -/
def presenceRises (x : BayId) (s : State) : State :=
  let s1 := recompute (updBay x (fun b => { b with presence := true }) s)
  match s1.pp.sw.get x with
  | .off => s1
  | .passive => releaseHeld s1
  | .on => releaseHeld (endBridge s1)

/-- R34: presence rises on a bay in JOLT. -/
def joltReturn (x : BayId) (s : State) : State :=
  enterProbing x .joltReturn
    (recompute (updRelay x (fun r => { r with snap := Snapshot.absent, failCount := 0 }) (updBay x (setJoltHold .stopped) s)))

/-- What a recorded fall does to the bay, by its state (R30, R31, R32, R36, R46). -/
def fallByState (x : BayId) (s : State) : State :=
  match (s.bays.get x).state with
  | .online | .standby | .probing => if windowOpen s then enterJolt x s else abruptLoss x s
  | .releasing => enterEmpty x (some (serialOf s x)) true s
  | .faulted => enterEmpty x none true s
  | .seating => enterEmpty x none false s
  | .empty | .jolt => s

/-- The recorded presence falls (R17): the power path takes it, the relay ends what is in flight, the Bay Controller moves the bay, and
then answers "no conducting source" if the fall emptied the set (R7, R33). -/
def presenceFalls (x : BayId) (s : State) : State :=
  let s1 := recompute (updBay x (fun b => { b with presence := false }) s)
  let s2 := fallByState x (failRecover x (loseLink x s1))
  if anyConducts s ∧ ¬ anyConducts s1 then answerNoSource s2 else s2

/-- R30: RELEASING ends with a closed latch or Bay Return. -/
def returnBay (x : BayId) (s : State) : State :=
  if parallelAllows x s then setBayState x .online (requestOn x s) else setBayState x .standby (switchOff x s)

/-- The recorded latch closes (R18): the refuse indicator is released and the deferred mark cleared (R29); STANDBY and RELEASING
act (R25, R30). -/
def latchCloses (x : BayId) (s : State) : State :=
  let s1 := updBay x (fun b => { b with latch := true, refuse := false, deferred := false }) s
  match (s1.bays.get x).state with
  | .standby => standbyJoin x s1
  | .releasing => returnBay x s1
  | _ => s1

/-- The recorded latch opens (R18): an ONLINE bay is evaluated (R26). -/
def latchOpens (x : BayId) (s : State) : State :=
  let s1 := updBay x (fun b => { b with latch := false }) s
  if (s1.bays.get x).state = .online then evaluateLatch x s1 else s1

/-! ### The drop window (R34, R40) -/

/-- R34: the window closes on a bay in JOLT. -/
def startJoltHold (x : BayId) (s : State) : State :=
  if joltHoldMs s = 0 then settling (joltExpire x) s
  else updBay x (setJoltHold (.running (joltHoldMs s))) s

/-- R40: the deferred mark is cleared, and the latch-open of a bay still ONLINE is evaluated. -/
def closeDeferred (x : BayId) (s : State) : State :=
  if (s.bays.get x).deferred then
    let s0 := updBay x (fun b => { b with deferred := false }) s
    if (s.bays.get x).state = .online ∧ ¬ (s.bays.get x).latch then evaluateLatch x s0 else s0
  else s

/-- R40 for one bay: a deferred latch-open is evaluated, a jolt hold starts. -/
def windowCloseOne (x : BayId) (s : State) : State :=
  if ((closeDeferred x s).bays.get x).state = .jolt then startJoltHold x (closeDeferred x s) else closeDeferred x s

/-- R40: the window close event, bay A and then bay B. -/
def windowCloseEvent (s : State) : State := windowCloseOne .B (windowCloseOne .A s)

/-- R34: the window opens again before a jolt hold has run out; the timer stops and waits for the next close. -/
def waitJoltHold (b : Bay) : Bay :=
  match b.jolt with
  | some j => (match j.hold with | .running _ => setJoltHold .waiting b | _ => b)
  | none => b

end Sys2Proof.Machine
end

