-- ==== Sys2Proof/Machine/Relay.lean ====
section
/-! DEFINITION. The Pack Link Relay (chapter 3): pack transactions and their outcomes, the snapshot, the consecutive-failure count,
polls, probes, and the routing and forwarding of platform transactions. -/

namespace Sys2Proof.Machine

/-! ### Outcomes (R54, R58) -/

/-- An outcome of a pack transaction other than LOST, with what a read returned. -/
inductive TxResult
  | doneValue (v : Half)
  | doneBlock (len : Byte) (bytes : List Byte)
  | doneWrite
  | nack
  | timeout
  deriving DecidableEq, Repr

/-- R64: NACK and TIMEOUT count. -/
def TxResult.failed : TxResult → Bool
  | .nack | .timeout => true
  | .doneValue _ | .doneBlock _ _ | .doneWrite => false

/-- R54: the outcome a pack's reply gives a transaction of a kind. A returned block length of 0 or above 32 is NACK. A reply of another
kind than the transaction's is no completion of it (log 20). -/
def resultOf : TxKind → PackReply → Option TxResult
  | _, .refusedByte => some .nack
  | .readValue, .value lo hi => some (.doneValue (halfOf lo hi))
  | .readBlock, .block len bytes =>
      if 1 ≤ len.toNat ∧ len.toNat ≤ 32 then some (.doneBlock len bytes) else some .nack
  | .writeValue, .wrote => some .doneWrite
  | .writeBlock, .wrote => some .doneWrite
  | _, _ => none

/-- The states in which the relay serves a bay that is under no Link Recover (R50). -/
def servedState (st : BayState) : Bool := st == .probing || steady st

/-- R50: the bay is served. -/
def served (s : State) (x : BayId) : Bool :=
  servedState (s.bays.get x).state && (s.relays.get x).recover == .notRunning

/-- R64: the count after an outcome. -/
def countOutcome (x : BayId) (failed : Bool) (s : State) : State :=
  updRelay x (fun r => { r with failCount := if failed then min (r.failCount + 1) (faultLimit s) else 0 }) s

/-- R63: replace the value under a tag. -/
def Snapshot.put (n : Snapshot) (t : Tag) (v : Half) : Snapshot :=
  match t with
  | .none => n
  | .voltage => { n with voltage := some v }
  | .maxDischarge => { n with maxDischarge := some v }
  | .remaining => { n with remaining := some v }
  | .status => { n with status := some v }
  | .temperature => { n with temperature := some v }
  | .serial => { n with serial := some v }

/-- The tags whose update of a conducting bay the Budget Unit takes (R63, R106). -/
def budgetTag (t : Tag) : Bool := t == .voltage || t == .maxDischarge || t == .temperature

/-- R63: a value goes into the snapshot, and the Budget Unit takes it where it matters to the budget (R106). -/
def storeSnapshot (x : BayId) (t : Tag) (v : Half) (s : State) : State :=
  if budgetTag t ∧ conductsBay s x then recompute (updRelay x (fun r => { r with snap := r.snap.put t v }) s)
  else updRelay x (fun r => { r with snap := r.snap.put t v }) s

/-- R63: a DONE READ_VALUE updates the snapshot and is handed on, to the Budget Unit and then to the Bay Controller (log 28). -/
def updateSnapshot (x : BayId) (t : Tag) (v : Half) (s : State) : State :=
  if t = .voltage then standbyJoin .B (standbyJoin .A (storeSnapshot x t v s)) else storeSnapshot x t v s

/-- R64: the bay's count stands at the limit while it is in PROBING, STANDBY, ONLINE or RELEASING. -/
def countAtLimit (s : State) (x : BayId) : Bool :=
  servedState (s.bays.get x).state && (s.relays.get x).failCount == faultLimit s

/-- R64: the Bay Controller moves such a bay to FAULTED with reason LINK. -/
def faultIfReached (x : BayId) (s : State) : State := if countAtLimit s x then enterFault x .link s else s

/-! ### Handing an outcome on -/

/-- R58: the answer at the forwarding point of a platform transaction. -/
def answerMaster (r : TxResult) (s : State) : State :=
  match s.upstream.tx with
  | some tx =>
      match tx.stage with
      | .stretched count =>
          match r with
          | .doneValue v => endUpstream (.data (readOut count (le16 v.toNat))) s
          | .doneBlock len bytes => endUpstream (.data (readOut count (len :: bytes))) s
          | .doneWrite => endUpstream .acknowledged s
          | .nack | .timeout => endUpstream .refused s
      | _ => s
  | none => s

/-- R58: a platform transaction's outcome, the count already taken. -/
def handPlatform (x : BayId) (q : Request) (r : TxResult) (s : State) : State :=
  match q.kind, r with
  | .readValue, .doneValue v => cacheFill x q.code q.gov v (updateSnapshot x q.gov.tag v s)
  | .writeValue, .doneWrite =>
      match q.payload with
      | [lo, hi] => cacheWrite x q.code q.gov (halfOf lo hi) s
      | _ => s
  | .writeValue, .nack => cacheFailedWrite x q.code s
  | .writeValue, .timeout => cacheFailedWrite x q.code s
  | _, _ => s

/-- R61: whether a failed poll makes a further attempt. R61 says both 'still in' the polled states and 'has left'; only the state at the outcome is
tested, so a bay that left them and is back goes on (DESIGN CHOICE, log 45). -/
def pollGoesOn (s : State) (x : BayId) (p : Poll) : Bool :=
  (s.relays.get x).failCount != faultLimit s && p.attempts < linkRetries s + 1
    && steady (s.bays.get x).state && (s.relays.get x).recover == .notRunning

/-- R61: a poll read's outcome. -/
def handPoll (x : BayId) (q : Request) (r : TxResult) (s : State) : State :=
  match r with
  | .doneValue v =>
      cacheFill x q.code q.gov v (updateSnapshot x q.gov.tag v (updRelay x (fun r => { r with poll := none }) s))
  | _ =>
      match (s.relays.get x).poll with
      | some p => if pollGoesOn s x p then s else updRelay x (fun r => { r with poll := none }) s
      | none => s

/-- R62: the probe goes on to the next read, or completes. -/
def probeAdvance (x : BayId) (s : State) : State :=
  match (s.relays.get x).probe with
  | some p =>
      match p.reads.tail with
      | [] => admitPack x (updRelay x (fun r => { r with probe := none }) s)
      | rest => updRelay x (fun r => { r with probe := some { p with reads := rest, attempts := 0 } }) s
  | none => s

/-- R62: a failed probe read is attempted again, or the probe fails. A probe that fails by its retries below FAULT_LIMIT leaves the count as it stands,
below the value that R65 names for reason LINK (DESIGN CHOICE, log 38). -/
def probeFailure (x : BayId) (s : State) : State :=
  match (s.relays.get x).probe with
  | some p =>
      if (s.relays.get x).failCount = faultLimit s ∨ linkRetries s + 1 ≤ p.attempts then enterFault x .link s else s
  | none => s

/-- R62: a probe read's outcome. -/
def handProbe (x : BayId) (q : Request) (r : TxResult) (s : State) : State :=
  match r with
  | .doneValue v => probeAdvance x (updateSnapshot x q.gov.tag v s)
  | _ => probeFailure x s

/-- R62: the outcome of a read whose probe has ended. -/
def handOrphan (x : BayId) (q : Request) (r : TxResult) (s : State) : State :=
  match r with
  | .doneValue v => updateSnapshot x q.gov.tag v s
  | _ => s

/-- R58, R61, R62: hand an outcome on by the transaction's purpose. -/
def handOn (x : BayId) (tx : PackTx) (r : TxResult) (s : State) : State :=
  match tx.purpose with
  | .platform => handPlatform x tx.req r (answerMaster r s)
  | .poll => handPoll x tx.req r s
  | .probe => handProbe x tx.req r s
  | .orphan => handOrphan x tx.req r s

/-- R54, R58, R64: the transaction in flight on the link of `x` ends; the link becomes idle, the outcome is handed on, and a count that
reached the limit faults the bay. -/
def finishTx (x : BayId) (tx : PackTx) (r : TxResult) (s : State) : State :=
  let s1 := countOutcome x r.failed (updRelay x (fun q => { q with link := none }) s)
  if r.failed then faultIfReached x (handOn x tx r s1) else handOn x tx r s1

/-! ### Starting transactions (R54, R55) -/

/-- R54: start a pack transaction on the idle link of `x`; with the raw presence line released it ends LOST at once (R55). -/
def startTx (x : BayId) (q : Request) (p : Purpose) (s : State) : State :=
  if (s.bays.get x).presLine then
    updRelay x (fun r => { r with link := some { req := q, purpose := p, timeout := linkTimeoutMs s } }) s
  else endLost x p s

/-- The link is idle with the slot empty (R60 to R62). -/
def linkFree (s : State) (x : BayId) : Bool := (s.relays.get x).link.isNone && (s.relays.get x).slot.isNone

/-- The request of a read of the part's own. -/
def readRequest (c : Code) (g : Governing) : Request := { kind := .readValue, code := c, payload := [], gov := g }

/-- R60: the bay becomes due for a poll when the period runs out. -/
def pollEligible (s : State) (x : BayId) : Bool :=
  steady (s.bays.get x).state && !s.flags.holdPoll && (s.relays.get x).recover == .notRunning
    && !(s.relays.get x).ring.isEmpty && !(s.relays.get x).pollDue && (s.relays.get x).poll.isNone

/-- R60. -/
def makeDue (x : BayId) (s : State) : State :=
  if pollEligible s x then updRelay x (fun r => { r with pollDue := true }) s else s

/-- R61: a due poll takes the code at the pointer and steps the pointer. -/
def startPoll (x : BayId) (s : State) : State :=
  match (s.relays.get x).ring[(s.relays.get x).ptr]? with
  | some c =>
      if (s.relays.get x).pollDue ∧ linkFree s x then
        let g := governing s.mapInst (mapInService s) c
        startTx x (readRequest c g) .poll
          (updRelay x (fun r => { r with
            pollDue := false, ptr := (r.ptr + 1) % r.ring.length,
            poll := some { code := c, gov := g, attempts := 1 } }) s)
      else s
  | none => s

/-- R61: the further attempt of a failed poll read. -/
def retryPoll (x : BayId) (s : State) : State :=
  match (s.relays.get x).poll with
  | some p =>
      if pollInFlight (s.relays.get x) then s
      else if ¬ (steady (s.bays.get x).state ∧ (s.relays.get x).recover = .notRunning) then
        updRelay x (fun r => { r with poll := none }) s
      else if linkFree s x then
        startTx x (readRequest p.code p.gov) .poll
          (updRelay x (fun r => { r with poll := some { p with attempts := p.attempts + 1 } }) s)
      else s
  | none => s

/-- R62: the next read of a probe, or a further attempt of it. -/
def startProbeRead (x : BayId) (s : State) : State :=
  match (s.relays.get x).probe with
  | some p =>
      match p.reads with
      | r :: _ =>
          if (s.bays.get x).state = .probing ∧ linkFree s x then
            startTx x (readRequest r.code r.gov) .probe
              (updRelay x (fun q => { q with probe := some { p with attempts := p.attempts + 1 } }) s)
          else s
      | [] => s
  | none => s

/-- R57: the idle link takes its slot first. -/
def startSlot (x : BayId) (s : State) : State :=
  match (s.relays.get x).slot with
  | some q =>
      if (s.relays.get x).link.isNone then
        if served s x then startTx x q .platform (updRelay x (fun r => { r with slot := none }) s)
        else endUpstream .refused (updRelay x (fun r => { r with slot := none }) s)
      else s
  | none => s

/-! ### Link Recover (R66, R67) -/

/-- R66: the recovery begins once the transaction it waited for has been handed on. -/
def beginRecover (x : BayId) (s : State) : State :=
  if (s.relays.get x).recover = .waiting ∧ (s.relays.get x).link.isNone then
    updRelay x (fun r => { r with recover := .running }) s
  else s

/-- R67: RECOVER_OK where the line was found released at a test, before any pulse or after one to sixteen. -/
def recoverOk : Option Nat → Bool
  | some k => k ≤ Config.maxPulses
  | none => false

/-- R67: what RECOVER_OK does to the count and the bay. -/
def recovered (x : BayId) (s : State) : State :=
  let s1 := updRelay x (fun r => { r with failCount := 0 }) s
  if (s.bays.get x).state = .faulted ∧ (s.bays.get x).faultReason = .link then enterProbing x .insertion s1 else s1

/-- R67: the recovery ends; its effects come first and LINK_DONE is posted after them (log 11). -/
def endRecover (x : BayId) (released : Option Nat) (s : State) : State :=
  if (s.relays.get x).recover = .running then
    let s1 := updRelay x (fun r => { r with recover := .notRunning }) s
    if recoverOk released then post (.linkDone x) dRecoverOk (recovered x s1)
    else post (.linkDone x) dRecoverFail s1
  else s

/-! ### Platform transactions (R48 to R53) -/

/-- The clock of the upstream link is stretched for a platform transaction at or past its forwarding point (R49). -/
def upStretched (s : State) : Bool :=
  match s.upstream.tx with
  | some tx => (match tx.stage with | .stretched _ => true | _ => false)
  | none => false

/-- A byte that belongs to no transaction in progress: refused, or held against while the clock is stretched (log 4). -/
def outOfPlace (s : State) : State := setAnswer (if upStretched s then .held else .refused) s

/-- R51: both REMAINING values, else both VOLTAGE values, decide between two ONLINE bays; a tie or a lack takes bay A. -/
def greaterBay (va vb : Option Half) : BayId :=
  match va, vb with
  | some v, some w => if v.toNat < w.toNat then .B else .A
  | _, _ => .A

/-- R51: a bay that ACTIVE may reach. -/
def activeCandidate (s : State) (x : BayId) : Bool :=
  (s.bays.get x).state == .online && (s.relays.get x).recover == .notRunning

/-- R51: the bay a transaction at ACTIVE is routed to. -/
def chooseActive (s : State) : Option BayId :=
  if activeCandidate s .A then
    if activeCandidate s .B then
      if s.relays.a.snap.remaining.isSome ∧ s.relays.b.snap.remaining.isSome then
        some (greaterBay s.relays.a.snap.remaining s.relays.b.snap.remaining)
      else some (greaterBay s.relays.a.snap.voltage s.relays.b.snap.voltage)
    else some .A
  else if activeCandidate s .B then some .B
  else none

/-- R48, R50, R51: the bay that an address reaches, if it may be served. -/
def addressedBay (s : State) (a : Addr) : Option BayId :=
  if a = Config.addrBayA then (if served s .A then some .A else none)
  else if a = Config.addrBayB then (if served s .B then some .B else none)
  else if a = Config.addrActive then chooseActive s
  else none

/-! ### Transactions at MGMT, byte by byte (R180, R181, R183) -/

/-- A transaction at MGMT moves to a stage, with an answer. -/
def setMgmt (g : MgmtStage) (a : Answer) (s : State) : State :=
  { s with upstream := { tx := none, mgmt := some g, answer := a } }

/-- R180, R181: the address byte of a transaction at MGMT. In the read direction it is a status read, which returns the status byte. -/
def takeMgmtAddress (read : Bool) (s : State) : State :=
  if read then endUpstream (.data [statusByte s]) s else setMgmt .addressed .acknowledged s

/-- R180, R183: the code byte at MGMT. A clear block marker is refused; 80h names the result read whatever the slot; a command code is taken
where the slot is EMPTY. -/
def mgmtCodeByte (b : Byte) (s : State) : State :=
  match s.upstream.mgmt with
  | some .addressed =>
      if codeByteBlock b then
        if codeByteCode b = 0 then setMgmt .resultNamed .acknowledged s
        else if s.port.slot = .empty then setMgmt (.command (codeByteCode b)) .acknowledged s
        else endUpstream .refused s
      else endUpstream .refused s
  | _ => outOfPlace s

/-- R180, R183: a byte that the master sends behind the code byte at MGMT and that completes no command. After 80h it is refused; after a command
code it is the length byte, acknowledged whatever its value; after that it is a parameter byte. -/
def mgmtByte (b : Byte) (s : State) : State :=
  match s.upstream.mgmt with
  | some .resultNamed => endUpstream .refused s
  | some (.command c) => setMgmt (.params c b.toNat []) .acknowledged s
  | some (.params c left got) => setMgmt (.params c (left - 1) (got ++ [b])) .acknowledged s
  | _ => outOfPlace s

/-- R180: a read address behind the code byte at MGMT. Behind 80h it is taken where it names MGMT; behind a command code it is refused. -/
def mgmtReadAddress (a : Addr) (s : State) : State :=
  match s.upstream.mgmt with
  | some .resultNamed => if a = Config.addrMgmt then setMgmt .reading .acknowledged s else endUpstream .refused s
  | some (.command _) | some (.params _ _ _) => endUpstream .refused s
  | _ => outOfPlace s

/-- R180, R183: what follows the code byte at MGMT. -/
def mgmtDirection (d : DirByte) (s : State) : State :=
  match d with
  | .writeByte b => mgmtByte b s
  | .readAddress a => mgmtReadAddress a s

/-! ### Address and code bytes (R48 to R52, R73 to R75) -/

/-- R48 to R52: the address byte. A read address without a code byte before it is refused (RECEIVE_BYTE). A transaction not yet at its
forwarding point is abandoned by the new start (R49). -/
def takeAddress (a : Addr) (read : Bool) (s : State) : State :=
  if upStretched s then setAnswer .held s
  else if a = Config.addrMgmt then takeMgmtAddress read s
  else if read then endUpstream .refused s
  else
    match addressedBay s a with
    | some x =>
        { s with upstream := {
            tx := some { addr := a, bay := x, inst := s.mapInst, map := mapInService s, stage := .addressed },
            answer := .acknowledged } }
    | none => endUpstream .refused s

/-- R75: a denial. -/
def deny (x : BayId) (c : Code) (s : State) : State := post (.filterDeny x) (dDenied c) (endUpstream .refused s)

/-- Move the platform transaction to a stage, with an answer. -/
def setStage (tx : UpTx) (st : UpStage) (a : Answer) (s : State) : State :=
  { s with upstream := { tx := some { tx with stage := st }, answer := a } }

/-- R73: the code is within the map and carries a permit. -/
def codeAllowed (v : MapView) (c : Code) : Bool :=
  c.toNat < mapLength v && ((mapEntry v c).readPermit || (mapEntry v c).writePermit)

/-- R52, R73: the code byte; at MGMT R180 takes it. -/
def takeCodeByte (b : Byte) (s : State) : State :=
  match s.upstream.tx with
  | some tx =>
      match tx.stage with
      | .addressed =>
          if codeAllowed tx.map (codeByteCode b) then
            setStage tx (.coded (codeByteBlock b) (codeByteCode b)) .acknowledged s
          else deny tx.bay (codeByteCode b) s
      | _ => outOfPlace s
  | none => mgmtCodeByte b s

/-- R48, R74: the byte that fixes the direction. A read address that names another address is refused and the transaction abandoned, with
no permit tested. At MGMT R180 takes the byte. A permitted byte is answered here whatever its value, and the row that follows answers it again:
WRITE_BLOCK_LENGTH_REFUSE a length byte of 0 or above 32 (R49), READ_VALUE or READ_BLOCK a read address (DESIGN CHOICE, log 43). -/
def takeDirection (d : DirByte) (s : State) : State :=
  match s.upstream.tx with
  | some tx =>
      match tx.stage with
      | .coded block c =>
          match d with
          | .readAddress a =>
              if a ≠ tx.addr then endUpstream .refused s
              else if (mapEntry tx.map c).readPermit then setStage tx (.directed block c false) .stretched s
              else deny tx.bay c s
          | .writeByte _ =>
              if (mapEntry tx.map c).writePermit then setStage tx (.directed block c true) .acknowledged s
              else deny tx.bay c s
      | _ => outOfPlace s
  | none => mgmtDirection d s

/-- R49: a WRITE_BLOCK length byte of 0 or above 32 to a permitted code, which PERMIT_CHECK has taken (log 43); a length in range is acknowledged. At
MGMT R183 takes the byte. -/
def takeLength (len : Byte) (s : State) : State :=
  match s.upstream.tx with
  | some tx =>
      match tx.stage with
      | .directed true _ true =>
          if len.toNat = 0 ∨ 32 < len.toNat then endUpstream .refused s else setAnswer .acknowledged s
      | _ => outOfPlace s
  | none => mgmtByte len s

/-- R53, R57: forward a transaction: on an idle link it starts at once, otherwise it waits in the slot. -/
def forward (tx : UpTx) (q : Request) (count : Nat) (s : State) : State :=
  let s1 := setStage tx (.stretched count) .stretched s
  if (s.relays.get tx.bay).link.isNone then startTx tx.bay q .platform s1
  else updRelay tx.bay (fun r => { r with slot := some q }) s1

/-- R50, R53: the forwarding point. The served test is made again; a READ_VALUE of a cached class asks the cache. -/
def forwardingPoint (tx : UpTx) (q : Request) (count : Nat) (s : State) : State :=
  if served s tx.bay then
    if q.kind = .readValue ∧ steady (s.bays.get tx.bay).state then
      match cacheServes s tx.bay q.code q.gov with
      | some (w, v) => endUpstream (.data (readOut count (le16 v.toNat))) (updSet (setOf q.code) (fun cs => cs.touch w) s)
      | none => forward tx q count s
    else forward tx q count s
  else endUpstream .refused s

/-- The kinds of a transaction by its kind marker and direction (R48). -/
def kindOf : Bool → Bool → TxKind
  | false, false => .readValue
  | false, true => .writeValue
  | true, false => .readBlock
  | true, true => .writeBlock

/-- A platform transaction of kind `k` comes to its forwarding point with the bytes it sends after the code byte. -/
def reachForwarding (k : TxKind) (payload : List Byte) (count : Nat) (s : State) : State :=
  match s.upstream.tx with
  | some tx =>
      match tx.stage with
      | .directed block c write =>
          if kindOf block write = k then
            forwardingPoint tx { kind := k, code := c, payload := payload, gov := governing tx.inst tx.map c } count s
          else outOfPlace s
      | _ => outOfPlace s
  | none => outOfPlace s

/-- R49: the transaction ends before its forwarding point; past it the clock is held and the master cannot end it. -/
def abandonUp (s : State) : State := if upStretched s then setAnswer .held s else endUpstream .none s

end Sys2Proof.Machine
end

