-- ==== Sys2Proof/Machine/Motion.lean ====
section
/-! DEFINITION. The Motion Monitor and the Drop Log (chapter 8): samples and their classes, the detector, episodes, the drop window, and
the record of a drop. -/

namespace Sys2Proof.Machine

/-! ### Samples (R140, R141) -/

/-- A motion sample: the axis values as every computation uses them, and whether any axis was saturated. -/
structure Sample where
  x : Int
  y : Int
  z : Int
  saturated : Bool
  deriving DecidableEq, Repr

/-- The classes of R141. -/
inductive SampleClass
  | impact | low | still | other
  deriving DecidableEq, Repr

/-- R196: an axis outside -2048 to 2047 is taken at the nearer end. -/
def axisRaw (lo hi : Byte) : Int := max (-2048) (min 2047 (halfOf lo hi).toInt)

/-- R140: an axis at either end is saturated. -/
def axisSaturated (v : Int) : Bool := v == -2048 || v == 2047

/-- R140: -2047 stands for -2048. -/
def axisValue (v : Int) : Int := max (-2047) v

/-- R196, R140: the sample of a MOTION payload. -/
def sampleOf (x0 x1 y0 y1 z0 z1 : Byte) : Sample :=
  { x := axisValue (axisRaw x0 x1), y := axisValue (axisRaw y0 y1), z := axisValue (axisRaw z0 z1),
    saturated := axisSaturated (axisRaw x0 x1) || axisSaturated (axisRaw y0 y1) || axisSaturated (axisRaw z0 z1) }

/-- R140: the magnitude squared. -/
def Sample.m2 (p : Sample) : Nat := (p.x * p.x + p.y * p.y + p.z * p.z).toNat

/-- A MOTION field in effect (R157). -/
def motionWord (s : State) (i : Nat) : Nat := (inEffect s .motion i).toNat

def odrHz (s : State) : Nat := motionWord s 0
def ffThresh (s : State) : Nat := motionWord s 1
def ffCount (s : State) : Nat := motionWord s 2
def impactThresh (s : State) : Nat := motionWord s 3
def stillLo (s : State) : Nat := motionWord s 4
def stillHi (s : State) : Nat := motionWord s 5
def settleCount (s : State) : Nat := motionWord s 6
def impactMax (s : State) : Nat := motionWord s 7

/-- R141: the class of a sample, tested in order. -/
def classify (s : State) (p : Sample) : SampleClass :=
  if impactThresh s * impactThresh s < p.m2 ∨ p.saturated then .impact
  else if p.m2 < ffThresh s * ffThresh s then .low
  else if stillLo s * stillLo s ≤ p.m2 ∧ p.m2 ≤ stillHi s * stillHi s then .still
  else .other

/-! ### Drop arithmetic (R151 to R153) -/

/-- R151: the greatest number whose square does not exceed `n`, for `n` below 4,096 squared. -/
def squareRoot (n : Nat) : Nat :=
  [2048, 1024, 512, 256, 128, 64, 32, 16, 8, 4, 2, 1].foldl (fun r b => if (r + b) * (r + b) ≤ n then r + b else r) 0

/-- R152. -/
def dropHeight (n odr : Nat) : Nat := min 65535 (4903 * n * n / (odr * odr))

/-- R153: the dominant axis of the settling sample with its sign; x goes before y and y before z. -/
def restAxisOf (p : Sample) : RestAxis :=
  if p.y.natAbs ≤ p.x.natAbs ∧ p.z.natAbs ≤ p.x.natAbs then (if 0 ≤ p.x then .xPos else .xNeg)
  else if p.z.natAbs ≤ p.y.natAbs then (if 0 ≤ p.y then .yPos else .yNeg)
  else (if 0 ≤ p.z then .zPos else .zNeg)

/-- R151: the kind of the record that the present episode makes; a stall from FALLING is a FALL. -/
def recordKind (m : Motion) : DropKind := if m.detector = .falling then .fall else m.kind

/-- R151: the drop record of the present episode under sequence `q`. -/
def composeRecord (q : Nat) (ending : DropEnding) (rest : RestAxis) (s : State) : DropRecord :=
  { seq := q, kind := recordKind s.motion,
    n := if recordKind s.motion = .fall then s.motion.n else 0,
    height := if recordKind s.motion = .fall then dropHeight s.motion.n (odrHz s) else 0,
    peak := if s.motion.detector = .falling then 0 else squareRoot s.motion.peak,
    saturated := s.motion.saturated, ending := ending, rest := rest, time := s.time.uptime, jolted := s.motion.jolted }

/-! ### The Drop Log (R154, R155) -/

/-- The smallest peak of some records. -/
def smallestPeak : List DropRecord → Nat
  | [] => 0
  | [r] => r.peak
  | r :: rest => min r.peak (smallestPeak rest)

/-- R154: place a record; the answer is whether the log keeps it. -/
def placeRecord (r : DropRecord) (records : List DropRecord) : List DropRecord × Bool :=
  if records.length < 8 then (records ++ [r], true)
  else if smallestPeak records < r.peak then
    (records.eraseP (fun q => q.peak == smallestPeak records) ++ [r], true)
  else (records, false)

/-- R154: the sequence after `q`; none is EXHAUSTED. -/
def nextSequence (q : Nat) : Option Nat := if q < 65535 then some (q + 1) else none

/-- R150, R155: the jolted set clears once the record is composed. -/
def clearJolted (s : State) : State := { s with motion := { s.motion with jolted := ⟨false, false⟩ } }

/-- R151, R154 to R156: the record is composed and placed, and DROP is posted after it. -/
def writeRecord (ending : DropEnding) (rest : RestAxis) (s : State) : State :=
  match s.log.next with
  | none => post .drop dExhausted (clearJolted s)
  | some q =>
      let placed := placeRecord (composeRecord q ending rest s) s.log.records
      post .drop (if placed.2 then dStored q else dDiscarded q)
        (clearJolted { s with log := { records := placed.1, next := nextSequence q } })

/-! ### Episodes and the drop window (R146 to R149) -/

/-- The stall timer runs from its full length (R147). -/
def restartStall (s : State) : State := { s with motion := { s.motion with stall := some Config.stallMs } }

/-- R34: the window opens, and a jolt hold that runs stops and waits for the next close. -/
def waitHolds (s : State) : State := updBay .B waitJoltHold (updBay .A waitJoltHold s)

/-- R142, R146: the monitor leaves ARMED for detector state `d` with fall count `n`, and the episode begins; `fresh` says whether the
window opens from CLOSED, which clears the jolted set. -/
def beginMotion (d : Detector) (n : Nat) (fresh : Bool) (m : Motion) : Motion :=
  { m with detector := d, n := n, run := 0, park := true, window := .open, hold := none, stall := some Config.stallMs,
           jolted := if fresh then ⟨false, false⟩ else m.jolted }

/-- R146: an episode begins. -/
def beginEpisode (d : Detector) (n : Nat) (s : State) : State :=
  waitHolds { s with motion := beginMotion d n (s.motion.window == .closed) s.motion }

/-- The window becomes CLOSED and the Bay Controller takes the close (R148, R40). -/
def closeWindow (s : State) : State :=
  windowCloseEvent { s with motion := { s.motion with window := .closed, hold := none } }

/-- R148: the window begins its close. -/
def beginClose (s : State) : State :=
  if joltHoldMs s = 0 then closeWindow s
  else { s with motion := { s.motion with window := .holding, hold := some (joltHoldMs s) } }

/-- R146: the counts clear, the stall timer stops, PARK_REQ is released and the detector is ARMED. -/
def disarmMotion (m : Motion) : Motion :=
  { m with detector := .armed, n := 0, impacts := 0, settle := 0, peak := 0, saturated := false, run := 0, stall := none,
           park := false }

/-- R146: the detector returns to ARMED without a record. -/
def returnToArmed (s : State) : State := beginClose { s with motion := disarmMotion s.motion }

/-- R146: an episode ends with a record. -/
def endEpisode (ending : DropEnding) (rest : RestAxis) (s : State) : State := returnToArmed (writeRecord ending rest s)

/-! ### The detector (R142 to R145, R147) -/

/-- R145: the counts, the peak, the saturated mark and the stall timer with one more sample in IMPACT. -/
def countImpact (p : Sample) (c : SampleClass) (m : Motion) : Motion :=
  { m with stall := some Config.stallMs, impacts := m.impacts + 1, peak := max m.peak p.m2, saturated := m.saturated || p.saturated,
           settle := if c = .still then m.settle + 1 else 0 }

/-- R145: whether the episode ends, after a sample in IMPACT has been counted. -/
def judgeImpact (p : Sample) (s : State) : State :=
  if settleCount s ≤ s.motion.settle then endEpisode .settled (restAxisOf p) s
  else if impactMax s ≤ s.motion.impacts then endEpisode .unsettled .none s
  else s

/-- R145: a sample taken in IMPACT. -/
def impactSample (p : Sample) (c : SampleClass) (s : State) : State :=
  judgeImpact p { s with motion := countImpact p c s.motion }

/-- R144: the detector enters IMPACT and the cache is told. -/
def enterImpact (k : DropKind) (s : State) : State :=
  cacheImpact { s with motion := { s.motion with
    detector := .impact, kind := k, impacts := 0, settle := 0, peak := 0, saturated := false } }

/-- R142: a sample in ARMED. -/
def armedSample (p : Sample) (c : SampleClass) (s : State) : State :=
  match c with
  | .low =>
      if ffCount s ≤ s.motion.run + 1 then
        beginEpisode .falling (s.motion.run + 1) s
      else { s with motion := { s.motion with run := s.motion.run + 1 } }
  | .impact =>
      impactSample p c (enterImpact .strike (beginEpisode .impact 0 s))
  | .still | .other => { s with motion := { s.motion with run := 0 } }

/-- R143: a sample in FALLING. -/
def fallingSample (p : Sample) (c : SampleClass) (s : State) : State :=
  match c with
  | .low => restartStall { s with motion := { s.motion with n := min 4095 (s.motion.n + 1) } }
  | .impact => impactSample p c (enterImpact .fall (restartStall s))
  | .still | .other => returnToArmed s

/-- R140: one motion sample. -/
def takeSample (p : Sample) (s : State) : State :=
  match s.motion.detector with
  | .armed => armedSample p (classify s p) s
  | .falling => fallingSample p (classify s p) s
  | .impact => impactSample p (classify s p) s

/-- R147: the stall timer runs out in FALLING or IMPACT. -/
def stallOut (s : State) : State :=
  if s.motion.detector = .armed ∨ s.motion.stall.isNone then s else endEpisode .stalled .none s

/-- R148: the hold of a HOLDING window runs out. -/
def holdOut (s : State) : State := if s.motion.window = .holding then closeWindow s else s

end Sys2Proof.Machine
end

