-- ==== Sys2Proof/Machine/Light.lean ====
section
/-! DEFINITION. The Backlight Pipeline (chapter 7): the stages of one light sample, and Brightness Set. -/

namespace Sys2Proof.Machine

/-! ### The curve in effect (R123) -/

/-- A CURVE word in effect. -/
def curveWord (s : State) (i : Nat) : Nat := (inEffect s .curve i).toNat

def kUp (s : State) : Nat := curveWord s 1
def kDown (s : State) : Nat := curveWord s 2
def hyst (s : State) : Nat := curveWord s 3
def slewUp (s : State) : Nat := curveWord s 4
def slewDown (s : State) : Nat := curveWord s 5

/-- The breakpoints in effect, in order. -/
def breakpoints (s : State) : List (Nat × Nat) :=
  (List.range (min 16 (curveWord s 0))).map (fun i => breakpointOf (inEffect s .curve (i + 6)))

/-! ### The stages -/

/-- R125: the interpolation between two breakpoints. -/
def interpolate (x l x' l' lux : Nat) : Nat := l + (2 * ((l' - l) * (lux - x)) + (x' - x)) / (2 * (x' - x))

/-- R125: the level of a curve at a light value. -/
def curveLevel (lux : Nat) : List (Nat × Nat) → Nat
  | [] => 0
  | [(_, l)] => l
  | (x, l) :: (x', l') :: rest =>
      if lux < x then l
      else if lux < x' then interpolate x l x' l' lux
      else curveLevel lux ((x', l') :: rest)

/-- R124: the input stage. -/
def inputStage (lux : Nat) (clipped : Bool) (p : Pipeline) : Pipeline :=
  { p with l := if clipped then 65535 else lux, clampedLux := p.clampedLux || clipped }

/-- R125: the target stage. -/
def targetStage (s : State) (p : Pipeline) : Pipeline := { p with t := curveLevel p.l (breakpoints s) }

/-- R126: the new filter state; the division by a power of two is a floor. -/
def filterNext (up down t st : Nat) : Nat :=
  if st < 16 * t then ((st : Int) + (16 * (t : Int) - st) / (2 ^ up : Nat)).toNat
  else ((st : Int) + (16 * (t : Int) - st) / (2 ^ down : Nat)).toNat

/-- R126: the filter stage. -/
def filterStage (s : State) (p : Pipeline) : Pipeline := { p with s := filterNext (kUp s) (kDown s) p.t p.s }

/-- R127: the rounding stage. -/
def rounded (st : Nat) : Nat := (st + 8) / 16

/-- The magnitude of a difference. -/
def distance (a b : Nat) : Nat := (a - b) + (b - a)

/-- R127, R128: the rounding and hysteresis stages. -/
def hysteresisStage (s : State) (p : Pipeline) : Pipeline :=
  { p with d := if hyst s ≤ distance (rounded p.s) p.d ∨ rounded p.s = p.t then rounded p.s else p.d }

/-- R129: the goal. -/
def goal (minL d c : Nat) : Nat := max minL (min d c)

/-- R130: the new output level. -/
def slew (up down g o : Nat) : Nat := if o < g then min g (o + up) else max g (o - down)

/-- R129, R130: the goal and slew stages. -/
def slewStage (s : State) (p : Pipeline) : Pipeline :=
  { p with ceilingLimited := p.ceilingLimited || decide (s.budget.c < p.d),
           o := slew (slewUp s) (slewDown s) (goal (minLevel s) p.d s.budget.c) p.o }

/-- R122: the stages that one light sample runs. -/
def lightStep (lux : Nat) (clipped : Bool) (s : State) : Pipeline :=
  let p := inputStage lux clipped s.pipe
  match s.pipe.mode with
  | .manual => slewStage s p
  | .auto =>
      if s.flags.holdCurve then p
      else slewStage s (hysteresisStage s (filterStage s (targetStage s p)))

/-- R122: one light sample. -/
def takeLight (lux : Nat) (clipped : Bool) (s : State) : State := { s with pipe := lightStep lux clipped s }

/-- R196: bit 0 of the third byte is the over-range flag. -/
def overRange (b : Byte) : Bool := b.toNat % 2 == 1

/-! ### Brightness Set (R134) -/

/-- R134: a level clamped to MIN_LEVEL and 1000. -/
def clampLevel (minL v : Nat) : Nat := max minL (min v 1000)

/-- R134, step 2: the mode is applied, the manual level being stored. -/
def applyMode (m : PipeMode) (p : Pipeline) : Pipeline :=
  match p.mode, m with
  | .auto, .auto => p
  | .auto, .manual => { p with mode := .manual, d := p.manual }
  | .manual, .manual => { p with d := p.manual }
  | .manual, .auto => { p with mode := .auto, s := 16 * p.o, d := p.o }

/-- R134: the pipeline after Brightness Set, before the recomputation. -/
def brightnessPipe (m : PipeMode) (level host : Nat) (s : State) : Pipeline :=
  { applyMode m { s.pipe with manual := clampLevel (minLevel s) level } with hostMax := clampLevel (minLevel s) host }

/-- R134: Brightness Set. -/
def setBrightness (m : PipeMode) (level host : Nat) (s : State) : State :=
  recompute { s with pipe := brightnessPipe m level host s }

end Sys2Proof.Machine
end

