-- ==== Sys2Proof/Machine/Table.lean ====
section
/-! DEFINITION. Table Memory (chapter 9): the check and field validation, entry into and exit from service, and the tests and effects of
the five table commands. -/

namespace Sys2Proof.Machine

/-! ### Field validation (R172 to R175, R195) -/

/-- A word encodes a field's value and the value lies within its range. -/
def inRange (r : Config.FieldRow) (w : Word) : Bool :=
  if r.signed then decide (r.lo ≤ w.toInt) && decide (w.toInt ≤ r.hi)
  else decide (r.lo ≤ (w.toNat : Int)) && decide ((w.toNat : Int) ≤ r.hi)

/-- Word `i` of a list of fields is out of its range. -/
def rowFails (rows : List Config.FieldRow) (i : Nat) (w : Word) : Bool :=
  match rows[i]? with
  | some r => !inRange r w
  | none => false

/-- R172: V_MIN_mV not below V_MAX_mV fails at word 9. -/
def configFails (m : Memory) (i : Nat) : Bool :=
  rowFails Config.configRows i (Memory.read m i)
    || (i == 9 && decide ((Memory.read m 9).toNat ≤ (Memory.read m 8).toNat))

/-- R195: the bits of a CODEMAP entry that must be zero, 4 to 7, 19 and 21 to 31, and the codes that do not exist. -/
def entryLayoutFails (w : Word) : Bool :=
  bitField w 4 4 != 0 || bitField w 19 1 != 0 || bitField w 21 11 != 0 || bitField w 2 2 == 3 || bitField w 16 3 == 7

/-- R173: what an entry's own class, tag and permits forbid. -/
def entryFails (e : MapEntry) : Bool :=
  (match e.cls with
   | .fixed => e.writePermit || e.maxAge != 0
   | .none => e.maxAge != 0
   | .timed => e.maxAge == 0)
  || (e.tag == .serial && e.cls != .fixed)
  || (e.poll && !e.readPermit)

/-- The entries of the codes below `c`. -/
def lowerEntries (m : Memory) (c : Nat) : List MapEntry := (List.range c).map (fun k => entryOf (Memory.read m (k + 1)))

/-- R173: the entry of code `c` fails. -/
def mapEntryFails (m : Memory) (c : Nat) : Bool :=
  let w := Memory.read m (c + 1)
  let e := entryOf w
  (decide ((Memory.read m 0).toNat ≤ c) && w != 0)
    || entryLayoutFails w || entryFails e
    || (e.tag != .none && (lowerEntries m c).any (fun q => q.tag == e.tag))
    || (e.poll && decide (8 ≤ (lowerEntries m c).countP (fun q => q.poll)))

/-- R173. -/
def codemapFails (m : Memory) : Nat → Bool
  | 0 => decide (128 < (Memory.read m 0).toNat)
  | c + 1 => mapEntryFails m c

/-- R174: breakpoint `i`, in word `i + 5`, fails, with `n` breakpoints counted. -/
def breakpointFails (m : Memory) (n i : Nat) : Bool :=
  let p := breakpointOf (Memory.read m (i + 5))
  let q := breakpointOf (Memory.read m (i + 4))
  if n < i then Memory.read m (i + 5) != 0
  else decide (1000 < p.2) || (decide (2 ≤ i) && (decide (p.1 ≤ q.1) || decide (p.2 < q.2)))

/-- R174. -/
def curveFails (m : Memory) (i : Nat) : Bool :=
  let n := (Memory.read m 0).toNat
  if i = 0 then decide (n < 2) || decide (16 < n)
  else if i ≤ 5 then rowFails Config.curveRows (i - 1) (Memory.read m i)
  else breakpointFails m n (i - 5)

/-- R175. -/
def motionFails (m : Memory) (i : Nat) : Bool :=
  rowFails Config.motionRows i (Memory.read m i)
    || (i == 4 && decide ((Memory.read m 4).toNat ≤ (Memory.read m 1).toNat))
    || (i == 5 && decide ((Memory.read m 5).toNat ≤ (Memory.read m 4).toNat))

/-- Word `i` of region `r` fails field validation. -/
def wordFails (r : RegionId) (m : Memory) (i : Nat) : Bool :=
  match r with
  | .config => configFails m i
  | .codemap => codemapFails m i
  | .curve => curveFails m i
  | .motion => motionFails m i

/-- R171, test 1: the lowest blank word. -/
def lowestBlank (r : RegionId) (m : Memory) : Option Nat :=
  (List.range (Config.regionSize r)).find? (fun i => (Memory.get? m i).isNone)

/-- R171, test 2: the sum of all the region's words modulo 2 to the power 32. -/
def regionSum (r : RegionId) (m : Memory) : Word :=
  (List.range (Config.regionSize r)).foldl (fun a i => a + Memory.read m i) 0

/-- R171, test 3: the lowest word that fails; the check word is not tested. -/
def lowestFailing (r : RegionId) (m : Memory) : Option Nat :=
  (List.range (Config.regionSize r - 1)).find? (fun i => wordFails r m i)

/-- R171: the outcome of a check; none when every test passes, else the detail of the first that fails. -/
def checkFailure (r : RegionId) (m : Memory) : Option Detail :=
  match lowestBlank r m with
  | some i => some (dFailBlank i)
  | none =>
      if regionSum r m = 0 then
        match lowestFailing r m with
        | some i => some (dFailField i)
        | none => none
      else some (dFailSum (Config.regionSize r - 1))

/-! ### Entering and leaving service (R166) -/

/-- R113: HOST_MAX is raised to a higher MIN_LEVEL. -/
def raiseHostMax (s : State) : State := { s with pipe := { s.pipe with hostMax := max s.pipe.hostMax (minLevel s) } }

/-- R64: a count above the FAULT_LIMIT in effect is set to it. -/
def clampCount (x : BayId) (s : State) : State :=
  updRelay x (fun r => { r with failCount := min r.failCount (faultLimit s) }) s

/-- R64: a bay whose count stands at the limit is moved to FAULTED, as one action. -/
def faultAtLimit (x : BayId) (s : State) : State := settling (faultIfReached x) s

/-- R166, CONFIG: HOST_MAX, the recomputation, and the counts of both bays. R166 lists the recomputation before the counts and names no order; the model
recomputes first, so BUDGET_CUT comes before BAY_FAULT (DESIGN CHOICE, log 42). Where one hand-over brings both bays to the limit, bay A is faulted
first, a STANDBY join that this makes (R25) is taken, and bay B is faulted then: R64 and R166 give no order (DESIGN CHOICE, log 35). -/
def handOverConfig (s : State) : State :=
  faultAtLimit .B (faultAtLimit .A (clampCount .B (clampCount .A (recompute (raiseHostMax s)))))

/-- R59, R83: a ring built from the map in service, its pointer at the first code, a pending poll dropped. -/
def rebuildRing (x : BayId) (s : State) : State :=
  updRelay x (fun r => { r with ring := ringOf (mapInService s), ptr := 0, pollDue := false }) s

/-- R83: a new map instance begins. -/
def newInstance (s : State) : State :=
  rebuildRing .B (rebuildRing .A { s with mapInst := s.mapInst + 1 })

/-- R166: a region has entered service. -/
def enterService (r : RegionId) (s : State) : State :=
  match r with
  | .config => handOverConfig s
  | .codemap => newInstance s
  | .curve | .motion => s

/-- R166, R83, R101: a region has left service. -/
def leaveService (r : RegionId) (s : State) : State :=
  match r with
  | .config => handOverConfig s
  | .codemap => cacheDropAll (newInstance s)
  | .curve | .motion => s

/-- Set the state of a region. -/
def setRegionState (r : RegionId) (st : RegionState) (s : State) : State := updRegion r (fun g => { g with state := st }) s

/-- R171: the check of a CHECKING region ends. -/
def endCheck (r : RegionId) (s : State) : State :=
  if (s.tables.get r).state = .checking then
    match checkFailure r (s.tables.get r).words with
    | none => post (.tableDone r) dPass (enterService r (setRegionState r .inService s))
    | some d => post (.tableDone r) d (setRegionState r .loading s)
  else s

/-! ### The commands (R167 to R170, R176, R177) -/

/-- R168: the region is blank and EMPTY; leaving service is handed over. -/
def clearRegion (r : RegionId) (s : State) : State :=
  if (s.tables.get r).state = .inService then
    leaveService r (updRegion r (fun g => { g with state := .empty, words := [] }) s)
  else updRegion r (fun g => { g with state := .empty, words := [] }) s

/-- R167, R168: Table Clear. -/
def tableClear (r : RegionId) (s : State) : State × Frame :=
  if (s.tables.get r).lock then (s, bareFrame .locked)
  else if (s.tables.get r).state = .checking then (s, bareFrame .busy)
  else (clearRegion r s, okFrame [])

/-- R167: count 0 or above 48, or a range that passes the region's end. -/
def rangeBad (r : RegionId) (off count : Nat) : Bool :=
  count == 0 || decide (48 < count) || decide (Config.regionSize r < off + count)

/-- R169: the words are stored and the region becomes LOADING. -/
def storeWords (r : RegionId) (off : Nat) (ws : List Word) (s : State) : State :=
  updRegion r (fun g => { g with state := .loading, words := Memory.writeAll g.words off ws }) s

/-- R169: how many words of the region are blank. -/
def blankCount (r : RegionId) (s : State) : Nat := Memory.blanks (s.tables.get r).words 0 (Config.regionSize r)

/-- R167, R169: Table Write of the words `ws` from word `off` on. -/
def tableWrite (r : RegionId) (off : Nat) (ws : List Word) (s : State) : State × Frame :=
  if rangeBad r off ws.length then (s, bareFrame .param)
  else if (s.tables.get r).lock then (s, bareFrame .locked)
  else if (s.tables.get r).state = .checking then (s, bareFrame .busy)
  else if (s.tables.get r).state = .inService then (s, bareFrame .state)
  else if Memory.blanks (s.tables.get r).words off ws.length ≠ ws.length then (s, bareFrame .blank)
  else (storeWords r off ws s, okFrame [byteOf (blankCount r (storeWords r off ws s))])

/-- R167, R170: Table Check. -/
def tableCheck (r : RegionId) (s : State) : State × Frame :=
  if (s.tables.get r).state = .loading then (setRegionState r .checking s, bareFrame .accepted)
  else (s, bareFrame .state)

/-- R176: the words of a range as bytes, in ascending order. -/
def rangeBytes (m : Memory) (off count : Nat) : List Byte :=
  (List.range count).flatMap (fun k => le32 (Memory.read m (off + k)).toNat)

/-- R167, R176: Table Read. -/
def tableRead (r : RegionId) (off count : Nat) (s : State) : State × Frame :=
  if rangeBad r off count then (s, bareFrame .param)
  else (s, okFrame (byteOf (Memory.blanks (s.tables.get r).words off count)
    :: rangeBytes (s.tables.get r).words off count))

/-- R167, R177: Table Lock. -/
def tableLock (r : RegionId) (s : State) : State × Frame :=
  if (s.tables.get r).state = .inService then (updRegion r (fun g => { g with lock := true }) s, okFrame [])
  else (s, bareFrame .state)

end Sys2Proof.Machine
end

