-- ==== Sys2Proof/Machine/Port.lean ====
section
/-! DEFINITION. The Management Port (chapter 10): how a command write and a result read are taken, and the records that results carry
(R194). -/

namespace Sys2Proof.Machine

/-! ### Taking a command (R183, R184) -/

/-- Set the result slot. -/
def setSlot (v : Slot) (s : State) : State := { s with port := { s.port with slot := v } }

/-- R183, R184: a command write whose last byte has been acknowledged, with the slot EMPTY: the slot passes through EXECUTING and ends
PENDING with the frame of the body's result. -/
def execute (body : State → State × Frame) (s : State) : State :=
  let r := body (setSlot .executing s)
  setSlot (.pending r.2) r.1

/-- R183, R49: a command write at MGMT. A platform transaction not yet at its forwarding point is abandoned by the new start; while the
clock is stretched no transaction begins (log 7); a slot that is not EMPTY refuses the code byte. -/
def manage (body : State → State × Frame) (s : State) : State :=
  if upStretched s then setAnswer .held s
  else if s.port.slot = .empty then execute body (endUpstream .acknowledged s)
  else endUpstream .refused s

/-- R184: a command without parameters. -/
def noParams (params : List Byte) (f : State → State × Frame) (s : State) : State × Frame :=
  if params = [] then f s else (s, bareFrame .param)

/-- R42, R66, R184: a command whose one parameter names a bay. -/
def withBay (params : List Byte) (f : BayId → State → State × Frame) (s : State) : State × Frame :=
  match params with
  | [b] => (match bayOfByte b with | some x => f x s | none => (s, bareFrame .param))
  | _ => (s, bareFrame .param)

/-- R167, R184: a command whose one parameter names a region. -/
def withRegion (params : List Byte) (f : RegionId → State → State × Frame) (s : State) : State × Frame :=
  match params with
  | [b] => (match regionOfByte b with | some r => f r s | none => (s, bareFrame .param))
  | _ => (s, bareFrame .param)

/-- An answer that changes nothing. -/
def query (f : State → List Byte) (s : State) : State × Frame := (s, okFrame (f s))

/-- R185: a result read of `count` bytes. Bytes read beyond the two of an EMPTY frame are returned as FFh too, which R185 says of a PENDING slot only
(DESIGN CHOICE, log 40). -/
def readResult (count : Nat) (s : State) : State :=
  if upStretched s then setAnswer .held s
  else
    match s.port.slot with
    | .pending f =>
        let s1 := endUpstream (.data (readOut count (frameBytes f))) s
        if (frameBytes f).length ≤ count then setSlot .empty s1 else s1
    | .empty | .executing => endUpstream (.data (readOut count (frameBytes (bareFrame .empty)))) s

/-! ### Records (R194) -/

/-- Identify, 11 bytes. -/
def identifyBytes (s : State) : List Byte :=
  le16 Config.partCode ++ [byteOf Config.revision]
    ++ [s.tables.config, s.tables.codemap, s.tables.curve, s.tables.motion].map
        (fun g => byteOf (regionStateCode g.state + bitAt 7 g.lock))
    ++ le32 s.time.uptime

/-- Power Query, 8 bytes. -/
def powerBytes (s : State) : List Byte :=
  [byteOf (bitAt 0 s.pp.ext + bitAt 1 s.pp.bridgeReady + bitAt 2 s.pp.lowpwr + bitAt 3 s.pp.pfail),
   byteOf (switchCode s.pp.sw.a), byteOf (bitAt 0 s.pp.held.a + bitAt 1 (conductsBay s .A)),
   byteOf (switchCode s.pp.sw.b), byteOf (bitAt 0 s.pp.held.b + bitAt 1 (conductsBay s .B)),
   byteOf (bridgeCode s.pp.bridge)] ++ le16 s.pp.timer

/-- A stopped timer is sent as 0. -/
def timerValue (t : Option Nat) : Nat := t.getD 0

/-- Bytes 0 to 10 of the bay record. -/
def bayHead (x : BayId) (b : Bay) (held : Bool) : List Byte :=
  [byteOf (bayCode x), byteOf (bayStateCode b.state),
   byteOf (bitAt 0 b.presLine + bitAt 1 b.presence + bitAt 2 b.latchLine + bitAt 3 b.latch + bitAt 4 b.refuse
     + bitAt 5 b.deferred + bitAt 6 held),
   byteOf (refusalCode b.refusal), byteOf (handoverCode b.lastHandover), byteOf (faultCode b.faultReason),
   byteOf (causeCode b.probeCause)]
    ++ le16 (timerValue b.presDeb) ++ le16 (timerValue b.latchDeb)

/-- The code of a jolt record's hold timer. -/
def holdCode : HoldTimer → Nat
  | .stopped => 0
  | .waiting => 1
  | .running _ => 2

/-- What remains of a jolt hold. -/
def holdValue : HoldTimer → Nat
  | .running ms => ms
  | .stopped | .waiting => 0

/-- Bytes 11 to 16 of the bay record. -/
def joltBytes (j : Option JoltRecord) : List Byte :=
  match j with
  | some j =>
      [byteOf (1 + bitAt 1 j.serial.isSome + 4 * holdCode j.hold), byteOf (bayStateCode (joltEarlierState j.earlier))]
        ++ le16 (orZero j.serial) ++ le16 (holdValue j.hold)
  | none => [0, 0, 0, 0, 0, 0]

/-- R42: the uptime seconds before a context is discarded. Where a lowered REINSERT_WINDOW_s is already passed by a context that the next uptime second
discards (R38), no rule gives the value; it is returned as 0 (DESIGN CHOICE, log 41). -/
def secondsLeft (s : State) (c : Context) : Nat := reinsertWindow s - (s.time.uptime - c.departure)

/-- Bytes 17 to 27 of the bay record. -/
def contextBytes (s : State) (c : Option Context) : List Byte :=
  match c with
  | some c =>
      [byteOf (1 + bitAt 1 c.serial.isSome)] ++ le16 (orZero c.serial) ++ le32 c.departure ++ le32 (secondsLeft s c)
  | none => [0, 0, 0, 0, 0, 0, 0, 0, 0, 0, 0]

/-- The snapshot values in the order of their tag codes, 1 to 6. -/
def snapValues (n : Snapshot) : List (Option Half) :=
  [n.voltage, n.maxDischarge, n.remaining, n.status, n.temperature, n.serial]

/-- Bytes 28 to 40 of the bay record. -/
def snapBytes (n : Snapshot) : List Byte :=
  byteOf (bitAt 0 n.voltage.isSome + bitAt 1 n.maxDischarge.isSome + bitAt 2 n.remaining.isSome + bitAt 3 n.status.isSome
      + bitAt 4 n.temperature.isSome + bitAt 5 n.serial.isSome)
    :: (snapValues n).flatMap (fun v => le16 (orZero v))

/-- Bytes 41 to 51 of the bay record. -/
def ringBytes (r : Relay) : List Byte :=
  [byteOf r.failCount, byteOf r.ring.length, byteOf r.ptr]
    ++ (r.ring.map (fun c => byteOf c.toNat) ++ List.replicate 8 (0xFF#8)).take 8

/-- The bay record, 52 bytes. -/
def bayBytes (x : BayId) (s : State) : List Byte :=
  bayHead x (s.bays.get x) (s.pp.held.get x) ++ joltBytes (s.bays.get x).jolt ++ contextBytes s (s.bays.get x).context
    ++ snapBytes (s.relays.get x).snap ++ ringBytes (s.relays.get x)

/-- Budget Query, 30 bytes. -/
def budgetBytes (s : State) : List Byte :=
  le32 s.budget.pExt ++ le32 s.budget.pA ++ [byteOf (basisCode s.budget.basisA + bitAt 2 s.budget.deratedA)]
    ++ le32 s.budget.pB ++ [byteOf (basisCode s.budget.basisB + bitAt 2 s.budget.deratedB)]
    ++ le32 s.budget.pBridge ++ le32 s.budget.pAvail ++ leInt32 s.budget.h ++ le16 s.budget.cBudget ++ le16 s.budget.c

/-- The first 5 bytes of Brightness Set and Brightness Query. -/
def modeBytes (p : Pipeline) : List Byte := [byteOf (modeCode p.mode)] ++ le16 p.manual ++ le16 p.hostMax

/-- Brightness Set, 7 bytes. -/
def brightnessSetBytes (s : State) : List Byte := modeBytes s.pipe ++ le16 s.budget.c

/-- Brightness Query, 18 bytes. -/
def brightnessBytes (s : State) : List Byte :=
  modeBytes s.pipe ++ le16 s.pipe.l ++ le16 s.pipe.t ++ le16 s.pipe.s ++ le16 s.pipe.d ++ le16 s.pipe.o ++ le16 s.budget.c
    ++ [byteOf (bitAt 0 s.pipe.clampedLux + bitAt 1 s.pipe.ceilingLimited)]

/-- Bits 0 and 1 for a set of bays. -/
def baySetBits (p : Pair Bool) : Nat := bitAt 0 p.a + bitAt 1 p.b

/-- Drop State Query, 21 bytes. -/
def dropStateBytes (s : State) : List Byte :=
  [byteOf (detectorCode s.motion.detector), byteOf s.motion.run] ++ le16 s.motion.n ++ le16 s.motion.impacts
    ++ le16 s.motion.settle ++ le32 s.motion.peak
    ++ [byteOf (bitAt 0 s.motion.saturated + bitAt 1 s.motion.park + bitAt 2 s.motion.stall.isSome
          + bitAt 3 s.motion.hold.isSome + bitAt 4 (s.motion.detector == .impact && s.motion.kind == .strike)),
        byteOf (timerValue s.motion.stall), byteOf (windowCode s.motion.window)]
    ++ le16 (timerValue s.motion.hold)
    ++ [byteOf (baySetBits s.motion.jolted), byteOf s.log.records.length] ++ le16 (timerValue s.log.next)

/-- The drop record, 16 bytes. -/
def dropBytes (r : DropRecord) : List Byte :=
  le16 r.seq ++ [byteOf (dropKindCode r.kind)] ++ le16 r.n ++ le16 r.height ++ le16 r.peak
    ++ [byteOf (bitAt 0 r.saturated + bitAt 1 (r.ending == .unsettled) + bitAt 2 (r.ending == .stalled)),
        byteOf (restAxisCode r.rest)]
    ++ le32 r.time ++ [byteOf (baySetBits r.jolted)]

/-- The cache line, 8 bytes; an invalid line's fields are sent as 0 (R103). -/
def lineBytes (cs : CacheSet) (w : Way) : List Byte :=
  (if (cs.get w).valid then
     [1, byteOf (bayCode (cs.get w).bay), byteOf (cs.get w).code.toNat] ++ le16 (cs.get w).value.toNat
       ++ [byteOf (lineStateCode (cs.get w).state), byteOf (cs.get w).age]
   else [0, 0, 0, 0, 0, 0, 0])
  ++ [byteOf (bitAt 0 cs.s0 + bitAt 1 cs.s1 + bitAt 2 cs.s2)]

end Sys2Proof.Machine
end

