-- ==== Sys2Proof/Machine/Reset.lean ====
section
/-! DEFINITION. Power-on reset and the software reset: what each chapter says its block takes, in one order (log 12). -/

namespace Sys2Proof.Machine

/-! ### Power-on reset (R14, R46, R69, R104, R118, R138, R161, R178, R190, R201, R202) -/

/-- R14: the switch of a bay at POR. -/
def porSwitch (present : Bool) : Switch := if present then .passive else .off

/-- R46: the record of a bay at POR; a bay present goes to SEATING with the built-in presence debounce running. -/
def porBay (present closed : Bool) : Bay :=
  { Bay.reset with
    state := if present then .seating else .empty,
    presLine := present, presence := present,
    presDeb := if present then some (presenceDebounce State.reset) else none,
    latchLine := closed, latch := closed }

/-- R14, R46: every block at its POR value but for the budget and the pipeline. -/
def porBase (l : Lines) : State :=
  { State.reset with
    pp := { State.reset.pp with sw := ⟨porSwitch l.presA, porSwitch l.presB⟩, ext := l.ext, bridgeReady := l.bridgeReady },
    bays := ⟨porBay l.presA l.latchA, porBay l.presB l.latchB⟩ }

/-- R138: the pipeline takes O, S, D and T from the first C. -/
def porPipe (c : Nat) (p : Pipeline) : Pipeline := { p with o := min 300 c, s := 16 * min 300 c, d := min 300 c, t := min 300 c }

/-- The part right after power-on reset with the lines as sampled. -/
def porState (l : Lines) : State :=
  let b := computeBudget (porBase l)
  { porBase l with budget := b, pipe := porPipe b.c State.reset.pipe }

/-- Power-on reset in state `s`. The 100 ms age period goes on as it was (R104); the queue of waiting rows stands outside the part (log 32). -/
def powerOn (l : Lines) (s : State) : State :=
  { porState l with time := { uptime := 0, ageMs := s.time.ageMs, secondMs := 0 }, pending := s.pending }

/-! ### Software reset -/

/-- R201: the queue is emptied and ATTN_REQ released. -/
def emptyAttn (s : State) : State := { s with attn := { queue := [], req := false } }

/-- R70, R68: what the relay takes of a software reset for one bay. -/
def resetRelay (r : Relay) : Relay :=
  { r with link := none, slot := none, pollDue := false, poll := none, failCount := 0, ptr := 0, probe := none,
           recover := .notRunning }

/-- R70: the relay of both bays. -/
def relayReset (s : State) : State := updRelay .B resetRelay (updRelay .A resetRelay s)

/-- R179: a region at a software reset; a locked one is kept. -/
def resetRegion (g : Region) : Region := if g.lock then g else { g with state := .empty, words := [] }

/-- R179 and R84: a region leaves service by a software reset. -/
def leavesByReset (g : Region) : Bool := !g.lock && g.state == .inService

/-- R179: the four regions; a CODEMAP that leaves service ends its map instance. The CONFIG hand-over is the recomputation of `softReset`. -/
def tablesReset (s : State) : State :=
  let s1 := { s with tables := ⟨resetRegion s.tables.config, resetRegion s.tables.codemap, resetRegion s.tables.curve,
    resetRegion s.tables.motion⟩ }
  if leavesByReset s.tables.codemap then newInstance s1 else s1

/-- R139: the pipeline takes the reset and keeps O, L and the manual level; HOST_MAX is 1000 (R119). -/
def pipeReset (s : State) : State :=
  { s with pipe := { s.pipe with
      mode := .auto, hostMax := 1000, s := 16 * s.pipe.o, d := s.pipe.o, t := s.pipe.o,
      clampedLux := false, ceilingLimited := false } }

/-- R162: the episode in progress ends without a record; the window closes later in the reset (R47). -/
def motionReset (s : State) : State :=
  { s with motion := { disarmMotion s.motion with jolted := ⟨false, false⟩ } }

/-- R70, R47: the probe of a bay in PROBING is restarted from its first read with the same cause. -/
def restartProbe (x : BayId) (s : State) : State :=
  if (s.bays.get x).state = .probing then settling (startProbe x) s else s

/-- R202, R203, R47: the flags are cleared, and a HOLD_SWAP flag that was set is handed on as a clearing, bay A before bay B. -/
def flagsReset (s : State) : State :=
  let s1 := { s with flags := flagsClear }
  let s2 := if s.flags.holdSwapA then reevaluate .A s1 else s1
  if s.flags.holdSwapB then reevaluate .B s2 else s2

/-- R162: an open window becomes CLOSED at once, and the Bay Controller takes the close. -/
def windowReset (s : State) : State := if windowOpen s then closeWindow s else s

/-- R70: the poll period timer restarts with the value in effect after the reset. -/
def pollTimerReset (s : State) : State := { s with pollTimer := pollPeriod s }

/-- R189, R190: the slot is EMPTY and RESET_SEEN is set. -/
def portReset (s : State) : State := { s with port := { slot := .empty, resetSeen := true } }

/-- R189, R47: the software reset. The budget is recomputed after the tables and the pipeline have taken it and before the bays are
touched. -/
def softReset (s : State) : State :=
  portReset (pollTimerReset (windowReset (flagsReset (restartProbe .B (restartProbe .A
    (motionReset (recompute (pipeReset (cacheReset (tablesReset (relayReset (emptyAttn s))))))))))))

end Sys2Proof.Machine
end

