-- ==== Sys2Proof/Machine/LineRows.lean ====
section
/-! DEFINITION. The rows of the input lines, the debounce, bridge, jolt and context timers, and the ticks. -/

namespace Sys2Proof.Machine

/-! ### Debouncing (R17, R18) -/

/-- R17: the presence debounce after a change of the line to `level`. -/
def presenceDeb (s : State) (b : Bay) : Option Nat := if b.presLine = b.presence then none else some (presenceDebounce s)

/-- R18: the latch debounce after a change of the line. -/
def latchDeb (s : State) (b : Bay) : Option Nat := if b.latchLine = b.latch then none else some (latchDebounce s)

/-- R17: start, restart or stop the presence debounce. -/
def debouncePresence (x : BayId) (s : State) : State := updBay x (fun b => { b with presDeb := presenceDeb s b }) s

/-- R18. -/
def debounceLatch (x : BayId) (s : State) : State := updBay x (fun b => { b with latchDeb := latchDeb s b }) s

/-- The presence debounce stops. -/
def stopPresenceDeb (x : BayId) (s : State) : State := updBay x (fun b => { b with presDeb := none }) s

/-- R17, R20: the presence line rises. -/
def presenceLineRises (x : BayId) (s : State) : State :=
  if (s.bays.get x).state = .empty ∧ ¬ (s.bays.get x).presence then enterSeating x s else debouncePresence x s

/-- R20, R46: the line falls in SEATING. -/
def seatingLineFalls (x : BayId) (s : State) : State :=
  if (s.bays.get x).presence then presenceFalls x (stopPresenceDeb x s)
  else setBayState x .empty (stopPresenceDeb x s)

/-- R17, R20, R46, R55, R68: the presence line falls. -/
def presenceLineFalls (x : BayId) (s : State) : State :=
  let s1 := failRecover x (loseLink x s)
  if (s1.bays.get x).state = .seating then seatingLineFalls x s1 else debouncePresence x s1

/-- R17: the presence line of a bay takes a level. -/
def presenceLine (x : BayId) (level : Bool) (s : State) : State :=
  if (s.bays.get x).presLine = level then s
  else
    let s1 := updBay x (fun b => { b with presLine := level }) s
    if level then presenceLineRises x s1 else presenceLineFalls x s1

/-- R20, R34, R46: the recorded presence takes an asserted line. On a return from a jolt with the switch still ON, the power path takes the rise
first (R17), with a recomputation on the old snapshot and the end of a bridge run, and the snapshot is cleared after it (R34): no rule gives
the order (DESIGN CHOICE, log 39). -/
def recordRise (x : BayId) (s : State) : State :=
  let s1 := if (s.bays.get x).presence then s else presenceRises x s
  match (s1.bays.get x).state with
  | .seating =>
      enterProbing x .insertion (if (s.bays.get x).presence then s1 else post (.presence (.bay x)) dArrived s1)
  | .jolt => if (s.bays.get x).presence then s1 else joltReturn x s1
  | _ => s1

/-- R17: the presence debounce runs out. -/
def presenceExpiry (x : BayId) (s : State) : State :=
  if (s.bays.get x).presDeb.isNone then s
  else
    let s1 := stopPresenceDeb x s
    if (s.bays.get x).presLine then recordRise x s1
    else if (s.bays.get x).presence then presenceFalls x s1
    else s1

/-- R18: the latch line of a bay takes a level. -/
def latchLine (x : BayId) (closed : Bool) (s : State) : State :=
  if (s.bays.get x).latchLine = closed then s
  else debounceLatch x (updBay x (fun b => { b with latchLine := closed }) s)

/-- R18: the latch debounce runs out. -/
def latchExpiry (x : BayId) (s : State) : State :=
  if (s.bays.get x).latchDeb.isNone then s
  else
    let s1 := updBay x (fun b => { b with latchDeb := none }) s
    if (s.bays.get x).latchLine = (s.bays.get x).latch then s1
    else if (s.bays.get x).latchLine then latchCloses x s1
    else latchOpens x s1

/-! ### EXT_PRESENT and the bridge (R1, R9, R12) -/

/-- Set the recorded EXT presence. -/
def setExt (v : Bool) (s : State) : State := { s with pp := { s.pp with ext := v } }

/-- R1: EXT arrives; held switches are released (R6) and a bridge run ends (R10). -/
def extArrives (s : State) : State :=
  endBridge (releaseHeld (recompute (post (.presence .ext) dArrived (setExt true s))))

/-- R1: EXT departs; an emptied set of conducting sources is reported (R7). -/
def extDeparts (s : State) : State :=
  let s1 := recompute (post (.presence .ext) dDeparted (setExt false s))
  if anyConducts s ∧ ¬ anyConducts s1 then answerNoSource s1 else s1

/-- R1: EXT_PRESENT takes a level. -/
def extLine (level : Bool) (s : State) : State :=
  if s.pp.ext = level then s else if level then extArrives s else extDeparts s

/-- R9: the run timer reaches the limit in RUNNING. -/
def expireBridge (s : State) : State :=
  if s.pp.bridge = .running then
    let t := max s.pp.timer (bridgeMax s)
    recompute (post .bridgeLow (dRunTimer t) { s with pp := { s.pp with bridge := .expired, timer := t, pfail := true } })
  else s

/-! ### Jolt holds, contexts and ticks (R34, R38, R94, R188) -/

/-- The jolt hold of a bay in JOLT is running. -/
def holdRuns (b : Bay) : Bool :=
  b.state == .jolt &&
    match b.jolt with
    | some j => (match j.hold with | .running _ => true | _ => false)
    | none => false

/-- R34: the jolt hold runs out without presence. -/
def joltHoldOut (x : BayId) (s : State) : State := if holdRuns (s.bays.get x) then joltExpire x s else s

/-- R38: the uptime has reached the reinsertion window of the bay's context. -/
def contextDue (s : State) (x : BayId) : Bool :=
  match (s.bays.get x).context with
  | some c => reinsertWindow s ≤ s.time.uptime - c.departure
  | none => false

/-- R38: the context whose window is reached is discarded. -/
def contextOut (x : BayId) (s : State) : State := if contextDue s x then discardContext x s else s

/-- R188: the next uptime. -/
def nextUptime (n : Nat) : Nat := min Config.uptimeMax (n + 1)

/-! ### The rows -/

/-- POWER_ON_RESET, R178. -/
def execPowerOnReset (l : Lines) (s : State) : Host.Outcome State Fault Refusal := .next (powerOn l s)

/-- EXT_PRESENT_CHANGE, R1. -/
def execExtPresentChange (level : Bool) (s : State) : Host.Outcome State Fault Refusal := .next (settling (extLine level) s)

/-- PRESENCE_LINE_CHANGE, R17. -/
def execPresenceLineChange (x : BayId) (level : Bool) (s : State) : Host.Outcome State Fault Refusal :=
  .next (settling (presenceLine x level) s)

/-- PRESENCE_DEBOUNCE_EXPIRY, R17. -/
def execPresenceDebounceExpiry (x : BayId) (s : State) : Host.Outcome State Fault Refusal :=
  .next (settling (presenceExpiry x) s)

/-- LATCH_LINE_CHANGE, R18. -/
def execLatchLineChange (x : BayId) (closed : Bool) (s : State) : Host.Outcome State Fault Refusal :=
  .next (latchLine x closed s)

/-- LATCH_DEBOUNCE_EXPIRY, R18. -/
def execLatchDebounceExpiry (x : BayId) (s : State) : Host.Outcome State Fault Refusal :=
  .next (settling (latchExpiry x) s)

/-- BRIDGE_READY_CHANGE, R12. -/
def execBridgeReadyChange (level : Bool) (s : State) : Host.Outcome State Fault Refusal :=
  .next { s with pp := { s.pp with bridgeReady := level } }

/-- BRIDGE_EXPIRY, R9. -/
def execBridgeExpiry (s : State) : Host.Outcome State Fault Refusal := .next (expireBridge s)

/-- JOLT_HOLD_EXPIRY, R34. -/
def execJoltHoldExpiry (x : BayId) (s : State) : Host.Outcome State Fault Refusal := .next (settling (joltHoldOut x) s)

/-- CONTEXT_WINDOW_EXPIRY, R38. -/
def execContextWindowExpiry (x : BayId) (s : State) : Host.Outcome State Fault Refusal := .next (contextOut x s)

/-- UPTIME_TICK, R188. -/
def execUptimeTick (s : State) : Host.Outcome State Fault Refusal :=
  .next { s with time := { s.time with uptime := nextUptime s.time.uptime } }

/-- AGE_TICK, R94. -/
def execAgeTick (s : State) : Host.Outcome State Fault Refusal := .next (mapCache Line.older s)

end Sys2Proof.Machine
end

