-- ==== Sys2Proof/Machine/LinkRows.lean ====
section
/-! DEFINITION. The rows of the pack links and of platform transactions (chapter 3). -/

namespace Sys2Proof.Machine

/-- R60: the poll period timer runs out and restarts; each eligible bay becomes due. -/
def pollPeriodOut (s : State) : State := makeDue .B (makeDue .A { s with pollTimer := pollPeriod s })

/-- R54: the transaction in flight completes on the bus with the pack's reply. -/
def completeTx (x : BayId) (reply : PackReply) (s : State) : State :=
  match (s.relays.get x).link with
  | some tx => (match resultOf tx.req.kind reply with | some r => finishTx x tx r s | none => s)
  | none => s

/-- R54: the timeout timer of the transaction in flight runs out. -/
def timeoutTx (x : BayId) (s : State) : State :=
  match (s.relays.get x).link with
  | some tx => finishTx x tx .timeout s
  | none => s

/-- POLL_PERIOD_EXPIRY, R60. -/
def execPollPeriodExpiry (s : State) : Host.Outcome State Fault Refusal := .next (pollPeriodOut s)

/-- POLL_START, R61. -/
def execPollStart (x : BayId) (s : State) : Host.Outcome State Fault Refusal := .next (startPoll x s)

/-- POLL_RETRY, R61. -/
def execPollRetry (x : BayId) (s : State) : Host.Outcome State Fault Refusal := .next (retryPoll x s)

/-- PROBE_READ_START, R62. -/
def execProbeReadStart (x : BayId) (s : State) : Host.Outcome State Fault Refusal := .next (startProbeRead x s)

/-- SLOT_TRANSACTION_START, R57. -/
def execSlotTransactionStart (x : BayId) (s : State) : Host.Outcome State Fault Refusal := .next (startSlot x s)

/-- PACK_TRANSACTION_END, R54. -/
def execPackTransactionEnd (x : BayId) (reply : PackReply) (s : State) : Host.Outcome State Fault Refusal :=
  .next (settling (completeTx x reply) s)

/-- LINK_TIMEOUT, R54. -/
def execLinkTimeout (x : BayId) (s : State) : Host.Outcome State Fault Refusal := .next (settling (timeoutTx x) s)

/-- LINK_RECOVER_BEGIN, R66. -/
def execLinkRecoverBegin (x : BayId) (s : State) : Host.Outcome State Fault Refusal := .next (beginRecover x s)

/-- LINK_RECOVER_END, R67. -/
def execLinkRecoverEnd (x : BayId) (released : Option Nat) (s : State) : Host.Outcome State Fault Refusal :=
  .next (settling (endRecover x released) s)

/-- PLATFORM_ADDRESS, R50. -/
def execPlatformAddress (a : Addr) (read : Bool) (s : State) : Host.Outcome State Fault Refusal := .next (takeAddress a read s)

/-- CODE_BYTE_CHECK, R73. -/
def execCodeByteCheck (b : Byte) (s : State) : Host.Outcome State Fault Refusal := .next (takeCodeByte b s)

/-- TRANSACTION_ABANDON, R49. -/
def execTransactionAbandon (s : State) : Host.Outcome State Fault Refusal := .next (abandonUp s)

/-- READ_VALUE, R53. -/
def execReadValue (count : Nat) (s : State) : Host.Outcome State Fault Refusal := .next (reachForwarding .readValue [] count s)

/-- WRITE_VALUE, R53. -/
def execWriteValue (lo hi : Byte) (s : State) : Host.Outcome State Fault Refusal :=
  .next (reachForwarding .writeValue [lo, hi] 0 s)

/-- READ_BLOCK, R53. -/
def execReadBlock (count : Nat) (s : State) : Host.Outcome State Fault Refusal := .next (reachForwarding .readBlock [] count s)

/-- R49: a WRITE_BLOCK has 1 to 32 data bytes after its length byte. -/
def forwardBlock (bytes : List Byte) (s : State) : State :=
  if 1 ≤ bytes.length ∧ bytes.length ≤ 32 then
    reachForwarding .writeBlock (byteOf bytes.length :: bytes) 0 s
  else outOfPlace s

/-- WRITE_BLOCK, R53. -/
def execWriteBlock (bytes : List Byte) (s : State) : Host.Outcome State Fault Refusal := .next (forwardBlock bytes s)

end Sys2Proof.Machine
end

