-- ==== Sys2Proof/Machine/SampleRows.lean ====
section
/-! DEFINITION. The rows of the sample lane, the Motion Monitor's timers and the end of a Table Check. -/

namespace Sys2Proof.Machine

/-- R121: the receiver waits for a header (log 17). -/
def laneIdle (s : State) : State := { s with lane := [] }

/-- LIGHT_SAMPLE, R122. -/
def execLightSample (b0 b1 b2 : Byte) (s : State) : Host.Outcome State Fault Refusal :=
  .next (takeLight (halfOf b0 b1).toNat (overRange b2) (laneIdle s))

/-- MOTION_SAMPLE, R140. -/
def execMotionSample (x0 x1 y0 y1 z0 z1 : Byte) (s : State) : Host.Outcome State Fault Refusal :=
  .next (takeSample (sampleOf x0 x1 y0 y1 z0 z1) (laneIdle s))

/-- FRAME_DISCARD, R121: a discarded frame is not a sample. -/
def execFrameDiscard (_header : Byte) (_payload : List Byte) (s : State) : Host.Outcome State Fault Refusal :=
  .next (laneIdle s)

/-- LANE_GAP_DISCARD, R121: the bytes received are discarded. -/
def execLaneGapDiscard (_received : List Byte) (s : State) : Host.Outcome State Fault Refusal := .next (laneIdle s)

/-- STALL_TIMEOUT, R147. -/
def execStallTimeout (s : State) : Host.Outcome State Fault Refusal := .next (stallOut s)

/-- WINDOW_HOLD_EXPIRY, R148. -/
def execWindowHoldExpiry (s : State) : Host.Outcome State Fault Refusal := .next (holdOut s)

/-- TABLE_CHECK_END, R171. -/
def execTableCheckEnd (r : RegionId) (s : State) : Host.Outcome State Fault Refusal := .next (endCheck r s)

end Sys2Proof.Machine
end

