-- ==== Sys2Proof/Machine/PlatformRows.lean ====
section
/-! DEFINITION. The command rows of the port itself, the flags, the power path, the bays, the cache, the budget and the pipeline. -/

namespace Sys2Proof.Machine

/-! ### Port, queue and flags (R184, R185, R188, R189, R200, R202, R203) -/

/-- R188: Identify clears RESET_SEEN and returns the record. -/
def identify (s : State) : State × Frame :=
  ({ s with port := { s.port with resetSeen := false } }, okFrame (identifyBytes s))

/-- R200: the head entry is removed and returned. -/
def senseHead (s : State) : State × Frame :=
  match s.attn.queue with
  | [] => (s, bareFrame .empty)
  | e :: rest => ({ s with attn := { queue := rest, req := !rest.isEmpty } }, okFrame (attnBytes e))

/-- R203: a change of flag number `n` from `old` to `new` is handed to the block that reads it. -/
def handFlag (n : Nat) (old new : Bool) (s : State) : State :=
  if old && !new then
    if n = 0 then reevaluate .A s else if n = 1 then reevaluate .B s else s
  else if !old && new && n == 2 then
    updRelay .B (fun r => { r with pollDue := false }) (updRelay .A (fun r => { r with pollDue := false }) s)
  else s

/-- R202: a flag command; `f` gives the flag's new value from its old one. -/
def flagCommand (params : List Byte) (f : Bool → Bool) (s : State) : State × Frame :=
  match params with
  | [b] =>
      match flagGet s.flags b.toNat with
      | some old =>
          (handFlag b.toNat old (f old) { s with flags := flagPut s.flags b.toNat (f old) }, okFrame [byteOf (bitAt 0 old)])
      | none => (s, bareFrame .param)
  | _ => (s, bareFrame .param)

/-- R189: Reset Part. With parameters it is answered PARAM; without, no result frame is produced. -/
def resetPart (params : List Byte) (s : State) : State :=
  if upStretched s then setAnswer .held s
  else if s.port.slot = .empty then
    if params = [] then softReset (setSlot .executing (endUpstream .acknowledged s))
    else execute (fun s => (s, bareFrame .param)) (endUpstream .acknowledged s)
  else endUpstream .refused s

/-- RESULT_READ, R185. -/
def execResultRead (count : Nat) (s : State) : Host.Outcome State Fault Refusal := .next (readResult count s)

/-- INVALID_COMMAND, R184. -/
def execInvalidCommand (_code : BitVec 7) (_params : List Byte) (s : State) : Host.Outcome State Fault Refusal :=
  .next (manage (fun s => (s, bareFrame .invalid)) s)

/-- IDENTIFY, R188. -/
def execIdentify (p : List Byte) (s : State) : Host.Outcome State Fault Refusal := .next (manage (noParams p identify) s)

/-- SENSE_ATTENTION, R200. -/
def execSenseAttention (p : List Byte) (s : State) : Host.Outcome State Fault Refusal := .next (manage (noParams p senseHead) s)

/-- FLAG_TEST, R202. -/
def execFlagTest (p : List Byte) (s : State) : Host.Outcome State Fault Refusal := .next (manage (flagCommand p id) s)

/-- FLAG_SET, R202. -/
def execFlagSet (p : List Byte) (s : State) : Host.Outcome State Fault Refusal :=
  .next (manage (flagCommand p (fun _ => true)) s)

/-- FLAG_CLEAR, R202. -/
def execFlagClear (p : List Byte) (s : State) : Host.Outcome State Fault Refusal :=
  .next (manage (flagCommand p (fun _ => false)) s)

/-- FLAG_TOGGLE, R202. -/
def execFlagToggle (p : List Byte) (s : State) : Host.Outcome State Fault Refusal := .next (manage (flagCommand p (!·)) s)

/-- RESET_PART, R189. -/
def execResetPart (p : List Byte) (s : State) : Host.Outcome State Fault Refusal := .next (resetPart p s)

/-! ### Power path and bays (R13, R42 to R45, R66) -/

/-- R43: Bay Release. -/
def bayRelease (x : BayId) (s : State) : State × Frame :=
  if (s.bays.get x).state = .online then
    match (evaluate x false s).2 with
    | .released k => ((evaluate x false s).1, okFrame [byteOf (handoverCode k)])
    | .refused r => ((evaluate x false s).1, { code := .refused, data := [byteOf (refusalCode r)] })
    | .deferred => ((evaluate x false s).1, { code := .refused, data := [byteOf (refusalCode .drop)] })
  else (s, bareFrame .state)

/-- R44: Bay Return. -/
def bayReturn (x : BayId) (s : State) : State × Frame :=
  if (s.bays.get x).state = .releasing ∧ (s.bays.get x).latch then
    (settling (returnBay x) s, okFrame [byteOf (bayStateCode ((settling (returnBay x) s).bays.get x).state)])
  else (s, bareFrame .state)

/-- R45, R65: Bay Probe is taken. -/
def startBayProbe (x : BayId) (s : State) : State :=
  settling (enterProbing x .bayProbe) (updRelay x (fun r => { r with failCount := 0 }) s)

/-- R45: Bay Probe. -/
def bayProbe (x : BayId) (s : State) : State × Frame :=
  if (s.bays.get x).state = .faulted ∨ (s.bays.get x).state = .standby then
    if background s x then (s, bareFrame .busy) else (startBayProbe x s, bareFrame .accepted)
  else (s, bareFrame .state)

/-- R66: an accepted Link Recover; with a transaction in flight it waits for the outcome. -/
def acceptRecover (r : Relay) : Relay :=
  { dropPending r with recover := if r.link.isSome then .waiting else .running }

/-- R66: Link Recover. The state test alone decides, so one taken while the bay's raw presence line is already released, its debounce running,
is accepted and runs until the recorded fall or its own end (DESIGN CHOICE, log 36: R68 speaks of a release that comes before the end). -/
def linkRecover (x : BayId) (s : State) : State × Frame :=
  match (s.bays.get x).state with
  | .empty | .seating | .jolt => (s, bareFrame .state)
  | .probing => (s, bareFrame .busy)
  | .standby | .online | .releasing | .faulted =>
      if (s.relays.get x).recover = .notRunning then (updRelay x acceptRecover s, bareFrame .accepted)
      else (s, bareFrame .busy)

/-- POWER_QUERY, R13. -/
def execPowerQuery (p : List Byte) (s : State) : Host.Outcome State Fault Refusal :=
  .next (manage (noParams p (query powerBytes)) s)

/-- BAY_QUERY, R42. -/
def execBayQuery (p : List Byte) (s : State) : Host.Outcome State Fault Refusal :=
  .next (manage (withBay p (fun x => query (bayBytes x))) s)

/-- BAY_RELEASE, R43. -/
def execBayRelease (p : List Byte) (s : State) : Host.Outcome State Fault Refusal := .next (manage (withBay p bayRelease) s)

/-- BAY_RETURN, R44. -/
def execBayReturn (p : List Byte) (s : State) : Host.Outcome State Fault Refusal := .next (manage (withBay p bayReturn) s)

/-- BAY_PROBE, R45. -/
def execBayProbe (p : List Byte) (s : State) : Host.Outcome State Fault Refusal := .next (manage (withBay p bayProbe) s)

/-- LINK_RECOVER, R66. -/
def execLinkRecover (p : List Byte) (s : State) : Host.Outcome State Fault Refusal := .next (manage (withBay p linkRecover) s)

/-! ### Cache, budget and brightness (R102, R103, R117, R134, R135) -/

/-- R102: Cache Flush. -/
def cacheFlush (params : List Byte) (s : State) : State × Frame :=
  match params with
  | [b] =>
      match b.toNat with
      | 0 => (cacheDropBay .A s, okFrame [byteOf (cacheCount (fun l => l.valid && l.bay == .A) s)])
      | 1 => (cacheDropBay .B s, okFrame [byteOf (cacheCount (fun l => l.valid && l.bay == .B) s)])
      | 2 => (cacheDropAll s, okFrame [byteOf (cacheCount (fun l => l.valid) s)])
      | _ => (s, bareFrame .param)
  | _ => (s, bareFrame .param)

/-- R103: the way a parameter byte names. -/
def wayOfByte (b : Byte) : Option Way :=
  match b.toNat with
  | 0 => some .w0
  | 1 => some .w1
  | 2 => some .w2
  | 3 => some .w3
  | _ => none

/-- R103: Cache Inspect. -/
def cacheInspect (params : List Byte) (s : State) : State × Frame :=
  match params with
  | [a, b] =>
      match wayOfByte b with
      | some w => if a.toNat ≤ 15 then (s, okFrame (lineBytes (cacheSet s.cache a.toNat) w)) else (s, bareFrame .param)
      | none => (s, bareFrame .param)
  | _ => (s, bareFrame .param)

/-- R134: the mode a parameter byte names. -/
def modeOfByte (b : Byte) : Option PipeMode :=
  match b.toNat with
  | 0 => some .auto
  | 1 => some .manual
  | _ => none

/-- R134: Brightness Set. -/
def brightnessSet (params : List Byte) (s : State) : State × Frame :=
  match params with
  | [m, l0, l1, h0, h1] =>
      match modeOfByte m with
      | some mode =>
          (setBrightness mode (halfOf l0 l1).toNat (halfOf h0 h1).toNat s,
           okFrame (brightnessSetBytes (setBrightness mode (halfOf l0 l1).toNat (halfOf h0 h1).toNat s)))
      | none => (s, bareFrame .param)
  | _ => (s, bareFrame .param)

/-- R135: Brightness Query clears both sticky flags after taking the values. -/
def brightnessQuery (s : State) : State × Frame :=
  ({ s with pipe := { s.pipe with clampedLux := false, ceilingLimited := false } }, okFrame (brightnessBytes s))

/-- CACHE_FLUSH, R102. -/
def execCacheFlush (p : List Byte) (s : State) : Host.Outcome State Fault Refusal := .next (manage (cacheFlush p) s)

/-- CACHE_INSPECT, R103. -/
def execCacheInspect (p : List Byte) (s : State) : Host.Outcome State Fault Refusal := .next (manage (cacheInspect p) s)

/-- BUDGET_QUERY, R117. -/
def execBudgetQuery (p : List Byte) (s : State) : Host.Outcome State Fault Refusal :=
  .next (manage (noParams p (query budgetBytes)) s)

/-- BRIGHTNESS_SET, R134. -/
def execBrightnessSet (p : List Byte) (s : State) : Host.Outcome State Fault Refusal := .next (manage (brightnessSet p) s)

/-- BRIGHTNESS_QUERY, R135. -/
def execBrightnessQuery (p : List Byte) (s : State) : Host.Outcome State Fault Refusal :=
  .next (manage (noParams p brightnessQuery) s)

end Sys2Proof.Machine
end

