-- ==== Sys2Proof/Machine/TableRows.lean ====
section
/-! DEFINITION. The command rows of the drop log and of Table Memory. -/

namespace Sys2Proof.Machine

/-- R159: Drop Log Read. -/
def dropLogRead (params : List Byte) (s : State) : State × Frame :=
  match params with
  | [b] =>
      if 7 < b.toNat then (s, bareFrame .param)
      else
        match s.log.records[b.toNat]? with
        | some r => (s, okFrame (dropBytes r))
        | none => (s, bareFrame .empty)
  | _ => (s, bareFrame .param)

/-- R160: Drop Log Clear. -/
def dropLogClear (s : State) : State × Frame :=
  ({ s with log := { s.log with records := [] } }, okFrame [byteOf s.log.records.length])

/-- R184, R192: Table Write with its parameters: region, offset, count and the words; the length must be 3 plus 4 times the count byte. -/
def tableWriteParams (params : List Byte) (s : State) : State × Frame :=
  match params with
  | r :: off :: count :: rest =>
      if rest.length = 4 * count.toNat then
        match regionOfByte r with
        | some g => tableWrite g off.toNat (wordsOf rest) s
        | none => (s, bareFrame .param)
      else (s, bareFrame .param)
  | _ => (s, bareFrame .param)

/-- R184, R192: Table Read with its parameters. -/
def tableReadParams (params : List Byte) (s : State) : State × Frame :=
  match params with
  | [r, off, count] =>
      match regionOfByte r with
      | some g => tableRead g off.toNat count.toNat s
      | none => (s, bareFrame .param)
  | _ => (s, bareFrame .param)

/-- DROP_STATE_QUERY, R158. -/
def execDropStateQuery (p : List Byte) (s : State) : Host.Outcome State Fault Refusal :=
  .next (manage (noParams p (query dropStateBytes)) s)

/-- DROP_LOG_READ, R159. -/
def execDropLogRead (p : List Byte) (s : State) : Host.Outcome State Fault Refusal := .next (manage (dropLogRead p) s)

/-- DROP_LOG_CLEAR, R160. -/
def execDropLogClear (p : List Byte) (s : State) : Host.Outcome State Fault Refusal :=
  .next (manage (noParams p dropLogClear) s)

/-- TABLE_CLEAR, R168. -/
def execTableClear (p : List Byte) (s : State) : Host.Outcome State Fault Refusal := .next (manage (withRegion p tableClear) s)

/-- TABLE_WRITE, R169. -/
def execTableWrite (p : List Byte) (s : State) : Host.Outcome State Fault Refusal := .next (manage (tableWriteParams p) s)

/-- TABLE_CHECK, R170. -/
def execTableCheck (p : List Byte) (s : State) : Host.Outcome State Fault Refusal := .next (manage (withRegion p tableCheck) s)

/-- TABLE_READ, R176. -/
def execTableRead (p : List Byte) (s : State) : Host.Outcome State Fault Refusal := .next (manage (tableReadParams p) s)

/-- TABLE_LOCK, R177. -/
def execTableLock (p : List Byte) (s : State) : Host.Outcome State Fault Refusal := .next (manage (withRegion p tableLock) s)

end Sys2Proof.Machine
end

