-- ==== Sys2Proof/Machine/MgmtRows.lean ====
section
/-! DEFINITION. The rows whose byte may be the last of a command write at MGMT (R183), and the command that such a byte has executed. -/

namespace Sys2Proof.Machine

/-- R183: the row of the command that the byte `b` completes: the length byte 0, or the last parameter byte. -/
def completedBy (b : Byte) (u : Upstream) : Option Instr :=
  match u.tx, u.mgmt with
  | none, some (.command c) => if b = 0 then commandRow c [] else none
  | none, some (.params c 1 got) => commandRow c (got ++ [b])
  | _, _ => none

/-- R183, R184: an accepted command is executed at once: the meaning of its row. -/
def runCommand (i : Instr) (s : State) : Host.Outcome State Fault Refusal :=
  match i with
  | .invalidCommand c p => execInvalidCommand c p s
  | .identify p => execIdentify p s
  | .senseAttention p => execSenseAttention p s
  | .flagTest p => execFlagTest p s
  | .flagSet p => execFlagSet p s
  | .flagClear p => execFlagClear p s
  | .flagToggle p => execFlagToggle p s
  | .resetPart p => execResetPart p s
  | .powerQuery p => execPowerQuery p s
  | .bayQuery p => execBayQuery p s
  | .bayRelease p => execBayRelease p s
  | .bayReturn p => execBayReturn p s
  | .bayProbe p => execBayProbe p s
  | .linkRecover p => execLinkRecover p s
  | .cacheFlush p => execCacheFlush p s
  | .cacheInspect p => execCacheInspect p s
  | .budgetQuery p => execBudgetQuery p s
  | .brightnessSet p => execBrightnessSet p s
  | .brightnessQuery p => execBrightnessQuery p s
  | .dropStateQuery p => execDropStateQuery p s
  | .dropLogRead p => execDropLogRead p s
  | .dropLogClear p => execDropLogClear p s
  | .tableClear p => execTableClear p s
  | .tableWrite p => execTableWrite p s
  | .tableCheck p => execTableCheck p s
  | .tableRead p => execTableRead p s
  | .tableLock p => execTableLock p s
  | _ => .next s

/-- R183: the command that `b` completes is executed; any other byte leaves the state `t`. -/
def acceptOr (b : Byte) (t s : State) : Host.Outcome State Fault Refusal :=
  match completedBy b s.upstream with
  | some i => runCommand i s
  | none => .next t

/-- PERMIT_CHECK, R74; at MGMT R180 and R183. -/
def execPermitCheck (d : DirByte) (s : State) : Host.Outcome State Fault Refusal :=
  match d with
  | .writeByte b => acceptOr b (takeDirection d s) s
  | .readAddress _ => .next (takeDirection d s)

/-- WRITE_BLOCK_LENGTH_REFUSE, R49; at MGMT R183. -/
def execWriteBlockLengthRefuse (len : Byte) (s : State) : Host.Outcome State Fault Refusal := acceptOr len (takeLength len s) s

/-- The row of the command that row `i` completes in state `s`, if it completes one. -/
def completed (i : Instr) (s : State) : Option Instr :=
  match i with
  | .permitCheck (.writeByte b) => completedBy b s.upstream
  | .writeBlockLengthRefuse len => completedBy len s.upstream
  | _ => none

end Sys2Proof.Machine
end

