-- ==== Sys2Proof/Machine/Tick.lean ====
section
/-! DEFINITION. What the part does by itself on an empty queue (DESIGN CHOICE, log 2): it queues the link actions that are due, and where
none is due it takes one 1 ms tick (00 section 2.2), which queues the timers that run out. -/

namespace Sys2Proof.Machine

/-! ### Link actions (R57, R60 to R62, R66) -/

/-- R62: a probe read of the bay can start. -/
def probeReady (s : State) (x : BayId) : Bool :=
  (s.bays.get x).state == .probing && linkFree s x &&
    match (s.relays.get x).probe with
    | some p => !p.reads.isEmpty
    | none => false

/-- R61: a poll of the bay waits for its retry, or has to end without it. -/
def retryReady (s : State) (x : BayId) : Bool :=
  (s.relays.get x).poll.isSome && !pollInFlight (s.relays.get x)
    && (linkFree s x || !steady (s.bays.get x).state || (s.relays.get x).recover != .notRunning)

/-- R61: a due poll of the bay can start. -/
def pollReady (s : State) (x : BayId) : Bool :=
  (s.relays.get x).pollDue && linkFree s x && ((s.relays.get x).ring[(s.relays.get x).ptr]?).isSome

/-- The link action of the bay that comes first: the slot (R57), a waiting recovery (R66), a probe read (R62), a retry and a poll (R61). -/
def linkAction (s : State) (x : BayId) : List Instr :=
  if (s.relays.get x).slot.isSome && (s.relays.get x).link.isNone then [.slotTransactionStart x]
  else if (s.relays.get x).recover == .waiting && (s.relays.get x).link.isNone then [.linkRecoverBegin x]
  else if probeReady s x then [.probeReadStart x]
  else if retryReady s x then [.pollRetry x]
  else if pollReady s x then [.pollStart x]
  else []

/-- The link actions that are due, bay A first. -/
def linkActions (s : State) : List Instr := linkAction s .A ++ linkAction s .B

/-! ### The 1 ms tick -/

/-- A running timer counts down by 1 ms. -/
def down : Option Nat → Option Nat := Option.map (· - 1)

/-- A jolt hold counts down while it runs. -/
def downHold : HoldTimer → HoldTimer
  | .running ms => .running (ms - 1)
  | h => h

/-- The timers of a bay record. -/
def tickBay (b : Bay) : Bay :=
  { b with presDeb := down b.presDeb, latchDeb := down b.latchDeb,
           jolt := b.jolt.map (fun j => { j with hold := downHold j.hold }) }

/-- The timeout timer of a pack transaction in flight. -/
def tickRelay (r : Relay) : Relay := { r with link := r.link.map (fun t => { t with timeout := t.timeout - 1 }) }

/-- R9: the run timer counts while the bridge is RUNNING or EXPIRED. -/
def tickBridge (p : PowerPath) : PowerPath :=
  { p with timer := if p.bridge = .idle then p.timer else min 65535 (p.timer + 1) }

/-- The state after a tick, before the timers that ran out are taken. -/
def tickTimers (s : State) : State :=
  { s with
    pp := tickBridge s.pp,
    bays := ⟨tickBay s.bays.a, tickBay s.bays.b⟩,
    relays := ⟨tickRelay s.relays.a, tickRelay s.relays.b⟩,
    pollTimer := s.pollTimer - 1,
    motion := { s.motion with stall := down s.motion.stall, hold := down s.motion.hold },
    time := { s.time with ageMs := (s.time.ageMs + 1) % 100, secondMs := (s.time.secondMs + 1) % 1000 } }

/-- A row, where its condition holds. -/
def rowIf (c : Bool) (i : Instr) : List Instr := if c then [i] else []

/-- The link timeout of the bay has run out. -/
def timeoutOut (r : Relay) : Bool :=
  match r.link with
  | some t => t.timeout == 0
  | none => false

/-- The jolt hold of the bay has run out. -/
def jolted0 (b : Bay) : Bool :=
  match b.jolt with
  | some j => j.hold == .running 0
  | none => false

/-- The check of a region has reached its bound of 1 ms (R170). -/
def checkRow (s : State) (r : RegionId) : List Instr := rowIf ((s.tables.get r).state == .checking) (.tableCheckEnd r)

/-- The rows of the uptime second (R188): the uptime, and then the test of each bay's context at that second (R38), which each row makes on
the context as the rows before it have left it. -/
def secondRows : List Instr := [.uptimeTick, .contextWindowExpiry .A, .contextWindowExpiry .B]

/-- The rows of the timers that have run out, in the model's order (DESIGN CHOICE, log 5). -/
def tickRows (s : State) : List Instr :=
  rowIf (s.pp.bridge == .running && bridgeMax s ≤ s.pp.timer) .bridgeExpiry
  ++ rowIf (s.bays.a.presDeb == some 0) (.presenceDebounceExpiry .A)
  ++ rowIf (s.bays.b.presDeb == some 0) (.presenceDebounceExpiry .B)
  ++ rowIf (s.bays.a.latchDeb == some 0) (.latchDebounceExpiry .A)
  ++ rowIf (s.bays.b.latchDeb == some 0) (.latchDebounceExpiry .B)
  ++ rowIf (timeoutOut s.relays.a) (.linkTimeout .A)
  ++ rowIf (timeoutOut s.relays.b) (.linkTimeout .B)
  ++ rowIf (jolted0 s.bays.a) (.joltHoldExpiry .A)
  ++ rowIf (jolted0 s.bays.b) (.joltHoldExpiry .B)
  ++ rowIf (s.motion.stall == some 0) .stallTimeout
  ++ rowIf (s.motion.hold == some 0) .windowHoldExpiry
  ++ checkRow s .config ++ checkRow s .codemap ++ checkRow s .curve ++ checkRow s .motion
  ++ rowIf (s.pollTimer == 0) .pollPeriodExpiry
  ++ rowIf (s.time.ageMs == 0) .ageTick
  ++ (if s.time.secondMs = 0 then secondRows else [])

/-- One 1 ms tick. -/
def tick (s : State) : State := { tickTimers s with pending := tickRows (tickTimers s) }

/-- What the part does on an empty queue. -/
def idle (s : State) : State :=
  if linkActions s = [] then tick s else { s with pending := linkActions s }

end Sys2Proof.Machine
end

