-- ==== Sys2Proof/Machine/Dispatch.lean ====
section
/-! DEFINITION. One arm for each row of the table. -/

namespace Sys2Proof.Machine

/-- The effect of one row on everything but the queue. -/
def exec (i : Instr) (s : State) : Host.Outcome State Fault Refusal :=
  match i with
  | .powerOnReset l => Sys2Proof.Machine.execPowerOnReset l s
  | .extPresentChange level => Sys2Proof.Machine.execExtPresentChange level s
  | .presenceLineChange x level => Sys2Proof.Machine.execPresenceLineChange x level s
  | .presenceDebounceExpiry x => Sys2Proof.Machine.execPresenceDebounceExpiry x s
  | .latchLineChange x closed => Sys2Proof.Machine.execLatchLineChange x closed s
  | .latchDebounceExpiry x => Sys2Proof.Machine.execLatchDebounceExpiry x s
  | .bridgeReadyChange level => Sys2Proof.Machine.execBridgeReadyChange level s
  | .bridgeExpiry => Sys2Proof.Machine.execBridgeExpiry s
  | .joltHoldExpiry x => Sys2Proof.Machine.execJoltHoldExpiry x s
  | .contextWindowExpiry x => Sys2Proof.Machine.execContextWindowExpiry x s
  | .uptimeTick => Sys2Proof.Machine.execUptimeTick s
  | .ageTick => Sys2Proof.Machine.execAgeTick s
  | .pollPeriodExpiry => Sys2Proof.Machine.execPollPeriodExpiry s
  | .pollStart x => Sys2Proof.Machine.execPollStart x s
  | .pollRetry x => Sys2Proof.Machine.execPollRetry x s
  | .probeReadStart x => Sys2Proof.Machine.execProbeReadStart x s
  | .slotTransactionStart x => Sys2Proof.Machine.execSlotTransactionStart x s
  | .packTransactionEnd x reply => Sys2Proof.Machine.execPackTransactionEnd x reply s
  | .linkTimeout x => Sys2Proof.Machine.execLinkTimeout x s
  | .linkRecoverBegin x => Sys2Proof.Machine.execLinkRecoverBegin x s
  | .linkRecoverEnd x released => Sys2Proof.Machine.execLinkRecoverEnd x released s
  | .lightSample b0 b1 b2 => Sys2Proof.Machine.execLightSample b0 b1 b2 s
  | .motionSample x0 x1 y0 y1 z0 z1 => Sys2Proof.Machine.execMotionSample x0 x1 y0 y1 z0 z1 s
  | .frameDiscard header payload => Sys2Proof.Machine.execFrameDiscard header payload s
  | .laneGapDiscard received => Sys2Proof.Machine.execLaneGapDiscard received s
  | .stallTimeout => Sys2Proof.Machine.execStallTimeout s
  | .windowHoldExpiry => Sys2Proof.Machine.execWindowHoldExpiry s
  | .tableCheckEnd r => Sys2Proof.Machine.execTableCheckEnd r s
  | .platformAddress a read => Sys2Proof.Machine.execPlatformAddress a read s
  | .codeByteCheck b => Sys2Proof.Machine.execCodeByteCheck b s
  | .permitCheck b => Sys2Proof.Machine.execPermitCheck b s
  | .writeBlockLengthRefuse len => Sys2Proof.Machine.execWriteBlockLengthRefuse len s
  | .transactionAbandon => Sys2Proof.Machine.execTransactionAbandon s
  | .readValue count => Sys2Proof.Machine.execReadValue count s
  | .writeValue lo hi => Sys2Proof.Machine.execWriteValue lo hi s
  | .readBlock count => Sys2Proof.Machine.execReadBlock count s
  | .writeBlock bytes => Sys2Proof.Machine.execWriteBlock bytes s
  | .resultRead count => Sys2Proof.Machine.execResultRead count s
  | .invalidCommand code p => Sys2Proof.Machine.execInvalidCommand code p s
  | .identify p => Sys2Proof.Machine.execIdentify p s
  | .senseAttention p => Sys2Proof.Machine.execSenseAttention p s
  | .flagTest p => Sys2Proof.Machine.execFlagTest p s
  | .flagSet p => Sys2Proof.Machine.execFlagSet p s
  | .flagClear p => Sys2Proof.Machine.execFlagClear p s
  | .flagToggle p => Sys2Proof.Machine.execFlagToggle p s
  | .resetPart p => Sys2Proof.Machine.execResetPart p s
  | .powerQuery p => Sys2Proof.Machine.execPowerQuery p s
  | .bayQuery p => Sys2Proof.Machine.execBayQuery p s
  | .bayRelease p => Sys2Proof.Machine.execBayRelease p s
  | .bayReturn p => Sys2Proof.Machine.execBayReturn p s
  | .bayProbe p => Sys2Proof.Machine.execBayProbe p s
  | .linkRecover p => Sys2Proof.Machine.execLinkRecover p s
  | .cacheFlush p => Sys2Proof.Machine.execCacheFlush p s
  | .cacheInspect p => Sys2Proof.Machine.execCacheInspect p s
  | .budgetQuery p => Sys2Proof.Machine.execBudgetQuery p s
  | .brightnessSet p => Sys2Proof.Machine.execBrightnessSet p s
  | .brightnessQuery p => Sys2Proof.Machine.execBrightnessQuery p s
  | .dropStateQuery p => Sys2Proof.Machine.execDropStateQuery p s
  | .dropLogRead p => Sys2Proof.Machine.execDropLogRead p s
  | .dropLogClear p => Sys2Proof.Machine.execDropLogClear p s
  | .tableClear p => Sys2Proof.Machine.execTableClear p s
  | .tableWrite p => Sys2Proof.Machine.execTableWrite p s
  | .tableCheck p => Sys2Proof.Machine.execTableCheck p s
  | .tableRead p => Sys2Proof.Machine.execTableRead p s
  | .tableLock p => Sys2Proof.Machine.execTableLock p s

end Sys2Proof.Machine
end

