-- ==== Sys2Proof/Safety.lean ====
section
/-! DEFINITION. The laws of the device that the manual states, as predicates on the parts of a state, and their conjunction. -/

namespace Sys2Proof.Machine

/-- R11 and the table of section 1.3: LOWPWR_REQ and BRIDGE_SW stand while the bridge is not IDLE, PFAIL_REQ while and only while it is
EXPIRED, and the run timer of an IDLE bridge is 0. -/
def powerLaw (p : PowerPath) : Prop :=
  p.lowpwr = (p.bridge != .idle) ∧ p.bridgeSw = (p.bridge != .idle) ∧ p.pfail = (p.bridge == .expired)
    ∧ (p.bridge = .idle → p.timer = 0)

/-- R197 to R199: at most one entry for a pair, counts from 1 to 255, and ATTN_REQ while the queue holds an entry. -/
def attnLaw (a : Attn) : Prop :=
  (a.queue.map AttnEntry.key).Nodup ∧ (∀ e ∈ a.queue, 1 ≤ e.count ∧ e.count ≤ 255) ∧ a.req = !a.queue.isEmpty

/-- R154: at most 8 records in ascending sequence order, every sequence given before the next one. -/
def logLaw (g : DropLog) : Prop :=
  g.records.length ≤ 8 ∧ (g.records.map DropRecord.seq).Pairwise (· < ·)
    ∧ (∀ r ∈ g.records, 1 ≤ r.seq ∧ r.seq ≤ 65535)
    ∧ (∀ q, g.next = some q → 1 ≤ q ∧ q ≤ 65535 ∧ ∀ r ∈ g.records, r.seq < q)

/-- R146, R147, R148 and the table of section 8.3: PARK_REQ is asserted and the stall timer runs outside ARMED, the window is OPEN during an
episode, and the hold runs while the window is HOLDING. -/
def motionLaw (m : Motion) : Prop :=
  m.park = (m.detector != .armed) ∧ m.stall.isSome = (m.detector != .armed)
    ∧ (m.detector ≠ .armed → m.window = .open) ∧ m.hold.isSome = (m.window == .holding)

/-- R85: two lines are not both valid for one bay and code. -/
def apart (l k : Line) : Prop := ¬ (l.valid = true ∧ k.valid = true ∧ l.bay = k.bay ∧ l.code = k.code)

/-- R85, R94: a valid line stands in the set of its code and its age fits its field; an invalid line holds nothing. -/
def lineLaw (i : Nat) (l : Line) : Prop :=
  (l.valid = true → setOf l.code = i ∧ l.age ≤ 255) ∧ (l.valid = false → l = Line.invalid)

/-- R85 for one set. -/
def setLaw (i : Nat) (cs : CacheSet) : Prop :=
  lineLaw i cs.l0 ∧ lineLaw i cs.l1 ∧ lineLaw i cs.l2 ∧ lineLaw i cs.l3
    ∧ apart cs.l0 cs.l1 ∧ apart cs.l0 cs.l2 ∧ apart cs.l0 cs.l3 ∧ apart cs.l1 cs.l2 ∧ apart cs.l1 cs.l3 ∧ apart cs.l2 cs.l3

/-- R85: the cache holds at most one valid line for a bay and code. -/
def cacheLaw (c : List CacheSet) : Prop := c.length = 16 ∧ ∀ i, i < 16 → setLaw i (cacheSet c i)

/-- R163, R164: the words stand in canonical form, an EMPTY region is blank, a locked region is IN_SERVICE, and the words of a region in
service pass its check. -/
def regionLaw (r : RegionId) (g : Region) : Prop :=
  Memory.wf (Config.regionSize r) g.words = true ∧ (g.state = .empty → g.words = [])
    ∧ (g.lock = true → g.state = .inService) ∧ (g.state = .inService → checkFailure r g.words = none)

/-- R163, R164 for the four regions. -/
def tablesLaw (t : Tables) : Prop :=
  regionLaw .config t.config ∧ regionLaw .codemap t.codemap ∧ regionLaw .curve t.curve ∧ regionLaw .motion t.motion

/-- R114: MIN_LEVEL ≤ O ≤ C and C ≤ HOST_MAX; R113: C is at least MIN_LEVEL. -/
def outputLaw (s : State) : Prop :=
  minLevel s ≤ s.pipe.o ∧ s.pipe.o ≤ s.budget.c ∧ s.budget.c ≤ s.pipe.hostMax

/-- R64: a consecutive-failure count never exceeds the FAULT_LIMIT in effect. -/
def countLaw (s : State) : Prop := s.relays.a.failCount ≤ faultLimit s ∧ s.relays.b.failCount ≤ faultLimit s

/-- No line of a set of bay `x` is FRESH. -/
def noFreshSet (x : BayId) (cs : CacheSet) : Prop :=
  ∀ w, ¬ ((cs.get w).valid = true ∧ (cs.get w).bay = x ∧ (cs.get w).state = .fresh)

/-- R85, second half: no line of a bay in EMPTY, SEATING, PROBING, JOLT or FAULTED is FRESH. -/
def freshLaw (s : State) : Prop :=
  ∀ x, steady (s.bays.get x).state = false → ∀ cs ∈ s.cache, noFreshSet x cs

/-- R105, R106, R117: the budget record is the one that the inputs as they stand give. -/
def budgetLaw (s : State) : Prop := s.budget = computeBudget s

/-- R20, R30 to R37: an EMPTY or jolted bay has no recorded presence, and the line of an EMPTY bay is released; PROBING, STANDBY, ONLINE,
RELEASING and FAULTED bays have their presence recorded. An ONLINE bay has its switch ON, a RELEASING bay has it OFF and a STANDBY bay has it OFF
or held (R23, R25, R27, R30, R37). A probe runs only in PROBING (R62). -/
def bayLaw (s : State) (x : BayId) : Prop :=
  (((s.bays.get x).state = .empty ∨ (s.bays.get x).state = .jolt) → (s.bays.get x).presence = false)
    ∧ ((s.bays.get x).state = .empty → (s.bays.get x).presLine = false)
    ∧ (((s.bays.get x).state = .probing ∨ steady (s.bays.get x).state = true ∨ (s.bays.get x).state = .faulted) →
        (s.bays.get x).presence = true)
    ∧ ((s.bays.get x).state = .online → s.pp.sw.get x = .on)
    ∧ ((s.bays.get x).state = .releasing → s.pp.sw.get x = .off)
    ∧ ((s.bays.get x).state = .standby → s.pp.sw.get x = .off ∨ s.pp.held.get x = true)
    ∧ ((s.relays.get x).probe.isSome = true → (s.bays.get x).state = .probing)

/-- R3, R5, R31, R34 to R36: the switch of an EMPTY or FAULTED bay is OFF or held, and that of a SEATING bay is OFF, held, or PASSIVE from
power-on, with its presence recorded (R46). -/
def switchLaw (s : State) (x : BayId) : Prop :=
  (((s.bays.get x).state = .empty ∨ (s.bays.get x).state = .faulted) → s.pp.sw.get x = .off ∨ s.pp.held.get x = true)
    ∧ ((s.bays.get x).state = .seating → s.pp.sw.get x = .off ∨ s.pp.held.get x = true
        ∨ (s.pp.sw.get x = .passive ∧ (s.bays.get x).presence = true))

/-- The laws together. -/
def deviceLaws (s : State) : Prop :=
  powerLaw s.pp ∧ attnLaw s.attn ∧ logLaw s.log ∧ motionLaw s.motion ∧ cacheLaw s.cache ∧ freshLaw s ∧ tablesLaw s.tables
    ∧ outputLaw s ∧ countLaw s ∧ budgetLaw s ∧ (∀ x, bayLaw s x) ∧ (∀ x, switchLaw s x)

/-! ### Words that statements use -/

/-- R49, R183: a command write is taken: no platform transaction stretches the clock and the result slot is EMPTY. -/
def accepts (s : State) : Prop := upStretched s = false ∧ s.port.slot = .empty

/-- R182, R183: the state in which an accepted command executes: the slot EXECUTING, the frame acknowledged, and a platform transaction that
the new start abandoned gone. -/
def begun (s : State) : State :=
  { s with port := { s.port with slot := .executing }, upstream := { tx := none, answer := .acknowledged } }

/-- R184: the state `t` that a command left, with its result frame placed. -/
def ended (t : State) (code : ResultCode) (data : List Byte) : State :=
  { t with port := { t.port with slot := .pending { code := code, data := data } } }

/-- A posting of this pair and detail stands in the queue. -/
def queued (s : State) (k : AttnKey) (d : Detail) : Prop := ∃ e ∈ s.attn.queue, e.key = k ∧ e.detail = d

/-- R26: the drop window is closed and HOLD_SWAP does not stand, so that an evaluation of `x` comes to case 3. -/
def swapFree (s : State) (x : BayId) : Prop := holdSwap s x = false ∧ s.motion.window = .closed

/-- R26, case 3: EXT is present or the other bay is ONLINE. -/
def otherSource (s : State) (x : BayId) : Prop := s.pp.ext = true ∨ (s.bays.get x.other).state = .online

/-- R26, case 4: the other bay is the pack alternative. -/
def packAlternative (s : State) (x : BayId) : Prop :=
  (s.bays.get x.other).state = .standby ∧ (s.bays.get x.other).latch = true ∧ pMinRun s ≤ (bayPower s x.other).power

/-- R26, R27: the conditions on which an evaluation of ONLINE bay `x` with the window closed is refused, by reason. -/
def refusalCase (s : State) (x : BayId) : RefusalReason → Prop
  | .held => holdSwap s x = true
  | .lowBudget => swapFree s x ∧ otherSource s x ∧ totalWithout s x < pMinRun s
  | .mismatch => swapFree s x ∧ ¬ otherSource s x ∧ packAlternative s x ∧ voltsClose s = false
      ∧ ¬ (breakFirstOk s = true ∧ otherConducts s x = true) ∧ bridgeCanStart s = false
  | .noSource => swapFree s x ∧ ¬ otherSource s x ∧ ¬ packAlternative s x ∧ bridgeCanStart s = false
  | .none | .drop => False

/-- R26 to R28: the conditions on which an evaluation of ONLINE bay `x` is carried out, by kind. -/
def handoverCase (s : State) (x : BayId) : HandoverKind → Prop
  | .plain => swapFree s x ∧ otherSource s x ∧ pMinRun s ≤ totalWithout s x
  | .makeFirst => swapFree s x ∧ ¬ otherSource s x ∧ packAlternative s x ∧ voltsClose s = true
  | .breakFirst => swapFree s x ∧ ¬ otherSource s x ∧ packAlternative s x ∧ voltsClose s = false
      ∧ breakFirstOk s = true ∧ otherConducts s x = true
  | .bridgeThrough => swapFree s x ∧ ¬ otherSource s x ∧ packAlternative s x ∧ voltsClose s = false
      ∧ ¬ (breakFirstOk s = true ∧ otherConducts s x = true) ∧ bridgeCanStart s = true
  | .bridgeHold => swapFree s x ∧ ¬ otherSource s x ∧ ¬ packAlternative s x ∧ bridgeCanStart s = true
  | .none => False

/-- R18: the latch debounce of bay `x` is running with the line at level `closed`, against the recorded latch. -/
def latchTurns (s : State) (x : BayId) (closed : Bool) : Prop :=
  (s.bays.get x).latchDeb.isSome = true ∧ (s.bays.get x).latchLine = closed ∧ (s.bays.get x).latch = !closed

/-- R17: the presence debounce of bay `x` is running with the line at level `level`, against the recorded presence. -/
def presenceTurns (s : State) (x : BayId) (level : Bool) : Prop :=
  (s.bays.get x).presDeb.isSome = true ∧ (s.bays.get x).presLine = level ∧ (s.bays.get x).presence = !level

/-- R60: the conditions on which bay `x` becomes due for a poll when the period runs out. -/
def becomesDue (s : State) (x : BayId) : Prop :=
  steady (s.bays.get x).state = true ∧ s.flags.holdPoll = false ∧ (s.relays.get x).recover = .notRunning ∧ (s.relays.get x).ring ≠ []
    ∧ (s.relays.get x).pollDue = false ∧ (s.relays.get x).poll = none

/-- R49, R53: the rows that bring a platform transaction to its forwarding point, with its kind, the bytes sent after the code byte and the
number of bytes the master reads. -/
def forwards : Instr → TxKind → List Byte → Nat → Prop
  | .readValue n, k, bytes, count => k = .readValue ∧ bytes = [] ∧ count = n
  | .readBlock n, k, bytes, count => k = .readBlock ∧ bytes = [] ∧ count = n
  | .writeValue lo hi, k, bytes, count => k = .writeValue ∧ bytes = [lo, hi] ∧ count = 0
  | .writeBlock data, k, bytes, count =>
      k = .writeBlock ∧ bytes = byteOf data.length :: data ∧ count = 0 ∧ 1 ≤ data.length ∧ data.length ≤ 32
  | _, _, _, _ => False

/-- R48, R74: the master's transaction `tx` has passed the byte that fixes its direction, for kind `k` and code `c`. -/
def directedFor (tx : UpTx) (k : TxKind) (c : Code) : Prop :=
  tx.stage = .directed (k == .readBlock || k == .writeBlock) c (k == .writeValue || k == .writeBlock)

/-- The state with another snapshot of bay `x`. -/
def withSnap (x : BayId) (n : Snapshot) (s : State) : State := updRelay x (fun r => { r with snap := n }) s

/-- The snapshot of bay `x` after a read of the tagged value `v` (R63). -/
def snapAfter (s : State) (x : BayId) (t : Tag) (v : Half) : Snapshot := (s.relays.get x).snap.put t v

/-- R54, R62: the last read of the probe of PROBING bay `x` is in flight, with its tag. -/
def lastProbeRead (s : State) (x : BayId) (t : Tag) : Prop :=
  (s.bays.get x).state = .probing ∧ (∃ p r, (s.relays.get x).probe = some p ∧ p.reads = [r])
    ∧ ∃ tx, (s.relays.get x).link = some tx ∧ tx.purpose = .probe ∧ tx.req.kind = .readValue ∧ tx.req.gov.tag = t

/-- R63, R25: the state on which the last probe read of bay `x` leads to admission: its snapshot is `n`, and where the value read is a VOLTAGE (tag `g`),
the other bay has been taken to ONLINE if it was STANDBY with its latch closed and the paralleling rule now allows. -/
def beforePlacing (x : BayId) (g : Tag) (n : Snapshot) (s : State) : State :=
  if g = .voltage then standbyJoin x.other (withSnap x n s) else withSnap x n s

/-- Bay `x`, STANDBY with its latch closed in `u`, goes ONLINE by R25 in `u`. -/
def joins (u : State) (x : BayId) : Prop :=
  (u.bays.get x).state = .standby ∧ (u.bays.get x).latch = true ∧ parallelAllows x u = true

/-- R25: in `t` bay `x` is ONLINE with its switch ON, and SWAP_DONE with detail TAKE_OVER stands in the queue. -/
def tookOver (t : State) (x : BayId) : Prop :=
  (t.bays.get x).state = .online ∧ t.pp.sw.get x = .on ∧ queued t (.swapDone x) dTakeOver

/-- R23, step 3: bay `x`, placed in state `u`, is ONLINE in `t` where its latch is closed and the paralleling rule allows, and STANDBY otherwise. -/
def placedByLatch (x : BayId) (u t : State) : Prop :=
  ((u.bays.get x).latch = true → parallelAllows x u = true → (t.bays.get x).state = .online ∧ t.pp.sw.get x = .on)
    ∧ (¬ ((u.bays.get x).latch = true ∧ parallelAllows x u = true) →
        (t.bays.get x).state = .standby ∧ (t.pp.sw.get x = .off ∨ t.pp.held.get x = true))

/-- R23, steps 2 to 4: bay `x`, placed in state `u`, has its context consumed in `t`, is placed by its latch and the paralleling rule, and has
SWAP_DONE posted on reaching ONLINE, with detail REINSERTION for a matching context and INSERTION otherwise. -/
def placedFresh (x : BayId) (u t : State) : Prop :=
  (t.bays.get x).context = none ∧ placedByLatch x u t
    ∧ ((u.bays.get x).latch = true → parallelAllows x u = true →
        queued t (.swapDone x) (if contextMatches u x then dReinsertion else dInsertion))

/-- R34: a jolt record whose hold runs has it stopped, waiting for the next close. -/
def holdStopped (j : JoltRecord) : JoltRecord :=
  match j.hold with
  | .running _ => { j with hold := .waiting }
  | _ => j

/-- R148, R149, R151: the rows that begin the close of the drop window: the hold that runs out, and the end of an episode by the stall timer, by a
fall that stops short, or by an impact that settles or reaches its limit. -/
def beginsClose : Instr → State → Prop
  | .windowHoldExpiry, s => s.motion.window = .holding
  | .stallTimeout, s => s.motion.detector ≠ .armed ∧ s.motion.stall.isSome = true
  | .motionSample x0 x1 y0 y1 z0 z1, s =>
      (s.motion.detector = .falling
          ∧ (classify s (sampleOf x0 x1 y0 y1 z0 z1) = .still ∨ classify s (sampleOf x0 x1 y0 y1 z0 z1) = .other))
        ∨ (s.motion.detector = .impact ∧ (impactMax s ≤ s.motion.impacts + 1
            ∨ settleCount s ≤ if classify s (sampleOf x0 x1 y0 y1 z0 z1) = .still then s.motion.settle + 1 else 0))
  | _, _ => False

/-- R172, R174, R175: the value of `w`, two's complement where the field is signed, is outside the range of its row. -/
def outOfRange (r : Config.FieldRow) (w : Word) : Prop :=
  (if r.signed then w.toInt else (w.toNat : Int)) < r.lo ∨ r.hi < (if r.signed then w.toInt else (w.toNat : Int))

/-- R195: the meaning tag, bits 16 to 18, of the map entry of code `c`. -/
def entryTag (m : Memory) (c : Nat) : Nat := (Memory.read m (c + 1)).toNat / 65536 % 8

/-- R195: the cache class, bits 2 and 3, of the map entry of code `c`. -/
def entryClass (m : Memory) (c : Nat) : Nat := (Memory.read m (c + 1)).toNat / 4 % 4

/-- R195: the maximum age, bits 8 to 15, of the map entry of code `c`. -/
def entryAge (m : Memory) (c : Nat) : Nat := (Memory.read m (c + 1)).toNat / 256 % 256

/-- R173, R195: the map entry of code `c` fails: at or beyond the map length it is not zero; a bit outside the fields, class 3 or tag 7 is set;
class FIXED has the write permit or a maximum age, NONE has one, TIMED has none; tag SERIAL stands without class FIXED; an entry of a lower code
carries the same tag; or the poll flag stands without the read permit or after eight entries of lower codes. -/
def entryRefused (m : Memory) (c : Nat) : Prop :=
  ((Memory.read m 0).toNat ≤ c ∧ Memory.read m (c + 1) ≠ 0)
    ∨ (Memory.read m (c + 1)).toNat / 16 % 16 ≠ 0 ∨ (Memory.read m (c + 1)).getLsbD 19 = true
    ∨ (Memory.read m (c + 1)).toNat / 2 ^ 21 ≠ 0 ∨ entryClass m c = 3 ∨ entryTag m c = 7
    ∨ (entryClass m c = 2 ∧ ((Memory.read m (c + 1)).getLsbD 1 = true ∨ entryAge m c ≠ 0))
    ∨ (entryClass m c = 0 ∧ entryAge m c ≠ 0) ∨ (entryClass m c = 1 ∧ entryAge m c = 0)
    ∨ (entryTag m c = 6 ∧ entryClass m c ≠ 2)
    ∨ (entryTag m c ≠ 0 ∧ ∃ k, k < c ∧ entryTag m k = entryTag m c)
    ∨ ((Memory.read m (c + 1)).getLsbD 20 = true ∧ ((Memory.read m (c + 1)).getLsbD 0 = false
        ∨ 8 ≤ (List.range c).countP fun k => (Memory.read m (k + 1)).getLsbD 20))

/-- R174: breakpoint `j`, from 1, fails: beyond the count it is not zero; within it its level is above 1,000, its lux does not rise above the
breakpoint before it, or its level falls below that one's. -/
def breakpointRefused (m : Memory) (j : Nat) : Prop :=
  ((Memory.read m 0).toNat < j ∧ Memory.read m (j + 5) ≠ 0)
    ∨ (j ≤ (Memory.read m 0).toNat ∧ (1000 < (Memory.read m (j + 5)).toNat / 65536
        ∨ (2 ≤ j ∧ ((Memory.read m (j + 5)).toNat % 65536 ≤ (Memory.read m (j + 4)).toNat % 65536
            ∨ (Memory.read m (j + 5)).toNat / 65536 < (Memory.read m (j + 4)).toNat / 65536))))

end Sys2Proof.Machine
end

