-- ==== Sys2Proof/Certificates/Slice0/Obligations.lean ====
section
/-! DEFINITION. The statements about the part: what a step is, what every row keeps, and what each row does. -/

section

open Sys2Proof Sys2Proof.Machine

/-! ### The machine -/

/-- A step with a row at the front of the queue runs that row on the state with the queue's rest. -/
def Obligations.StepRunsTheFrontRow : Prop :=
  ∀ (c : Instr) (s : State) (rest : List Instr),
    step { s with pending := c :: rest } = exec c { s with pending := rest }

/-- The model's choice (log 2, log 5). On an empty queue a step queues the link action of each bay that is due, bay A first: of a bay, the slot on
an idle link (R57), else a waiting recovery (R66), else a probe read (R62), else the retry of a poll or its end (R61), else a due poll (R61).
Where none is due, a step is one 1 ms tick: every running timer counts down (debounces, jolt hold, link timeout, poll period, stall, window hold),
the bridge run timer counts up and saturates (R9), the age period and the second count on (log 21), and the rows of the timers that ran out are
queued, with the end of each check (log 26) and, at a second, the uptime and then the test of each context (R38, log 25). Everything else stays.
-/
def Obligations.EmptyQueueIsOneTick : Prop :=
  ∀ (s : State) (due : BayId → List Instr), s.pending = [] →
    (∀ x, due x =
      if (s.relays.get x).slot ≠ none ∧ (s.relays.get x).link = none then [.slotTransactionStart x]
      else if (s.relays.get x).recover = .waiting ∧ (s.relays.get x).link = none then [.linkRecoverBegin x]
      else if (s.bays.get x).state = .probing ∧ (s.relays.get x).link = none ∧ (s.relays.get x).slot = none
          ∧ ((s.relays.get x).probe.bind fun p => p.reads.head?) ≠ none then [.probeReadStart x]
      else if (s.relays.get x).poll ≠ none ∧ (s.relays.get x).link.map PackTx.purpose ≠ some .poll
          ∧ (((s.relays.get x).link = none ∧ (s.relays.get x).slot = none) ∨ steady (s.bays.get x).state = false
              ∨ (s.relays.get x).recover ≠ .notRunning) then [.pollRetry x]
      else if (s.relays.get x).pollDue = true ∧ (s.relays.get x).link = none ∧ (s.relays.get x).slot = none
          ∧ (s.relays.get x).ring[(s.relays.get x).ptr]? ≠ none then [.pollStart x]
      else []) →
    (due .A ++ due .B ≠ [] → step s = .next { s with pending := due .A ++ due .B })
    ∧ (due .A ++ due .B = [] → ∃ t, step s = .next t
        ∧ t.pp = { s.pp with timer := if s.pp.bridge = .idle then s.pp.timer else min 65535 (s.pp.timer + 1) }
        ∧ (∀ x, t.bays.get x = { s.bays.get x with
              presDeb := (s.bays.get x).presDeb.map (· - 1), latchDeb := (s.bays.get x).latchDeb.map (· - 1),
              jolt := (s.bays.get x).jolt.map fun j =>
                { j with hold := match j.hold with | .running ms => .running (ms - 1) | h => h } })
        ∧ (∀ x, t.relays.get x = { s.relays.get x with
              link := (s.relays.get x).link.map fun tx => { tx with timeout := tx.timeout - 1 } })
        ∧ t.pollTimer = s.pollTimer - 1
        ∧ t.motion = { s.motion with stall := s.motion.stall.map (· - 1), hold := s.motion.hold.map (· - 1) }
        ∧ t.time = { s.time with ageMs := (s.time.ageMs + 1) % 100, secondMs := (s.time.secondMs + 1) % 1000 }
        ∧ (.bridgeExpiry ∈ t.pending ↔ t.pp.bridge = .running ∧ bridgeMax s ≤ t.pp.timer)
        ∧ (∀ x, .presenceDebounceExpiry x ∈ t.pending ↔ (t.bays.get x).presDeb = some 0)
        ∧ (∀ x, .latchDebounceExpiry x ∈ t.pending ↔ (t.bays.get x).latchDeb = some 0)
        ∧ (∀ x, .linkTimeout x ∈ t.pending ↔ (t.relays.get x).link.map PackTx.timeout = some 0)
        ∧ (∀ x, .joltHoldExpiry x ∈ t.pending ↔ (t.bays.get x).jolt.map JoltRecord.hold = some (.running 0))
        ∧ (.stallTimeout ∈ t.pending ↔ t.motion.stall = some 0)
        ∧ (.windowHoldExpiry ∈ t.pending ↔ t.motion.hold = some 0)
        ∧ (∀ r, .tableCheckEnd r ∈ t.pending ↔ (s.tables.get r).state = .checking)
        ∧ (.pollPeriodExpiry ∈ t.pending ↔ t.pollTimer = 0)
        ∧ (.ageTick ∈ t.pending ↔ t.time.ageMs = 0)
        ∧ (.uptimeTick ∈ t.pending ↔ t.time.secondMs = 0)
        ∧ (∀ x, .contextWindowExpiry x ∈ t.pending ↔ t.time.secondMs = 0)
        ∧ (t.time.secondMs = 0 → ∃ l, t.pending = l ++ [.uptimeTick, .contextWindowExpiry .A, .contextWindowExpiry .B])
        ∧ (∀ i ∈ t.pending, i = .bridgeExpiry ∨ (∃ x, i = .presenceDebounceExpiry x ∨ i = .latchDebounceExpiry x ∨ i = .linkTimeout x
              ∨ i = .joltHoldExpiry x ∨ i = .contextWindowExpiry x) ∨ i = .stallTimeout ∨ i = .windowHoldExpiry
              ∨ (∃ r, i = .tableCheckEnd r) ∨ i = .pollPeriodExpiry ∨ i = .ageTick ∨ i = .uptimeTick)
        ∧ t.cache = s.cache ∧ t.tables = s.tables ∧ t.mapInst = s.mapInst ∧ t.log = s.log ∧ t.attn = s.attn ∧ t.flags = s.flags
        ∧ t.port = s.port ∧ t.pipe = s.pipe ∧ t.budget = s.budget ∧ t.upstream = s.upstream ∧ t.lane = s.lane)

/-- Every row answers a next state, and leaves the waiting rows as they were. -/
def Obligations.EveryRowAnswersAndKeepsTheQueue : Prop :=
  ∀ (i : Instr) (s : State), ∃ t, exec i s = .next t ∧ t.pending = s.pending

/-- The laws of the device hold after every reset: of `State.reset` (whose line levels are the model's choice, log 1) and of POWER_ON_RESET with
any line levels. -/
def Obligations.LawsHoldAfterReset : Prop :=
  deviceLaws State.reset
    ∧ ∀ (l : Lines) (s t : State), exec (.powerOnReset l) s = .next t → deviceLaws t

/-! ### Invariants that every step keeps -/

/-- R11 and section 1.3: the request lines and the bridge switch follow the bridge state. R197 to R199: the Attention Queue's law. R154: the Drop
Log's law. R146 to R148: park line, stall timer and window follow the detector. -/
def Obligations.EveryStepKeepsThePowerAttentionLogAndMotionLaws : Prop :=
  (∀ s t : State, powerLaw s.pp → step s = .next t → powerLaw t.pp)
  ∧ (∀ s t : State, attnLaw s.attn → step s = .next t → attnLaw t.attn)
  ∧ (∀ s t : State, logLaw s.log → step s = .next t → logLaw t.log)
  ∧ (∀ s t : State, motionLaw s.motion → step s = .next t → motionLaw t.motion)

/-- R85: one valid line for a bay and code, and no FRESH line of a bay outside STANDBY, ONLINE and RELEASING. -/
def Obligations.EveryStepKeepsTheCacheLaw : Prop :=
  ∀ s t : State, cacheLaw s.cache → freshLaw s → step s = .next t → cacheLaw t.cache ∧ freshLaw t

/-- R163, R164: Table Memory; R114: MIN_LEVEL ≤ O ≤ C ≤ HOST_MAX; R64: the failure counts. -/
def Obligations.EveryStepKeepsTablesOutputAndCounts : Prop :=
  ∀ s t : State, tablesLaw s.tables → outputLaw s → countLaw s → step s = .next t →
    tablesLaw t.tables ∧ outputLaw t ∧ countLaw t

/-- R105, R106, R117: after every step the budget record is the one that the present inputs give. -/
def Obligations.EveryStepKeepsTheBudgetCurrent : Prop :=
  ∀ s t : State, budgetLaw s → step s = .next t → budgetLaw t

/-- R20 to R37: presence, switch and probe agree with the bay state. -/
def Obligations.EveryStepKeepsTheBayLaw : Prop :=
  ∀ s t : State, (∀ x, bayLaw s x) → step s = .next t → ∀ x, bayLaw t x

/-- R164: a locked region keeps its words and stays in service through every row but power-on reset, and the words of a region do not change while
it is IN_SERVICE. -/
def Obligations.LockedAndServingRegionsKeepTheirWords : Prop :=
  ∀ (i : Instr) (s t : State) (r : RegionId), exec i s = .next t →
    ((s.tables.get r).lock = true → (s.tables.get r).state = .inService → (∀ l, i ≠ .powerOnReset l) →
      t.tables.get r = s.tables.get r)
    ∧ ((s.tables.get r).state = .inService → (t.tables.get r).state = .inService →
      (t.tables.get r).words = (s.tables.get r).words)

/-- R5, R7: the set of conducting sources is emptied only by power-on reset, by EXT_PRESENT falling, or by the recorded presence of a bay falling;
no row turns off the last conducting source. -/
def Obligations.NoRowTurnsOffTheLastSource : Prop :=
  ∀ (i : Instr) (s t : State), exec i s = .next t → anyConducts s = true →
    anyConducts t = true ∨ (∃ l, i = .powerOnReset l) ∨ i = .extPresentChange false
      ∨ (∃ x, i = .presenceLineChange x false ∧ (s.bays.get x).presence = true ∧ (t.bays.get x).presence = false)
      ∨ (∃ x, i = .presenceDebounceExpiry x ∧ (s.bays.get x).presence = true ∧ (t.bays.get x).presence = false)

/-- R40: while the drop window is open, no latch event and no Bay Release takes a bay out of ONLINE, and a recorded fall of presence takes an
ONLINE, STANDBY or PROBING bay to JOLT. R26, case 2, R43: with the drop window open, a latch-open sets the deferred mark and does nothing else,
and a Bay Release is refused with DROP, unless HOLD_SWAP refuses first. -/
def Obligations.TheDropWindowHoldsAndDefers : Prop :=
  (∀ (s t : State) (x y : BayId), s.motion.window ≠ .closed →
     ((s.bays.get x).state = .online → ∀ b p,
         (exec (.latchLineChange y b) s = .next t ∨ exec (.latchDebounceExpiry y) s = .next t ∨ exec (.bayRelease p) s = .next t) →
         (t.bays.get x).state = .online)
     ∧ (((s.bays.get x).state = .online ∨ (s.bays.get x).state = .standby ∨ (s.bays.get x).state = .probing) →
         presenceTurns s x false → exec (.presenceDebounceExpiry x) s = .next t → (t.bays.get x).state = .jolt))
  ∧ (∀ (x : BayId) (s : State), (s.bays.get x).state = .online → holdSwap s x = false → s.motion.window ≠ .closed →
       (latchTurns s x false → exec (.latchDebounceExpiry x) s
           = .next (updBay x (fun b => { b with latchDeb := none, latch := false, deferred := true }) s))
       ∧ (accepts s → ∀ b, bayOfByte b = some x → exec (.bayRelease [b]) s
           = .next (ended (updBay x (fun b => { b with refusal := .drop }) (begun s)) .refused [0x02])))

/-! ### What rows leave alone -/

/-- The rows that may change Table Memory, the map instance, the Drop Log, the service flags, the time base, the sample lane and the poll period
timer; every other row leaves that part exactly as it was. Here and in what follows, a byte that completes a command at MGMT is the row of that
command (O36). The rows that may change EXT presence, BRIDGE_READY, the detector and window, the pipeline's fields other than O, and the result
slot and RESET_SEEN; every other row leaves them exactly as they were. R182: no completion, posting or event of another block changes the slot.
Sections 2.1 and 2.2: a presence or latch line is recorded by its own row of its own bay alone; the recorded presence and latch change in the
debounce rows, and the presence also where its line falls in SEATING (R46). The rows that may change the Reading Cache, the Attention Queue with
ATTN_REQ, the switches with their held marks and the bridge, the budget record and the output level, the relays with their snapshots and failure
counts, the upstream link, and the bay records with their contexts, jolt records, probe causes and fault reasons; every other row leaves that part
exactly as it was, a byte that completes a command being the row of that command. -/
def Obligations.WhatEachRowLeavesAlone : Prop :=
  (∀ (i : Instr) (s t : State), completed i s = none → exec i s = .next t →
     (match i with
       | .powerOnReset _ | .resetPart _ | .tableClear _ | .tableWrite _ | .tableCheck _ | .tableLock _ | .tableCheckEnd _ => True
       | _ => t.tables = s.tables ∧ t.mapInst = s.mapInst)
     ∧ (match i with
       | .powerOnReset _ | .motionSample .. | .stallTimeout | .dropLogClear _ => True
       | _ => t.log = s.log)
     ∧ (match i with
       | .powerOnReset _ | .resetPart _ | .flagSet _ | .flagClear _ | .flagToggle _ => True
       | _ => t.flags = s.flags)
     ∧ (match i with
       | .powerOnReset _ | .uptimeTick => True
       | _ => t.time = s.time)
     ∧ (match i with
       | .powerOnReset _ | .lightSample .. | .motionSample .. | .frameDiscard .. | .laneGapDiscard _ => True
       | _ => t.lane = s.lane)
     ∧ (match i with
       | .powerOnReset _ | .resetPart _ | .pollPeriodExpiry => True
       | _ => t.pollTimer = s.pollTimer))
  ∧ (∀ (i : Instr) (s t : State), completed i s = none → exec i s = .next t →
       (match i with
         | .powerOnReset _ | .extPresentChange _ => True
         | _ => t.pp.ext = s.pp.ext)
       ∧ (match i with
         | .powerOnReset _ | .bridgeReadyChange _ => True
         | _ => t.pp.bridgeReady = s.pp.bridgeReady)
       ∧ (match i with
         | .powerOnReset _ | .resetPart _ | .motionSample .. | .stallTimeout | .windowHoldExpiry => True
         | _ => t.motion = { s.motion with jolted := t.motion.jolted })
       ∧ (match i with
         | .powerOnReset _ | .resetPart _ | .lightSample .. | .brightnessSet _ | .brightnessQuery _ | .tableClear _ | .tableCheckEnd _ =>
             True
         | _ => t.pipe = { s.pipe with o := t.pipe.o })
       ∧ (match i with
         | .powerOnReset _ | .resultRead _ | .invalidCommand .. | .identify _ | .senseAttention _ | .flagTest _ | .flagSet _ | .flagClear _
         | .flagToggle _ | .resetPart _ | .powerQuery _ | .bayQuery _ | .bayRelease _ | .bayReturn _ | .bayProbe _ | .linkRecover _
         | .cacheFlush _ | .cacheInspect _ | .budgetQuery _ | .brightnessSet _ | .brightnessQuery _ | .dropStateQuery _ | .dropLogRead _
         | .dropLogClear _ | .tableClear _ | .tableWrite _ | .tableCheck _ | .tableRead _ | .tableLock _ => True
         | _ => t.port = s.port))
  ∧ (∀ (i : Instr) (s t : State) (x : BayId), exec i s = .next t → (∀ l, i ≠ .powerOnReset l) →
       ((∀ v, i ≠ .presenceLineChange x v) → (t.bays.get x).presLine = (s.bays.get x).presLine)
       ∧ ((∀ v, i ≠ .latchLineChange x v) → (t.bays.get x).latchLine = (s.bays.get x).latchLine)
       ∧ (i ≠ .latchDebounceExpiry x → (t.bays.get x).latch = (s.bays.get x).latch)
       ∧ (i ≠ .presenceDebounceExpiry x → i ≠ .presenceLineChange x false → (t.bays.get x).presence = (s.bays.get x).presence))
  ∧ (∀ (i : Instr) (s t : State), completed i s = none → exec i s = .next t →
       (match i with
         | .powerOnReset _ | .presenceLineChange .. | .presenceDebounceExpiry _ | .joltHoldExpiry _ | .contextWindowExpiry _ | .ageTick
         | .packTransactionEnd .. | .linkTimeout _ | .linkRecoverEnd .. | .motionSample .. | .stallTimeout | .windowHoldExpiry
         | .tableCheckEnd _ | .readValue _ | .resetPart _ | .bayProbe _ | .cacheFlush _ | .tableClear _ => True
         | _ => t.cache = s.cache)
       ∧ (∀ x, i = .presenceLineChange x true → t.cache = s.cache)
       ∧ (match i with
         | .powerOnReset _ | .extPresentChange _ | .presenceLineChange .. | .presenceDebounceExpiry _ | .latchDebounceExpiry _ | .bridgeExpiry
         | .joltHoldExpiry _ | .packTransactionEnd .. | .linkTimeout _ | .linkRecoverEnd .. | .motionSample .. | .stallTimeout
         | .windowHoldExpiry | .tableCheckEnd _ | .codeByteCheck _ | .permitCheck _ | .senseAttention _ | .flagClear _ | .flagToggle _
         | .resetPart _ | .bayRelease _ | .bayReturn _ | .bayProbe _ | .brightnessSet _ | .tableClear _ => True
         | _ => t.attn = s.attn)
       ∧ (match i with
         | .powerOnReset _ | .extPresentChange _ | .presenceLineChange .. | .presenceDebounceExpiry _ | .latchDebounceExpiry _ | .bridgeExpiry
         | .joltHoldExpiry _ | .packTransactionEnd .. | .linkTimeout _ | .linkRecoverEnd .. | .motionSample .. | .stallTimeout
         | .windowHoldExpiry | .tableCheckEnd _ | .flagClear _ | .flagToggle _ | .resetPart _ | .bayRelease _ | .bayReturn _ | .bayProbe _
         | .tableClear _ => True
         | .brightnessSet _ => t.pp = s.pp
         | .bridgeReadyChange _ => t.pp = { s.pp with bridgeReady := t.pp.bridgeReady } ∧ t.budget = s.budget ∧ t.pipe.o = s.pipe.o
         | .lightSample .. => t.pp = s.pp ∧ t.budget = s.budget
         | _ => t.pp = s.pp ∧ t.budget = s.budget ∧ t.pipe.o = s.pipe.o)
       ∧ (match i with
         | .powerOnReset _ | .extPresentChange _ | .presenceLineChange .. | .presenceDebounceExpiry _ | .latchDebounceExpiry _
         | .joltHoldExpiry _ | .pollPeriodExpiry | .pollStart _ | .pollRetry _ | .probeReadStart _ | .slotTransactionStart _
         | .packTransactionEnd .. | .linkTimeout _ | .linkRecoverBegin _ | .linkRecoverEnd .. | .motionSample .. | .stallTimeout
         | .windowHoldExpiry | .tableCheckEnd _ | .readValue _ | .writeValue .. | .readBlock _ | .writeBlock _ | .flagSet _ | .flagClear _
         | .flagToggle _ | .resetPart _ | .bayRelease _ | .bayReturn _ | .bayProbe _ | .linkRecover _ | .tableClear _ => True
         | _ => t.relays = s.relays)
       ∧ (match i with
         | .powerOnReset _ | .presenceLineChange .. | .presenceDebounceExpiry _ | .joltHoldExpiry _ | .packTransactionEnd ..
         | .motionSample .. | .stallTimeout | .windowHoldExpiry | .resetPart _ => True
         | _ => ∀ x, (t.relays.get x).snap = (s.relays.get x).snap)
       ∧ (match i with
         | .powerOnReset _ | .presenceLineChange .. | .presenceDebounceExpiry _ | .joltHoldExpiry _ | .packTransactionEnd .. | .linkTimeout _
         | .linkRecoverEnd .. | .motionSample .. | .stallTimeout | .windowHoldExpiry | .tableCheckEnd _ | .tableClear _ | .resetPart _
         | .bayProbe _ => True
         | _ => ∀ x, (t.relays.get x).failCount = (s.relays.get x).failCount)
       ∧ (match i with
         | .extPresentChange _ | .latchLineChange .. | .latchDebounceExpiry _ | .bridgeReadyChange _ | .bridgeExpiry | .joltHoldExpiry _
         | .contextWindowExpiry _ | .uptimeTick | .ageTick | .pollPeriodExpiry | .pollStart _ | .pollRetry _ | .probeReadStart _
         | .linkRecoverBegin _ | .linkRecoverEnd .. | .lightSample .. | .motionSample .. | .frameDiscard .. | .laneGapDiscard _
         | .stallTimeout | .windowHoldExpiry | .tableCheckEnd _ => t.upstream = s.upstream
         | _ => True)
       ∧ (match i with
         | .powerOnReset _ | .extPresentChange _ | .presenceLineChange .. | .presenceDebounceExpiry _ | .latchLineChange ..
         | .latchDebounceExpiry _ | .joltHoldExpiry _ | .contextWindowExpiry _ | .packTransactionEnd .. | .linkTimeout _ | .linkRecoverEnd ..
         | .motionSample .. | .stallTimeout | .windowHoldExpiry | .tableCheckEnd _ | .flagClear _ | .flagToggle _ | .resetPart _
         | .bayRelease _ | .bayReturn _ | .bayProbe _ | .tableClear _ => True
         | _ => t.bays = s.bays)
       ∧ (match i with
         | .powerOnReset _ | .presenceLineChange .. | .presenceDebounceExpiry _ | .joltHoldExpiry _ | .contextWindowExpiry _
         | .packTransactionEnd .. | .linkRecoverEnd .. | .motionSample .. | .stallTimeout | .windowHoldExpiry | .resetPart _
         | .bayProbe _ => True
         | _ => ∀ x, (t.bays.get x).context = (s.bays.get x).context)
       ∧ (match i with
         | .powerOnReset _ | .presenceLineChange .. | .presenceDebounceExpiry _ | .joltHoldExpiry _ | .packTransactionEnd .. | .linkTimeout _
         | .linkRecoverEnd .. | .motionSample .. | .stallTimeout | .windowHoldExpiry | .tableCheckEnd _ | .tableClear _ | .resetPart _
         | .bayProbe _ => True
         | _ => ∀ x, (t.bays.get x).jolt = (s.bays.get x).jolt ∧ (t.bays.get x).probeCause = (s.bays.get x).probeCause
             ∧ (t.bays.get x).faultReason = (s.bays.get x).faultReason))

/-! ### Power-on reset, the supply lines and the bridge -/

/-- Power-on reset completes on any lines: the values of R14, R46, R69, R104, R118, R138, R161, R178, R190, R201 and R202. The age period is not
disturbed (R104), while the second starts again, which is the model's (log 21). The queue of waiting rows is kept, which is the model's (log 32).
-/
def Obligations.PowerOnResetSetsEveryBlock : Prop :=
  ∀ (l : Lines) (s : State), ∃ t, exec (.powerOnReset l) s = .next t
    ∧ t.pp = { sw := ⟨if l.presA then .passive else .off, if l.presB then .passive else .off⟩, held := ⟨false, false⟩, ext := l.ext,
               bridgeReady := l.bridgeReady, bridge := .idle, timer := 0, bridgeSw := false, lowpwr := false, pfail := false }
    ∧ t.bays.a = { Bay.reset with
        state := if l.presA then .seating else .empty, presLine := l.presA, presence := l.presA,
        presDeb := if l.presA then some 50 else none, latchLine := l.latchA, latch := l.latchA }
    ∧ t.bays.b = { Bay.reset with
        state := if l.presB then .seating else .empty, presLine := l.presB, presence := l.presB,
        presDeb := if l.presB then some 50 else none, latchLine := l.latchB, latch := l.latchB }
    ∧ (∀ x, t.relays.get x = {
        link := none, slot := none, pollDue := false, poll := none, failCount := 0, ring := [], ptr := 0, snap := Snapshot.absent,
        probe := none, recover := .notRunning })
    ∧ t.pollTimer = 250 ∧ t.cache = List.replicate 16 CacheSet.reset
    ∧ t.budget = computeBudget t
    ∧ (t.pipe.mode = .auto ∧ t.pipe.manual = 500 ∧ t.pipe.hostMax = 1000 ∧ t.pipe.o = min 300 t.budget.c ∧ t.pipe.s = 16 * t.pipe.o
        ∧ t.pipe.d = t.pipe.o ∧ t.pipe.t = t.pipe.o ∧ t.pipe.l = 0 ∧ t.pipe.clampedLux = false ∧ t.pipe.ceilingLimited = false)
    ∧ (20 ≤ t.pipe.o ∧ t.pipe.o ≤ 300)
    ∧ (t.motion.detector = .armed ∧ t.motion.run = 0 ∧ t.motion.n = 0 ∧ t.motion.impacts = 0 ∧ t.motion.settle = 0 ∧ t.motion.peak = 0
        ∧ t.motion.saturated = false ∧ t.motion.stall = none ∧ t.motion.hold = none ∧ t.motion.window = .closed
        ∧ t.motion.jolted = ⟨false, false⟩ ∧ t.motion.park = false)
    ∧ t.log = { records := [], next := some 1 }
    ∧ (∀ r, (t.tables.get r) = { state := .empty, lock := false, words := [] } ∧ ∀ i, inEffect t r i = Config.defaultWord r i)
    ∧ t.port = { slot := .empty, resetSeen := true } ∧ t.attn = { queue := [], req := false } ∧ t.flags = flagsClear
    ∧ t.time = { uptime := 0, ageMs := s.time.ageMs, secondMs := 0 } ∧ t.upstream.tx = none ∧ t.lane = [] ∧ t.pending = s.pending

/-- R1, R6, R10: EXT_PRESENT rising, from any state: ARRIVED is posted, a bridge run ends, every held mark of a bay that is not ONLINE clears, and
the switch of that bay is OFF unless the bay went ONLINE by R25. A change to the level it has is no change. R1, R7, R33: EXT_PRESENT falling:
DEPARTED is posted and the budget is recomputed, in this order, which is the model's choice (log 29). Where another source conducts nothing else
happens; where none does, a STANDBY bay with its pack present takes over, else the bridge starts, else the set stays empty. -/
def Obligations.ExtPresentRisesAndFalls : Prop :=
  (∀ s : State,
     (s.pp.ext = true → exec (.extPresentChange true) s = .next s)
     ∧ (s.pp.ext = false → ∃ t, exec (.extPresentChange true) s = .next t
         ∧ t.pp.ext = true ∧ queued t (.presence .ext) dArrived ∧ t.pp.bridge = .idle
         ∧ (s.pp.bridge ≠ .idle → t.pp.timer = 0 ∧ t.pp.bridgeSw = false ∧ t.pp.lowpwr = false ∧ t.pp.pfail = false)
         ∧ (∀ x, s.pp.held.get x = true → (s.bays.get x).state ≠ .online →
             t.pp.held.get x = false ∧ (t.pp.sw.get x = .off ∨ (t.bays.get x).state = .online))
         ∧ budgetLaw t))
  ∧ (∀ s : State,
       (s.pp.ext = false → exec (.extPresentChange false) s = .next s)
       ∧ (s.pp.ext = true →
           ((conductsBay s .A = true ∨ conductsBay s .B = true ∨ conductsBridge s = true) →
             exec (.extPresentChange false) s = .next (recompute (post (.presence .ext) dDeparted (setExt false s))))
           ∧ (conductsBay s .A = false → conductsBay s .B = false → conductsBridge s = false →
               (takeOverBay s = none → bridgeCanStart s = false →
                 exec (.extPresentChange false) s = .next (recompute (post (.presence .ext) dDeparted (setExt false s))))
               ∧ (takeOverBay s = none → bridgeCanStart s = true → ∃ t, exec (.extPresentChange false) s = .next t
                   ∧ t.pp.ext = false ∧ queued t (.presence .ext) dDeparted ∧ queued t .bridgeOn (dBridge .emergency)
                   ∧ t.pp.bridge = .running ∧ t.pp.timer = 0 ∧ t.pp.bridgeSw = true ∧ t.pp.lowpwr = true ∧ t.pp.pfail = s.pp.pfail)
               ∧ (∀ x, takeOverBay s = some x → ∃ t, exec (.extPresentChange false) s = .next t
                   ∧ t.pp.ext = false ∧ queued t (.presence .ext) dDeparted ∧ queued t (.swapDone x) dTakeOver
                   ∧ t.pp.sw.get x = .on ∧ (t.bays.get x).state = .online))))

/-- R33: the bay of an emergency take-over: a STANDBY bay with its presence asserted; of two, the greater VOLTAGE snapshot, a present one above an
absent one, and bay A on a tie. R24: the paralleling rule. R50: when a bay is served. R51: the bay that ACTIVE reaches, among the ONLINE bays
under no Link Recover. -/
def Obligations.ChoicesOfABay : Prop :=
  (∀ s : State,
     (∀ x, takeOverBay s = some x → (s.bays.get x).state = .standby ∧ (s.bays.get x).presence = true)
     ∧ (takeOverBay s = none → ∀ x, ¬ ((s.bays.get x).state = .standby ∧ (s.bays.get x).presence = true))
     ∧ (canTakeOver s .A = true → canTakeOver s .B = true →
         (∀ v w, s.relays.a.snap.voltage = some v → s.relays.b.snap.voltage = some w →
           takeOverBay s = some (if v.toNat < w.toNat then .B else .A))
         ∧ (s.relays.b.snap.voltage = none → takeOverBay s = some .A)
         ∧ (s.relays.a.snap.voltage = none → s.relays.b.snap.voltage ≠ none → takeOverBay s = some .B)))
  ∧ (∀ (x : BayId) (s : State),
       (¬ (s.pp.sw.get x.other = .on ∧ (s.bays.get x.other).presence = true) → parallelAllows x s = true)
       ∧ ((s.pp.sw.get x.other = .on ∧ (s.bays.get x.other).presence = true) →
           (parallelAllows x s = true ↔ ∃ v w, (s.relays.get x).snap.voltage = some v ∧ (s.relays.get x.other).snap.voltage = some w
             ∧ v.toNat ≤ w.toNat + vdiffMax s ∧ w.toNat ≤ v.toNat + vdiffMax s)))
  ∧ ((∀ (x : BayId) (s : State), served s x = true ↔
       ((s.bays.get x).state = .probing ∨ (s.bays.get x).state = .standby ∨ (s.bays.get x).state = .online
         ∨ (s.bays.get x).state = .releasing) ∧ (s.relays.get x).recover = .notRunning)
     ∧ ∀ s : State,
       (activeCandidate s .A = false → activeCandidate s .B = false → chooseActive s = none)
       ∧ (activeCandidate s .A = true → activeCandidate s .B = false → chooseActive s = some .A)
       ∧ (activeCandidate s .A = false → activeCandidate s .B = true → chooseActive s = some .B)
       ∧ (activeCandidate s .A = true → activeCandidate s .B = true →
           (∀ v w, s.relays.a.snap.remaining = some v → s.relays.b.snap.remaining = some w →
             chooseActive s = some (if v.toNat < w.toNat then .B else .A))
           ∧ ((s.relays.a.snap.remaining = none ∨ s.relays.b.snap.remaining = none) →
               (∀ v w, s.relays.a.snap.voltage = some v → s.relays.b.snap.voltage = some w →
                 chooseActive s = some (if v.toNat < w.toNat then .B else .A))
               ∧ ((s.relays.a.snap.voltage = none ∨ s.relays.b.snap.voltage = none) → chooseActive s = some .A)))
       ∧ (∀ x, activeCandidate s x = true ↔ (s.bays.get x).state = .online ∧ (s.relays.get x).recover = .notRunning))

/-- R12: a change of BRIDGE_READY is recorded and changes nothing else, whatever the bridge does. R8: the start test holds where the bridge is
IDLE, BRIDGE_ALLOWED is set and BRIDGE_READY is asserted. R12, R13: BRIDGE_READY is visible as bit 1 of the first byte of Power Query's record.
R12: with CONFIG out of service BRIDGE_ALLOWED is yes and BRIDGE_MAX_ms 20,000. R9: at expiry a RUNNING bridge becomes EXPIRED, PFAIL_REQ is
asserted and BRIDGE_LOW is posted with the timer value; in any other state the row changes nothing. That the row itself stands for the moment of
expiry, and so brings the timer to BRIDGE_MAX_ms, is the model's (log 3). -/
def Obligations.BridgeReadyAndExpiry : Prop :=
  ((∀ (v : Bool) (s : State), exec (.bridgeReadyChange v) s = .next { s with pp := { s.pp with bridgeReady := v } })
   ∧ (∀ s : State, bridgeCanStart s = true ↔ s.pp.bridge = .idle ∧ bridgeAllowed s = true ∧ s.pp.bridgeReady = true)
   ∧ (∀ (v : Bool) (s : State), ∃ b, (powerBytes { s with pp := { s.pp with bridgeReady := v } })[0]? = some b ∧ b.getLsbD 1 = v)
   ∧ (∀ s : State, s.tables.config.state ≠ .inService → bridgeAllowed s = true ∧ bridgeMax s = 20000))
  ∧ (∀ s : State,
       (s.pp.bridge ≠ .running → exec .bridgeExpiry s = .next s)
       ∧ (s.pp.bridge = .running → ∃ t, exec .bridgeExpiry s = .next t
           ∧ t.pp = { s.pp with bridge := .expired, timer := max s.pp.timer (bridgeMax s), pfail := true }
           ∧ queued t .bridgeLow ⟨0, max s.pp.timer (bridgeMax s)⟩
           ∧ t.bays = s.bays ∧ t.relays = s.relays ∧ t.cache = s.cache ∧ t.upstream = s.upstream))

/-! ### Debouncing, loss and jolt -/

/-- R17, R18: a change of a presence or latch line to the level it has is no change; a change against the recorded level starts the debounce
afresh, a return to it stops the debounce, and nothing else changes. For presence: outside SEATING and, on a rise, outside EMPTY, with no pack
transaction and no Link Recover under way on a fall. R17, R18: a debounce that runs out with the line at the recorded level, or a stopped one (log
3), does nothing more than stop; a latch event in a state whose rules do not name it changes only the recorded latch, and a closing releases the
refuse indicator and the deferred mark (R29). R25, R30: a latch that closes on a STANDBY bay takes it ONLINE with SWAP_DONE, TAKE_OVER, where the
paralleling rule allows, and otherwise is only recorded; on a RELEASING bay it takes the bay to ONLINE or, where the rule does not allow, to
STANDBY. R17, R55, R57, R58, R68: a presence line that falls outside SEATING ends what is on its link at once: a pack transaction in flight is
LOST, the master of a platform transaction and one that waits in the slot are refused, a poll or a probe ends without retry, and a Link Recover,
running or waiting, ends with LINK_DONE, RECOVER_FAIL. The failure count, the snapshot, the cache, the switches and the budget stay, and the
debounce runs. -/
def Obligations.LinesAreDebouncedAndLatchesRecorded : Prop :=
  ((∀ (x : BayId) (v : Bool) (s : State), (s.bays.get x).latchLine = v → exec (.latchLineChange x v) s = .next s)
   ∧ (∀ (x : BayId) (v : Bool) (s : State), (s.bays.get x).latchLine = !v →
       exec (.latchLineChange x v) s
         = .next (updBay x (fun b => { b with latchLine := v, latchDeb := if v = b.latch then none else some (latchDebounce s) }) s))
   ∧ (∀ (x : BayId) (v : Bool) (s : State), (s.bays.get x).presLine = v → exec (.presenceLineChange x v) s = .next s)
   ∧ (∀ (x : BayId) (v : Bool) (s : State), (s.bays.get x).presLine = !v →
       (v = true → (s.bays.get x).state ≠ .empty) →
       (v = false → (s.bays.get x).state ≠ .seating ∧ (s.relays.get x).link = none ∧ (s.relays.get x).recover = .notRunning) →
       exec (.presenceLineChange x v) s
         = .next (updBay x (fun b => { b with presLine := v, presDeb := if v = b.presence then none else some (presenceDebounce s) }) s)))
  ∧ (∀ (x : BayId) (s : State),
       ((s.bays.get x).latchDeb = none → exec (.latchDebounceExpiry x) s = .next s)
       ∧ ((s.bays.get x).latchLine = (s.bays.get x).latch →
           exec (.latchDebounceExpiry x) s = .next (updBay x (fun b => { b with latchDeb := none }) s))
       ∧ (latchTurns s x true → (s.bays.get x).state ≠ .standby → (s.bays.get x).state ≠ .releasing →
           exec (.latchDebounceExpiry x) s
             = .next (updBay x (fun b => { b with latchDeb := none, latch := true, refuse := false, deferred := false }) s))
       ∧ (latchTurns s x false → (s.bays.get x).state ≠ .online →
           exec (.latchDebounceExpiry x) s = .next (updBay x (fun b => { b with latchDeb := none, latch := false }) s)))
  ∧ (∀ (x : BayId) (s : State), latchTurns s x true →
       ((s.bays.get x).state = .standby →
         (parallelAllows x s = true → ∃ t, exec (.latchDebounceExpiry x) s = .next t ∧ (t.bays.get x).state = .online
           ∧ t.pp.sw.get x = .on ∧ (t.bays.get x).latch = true ∧ queued t (.swapDone x) dTakeOver)
         ∧ (parallelAllows x s = false → exec (.latchDebounceExpiry x) s
             = .next (updBay x (fun b => { b with latchDeb := none, latch := true, refuse := false, deferred := false }) s)))
       ∧ ((s.bays.get x).state = .releasing → ∃ t, exec (.latchDebounceExpiry x) s = .next t ∧ (t.bays.get x).latch = true
           ∧ (parallelAllows x s = true → (t.bays.get x).state = .online ∧ t.pp.sw.get x = .on)
           ∧ (parallelAllows x s = false → (t.bays.get x).state = .standby)))
  ∧ (∀ (x : BayId) (s : State), (s.bays.get x).presLine = true → (s.bays.get x).state ≠ .seating →
       ∃ t, exec (.presenceLineChange x false) s = .next t
         ∧ t.bays = s.bays.upd x (fun b =>
             { b with presLine := false, presDeb := if b.presence then some (presenceDebounce s) else none })
         ∧ t.relays = s.relays.upd x (fun r => { r with
             link := none, slot := if r.link = none then r.slot else none,
             poll := if r.link.map PackTx.purpose = some .poll then none else r.poll,
             probe := if r.link.map PackTx.purpose = some .probe then none else r.probe, recover := .notRunning })
         ∧ t.upstream = (if (s.relays.get x).link.map PackTx.purpose = some .platform
               ∨ ((s.relays.get x).link ≠ none ∧ (s.relays.get x).slot ≠ none) then { tx := none, answer := .refused } else s.upstream)
         ∧ t.attn = (if (s.relays.get x).recover = .notRunning then s.attn else (post (.linkDone x) ⟨5, 0⟩ s).attn)
         ∧ t.pp = s.pp ∧ t.cache = s.cache ∧ t.budget = s.budget)

/-- R17, R20, R46, R65: the presence line rising on an EMPTY bay takes it to SEATING with a fresh debounce, its snapshot and count cleared; the
line falling in SEATING with no recorded presence takes it back to EMPTY with the debounce stopped. With the budget and the output level already
settled (both invariants) the fall posts nothing and changes nothing else. R46, R5, R7, R19, R33: the line falling in the SEATING entered at POR,
with recorded presence: the bay is EMPTY, its recorded presence falls, no context is saved and no PRESENCE attention is posted. Its switch is OFF
where another source conducts. Where it was the last source, a STANDBY pack takes over, else the bridge starts, and its switch is OFF then; else
it is held as it was. R17, R19, R20, R46, R62: the debounce running out with the line asserted takes a SEATING bay to PROBING with cause
INSERTION; PRESENCE ARRIVED is posted unless the presence was already recorded (POR). With a map that tags probe codes the probe waits for its
first read; without one it completes at once, and admission leaves the bay ONLINE, STANDBY or FAULTED. That the row stands for the moment at which
its timer runs out is the model's (log 3). -/
def Obligations.SeatingBeginsAndEnds : Prop :=
  (∀ (x : BayId) (s : State),
     ((s.bays.get x).state = .empty → (s.bays.get x).presLine = false → (s.bays.get x).presence = false →
       ∃ t, exec (.presenceLineChange x true) s = .next t
         ∧ (t.bays.get x).state = .seating ∧ (t.bays.get x).presLine = true ∧ (t.bays.get x).presence = false
         ∧ (t.bays.get x).presDeb = some (presenceDebounce s)
         ∧ (t.relays.get x).snap = Snapshot.absent ∧ (t.relays.get x).failCount = 0
         ∧ t.bays.get x.other = s.bays.get x.other ∧ t.relays.get x.other = s.relays.get x.other ∧ t.pp = s.pp ∧ t.cache = s.cache)
     ∧ ((s.bays.get x).state = .seating → (s.bays.get x).presLine = true → (s.bays.get x).presence = false →
         (s.relays.get x).link = none → (s.relays.get x).recover = .notRunning → (s.relays.get x).probe = none →
         (s.relays.get x).pollDue = false → (s.relays.get x).poll = none → budgetLaw s → outputLaw s →
         exec (.presenceLineChange x false) s
           = .next (updBay x (fun b => { b with state := .empty, presLine := false, presDeb := none, jolt := none }) s)))
  ∧ (∀ (x : BayId) (s : State), (s.bays.get x).state = .seating → (s.bays.get x).presLine = true → (s.bays.get x).presence = true →
       ∃ t, exec (.presenceLineChange x false) s = .next t
         ∧ (t.bays.get x).state = .empty ∧ (t.bays.get x).presLine = false ∧ (t.bays.get x).presence = false
         ∧ (t.bays.get x).presDeb = none ∧ (t.bays.get x).context = (s.bays.get x).context
         ∧ (∀ e ∈ t.attn.queue, e.key = .presence (.bay x) → e ∈ s.attn.queue)
         ∧ (otherConducts s x = true → t.pp.sw.get x = .off)
         ∧ (otherConducts s x = false → s.pp.sw.get x ≠ .off →
             (canTakeOver s x.other = true → (t.bays.get x.other).state = .online ∧ t.pp.sw.get x.other = .on ∧ t.pp.sw.get x = .off
               ∧ queued t (.swapDone x.other) dTakeOver)
             ∧ (canTakeOver s x.other = false → bridgeCanStart s = true → t.pp.bridge = .running ∧ t.pp.sw.get x = .off
               ∧ queued t .bridgeOn (dBridge .emergency))
             ∧ (canTakeOver s x.other = false → bridgeCanStart s = false →
                 t.pp.sw.get x = s.pp.sw.get x ∧ t.pp.held.get x = true)))
  ∧ (∀ (x : BayId) (s : State), (s.bays.get x).presDeb.isSome = true → (s.bays.get x).presLine = true → (s.bays.get x).state = .seating →
       ∃ t, exec (.presenceDebounceExpiry x) s = .next t
         ∧ (t.bays.get x).presence = true ∧ (t.bays.get x).presDeb = none ∧ (t.bays.get x).probeCause = .insertion
         ∧ ((s.bays.get x).presence = false → queued t (.presence (.bay x)) dArrived)
         ∧ (probeReads s ≠ [] → (t.bays.get x).state = .probing
             ∧ (t.relays.get x).probe = some { reads := probeReads s, attempts := 0, background := false })
         ∧ (probeReads s = [] → (t.bays.get x).state = .online ∨ (t.bays.get x).state = .standby ∨ (t.bays.get x).state = .faulted))

/-- R34, R65: presence rising on a jolted bay stops the hold, clears the snapshot and the count, and takes the bay to PROBING with cause
JOLT_RETURN, its switch unchanged while the probe runs. R37, R62: where the map tags no probe code the probe completes at once, both serials are
not present and the pack is DIFFERENT: no line of the bay is valid, the context is discarded and the pack is placed, ONLINE with SWAP_DONE
INSERTION where its latch is closed and the other switch is not ON on a present pack, and STANDBY where the latch is open or that switch stays ON;
a held switch of the other bay is first released where the returning pack conducts (R6). R34: the jolt hold running out: the context takes the
jolt record's serial, JOLT EXPIRED is posted, the bay is EMPTY, or SEATING where its line is asserted; without a running hold in JOLT nothing
changes. That the row stands for the moment at which its timer runs out is the model's (log 3). -/
def Obligations.JoltedPackReturnsOrExpires : Prop :=
  (∀ (x : BayId) (s : State), presenceTurns s x true → (s.bays.get x).state = .jolt →
     ∃ t, exec (.presenceDebounceExpiry x) s = .next t
       ∧ (t.bays.get x).presence = true ∧ (t.bays.get x).probeCause = .joltReturn
       ∧ (t.relays.get x).snap = Snapshot.absent ∧ (t.relays.get x).failCount = 0
       ∧ (probeReads s ≠ [] → (t.bays.get x).state = .probing
           ∧ (t.bays.get x).jolt = (s.bays.get x).jolt.map (fun j => { j with hold := .stopped })
           ∧ (t.relays.get x).probe = some { reads := probeReads s, attempts := 0, background := false }
           ∧ (s.pp.held.get x = false → t.pp.sw.get x = s.pp.sw.get x))
       ∧ (probeReads s = [] →
           queued t (.jolt x) dDifferent ∧ (t.bays.get x).jolt = none ∧ (t.bays.get x).context = none
           ∧ (t.bays.get x).faultReason = .none ∧ (t.relays.get x).probe = none
           ∧ ((t.bays.get x).state = .online ∨ (t.bays.get x).state = .standby)
           ∧ (∀ cs ∈ t.cache, ∀ w, ¬ ((cs.get w).valid = true ∧ (cs.get w).bay = x))
           ∧ ((s.bays.get x).latch = true →
               (s.pp.sw.get x.other ≠ .on ∨ (s.bays.get x.other).presence = false
                 ∨ (s.pp.held.get x.other = true ∧ (s.bays.get x.other).state ≠ .online ∧ s.pp.sw.get x ≠ .off ∧ s.pp.held.get x = false)) →
               (t.bays.get x).state = .online ∧ t.pp.sw.get x = .on ∧ queued t (.swapDone x) dInsertion)
           ∧ (((s.bays.get x).latch = false ∨ (s.pp.sw.get x.other = .on ∧ (s.bays.get x.other).presence = true
                 ∧ (s.pp.held.get x.other = false ∨ (s.bays.get x.other).state = .online ∨ s.pp.sw.get x = .off))) →
               (t.bays.get x).state = .standby ∧ (t.pp.sw.get x = .off ∨ t.pp.held.get x = true))))
  ∧ (∀ (x : BayId) (s : State),
       (holdRuns (s.bays.get x) = false → exec (.joltHoldExpiry x) s = .next s)
       ∧ (holdRuns (s.bays.get x) = true → ∃ t, exec (.joltHoldExpiry x) s = .next t
           ∧ (t.bays.get x).state = (if (s.bays.get x).presLine then .seating else .empty)
           ∧ (t.bays.get x).jolt = none ∧ queued t (.jolt x) dExpired
           ∧ (t.pp.sw.get x = .off ∨ t.pp.held.get x = true)
           ∧ (t.bays.get x).context = if reinsertWindow s = 0 then none
               else some { serial := (s.bays.get x).jolt.bind JoltRecord.serial, departure := s.time.uptime }))

/-- R32, R55, R68, R150: a recorded fall of presence with the drop window open takes an ONLINE, STANDBY or PROBING bay to JOLT: the jolt record
takes the earlier state and the serial with its hold waiting, the deferred mark clears, no line of the bay stays FRESH, the bay joins the jolted
set, and what was on its link has ended. A switch that is not held stays as it was unless the other bay's switch is ON (R34). That the row stands
for the moment at which its timer runs out is the model's (log 3). -/
def Obligations.LossInTheWindowIsAJolt : Prop :=
  ∀ (x : BayId) (s : State), presenceTurns s x false → s.motion.window ≠ .closed →
    ((s.bays.get x).state = .online ∨ (s.bays.get x).state = .standby ∨ (s.bays.get x).state = .probing) →
    ∃ t, exec (.presenceDebounceExpiry x) s = .next t
      ∧ (t.bays.get x).state = .jolt ∧ (t.bays.get x).presence = false ∧ (t.bays.get x).presDeb = none
      ∧ (t.bays.get x).jolt = some {
          earlier := joltEarlierOf (s.bays.get x).state, serial := (s.relays.get x).snap.serial, hold := .waiting }
      ∧ (t.bays.get x).deferred = false ∧ t.motion.jolted.get x = true
      ∧ (s.pp.held.get x = false → t.pp.sw.get x = s.pp.sw.get x ∨ t.pp.sw.get x.other = .on)
      ∧ (∀ cs ∈ t.cache, noFreshSet x cs)
      ∧ (t.relays.get x).link = none ∧ (t.relays.get x).probe = none ∧ (t.relays.get x).recover = .notRunning
      ∧ (t.relays.get x).snap = (s.relays.get x).snap ∧ (t.relays.get x).failCount = (s.relays.get x).failCount
      ∧ ((s.bays.get x).state = .probing → (s.bays.get x).probeCause = .bayProbe → queued t (.linkDone x) dAborted)
      ∧ ((s.relays.get x).recover ≠ .notRunning → (s.bays.get x).state ≠ .probing → queued t (.linkDone x) dRecoverFail)

/-- R19, R30, R31, R36, R38: a recorded fall of presence takes an ONLINE, STANDBY or PROBING bay with the drop window closed, and a RELEASING or
FAULTED bay whatever the window, to EMPTY: DEPARTED is posted, and ONLINE, STANDBY and RELEASING save the departed-pack context, which a
REINSERT_WINDOW_s of 0 discards at once, while PROBING and FAULTED leave it as it was. Its switch is OFF or held. R97, R38: of the bay's lines,
FRESH ones of class FIXED become PARKED, other FRESH and SUSPECT ones are invalidated, and PARKED ones stay, unless an earlier context is
replaced; a context discarded at once takes the PARKED lines with it. That the row stands for the moment at which its timer runs out is the
model's (log 3). R7, R33: where that loss takes away the last conducting source of an ONLINE bay with the window closed, a STANDBY bay with its
pack takes over, and else the bridge starts. -/
def Obligations.LossOutsideTheWindow : Prop :=
  (∀ (x : BayId) (s : State), presenceTurns s x false →
     (s.motion.window = .closed ∨ (s.bays.get x).state = .releasing ∨ (s.bays.get x).state = .faulted) →
     ((s.bays.get x).state = .probing ∨ steady (s.bays.get x).state = true ∨ (s.bays.get x).state = .faulted) →
     ∃ t, exec (.presenceDebounceExpiry x) s = .next t
       ∧ (t.bays.get x).state = .empty ∧ (t.bays.get x).presence = false ∧ (t.bays.get x).jolt = none
       ∧ queued t (.presence (.bay x)) dDeparted
       ∧ (∀ cs ∈ t.cache, noFreshSet x cs)
       ∧ (t.relays.get x).link = none ∧ (t.relays.get x).probe = none
       ∧ (t.pp.sw.get x = .off ∨ t.pp.held.get x = true)
       ∧ (steady (s.bays.get x).state = true → (t.bays.get x).context
           = if reinsertWindow s = 0 then none else some { serial := (s.relays.get x).snap.serial, departure := s.time.uptime })
       ∧ (steady (s.bays.get x).state = false → (t.bays.get x).context = (s.bays.get x).context)
       ∧ ((s.bays.get x).state = .probing → (s.bays.get x).probeCause = .bayProbe → queued t (.linkDone x) dAborted)
       ∧ t.cache = s.cache.map (CacheSet.mapLines fun l => if l.valid ∧ l.bay = x then
           (match l.state with
             | .suspect => Line.invalid
             | .parked => if steady (s.bays.get x).state ∧ ((s.bays.get x).context ≠ none ∨ reinsertWindow s = 0) then Line.invalid else l
             | .fresh => if (mapEntry (mapInService s) l.code).cls = .fixed ∧ ¬ (steady (s.bays.get x).state ∧ reinsertWindow s = 0)
                 then { l with state := .parked } else Line.invalid)
           else l))
  ∧ (∀ (x : BayId) (s : State), presenceTurns s x false → s.motion.window = .closed → (s.bays.get x).state = .online →
       s.pp.sw.get x ≠ .off → s.pp.ext = false → conductsBay s x.other = false → conductsBridge s = false →
       (canTakeOver s x.other = true → ∃ t, exec (.presenceDebounceExpiry x) s = .next t
           ∧ (t.bays.get x.other).state = .online ∧ t.pp.sw.get x.other = .on ∧ t.pp.sw.get x = .off
           ∧ queued t (.swapDone x.other) dTakeOver)
       ∧ (canTakeOver s x.other = false → bridgeCanStart s = true → ∃ t, exec (.presenceDebounceExpiry x) s = .next t
           ∧ t.pp.bridge = .running ∧ t.pp.lowpwr = true ∧ t.pp.bridgeSw = true ∧ t.pp.timer = 0
           ∧ queued t .bridgeOn (dBridge .emergency)))

/-- R38: at the expiry the context becomes absent and the bay's PARKED lines are invalidated, and nothing else changes; before the reinsertion
window is reached nothing changes. R188, R94: the uptime rises by 1 and stays at 4,294,967,295; the age tick makes every valid line one older, up
to 255. Nothing else changes. -/
def Obligations.ContextWindowUptimeAndAge : Prop :=
  (∀ (x : BayId) (s : State),
     ((∀ c, (s.bays.get x).context = some c → s.time.uptime - c.departure < reinsertWindow s) →
       exec (.contextWindowExpiry x) s = .next s)
     ∧ (∀ c, (s.bays.get x).context = some c → reinsertWindow s ≤ s.time.uptime - c.departure →
       exec (.contextWindowExpiry x) s
         = .next (updBay x (fun b => { b with context := none })
             { s with cache := s.cache.map (CacheSet.mapLines fun l =>
                 if l.valid ∧ l.bay = x ∧ l.state = .parked then Line.invalid else l) })))
  ∧ (∀ s : State,
       exec .uptimeTick s = .next { s with time := { s.time with uptime := min 4294967295 (s.time.uptime + 1) } }
       ∧ exec .ageTick s = .next { s with cache := s.cache.map (CacheSet.mapLines fun l =>
           if l.valid then { l with age := min 255 (l.age + 1) } else l) })

/-! ### Handover and the bay commands -/

/-- R26, R29: an evaluation of ONLINE bay `x` that is refused, for a latch that opens and for Bay Release: the bay stays ONLINE and its refusal
reason is the one given. A latch-open also asserts the refuse indicator and posts SWAP_REFUSED; a Bay Release returns the reason. That the
debounce row stands for the moment at which its timer runs out is the model's (log 3). -/
def Obligations.RefusedHandovers : Prop :=
  ∀ (x : BayId) (r : RefusalReason) (s : State), (s.bays.get x).state = .online → refusalCase s x r →
    (latchTurns s x false → exec (.latchDebounceExpiry x) s
        = .next (post (.swapRefused x) (dRefusal r)
            (updBay x (fun b => { b with latchDeb := none, latch := false, refusal := r, refuse := true }) s)))
    ∧ (accepts s → ∀ b, bayOfByte b = some x → exec (.bayRelease [b]) s
        = .next (ended (updBay x (fun b => { b with refusal := r }) (begun s)) .refused [byteOf (refusalCode r)]))

/-- R26 to R29: an evaluation of ONLINE bay `x` that is carried out, by its kind, for a latch that opens and for Bay Release: the bay is RELEASING
with its switch OFF, its last handover is the kind, its refusal reason NONE and its indicator released; in the cases of a pack alternative the
other bay is ONLINE with its switch ON and TAKE_OVER is posted; BRIDGE_ON is posted where the bridge ran, and a bridge hold leaves it RUNNING
unless a STANDBY bay with its latch closed goes ONLINE by R25. The bays' law is an invariant. That the debounce row stands for the moment at which
its timer runs out is the model's (log 3). That a STANDBY bay takes such an event after the whole handover is the model's (log 10). -/
def Obligations.HandoversCarriedOut : Prop :=
  ∀ (x : BayId) (k : HandoverKind) (s : State), (∀ y, bayLaw s y) → (s.bays.get x).state = .online → handoverCase s x k →
    ∀ i, ((i = .latchDebounceExpiry x ∧ latchTurns s x false) ∨ (accepts s ∧ ∃ b, bayOfByte b = some x ∧ i = .bayRelease [b])) →
      ∃ t, exec i s = .next t
        ∧ (t.bays.get x).state = .releasing ∧ (t.bays.get x).lastHandover = k ∧ (t.bays.get x).refusal = .none
        ∧ (t.bays.get x).refuse = false ∧ t.pp.sw.get x = .off ∧ t.pp.held.get x = false
        ∧ (k = .makeFirst ∨ k = .breakFirst ∨ k = .bridgeThrough →
            (t.bays.get x.other).state = .online ∧ t.pp.sw.get x.other = .on ∧ queued t (.swapDone x.other) dTakeOver)
        ∧ (k = .bridgeThrough → t.pp.bridge = .idle ∧ queued t .bridgeOn (dBridge .through))
        ∧ (k = .bridgeHold → queued t .bridgeOn (dBridge .hold)
            ∧ (¬ ((s.bays.get x.other).state = .standby ∧ (s.bays.get x.other).latch = true) →
                t.pp.bridge = .running ∧ t.pp.lowpwr = true))
        ∧ (∀ b, i = .bayRelease [b] → t.port.slot = .pending { code := .ok, data := [byteOf (handoverCode k)] })

/-- R43 to R45: the bay commands in a state that does not take them are answered STATE, and Bay Probe on a link with a background operation BUSY;
nothing else changes. R44: Bay Return of a RELEASING bay with its latch closed: ONLINE with the switch ON where the paralleling rule allows, else
STANDBY; the result names the state reached. R45, R62, R65: Bay Probe taken in FAULTED or STANDBY: ACCEPTED, PROBING with cause BAY_PROBE, the
count cleared, the snapshot and the switch kept, the probe a background operation, and no line of the bay FRESH. R72: where the map tags no probe
code the probe completes at once on the values that the snapshot keeps: the pack is placed as a fresh insertion with LINK_DONE ADMITTED, or the
bay is FAULTED with reason ADMISSION and LINK_DONE NOT_ADMITTED. -/
def Obligations.BayReturnAndBayProbe : Prop :=
  (∀ (x : BayId) (b : Byte) (s : State), bayOfByte b = some x → accepts s →
     ((s.bays.get x).state ≠ .online → exec (.bayRelease [b]) s = .next (ended (begun s) .state []))
     ∧ (¬ ((s.bays.get x).state = .releasing ∧ (s.bays.get x).latch = true) →
         exec (.bayReturn [b]) s = .next (ended (begun s) .state []))
     ∧ ((s.bays.get x).state ≠ .faulted → (s.bays.get x).state ≠ .standby →
         exec (.bayProbe [b]) s = .next (ended (begun s) .state []))
     ∧ (((s.bays.get x).state = .faulted ∨ (s.bays.get x).state = .standby) → background s x = true →
         exec (.bayProbe [b]) s = .next (ended (begun s) .busy [])))
  ∧ (∀ (x : BayId) (b : Byte) (s : State), bayOfByte b = some x → accepts s → (s.bays.get x).state = .releasing →
       (s.bays.get x).latch = true →
       ∃ t, exec (.bayReturn [b]) s = .next t
         ∧ (parallelAllows x s = true → (t.bays.get x).state = .online ∧ t.pp.sw.get x = .on
             ∧ t.port.slot = .pending { code := .ok, data := [4] })
         ∧ (parallelAllows x s = false → (t.bays.get x).state = .standby ∧ t.port.slot = .pending { code := .ok, data := [3] }))
  ∧ (∀ (x : BayId) (b : Byte) (s : State), bayOfByte b = some x → accepts s →
       ((s.bays.get x).state = .faulted ∨ (s.bays.get x).state = .standby) → background s x = false →
       ∃ t, exec (.bayProbe [b]) s = .next t
         ∧ t.port.slot = .pending { code := .accepted, data := [] } ∧ (t.bays.get x).probeCause = .bayProbe
         ∧ (t.relays.get x).failCount = 0 ∧ (t.relays.get x).snap = (s.relays.get x).snap
         ∧ (probeReads s ≠ [] → (t.bays.get x).state = .probing
             ∧ (t.relays.get x).probe = some { reads := probeReads s, attempts := 0, background := true }
             ∧ background t x = true ∧ t.pp = s.pp ∧ t.bays.get x.other = s.bays.get x.other ∧ (∀ cs ∈ t.cache, noFreshSet x cs))
         ∧ (probeReads s = [] → (t.relays.get x).probe = none ∧ background t x = false
             ∧ (admissionOk s x = true → (t.bays.get x).faultReason = .none ∧ queued t (.linkDone x) dAdmitted ∧ placedFresh x s t
                 ∧ t.cache = s.cache.map (CacheSet.mapLines fun l => if l.valid ∧ l.bay = x then
                     (match l.state with
                       | .fresh => { l with state := .suspect }
                       | .parked => if contextMatches s x then { l with state := .fresh } else Line.invalid
                       | .suspect => l)
                     else l))
             ∧ (admissionOk s x = false → (t.bays.get x).state = .faulted ∧ (t.bays.get x).faultReason = .admission
                 ∧ queued t (.bayFault x) (dFault .admission) ∧ queued t (.linkDone x) dNotAdmitted
                 ∧ (t.bays.get x).context = (s.bays.get x).context ∧ (∀ cs ∈ t.cache, noFreshSet x cs))))

/-! ### Polls, probes, the slot and pack transactions -/

/-- R60: at the end of the poll period the timer restarts with the value in effect, and each bay that meets the five conditions becomes due;
nothing else changes. That the row stands for the moment at which its timer runs out is the model's (log 3). R61, R55, R71: a due poll on a free
link takes the code at the pointer, steps the pointer round the ring, and starts a READ_VALUE under the map in service with LINK_TIMEOUT_ms; with
the presence line released it ends LOST at its start. Otherwise nothing happens. R61, R55: the further attempt of a failed poll is made with its
own code when the link is free and the bay still polled; a bay that has left STANDBY, ONLINE and RELEASING, or is under Link Recover, ends the
poll; a busy link or an attempt in flight leaves all as it is. -/
def Obligations.PollsComeDueStartAndRetry : Prop :=
  (∀ s : State, ∃ t, exec .pollPeriodExpiry s = .next t
     ∧ t.pollTimer = pollPeriod s
     ∧ (∀ x, (becomesDue s x → t.relays.get x = { s.relays.get x with pollDue := true })
         ∧ (¬ becomesDue s x → t.relays.get x = s.relays.get x))
     ∧ { t with pollTimer := s.pollTimer, relays := s.relays } = s)
  ∧ (∀ (x : BayId) (s : State),
       (¬ ((s.relays.get x).pollDue = true ∧ (s.relays.get x).link = none ∧ (s.relays.get x).slot = none) →
         exec (.pollStart x) s = .next s)
       ∧ ((s.relays.get x).ring[(s.relays.get x).ptr]? = none → exec (.pollStart x) s = .next s)
       ∧ ∀ c, (s.relays.get x).pollDue = true → (s.relays.get x).link = none → (s.relays.get x).slot = none →
           (s.relays.get x).ring[(s.relays.get x).ptr]? = some c →
           exec (.pollStart x) s = .next (updRelay x (fun r =>
             if (s.bays.get x).presLine then
               { r with pollDue := false, ptr := (r.ptr + 1) % r.ring.length,
                        poll := some { code := c, gov := governing s.mapInst (mapInService s) c, attempts := 1 },
                        link := some { req := { kind := .readValue, code := c, payload := [],
                                                gov := governing s.mapInst (mapInService s) c },
                                       purpose := .poll, timeout := linkTimeoutMs s } }
             else { r with pollDue := false, ptr := (r.ptr + 1) % r.ring.length, poll := none }) s))
  ∧ (∀ (x : BayId) (s : State),
       ((s.relays.get x).poll = none → exec (.pollRetry x) s = .next s)
       ∧ ∀ p, (s.relays.get x).poll = some p →
         (pollInFlight (s.relays.get x) = true → exec (.pollRetry x) s = .next s)
         ∧ (pollInFlight (s.relays.get x) = false →
             ((steady (s.bays.get x).state = false ∨ (s.relays.get x).recover ≠ .notRunning) →
               exec (.pollRetry x) s = .next (updRelay x (fun r => { r with poll := none }) s))
             ∧ (steady (s.bays.get x).state = true → (s.relays.get x).recover = .notRunning →
                 (¬ ((s.relays.get x).link = none ∧ (s.relays.get x).slot = none) → exec (.pollRetry x) s = .next s)
                 ∧ ((s.relays.get x).link = none → (s.relays.get x).slot = none →
                     exec (.pollRetry x) s = .next (updRelay x (fun r =>
                       if (s.bays.get x).presLine then
                         { r with poll := some { p with attempts := p.attempts + 1 },
                                  link := some { req := { kind := .readValue, code := p.code, payload := [], gov := p.gov },
                                                 purpose := .poll, timeout := linkTimeoutMs s } }
                       else { r with poll := none }) s)))))

/-- R62, R55: the next read of a probe starts on a free link of a PROBING bay, counting one attempt; with the presence line released it is LOST
and the probe is abandoned. Otherwise nothing happens. R57, R55: an idle link takes its slot: the transaction starts while the bay is served, and
is refused without traffic where it is not or where the presence line is released; the slot is empty afterwards. A busy link or an empty slot
leaves all as it is. -/
def Obligations.ProbeReadsAndSlotsStart : Prop :=
  (∀ (x : BayId) (s : State),
     (¬ ((s.bays.get x).state = .probing ∧ (s.relays.get x).link = none ∧ (s.relays.get x).slot = none) →
       exec (.probeReadStart x) s = .next s)
     ∧ ((∀ p, (s.relays.get x).probe = some p → p.reads = []) → exec (.probeReadStart x) s = .next s)
     ∧ ∀ p r rest, (s.relays.get x).probe = some p → p.reads = r :: rest → (s.bays.get x).state = .probing →
         (s.relays.get x).link = none → (s.relays.get x).slot = none →
         exec (.probeReadStart x) s = .next (updRelay x (fun q =>
           if (s.bays.get x).presLine then
             { q with probe := some { p with attempts := p.attempts + 1 },
                      link := some { req := { kind := .readValue, code := r.code, payload := [], gov := r.gov },
                                     purpose := .probe, timeout := linkTimeoutMs s } }
           else { q with probe := none }) s))
  ∧ (∀ (x : BayId) (s : State),
       ((s.relays.get x).slot = none → exec (.slotTransactionStart x) s = .next s)
       ∧ ((s.relays.get x).link ≠ none → exec (.slotTransactionStart x) s = .next s)
       ∧ ∀ q, (s.relays.get x).slot = some q → (s.relays.get x).link = none →
           (served s x = true → (s.bays.get x).presLine = true →
             exec (.slotTransactionStart x) s = .next (updRelay x (fun r =>
               { r with slot := none, link := some { req := q, purpose := .platform, timeout := linkTimeoutMs s } }) s))
           ∧ (¬ (served s x = true ∧ (s.bays.get x).presLine = true) →
               exec (.slotTransactionStart x) s
                 = .next { updRelay x (fun r => { r with slot := none }) s with upstream := { tx := none, answer := .refused } }))

/-- R54: the outcome of each reply: a refused byte is NACK; a value is DONE for READ_VALUE, acknowledgement of every byte for a write; a block
length of 1 to 32 is DONE and any other NACK. A reply of another kind than the transaction's completes nothing, which is the model's (log 20).
R54, R58, R61, R64: a NACK or TIMEOUT makes the link idle and counts 1, up to FAULT_LIMIT, and leaves the snapshot. A count that reaches the limit
in PROBING, STANDBY, ONLINE or RELEASING faults the bay with reason LINK; below the limit a platform transaction or a poll changes no bay and no
switch, and of the cache only the line of a failed WRITE_VALUE. The master of a platform transaction is refused. A poll stays for a further
attempt while the limit is not reached, its retries are not spent, its bay is in STANDBY, ONLINE or RELEASING, and no Link Recover runs (R66); it
ends otherwise. The count below FAULT_LIMIT that a probe failed by its retries leaves is the model's (log 38). That a timeout row stands for the
end of its timer (log 3), and that a failed poll is judged by the bay's state at the outcome alone (log 45), are the model's. -/
def Obligations.RepliesGiveOutcomesAndFailuresCount : Prop :=
  ((∀ k, resultOf k .refusedByte = some .nack)
   ∧ (∀ lo hi, resultOf .readValue (.value lo hi) = some (.doneValue (hi ++ lo)))
   ∧ resultOf .writeValue .wrote = some .doneWrite ∧ resultOf .writeBlock .wrote = some .doneWrite
   ∧ (∀ len bytes, 1 ≤ len.toNat → len.toNat ≤ 32 → resultOf .readBlock (.block len bytes) = some (.doneBlock len bytes))
   ∧ (∀ len bytes, len.toNat = 0 ∨ 32 < len.toNat → resultOf .readBlock (.block len bytes) = some .nack)
   ∧ (∀ (x : BayId) (reply : PackReply) (s : State), (s.relays.get x).link = none →
       exec (.packTransactionEnd x reply) s = .next s ∧ exec (.linkTimeout x) s = .next s)
   ∧ (∀ (x : BayId) (reply : PackReply) (s : State) (tx : PackTx), (s.relays.get x).link = some tx →
       resultOf tx.req.kind reply = none → exec (.packTransactionEnd x reply) s = .next s))
  ∧ (∀ (x : BayId) (s : State) (tx : PackTx) (i : Instr), (s.relays.get x).link = some tx →
       (i = .linkTimeout x ∨ ∃ reply, i = .packTransactionEnd x reply ∧ resultOf tx.req.kind reply = some .nack) →
       ∃ t, exec i s = .next t
         ∧ (t.relays.get x).link = none ∧ (t.relays.get x).snap = (s.relays.get x).snap
         ∧ (t.relays.get x).failCount = min ((s.relays.get x).failCount + 1) (faultLimit s)
         ∧ (faultLimit s ≤ (s.relays.get x).failCount + 1 → servedState (s.bays.get x).state = true →
             (t.bays.get x).state = .faulted ∧ (t.bays.get x).faultReason = .link ∧ queued t (.bayFault x) (dFault .link)
               ∧ (t.pp.sw.get x = .off ∨ t.pp.held.get x = true) ∧ (∀ cs ∈ t.cache, noFreshSet x cs))
         ∧ ((s.relays.get x).failCount + 1 < faultLimit s → tx.purpose ≠ .probe →
             t.bays = s.bays ∧ t.pp = s.pp ∧ t.attn = s.attn
               ∧ t.cache = (if tx.purpose = .platform ∧ tx.req.kind = .writeValue then (cacheFailedWrite x tx.req.code s).cache
                   else s.cache))
         ∧ (tx.purpose = .platform → ∀ u n, s.upstream.tx = some u → u.stage = .stretched n →
             t.upstream = { tx := none, answer := .refused })
         ∧ (tx.purpose = .poll → ∀ p, (s.relays.get x).poll = some p → (t.relays.get x).poll
             = if (s.relays.get x).failCount + 1 < faultLimit s ∧ p.attempts ≤ linkRetries s ∧ steady (s.bays.get x).state = true
                 ∧ (s.relays.get x).recover = .notRunning then some p else none))

/-- R58, R61, R63, R89 to R91: a DONE READ_VALUE of a platform transaction or a poll clears the count, replaces the snapshot value under its tag,
and is filled into the cache where its class is TIMED or FIXED, its map instance is still in service and the bay is in STANDBY, ONLINE or
RELEASING. The master gets the two bytes, low byte first, and FFh beyond. A tag other than VOLTAGE changes no bay and no switch. R25, R63: a DONE
read of a VOLTAGE value of either bay, for any purpose but the last read of a probe (O33), takes a STANDBY bay with its latch closed to ONLINE
where the paralleling rule now allows, with its switch ON and SWAP_DONE TAKE_OVER posted: bay A first, and bay B against the switch that A then
has ON. Where neither joins, no bay and no switch changes. That A goes before B is the model's (log 28). -/
def Obligations.ReadsThatSucceed : Prop :=
  (∀ (x : BayId) (s : State) (tx : PackTx) (lo hi : Byte), (s.relays.get x).link = some tx → tx.req.kind = .readValue →
     (tx.purpose = .platform ∨ tx.purpose = .poll) →
     ∃ t, exec (.packTransactionEnd x (.value lo hi)) s = .next t
       ∧ (t.relays.get x).link = none ∧ (t.relays.get x).failCount = 0
       ∧ (t.relays.get x).snap = snapAfter s x tx.req.gov.tag (hi ++ lo)
       ∧ t.cache = (if tx.req.gov.cls ≠ .none ∧ tx.req.gov.inst = s.mapInst ∧ steady (s.bays.get x).state = true then
             s.cache.set (setOf tx.req.code) ((cacheSet s.cache (setOf tx.req.code)).fill x tx.req.code (hi ++ lo))
           else s.cache)
       ∧ (tx.req.gov.tag ≠ .voltage → t.bays = s.bays ∧ t.pp = s.pp)
       ∧ (tx.purpose = .poll → (t.relays.get x).poll = none ∧ t.upstream = s.upstream)
       ∧ (tx.purpose = .platform → ∀ u n, s.upstream.tx = some u → u.stage = .stretched n →
           t.upstream = { tx := none, answer := .data (([lo, hi] ++ List.replicate n 0xFF).take n) }))
  ∧ (∀ (x : BayId) (s u : State) (tx : PackTx) (lo hi : Byte), (s.relays.get x).link = some tx → tx.req.kind = .readValue →
       tx.req.gov.tag = .voltage →
       (tx.purpose = .probe → ∃ p r r' rest, (s.relays.get x).probe = some p ∧ p.reads = r :: r' :: rest) →
       u = withSnap x (snapAfter s x .voltage (hi ++ lo)) s →
       ∃ t, exec (.packTransactionEnd x (.value lo hi)) s = .next t
         ∧ (joins u .A → tookOver t .A)
         ∧ (joins u .B → ¬ joins u .A → tookOver t .B)
         ∧ (joins u .A → (u.bays.get .B).state = .standby → (u.bays.get .B).latch = true → voltsClose u = true → tookOver t .B)
         ∧ (joins u .A → (u.bays.get .B).state = .standby → (u.bays.get .A).presence = true → voltsClose u = false →
             (t.bays.get .B).state = .standby)
         ∧ (¬ joins u .A → ¬ joins u .B → t.bays = s.bays ∧ t.pp = s.pp))

/-- R58, R92: a DONE WRITE_VALUE, READ_BLOCK or WRITE_BLOCK of a platform transaction clears the count and leaves the snapshot, the bays and the
switches; the write of a value is handed to the cache, a block is not. The master is acknowledged, or gets the length byte and the bytes. -/
def Obligations.WritesAndBlocksThatSucceed : Prop :=
  ∀ (x : BayId) (s : State) (tx : PackTx) (reply : PackReply) (r : TxResult), (s.relays.get x).link = some tx →
    tx.purpose = .platform → tx.req.kind ≠ .readValue → resultOf tx.req.kind reply = some r → r.failed = false →
    ∃ t, exec (.packTransactionEnd x reply) s = .next t
      ∧ (t.relays.get x).link = none ∧ (t.relays.get x).failCount = 0 ∧ (t.relays.get x).snap = (s.relays.get x).snap
      ∧ t.bays = s.bays ∧ t.pp = s.pp ∧ t.attn = s.attn ∧ t.budget = s.budget
      ∧ (tx.req.kind ≠ .writeValue → t.cache = s.cache)
      ∧ (∀ lo hi, tx.req.kind = .writeValue → tx.req.payload = [lo, hi] →
          t.cache = (cacheWrite x tx.req.code tx.req.gov (hi ++ lo) s).cache)
      ∧ (∀ u n, s.upstream.tx = some u → u.stage = .stretched n →
          (r = .doneWrite → t.upstream = { tx := none, answer := .acknowledged })
          ∧ (∀ len bytes, r = .doneBlock len bytes →
              t.upstream = { tx := none, answer := .data (((len :: bytes) ++ List.replicate n 0xFF).take n) }))

/-- R62: a DONE probe read that is not the last takes the probe to its next read with the attempts from 0; a failed one below FAULT_LIMIT is left
for another attempt, and one whose attempts are spent faults the bay with reason LINK. -/
def Obligations.ProbeReadsAdvanceOrFail : Prop :=
  ∀ (x : BayId) (s : State) (tx : PackTx) (p : Probe) (r : ProbeRead) (rest : List ProbeRead),
    (s.bays.get x).state = .probing → (s.relays.get x).link = some tx → tx.purpose = .probe → tx.req.kind = .readValue →
    (s.relays.get x).probe = some p → p.reads = r :: rest →
    (∀ lo hi, rest ≠ [] → ∃ t, exec (.packTransactionEnd x (.value lo hi)) s = .next t
        ∧ (t.relays.get x).probe = some { p with reads := rest, attempts := 0 } ∧ (t.bays.get x).state = .probing
        ∧ (t.relays.get x).snap = snapAfter s x tx.req.gov.tag (hi ++ lo) ∧ (t.relays.get x).failCount = 0 ∧ t.cache = s.cache)
    ∧ ((s.relays.get x).failCount + 1 < faultLimit s → p.attempts < linkRetries s + 1 → ∃ t, exec (.linkTimeout x) s = .next t
        ∧ (t.relays.get x).probe = some p ∧ t.bays = s.bays ∧ t.cache = s.cache)
    ∧ (linkRetries s + 1 ≤ p.attempts → ∃ t, exec (.linkTimeout x) s = .next t
        ∧ (t.bays.get x).state = .faulted ∧ (t.bays.get x).faultReason = .link ∧ queued t (.bayFault x) (dFault .link)
        ∧ ((s.bays.get x).probeCause = .bayProbe → queued t (.linkDone x) dLinkFailed))

/-- R22, R23, R35, R39: after the last read of a probe the values present in the snapshot decide: a failing one faults the bay with reason
ADMISSION; otherwise, for a cause other than JOLT_RETURN, the context is matched and consumed, and the bay is ONLINE with SWAP_DONE where its
latch is closed and the paralleling rule allows, and STANDBY otherwise. A Bay Probe ends with LINK_DONE. R99: where the context matches, both
serials being present and equal, the bay's PARKED lines become FRESH; otherwise they are invalidated. R25: where that read is tagged VOLTAGE, the
other bay, STANDBY with its latch closed, first goes ONLINE if the paralleling rule now allows (the model's order, log 28). -/
def Obligations.AdmissionPlacesThePack : Prop :=
  ∀ (x : BayId) (s u : State) (g : Tag) (lo hi : Byte) (n : Snapshot), lastProbeRead s x g →
    n = snapAfter s x g (hi ++ lo) → u = beforePlacing x g n s →
    (admissionOk u x = true ↔
      (∀ v, n.voltage = some v → vMin s ≤ v.toNat ∧ v.toNat ≤ vMax s) ∧ (∀ v, n.status = some v → v &&& statusFaultMask s = 0)
        ∧ (∀ v, n.temperature = some v → v.toInt < tempMax s))
    ∧ (admissionOk u x = false → ∃ t, exec (.packTransactionEnd x (.value lo hi)) s = .next t
        ∧ (t.bays.get x).state = .faulted ∧ (t.bays.get x).faultReason = .admission
        ∧ queued t (.bayFault x) (dFault .admission) ∧ (t.bays.get x).context = (s.bays.get x).context
        ∧ ((s.bays.get x).probeCause = .bayProbe → queued t (.linkDone x) dNotAdmitted)
        ∧ (g = .voltage → joins (withSnap x n s) x.other → tookOver t x.other))
    ∧ (admissionOk u x = true → (s.bays.get x).probeCause ≠ .joltReturn →
        ∃ t, exec (.packTransactionEnd x (.value lo hi)) s = .next t
          ∧ (t.bays.get x).faultReason = .none ∧ (t.relays.get x).probe = none
          ∧ t.cache = s.cache.map (CacheSet.mapLines fun l => if l.valid ∧ l.bay = x ∧ l.state = .parked then
              (if contextMatches u x then { l with state := .fresh } else Line.invalid) else l)
          ∧ (contextMatches u x = true ↔ ∃ c v, (s.bays.get x).context = some c ∧ c.serial = some v ∧ n.serial = some v)
          ∧ ((s.bays.get x).probeCause = .bayProbe → queued t (.linkDone x) dAdmitted)
          ∧ placedFresh x u t
          ∧ (g = .voltage → joins (withSnap x n s) x.other → tookOver t x.other))

/-- R37: a probe of cause JOLT_RETURN whose pack passes admission posts JOLT and clears the jolt record. SAME, with both serials present and
equal: a bay that was ONLINE with its switch still ON is ONLINE where its latch is closed; with its latch open it is evaluated at once (R26), and
so refused with SWAP_REFUSED, released by its kind, or deferred in the drop window. One that was ONLINE with its switch turned OFF is placed by
step 3 of R23. One that was STANDBY is ONLINE with TAKE_OVER where its latch is closed and the paralleling rule allows (R25), and STANDBY
otherwise. One that was PROBING is placed as a fresh insertion. DIFFERENT: every line of the bay is invalid and the pack is placed as a fresh
insertion. Where the last read is tagged VOLTAGE the other bay has first gone ONLINE by R25 if it may (log 28). The bay law is an invariant. That
its refusal asserts the indicator and posts SWAP_REFUSED is the model's, since R29 does not name this event (log 44). -/
def Obligations.JoltReturnsAreSettled : Prop :=
  ∀ (x : BayId) (s u : State) (g : Tag) (lo hi : Byte) (n : Snapshot) (j : JoltRecord), lastProbeRead s x g →
    n = snapAfter s x g (hi ++ lo) → u = beforePlacing x g n s → admissionOk u x = true → (s.bays.get x).probeCause = .joltReturn →
    (s.bays.get x).jolt = some j →
    ∃ t, exec (.packTransactionEnd x (.value lo hi)) s = .next t
      ∧ (t.bays.get x).jolt = none ∧ (t.bays.get x).faultReason = .none
      ∧ (g = .voltage → joins (withSnap x n s) x.other → tookOver t x.other)
      ∧ ((∃ v, j.serial = some v ∧ n.serial = some v) →
          queued t (.jolt x) dSame
          ∧ (j.earlier = .online → u.pp.sw.get x = .on →
              ((s.bays.get x).latch = true → (t.bays.get x).state = .online ∧ t.pp.sw.get x = .on)
              ∧ ((s.bays.get x).latch = false →
                  (∀ r, refusalCase u x r → (t.bays.get x).state = .online ∧ t.pp.sw.get x = .on ∧ (t.bays.get x).refusal = r
                    ∧ (t.bays.get x).refuse = true ∧ queued t (.swapRefused x) (dRefusal r))
                  ∧ (∀ k, (∀ y, bayLaw s y) → handoverCase u x k → (t.bays.get x).state = .releasing ∧ (t.bays.get x).lastHandover = k
                    ∧ (t.bays.get x).refusal = .none ∧ t.pp.sw.get x = .off)
                  ∧ (holdSwap s x = false → s.motion.window ≠ .closed → (t.bays.get x).state = .online ∧ t.pp.sw.get x = .on
                    ∧ (t.bays.get x).deferred = true ∧ (t.bays.get x).refusal = (s.bays.get x).refusal)))
          ∧ (j.earlier = .online → u.pp.sw.get x ≠ .on → placedByLatch x u t)
          ∧ (j.earlier = .standby → placedByLatch x u t ∧ ((s.bays.get x).latch = true → parallelAllows x u = true → queued t (.swapDone x) dTakeOver))
          ∧ (j.earlier ≠ .probing → t.cache = s.cache ∧ (t.bays.get x).context = (s.bays.get x).context)
          ∧ (j.earlier = .probing → placedFresh x u t))
      ∧ ((¬ ∃ v, j.serial = some v ∧ n.serial = some v) →
          queued t (.jolt x) dDifferent ∧ placedFresh x u t
          ∧ (∀ cs ∈ t.cache, ∀ w, ¬ ((cs.get w).valid = true ∧ (cs.get w).bay = x)))

/-- R66: Link Recover by bay state: STATE in EMPTY, SEATING and JOLT; BUSY in PROBING and while one runs; otherwise ACCEPTED, with a pending poll
and an unmade retry dropped, waiting for a transaction in flight or pulsing at once. That a command taken while the raw presence line is already
released, its debounce running, is so accepted and runs on is the model's (log 36). R66, R67: a waiting recovery begins when its link is idle. A
running one ends with RECOVER_OK where the data line was released at a test before any pulse or after one to sixteen: the count clears, and a bay
FAULTED with reason LINK goes to PROBING with cause INSERTION; where the map tags no probe code the probe completes at once, and the pack is
placed as a fresh insertion or refused admission (R62, R72). Otherwise with RECOVER_FAIL and nothing else. That LINK_RECOVER_END is one row that
carries the outcome of the pulses is the model's (log 19). -/
def Obligations.LinkRecoverIsTakenAndRuns : Prop :=
  (∀ (x : BayId) (b : Byte) (s : State), bayOfByte b = some x → accepts s →
     (((s.bays.get x).state = .empty ∨ (s.bays.get x).state = .seating ∨ (s.bays.get x).state = .jolt) →
       exec (.linkRecover [b]) s = .next (ended (begun s) .state []))
     ∧ ((s.bays.get x).state = .probing → exec (.linkRecover [b]) s = .next (ended (begun s) .busy []))
     ∧ ((steady (s.bays.get x).state = true ∨ (s.bays.get x).state = .faulted) →
         ((s.relays.get x).recover ≠ .notRunning → exec (.linkRecover [b]) s = .next (ended (begun s) .busy []))
         ∧ ((s.relays.get x).recover = .notRunning →
             exec (.linkRecover [b]) s = .next (ended (updRelay x (fun r =>
               { r with pollDue := false, poll := if pollInFlight r then r.poll else none,
                        recover := if r.link.isSome then .waiting else .running }) (begun s)) .accepted []))))
  ∧ (∀ (x : BayId) (s : State),
       ((s.relays.get x).recover = .waiting → (s.relays.get x).link = none →
         exec (.linkRecoverBegin x) s = .next (updRelay x (fun r => { r with recover := .running }) s))
       ∧ (¬ ((s.relays.get x).recover = .waiting ∧ (s.relays.get x).link = none) → exec (.linkRecoverBegin x) s = .next s)
       ∧ (∀ o, (s.relays.get x).recover ≠ .running → exec (.linkRecoverEnd x o) s = .next s)
       ∧ ((s.relays.get x).recover = .running →
           exec (.linkRecoverEnd x none) s
             = .next (post (.linkDone x) dRecoverFail (updRelay x (fun r => { r with recover := .notRunning }) s)))
       ∧ (∀ k, (s.relays.get x).recover = .running → k ≤ 16 →
           (¬ ((s.bays.get x).state = .faulted ∧ (s.bays.get x).faultReason = .link) →
             exec (.linkRecoverEnd x (some k)) s
               = .next (post (.linkDone x) dRecoverOk (updRelay x (fun r => { r with recover := .notRunning, failCount := 0 }) s)))
           ∧ ((s.bays.get x).state = .faulted → (s.bays.get x).faultReason = .link → probeReads s ≠ [] →
               ∃ t, exec (.linkRecoverEnd x (some k)) s = .next t ∧ (t.bays.get x).state = .probing
                 ∧ (t.bays.get x).probeCause = .insertion ∧ (t.relays.get x).failCount = 0 ∧ (t.relays.get x).recover = .notRunning
                 ∧ (t.relays.get x).probe = some { reads := probeReads s, attempts := 0, background := false }
                 ∧ t.pp = s.pp ∧ queued t (.linkDone x) dRecoverOk)
           ∧ ((s.bays.get x).state = .faulted → (s.bays.get x).faultReason = .link → probeReads s = [] →
               ∃ t, exec (.linkRecoverEnd x (some k)) s = .next t ∧ (t.bays.get x).probeCause = .insertion
                 ∧ (t.relays.get x).failCount = 0 ∧ (t.relays.get x).recover = .notRunning ∧ (t.relays.get x).probe = none
                 ∧ (t.relays.get x).snap = (s.relays.get x).snap ∧ queued t (.linkDone x) dRecoverOk
                 ∧ (admissionOk s x = true → (t.bays.get x).faultReason = .none ∧ placedFresh x s t)
                 ∧ (admissionOk s x = false → (t.bays.get x).state = .faulted ∧ (t.bays.get x).faultReason = .admission
                     ∧ queued t (.bayFault x) (dFault .admission) ∧ (t.bays.get x).context = (s.bays.get x).context))))

/-! ### Platform transactions and the cache -/

/-- R48 to R52: an address byte in the write direction is acknowledged where the bay it reaches is served, and begins a transaction for that bay
governed by the map in service; otherwise, in the read direction without a code byte, and at any address that is not one of the part's four, it is
refused. A transaction short of its forwarding point is abandoned by it; while one stretches the clock no transaction begins, which is the model's
(log 7, log 8). R180, R181, R183: at MGMT a read is a status read, which returns the status byte; a write is acknowledged. Of the code byte, a
clear block marker is refused; 80h is acknowledged whatever the slot; a command code is acknowledged where the slot is EMPTY and refused
otherwise. After 80h a data byte is refused, and a read address is taken at MGMT and refused at any other address. After a command code the length
byte is acknowledged whatever its value, and then that many parameter bytes; a read address is refused. The last parameter byte, or the length
byte 0, accepts the command, which is executed as its row; a byte beyond it is refused. Nothing else changes. That these bytes come in the rows of
platform bytes is the model's (log 37). The row of a whole transaction at MGMT: a command write, or a result read for code byte 80h read at MGMT.
-/
def Obligations.AddressByteIsTaken : Prop :=
  (∀ (a : Addr) (s : State),
    (upStretched s = true → ∀ r, exec (.platformAddress a r) s = .next { s with upstream := { s.upstream with answer := .held } })
    ∧ (upStretched s = false → a ≠ 0x29 →
        exec (.platformAddress a true) s = .next { s with upstream := { tx := none, answer := .refused } })
    ∧ (upStretched s = false → ∀ x, ((a = 0x2A ∧ x = .A) ∨ (a = 0x2B ∧ x = .B)) →
        (served s x = true → exec (.platformAddress a false) s = .next { s with upstream := {
            tx := some { addr := a, bay := x, inst := s.mapInst, map := mapInService s, stage := .addressed },
            answer := .acknowledged } })
        ∧ (served s x = false → exec (.platformAddress a false) s = .next { s with upstream := { tx := none, answer := .refused } }))
    ∧ (upStretched s = false → a = 0x2D →
        (∀ x, chooseActive s = some x → exec (.platformAddress a false) s = .next { s with upstream := {
            tx := some { addr := a, bay := x, inst := s.mapInst, map := mapInService s, stage := .addressed },
            answer := .acknowledged } })
        ∧ (chooseActive s = none → exec (.platformAddress a false) s = .next { s with upstream := { tx := none, answer := .refused } }))
    ∧ (upStretched s = false → a ≠ 0x29 → a ≠ 0x2A → a ≠ 0x2B → a ≠ 0x2D →
        exec (.platformAddress a false) s = .next { s with upstream := { tx := none, answer := .refused } })
    ∧ (upStretched s = false → a = 0x29 →
        exec (.platformAddress a false) s
          = .next { s with upstream := { tx := none, mgmt := some .addressed, answer := .acknowledged } }
        ∧ exec (.platformAddress a true) s = .next { s with upstream := { tx := none, answer := .data [statusByte s] } }))
  ∧ (∀ (b : Byte) (s : State), s.upstream.tx = none → s.upstream.mgmt = some .addressed →
      (b.getLsbD 7 = false → exec (.codeByteCheck b) s = .next { s with upstream := { tx := none, answer := .refused } })
      ∧ (b = 0x80 → exec (.codeByteCheck b) s
          = .next { s with upstream := { tx := none, mgmt := some .resultNamed, answer := .acknowledged } })
      ∧ (b.getLsbD 7 = true → b ≠ 0x80 →
          (s.port.slot = .empty → exec (.codeByteCheck b) s
            = .next { s with upstream := { tx := none, mgmt := some (.command (b.setWidth 7)), answer := .acknowledged } })
          ∧ (s.port.slot ≠ .empty →
              exec (.codeByteCheck b) s = .next { s with upstream := { tx := none, answer := .refused } })))
  ∧ (∀ (a : Addr) (s : State), s.upstream.tx = none → s.upstream.mgmt = some .resultNamed →
      (∀ b, exec (.permitCheck (.writeByte b)) s = .next { s with upstream := { tx := none, answer := .refused } })
      ∧ (a = 0x29 → exec (.permitCheck (.readAddress a)) s
          = .next { s with upstream := { tx := none, mgmt := some .reading, answer := .acknowledged } })
      ∧ (a ≠ 0x29 → exec (.permitCheck (.readAddress a)) s = .next { s with upstream := { tx := none, answer := .refused } }))
  ∧ (∀ (c : BitVec 7) (b : Byte) (s : State) (i : Instr), s.upstream.tx = none →
      (i = .permitCheck (.writeByte b) ∨ i = .writeBlockLengthRefuse b) →
      (s.upstream.mgmt = some (.command c) →
        (b ≠ 0 → exec i s
          = .next { s with upstream := { tx := none, mgmt := some (.params c b.toNat []), answer := .acknowledged } })
        ∧ (b = 0 → ∀ j, commandRow c [] = some j → exec i s = exec j s))
      ∧ (∀ k got, s.upstream.mgmt = some (.params c (k + 1) got) →
          (k ≠ 0 → exec i s
            = .next { s with upstream := { tx := none, mgmt := some (.params c k (got ++ [b])), answer := .acknowledged } })
          ∧ (k = 0 → ∀ j, commandRow c (got ++ [b]) = some j → exec i s = exec j s))
      ∧ (s.upstream.mgmt = none → exec i s = .next { s with upstream := { tx := none, answer := .refused } }))
  ∧ (∀ (c : BitVec 7) (a : Addr) (s : State), s.upstream.tx = none →
      (s.upstream.mgmt = some (.command c) ∨ ∃ k got, s.upstream.mgmt = some (.params c k got)) →
      exec (.permitCheck (.readAddress a)) s = .next { s with upstream := { tx := none, answer := .refused } })
  ∧ (∀ (i j : Instr) (s : State), completed i s = some j → exec i s = exec j s ∧ completed j s = none)
  ∧ (∀ (b : Byte) (a : Addr) (p : List Byte) (n : Nat),
      ((b.getLsbD 7 = false ∨ b = 0x80) → mgmtWrite b p = none)
      ∧ (b.getLsbD 7 = true → b ≠ 0x80 → mgmtWrite b p = commandRow (b.setWidth 7) p ∧ (mgmtWrite b p).isSome = true)
      ∧ mgmtRead b a n = if b = 0x80 ∧ a = 0x29 then some (.resultRead n) else none)

/-- R48, R73, R75: the code byte of an addressed transaction: a code within the map that carries a permit is acknowledged with its kind marker;
any other is refused, ends the transaction and posts FILTER_DENY with the code. A byte out of its place changes nothing (log 4). R48, R74, R75:
the byte that fixes the direction is tested against the permit for that direction, a failing one being a denial; a read address that names another
address is refused with no permit tested and no denial. That the first byte of a write is acknowledged here whatever its value, a WRITE_BLOCK
length of 0 or above 32 being refused by the row after it, is the model's (log 43). R49: a permitted WRITE_BLOCK with a length byte of 0 or above
32 is refused there with nothing forwarded and nothing posted; a transaction that the master ends before its forwarding point is abandoned,
leaving nothing. -/
def Obligations.CodesPermitsAndEarlyEnds : Prop :=
  (∀ (b : Byte) (s : State),
     (∀ u, s.upstream.tx = some u → u.stage = .addressed →
       (((codeByteCode b).toNat < mapLength u.map
           ∧ ((mapEntry u.map (codeByteCode b)).readPermit = true ∨ (mapEntry u.map (codeByteCode b)).writePermit = true)) →
         exec (.codeByteCheck b) s = .next { s with upstream := {
           tx := some { u with stage := .coded (b.getLsbD 7) (codeByteCode b) }, answer := .acknowledged } })
       ∧ (¬ ((codeByteCode b).toNat < mapLength u.map
           ∧ ((mapEntry u.map (codeByteCode b)).readPermit = true ∨ (mapEntry u.map (codeByteCode b)).writePermit = true)) →
         exec (.codeByteCheck b) s = .next (post (.filterDeny u.bay) (dDenied (codeByteCode b))
           { s with upstream := { tx := none, answer := .refused } })))
     ∧ (s.upstream.tx = none → s.upstream.mgmt = none → exec (.codeByteCheck b) s = .next { s with upstream := { tx := none, answer := .refused } }))
  ∧ (∀ (s : State) (u : UpTx) (block : Bool) (c : Code), s.upstream.tx = some u → u.stage = .coded block c →
       (∀ a, a ≠ u.addr → exec (.permitCheck (.readAddress a)) s = .next { s with upstream := { tx := none, answer := .refused } })
       ∧ ((mapEntry u.map c).readPermit = true → exec (.permitCheck (.readAddress u.addr)) s
           = .next { s with upstream := { tx := some { u with stage := .directed block c false }, answer := .stretched } })
       ∧ ((mapEntry u.map c).readPermit = false → exec (.permitCheck (.readAddress u.addr)) s
           = .next (post (.filterDeny u.bay) (dDenied c) { s with upstream := { tx := none, answer := .refused } }))
       ∧ ((mapEntry u.map c).writePermit = true → ∀ b, exec (.permitCheck (.writeByte b)) s
           = .next { s with upstream := { tx := some { u with stage := .directed block c true }, answer := .acknowledged } })
       ∧ ((mapEntry u.map c).writePermit = false → ∀ b, exec (.permitCheck (.writeByte b)) s
           = .next (post (.filterDeny u.bay) (dDenied c) { s with upstream := { tx := none, answer := .refused } })))
  ∧ ((∀ (len : Byte) (s : State) (u : UpTx) (c : Code), s.upstream.tx = some u → u.stage = .directed true c true →
       ((len.toNat = 0 ∨ 32 < len.toNat) →
         exec (.writeBlockLengthRefuse len) s = .next { s with upstream := { tx := none, answer := .refused } })
       ∧ (1 ≤ len.toNat → len.toNat ≤ 32 →
         exec (.writeBlockLengthRefuse len) s = .next { s with upstream := { s.upstream with answer := .acknowledged } }))
     ∧ ∀ s : State, upStretched s = false → exec .transactionAbandon s = .next { s with upstream := { tx := none, answer := .none } })

/-- R50, R53, R55, R57: at its forwarding point a transaction that the cache does not serve starts on an idle link with LINK_TIMEOUT_ms, or enters
the slot of a busy one, and the master stays stretched; with the presence line released it is LOST at its start and refused. A bay no longer
served refuses it there. -/
def Obligations.ForwardingPoint : Prop :=
  ∀ (i : Instr) (k : TxKind) (bytes : List Byte) (n : Nat) (c : Code) (u : UpTx) (s : State),
    forwards i k bytes n → s.upstream.tx = some u → directedFor u k c →
    (served s u.bay = false → exec i s = .next { s with upstream := { tx := none, answer := .refused } })
    ∧ (served s u.bay = true →
        (k = .readValue → steady (s.bays.get u.bay).state = true →
          cacheServes s u.bay c (governing u.inst u.map c) = none) →
        ((s.relays.get u.bay).link = none → (s.bays.get u.bay).presLine = true →
          exec i s = .next (updRelay u.bay (fun r => { r with
              link := some { req := { kind := k, code := c, payload := bytes, gov := governing u.inst u.map c },
                             purpose := .platform, timeout := linkTimeoutMs s } })
            { s with upstream := { tx := some { u with stage := .stretched n }, answer := .stretched } }))
        ∧ ((s.relays.get u.bay).link = none → (s.bays.get u.bay).presLine = false →
          exec i s = .next { s with upstream := { tx := none, answer := .refused } })
        ∧ ((s.relays.get u.bay).link ≠ none →
          exec i s = .next (updRelay u.bay (fun r => { r with
              slot := some { kind := k, code := c, payload := bytes, gov := governing u.inst u.map c } })
            { s with upstream := { tx := some { u with stage := .stretched n }, answer := .stretched } })))

/-- R53, R87, R88, R91: a READ_VALUE of a bay in STANDBY, ONLINE or RELEASING is served from a FRESH line of class FIXED, or of class TIMED
younger than the maximum age, without the link: the two bytes are returned, the set's replacement bits point away from the way, and nothing else
changes. A miss, a SUSPECT or PARKED line, a line too old, and class NONE are not served. R85, R86, R89 to R91: on a lawful set, a fill puts the
value into the line of the bay and code, FRESH with age 0; a hit keeps its way, a miss takes the first invalid way, and a full set the victim that
S0, S1 and S2 name; the other ways stay, and the bits point away from the way. R86, R92, R93: the way that holds a bay and code. A write-through
that is governed by the map in service gives a FRESH or SUSPECT line of a bay in STANDBY, ONLINE or RELEASING the value, FRESH with age 0, and
invalidates the line of a bay in another state; a failed write makes a FRESH line SUSPECT. A miss and a write under another map change nothing,
and the replacement bits stay. -/
def Obligations.CacheServesAndFills : Prop :=
  ((∀ (n : Nat) (c : Code) (u : UpTx) (s : State) (w : Way) (v : Half),
     s.upstream.tx = some u → directedFor u .readValue c → served s u.bay = true → steady (s.bays.get u.bay).state = true →
     cacheServes s u.bay c (governing u.inst u.map c) = some (w, v) →
     exec (.readValue n) s = .next { s with
       cache := s.cache.set (setOf c) ((cacheSet s.cache (setOf c)).touch w),
       upstream := { tx := none, answer := .data ((le16 v.toNat ++ List.replicate n 0xFF).take n) } })
   ∧ ∀ (s : State) (x : BayId) (c : Code) (g : Governing),
     ((cacheSet s.cache (setOf c)).find x c = none → cacheServes s x c g = none)
     ∧ ∀ w, (cacheSet s.cache (setOf c)).find x c = some w →
       (((cacheSet s.cache (setOf c)).get w).state = .fresh →
         (g.cls = .fixed ∨ (g.cls = .timed ∧ ((cacheSet s.cache (setOf c)).get w).age < g.maxAge)) →
         cacheServes s x c g = some (w, ((cacheSet s.cache (setOf c)).get w).value))
       ∧ ((((cacheSet s.cache (setOf c)).get w).state ≠ .fresh ∨ g.cls = .none
           ∨ (g.cls = .timed ∧ g.maxAge ≤ ((cacheSet s.cache (setOf c)).get w).age)) → cacheServes s x c g = none))
  ∧ (∀ (cs : CacheSet) (x : BayId) (c : Code) (v : Half), setLaw (setOf c) cs → ∃ w,
       (cs.fill x c v).get w = { valid := true, bay := x, code := c, value := v, state := .fresh, age := 0 }
       ∧ (∀ w', w' ≠ w → (cs.fill x c v).get w' = cs.get w')
       ∧ (∀ w', (cs.get w').holds x c = true → w' = w)
       ∧ ((∀ w', (cs.get w').holds x c = false) →
           (cs.l0.valid = false → w = .w0)
           ∧ (cs.l0.valid = true → cs.l1.valid = false → w = .w1)
           ∧ (cs.l0.valid = true → cs.l1.valid = true → cs.l2.valid = false → w = .w2)
           ∧ (cs.l0.valid = true → cs.l1.valid = true → cs.l2.valid = true → cs.l3.valid = false → w = .w3)
           ∧ ((∀ w', (cs.get w').valid = true) →
               w = if cs.s0 then (if cs.s2 then .w3 else .w2) else (if cs.s1 then .w1 else .w0)))
       ∧ ((cs.fill x c v).s0, (cs.fill x c v).s1, (cs.fill x c v).s2) = (match w with
           | .w0 => (true, true, cs.s2)
           | .w1 => (true, false, cs.s2)
           | .w2 => (false, cs.s1, true)
           | .w3 => (false, cs.s1, false)))
  ∧ ((∀ (cs : CacheSet) (x : BayId) (c : Code),
       (cs.find x c = none ↔ ∀ w, ¬ ((cs.get w).valid = true ∧ (cs.get w).bay = x ∧ (cs.get w).code = c))
       ∧ ∀ w, cs.find x c = some w → (cs.get w).valid = true ∧ (cs.get w).bay = x ∧ (cs.get w).code = c)
     ∧ ∀ (x : BayId) (c : Code) (g : Governing) (v : Half) (s : State),
       (g.inst ≠ s.mapInst → cacheWrite x c g v s = s)
       ∧ ((cacheSet s.cache (setOf c)).find x c = none → cacheWrite x c g v s = s ∧ cacheFailedWrite x c s = s)
       ∧ ∀ w l, (cacheSet s.cache (setOf c)).find x c = some w → l = (cacheSet s.cache (setOf c)).get w →
         (g.inst = s.mapInst → cacheWrite x c g v s = { s with cache := s.cache.set (setOf c) ((cacheSet s.cache (setOf c)).put w
           (if steady (s.bays.get x).state then (if l.state = .parked then l else { l with value := v, state := .fresh, age := 0 })
             else Line.invalid)) })
         ∧ cacheFailedWrite x c s = { s with cache := s.cache.set (setOf c) ((cacheSet s.cache (setOf c)).put w
           (if l.state = .fresh then { l with state := .suspect } else l)) })

/-! ### The sample lane, light and motion -/

/-- R121: a discarded frame and a frame cut off by a gap change nothing, and leave the receiver waiting for a header (log 17). R122, R124 to R130:
a light sample in AUTO with HOLD_CURVE clear runs every stage. R122, R132, R133: in MANUAL a light sample runs the input, goal and slew stages,
whatever HOLD_CURVE; in AUTO with HOLD_CURVE set it runs the input stage alone. -/
def Obligations.LaneAndLightSamples : Prop :=
  (∀ (h : Byte) (p : List Byte) (s : State),
     exec (.frameDiscard h p) s = .next { s with lane := [] } ∧ exec (.laneGapDiscard p) s = .next { s with lane := [] })
  ∧ (∀ (b0 b1 b2 : Byte) (s : State), s.pipe.mode = .auto → s.flags.holdCurve = false →
       ∃ p, exec (.lightSample b0 b1 b2) s = .next { s with lane := [], pipe := p }
         ∧ p.mode = .auto ∧ p.manual = s.pipe.manual ∧ p.hostMax = s.pipe.hostMax
         ∧ p.l = (if b2.getLsbD 0 then 65535 else (b1 ++ b0).toNat)
         ∧ p.clampedLux = (s.pipe.clampedLux || b2.getLsbD 0)
         ∧ p.t = curveLevel p.l (breakpoints s)
         ∧ (p.s : Int) = s.pipe.s + (16 * (p.t : Int) - s.pipe.s) / (2 ^ (if s.pipe.s < 16 * p.t then kUp s else kDown s) : Nat)
         ∧ p.d = (if hyst s ≤ ((p.s + 8) / 16 - s.pipe.d) + (s.pipe.d - (p.s + 8) / 16) ∨ (p.s + 8) / 16 = p.t then (p.s + 8) / 16
             else s.pipe.d)
         ∧ p.ceilingLimited = (s.pipe.ceilingLimited || decide (s.budget.c < p.d))
         ∧ p.o = slew (slewUp s) (slewDown s) (max (minLevel s) (min p.d s.budget.c)) s.pipe.o)
  ∧ (∀ (b0 b1 b2 : Byte) (s : State),
       (s.pipe.mode = .manual → exec (.lightSample b0 b1 b2) s = .next { s with lane := [], pipe := { s.pipe with
           l := if b2.getLsbD 0 then 65535 else (b1 ++ b0).toNat, clampedLux := s.pipe.clampedLux || b2.getLsbD 0,
           ceilingLimited := s.pipe.ceilingLimited || decide (s.budget.c < s.pipe.d),
           o := slew (slewUp s) (slewDown s) (max (minLevel s) (min s.pipe.d s.budget.c)) s.pipe.o } })
       ∧ (s.pipe.mode = .auto → s.flags.holdCurve = true → exec (.lightSample b0 b1 b2) s = .next { s with lane := [], pipe := { s.pipe with
           l := if b2.getLsbD 0 then 65535 else (b1 ++ b0).toNat, clampedLux := s.pipe.clampedLux || b2.getLsbD 0 } }))

/-- R126: with diff = 16 × T - S, a step adds the floor of diff divided by 2 to the power k, where k is K_UP for a positive diff and K_DOWN
otherwise; the new S lies between the old S and 16 × T; a fall moves S by at least 1 and so reaches 16 × T after finitely many steps; a rise stops
once diff is below 2 to the power K_UP; k of 0 takes S to 16 × T at once, and a diff of 0 adds 0. A light sample in AUTO with HOLD_CURVE clear
runs this step with the curve's own K_UP and K_DOWN. R130: the output moves towards the goal by at most SLEW_UP or SLEW_DOWN and never passes it.
R125: the curve at its ends and between two breakpoints. -/
def Obligations.PipelineArithmetic : Prop :=
  (∀ up down g o, (o < g → slew up down g o = min g (o + up)) ∧ (g < o → slew up down g o = max g (o - down))
    ∧ (g = o → slew up down g o = o))
  ∧ (∀ (up down t st k : Nat) (diff : Int), diff = 16 * (t : Int) - st → k = (if 0 < diff then up else down) →
      (filterNext up down t st : Int) = st + diff / (2 ^ k : Nat)
      ∧ (0 ≤ diff → st ≤ filterNext up down t st ∧ filterNext up down t st ≤ 16 * t)
      ∧ (diff < 0 → 16 * t ≤ filterNext up down t st ∧ filterNext up down t st < st)
      ∧ (t ≤ 1000 → st ≤ 16000 → filterNext up down t st ≤ 16000)
      ∧ (0 < diff → diff < (2 ^ up : Nat) → filterNext up down t st = st)
      ∧ (k = 0 → filterNext up down t st = 16 * t) ∧ (diff = 0 → filterNext up down t st = st)
      ∧ (diff ≤ 0 → ∃ n, Nat.repeat (filterNext up down t) n st = 16 * t))
  ∧ (∀ (b0 b1 b2 : Byte) (s : State), s.pipe.mode = .auto → s.flags.holdCurve = false →
      ∃ p, exec (.lightSample b0 b1 b2) s = .next { s with lane := [], pipe := p }
        ∧ p.s = filterNext (kUp s) (kDown s) p.t s.pipe.s ∧ kUp s = (inEffect s .curve 1).toNat ∧ kDown s = (inEffect s .curve 2).toNat)
  ∧ (∀ x l rest, ∀ lux, lux < x → rest ≠ [] → curveLevel lux ((x, l) :: rest) = l)
  ∧ (∀ x l lux, curveLevel lux [(x, l)] = l)
  ∧ (∀ x l x' l' rest lux, x ≤ lux → lux < x' → l ≤ l' →
      curveLevel lux ((x, l) :: (x', l') :: rest) = l + (2 * ((l' - l) * (lux - x)) + (x' - x)) / (2 * (x' - x))
        ∧ l ≤ curveLevel lux ((x, l) :: (x', l') :: rest) ∧ curveLevel lux ((x, l) :: (x', l') :: rest) ≤ l')
  ∧ (∀ x l x' l' rest lux, x ≤ lux → x' ≤ lux → curveLevel lux ((x, l) :: (x', l') :: rest) = curveLevel lux ((x', l') :: rest))

/-- R140, R141, R196: the sample of a payload and its class: each axis is taken as signed 16 bits at the nearer end of -2048 to 2047, an axis at
either end is saturated, and -2047 stands for -2048; then impact, low, still and other in that order. -/
def Obligations.SamplesAreClassified : Prop :=
  (∀ lo hi : Byte, axisRaw lo hi = max (-2048) (min 2047 (hi ++ lo).toInt))
  ∧ (∀ x0 x1 y0 y1 z0 z1,
      (sampleOf x0 x1 y0 y1 z0 z1).x = max (-2047) (axisRaw x0 x1) ∧ (sampleOf x0 x1 y0 y1 z0 z1).y = max (-2047) (axisRaw y0 y1)
      ∧ (sampleOf x0 x1 y0 y1 z0 z1).z = max (-2047) (axisRaw z0 z1)
      ∧ ((sampleOf x0 x1 y0 y1 z0 z1).saturated = true ↔ ∃ v ∈ [axisRaw x0 x1, axisRaw y0 y1, axisRaw z0 z1], v = -2048 ∨ v = 2047)
      ∧ (sampleOf x0 x1 y0 y1 z0 z1).m2 ≤ 12570627)
  ∧ (∀ p : Sample, (p.m2 : Int) = p.x ^ 2 + p.y ^ 2 + p.z ^ 2)
  ∧ ∀ (s : State) (p : Sample),
      (impactThresh s ^ 2 < p.m2 ∨ p.saturated = true → classify s p = .impact)
      ∧ (p.m2 ≤ impactThresh s ^ 2 → p.saturated = false →
          (p.m2 < ffThresh s ^ 2 → classify s p = .low)
          ∧ (ffThresh s ^ 2 ≤ p.m2 → stillLo s ^ 2 ≤ p.m2 → p.m2 ≤ stillHi s ^ 2 → classify s p = .still)
          ∧ (ffThresh s ^ 2 ≤ p.m2 → (p.m2 < stillLo s ^ 2 ∨ stillHi s ^ 2 < p.m2) → classify s p = .other))

/-- R142: a motion sample in ARMED that is low and short of FF_COUNT raises the run count; one that is still or other clears it; a low one that
reaches FF_COUNT begins an episode in FALLING, with PARK_REQ, the stall timer of 250 ms and the window OPEN (R146); an impact begins one in IMPACT
of kind STRIKE and is its first sample (R144), FRESH lines becoming SUSPECT. R34: where the window opens again, from CLOSED or from HOLDING, a
jolt hold that runs stops and waits for the next close; nothing else of the bays changes. R143: a motion sample in FALLING: low raises n up to
4,095; an impact enters IMPACT of kind FALL and is its first sample; still or other returns to ARMED with no record and no attention, and the
window begins its close. -/
def Obligations.ArmedAndFallingSamples : Prop :=
  (∀ (x0 x1 y0 y1 z0 z1 : Byte) (s : State) (p : Sample), p = sampleOf x0 x1 y0 y1 z0 z1 → s.motion.detector = .armed →
     (classify s p = .low → s.motion.run + 1 < ffCount s → exec (.motionSample x0 x1 y0 y1 z0 z1) s
       = .next { s with lane := [], motion := { s.motion with run := s.motion.run + 1 } })
     ∧ ((classify s p = .still ∨ classify s p = .other) → exec (.motionSample x0 x1 y0 y1 z0 z1) s
       = .next { s with lane := [], motion := { s.motion with run := 0 } })
     ∧ (classify s p = .low → ffCount s ≤ s.motion.run + 1 → ∃ t, exec (.motionSample x0 x1 y0 y1 z0 z1) s = .next t
       ∧ t.motion = { s.motion with
             detector := .falling, n := s.motion.run + 1, run := 0, park := true, window := .open, hold := none,
             stall := some 250, jolted := if s.motion.window = .closed then ⟨false, false⟩ else s.motion.jolted }
       ∧ t.pp = s.pp ∧ t.attn = s.attn ∧ t.cache = s.cache
       ∧ ∀ x, t.bays.get x = { s.bays.get x with jolt := (s.bays.get x).jolt.map holdStopped })
     ∧ (classify s p = .impact → 1 < impactMax s → 0 < settleCount s → ∃ t, exec (.motionSample x0 x1 y0 y1 z0 z1) s = .next t
       ∧ t.motion = { s.motion with
             detector := .impact, kind := .strike, n := 0, run := 0, impacts := 1, settle := 0, peak := p.m2,
             saturated := p.saturated, park := true, window := .open, hold := none, stall := some 250,
             jolted := if s.motion.window = .closed then ⟨false, false⟩ else s.motion.jolted }
       ∧ t.cache = s.cache.map (CacheSet.mapLines fun l => if l.valid ∧ l.state = .fresh then { l with state := .suspect } else l)
       ∧ t.pp = s.pp ∧ t.attn = s.attn
       ∧ ∀ x, t.bays.get x = { s.bays.get x with jolt := (s.bays.get x).jolt.map holdStopped }))
  ∧ (∀ (x0 x1 y0 y1 z0 z1 : Byte) (s : State) (p : Sample), p = sampleOf x0 x1 y0 y1 z0 z1 → s.motion.detector = .falling →
       (classify s p = .low → exec (.motionSample x0 x1 y0 y1 z0 z1) s
         = .next { s with lane := [], motion := { s.motion with n := min 4095 (s.motion.n + 1), stall := some 250 } })
       ∧ (classify s p = .impact → 1 < impactMax s → 0 < settleCount s → ∃ t, exec (.motionSample x0 x1 y0 y1 z0 z1) s = .next t
         ∧ t.motion = { s.motion with
               detector := .impact, kind := .fall, impacts := 1, settle := 0, peak := p.m2, saturated := p.saturated,
               stall := some 250 }
         ∧ t.cache = s.cache.map (CacheSet.mapLines fun l => if l.valid ∧ l.state = .fresh then { l with state := .suspect } else l)
         ∧ t.log = s.log)
       ∧ ((classify s p = .still ∨ classify s p = .other) → joltHoldMs s ≠ 0 → exec (.motionSample x0 x1 y0 y1 z0 z1) s
         = .next { s with lane := [], motion := { s.motion with
               detector := .armed, n := 0, run := 0, impacts := 0, settle := 0, peak := 0,
               saturated := false, stall := none, park := false, window := .holding, hold := some (joltHoldMs s) } }))

/-- R145, R146, R148, R151, R153 to R156: a motion sample in IMPACT counts; the episode ends settled when the settle count reaches SETTLE_COUNT,
else unsettled when the impact count reaches IMPACT_MAX. An end composes a record with the next sequence, places it, posts DROP, returns the
detector to ARMED and begins the close of the window. -/
def Obligations.ImpactSamples : Prop :=
  ∀ (x0 x1 y0 y1 z0 z1 : Byte) (s : State) (p : Sample) (m : Motion), p = sampleOf x0 x1 y0 y1 z0 z1 →
    s.motion.detector = .impact →
    m = { s.motion with
            impacts := s.motion.impacts + 1, peak := max s.motion.peak p.m2, saturated := s.motion.saturated || p.saturated,
            settle := if classify s p = .still then s.motion.settle + 1 else 0, stall := some 250 } →
    (m.settle < settleCount s → m.impacts < impactMax s →
      exec (.motionSample x0 x1 y0 y1 z0 z1) s = .next { s with lane := [], motion := m })
    ∧ ((settleCount s ≤ m.settle ∨ impactMax s ≤ m.impacts) → joltHoldMs s ≠ 0 →
        ∃ t, exec (.motionSample x0 x1 y0 y1 z0 z1) s = .next t
          ∧ t.motion = { disarmMotion m with window := .holding, hold := some (joltHoldMs s), jolted := ⟨false, false⟩ }
          ∧ (s.log.next = none → t.log = s.log ∧ queued t .drop dExhausted)
          ∧ ∀ q, s.log.next = some q →
              t.log = { next := if q < 65535 then some (q + 1) else none, records := (placeRecord {
                  seq := q, kind := m.kind, n := if m.kind = .fall then m.n else 0,
                  height := if m.kind = .fall then dropHeight m.n (odrHz s) else 0, peak := squareRoot m.peak,
                  saturated := m.saturated, ending := if settleCount s ≤ m.settle then .settled else .unsettled,
                  rest := if settleCount s ≤ m.settle then restAxisOf p else .none, time := s.time.uptime, jolted := m.jolted }
                s.log.records).1 }
              ∧ ∃ d, queued t .drop d ∧ d.value = q)

/-- R147: the stall timer running out in FALLING or IMPACT ends the episode stalled: the record has the STALL ending, rest axis NONE, and from
FALLING kind FALL and peak 0; DROP is posted and the detector is ARMED. In ARMED, or with the timer stopped, nothing changes. R34, R40, R148: the
hold of a HOLDING window running out closes it: deferred marks clear, and the jolt hold of each bay in JOLT starts with JOLT_HOLD_ms. With no
deferred mark and no bay in JOLT nothing else changes, and in another window state nothing changes. That the row stands for the moment at which
its timer runs out is the model's (log 3). R40: at the close a deferred latch-open of a bay that is still ONLINE with its latch open is evaluated
with the window closed: refused by its reason with SWAP_REFUSED, or carried out by its kind. With both bays deferred bay A is taken first:
released PLAIN where the budget allows, it is no source for bay B, which goes to the bridge or is refused with NO_SOURCE where EXT is absent. R34,
R148: with JOLT_HOLD_ms of 0 the window is CLOSED at once, at the end of an episode too, and the hold of each bay in JOLT runs out at the close.
The bay law is an invariant. -/
def Obligations.StallAndWindowHoldRunOut : Prop :=
  (∀ s : State,
     ((s.motion.detector = .armed ∨ s.motion.stall = none) → exec .stallTimeout s = .next s)
     ∧ (s.motion.detector ≠ .armed → s.motion.stall.isSome = true → joltHoldMs s ≠ 0 → ∃ t, exec .stallTimeout s = .next t
         ∧ t.motion = { disarmMotion s.motion with window := .holding, hold := some (joltHoldMs s), jolted := ⟨false, false⟩ }
         ∧ (s.log.next = none → t.log = s.log ∧ queued t .drop dExhausted)
         ∧ ∀ q, s.log.next = some q → ∀ k, k = (if s.motion.detector = .falling then .fall else s.motion.kind) →
             t.log = { next := if q < 65535 then some (q + 1) else none, records := (placeRecord {
                 seq := q, kind := k, n := if k = .fall then s.motion.n else 0,
                 height := if k = .fall then dropHeight s.motion.n (odrHz s) else 0,
                 peak := if s.motion.detector = .falling then 0 else squareRoot s.motion.peak,
                 saturated := s.motion.saturated, ending := .stalled, rest := .none, time := s.time.uptime, jolted := s.motion.jolted }
               s.log.records).1 }
             ∧ ∃ d, queued t .drop d ∧ d.value = q))
  ∧ (∀ s : State,
       (s.motion.window ≠ .holding → exec .windowHoldExpiry s = .next s)
       ∧ (s.motion.window = .holding → ∃ t, exec .windowHoldExpiry s = .next t
           ∧ t.motion.window = .closed ∧ t.motion.hold = none
           ∧ (∀ x, (t.bays.get x).deferred = false)
           ∧ (joltHoldMs s ≠ 0 → ∀ x j, (s.bays.get x).state = .jolt → (s.bays.get x).deferred = false → (s.bays.get x).jolt = some j →
               (t.bays.get x).state = .jolt ∧ (t.bays.get x).jolt = some { j with hold := .running (joltHoldMs s) })
           ∧ ((∀ x, (s.bays.get x).deferred = false ∧ (s.bays.get x).state ≠ .jolt) →
               t = { s with motion := { s.motion with window := .closed, hold := none } })))
  ∧ ((∀ (x : BayId) (s f : State), s.motion.window = .holding → (s.bays.get x).state = .online → (s.bays.get x).deferred = true →
         (s.bays.get x).latch = false → (s.bays.get x.other).deferred = false → (s.bays.get x.other).state ≠ .jolt →
         f = updBay x (fun b => { b with deferred := false }) { s with motion := { s.motion with window := .closed, hold := none } } →
         (∀ r, refusalCase f x r → exec .windowHoldExpiry s
           = .next (post (.swapRefused x) (dRefusal r) (updBay x (fun b => { b with refusal := r, refuse := true }) f)))
         ∧ (∀ k, (∀ y, bayLaw s y) → handoverCase f x k → ∃ t, exec .windowHoldExpiry s = .next t
             ∧ (t.bays.get x).state = .releasing ∧ (t.bays.get x).lastHandover = k ∧ t.pp.sw.get x = .off ∧ t.motion.window = .closed))
     ∧ (∀ s : State, s.motion.window = .holding → (∀ x, bayLaw s x) → s.pp.ext = false → pMinRun s ≤ totalWithout s .A →
         (∀ x, (s.bays.get x).state = .online ∧ (s.bays.get x).deferred = true ∧ (s.bays.get x).latch = false ∧ holdSwap s x = false) →
         ∃ t, exec .windowHoldExpiry s = .next t
           ∧ (t.bays.get .A).state = .releasing ∧ (t.bays.get .A).lastHandover = .plain ∧ t.pp.sw.a = .off
           ∧ (bridgeCanStart s = true →
               (t.bays.get .B).state = .releasing ∧ (t.bays.get .B).lastHandover = .bridgeHold ∧ t.pp.bridge = .running)
           ∧ (bridgeCanStart s = false → (t.bays.get .B).state = .online ∧ (t.bays.get .B).refusal = .noSource
               ∧ (t.bays.get .B).refuse = true ∧ queued t (.swapRefused .B) (dRefusal .noSource)))
     ∧ (∀ (i : Instr) (s : State), beginsClose i s → joltHoldMs s = 0 → ∃ t, exec i s = .next t
           ∧ t.motion.window = .closed ∧ t.motion.hold = none ∧ (∀ x, (t.bays.get x).deferred = false)
           ∧ t.motion.detector = (if i = .windowHoldExpiry then s.motion.detector else .armed)
           ∧ ∀ x, (s.bays.get x).state = .jolt →
               (t.bays.get x).jolt = none ∧ queued t (.jolt x) dExpired
               ∧ (t.bays.get x).state = (if (s.bays.get x).presLine then .seating else .empty)
               ∧ (t.bays.get x).context = (if reinsertWindow s = 0 then none
                   else some { serial := (s.bays.get x).jolt.bind JoltRecord.serial, departure := s.time.uptime })))

/-- R152: the height of a FALL record is min(65,535, floor(4,903 × n² / ODR_Hz²)) with n and the ODR_Hz in effect when the record is composed, 784
mm for n of 160 at 400 Hz. The square root of the peak, the rest axis, and the placing in a log that keeps eight records, dropping the first of
the smallest peak for a greater one (R151, R153, R154). -/
def Obligations.DropRecordArithmetic : Prop :=
  (∀ n, n ≤ 12570627 → squareRoot n ^ 2 ≤ n ∧ n < (squareRoot n + 1) ^ 2)
  ∧ (∀ (q : Nat) (e : DropEnding) (a : RestAxis) (s : State), (composeRecord q e a s).kind = .fall →
      (composeRecord q e a s).n = s.motion.n
      ∧ (composeRecord q e a s).height = min 65535 (4903 * s.motion.n ^ 2 / (inEffect s .motion 0).toNat ^ 2))
  ∧ (∀ n odr, dropHeight n odr = min 65535 (4903 * n ^ 2 / odr ^ 2))
  ∧ dropHeight 160 400 = 784 ∧ dropHeight 24 400 = 17 ∧ dropHeight 4095 50 = 65535 ∧ squareRoot 5090209 = 2256
  ∧ (∀ p : Sample,
      (p.y.natAbs ≤ p.x.natAbs → p.z.natAbs ≤ p.x.natAbs → restAxisOf p = if 0 ≤ p.x then .xPos else .xNeg)
      ∧ (p.x.natAbs < p.y.natAbs → p.z.natAbs ≤ p.y.natAbs → restAxisOf p = if 0 ≤ p.y then .yPos else .yNeg)
      ∧ (p.x.natAbs < p.z.natAbs → p.y.natAbs < p.z.natAbs → restAxisOf p = if 0 ≤ p.z then .zPos else .zNeg))
  ∧ ∀ (r : DropRecord) (l : List DropRecord),
      (l.length < 8 → placeRecord r l = (l ++ [r], true))
      ∧ (l.length = 8 →
          ((∃ q ∈ l, r.peak ≤ q.peak ∧ ∀ q' ∈ l, q.peak ≤ q'.peak) → placeRecord r l = (l, false))
          ∧ ∀ l1 q l2, l = l1 ++ q :: l2 → (∀ q' ∈ l1, q.peak < q'.peak) → (∀ q' ∈ l2, q.peak ≤ q'.peak) → q.peak < r.peak →
              placeRecord r l = (l1 ++ l2 ++ [r], true))

/-! ### The Management Port -/

/-- R185: a result read of a PENDING slot returns the frame from its length byte on, FFh beyond, and empties the slot when it reaches the last
byte; of an EMPTY or EXECUTING slot it returns a frame of length 1 with result code EMPTY, and FFh beyond it (the model's, log 40), and leaves the
slot. A platform transaction short of its forwarding point is abandoned by it (log 8). -/
def Obligations.ResultReads : Prop :=
  ∀ (n : Nat) (s : State), upStretched s = false →
    (∀ f, s.port.slot = .pending f → exec (.resultRead n) s = .next { s with
        port := { s.port with slot := if f.data.length + 2 ≤ n then .empty else .pending f },
        upstream := {
          tx := none,
          answer := .data (((byteOf (1 + f.data.length) :: resultByte f.code :: f.data) ++ List.replicate n 0xFF).take n) } })
    ∧ ((s.port.slot = .empty ∨ s.port.slot = .executing) → exec (.resultRead n) s = .next { s with
        upstream := { tx := none, answer := .data ((([0x01, 0x02] : List Byte) ++ List.replicate n 0xFF).take n) } })

/-- R183: with the slot not EMPTY every command is refused at its code byte, and nothing changes but the abandoned transaction. While a platform
transaction stretches the clock no command begins; that its row is then answered held is the model's (log 7). R184: a code that is not listed is
answered INVALID, and a command with a wrong number of parameters PARAM; neither has any other effect. R42, R66, R102, R103, R134, R159, R167,
R192, R202: a parameter out of its range is answered PARAM and changes nothing. -/
def Obligations.CommandsRefusedInvalidOrOutOfRange : Prop :=
  (∀ (p : List Byte) (c : BitVec 7) (s : State) (i : Instr),
     i ∈ [.invalidCommand c p, .identify p, .senseAttention p, .flagTest p, .flagSet p, .flagClear p, .flagToggle p, .resetPart p,
          .powerQuery p, .bayQuery p, .bayRelease p, .bayReturn p, .bayProbe p, .linkRecover p, .cacheFlush p, .cacheInspect p,
          .budgetQuery p, .brightnessSet p, .brightnessQuery p, .dropStateQuery p, .dropLogRead p, .dropLogClear p, .tableClear p,
          .tableWrite p, .tableCheck p, .tableRead p, .tableLock p] →
     (upStretched s = false → s.port.slot ≠ .empty → exec i s = .next { s with upstream := { tx := none, answer := .refused } })
     ∧ (upStretched s = true → exec i s = .next { s with upstream := { s.upstream with answer := .held } }))
  ∧ (∀ (p : List Byte) (c : BitVec 7) (s : State), accepts s →
       exec (.invalidCommand c p) s = .next (ended (begun s) .invalid [])
       ∧ (p.length ≠ 0 → ∀ i ∈ [Instr.identify p, .senseAttention p, .resetPart p, .powerQuery p, .budgetQuery p, .brightnessQuery p,
             .dropStateQuery p, .dropLogClear p], exec i s = .next (ended (begun s) .param []))
       ∧ (p.length ≠ 1 → ∀ i ∈ [Instr.flagTest p, .flagSet p, .flagClear p, .flagToggle p, .bayQuery p, .bayRelease p, .bayReturn p,
             .bayProbe p, .linkRecover p, .cacheFlush p, .dropLogRead p, .tableClear p, .tableCheck p, .tableLock p],
             exec i s = .next (ended (begun s) .param []))
       ∧ (p.length ≠ 2 → exec (.cacheInspect p) s = .next (ended (begun s) .param []))
       ∧ (p.length ≠ 3 → exec (.tableRead p) s = .next (ended (begun s) .param []))
       ∧ (p.length ≠ 5 → exec (.brightnessSet p) s = .next (ended (begun s) .param []))
       ∧ ((p.length < 3 ∨ ∃ r off n rest, p = r :: off :: n :: rest ∧ rest.length ≠ 4 * n.toNat) →
           exec (.tableWrite p) s = .next (ended (begun s) .param [])))
  ∧ (∀ (b : Byte) (s : State), accepts s →
       (1 < b.toNat → ∀ i ∈ [Instr.bayQuery [b], .bayRelease [b], .bayReturn [b], .bayProbe [b], .linkRecover [b]],
         exec i s = .next (ended (begun s) .param []))
       ∧ (3 < b.toNat → ∀ i ∈ [Instr.tableClear [b], .tableCheck [b], .tableLock [b]], exec i s = .next (ended (begun s) .param []))
       ∧ (7 < b.toNat → ∀ i ∈ [Instr.flagTest [b], .flagSet [b], .flagClear [b], .flagToggle [b], .dropLogRead [b]],
           exec i s = .next (ended (begun s) .param []))
       ∧ (2 < b.toNat → exec (.cacheFlush [b]) s = .next (ended (begun s) .param []))
       ∧ (∀ c, 15 < b.toNat ∨ 3 < c.toNat → exec (.cacheInspect [b, c]) s = .next (ended (begun s) .param []))
       ∧ (1 < b.toNat → ∀ l0 l1 h0 h1, exec (.brightnessSet [b, l0, l1, h0, h1]) s = .next (ended (begun s) .param []))
       ∧ (∀ off n, (3 < b.toNat ∨ n.toNat = 0 ∨ 48 < n.toNat ∨ ∃ g, regionOfByte b = some g ∧ Config.regionSize g < off.toNat + n.toNat) →
           exec (.tableRead [b, off, n]) s = .next (ended (begun s) .param [])
           ∧ ∀ rest, rest.length = 4 * n.toNat → exec (.tableWrite (b :: off :: n :: rest)) s = .next (ended (begun s) .param [])))

/-- R188: Identify returns the part code 5240h, the revision 01h, state and lock mark of each region and the uptime, and clears RESET_SEEN; with
parameters it is answered PARAM and leaves RESET_SEEN. R189, R190: Reset Part without parameters sets RESET_SEEN again, leaves the slot EMPTY and
keeps the uptime. The uptime is 0 after POR, rises by 1 with each uptime tick and stays at 4,294,967,295. R200, R198, R199: Sense Attention
removes the head entry and returns it, the line following the queue; an empty queue is answered EMPTY and changes nothing; with parameters it is
answered PARAM and removes nothing. R197, R199: a posting of a pair that is not queued appends an entry at the tail with count 1, the uptime as
its first time and the detail; of a pair that is queued, it raises that entry's count by 1 up to 255 and replaces its detail, and the entry keeps
its place and its first time. ATTN_REQ is asserted. -/
def Obligations.IdentifyAndSenseAttention : Prop :=
  ((∀ s : State, accepts s → exec (.identify []) s = .next (ended
     { begun s with port := { slot := .executing, resetSeen := false } } .ok
     ([0x40, 0x52, 0x01]
       ++ [RegionId.config, .codemap, .curve, .motion].map (fun r =>
           byteOf (regionStateCode (s.tables.get r).state + if (s.tables.get r).lock then 128 else 0))
       ++ le32 s.time.uptime)))
   ∧ (∀ (p : List Byte) (s : State), accepts s → p ≠ [] → exec (.identify p) s = .next (ended (begun s) .param []))
   ∧ (∀ s : State, accepts s → ∃ t, exec (.resetPart []) s = .next t ∧ t.port = { slot := .empty, resetSeen := true }
       ∧ t.time.uptime = s.time.uptime)
   ∧ (∀ (l : Lines) (s : State), ∃ t, exec (.powerOnReset l) s = .next t ∧ t.time.uptime = 0)
   ∧ (∀ s : State, exec .uptimeTick s = .next { s with time := { s.time with uptime := min 4294967295 (s.time.uptime + 1) } }))
  ∧ (∀ s : State, accepts s →
       (∀ p, p ≠ [] → exec (.senseAttention p) s = .next (ended (begun s) .param []))
       ∧ (s.attn.queue = [] → exec (.senseAttention []) s = .next (ended (begun s) .empty []))
       ∧ ∀ e rest, s.attn.queue = e :: rest → exec (.senseAttention []) s = .next (ended
           { begun s with attn := { queue := rest, req := decide (rest ≠ []) } } .ok
           ([byteOf (attnCause e.key), byteOf (attnSource e.key), byteOf e.count] ++ le32 e.first ++ [byteOf e.detail.kind]
             ++ le16 e.detail.value)))
  ∧ (∀ (k : AttnKey) (d : Detail) (s : State),
       ((∀ e ∈ s.attn.queue, e.key ≠ k) → post k d s = { s with attn := {
         queue := s.attn.queue ++ [{ key := k, count := 1, first := s.time.uptime, detail := d }], req := true } })
       ∧ ∀ l1 e l2, s.attn.queue = l1 ++ e :: l2 → (∀ q ∈ l1, q.key ≠ k) → e.key = k → post k d s = { s with attn := {
           queue := l1 ++ { e with count := min 255 (e.count + 1), detail := d } :: l2, req := true } })

/-- R202, R203: a flag command returns the flag's previous value. Flag Test changes nothing; a SEM flag, HOLD_CURVE, a flag that takes the value
it has, and the setting of a HOLD_SWAP flag change that flag alone; setting HOLD_POLL also drops the pending polls; clearing HOLD_SWAP of a bay
that is not ONLINE with its refuse indicator asserted and its latch open evaluates nothing. R41, R203: a HOLD_SWAP flag that clears while its bay
is ONLINE with the refuse indicator asserted and the latch open has the latch-open evaluated before the result is placed: refused again with
SWAP_REFUSED, or carried out; with the drop window open the deferred mark is set and nothing is posted (R26, case 2, section 11.4.2). The result
is the previous value, 1. -/
def Obligations.FlagCommandsAndClearedHolds : Prop :=
  (∀ (b : Byte) (old : Bool) (s : State), accepts s → flagGet s.flags b.toNat = some old →
     exec (.flagTest [b]) s = .next (ended (begun s) .ok [if old then 1 else 0])
     ∧ ∀ i new, ((i = .flagSet [b] ∧ new = true) ∨ (i = .flagClear [b] ∧ new = false) ∨ (i = .flagToggle [b] ∧ new = !old)) →
       ((3 ≤ b.toNat ∨ new = old ∨ (new = true ∧ b.toNat ≤ 1) ∨ (new = false ∧ b.toNat = 2)
           ∨ (∃ x, bayOfByte b = some x ∧ ¬ ((s.bays.get x).state = .online ∧ (s.bays.get x).refuse = true
               ∧ (s.bays.get x).latch = false))) →
         exec i s = .next (ended { begun s with flags := flagPut s.flags b.toNat new } .ok [if old then 1 else 0]))
       ∧ (b.toNat = 2 → old = false → new = true → exec i s = .next (ended { begun s with
           flags := flagPut s.flags 2 true,
           relays := ⟨{ s.relays.a with pollDue := false }, { s.relays.b with pollDue := false }⟩ } .ok [0])))
  ∧ (∀ (x : BayId) (b : Byte) (s f : State) (i : Instr), accepts s → bayOfByte b = some x → flagGet s.flags b.toNat = some true →
       (i = .flagClear [b] ∨ i = .flagToggle [b]) → (s.bays.get x).state = .online → (s.bays.get x).refuse = true →
       (s.bays.get x).latch = false → f = { begun s with flags := flagPut s.flags b.toNat false } →
       (∀ r, refusalCase f x r → exec i s = .next (ended
         (post (.swapRefused x) (dRefusal r) (updBay x (fun y => { y with refusal := r, refuse := true }) f)) .ok [1]))
       ∧ (∀ k, (∀ y, bayLaw s y) → handoverCase f x k → ∃ t, exec i s = .next t ∧ (t.bays.get x).state = .releasing
           ∧ (t.bays.get x).lastHandover = k ∧ t.pp.sw.get x = .off ∧ t.port.slot = .pending { code := .ok, data := [1] })
       ∧ (s.motion.window ≠ .closed → exec i s = .next (ended (updBay x (fun y => { y with deferred := true }) f) .ok [1])))

/-- R189, R15, R47, R70, R84, R104, R119, R139, R162, R179, R190, R201 to R203: Reset Part without parameters: what each block takes and what it
keeps. The slot is EMPTY with no result frame and RESET_SEEN set. The Attention Queue is emptied: what it holds afterwards was posted by the
reset, and only a BUDGET_CUT where nothing makes the Bay Controller act. Pointers return to the start, and the rings are kept or emptied with the
code map. A bay in PROBING restarts its probe from the first read with the same cause, a background operation for BAY_PROBE; with no read to make
it is admitted or faulted, and a jolt return that is ONLINE with its switch ON and its latch open is evaluated and may be released (R26, R37). A
HOLD_SWAP flag that was set is handed on as a clearing: the latch-open of an ONLINE bay with its refuse indicator is evaluated, on the state that
the reset without that flag leaves. An open window closes: deferred marks clear and jolt holds start. The bay records and the power path are kept
where no probe, cleared hold or closing window makes the Bay Controller act. The motion law and the bay law are invariants. The order of the
blocks is the model's where R189 and R47 give none (log 12). -/
def Obligations.ResetPartResetsEveryBlock : Prop :=
  (∀ s : State, accepts s → ∃ t, exec (.resetPart []) s = .next t
    ∧ t.port = { slot := .empty, resetSeen := true } ∧ t.flags = flagsClear ∧ t.log = s.log ∧ t.time = s.time
    ∧ t.pp.ext = s.pp.ext ∧ t.pp.bridgeReady = s.pp.bridgeReady ∧ t.lane = s.lane ∧ t.pending = s.pending
    ∧ t.upstream = { tx := none, answer := .acknowledged }
    ∧ (∀ r, t.tables.get r = if (s.tables.get r).lock then s.tables.get r else { state := .empty, lock := false, words := [] })
    ∧ t.cache = List.replicate 16 CacheSet.reset
    ∧ (∀ x, (t.relays.get x).link = none ∧ (t.relays.get x).slot = none ∧ (t.relays.get x).pollDue = false
        ∧ (t.relays.get x).poll = none ∧ (t.relays.get x).failCount = 0 ∧ (t.relays.get x).recover = .notRunning
        ∧ (t.relays.get x).ptr = 0
        ∧ (t.relays.get x).ring = (if s.tables.codemap.lock = false ∧ s.tables.codemap.state = .inService then []
            else (s.relays.get x).ring)
        ∧ (t.bays.get x).presLine = (s.bays.get x).presLine ∧ (t.bays.get x).presence = (s.bays.get x).presence
        ∧ (t.bays.get x).latchLine = (s.bays.get x).latchLine ∧ (t.bays.get x).latch = (s.bays.get x).latch)
    ∧ t.pollTimer = pollPeriod t
    ∧ (motionLaw s.motion → t.motion = { disarmMotion s.motion with window := .closed, hold := none, jolted := ⟨false, false⟩ })
    ∧ (t.pipe.mode = .auto ∧ t.pipe.hostMax = 1000 ∧ t.pipe.manual = s.pipe.manual ∧ t.pipe.l = s.pipe.l ∧ t.pipe.s = 16 * s.pipe.o
        ∧ t.pipe.d = s.pipe.o ∧ t.pipe.t = s.pipe.o ∧ t.pipe.clampedLux = false ∧ t.pipe.ceilingLimited = false)
    ∧ t.mapInst = (if s.tables.codemap.lock = false ∧ s.tables.codemap.state = .inService then s.mapInst + 1 else s.mapInst)
    ∧ budgetLaw t
    ∧ (t.attn.req = !t.attn.queue.isEmpty ∧ ∀ e ∈ t.attn.queue, e.first = s.time.uptime)
    ∧ (∀ x, (s.bays.get x).state = .probing →
        (probeReads t ≠ [] → (t.bays.get x).state = .probing ∧ (t.bays.get x).probeCause = (s.bays.get x).probeCause
          ∧ (t.relays.get x).probe
              = some { reads := probeReads t, attempts := 0, background := (s.bays.get x).probeCause == .bayProbe })
        ∧ (probeReads t = [] →
            (t.bays.get x).state = .online ∨ (t.bays.get x).state = .standby ∨ (t.bays.get x).state = .faulted
              ∨ ((s.bays.get x).probeCause = .joltReturn ∧ (s.bays.get x).latch = false ∧ s.pp.sw.get x = .on
                ∧ (t.bays.get x).state = .releasing)))
    ∧ (s.motion.window ≠ .closed → ∀ x, (t.bays.get x).deferred = false
        ∧ ∀ j, (s.bays.get x).jolt = some j → (s.bays.get x).state = .jolt → joltHoldMs t ≠ 0 →
            (t.bays.get x).state = .jolt ∧ (t.bays.get x).jolt = some { j with hold := .running (joltHoldMs t) })
    ∧ ((∀ x, holdSwap s x = false ∧ (s.bays.get x).state ≠ .probing) → s.motion.window = .closed →
        t.pp = s.pp ∧ t.bays = s.bays ∧ (∀ x, (t.relays.get x).snap = (s.relays.get x).snap)
        ∧ t.attn.queue = if t.budget.c < s.pipe.o
            then [{ key := .budgetCut, count := 1, first := s.time.uptime, detail := ⟨0, t.budget.c⟩ }] else []))
  ∧ (∀ (x : BayId) (s t0 : State), accepts s → (∀ y, (s.bays.get y).state ≠ .probing) → s.motion.window = .closed →
      holdSwap s x = true → holdSwap s x.other = false → (s.bays.get x).state = .online → (s.bays.get x).refuse = true →
      (s.bays.get x).latch = false → exec (.resetPart []) { s with flags := flagsClear } = .next t0 →
      (∀ r, refusalCase t0 x r → exec (.resetPart []) s
        = .next (post (.swapRefused x) (dRefusal r) (updBay x (fun b => { b with refusal := r, refuse := true }) t0)))
      ∧ (∀ k, (∀ y, bayLaw s y) → handoverCase t0 x k → ∃ t, exec (.resetPart []) s = .next t
          ∧ (t.bays.get x).state = .releasing ∧ (t.bays.get x).lastHandover = k ∧ t.pp.sw.get x = .off))

/-- R13, R42, R117, R158: Power Query, Bay Query, Budget Query and Drop State Query return the record of the power path, of the bay with its
relay, of the budget, and of the monitor with the log's counters, as they stand, byte by byte as section 10.7.4 lays them out, and change nothing;
Power Query and Budget Query with parameters are answered PARAM. R181: the status byte has its eight bits; a status read, the read address at
MGMT, returns it and changes nothing, and ATTN shows ATTN_REQ, whose law is an invariant. The 0 seconds remaining that Bay Query returns for a
context whose window, lowered, is already passed are the model's (log 41). The row of a status read is the model's (log 23). R102: Cache Flush
invalidates the lines of a bay, or all of them, whatever their state, leaves the replacement bits and everything else, and returns how many valid
lines it named, from 0 to 64 in a cache of 16 sets; any other parameter is answered PARAM. R103: Cache Inspect returns a line with its set's
replacement bits, the fields of an invalid line as zero, and changes nothing; a set above 15 or a way above 3 is answered PARAM. -/
def Obligations.QueriesFlushAndInspect : Prop :=
  (∀ s : State, accepts s →
     (∀ p, p ≠ [] → exec (.powerQuery p) s = .next (ended (begun s) .param []))
     ∧ exec (.powerQuery []) s = .next (ended (begun s) .ok
       ([byteOf ((if s.pp.ext then 1 else 0) + (if s.pp.bridgeReady then 2 else 0) + (if s.pp.lowpwr then 4 else 0)
           + (if s.pp.pfail then 8 else 0)),
         byteOf (switchCode s.pp.sw.a), byteOf ((if s.pp.held.a then 1 else 0) + if conductsBay s .A then 2 else 0),
         byteOf (switchCode s.pp.sw.b), byteOf ((if s.pp.held.b then 1 else 0) + if conductsBay s .B then 2 else 0),
         byteOf (bridgeCode s.pp.bridge)] ++ le16 s.pp.timer))
     ∧ exec (.budgetQuery []) s = .next (ended (begun s) .ok
         (le32 s.budget.pExt ++ le32 s.budget.pA ++ [byteOf (basisCode s.budget.basisA + if s.budget.deratedA then 4 else 0)]
           ++ le32 s.budget.pB ++ [byteOf (basisCode s.budget.basisB + if s.budget.deratedB then 4 else 0)]
           ++ le32 s.budget.pBridge ++ le32 s.budget.pAvail ++ leInt32 s.budget.h ++ le16 s.budget.cBudget ++ le16 s.budget.c))
     ∧ exec (.dropStateQuery []) s = .next (ended (begun s) .ok
         ([byteOf (detectorCode s.motion.detector), byteOf s.motion.run] ++ le16 s.motion.n ++ le16 s.motion.impacts
           ++ le16 s.motion.settle ++ le32 s.motion.peak
           ++ [byteOf ((if s.motion.saturated then 1 else 0) + (if s.motion.park then 2 else 0)
                 + (if s.motion.stall.isSome then 4 else 0) + (if s.motion.hold.isSome then 8 else 0)
                 + if s.motion.detector = .impact ∧ s.motion.kind = .strike then 16 else 0),
               byteOf (s.motion.stall.getD 0), byteOf (windowCode s.motion.window)] ++ le16 (s.motion.hold.getD 0)
           ++ [byteOf ((if s.motion.jolted.a then 1 else 0) + if s.motion.jolted.b then 2 else 0), byteOf s.log.records.length]
           ++ le16 (s.log.next.getD 0)))
     ∧ (∀ p, p ≠ [] → exec (.budgetQuery p) s = .next (ended (begun s) .param []))
     ∧ (∀ x b c n, bayOfByte b = some x → c = s.bays.get x → n = (s.relays.get x).snap → ∃ d,
         exec (.bayQuery [b]) s = .next (ended (begun s) .ok d) ∧ d.length = 52
         ∧ d = [b, byteOf (bayStateCode c.state),
               byteOf ((if c.presLine then 1 else 0) + (if c.presence then 2 else 0) + (if c.latchLine then 4 else 0)
                 + (if c.latch then 8 else 0) + (if c.refuse then 16 else 0) + (if c.deferred then 32 else 0)
                 + if s.pp.held.get x then 64 else 0),
               byteOf (refusalCode c.refusal), byteOf (handoverCode c.lastHandover), byteOf (faultCode c.faultReason),
               byteOf (causeCode c.probeCause)]
             ++ le16 (c.presDeb.getD 0) ++ le16 (c.latchDeb.getD 0)
             ++ (match c.jolt with
               | some j =>
                   [byteOf (1 + (if j.serial = none then 0 else 2)
                       + match j.hold with | .stopped => 0 | .waiting => 4 | .running _ => 8),
                     match j.earlier with | .online => 4 | .standby => 3 | .probing => 2]
                   ++ le16 (j.serial.getD 0).toNat ++ le16 (match j.hold with | .running ms => ms | _ => 0)
               | none => [0, 0, 0, 0, 0, 0])
             ++ (match c.context with
               | some q => [if q.serial = none then 1 else 3] ++ le16 (q.serial.getD 0).toNat ++ le32 q.departure
                   ++ le32 (reinsertWindow s - (s.time.uptime - q.departure))
               | none => [0, 0, 0, 0, 0, 0, 0, 0, 0, 0, 0])
             ++ [byteOf ((if n.voltage = none then 0 else 1) + (if n.maxDischarge = none then 0 else 2)
                 + (if n.remaining = none then 0 else 4) + (if n.status = none then 0 else 8)
                 + (if n.temperature = none then 0 else 16) + if n.serial = none then 0 else 32)]
             ++ [n.voltage, n.maxDischarge, n.remaining, n.status, n.temperature, n.serial].flatMap
                 (fun v => le16 (v.getD 0).toNat)
             ++ [byteOf (s.relays.get x).failCount, byteOf (s.relays.get x).ring.length, byteOf (s.relays.get x).ptr]
             ++ (((s.relays.get x).ring.map fun k : Code => (k.setWidth 8 : Byte)) ++ List.replicate 8 0xFF).take 8)
     ∧ (∀ u : State, statusByte u = byteOf ((if u.port.slot = .empty then 1 else 0)
         + (match u.port.slot with | .pending _ => 2 | _ => 0)
         + (if u.attn.queue ≠ [] then 4 else 0) + (if anyChecking u.tables then 8 else 0) + (if background u .A then 16 else 0)
         + (if background u .B then 32 else 0) + (if u.pp.bridge ≠ .idle then 64 else 0) + if u.port.resetSeen then 128 else 0))
     ∧ (∀ u : State, anyChecking u.tables = true ↔ ∃ r, (u.tables.get r).state = .checking)
     ∧ (∀ u : State, upStretched u = false →
         exec (.platformAddress 0x29 true) u = .next { u with upstream := { tx := none, answer := .data [statusByte u] } })
     ∧ (∀ u : State, attnLaw u.attn → (statusByte u).getLsbD 2 = u.attn.req)
     ∧ (∀ (u : State) (x : BayId), background u x = true ↔ (u.relays.get x).recover ≠ .notRunning
         ∨ ∃ p, (u.relays.get x).probe = some p ∧ p.background = true))
  ∧ (∀ (s : State) (na nb n : Nat), accepts s →
       na = (s.cache.flatMap fun cs => [cs.l0, cs.l1, cs.l2, cs.l3]).countP (fun l => l.valid && l.bay == .A) →
       nb = (s.cache.flatMap fun cs => [cs.l0, cs.l1, cs.l2, cs.l3]).countP (fun l => l.valid && l.bay == .B) →
       n = (s.cache.flatMap fun cs => [cs.l0, cs.l1, cs.l2, cs.l3]).countP (fun l => l.valid) →
       n = na + nb ∧ (s.cache.length = 16 → n ≤ 64)
       ∧ (∀ b : Byte, 2 < b.toNat → exec (.cacheFlush [b]) s = .next (ended (begun s) .param []))
       ∧ exec (.cacheFlush [0]) s = .next (ended { begun s with cache := s.cache.map (CacheSet.mapLines fun l =>
           if l.valid ∧ l.bay = .A then Line.invalid else l) } .ok [byteOf na])
       ∧ exec (.cacheFlush [1]) s = .next (ended { begun s with cache := s.cache.map (CacheSet.mapLines fun l =>
           if l.valid ∧ l.bay = .B then Line.invalid else l) } .ok [byteOf nb])
       ∧ exec (.cacheFlush [2]) s = .next (ended { begun s with cache := s.cache.map (CacheSet.mapLines fun _ => Line.invalid) } .ok
           [byteOf n]))
  ∧ ((∀ (a b : Byte) (s : State), accepts s → (15 < a.toNat ∨ 3 < b.toNat) →
       exec (.cacheInspect [a, b]) s = .next (ended (begun s) .param []))
     ∧ ∀ (a b : Byte) (s : State) (l : Line) (cs : CacheSet), accepts s → a.toNat ≤ 15 → cs = cacheSet s.cache a.toNat →
       ((b = 0 ∧ l = cs.l0) ∨ (b = 1 ∧ l = cs.l1) ∨ (b = 2 ∧ l = cs.l2) ∨ (b = 3 ∧ l = cs.l3)) →
       exec (.cacheInspect [a, b]) s = .next (ended (begun s) .ok
         ((if l.valid then [1, byteOf (bayCode l.bay), byteOf l.code.toNat] ++ le16 l.value.toNat ++ [byteOf (lineStateCode l.state),
             byteOf l.age] else [0, 0, 0, 0, 0, 0, 0])
           ++ [byteOf ((if cs.s0 then 1 else 0) + (if cs.s1 then 2 else 0) + if cs.s2 then 4 else 0)])))

/-! ### The device law for paralleling -/

/-- R3, R5, R24, R31, R34 to R36: every step keeps the switch law: the switch of an EMPTY or FAULTED bay is OFF or held, and that of a SEATING bay
is OFF, held, or PASSIVE with its presence recorded. The device's law for paralleling: a row leaves both bay switches ON only where both were ON
before it, or where both VOLTAGE snapshots are present and differ by at most VDIFF_MAX_mV. The exception that R24 names, a take-over while the
other pack is gone, never leaves both ON: the other switch is turned OFF by R6, or by R34 where its bay is in JOLT. The bay law and the switch law
are invariants. -/
def Obligations.BothSwitchesTurnOnOnlyByTheParallelingRule : Prop :=
  (∀ s t : State, (∀ x, bayLaw s x) → (∀ x, switchLaw s x) → step s = .next t → ∀ x, switchLaw t x)
  ∧ ∀ (i : Instr) (s t : State), (∀ x, bayLaw s x) → (∀ x, switchLaw s x) → exec i s = .next t →
      t.pp.sw.a = .on → t.pp.sw.b = .on →
      (s.pp.sw.a = .on ∧ s.pp.sw.b = .on)
        ∨ ∃ v w, t.relays.a.snap.voltage = some v ∧ t.relays.b.snap.voltage = some w
            ∧ v.toNat ≤ w.toNat + vdiffMax t ∧ w.toNat ≤ v.toNat + vdiffMax t

/-! ### The Management Port, continued -/

/-- R134: Brightness Set clamps both levels to MIN_LEVEL and 1000, stores the manual level, applies the mode, stores HOST_MAX and recomputes; O
changes only by that recomputation, down to a lower C with BUDGET_CUT, and otherwise stays, which the law of R114 keeps at or above MIN_LEVEL. The
result is the stored mode, manual level and HOST_MAX with the new C. A mode value above 1 is answered PARAM and changes nothing. -/
def Obligations.BrightnessSetApplies : Prop :=
  (∀ (m l0 l1 h0 h1 : Byte) (s : State), accepts s → 1 < m.toNat →
    exec (.brightnessSet [m, l0, l1, h0, h1]) s = .next (ended (begun s) .param []))
  ∧ ∀ (m l0 l1 h0 h1 : Byte) (mode : PipeMode) (man host : Nat) (s : State), accepts s →
    ((m = 0 ∧ mode = .auto) ∨ (m = 1 ∧ mode = .manual)) →
    man = max (minLevel s) (min (l1 ++ l0).toNat 1000) → host = max (minLevel s) (min (h1 ++ h0).toNat 1000) →
    ∃ t, exec (.brightnessSet [m, l0, l1, h0, h1]) s = .next t
      ∧ t.pipe.mode = mode ∧ t.pipe.manual = man ∧ t.pipe.hostMax = host ∧ t.pipe.t = s.pipe.t ∧ t.pipe.l = s.pipe.l
      ∧ t.pipe.d = (if mode = .manual then man else if s.pipe.mode = .manual then s.pipe.o else s.pipe.d)
      ∧ t.pipe.s = (if mode = .auto ∧ s.pipe.mode = .manual then 16 * s.pipe.o else s.pipe.s)
      ∧ t.pipe.clampedLux = s.pipe.clampedLux ∧ t.pipe.ceilingLimited = s.pipe.ceilingLimited
      ∧ budgetLaw t
      ∧ (t.budget.c < s.pipe.o → t.pipe.o = t.budget.c ∧ queued t .budgetCut ⟨0, t.budget.c⟩)
      ∧ (s.pipe.o ≤ t.budget.c → minLevel s ≤ s.pipe.o → t.pipe.o = s.pipe.o ∧ t.attn = s.attn)
      ∧ t.port.slot = .pending { code := .ok, data := [m] ++ le16 man ++ le16 host ++ le16 t.budget.c }
      ∧ t.bays = s.bays ∧ t.pp = s.pp ∧ t.cache = s.cache

/-- R135: Brightness Query returns the pipeline and C and clears both sticky flags after taking them; nothing else changes. With parameters it is
answered PARAM and the flags are left as they are. -/
def Obligations.BrightnessQueryClearsTheFlags : Prop :=
  (∀ (p : List Byte) (s : State), accepts s → p ≠ [] → exec (.brightnessQuery p) s = .next (ended (begun s) .param []))
  ∧ ∀ s : State, accepts s → exec (.brightnessQuery []) s = .next (ended
    { begun s with pipe := { s.pipe with clampedLux := false, ceilingLimited := false } } .ok
    ([byteOf (modeCode s.pipe.mode)] ++ le16 s.pipe.manual ++ le16 s.pipe.hostMax ++ le16 s.pipe.l ++ le16 s.pipe.t ++ le16 s.pipe.s
      ++ le16 s.pipe.d ++ le16 s.pipe.o ++ le16 s.budget.c
      ++ [byteOf ((if s.pipe.clampedLux then 1 else 0) + if s.pipe.ceilingLimited then 2 else 0)]))

/-- R107 to R113: the budget that the inputs give: EXT at EXT_LIMIT_mW, a conducting bay at its limited and derated power, the bridge at
BRIDGE_mW, the headroom, and the two ceilings. -/
def Obligations.BudgetOfTheInputs : Prop :=
  ∀ s : State,
    (computeBudget s).pExt = (if s.pp.ext then extLimit s else 0)
    ∧ (∀ x, ((computeBudget s).pA = (countedPower s .A).power ∧ (computeBudget s).pB = (countedPower s .B).power)
        ∧ (conductsBay s x = false → countedPower s x = { power := 0, basis := .notCounted, derated := false })
        ∧ (conductsBay s x = true → countedPower s x = bayPower s x)
        ∧ (∀ v i, (s.relays.get x).snap.voltage = some v → (s.relays.get x).snap.maxDischarge = some i →
            (bayPower s x).basis = .snapshot
            ∧ (bayPower s x).power = (if (bayPower s x).derated then min (v.toNat * i.toNat / 1000) (bayLimit s) / 2
                else min (v.toNat * i.toNat / 1000) (bayLimit s)))
        ∧ (((s.relays.get x).snap.voltage = none ∨ (s.relays.get x).snap.maxDischarge = none) →
            (bayPower s x).basis = .dflt
            ∧ (bayPower s x).power = (if (bayPower s x).derated then min (defaultPack s) (bayLimit s) / 2
                else min (defaultPack s) (bayLimit s)))
        ∧ ((bayPower s x).derated = true ↔ ∃ v, (s.relays.get x).snap.temperature = some v ∧ tempHot s ≤ v.toInt))
    ∧ (computeBudget s).pBridge = (if s.pp.bridge = .idle then 0 else bridgeMw s)
    ∧ (computeBudget s).pAvail = (computeBudget s).pExt + (computeBudget s).pA + (computeBudget s).pB + (computeBudget s).pBridge
    ∧ (computeBudget s).h = ((computeBudget s).pAvail : Int) - platformReserve s
    ∧ ((computeBudget s).h ≤ blBase s → (computeBudget s).cBudget = minLevel s)
    ∧ ((blBase s : Int) < (computeBudget s).h → ((computeBudget s).cBudget : Int)
        = min 1000 (max (minLevel s : Int) (((computeBudget s).h - blBase s) * 1000 / (blFull s : Int))))
    ∧ (computeBudget s).c = min (computeBudget s).cBudget s.pipe.hostMax

/-- R159: Drop Log Read returns the record of an index below the number held, counted from the lowest sequence, and EMPTY at or above it; it
changes nothing. An index above 7 is answered PARAM. That the records stand in ascending sequence is the log's law, an invariant. R160: Drop Log
Clear removes every record and returns how many, from 0 to 8; the next sequence is kept and lies above every record removed, and nothing else
changes. The log's law is an invariant. -/
def Obligations.DropLogReadAndClear : Prop :=
  ((∀ (b : Byte) (s : State), accepts s → 7 < b.toNat → exec (.dropLogRead [b]) s = .next (ended (begun s) .param []))
   ∧ ∀ (b : Byte) (s : State), accepts s → b.toNat ≤ 7 →
     (logLaw s.log → ∀ r, s.log.records[b.toNat]? = some r → (s.log.records.countP fun q => decide (q.seq < r.seq)) = b.toNat) ∧
     (∀ r, s.log.records[b.toNat]? = some r → exec (.dropLogRead [b]) s = .next (ended (begun s) .ok
       (le16 r.seq ++ [byteOf (dropKindCode r.kind)] ++ le16 r.n ++ le16 r.height ++ le16 r.peak
         ++ [byteOf ((if r.saturated then 1 else 0) + (if r.ending = .unsettled then 2 else 0) + if r.ending = .stalled then 4 else 0),
             byteOf (restAxisCode r.rest)] ++ le32 r.time
         ++ [byteOf ((if r.jolted.a then 1 else 0) + if r.jolted.b then 2 else 0)])))
     ∧ (s.log.records.length ≤ b.toNat → exec (.dropLogRead [b]) s = .next (ended (begun s) .empty [])))
  ∧ (∀ s : State, accepts s → logLaw s.log →
       exec (.dropLogClear []) s = .next (ended { begun s with log := { records := [], next := s.log.next } } .ok
         [byteOf s.log.records.length])
       ∧ s.log.records.length ≤ 8 ∧ ∀ r ∈ s.log.records, ∀ q, s.log.next = some q → r.seq < q)

/-! ### Table Memory -/

/-- R167: the state tests of the table commands, in order; the first that fails gives the result and nothing changes. R168, R166, R177, R170:
Table Clear of an unlocked region not CHECKING leaves it EMPTY and blank with result OK, and changes nothing else where the region was not in
service; a CODEMAP that leaves service begins a new map instance with an empty cache and empty rings; a CONFIG that leaves service leaves the
built-in values in effect with the budget current and the counts within FAULT_LIMIT. Table Check of a LOADING region makes it CHECKING with
ACCEPTED, and Table Lock sets the lock mark of a region in service. -/
def Obligations.TableCommandsByRegionState : Prop :=
  (∀ (r : RegionId) (b off n : Byte) (rest : List Byte) (s : State), accepts s → regionOfByte b = some r →
     ((s.tables.get r).lock = true → exec (.tableClear [b]) s = .next (ended (begun s) .locked []))
     ∧ ((s.tables.get r).lock = false → (s.tables.get r).state = .checking →
         exec (.tableClear [b]) s = .next (ended (begun s) .busy []))
     ∧ ((s.tables.get r).state ≠ .loading → exec (.tableCheck [b]) s = .next (ended (begun s) .state []))
     ∧ ((s.tables.get r).state ≠ .inService → exec (.tableLock [b]) s = .next (ended (begun s) .state []))
     ∧ (1 ≤ n.toNat → n.toNat ≤ 48 → off.toNat + n.toNat ≤ Config.regionSize r → rest.length = 4 * n.toNat →
         ((s.tables.get r).lock = true → exec (.tableWrite (b :: off :: n :: rest)) s = .next (ended (begun s) .locked []))
         ∧ ((s.tables.get r).lock = false →
             ((s.tables.get r).state = .checking → exec (.tableWrite (b :: off :: n :: rest)) s = .next (ended (begun s) .busy []))
             ∧ ((s.tables.get r).state = .inService → exec (.tableWrite (b :: off :: n :: rest)) s = .next (ended (begun s) .state []))
             ∧ ((s.tables.get r).state ≠ .checking → (s.tables.get r).state ≠ .inService →
                 (∃ k, k < n.toNat ∧ (Memory.get? (s.tables.get r).words (off.toNat + k)).isSome = true) →
                 exec (.tableWrite (b :: off :: n :: rest)) s = .next (ended (begun s) .blank [])))))
  ∧ (∀ (r : RegionId) (b : Byte) (s : State), accepts s → regionOfByte b = some r →
       ((s.tables.get r).lock = false → (s.tables.get r).state ≠ .checking → ∃ t, exec (.tableClear [b]) s = .next t
           ∧ t.tables = s.tables.upd r (fun g => { g with state := .empty, words := [] })
           ∧ t.port.slot = .pending { code := .ok, data := [] }
           ∧ (((s.tables.get r).state ≠ .inService ∨ r = .curve ∨ r = .motion) →
               t = ended (updRegion r (fun g => { g with state := .empty, words := [] }) (begun s)) .ok [])
           ∧ ((s.tables.get r).state = .inService → r = .codemap → t.mapInst = s.mapInst + 1
               ∧ t.cache = s.cache.map (CacheSet.mapLines fun _ => Line.invalid)
               ∧ (∀ x, t.relays.get x = { s.relays.get x with ring := [], ptr := 0, pollDue := false })
               ∧ t.bays = s.bays ∧ t.pp = s.pp)
           ∧ ((s.tables.get r).state = .inService → r = .config → countLaw t ∧ t.pipe.hostMax = max s.pipe.hostMax 20 ∧ budgetLaw t))
       ∧ ((s.tables.get r).state = .loading → exec (.tableCheck [b]) s
           = .next (ended (updRegion r (fun g => { g with state := .checking }) (begun s)) .accepted []))
       ∧ ((s.tables.get r).state = .inService → exec (.tableLock [b]) s
           = .next (ended (updRegion r (fun g => { g with lock := true }) (begun s)) .ok [])))

/-- R169: a Table Write of blank words of an EMPTY or LOADING region stores each word, low byte first, leaves every other word and its blank mark,
makes the region LOADING and returns how many words are blank. Every other region and everything else stays. R176: Table Read returns the words of
a range in ascending order, low byte first, blank words as 0, with the number of blank words among them, in every region state, and changes
nothing; a cleared region reads as zeros all blank, and a region in service has no blank word. -/
def Obligations.TableWriteAndRead : Prop :=
  (∀ (r : RegionId) (b off n : Byte) (rest : List Byte) (s : State), accepts s → regionOfByte b = some r →
     1 ≤ n.toNat → n.toNat ≤ 48 → off.toNat + n.toNat ≤ Config.regionSize r → rest.length = 4 * n.toNat →
     (s.tables.get r).lock = false → ((s.tables.get r).state = .empty ∨ (s.tables.get r).state = .loading) →
     (∀ k, k < n.toNat → Memory.get? (s.tables.get r).words (off.toNat + k) = none) →
     ∃ m blanks, exec (.tableWrite (b :: off :: n :: rest)) s
         = .next (ended (updRegion r (fun g => { g with state := .loading, words := m }) (begun s)) .ok [byteOf blanks])
       ∧ (∀ k b0 b1 b2 b3, k < n.toNat → rest[4 * k]? = some b0 → rest[4 * k + 1]? = some b1 → rest[4 * k + 2]? = some b2 →
           rest[4 * k + 3]? = some b3 → Memory.get? m (off.toNat + k) = some (b3 ++ b2 ++ b1 ++ b0))
       ∧ (∀ i, (i < off.toNat ∨ off.toNat + n.toNat ≤ i) → Memory.get? m i = Memory.get? (s.tables.get r).words i)
       ∧ blanks = (List.range (Config.regionSize r)).countP (fun i => (Memory.get? m i).isNone))
  ∧ (∀ (r : RegionId) (b off n : Byte) (s : State), accepts s → regionOfByte b = some r → 1 ≤ n.toNat → n.toNat ≤ 48 →
       off.toNat + n.toNat ≤ Config.regionSize r →
       ∃ blanks, blanks = (List.range n.toNat).countP (fun k => (Memory.get? (s.tables.get r).words (off.toNat + k)).isNone)
         ∧ exec (.tableRead [b, off, n]) s = .next (ended (begun s) .ok (byteOf blanks :: (List.range n.toNat).flatMap fun k =>
             le32 ((Memory.get? (s.tables.get r).words (off.toNat + k)).getD 0).toNat))
         ∧ ((s.tables.get r).words = [] → blanks = n.toNat)
         ∧ (regionLaw r (s.tables.get r) → (s.tables.get r).state = .inService → blanks = 0))

/-- R171: the end of a check: the lowest blank word, then the sum, then the lowest word that fails its field give FAIL and LOADING, with nothing
else; a pass puts the region IN_SERVICE and posts TABLE_DONE with PASS after the hand-over of R166. A region that is not CHECKING is left as it
is. That the end of a check is a row of its own is the model's (log 26). R171 to R175: what a check tests: no word blank, then the sum of the
words modulo 2 to the power 32, then every word but the check word by its field; the detail names the lowest word. R172 to R175, R195: which word
fails field validation. CONFIG: a word out of the range of section 9.6, and word 9 where V_MIN_mV is not below V_MAX_mV. CODEMAP: a map length
above 128, and an entry that breaks the conditions of R173 or the layout of R195. CURVE: a breakpoint count outside 2 to 16, a parameter out of
the range of section 9.7, and a breakpoint that breaks R174. MOTION: a word out of the range of section 9.8, word 4 where FF_THRESH is not below
STILL_LO, and word 5 where STILL_LO is not below STILL_HI. The ranges are those of the three tables. -/
def Obligations.TableChecks : Prop :=
  (∀ (r : RegionId) (s : State),
     ((s.tables.get r).state ≠ .checking → exec (.tableCheckEnd r) s = .next s)
     ∧ ((s.tables.get r).state = .checking →
         (∀ d, checkFailure r (s.tables.get r).words = some d → exec (.tableCheckEnd r) s
           = .next (post (.tableDone r) d (updRegion r (fun g => { g with state := .loading }) s)))
         ∧ (checkFailure r (s.tables.get r).words = none → ∃ t, exec (.tableCheckEnd r) s = .next t
             ∧ t.tables = s.tables.upd r (fun g => { g with state := .inService }) ∧ queued t (.tableDone r) dPass
             ∧ (r = .curve ∨ r = .motion →
                 t = post (.tableDone r) dPass (updRegion r (fun g => { g with state := .inService }) s))
             ∧ (r = .codemap → t.mapInst = s.mapInst + 1 ∧ t.cache = s.cache ∧ t.bays = s.bays ∧ ∀ x, t.relays.get x
                 = { s.relays.get x with ring := ringOf (.loaded s.tables.codemap.words), ptr := 0, pollDue := false })
             ∧ (r = .config → budgetLaw t ∧ countLaw t ∧ t.pipe.hostMax = max s.pipe.hostMax (minLevel t)
                 ∧ ∀ x, faultLimit t ≤ (s.relays.get x).failCount → servedState (s.bays.get x).state = true →
                     (t.bays.get x).state = .faulted ∧ (t.bays.get x).faultReason = .link))))
  ∧ (∀ (r : RegionId) (m : Memory),
       (∀ i, i < Config.regionSize r → Memory.get? m i = none → (∀ k, k < i → (Memory.get? m k).isSome = true) →
         checkFailure r m = some ⟨1, i⟩)
       ∧ ((∀ i, i < Config.regionSize r → (Memory.get? m i).isSome = true) →
           (regionSum r m ≠ 0 → checkFailure r m = some ⟨2, Config.regionSize r - 1⟩)
           ∧ (regionSum r m = 0 →
               (∀ i, i < Config.regionSize r - 1 → wordFails r m i = true → (∀ k, k < i → wordFails r m k = false) →
                 checkFailure r m = some ⟨3, i⟩)
               ∧ ((∀ i, i < Config.regionSize r - 1 → wordFails r m i = false) → checkFailure r m = none)))
       ∧ regionSum r m = ((List.range (Config.regionSize r)).map fun i => (Memory.get? m i).getD 0).sum)
  ∧ ((∀ (m : Memory) (i : Nat), wordFails .config m i = true ↔
       (∃ r, Config.configRows[i]? = some r ∧ outOfRange r (Memory.read m i)) ∨ (i = 9 ∧ (Memory.read m 9).toNat ≤ (Memory.read m 8).toNat))
     ∧ (∀ m : Memory, wordFails .codemap m 0 = true ↔ 128 < (Memory.read m 0).toNat)
     ∧ (∀ (m : Memory) (c : Nat), wordFails .codemap m (c + 1) = true ↔ entryRefused m c)
     ∧ (∀ m : Memory, wordFails .curve m 0 = true ↔ (Memory.read m 0).toNat < 2 ∨ 16 < (Memory.read m 0).toNat)
     ∧ (∀ (m : Memory) (i : Nat), 1 ≤ i → i ≤ 5 → (wordFails .curve m i = true ↔
         ∃ r, Config.curveRows[i - 1]? = some r ∧ outOfRange r (Memory.read m i)))
     ∧ (∀ (m : Memory) (j : Nat), 1 ≤ j → j ≤ 16 → (wordFails .curve m (j + 5) = true ↔ breakpointRefused m j))
     ∧ (∀ (m : Memory) (i : Nat), wordFails .motion m i = true ↔
         (∃ r, Config.motionRows[i]? = some r ∧ outOfRange r (Memory.read m i))
           ∨ (i = 4 ∧ (Memory.read m 4).toNat ≤ (Memory.read m 1).toNat) ∨ (i = 5 ∧ (Memory.read m 5).toNat ≤ (Memory.read m 4).toNat))
     ∧ Config.configRows.map (fun r => (r.lo, r.hi)) = [(0, 200000), (0, 120000), (0, 120000), (0, 30000), (1000, 60000), (0, 1), (0, 1),
         (0, 2000), (0, 65535), (0, 65535), (0, 65535), (-400, 1250), (-400, 1250), (10, 500), (10, 500), (0, 2000), (0, 3600), (0, 200000),
         (0, 200000), (5, 100), (0, 3), (1, 15), (50, 5000), (0, 10000), (100, 40000), (0, 200)]
     ∧ (∀ i r, Config.configRows[i]? = some r → (r.signed = true ↔ i = 11 ∨ i = 12))
     ∧ Config.curveRows.map (fun r => (r.lo, r.hi, r.signed))
         = [(0, 7, false), (0, 7, false), (0, 100, false), (1, 1000, false), (1, 1000, false)]
     ∧ Config.motionRows.map (fun r => (r.lo, r.hi, r.signed)) = [(50, 1600, false), (1, 255, false), (1, 255, false), (256, 2047, false),
         (64, 255, false), (64, 255, false), (1, 1000, false), (10, 4000, false)])

end
end

