-- ==== Sys2Proof/Laws/State.lean ====
section
/-! SUPPORT. One lemma for each field and each named update of a state, so that no proof unfolds a record update. -/

namespace Sys2Proof.Machine

@[simp] theorem Pair.get_upd_self {α : Type} (p : Pair α) (x : BayId) (f : α → α) : (p.upd x f).get x = f (p.get x) := by
  cases x <;> rfl

@[simp] theorem Pair.get_upd_other {α : Type} (p : Pair α) (x : BayId) (f : α → α) :
    (p.upd x f).get x.other = p.get x.other := by
  cases x <;> rfl

theorem Pair.get_upd_ne {α : Type} (p : Pair α) {x y : BayId} (h : y ≠ x) (f : α → α) : (p.upd x f).get y = p.get y := by
  cases x <;> cases y <;> first | rfl | exact absurd rfl h

@[simp] theorem Tables.get_upd_self (t : Tables) (r : RegionId) (f : Region → Region) : (t.upd r f).get r = f (t.get r) := by
  cases r <;> rfl

theorem Tables.get_upd_ne (t : Tables) {r q : RegionId} (h : q ≠ r) (f : Region → Region) : (t.upd r f).get q = t.get q := by
  cases r <;> cases q <;> first | rfl | exact absurd rfl h

@[simp] theorem updBay_pp (x : BayId) (f : Bay → Bay) (s : State) : (updBay x f s).pp = s.pp := rfl
@[simp] theorem updBay_bays (x : BayId) (f : Bay → Bay) (s : State) : (updBay x f s).bays = s.bays.upd x f := rfl
@[simp] theorem updBay_relays (x : BayId) (f : Bay → Bay) (s : State) : (updBay x f s).relays = s.relays := rfl
@[simp] theorem updBay_pollTimer (x : BayId) (f : Bay → Bay) (s : State) : (updBay x f s).pollTimer = s.pollTimer := rfl
@[simp] theorem updBay_upstream (x : BayId) (f : Bay → Bay) (s : State) : (updBay x f s).upstream = s.upstream := rfl
@[simp] theorem updBay_mapInst (x : BayId) (f : Bay → Bay) (s : State) : (updBay x f s).mapInst = s.mapInst := rfl
@[simp] theorem updBay_cache (x : BayId) (f : Bay → Bay) (s : State) : (updBay x f s).cache = s.cache := rfl
@[simp] theorem updBay_budget (x : BayId) (f : Bay → Bay) (s : State) : (updBay x f s).budget = s.budget := rfl
@[simp] theorem updBay_pipe (x : BayId) (f : Bay → Bay) (s : State) : (updBay x f s).pipe = s.pipe := rfl
@[simp] theorem updBay_lane (x : BayId) (f : Bay → Bay) (s : State) : (updBay x f s).lane = s.lane := rfl
@[simp] theorem updBay_motion (x : BayId) (f : Bay → Bay) (s : State) : (updBay x f s).motion = s.motion := rfl
@[simp] theorem updBay_log (x : BayId) (f : Bay → Bay) (s : State) : (updBay x f s).log = s.log := rfl
@[simp] theorem updBay_tables (x : BayId) (f : Bay → Bay) (s : State) : (updBay x f s).tables = s.tables := rfl
@[simp] theorem updBay_port (x : BayId) (f : Bay → Bay) (s : State) : (updBay x f s).port = s.port := rfl
@[simp] theorem updBay_attn (x : BayId) (f : Bay → Bay) (s : State) : (updBay x f s).attn = s.attn := rfl
@[simp] theorem updBay_flags (x : BayId) (f : Bay → Bay) (s : State) : (updBay x f s).flags = s.flags := rfl
@[simp] theorem updBay_time (x : BayId) (f : Bay → Bay) (s : State) : (updBay x f s).time = s.time := rfl
@[simp] theorem updBay_pending (x : BayId) (f : Bay → Bay) (s : State) : (updBay x f s).pending = s.pending := rfl
@[simp] theorem updRelay_pp (x : BayId) (f : Relay → Relay) (s : State) : (updRelay x f s).pp = s.pp := rfl
@[simp] theorem updRelay_bays (x : BayId) (f : Relay → Relay) (s : State) : (updRelay x f s).bays = s.bays := rfl
@[simp] theorem updRelay_relays (x : BayId) (f : Relay → Relay) (s : State) : (updRelay x f s).relays = s.relays.upd x f := rfl
@[simp] theorem updRelay_pollTimer (x : BayId) (f : Relay → Relay) (s : State) : (updRelay x f s).pollTimer = s.pollTimer := rfl
@[simp] theorem updRelay_upstream (x : BayId) (f : Relay → Relay) (s : State) : (updRelay x f s).upstream = s.upstream := rfl
@[simp] theorem updRelay_mapInst (x : BayId) (f : Relay → Relay) (s : State) : (updRelay x f s).mapInst = s.mapInst := rfl
@[simp] theorem updRelay_cache (x : BayId) (f : Relay → Relay) (s : State) : (updRelay x f s).cache = s.cache := rfl
@[simp] theorem updRelay_budget (x : BayId) (f : Relay → Relay) (s : State) : (updRelay x f s).budget = s.budget := rfl
@[simp] theorem updRelay_pipe (x : BayId) (f : Relay → Relay) (s : State) : (updRelay x f s).pipe = s.pipe := rfl
@[simp] theorem updRelay_lane (x : BayId) (f : Relay → Relay) (s : State) : (updRelay x f s).lane = s.lane := rfl
@[simp] theorem updRelay_motion (x : BayId) (f : Relay → Relay) (s : State) : (updRelay x f s).motion = s.motion := rfl
@[simp] theorem updRelay_log (x : BayId) (f : Relay → Relay) (s : State) : (updRelay x f s).log = s.log := rfl
@[simp] theorem updRelay_tables (x : BayId) (f : Relay → Relay) (s : State) : (updRelay x f s).tables = s.tables := rfl
@[simp] theorem updRelay_port (x : BayId) (f : Relay → Relay) (s : State) : (updRelay x f s).port = s.port := rfl
@[simp] theorem updRelay_attn (x : BayId) (f : Relay → Relay) (s : State) : (updRelay x f s).attn = s.attn := rfl
@[simp] theorem updRelay_flags (x : BayId) (f : Relay → Relay) (s : State) : (updRelay x f s).flags = s.flags := rfl
@[simp] theorem updRelay_time (x : BayId) (f : Relay → Relay) (s : State) : (updRelay x f s).time = s.time := rfl
@[simp] theorem updRelay_pending (x : BayId) (f : Relay → Relay) (s : State) : (updRelay x f s).pending = s.pending := rfl
@[simp] theorem updRegion_pp (r : RegionId) (f : Region → Region) (s : State) : (updRegion r f s).pp = s.pp := rfl
@[simp] theorem updRegion_bays (r : RegionId) (f : Region → Region) (s : State) : (updRegion r f s).bays = s.bays := rfl
@[simp] theorem updRegion_relays (r : RegionId) (f : Region → Region) (s : State) : (updRegion r f s).relays = s.relays := rfl
@[simp] theorem updRegion_pollTimer (r : RegionId) (f : Region → Region) (s : State) : (updRegion r f s).pollTimer = s.pollTimer := rfl
@[simp] theorem updRegion_upstream (r : RegionId) (f : Region → Region) (s : State) : (updRegion r f s).upstream = s.upstream := rfl
@[simp] theorem updRegion_mapInst (r : RegionId) (f : Region → Region) (s : State) : (updRegion r f s).mapInst = s.mapInst := rfl
@[simp] theorem updRegion_cache (r : RegionId) (f : Region → Region) (s : State) : (updRegion r f s).cache = s.cache := rfl
@[simp] theorem updRegion_budget (r : RegionId) (f : Region → Region) (s : State) : (updRegion r f s).budget = s.budget := rfl
@[simp] theorem updRegion_pipe (r : RegionId) (f : Region → Region) (s : State) : (updRegion r f s).pipe = s.pipe := rfl
@[simp] theorem updRegion_lane (r : RegionId) (f : Region → Region) (s : State) : (updRegion r f s).lane = s.lane := rfl
@[simp] theorem updRegion_motion (r : RegionId) (f : Region → Region) (s : State) : (updRegion r f s).motion = s.motion := rfl
@[simp] theorem updRegion_log (r : RegionId) (f : Region → Region) (s : State) : (updRegion r f s).log = s.log := rfl
@[simp] theorem updRegion_tables (r : RegionId) (f : Region → Region) (s : State) : (updRegion r f s).tables = s.tables.upd r f := rfl
@[simp] theorem updRegion_port (r : RegionId) (f : Region → Region) (s : State) : (updRegion r f s).port = s.port := rfl
@[simp] theorem updRegion_attn (r : RegionId) (f : Region → Region) (s : State) : (updRegion r f s).attn = s.attn := rfl
@[simp] theorem updRegion_flags (r : RegionId) (f : Region → Region) (s : State) : (updRegion r f s).flags = s.flags := rfl
@[simp] theorem updRegion_time (r : RegionId) (f : Region → Region) (s : State) : (updRegion r f s).time = s.time := rfl
@[simp] theorem updRegion_pending (r : RegionId) (f : Region → Region) (s : State) : (updRegion r f s).pending = s.pending := rfl
@[simp] theorem setAnswer_pp (a : Answer) (s : State) : (setAnswer a s).pp = s.pp := rfl
@[simp] theorem setAnswer_bays (a : Answer) (s : State) : (setAnswer a s).bays = s.bays := rfl
@[simp] theorem setAnswer_relays (a : Answer) (s : State) : (setAnswer a s).relays = s.relays := rfl
@[simp] theorem setAnswer_pollTimer (a : Answer) (s : State) : (setAnswer a s).pollTimer = s.pollTimer := rfl
@[simp] theorem setAnswer_upstream (a : Answer) (s : State) : (setAnswer a s).upstream = { s.upstream with answer := a } := rfl
@[simp] theorem setAnswer_mapInst (a : Answer) (s : State) : (setAnswer a s).mapInst = s.mapInst := rfl
@[simp] theorem setAnswer_cache (a : Answer) (s : State) : (setAnswer a s).cache = s.cache := rfl
@[simp] theorem setAnswer_budget (a : Answer) (s : State) : (setAnswer a s).budget = s.budget := rfl
@[simp] theorem setAnswer_pipe (a : Answer) (s : State) : (setAnswer a s).pipe = s.pipe := rfl
@[simp] theorem setAnswer_lane (a : Answer) (s : State) : (setAnswer a s).lane = s.lane := rfl
@[simp] theorem setAnswer_motion (a : Answer) (s : State) : (setAnswer a s).motion = s.motion := rfl
@[simp] theorem setAnswer_log (a : Answer) (s : State) : (setAnswer a s).log = s.log := rfl
@[simp] theorem setAnswer_tables (a : Answer) (s : State) : (setAnswer a s).tables = s.tables := rfl
@[simp] theorem setAnswer_port (a : Answer) (s : State) : (setAnswer a s).port = s.port := rfl
@[simp] theorem setAnswer_attn (a : Answer) (s : State) : (setAnswer a s).attn = s.attn := rfl
@[simp] theorem setAnswer_flags (a : Answer) (s : State) : (setAnswer a s).flags = s.flags := rfl
@[simp] theorem setAnswer_time (a : Answer) (s : State) : (setAnswer a s).time = s.time := rfl
@[simp] theorem setAnswer_pending (a : Answer) (s : State) : (setAnswer a s).pending = s.pending := rfl
@[simp] theorem endUpstream_pp (a : Answer) (s : State) : (endUpstream a s).pp = s.pp := rfl
@[simp] theorem endUpstream_bays (a : Answer) (s : State) : (endUpstream a s).bays = s.bays := rfl
@[simp] theorem endUpstream_relays (a : Answer) (s : State) : (endUpstream a s).relays = s.relays := rfl
@[simp] theorem endUpstream_pollTimer (a : Answer) (s : State) : (endUpstream a s).pollTimer = s.pollTimer := rfl
@[simp] theorem endUpstream_upstream (a : Answer) (s : State) : (endUpstream a s).upstream = { tx := none, answer := a } := rfl
@[simp] theorem endUpstream_mapInst (a : Answer) (s : State) : (endUpstream a s).mapInst = s.mapInst := rfl
@[simp] theorem endUpstream_cache (a : Answer) (s : State) : (endUpstream a s).cache = s.cache := rfl
@[simp] theorem endUpstream_budget (a : Answer) (s : State) : (endUpstream a s).budget = s.budget := rfl
@[simp] theorem endUpstream_pipe (a : Answer) (s : State) : (endUpstream a s).pipe = s.pipe := rfl
@[simp] theorem endUpstream_lane (a : Answer) (s : State) : (endUpstream a s).lane = s.lane := rfl
@[simp] theorem endUpstream_motion (a : Answer) (s : State) : (endUpstream a s).motion = s.motion := rfl
@[simp] theorem endUpstream_log (a : Answer) (s : State) : (endUpstream a s).log = s.log := rfl
@[simp] theorem endUpstream_tables (a : Answer) (s : State) : (endUpstream a s).tables = s.tables := rfl
@[simp] theorem endUpstream_port (a : Answer) (s : State) : (endUpstream a s).port = s.port := rfl
@[simp] theorem endUpstream_attn (a : Answer) (s : State) : (endUpstream a s).attn = s.attn := rfl
@[simp] theorem endUpstream_flags (a : Answer) (s : State) : (endUpstream a s).flags = s.flags := rfl
@[simp] theorem endUpstream_time (a : Answer) (s : State) : (endUpstream a s).time = s.time := rfl
@[simp] theorem endUpstream_pending (a : Answer) (s : State) : (endUpstream a s).pending = s.pending := rfl
@[simp] theorem setSlot_pp (v : Slot) (s : State) : (setSlot v s).pp = s.pp := rfl
@[simp] theorem setSlot_bays (v : Slot) (s : State) : (setSlot v s).bays = s.bays := rfl
@[simp] theorem setSlot_relays (v : Slot) (s : State) : (setSlot v s).relays = s.relays := rfl
@[simp] theorem setSlot_pollTimer (v : Slot) (s : State) : (setSlot v s).pollTimer = s.pollTimer := rfl
@[simp] theorem setSlot_upstream (v : Slot) (s : State) : (setSlot v s).upstream = s.upstream := rfl
@[simp] theorem setSlot_mapInst (v : Slot) (s : State) : (setSlot v s).mapInst = s.mapInst := rfl
@[simp] theorem setSlot_cache (v : Slot) (s : State) : (setSlot v s).cache = s.cache := rfl
@[simp] theorem setSlot_budget (v : Slot) (s : State) : (setSlot v s).budget = s.budget := rfl
@[simp] theorem setSlot_pipe (v : Slot) (s : State) : (setSlot v s).pipe = s.pipe := rfl
@[simp] theorem setSlot_lane (v : Slot) (s : State) : (setSlot v s).lane = s.lane := rfl
@[simp] theorem setSlot_motion (v : Slot) (s : State) : (setSlot v s).motion = s.motion := rfl
@[simp] theorem setSlot_log (v : Slot) (s : State) : (setSlot v s).log = s.log := rfl
@[simp] theorem setSlot_tables (v : Slot) (s : State) : (setSlot v s).tables = s.tables := rfl
@[simp] theorem setSlot_port (v : Slot) (s : State) : (setSlot v s).port = { s.port with slot := v } := rfl
@[simp] theorem setSlot_attn (v : Slot) (s : State) : (setSlot v s).attn = s.attn := rfl
@[simp] theorem setSlot_flags (v : Slot) (s : State) : (setSlot v s).flags = s.flags := rfl
@[simp] theorem setSlot_time (v : Slot) (s : State) : (setSlot v s).time = s.time := rfl
@[simp] theorem setSlot_pending (v : Slot) (s : State) : (setSlot v s).pending = s.pending := rfl
@[simp] theorem setHeld_pp (x : BayId) (v : Bool) (s : State) : (setHeld x v s).pp = { s.pp with held := s.pp.held.upd x (fun _ => v) } := rfl
@[simp] theorem setHeld_bays (x : BayId) (v : Bool) (s : State) : (setHeld x v s).bays = s.bays := rfl
@[simp] theorem setHeld_relays (x : BayId) (v : Bool) (s : State) : (setHeld x v s).relays = s.relays := rfl
@[simp] theorem setHeld_pollTimer (x : BayId) (v : Bool) (s : State) : (setHeld x v s).pollTimer = s.pollTimer := rfl
@[simp] theorem setHeld_upstream (x : BayId) (v : Bool) (s : State) : (setHeld x v s).upstream = s.upstream := rfl
@[simp] theorem setHeld_mapInst (x : BayId) (v : Bool) (s : State) : (setHeld x v s).mapInst = s.mapInst := rfl
@[simp] theorem setHeld_cache (x : BayId) (v : Bool) (s : State) : (setHeld x v s).cache = s.cache := rfl
@[simp] theorem setHeld_budget (x : BayId) (v : Bool) (s : State) : (setHeld x v s).budget = s.budget := rfl
@[simp] theorem setHeld_pipe (x : BayId) (v : Bool) (s : State) : (setHeld x v s).pipe = s.pipe := rfl
@[simp] theorem setHeld_lane (x : BayId) (v : Bool) (s : State) : (setHeld x v s).lane = s.lane := rfl
@[simp] theorem setHeld_motion (x : BayId) (v : Bool) (s : State) : (setHeld x v s).motion = s.motion := rfl
@[simp] theorem setHeld_log (x : BayId) (v : Bool) (s : State) : (setHeld x v s).log = s.log := rfl
@[simp] theorem setHeld_tables (x : BayId) (v : Bool) (s : State) : (setHeld x v s).tables = s.tables := rfl
@[simp] theorem setHeld_port (x : BayId) (v : Bool) (s : State) : (setHeld x v s).port = s.port := rfl
@[simp] theorem setHeld_attn (x : BayId) (v : Bool) (s : State) : (setHeld x v s).attn = s.attn := rfl
@[simp] theorem setHeld_flags (x : BayId) (v : Bool) (s : State) : (setHeld x v s).flags = s.flags := rfl
@[simp] theorem setHeld_time (x : BayId) (v : Bool) (s : State) : (setHeld x v s).time = s.time := rfl
@[simp] theorem setHeld_pending (x : BayId) (v : Bool) (s : State) : (setHeld x v s).pending = s.pending := rfl
@[simp] theorem setOutput_pp (o : Nat) (s : State) : (setOutput o s).pp = s.pp := rfl
@[simp] theorem setOutput_bays (o : Nat) (s : State) : (setOutput o s).bays = s.bays := rfl
@[simp] theorem setOutput_relays (o : Nat) (s : State) : (setOutput o s).relays = s.relays := rfl
@[simp] theorem setOutput_pollTimer (o : Nat) (s : State) : (setOutput o s).pollTimer = s.pollTimer := rfl
@[simp] theorem setOutput_upstream (o : Nat) (s : State) : (setOutput o s).upstream = s.upstream := rfl
@[simp] theorem setOutput_mapInst (o : Nat) (s : State) : (setOutput o s).mapInst = s.mapInst := rfl
@[simp] theorem setOutput_cache (o : Nat) (s : State) : (setOutput o s).cache = s.cache := rfl
@[simp] theorem setOutput_budget (o : Nat) (s : State) : (setOutput o s).budget = s.budget := rfl
@[simp] theorem setOutput_pipe (o : Nat) (s : State) : (setOutput o s).pipe = { s.pipe with o := o } := rfl
@[simp] theorem setOutput_lane (o : Nat) (s : State) : (setOutput o s).lane = s.lane := rfl
@[simp] theorem setOutput_motion (o : Nat) (s : State) : (setOutput o s).motion = s.motion := rfl
@[simp] theorem setOutput_log (o : Nat) (s : State) : (setOutput o s).log = s.log := rfl
@[simp] theorem setOutput_tables (o : Nat) (s : State) : (setOutput o s).tables = s.tables := rfl
@[simp] theorem setOutput_port (o : Nat) (s : State) : (setOutput o s).port = s.port := rfl
@[simp] theorem setOutput_attn (o : Nat) (s : State) : (setOutput o s).attn = s.attn := rfl
@[simp] theorem setOutput_flags (o : Nat) (s : State) : (setOutput o s).flags = s.flags := rfl
@[simp] theorem setOutput_time (o : Nat) (s : State) : (setOutput o s).time = s.time := rfl
@[simp] theorem setOutput_pending (o : Nat) (s : State) : (setOutput o s).pending = s.pending := rfl
@[simp] theorem post_pp (k : AttnKey) (d : Detail) (s : State) : (post k d s).pp = s.pp := rfl
@[simp] theorem post_bays (k : AttnKey) (d : Detail) (s : State) : (post k d s).bays = s.bays := rfl
@[simp] theorem post_relays (k : AttnKey) (d : Detail) (s : State) : (post k d s).relays = s.relays := rfl
@[simp] theorem post_pollTimer (k : AttnKey) (d : Detail) (s : State) : (post k d s).pollTimer = s.pollTimer := rfl
@[simp] theorem post_upstream (k : AttnKey) (d : Detail) (s : State) : (post k d s).upstream = s.upstream := rfl
@[simp] theorem post_mapInst (k : AttnKey) (d : Detail) (s : State) : (post k d s).mapInst = s.mapInst := rfl
@[simp] theorem post_cache (k : AttnKey) (d : Detail) (s : State) : (post k d s).cache = s.cache := rfl
@[simp] theorem post_budget (k : AttnKey) (d : Detail) (s : State) : (post k d s).budget = s.budget := rfl
@[simp] theorem post_pipe (k : AttnKey) (d : Detail) (s : State) : (post k d s).pipe = s.pipe := rfl
@[simp] theorem post_lane (k : AttnKey) (d : Detail) (s : State) : (post k d s).lane = s.lane := rfl
@[simp] theorem post_motion (k : AttnKey) (d : Detail) (s : State) : (post k d s).motion = s.motion := rfl
@[simp] theorem post_log (k : AttnKey) (d : Detail) (s : State) : (post k d s).log = s.log := rfl
@[simp] theorem post_tables (k : AttnKey) (d : Detail) (s : State) : (post k d s).tables = s.tables := rfl
@[simp] theorem post_port (k : AttnKey) (d : Detail) (s : State) : (post k d s).port = s.port := rfl
@[simp] theorem post_attn (k : AttnKey) (d : Detail) (s : State) : (post k d s).attn = { queue := coalesce k d s.time.uptime s.attn.queue, req := true } := rfl
@[simp] theorem post_flags (k : AttnKey) (d : Detail) (s : State) : (post k d s).flags = s.flags := rfl
@[simp] theorem post_time (k : AttnKey) (d : Detail) (s : State) : (post k d s).time = s.time := rfl
@[simp] theorem post_pending (k : AttnKey) (d : Detail) (s : State) : (post k d s).pending = s.pending := rfl
@[simp] theorem mapCache_pp (g : Line → Line) (s : State) : (mapCache g s).pp = s.pp := rfl
@[simp] theorem mapCache_bays (g : Line → Line) (s : State) : (mapCache g s).bays = s.bays := rfl
@[simp] theorem mapCache_relays (g : Line → Line) (s : State) : (mapCache g s).relays = s.relays := rfl
@[simp] theorem mapCache_pollTimer (g : Line → Line) (s : State) : (mapCache g s).pollTimer = s.pollTimer := rfl
@[simp] theorem mapCache_upstream (g : Line → Line) (s : State) : (mapCache g s).upstream = s.upstream := rfl
@[simp] theorem mapCache_mapInst (g : Line → Line) (s : State) : (mapCache g s).mapInst = s.mapInst := rfl
@[simp] theorem mapCache_cache (g : Line → Line) (s : State) : (mapCache g s).cache = s.cache.map (CacheSet.mapLines g) := rfl
@[simp] theorem mapCache_budget (g : Line → Line) (s : State) : (mapCache g s).budget = s.budget := rfl
@[simp] theorem mapCache_pipe (g : Line → Line) (s : State) : (mapCache g s).pipe = s.pipe := rfl
@[simp] theorem mapCache_lane (g : Line → Line) (s : State) : (mapCache g s).lane = s.lane := rfl
@[simp] theorem mapCache_motion (g : Line → Line) (s : State) : (mapCache g s).motion = s.motion := rfl
@[simp] theorem mapCache_log (g : Line → Line) (s : State) : (mapCache g s).log = s.log := rfl
@[simp] theorem mapCache_tables (g : Line → Line) (s : State) : (mapCache g s).tables = s.tables := rfl
@[simp] theorem mapCache_port (g : Line → Line) (s : State) : (mapCache g s).port = s.port := rfl
@[simp] theorem mapCache_attn (g : Line → Line) (s : State) : (mapCache g s).attn = s.attn := rfl
@[simp] theorem mapCache_flags (g : Line → Line) (s : State) : (mapCache g s).flags = s.flags := rfl
@[simp] theorem mapCache_time (g : Line → Line) (s : State) : (mapCache g s).time = s.time := rfl
@[simp] theorem mapCache_pending (g : Line → Line) (s : State) : (mapCache g s).pending = s.pending := rfl

end Sys2Proof.Machine
end

