-- ==== Sys2Proof/Laws/Cache.lean ====
section
/-! SUPPORT. What each use of the Reading Cache does to its law (R85): at most one valid line for a bay and code. -/

namespace Sys2Proof.Machine

theorem lineLaw_invalid (i : Nat) : lineLaw i Line.invalid := ⟨fun h => Bool.noConfusion h, fun _ => rfl⟩

theorem apart_comm {l k : Line} (h : apart l k) : apart k l := fun g => h ⟨g.2.1, g.1, g.2.2.1.symm, g.2.2.2.symm⟩

/-- `f` makes no line valid and moves no valid line to another bay or code. -/
def stays (f : Line → Line) : Prop := ∀ l, (f l).valid = true → l.valid = true ∧ (f l).bay = l.bay ∧ (f l).code = l.code

/-- `f` keeps the law of a line. -/
def legal (f : Line → Line) : Prop := ∀ i l, lineLaw i l → lineLaw i (f l)

theorem apart_of_stays {f g : Line → Line} (hf : stays f) (hg : stays g) {l k : Line} (h : apart l k) : apart (f l) (g k) :=
  fun e => h ⟨(hf l e.1).1, (hg k e.2.1).1, (hf l e.1).2.1 ▸ (hg k e.2.1).2.1 ▸ e.2.2.1,
    (hf l e.1).2.2 ▸ (hg k e.2.1).2.2 ▸ e.2.2.2⟩

theorem stays_id : stays id := fun _ h => ⟨h, rfl, rfl⟩

theorem cacheSet_set (c : List CacheSet) (i j : Nat) (v : CacheSet) (hj : j < c.length) :
    cacheSet (c.set j v) i = if i = j then v else cacheSet c i := by
  unfold cacheSet
  by_cases h : i = j
  · subst h; simp [hj]
  · simp [h, Ne.symm h]

/-- One set changed lawfully keeps the cache's law. -/
theorem cacheLaw_set {c : List CacheSet} (h : cacheLaw c) (i : Nat) (v : CacheSet) (hi : i < 16) (hv : setLaw i v) :
    cacheLaw (c.set i v) := by
  refine ⟨by simpa using h.1, fun j hj => ?_⟩
  rw [cacheSet_set c j i v (by rw [h.1]; exact hi)]
  split
  · next e => subst e; exact hv
  · exact h.2 j hj

theorem setLaw_mapLines {i : Nat} {cs : CacheSet} {f : Line → Line} (hs : stays f) (hl : legal f) (h : setLaw i cs) :
    setLaw i (cs.mapLines f) := by
  obtain ⟨a, b, c, d, p, q, r, u, v, w⟩ := h
  exact ⟨hl _ _ a, hl _ _ b, hl _ _ c, hl _ _ d, apart_of_stays hs hs p, apart_of_stays hs hs q, apart_of_stays hs hs r,
    apart_of_stays hs hs u, apart_of_stays hs hs v, apart_of_stays hs hs w⟩

/-- Every line changed lawfully keeps the cache's law. -/
theorem cacheLaw_map {c : List CacheSet} {f : Line → Line} (hs : stays f) (hl : legal f) (h : cacheLaw c) :
    cacheLaw (c.map (CacheSet.mapLines f)) := by
  refine ⟨by simpa using h.1, fun i hi => ?_⟩
  have : cacheSet (c.map (CacheSet.mapLines f)) i = (cacheSet c i).mapLines f := by
    unfold cacheSet
    have hlen : i < c.length := by rw [h.1]; exact hi
    simp [hlen]
  rw [this]
  exact setLaw_mapLines hs hl (h.2 i hi)

theorem setLaw_touch {i : Nat} {cs : CacheSet} (w : Way) (h : setLaw i cs) : setLaw i (cs.touch w) := by cases w <;> exact h

/-- One line of a set changed lawfully. -/
theorem setLaw_put {i : Nat} {cs : CacheSet} (w : Way) {f : Line → Line} (hs : stays f) (hl : legal f) (h : setLaw i cs) :
    setLaw i (cs.put w (f (cs.get w))) := by
  have id' := stays_id
  obtain ⟨a, b, c, d, p, q, r, u, v, z⟩ := h
  cases w
  · exact ⟨hl _ _ a, b, c, d, apart_of_stays hs id' p, apart_of_stays hs id' q, apart_of_stays hs id' r, u, v, z⟩
  · exact ⟨a, hl _ _ b, c, d, apart_of_stays id' hs p, q, r, apart_of_stays hs id' u, apart_of_stays hs id' v, z⟩
  · exact ⟨a, b, hl _ _ c, d, p, apart_of_stays id' hs q, r, apart_of_stays id' hs u, v, apart_of_stays hs id' z⟩
  · exact ⟨a, b, c, hl _ _ d, p, q, apart_of_stays id' hs r, u, apart_of_stays id' hs v, apart_of_stays id' hs z⟩

theorem holds_iff (l : Line) (x : BayId) (c : Code) : l.holds x c = true ↔ l.valid = true ∧ l.bay = x ∧ l.code = c := by
  simp [Line.holds, and_assoc]

/-- A way that a lookup finds holds the bay and code. -/
theorem find_some {cs : CacheSet} {x : BayId} {c : Code} {w : Way} (h : cs.find x c = some w) : (cs.get w).holds x c = true := by
  unfold CacheSet.find at h
  split at h
  · next e => cases h; exact e
  · split at h
    · next e => cases h; exact e
    · split at h
      · next e => cases h; exact e
      · split at h
        · next e => cases h; exact e
        · cases h

/-- Where a lookup misses, no way holds the bay and code. -/
theorem find_none {cs : CacheSet} {x : BayId} {c : Code} (h : cs.find x c = none) (w : Way) : (cs.get w).holds x c = false := by
  unfold CacheSet.find at h
  split at h
  · cases h
  · split at h
    · cases h
    · split at h
      · cases h
      · split at h
        · cases h
        · cases w <;> simp_all [CacheSet.get]

/-- R89, R90: a fill keeps the law of its set. -/
theorem setLaw_fill {i : Nat} {cs : CacheSet} (x : BayId) (c : Code) (v : Half) (hc : setOf c = i) (h : setLaw i cs) :
    setLaw i (cs.fill x c v) := by
  have hfree : ∀ w, w ≠ (cs.find x c).getD cs.victim → apart (cs.get w)
      { valid := true, bay := x, code := c, value := v, state := .fresh, age := 0 } := by
    intro w hw e
    obtain ⟨hv, -, hb, hcc⟩ := e
    have hh : (cs.get w).holds x c = true := (holds_iff _ _ _).2 ⟨hv, hb, hcc⟩
    cases hf : cs.find x c with
    | none => rw [find_none hf w] at hh; cases hh
    | some w' =>
      rw [hf] at hw
      simp only [Option.getD_some, ne_eq] at hw
      have h' := (holds_iff _ _ _).1 (find_some hf)
      have hh' := (holds_iff _ _ _).1 hh
      obtain ⟨-, -, -, -, p, q, r, u, z, y⟩ := h
      have key : ∀ l k : Line, apart l k → l.valid = true ∧ l.bay = x ∧ l.code = c → k.valid = true ∧ k.bay = x ∧ k.code = c →
          False := fun l k ha hl hk => ha ⟨hl.1, hk.1, hl.2.1.trans hk.2.1.symm, hl.2.2.trans hk.2.2.symm⟩
      cases w <;> cases w' <;> first
        | exact hw rfl
        | exact key _ _ p hh' h' | exact key _ _ p h' hh' | exact key _ _ q hh' h' | exact key _ _ q h' hh'
        | exact key _ _ r hh' h' | exact key _ _ r h' hh' | exact key _ _ u hh' h' | exact key _ _ u h' hh'
        | exact key _ _ z hh' h' | exact key _ _ z h' hh' | exact key _ _ y hh' h' | exact key _ _ y h' hh'
  have hnew : lineLaw i { valid := true, bay := x, code := c, value := v, state := .fresh, age := 0 } :=
    ⟨fun _ => ⟨hc, Nat.zero_le _⟩, fun h => Bool.noConfusion h⟩
  unfold CacheSet.fill
  refine setLaw_touch _ ?_
  obtain ⟨a, b, d, e, p, q, r, u, z, y⟩ := h
  generalize (cs.find x c).getD cs.victim = w at hfree
  have h0 := hfree .w0
  have h1 := hfree .w1
  have h2 := hfree .w2
  have h3 := hfree .w3
  cases w
  · exact ⟨hnew, b, d, e, apart_comm (h1 (by decide)), apart_comm (h2 (by decide)), apart_comm (h3 (by decide)), u, z, y⟩
  · exact ⟨a, hnew, d, e, h0 (by decide), q, r, apart_comm (h2 (by decide)), apart_comm (h3 (by decide)), y⟩
  · exact ⟨a, b, hnew, e, p, h0 (by decide), r, h1 (by decide), z, apart_comm (h3 (by decide))⟩
  · exact ⟨a, b, d, hnew, p, q, h0 (by decide), u, h1 (by decide), h2 (by decide)⟩

/-! ### The changes the notices make -/

theorem stays_of_cases {f : Line → Line} (h : ∀ l, f l = Line.invalid ∨ ((f l).valid = l.valid ∧ (f l).bay = l.bay ∧ (f l).code = l.code)) :
    stays f := by
  intro l hv
  rcases h l with e | e
  · rw [e] at hv; cases hv
  · exact ⟨e.1 ▸ hv, e.2.1, e.2.2⟩

/-- A line becomes invalid, stays, or keeps valid mark, bay and code with a lawful age. -/
def changeOk (l k : Line) : Prop :=
  k = Line.invalid ∨ k = l ∨ (l.valid = true ∧ k.valid = true ∧ k.bay = l.bay ∧ k.code = l.code ∧ (l.age ≤ 255 → k.age ≤ 255))

theorem stays_of_ok {f : Line → Line} (h : ∀ l, changeOk l (f l)) : stays f := by
  intro l hv
  rcases h l with e | e | e
  · rw [e] at hv; cases hv
  · rw [e] at hv ⊢; exact ⟨hv, rfl, rfl⟩
  · exact ⟨e.1, e.2.2.1, e.2.2.2.1⟩

theorem legal_of_ok {f : Line → Line} (h : ∀ l, changeOk l (f l)) : legal f := by
  intro i l hl
  rcases h l with e | e | e
  · rw [e]; exact lineLaw_invalid i
  · rw [e]; exact hl
  · exact ⟨fun _ => ⟨by rw [e.2.2.2.1]; exact (hl.1 e.1).1, e.2.2.2.2 (hl.1 e.1).2⟩, fun g => by rw [e.2.1] at g; cases g⟩

theorem distrust_ok (l : Line) : changeOk l l.distrust := by
  unfold Line.distrust
  split
  · next h => exact Or.inr (Or.inr ⟨h.1, h.1, rfl, rfl, id⟩)
  · exact Or.inr (Or.inl rfl)

theorem older_ok (l : Line) : changeOk l l.older := by
  unfold Line.older
  split
  · next h => exact Or.inr (Or.inr ⟨h, h, rfl, rfl, fun _ => Nat.min_le_left _ _⟩)
  · exact Or.inr (Or.inl rfl)

theorem writeLine_ok (b : Bool) (v : Half) (l : Line) (hv : l.valid = true) : changeOk l (writeLine b v l) := by
  unfold writeLine
  split
  · split
    · exact Or.inr (Or.inl rfl)
    · exact Or.inr (Or.inr ⟨hv, hv, rfl, rfl, fun _ => Nat.zero_le _⟩)
    · exact Or.inr (Or.inr ⟨hv, hv, rfl, rfl, fun _ => Nat.zero_le _⟩)
  · exact Or.inl rfl

theorem parkLine_ok (view : MapView) (l : Line) (hv : l.valid = true) : changeOk l (parkLine view l) := by
  unfold parkLine
  split
  · split
    · exact Or.inr (Or.inr ⟨hv, hv, rfl, rfl, id⟩)
    · exact Or.inl rfl
  · exact Or.inl rfl
  · exact Or.inr (Or.inl rfl)

theorem setOf_lt (c : Code) : setOf c < 16 := Nat.mod_lt _ (by decide)

theorem cacheLaw_reset : cacheLaw (List.replicate 16 CacheSet.reset) := by
  refine ⟨by simp, fun i hi => ?_⟩
  have : cacheSet (List.replicate 16 CacheSet.reset) i = CacheSet.reset := by
    interval_cases i <;> rfl
  rw [this]
  have ha : apart Line.invalid Line.invalid := fun e => Bool.noConfusion e.1
  have hl := lineLaw_invalid i
  exact ⟨hl, hl, hl, hl, ha, ha, ha, ha, ha, ha⟩

end Sys2Proof.Machine
end

