-- ==== Sys2Proof/Laws/Queue.lean ====
section
/-! SUPPORT. What a posting does to the Attention Queue, and that the queue's law is kept (R197 to R199). -/

namespace Sys2Proof.Machine

theorem coalesce_keys_mem (k : AttnKey) (d : Detail) (now : Nat) (q : List AttnEntry) (h : k ∈ q.map AttnEntry.key) :
    (coalesce k d now q).map AttnEntry.key = q.map AttnEntry.key := by
  induction q with
  | nil => simp at h
  | cons e rest ih =>
    simp only [coalesce]
    split
    · rfl
    · next hne =>
      simp only [List.map_cons, List.mem_cons] at h ⊢
      rw [ih (h.resolve_left fun he => hne he.symm)]

theorem coalesce_keys_new (k : AttnKey) (d : Detail) (now : Nat) (q : List AttnEntry) (h : k ∉ q.map AttnEntry.key) :
    coalesce k d now q = q ++ [{ key := k, count := 1, first := now, detail := d }] := by
  induction q with
  | nil => rfl
  | cons e rest ih =>
    simp only [List.map_cons, List.mem_cons, not_or] at h
    simp only [coalesce]
    rw [if_neg (fun he => h.1 he.symm), ih h.2]
    rfl

theorem coalesce_nodup (k : AttnKey) (d : Detail) (now : Nat) (q : List AttnEntry) (h : (q.map AttnEntry.key).Nodup) :
    ((coalesce k d now q).map AttnEntry.key).Nodup := by
  by_cases hk : k ∈ q.map AttnEntry.key
  · rw [coalesce_keys_mem k d now q hk]; exact h
  · rw [coalesce_keys_new k d now q hk, List.map_append]
    exact List.nodup_append.2 ⟨h, by simp, by
      intro a ha b hb hab
      simp only [List.map_cons, List.map_nil, List.mem_singleton] at hb
      exact hk (by rw [← hb, ← hab]; exact ha)⟩

theorem coalesce_counts (k : AttnKey) (d : Detail) (now : Nat) (q : List AttnEntry)
    (h : ∀ e ∈ q, 1 ≤ e.count ∧ e.count ≤ 255) : ∀ e ∈ coalesce k d now q, 1 ≤ e.count ∧ e.count ≤ 255 := by
  induction q with
  | nil => simp [coalesce]
  | cons a rest ih =>
    intro e he
    simp only [coalesce] at he
    split at he
    · rcases List.mem_cons.1 he with rfl | he
      · have := h a (by simp); simp only; omega
      · exact h e (List.mem_cons_of_mem _ he)
    · rcases List.mem_cons.1 he with rfl | he
      · exact h e (by simp)
      · exact ih (fun e he => h e (List.mem_cons_of_mem _ he)) e he

theorem coalesce_ne_nil (k : AttnKey) (d : Detail) (now : Nat) (q : List AttnEntry) : coalesce k d now q ≠ [] := by
  cases q with
  | nil => simp [coalesce]
  | cons a rest => simp only [coalesce]; split <;> simp

/-- A posting keeps the queue's law. -/
theorem attnLaw_post (k : AttnKey) (d : Detail) (s : State) (h : attnLaw s.attn) : attnLaw (post k d s).attn := by
  refine ⟨coalesce_nodup k d _ _ h.1, coalesce_counts k d _ _ h.2.1, ?_⟩
  have := coalesce_ne_nil k d s.time.uptime s.attn.queue
  cases hq : coalesce k d s.time.uptime s.attn.queue with
  | nil => exact absurd hq this
  | cons a r => simp [hq]

end Sys2Proof.Machine
end

