-- ==== Sys2Proof/Laws/Budget.lean ====
section
/-! SUPPORT. What one recomputation of the budget can do: the record, O and the Attention Queue, and nothing else; and the law of R114. -/

namespace Sys2Proof.Machine

/-- R114: the output level at the end of a recomputation. -/
def cutTo (c minL o : Nat) : Nat := if c < o then c else if o < minL then minL else o

/-- The queue at the end of a recomputation. -/
def cutAttn (c o : Nat) (s : State) : Attn := if c < o then (post .budgetCut (dCeiling c) s).attn else s.attn

/-- Everything a recomputation does. -/
theorem recompute_eq (s : State) : recompute s =
    { s with budget := computeBudget s, pipe := { s.pipe with o := cutTo (computeBudget s).c (minLevel s) s.pipe.o },
             attn := cutAttn (computeBudget s).c s.pipe.o s } := by
  unfold recompute applyCeiling cutTo cutAttn
  simp only
  split
  · rfl
  · have hm : minLevel { s with budget := computeBudget s } = minLevel s := rfl
    rw [hm]
    split <;> rfl

/-- R112: C_budget is at least MIN_LEVEL. -/
theorem le_budgetCeiling (minL base full : Nat) (h : Int) (hm : minL ≤ 1000) : minL ≤ budgetCeiling minL base full h := by
  unfold budgetCeiling
  split
  · exact le_rfl
  · exact le_min hm (le_max_left _ _)

/-- R112: C_budget is at most 1000. -/
theorem budgetCeiling_le (minL base full : Nat) (h : Int) (hm : minL ≤ 1000) : budgetCeiling minL base full h ≤ 1000 := by
  unfold budgetCeiling
  split
  · exact hm
  · exact min_le_left _ _

/-- R113: C lies between MIN_LEVEL and HOST_MAX. -/
theorem computeBudget_c (s : State) (hm : minLevel s ≤ 1000) (hh : minLevel s ≤ s.pipe.hostMax) :
    minLevel s ≤ (computeBudget s).c ∧ (computeBudget s).c ≤ s.pipe.hostMax :=
  ⟨le_min (le_budgetCeiling _ _ _ _ hm) hh, min_le_right _ _⟩

theorem cutTo_bounds (c minL o : Nat) (h : minL ≤ c) : minL ≤ cutTo c minL o ∧ cutTo c minL o ≤ c := by
  unfold cutTo
  split
  · exact ⟨h, le_rfl⟩
  · split <;> constructor <;> omega

/-- R114: a recomputation establishes the law, whatever O was. -/
theorem outputLaw_recompute (s : State) (hm : minLevel s ≤ 1000) (hh : minLevel s ≤ s.pipe.hostMax) :
    outputLaw (recompute s) := by
  rw [recompute_eq]
  have hc := computeBudget_c s hm hh
  have ho := cutTo_bounds (computeBudget s).c (minLevel s) s.pipe.o hc.1
  exact ⟨ho.1, ho.2, hc.2⟩

theorem attnLaw_cutAttn (c o : Nat) (s : State) (h : attnLaw s.attn) : attnLaw (cutAttn c o s) := by
  unfold cutAttn
  split
  · exact attnLaw_post _ _ _ h
  · exact h

/-- R108 to R110: the inputs of the contribution of one bay. -/
theorem countedPower_congr {s t : State} (x : BayId) (hc : ∀ i, inEffect t .config i = inEffect s .config i) (hs : t.pp.sw = s.pp.sw)
    (hp : (t.bays.get x).presence = (s.bays.get x).presence) (hn : (t.relays.get x).snap = (s.relays.get x).snap) :
    countedPower t x = countedPower s x := by
  unfold countedPower bayPower rawPower hot conductsBay bayLimit defaultPack tempHot cfg
  rw [hs, hp, hn, hc, hc, hc]

/-- R107, R111 to R113: the budget is that of its contributions. -/
theorem computeBudget_parts {s t : State} (hc : ∀ i, inEffect t .config i = inEffect s .config i) (he : t.pp.ext = s.pp.ext) (hb : t.pp.bridge = s.pp.bridge)
    (hp : ∀ x, countedPower t x = countedPower s x) (hm : t.pipe.hostMax = s.pipe.hostMax) : computeBudget t = computeBudget s := by
  unfold computeBudget extPower bridgePower conductsBridge extLimit bridgeMw platformReserve blBase blFull minLevel cfg
  simp only [hc, he, hb, hp, hm]

/-- R105: the inputs of the budget. -/
theorem computeBudget_congr {s t : State} (ht : t.tables = s.tables) (he : t.pp.ext = s.pp.ext) (hs : t.pp.sw = s.pp.sw)
    (hb : t.pp.bridge = s.pp.bridge) (hp : ∀ x, (t.bays.get x).presence = (s.bays.get x).presence)
    (hn : ∀ x, (t.relays.get x).snap = (s.relays.get x).snap) (hm : t.pipe.hostMax = s.pipe.hostMax) :
    computeBudget t = computeBudget s := by
  have hc : ∀ i, inEffect t .config i = inEffect s .config i := fun i => by unfold inEffect; rw [ht]
  exact computeBudget_parts hc he hb (fun x => countedPower_congr x hc hs (hp x) (hn x)) hm

/-- R105: after a recomputation the record is that of the present inputs. -/
theorem budgetLaw_recompute (s : State) : budgetLaw (recompute s) := by
  unfold budgetLaw
  rw [recompute_eq]
  exact (computeBudget_congr rfl rfl rfl rfl (fun _ => rfl) (fun _ => rfl) rfl).symm

/-- The law of R114 gives MIN_LEVEL ≤ HOST_MAX. -/
theorem minLevel_le_hostMax {s : State} (h : outputLaw s) : minLevel s ≤ s.pipe.hostMax := h.1.trans (h.2.1.trans h.2.2)

end Sys2Proof.Machine
end

