-- ==== Sys2Proof/Laws/Acts.lean ====
section
/-! SUPPORT. Everything an action of the Power Path Controller, the Bay Controller or the Pack Link Relay can do, said once: what it leaves as
it was and which laws it keeps. One lemma for each operation, cited in place of unfolding it. -/

namespace Sys2Proof.Machine

/-- The state `t` is reached from `s` by changes that leave these parts alone and keep these laws. -/
structure Moves (s t : State) : Prop where
  tables : t.tables = s.tables
  log : t.log = s.log
  flags : t.flags = s.flags
  time : t.time = s.time
  lane : t.lane = s.lane
  mapInst : t.mapInst = s.mapInst
  port : t.port = s.port
  pending : t.pending = s.pending
  pollTimer : t.pollTimer = s.pollTimer
  pipe : t.pipe = { s.pipe with o := t.pipe.o }
  motion : t.motion = { s.motion with jolted := t.motion.jolted }
  ext : t.pp.ext = s.pp.ext
  bridgeReady : t.pp.bridgeReady = s.pp.bridgeReady
  power : powerLaw s.pp → powerLaw t.pp
  attn : attnLaw s.attn → attnLaw t.attn
  cache : cacheLaw s.cache → cacheLaw t.cache
  output : minLevel s ≤ 1000 → outputLaw s → outputLaw t
  count : countLaw s → countLaw t

theorem minLevel_congr {s t : State} (h : t.tables = s.tables) : minLevel t = minLevel s := by
  unfold minLevel cfg inEffect; rw [h]

theorem faultLimit_congr {s t : State} (h : t.tables = s.tables) : faultLimit t = faultLimit s := by
  unfold faultLimit cfg inEffect; rw [h]

theorem Moves.refl (s : State) : Moves s s :=
  ⟨rfl, rfl, rfl, rfl, rfl, rfl, rfl, rfl, rfl, rfl, rfl, rfl, rfl, id, id, id, fun _ h => h, id⟩

variable {s0 s : State}

/-! ### Primitive changes -/

theorem Moves.updBay (h : Moves s0 s) (x : BayId) (f : Bay → Bay) : Moves s0 (updBay x f s) := { h with }

theorem Moves.upstream (h : Moves s0 s) (u : Upstream) : Moves s0 { s with upstream := u } := { h with }

theorem Moves.setAnswer (h : Moves s0 s) (a : Answer) : Moves s0 (setAnswer a s) := { h with }

theorem Moves.endUpstream (h : Moves s0 s) (a : Answer) : Moves s0 (endUpstream a s) := { h with }

theorem Moves.post (h : Moves s0 s) (k : AttnKey) (d : Detail) : Moves s0 (post k d s) :=
  { h with attn := fun g => attnLaw_post k d s (h.attn g) }

theorem Moves.jolted (h : Moves s0 s) (j : Pair Bool) : Moves s0 { s with motion := { s.motion with jolted := j } } :=
  { h with motion := by show ({ s.motion with jolted := j } : Motion) = _; rw [h.motion] }

theorem Moves.updRelay (h : Moves s0 s) (x : BayId) (f : Relay → Relay)
    (hf : ∀ r, (f r).failCount ≤ r.failCount := by intro r; first | exact le_rfl | exact Nat.zero_le _) :
    Moves s0 (updRelay x f s) :=
  { h with
    count := fun g => by
      have g' := h.count g
      cases x
      · exact ⟨(hf _).trans g'.1, g'.2⟩
      · exact ⟨g'.1, (hf _).trans g'.2⟩ }

theorem Moves.mapCache (h : Moves s0 s) (f : Line → Line) (hf : ∀ l, changeOk l (f l)) : Moves s0 (mapCache f s) :=
  { h with cache := fun g => cacheLaw_map (stays_of_ok hf) (legal_of_ok hf) (h.cache g) }

theorem Moves.updSet (h : Moves s0 s) (i : Nat) (hi : i < 16) (f : CacheSet → CacheSet) (hf : ∀ cs, setLaw i cs → setLaw i (f cs)) :
    Moves s0 (updSet i f s) :=
  { h with cache := fun g => cacheLaw_set (h.cache g) i _ hi (hf _ ((h.cache g).2 i hi)) }

theorem Moves.setCache (h : Moves s0 s) (c : List CacheSet) (hc : cacheLaw s.cache → cacheLaw c) : Moves s0 { s with cache := c } :=
  { h with cache := fun g => hc (h.cache g) }

theorem Moves.recompute (h : Moves s0 s) : Moves s0 (recompute s) := by
  have hr := recompute_eq s
  refine
    { tables := by rw [hr]; exact h.tables, log := by rw [hr]; exact h.log, flags := by rw [hr]; exact h.flags,
      time := by rw [hr]; exact h.time, lane := by rw [hr]; exact h.lane, mapInst := by rw [hr]; exact h.mapInst,
      port := by rw [hr]; exact h.port, pending := by rw [hr]; exact h.pending, pollTimer := by rw [hr]; exact h.pollTimer,
      pipe := by rw [hr]; simp only; rw [h.pipe], motion := by rw [hr]; exact h.motion, ext := by rw [hr]; exact h.ext,
      bridgeReady := by rw [hr]; exact h.bridgeReady, power := by rw [hr]; exact h.power,
      attn := fun g => by rw [hr]; exact attnLaw_cutAttn _ _ _ (h.attn g),
      cache := by rw [hr]; exact h.cache,
      output := fun hm g => outputLaw_recompute s (by rw [minLevel_congr h.tables]; exact hm) (minLevel_le_hostMax (h.output hm g)),
      count := by
        intro g
        have := h.count g
        rw [hr]
        exact this }

/-- A change of the power path that keeps its law, EXT and BRIDGE_READY, followed by a recomputation. -/
theorem Moves.setPower (h : Moves s0 s) (p : PowerPath) (he : p.ext = s.pp.ext) (hb : p.bridgeReady = s.pp.bridgeReady)
    (hp : powerLaw s.pp → powerLaw p) : Moves s0 { s with pp := p } :=
  { h with ext := he.trans h.ext, bridgeReady := hb.trans h.bridgeReady, power := fun g => hp (h.power g) }


theorem Moves.trans {s t u : State} (h : Moves s t) (k : Moves t u) : Moves s u where
  tables := k.tables.trans h.tables
  log := k.log.trans h.log
  flags := k.flags.trans h.flags
  time := k.time.trans h.time
  lane := k.lane.trans h.lane
  mapInst := k.mapInst.trans h.mapInst
  port := k.port.trans h.port
  pending := k.pending.trans h.pending
  pollTimer := k.pollTimer.trans h.pollTimer
  pipe := by rw [k.pipe, h.pipe]
  motion := by rw [k.motion, h.motion]
  ext := k.ext.trans h.ext
  bridgeReady := k.bridgeReady.trans h.bridgeReady
  power := fun g => k.power (h.power g)
  attn := fun g => k.attn (h.attn g)
  cache := fun g => k.cache (h.cache g)
  output := fun hm g => k.output (by rw [minLevel_congr h.tables]; exact hm) (h.output hm g)
  count := fun g => k.count (h.count g)

/-- The state `t` is reached from `s` by the rows of the lines and debounces: moves that keep the budget current. -/
structure Turns (s t : State) : Prop where
  moves : Moves s t
  budget : budgetLaw s → budgetLaw t

/-- The lines and the recorded levels of a bay. -/
def Bay.levels (b : Bay) : Bool × Bool × Bool × Bool := (b.presLine, b.presence, b.latchLine, b.latch)

/-- The state `t` is reached from `s` by actions of the power path, the bays, the relay and the cache: the lines and the recorded levels stay. -/
structure Acts (s t : State) : Prop where
  moves : Moves s t
  budget : budgetLaw s → budgetLaw t
  levels : ∀ x, (t.bays.get x).levels = (s.bays.get x).levels

theorem Acts.refl (s : State) : Acts s s := ⟨Moves.refl s, id, fun _ => rfl⟩

theorem Acts.trans {s t u : State} (h : Acts s t) (k : Acts t u) : Acts s u :=
  ⟨h.moves.trans k.moves, fun g => k.budget (h.budget g), fun x => (k.levels x).trans (h.levels x)⟩

theorem Acts.turns {s t : State} (h : Acts s t) : Turns s t := ⟨h.moves, h.budget⟩

theorem Turns.acts {s t u : State} (h : Turns s t) (k : Acts t u) : Turns s u :=
  ⟨h.moves.trans k.moves, fun g => k.budget (h.budget g)⟩

/-- Moves followed by a recomputation keep the budget current, whatever they changed. -/
theorem Moves.turns {s t : State} (h : Moves s t) : Turns s (Machine.recompute t) := ⟨h.recompute, fun _ => budgetLaw_recompute t⟩

section Parts
variable {t u : State} (h : Acts t u)
include h
theorem Acts.tables : u.tables = t.tables := h.moves.tables
theorem Acts.log : u.log = t.log := h.moves.log
theorem Acts.flags : u.flags = t.flags := h.moves.flags
theorem Acts.time : u.time = t.time := h.moves.time
theorem Acts.lane : u.lane = t.lane := h.moves.lane
theorem Acts.mapInst : u.mapInst = t.mapInst := h.moves.mapInst
theorem Acts.port : u.port = t.port := h.moves.port
theorem Acts.pending : u.pending = t.pending := h.moves.pending
theorem Acts.pollTimer : u.pollTimer = t.pollTimer := h.moves.pollTimer
theorem Acts.pipe : u.pipe = { t.pipe with o := u.pipe.o } := h.moves.pipe
theorem Acts.motion : u.motion = { t.motion with jolted := u.motion.jolted } := h.moves.motion
theorem Acts.ext : u.pp.ext = t.pp.ext := h.moves.ext
theorem Acts.bridgeReady : u.pp.bridgeReady = t.pp.bridgeReady := h.moves.bridgeReady
theorem Acts.power : powerLaw t.pp → powerLaw u.pp := h.moves.power
theorem Acts.attn : attnLaw t.attn → attnLaw u.attn := h.moves.attn
theorem Acts.cache : cacheLaw t.cache → cacheLaw u.cache := h.moves.cache
theorem Acts.output : minLevel t ≤ 1000 → outputLaw t → outputLaw u := h.moves.output
theorem Acts.count : countLaw t → countLaw u := h.moves.count
end Parts

/-! ### Primitive actions -/

theorem levels_updBay (x : BayId) (f : Bay → Bay) (s : State) (hf : ∀ b, (f b).levels = b.levels) (y : BayId) :
    ((Machine.updBay x f s).bays.get y).levels = (s.bays.get y).levels := by
  cases x <;> cases y <;> first | rfl | exact hf _

theorem presence_of_levels {a b : Bay} (h : a.levels = b.levels) : a.presence = b.presence := by
  unfold Bay.levels at h; injection h with _ h; injection h

theorem Turns.updBay (h : Turns s0 s) (x : BayId) (f : Bay → Bay) (hf : ∀ b, (f b).presence = b.presence := by intro b; rfl) :
    Turns s0 (updBay x f s) :=
  have e : computeBudget (Machine.updBay x f s) = computeBudget s := computeBudget_congr rfl rfl rfl rfl
    (fun y => by cases x <;> cases y <;> first | rfl | exact hf _) (fun _ => rfl) rfl
  ⟨h.moves.updBay x f, fun g => (h.budget g).trans e.symm⟩

theorem Acts.updBay (h : Acts s0 s) (x : BayId) (f : Bay → Bay) (hf : ∀ b, (f b).levels = b.levels := by intro b; rfl) :
    Acts s0 (updBay x f s) :=
  ⟨h.moves.updBay x f, (h.turns.updBay x f fun b => presence_of_levels (hf b)).budget,
   fun y => (levels_updBay x f s hf y).trans (h.levels y)⟩

theorem Acts.upstream (h : Acts s0 s) (u : Upstream) : Acts s0 { s with upstream := u } := ⟨h.moves.upstream u, h.budget, h.levels⟩

theorem Acts.setAnswer (h : Acts s0 s) (a : Answer) : Acts s0 (setAnswer a s) := h.upstream _

theorem Acts.endUpstream (h : Acts s0 s) (a : Answer) : Acts s0 (endUpstream a s) := h.upstream _

theorem Acts.post (h : Acts s0 s) (k : AttnKey) (d : Detail) : Acts s0 (post k d s) := ⟨h.moves.post k d, h.budget, h.levels⟩

theorem Acts.jolted (h : Acts s0 s) (j : Pair Bool) : Acts s0 { s with motion := { s.motion with jolted := j } } :=
  ⟨h.moves.jolted j, h.budget, h.levels⟩

/-- A change of a relay that leaves its snapshot. -/
theorem Acts.updRelay (h : Acts s0 s) (x : BayId) (f : Relay → Relay)
    (hf : ∀ r, (f r).failCount ≤ r.failCount := by intro r; first | exact le_rfl | exact Nat.zero_le _)
    (hn : ∀ r, (f r).snap = r.snap := by intro r; rfl) : Acts s0 (updRelay x f s) :=
  have e : computeBudget (Machine.updRelay x f s) = computeBudget s := computeBudget_congr rfl rfl rfl rfl (fun _ => rfl)
    (fun y => by cases x <;> cases y <;> first | rfl | exact hn _) rfl
  ⟨h.moves.updRelay x f hf, fun g => (h.budget g).trans e.symm, h.levels⟩

theorem Acts.mapCache (h : Acts s0 s) (f : Line → Line) (hf : ∀ l, changeOk l (f l)) : Acts s0 (mapCache f s) :=
  ⟨h.moves.mapCache f hf, h.budget, h.levels⟩

theorem Acts.updSet (h : Acts s0 s) (i : Nat) (hi : i < 16) (f : CacheSet → CacheSet) (hf : ∀ cs, setLaw i cs → setLaw i (f cs)) :
    Acts s0 (updSet i f s) := ⟨h.moves.updSet i hi f hf, h.budget, h.levels⟩

theorem Acts.setCache (h : Acts s0 s) (c : List CacheSet) (hc : cacheLaw s.cache → cacheLaw c) : Acts s0 { s with cache := c } :=
  ⟨h.moves.setCache c hc, h.budget, h.levels⟩

/-- Moves that leave the levels, followed by a recomputation. -/
theorem Acts.recompute_of (h : Moves s0 s) (hl : ∀ x, (s.bays.get x).levels = (s0.bays.get x).levels) : Acts s0 (recompute s) :=
  ⟨h.recompute, fun _ => budgetLaw_recompute s, fun x => by rw [recompute_eq]; exact hl x⟩

theorem Acts.recompute (h : Acts s0 s) : Acts s0 (recompute s) := Acts.recompute_of h.moves h.levels

/-! ### Power Path Controller -/

theorem Acts.setHeld (h : Acts s0 s) (x : BayId) (v : Bool) : Acts s0 (setHeld x v s) :=
  ⟨h.moves.setPower _ rfl rfl id, h.budget, h.levels⟩

theorem Acts.setSwitch (h : Acts s0 s) (x : BayId) (v : Switch) : Acts s0 (setSwitch x v s) :=
  Acts.recompute_of (h.moves.setPower { s.pp with sw := s.pp.sw.upd x (fun _ => v), held := s.pp.held.upd x (fun _ => false) }
    rfl rfl id) h.levels

theorem Acts.releaseHeldOne (h : Acts s0 s) (x : BayId) : Acts s0 (releaseHeldOne x s) := by
  unfold Machine.releaseHeldOne
  split
  · exact h.setSwitch x .off
  · exact h

theorem Acts.releaseHeld (h : Acts s0 s) : Acts s0 (releaseHeld s) := (h.releaseHeldOne .A).releaseHeldOne .B

theorem Acts.endBridge (h : Acts s0 s) : Acts s0 (endBridge s) := by
  unfold Machine.endBridge
  split
  · exact h
  · exact Acts.recompute_of (h.moves.setPower { s.pp with bridge := .idle, timer := 0, bridgeSw := false, lowpwr := false, pfail := false }
      rfl rfl (fun _ => ⟨rfl, rfl, rfl, fun _ => rfl⟩)) h.levels

theorem Acts.switchOn (h : Acts s0 s) (x : BayId) : Acts s0 (switchOn x s) := by
  unfold Machine.switchOn
  split
  · exact h.setHeld x false
  · split
    · exact (h.setSwitch x .on).endBridge.releaseHeld
    · exact h.setSwitch x .on

theorem Acts.switchOff (h : Acts s0 s) (x : BayId) : Acts s0 (switchOff x s) := by
  unfold Machine.switchOff
  split
  · exact h.setHeld x false
  · split
    · exact h.setSwitch x .off
    · exact h.setHeld x true

theorem Acts.startBridge (h : Acts s0 s) (why : BridgeReason) : Acts s0 (startBridge why s) := by
  unfold Machine.startBridge
  split
  · next hc =>
    refine (Acts.recompute_of (Moves.post (h.moves.setPower { s.pp with bridge := .running, bridgeSw := true, timer := 0, lowpwr := true }
      rfl rfl ?_) .bridgeOn (dBridge why)) h.levels).releaseHeld
    intro g
    have hi : s.pp.bridge = .idle := by
      simp only [bridgeCanStart, Bool.and_eq_true, beq_iff_eq] at hc; exact hc.1.1
    refine ⟨rfl, rfl, ?_, fun e => by cases e⟩
    have := g.2.2.1
    rw [hi] at this
    exact this
  · exact h

/-! ### Reading Cache -/

theorem Acts.cacheFill (h : Acts s0 s) (x : BayId) (c : Code) (g : Governing) (v : Half) : Acts s0 (cacheFill x c g v s) := by
  unfold Machine.cacheFill
  split
  · exact h.updSet _ (setOf_lt c) _ (fun _ hl => setLaw_fill x c v rfl hl)
  · exact h

theorem Acts.touchSet (h : Acts s0 s) (c : Code) (w : Way) : Acts s0 (Machine.updSet (setOf c) (fun cs => cs.touch w) s) :=
  h.updSet _ (setOf_lt c) _ (fun _ hl => setLaw_touch w hl)

/-- A line that a lookup found takes a lawful change. -/
theorem setLaw_put_found {i : Nat} {cs : CacheSet} {w : Way} {k : Line} (hk : changeOk (cs.get w) k) (h : setLaw i cs) :
    setLaw i (cs.put w k) := by
  have := setLaw_put (i := i) (cs := cs) w (f := fun l => if l = cs.get w then k else l)
    (stays_of_ok fun l => by split <;> [(next e => rw [e]; exact hk); exact Or.inr (Or.inl rfl)])
    (legal_of_ok fun l => by split <;> [(next e => rw [e]; exact hk); exact Or.inr (Or.inl rfl)]) h
  simpa using this

theorem Acts.cacheWrite (h : Acts s0 s) (x : BayId) (c : Code) (g : Governing) (v : Half) : Acts s0 (cacheWrite x c g v s) := by
  unfold Machine.cacheWrite
  split
  · split
    · exact h
    · next w hw =>
      refine h.setCache _ fun gl => cacheLaw_set gl _ _ (setOf_lt c) ?_
      exact setLaw_put_found (writeLine_ok _ v _ ((holds_iff _ _ _).1 (find_some hw)).1) (gl.2 _ (setOf_lt c))
  · exact h

theorem Acts.cacheFailedWrite (h : Acts s0 s) (x : BayId) (c : Code) : Acts s0 (cacheFailedWrite x c s) := by
  unfold Machine.cacheFailedWrite
  split
  · exact h
  · next w hw =>
    exact h.setCache _ fun gl => cacheLaw_set gl _ _ (setOf_lt c) (setLaw_put_found (distrust_ok _) (gl.2 _ (setOf_lt c)))

theorem Acts.cacheDistrust (h : Acts s0 s) (x : BayId) : Acts s0 (cacheDistrust x s) :=
  h.mapCache _ fun l => by split <;> [exact distrust_ok l; exact Or.inr (Or.inl rfl)]

theorem Acts.cacheImpact (h : Acts s0 s) : Acts s0 (cacheImpact s) := h.mapCache _ distrust_ok

theorem Acts.cacheEmpty (h : Acts s0 s) (x : BayId) : Acts s0 (cacheEmpty x s) :=
  h.mapCache _ fun l => by split <;> [(next e => exact parkLine_ok _ l e.1); exact Or.inr (Or.inl rfl)]

theorem Acts.cacheRestore (h : Acts s0 s) (x : BayId) : Acts s0 (cacheRestore x s) :=
  h.mapCache _ fun l => by
    split <;> [(next e => exact Or.inr (Or.inr ⟨e.1, e.1, rfl, rfl, id⟩)); exact Or.inr (Or.inl rfl)]

theorem Acts.cacheDropParked (h : Acts s0 s) (x : BayId) : Acts s0 (cacheDropParked x s) :=
  h.mapCache _ fun l => by split <;> [exact Or.inl rfl; exact Or.inr (Or.inl rfl)]

theorem Acts.cacheDropBay (h : Acts s0 s) (x : BayId) : Acts s0 (cacheDropBay x s) :=
  h.mapCache _ fun l => by split <;> [exact Or.inl rfl; exact Or.inr (Or.inl rfl)]

theorem Acts.cacheDropAll (h : Acts s0 s) : Acts s0 (cacheDropAll s) := h.mapCache _ fun _ => Or.inl rfl

theorem Acts.age (h : Acts s0 s) : Acts s0 (Machine.mapCache Line.older s) := h.mapCache _ older_ok

end Sys2Proof.Machine
end

