-- ==== Sys2Proof/Laws/BayActs.lean ====
section
/-! SUPPORT. Every operation of the Bay Controller is made of actions (`Acts`): it leaves the tables, the log, the flags, the time, the port,
the queue and the lines as they were, and keeps the laws. What records a line is `Turns`. -/

namespace Sys2Proof.Machine

variable {s0 s : State}

theorem dropPending_count (r : Relay) : (dropPending r).failCount ≤ r.failCount := le_rfl

theorem endProbe_count (r : Relay) : (endProbe r).failCount ≤ r.failCount := le_rfl

theorem Acts.endLost (h : Acts s0 s) (x : BayId) (p : Purpose) : Acts s0 (endLost x p s) := by
  unfold Machine.endLost
  split
  · exact h.endUpstream _
  · exact h.updRelay _ _
  · exact h.updRelay _ _
  · exact h

theorem Acts.refuseSlot (h : Acts s0 s) (x : BayId) : Acts s0 (refuseSlot x s) := by
  unfold Machine.refuseSlot
  split
  · exact (h.updRelay x _).endUpstream _
  · exact h

theorem Acts.loseLink (h : Acts s0 s) (x : BayId) : Acts s0 (loseLink x s) := by
  unfold Machine.loseLink
  split
  · exact h
  · exact ((h.updRelay x _).endLost x _).refuseSlot x

theorem Acts.failRecover (h : Acts s0 s) (x : BayId) : Acts s0 (failRecover x s) := by
  unfold Machine.failRecover
  split
  · exact h
  · exact (h.updRelay x _).post _ _

/-- A change of bay state keeps the levels, whatever of the snapshots was changed before it. -/
theorem Moves.setBayState (h : Moves s0 s) (hl : ∀ y, (s.bays.get y).levels = (s0.bays.get y).levels) (x : BayId) (st : BayState) :
    Acts s0 (setBayState x st s) := by
  unfold Machine.setBayState
  refine Acts.recompute_of ((h.updBay x _).updRelay x _ fun r => ?_)
    fun y => Eq.trans (by cases x <;> cases y <;> rfl) (hl y)
  split
  · exact endProbe_count r
  · split
    · exact dropPending_count r
    · exact (dropPending_count _).trans (endProbe_count r)

theorem Acts.setBayState (h : Acts s0 s) (x : BayId) (st : BayState) : Acts s0 (setBayState x st s) := h.moves.setBayState h.levels x st

theorem Acts.requestOn (h : Acts s0 s) (x : BayId) : Acts s0 (requestOn x s) := by
  unfold Machine.requestOn
  split
  · exact (h.switchOn x).switchOff x.other
  · exact h.switchOn x

theorem Acts.goOnline (h : Acts s0 s) (x : BayId) (d : Detail) : Acts s0 (goOnline x d s) :=
  ((h.requestOn x).setBayState x .online).post _ d

theorem Acts.standbyJoin (h : Acts s0 s) (x : BayId) : Acts s0 (standbyJoin x s) := by
  unfold Machine.standbyJoin
  split
  · exact h.goOnline x dTakeOver
  · exact h

theorem Acts.settleOne (h : Acts s0 s) (old new : State) (x : BayId) : Acts s0 (settleOne old new x s) := by
  unfold Machine.settleOne
  split
  · exact h.standbyJoin x
  · exact h

theorem Acts.settle (h : Acts s0 s) (old : State) : Acts s0 (settle old s) := (h.settleOne old s .A).settleOne old s .B

/-- An action followed by the events it made. -/
theorem Acts.settling {f : State → State} (h : Acts s0 (f s)) : Acts s0 (settling f s) := h.settle s

theorem Acts.releaseBay (h : Acts s0 s) (x : BayId) (k : HandoverKind) : Acts s0 (releaseBay x k s) :=
  (h.updBay x _).setBayState x .releasing

theorem Acts.refuseBay (h : Acts s0 s) (x : BayId) (b : Bool) (r : RefusalReason) : Acts s0 (refuseBay x b r s) := by
  unfold Machine.refuseBay
  split
  · exact (h.updBay x _).post _ _
  · exact h.updBay x _

theorem Acts.handoverToStandby (h : Acts s0 s) (x : BayId) (b : Bool) : Acts s0 (handoverToStandby x b s).1 := by
  unfold Machine.handoverToStandby
  split
  · exact ((h.goOnline x.other dTakeOver).switchOff x).releaseBay x .makeFirst
  · split
    · exact ((h.switchOff x).releaseBay x .breakFirst).goOnline x.other dTakeOver
    · split
      · exact (((h.startBridge .through).switchOff x).releaseBay x .bridgeThrough).goOnline x.other dTakeOver
      · exact h.refuseBay x b .mismatch

theorem Acts.evaluateCases (h : Acts s0 s) (x : BayId) (b : Bool) : Acts s0 (evaluateCases x b s).1 := by
  unfold Machine.evaluateCases
  split
  · exact h.refuseBay x b .held
  · split
    · split
      · exact h.updBay x _
      · exact h.refuseBay x b .drop
    · split
      · split
        · exact (h.switchOff x).releaseBay x .plain
        · exact h.refuseBay x b .lowBudget
      · split
        · exact h.handoverToStandby x b
        · split
          · exact ((h.startBridge .hold).switchOff x).releaseBay x .bridgeHold
          · exact h.refuseBay x b .noSource

theorem Acts.evaluate (h : Acts s0 s) (x : BayId) (b : Bool) : Acts s0 (evaluate x b s).1 := (h.evaluateCases x b).settle s

theorem Acts.evaluateLatch (h : Acts s0 s) (x : BayId) : Acts s0 (evaluateLatch x s) := h.evaluate x true

theorem Acts.reevaluate (h : Acts s0 s) (x : BayId) : Acts s0 (reevaluate x s) := by
  unfold Machine.reevaluate
  split
  · exact h.evaluateLatch x
  · exact h

theorem Acts.clearContext (h : Acts s0 s) (x : BayId) : Acts s0 (clearContext x s) := h.updBay x _

theorem Acts.discardContext (h : Acts s0 s) (x : BayId) : Acts s0 (discardContext x s) := (h.cacheDropParked x).clearContext x

theorem Acts.saveContext (h : Acts s0 s) (x : BayId) (v : Option Half) : Acts s0 (saveContext x v s) := by
  unfold Machine.saveContext
  split
  · exact (h.cacheDropParked x).updBay x _
  · exact h.updBay x _

theorem Acts.enterSeating (h : Acts s0 s) (x : BayId) : Acts s0 (enterSeating x s) :=
  ((h.updBay x _).moves.updRelay x _).setBayState (h.updBay x _).levels x .seating

theorem Acts.parkDeparted (h : Acts s0 s) (x : BayId) (v : Option (Option Half)) : Acts s0 (parkDeparted x v s) := by
  unfold Machine.parkDeparted
  split
  · exact h.cacheEmpty x
  · split
    · exact ((h.saveContext x _).cacheEmpty x).discardContext x
    · exact (h.saveContext x _).cacheEmpty x

theorem Acts.postDeparted (h : Acts s0 s) (x : BayId) (d : Bool) : Acts s0 (postDeparted x d s) := by
  unfold Machine.postDeparted
  split
  · exact h.post _ _
  · exact h

theorem Acts.becomeEmpty (h : Acts s0 s) (x : BayId) (v : Option (Option Half)) (d : Bool) : Acts s0 (becomeEmpty x v d s) :=
  (((h.parkDeparted x v).setBayState x .empty).postDeparted x d).switchOff x

theorem Acts.enterEmpty (h : Acts s0 s) (x : BayId) (v : Option (Option Half)) (d : Bool) : Acts s0 (enterEmpty x v d s) := by
  unfold Machine.enterEmpty
  split
  · exact (h.becomeEmpty x v d).enterSeating x
  · exact h.becomeEmpty x v d

theorem Acts.postProbeEnd (h : Acts s0 s) (b : Bay) (x : BayId) (d : Detail) : Acts s0 (postProbeEnd b x d s) := by
  unfold Machine.postProbeEnd
  split
  · exact h.post _ _
  · exact h

theorem Acts.abruptLoss (h : Acts s0 s) (x : BayId) : Acts s0 (abruptLoss x s) := (h.enterEmpty x _ true).postProbeEnd _ x dAborted

theorem Acts.enterJolt (h : Acts s0 s) (x : BayId) : Acts s0 (enterJolt x s) :=
  ((((h.setBayState x .jolt).updBay x _).cacheDistrust x).postProbeEnd _ x dAborted).jolted _

theorem Acts.joltExpire (h : Acts s0 s) (x : BayId) : Acts s0 (joltExpire x s) := (h.enterEmpty x _ false).post _ _

theorem Acts.answerNoSource (h : Acts s0 s) : Acts s0 (answerNoSource s) := by
  unfold Machine.answerNoSource
  split
  · exact h.goOnline _ dTakeOver
  · exact h.startBridge .emergency

theorem Acts.enterFault (h : Acts s0 s) (x : BayId) (why : FaultReason) : Acts s0 (enterFault x why s) :=
  (((((h.setBayState x .faulted).updBay x _).switchOff x).cacheDistrust x).post _ _).postProbeEnd _ x _

theorem Acts.matchContext (h : Acts s0 s) (x : BayId) : Acts s0 (matchContext x s) := by
  unfold Machine.matchContext
  split
  · exact (h.cacheRestore x).clearContext x
  · exact (h.cacheDropParked x).clearContext x

theorem Acts.placeSwitch (h : Acts s0 s) (x : BayId) : Acts s0 (placeSwitch x s) := by
  unfold Machine.placeSwitch
  split
  · exact (h.requestOn x).setBayState x .online
  · exact (h.switchOff x).setBayState x .standby

theorem Acts.placeFresh (h : Acts s0 s) (x : BayId) : Acts s0 (placeFresh x s) := by
  unfold Machine.placeFresh
  simp only
  split
  · exact ((h.matchContext x).placeSwitch x).post _ _
  · exact (h.matchContext x).placeSwitch x

theorem Acts.clearJolt (h : Acts s0 s) (x : BayId) : Acts s0 (clearJolt x s) := h.updBay x _

theorem Acts.returnOnline (h : Acts s0 s) (x : BayId) : Acts s0 (returnOnline x s) := by
  unfold Machine.returnOnline
  split
  · split
    · exact (h.requestOn x).setBayState x .online
    · exact ((h.requestOn x).setBayState x .online).evaluateLatch x
  · exact h.placeSwitch x

theorem Acts.settleJolt (h : Acts s0 s) (x : BayId) : Acts s0 (settleJolt x s) := by
  have h1 := (h.post (.jolt x) dSame).clearJolt x
  unfold Machine.settleJolt
  simp only
  split
  · split
    · split
      · exact h1.returnOnline x
      · exact ((h1.switchOff x).setBayState x .standby).standbyJoin x
      · exact h1.placeFresh x
    · exact h1
  · exact (((h.cacheDropBay x).post _ _).clearJolt x).placeFresh x

theorem Acts.placePack (h : Acts s0 s) (x : BayId) : Acts s0 (placePack x s) := by
  unfold Machine.placePack
  simp only
  split
  · exact (h.updBay x _).settleJolt x
  · exact ((h.updBay x _).placeFresh x).postProbeEnd _ x dAdmitted

theorem Acts.admitPack (h : Acts s0 s) (x : BayId) : Acts s0 (admitPack x s) := by
  refine Acts.settling ?_
  split
  · exact h.placePack x
  · exact h.enterFault x .admission

theorem Acts.startProbe (h : Acts s0 s) (x : BayId) : Acts s0 (startProbe x s) := by
  unfold Machine.startProbe
  split
  · exact h.admitPack x
  · exact h.updRelay x _

theorem Acts.enterProbing (h : Acts s0 s) (x : BayId) (c : ProbeCause) : Acts s0 (enterProbing x c s) :=
  (((h.setBayState x .probing).updBay x _).cacheDistrust x).startProbe x

/-- R17: the recorded presence takes a level; the Budget Unit recomputes. -/
theorem Turns.setPresence (h : Turns s0 s) (x : BayId) (v : Bool) :
    Turns s0 (Machine.recompute (Machine.updBay x (fun b => { b with presence := v }) s)) := (h.moves.updBay x _).turns

theorem Turns.presenceRises (h : Turns s0 s) (x : BayId) : Turns s0 (presenceRises x s) := by
  have h1 := h.setPresence x true
  unfold Machine.presenceRises
  simp only
  split
  · exact h1
  · exact h1.acts (Acts.refl _).releaseHeld
  · exact h1.acts (Acts.refl _).endBridge.releaseHeld

theorem Acts.joltReturn (h : Acts s0 s) (x : BayId) : Acts s0 (joltReturn x s) := by
  have hb := h.updBay x (setJoltHold .stopped)
  exact (Acts.recompute_of (hb.moves.updRelay x (fun r => { r with snap := Snapshot.absent, failCount := 0 })) hb.levels).enterProbing x .joltReturn

theorem Acts.fallByState (h : Acts s0 s) (x : BayId) : Acts s0 (fallByState x s) := by
  unfold Machine.fallByState
  split
  · split <;> [exact h.enterJolt x; exact h.abruptLoss x]
  · split <;> [exact h.enterJolt x; exact h.abruptLoss x]
  · split <;> [exact h.enterJolt x; exact h.abruptLoss x]
  · exact h.enterEmpty x _ true
  · exact h.enterEmpty x _ true
  · exact h.enterEmpty x _ false
  · exact h
  · exact h

theorem Turns.presenceFalls (h : Turns s0 s) (x : BayId) : Turns s0 (presenceFalls x s) := by
  have h2 := (h.setPresence x false).acts ((((Acts.refl _).loseLink x).failRecover x).fallByState x)
  unfold Machine.presenceFalls
  simp only
  split
  · exact h2.acts (Acts.refl _).answerNoSource
  · exact h2

theorem Acts.returnBay (h : Acts s0 s) (x : BayId) : Acts s0 (returnBay x s) := by
  unfold Machine.returnBay
  split
  · exact (h.requestOn x).setBayState x .online
  · exact (h.switchOff x).setBayState x .standby

theorem Turns.latchCloses (h : Turns s0 s) (x : BayId) : Turns s0 (latchCloses x s) := by
  have h1 := h.updBay x fun b => { b with latch := true, refuse := false, deferred := false }
  unfold Machine.latchCloses
  simp only
  split
  · exact h1.acts ((Acts.refl _).standbyJoin x)
  · exact h1.acts ((Acts.refl _).returnBay x)
  · exact h1

theorem Turns.latchOpens (h : Turns s0 s) (x : BayId) : Turns s0 (latchOpens x s) := by
  have h1 := h.updBay x fun b => { b with latch := false }
  unfold Machine.latchOpens
  simp only
  split
  · exact h1.acts ((Acts.refl _).evaluateLatch x)
  · exact h1

theorem Acts.startJoltHold (h : Acts s0 s) (x : BayId) : Acts s0 (startJoltHold x s) := by
  unfold Machine.startJoltHold
  split
  · exact Acts.settling (h.joltExpire x)
  · exact h.updBay x _

theorem Acts.closeDeferred (h : Acts s0 s) (x : BayId) : Acts s0 (closeDeferred x s) := by
  unfold Machine.closeDeferred
  simp only
  split
  · split
    · exact (h.updBay x _).evaluateLatch x
    · exact h.updBay x _
  · exact h

theorem Acts.windowCloseOne (h : Acts s0 s) (x : BayId) : Acts s0 (windowCloseOne x s) := by
  unfold Machine.windowCloseOne
  split
  · exact (h.closeDeferred x).startJoltHold x
  · exact h.closeDeferred x

theorem Acts.windowCloseEvent (h : Acts s0 s) : Acts s0 (windowCloseEvent s) := (h.windowCloseOne .A).windowCloseOne .B

end Sys2Proof.Machine
end

