-- ==== Sys2Proof/Laws/Memory.lean ====
section
/-! SUPPORT. Table Memory's words: reading after a write, and the canonical form kept by every operation. -/

namespace Sys2Proof.Machine

theorem Memory.get?_write_self (m : Memory) (i : Nat) (w : Word) : Memory.get? (Memory.write m i w) i = some w := by
  induction m with
  | nil => simp [Memory.write, Memory.get?]
  | cons c rest ih =>
    obtain ⟨k, v⟩ := c
    simp only [Memory.write]
    split
    · simp [Memory.get?]
    · split
      · simp [Memory.get?]
      · next h1 h2 =>
        have : k ≠ i := fun h => h2 h.symm
        simp [Memory.get?, this, ih]

theorem Memory.get?_write_ne (m : Memory) {i j : Nat} (h : j ≠ i) (w : Word) :
    Memory.get? (Memory.write m i w) j = Memory.get? m j := by
  induction m with
  | nil => simp [Memory.write, Memory.get?, Ne.symm h]
  | cons c rest ih =>
    obtain ⟨k, v⟩ := c
    simp only [Memory.write]
    split
    · simp [Memory.get?, Ne.symm h]
    · split
      · next h2 => subst h2; simp [Memory.get?, Ne.symm h]
      · simp [Memory.get?, ih]

theorem Memory.risingFrom_mono (m : Memory) {a b : Nat} (h : a ≤ b) (hm : Memory.risingFrom m b = true) :
    Memory.risingFrom m a = true := by
  cases m with
  | nil => rfl
  | cons c rest =>
    obtain ⟨k, v⟩ := c
    simp only [Memory.risingFrom, Bool.and_eq_true, decide_eq_true_eq] at hm ⊢
    exact ⟨le_trans h hm.1, hm.2⟩

theorem Memory.risingFrom_write (m : Memory) (b i : Nat) (w : Word) (hb : b ≤ i) (hm : Memory.risingFrom m b = true) :
    Memory.risingFrom (Memory.write m i w) b = true := by
  induction m generalizing b with
  | nil => simp [Memory.write, Memory.risingFrom, hb]
  | cons c rest ih =>
    obtain ⟨k, v⟩ := c
    simp only [Memory.risingFrom, Bool.and_eq_true, decide_eq_true_eq] at hm
    simp only [Memory.write]
    split
    · next h => simp [Memory.risingFrom, hb, h, hm.2]
    · split
      · next h => subst h; simp [Memory.risingFrom, hb, hm.2]
      · next h1 h2 =>
        simp only [Memory.risingFrom, Bool.and_eq_true, decide_eq_true_eq]
        exact ⟨hm.1, ih (k + 1) (by omega) hm.2⟩

theorem Memory.all_write (m : Memory) (n i : Nat) (w : Word) (hi : i < n) (hm : m.all (fun c => c.1 < n) = true) :
    (Memory.write m i w).all (fun c => c.1 < n) = true := by
  induction m with
  | nil => simp [Memory.write, hi]
  | cons c rest ih =>
    obtain ⟨k, v⟩ := c
    simp only [List.all_cons, Bool.and_eq_true, decide_eq_true_eq] at hm
    simp only [Memory.write]
    split
    · simpa [List.all_cons, hi, hm.1] using hm.2
    · split
      · simpa [List.all_cons, hi] using hm.2
      · simpa [List.all_cons, hm.1] using ih hm.2

/-- A write within the region keeps the canonical form. -/
theorem Memory.wf_write (m : Memory) (n i : Nat) (w : Word) (hi : i < n) (hm : Memory.wf n m = true) :
    Memory.wf n (Memory.write m i w) = true := by
  simp only [Memory.wf, Bool.and_eq_true] at hm ⊢
  exact ⟨Memory.risingFrom_write m 0 i w (Nat.zero_le _) hm.1, Memory.all_write m n i w hi hm.2⟩

/-- Consecutive writes within the region keep the canonical form. -/
theorem Memory.wf_writeAll (ws : List Word) (m : Memory) (n i : Nat) (hi : i + ws.length ≤ n) (hm : Memory.wf n m = true) :
    Memory.wf n (Memory.writeAll m i ws) = true := by
  induction ws generalizing m i with
  | nil => exact hm
  | cons w ws ih =>
    simp only [List.length_cons] at hi
    exact ih _ _ (by omega) (Memory.wf_write m n i w (by omega) hm)

theorem Memory.get?_writeAll_out (ws : List Word) (m : Memory) (i j : Nat) (h : j < i ∨ i + ws.length ≤ j) :
    Memory.get? (Memory.writeAll m i ws) j = Memory.get? m j := by
  induction ws generalizing m i with
  | nil => rfl
  | cons w ws ih =>
    simp only [List.length_cons] at h
    simp only [Memory.writeAll]
    rw [ih _ _ (by omega), Memory.get?_write_ne _ (by omega)]

/-- Every word of a written range reads back as written. -/
theorem Memory.get?_writeAll_in (ws : List Word) (m : Memory) (i k : Nat) (h : k < ws.length) :
    Memory.get? (Memory.writeAll m i ws) (i + k) = ws[k]? := by
  induction ws generalizing m i k with
  | nil => simp at h
  | cons w ws ih =>
    simp only [Memory.writeAll]
    cases k with
    | zero =>
      rw [Memory.get?_writeAll_out _ _ _ _ (by omega)]
      simp [Memory.get?_write_self]
    | succ k =>
      have := ih (Memory.write m i w) (i + 1) k (by simpa using h)
      rw [show i + (k + 1) = i + 1 + k by omega, this]
      simp

theorem Memory.wf_nil (n : Nat) : Memory.wf n [] = true := rfl

end Sys2Proof.Machine
end

