-- ==== Sys2Proof/Laws/RelayActs.lean ====
section
/-! SUPPORT. Every operation of the Pack Link Relay is made of actions (`Acts`). -/

namespace Sys2Proof.Machine

variable {s0 s : State}

/-- R64: a failure adds 1 up to FAULT_LIMIT, so the law of the count is kept. -/
theorem Acts.countOutcome (h : Acts s0 s) (x : BayId) (b : Bool) : Acts s0 (countOutcome x b s) := by
  have e : computeBudget (Machine.countOutcome x b s) = computeBudget s := computeBudget_congr rfl rfl rfl rfl (fun _ => rfl)
    (fun y => by cases x <;> cases y <;> rfl) rfl
  refine ⟨{ h.moves with count := fun g => ?_ }, fun g => (h.budget g).trans e.symm, h.levels⟩
  have g' := h.count g
  have hl : ∀ r : Relay, (if b then min (r.failCount + 1) (faultLimit s) else 0) ≤ faultLimit s := by
    intro r; split <;> [exact min_le_right _ _; exact Nat.zero_le _]
  cases x
  · exact ⟨hl _, g'.2⟩
  · exact ⟨g'.1, hl _⟩

/-- R105: a value that the budget does not depend on leaves the record current. -/
theorem computeBudget_store (x : BayId) (t : Tag) (v : Half) (s : State) (hn : ¬ (budgetTag t = true ∧ conductsBay s x = true)) :
    computeBudget (updRelay x (fun r => { r with snap := r.snap.put t v }) s) = computeBudget s := by
  by_cases ht : budgetTag t = true
  · have hc : conductsBay s x = false := by
      cases hq : conductsBay s x
      · rfl
      · exact absurd ⟨ht, hq⟩ hn
    have hp : ∀ y, countedPower (updRelay x (fun r => { r with snap := r.snap.put t v }) s) y = countedPower s y := by
      intro y
      by_cases hy : y = x
      · subst hy
        unfold countedPower
        have hc' : conductsBay (updRelay y (fun r => { r with snap := r.snap.put t v }) s) y = false := hc
        rw [hc, hc']; rfl
      · have hr : ((updRelay x (fun r => { r with snap := r.snap.put t v }) s).relays.get y) = s.relays.get y := by
          cases x <;> cases y <;> first | rfl | exact absurd rfl hy
        unfold countedPower bayPower rawPower hot
        rw [hr]; rfl
    unfold computeBudget
    rw [hp .A, hp .B]; rfl
  · have hs : ∀ n : Snapshot, (n.put t v).voltage = n.voltage ∧ (n.put t v).maxDischarge = n.maxDischarge
        ∧ (n.put t v).temperature = n.temperature := by
      intro n; cases t <;> first | exact ⟨rfl, rfl, rfl⟩ | exact absurd rfl ht
    have hp : ∀ y, countedPower (updRelay x (fun r => { r with snap := r.snap.put t v }) s) y = countedPower s y := by
      intro y
      unfold countedPower bayPower rawPower hot
      cases x <;> cases y <;> simp only [updRelay, Pair.upd, Pair.get, (hs _).1, (hs _).2.1, (hs _).2.2] <;> rfl
    unfold computeBudget
    rw [hp .A, hp .B]; rfl

theorem Acts.storeSnapshot (h : Acts s0 s) (x : BayId) (t : Tag) (v : Half) : Acts s0 (storeSnapshot x t v s) := by
  unfold Machine.storeSnapshot
  split
  · exact Acts.recompute_of (h.moves.updRelay x _) h.levels
  · next hn => exact ⟨h.moves.updRelay x _, fun g => (h.budget g).trans (computeBudget_store x t v s hn).symm, h.levels⟩

theorem Acts.updateSnapshot (h : Acts s0 s) (x : BayId) (t : Tag) (v : Half) : Acts s0 (updateSnapshot x t v s) := by
  unfold Machine.updateSnapshot
  split
  · exact ((h.storeSnapshot x t v).standbyJoin .A).standbyJoin .B
  · exact h.storeSnapshot x t v

theorem Acts.faultIfReached (h : Acts s0 s) (x : BayId) : Acts s0 (faultIfReached x s) := by
  unfold Machine.faultIfReached
  split
  · exact h.enterFault x .link
  · exact h

theorem Acts.answerMaster (h : Acts s0 s) (r : TxResult) : Acts s0 (answerMaster r s) := by
  unfold Machine.answerMaster
  split
  · split
    · split <;> exact h.endUpstream _
    · exact h
  · exact h

theorem Acts.handPlatform (h : Acts s0 s) (x : BayId) (q : Request) (r : TxResult) : Acts s0 (handPlatform x q r s) := by
  obtain ⟨kind, c, payload, gov⟩ := q
  cases kind <;> cases r <;> first
    | exact h
    | exact (h.updateSnapshot x _ _).cacheFill x _ _ _
    | exact h.cacheFailedWrite x _
    | skip
  rcases payload with _ | ⟨lo, _ | ⟨hi, _ | ⟨a, l⟩⟩⟩
  · exact h
  · exact h
  · exact h.cacheWrite x _ _ _
  · exact h

theorem Acts.handPoll (h : Acts s0 s) (x : BayId) (q : Request) (r : TxResult) : Acts s0 (handPoll x q r s) := by
  unfold Machine.handPoll
  split
  · exact ((h.updRelay x _).updateSnapshot x _ _).cacheFill x _ _ _
  · split
    · split
      · exact h
      · exact h.updRelay x _
    · exact h

theorem Acts.probeAdvance (h : Acts s0 s) (x : BayId) : Acts s0 (probeAdvance x s) := by
  unfold Machine.probeAdvance
  split
  · split
    · exact (h.updRelay x _).admitPack x
    · exact h.updRelay x _
  · exact h

theorem Acts.probeFailure (h : Acts s0 s) (x : BayId) : Acts s0 (probeFailure x s) := by
  unfold Machine.probeFailure
  split
  · split
    · exact h.enterFault x .link
    · exact h
  · exact h

theorem Acts.handProbe (h : Acts s0 s) (x : BayId) (q : Request) (r : TxResult) : Acts s0 (handProbe x q r s) := by
  unfold Machine.handProbe
  split
  · exact (h.updateSnapshot x _ _).probeAdvance x
  · exact h.probeFailure x

theorem Acts.handOrphan (h : Acts s0 s) (x : BayId) (q : Request) (r : TxResult) : Acts s0 (handOrphan x q r s) := by
  unfold Machine.handOrphan
  split
  · exact h.updateSnapshot x _ _
  · exact h

theorem Acts.handOn (h : Acts s0 s) (x : BayId) (tx : PackTx) (r : TxResult) : Acts s0 (handOn x tx r s) := by
  unfold Machine.handOn
  split
  · exact (h.answerMaster r).handPlatform x _ r
  · exact h.handPoll x _ r
  · exact h.handProbe x _ r
  · exact h.handOrphan x _ r

theorem Acts.finishTx (h : Acts s0 s) (x : BayId) (tx : PackTx) (r : TxResult) : Acts s0 (finishTx x tx r s) := by
  have h1 := ((h.updRelay x (fun q => { q with link := none })).countOutcome x r.failed).handOn x tx r
  unfold Machine.finishTx
  simp only
  split
  · exact h1.faultIfReached x
  · exact h1

theorem Acts.startTx (h : Acts s0 s) (x : BayId) (q : Request) (p : Purpose) : Acts s0 (startTx x q p s) := by
  unfold Machine.startTx
  split
  · exact h.updRelay x _
  · exact h.endLost x p

theorem Acts.startPoll (h : Acts s0 s) (x : BayId) : Acts s0 (startPoll x s) := by
  unfold Machine.startPoll
  split
  · split
    · exact (h.updRelay x _).startTx x _ .poll
    · exact h
  · exact h

theorem Acts.retryPoll (h : Acts s0 s) (x : BayId) : Acts s0 (retryPoll x s) := by
  unfold Machine.retryPoll
  split
  · split
    · exact h
    · split
      · exact h.updRelay x _
      · split
        · exact (h.updRelay x _).startTx x _ .poll
        · exact h
  · exact h

theorem Acts.startProbeRead (h : Acts s0 s) (x : BayId) : Acts s0 (startProbeRead x s) := by
  unfold Machine.startProbeRead
  split
  · split
    · split
      · exact (h.updRelay x _).startTx x _ .probe
      · exact h
    · exact h
  · exact h

theorem Acts.startSlot (h : Acts s0 s) (x : BayId) : Acts s0 (startSlot x s) := by
  unfold Machine.startSlot
  split
  · split
    · split
      · exact (h.updRelay x _).startTx x _ .platform
      · exact (h.updRelay x _).endUpstream _
    · exact h
  · exact h

theorem Acts.makeDue (h : Acts s0 s) (x : BayId) : Acts s0 (makeDue x s) := by
  unfold Machine.makeDue
  split
  · exact h.updRelay x _
  · exact h

theorem Acts.beginRecover (h : Acts s0 s) (x : BayId) : Acts s0 (beginRecover x s) := by
  unfold Machine.beginRecover
  split
  · exact h.updRelay x _
  · exact h

theorem Acts.recovered (h : Acts s0 s) (x : BayId) : Acts s0 (recovered x s) := by
  have h1 : Acts s0 (Machine.updRelay x (fun r => { r with failCount := 0 }) s) := h.updRelay x _
  unfold Machine.recovered
  simp only
  split
  · exact h1.enterProbing x .insertion
  · exact h1

theorem Acts.endRecover (h : Acts s0 s) (x : BayId) (k : Option Nat) : Acts s0 (endRecover x k s) := by
  unfold Machine.endRecover
  split
  · simp only
    split
    · exact ((h.updRelay x _).recovered x).post _ _
    · exact (h.updRelay x _).post _ _
  · exact h

theorem Acts.outOfPlace (h : Acts s0 s) : Acts s0 (outOfPlace s) := h.setAnswer _

theorem Acts.deny (h : Acts s0 s) (x : BayId) (c : Code) : Acts s0 (deny x c s) := (h.endUpstream _).post _ _

theorem Acts.setStage (h : Acts s0 s) (tx : UpTx) (st : UpStage) (a : Answer) : Acts s0 (setStage tx st a s) := h.upstream _

/-- R180: what a byte at MGMT does, it does to the upstream link alone. -/
theorem takeMgmtAddress_frame (b : Bool) (s : State) : takeMgmtAddress b s = { s with upstream := (takeMgmtAddress b s).upstream } := by
  unfold takeMgmtAddress; split <;> rfl

theorem mgmtCodeByte_frame (b : Byte) (s : State) : mgmtCodeByte b s = { s with upstream := (mgmtCodeByte b s).upstream } := by
  unfold mgmtCodeByte
  split
  · split
    · split
      · rfl
      · split <;> rfl
    · rfl
  · rfl

theorem mgmtByte_frame (b : Byte) (s : State) : mgmtByte b s = { s with upstream := (mgmtByte b s).upstream } := by
  unfold mgmtByte; split <;> rfl

theorem mgmtReadAddress_frame (a : Addr) (s : State) : mgmtReadAddress a s = { s with upstream := (mgmtReadAddress a s).upstream } := by
  unfold mgmtReadAddress
  split
  · split <;> rfl
  all_goals rfl

theorem mgmtDirection_frame (d : DirByte) (s : State) : mgmtDirection d s = { s with upstream := (mgmtDirection d s).upstream } := by
  cases d
  · exact mgmtByte_frame _ s
  · exact mgmtReadAddress_frame _ s

theorem Acts.takeMgmtAddress (h : Acts s0 s) (b : Bool) : Acts s0 (takeMgmtAddress b s) := takeMgmtAddress_frame b s ▸ h.upstream _

theorem Acts.mgmtCodeByte (h : Acts s0 s) (b : Byte) : Acts s0 (mgmtCodeByte b s) := mgmtCodeByte_frame b s ▸ h.upstream _

theorem Acts.mgmtDirection (h : Acts s0 s) (d : DirByte) : Acts s0 (mgmtDirection d s) := mgmtDirection_frame d s ▸ h.upstream _

theorem Acts.mgmtByte (h : Acts s0 s) (b : Byte) : Acts s0 (mgmtByte b s) := mgmtByte_frame b s ▸ h.upstream _

theorem Acts.takeAddress (h : Acts s0 s) (a : Addr) (b : Bool) : Acts s0 (takeAddress a b s) := by
  unfold Machine.takeAddress
  split
  · exact h.setAnswer _
  · split
    · exact h.takeMgmtAddress _
    · split
      · exact h.endUpstream _
      · split
        · exact h.upstream _
        · exact h.endUpstream _

theorem Acts.takeCodeByte (h : Acts s0 s) (b : Byte) : Acts s0 (takeCodeByte b s) := by
  unfold Machine.takeCodeByte
  split
  · split
    · split
      · exact h.setStage _ _ _
      · exact h.deny _ _
    · exact h.outOfPlace
  · exact h.mgmtCodeByte _

theorem Acts.takeDirection (h : Acts s0 s) (d : DirByte) : Acts s0 (takeDirection d s) := by
  unfold Machine.takeDirection
  split
  · split
    · split
      · split
        · exact h.endUpstream _
        · split <;> [exact h.setStage _ _ _; exact h.deny _ _]
      · split <;> [exact h.setStage _ _ _; exact h.deny _ _]
    · exact h.outOfPlace
  · exact h.mgmtDirection _

theorem Acts.takeLength (h : Acts s0 s) (b : Byte) : Acts s0 (takeLength b s) := by
  unfold Machine.takeLength
  split
  · split
    · split <;> [exact h.endUpstream _; exact h.setAnswer _]
    · exact h.outOfPlace
  · exact h.mgmtByte _

theorem Acts.forward (h : Acts s0 s) (tx : UpTx) (q : Request) (n : Nat) : Acts s0 (forward tx q n s) := by
  unfold Machine.forward
  simp only
  split
  · exact (h.setStage tx _ _).startTx tx.bay q .platform
  · exact (h.setStage tx _ _).updRelay tx.bay _

theorem Acts.forwardingPoint (h : Acts s0 s) (tx : UpTx) (q : Request) (n : Nat) : Acts s0 (forwardingPoint tx q n s) := by
  unfold Machine.forwardingPoint
  split
  · split
    · split
      · exact (h.touchSet _ _).endUpstream _
      · exact h.forward tx q n
    · exact h.forward tx q n
  · exact h.endUpstream _

theorem Acts.reachForwarding (h : Acts s0 s) (k : TxKind) (p : List Byte) (n : Nat) : Acts s0 (reachForwarding k p n s) := by
  unfold Machine.reachForwarding
  split
  · split
    · split <;> [exact h.forwardingPoint _ _ n; exact h.outOfPlace]
    · exact h.outOfPlace
  · exact h.outOfPlace

theorem Acts.abandonUp (h : Acts s0 s) : Acts s0 (abandonUp s) := by
  unfold Machine.abandonUp
  split <;> [exact h.setAnswer _; exact h.endUpstream _]

end Sys2Proof.Machine
end

