-- ==== Sys2Proof/Laws/MotionActs.lean ====
section
/-! SUPPORT. What an operation of the Motion Monitor and the Drop Log can do: `Keeps` says what they leave and which laws they keep beside
their own, and the laws of the monitor and of the log follow after it. -/

namespace Sys2Proof.Machine

/-- The state `t` is reached from `s` by actions, changes of the monitor and changes of the log. -/
structure Keeps (s t : State) : Prop where
  tables : t.tables = s.tables
  flags : t.flags = s.flags
  time : t.time = s.time
  lane : t.lane = s.lane
  mapInst : t.mapInst = s.mapInst
  port : t.port = s.port
  pending : t.pending = s.pending
  pollTimer : t.pollTimer = s.pollTimer
  pipe : t.pipe = { s.pipe with o := t.pipe.o }
  ext : t.pp.ext = s.pp.ext
  bridgeReady : t.pp.bridgeReady = s.pp.bridgeReady
  power : powerLaw s.pp → powerLaw t.pp
  attn : attnLaw s.attn → attnLaw t.attn
  cache : cacheLaw s.cache → cacheLaw t.cache
  output : minLevel s ≤ 1000 → outputLaw s → outputLaw t
  count : countLaw s → countLaw t
  budget : budgetLaw s → budgetLaw t
  levels : ∀ x, (t.bays.get x).levels = (s.bays.get x).levels

theorem Acts.keeps {s t : State} (h : Acts s t) : Keeps s t := { h.moves with budget := h.budget, levels := h.levels }

theorem Keeps.refl (s : State) : Keeps s s := (Acts.refl s).keeps

theorem Keeps.trans {s t u : State} (h : Keeps s t) (k : Keeps t u) : Keeps s u where
  tables := k.tables.trans h.tables
  flags := k.flags.trans h.flags
  time := k.time.trans h.time
  lane := k.lane.trans h.lane
  mapInst := k.mapInst.trans h.mapInst
  port := k.port.trans h.port
  pending := k.pending.trans h.pending
  pollTimer := k.pollTimer.trans h.pollTimer
  pipe := by rw [k.pipe, h.pipe]
  ext := k.ext.trans h.ext
  bridgeReady := k.bridgeReady.trans h.bridgeReady
  power := fun g => k.power (h.power g)
  attn := fun g => k.attn (h.attn g)
  cache := fun g => k.cache (h.cache g)
  output := fun hm g => k.output (by rw [minLevel_congr h.tables]; exact hm) (h.output hm g)
  count := fun g => k.count (h.count g)
  budget := fun g => k.budget (h.budget g)
  levels := fun x => (k.levels x).trans (h.levels x)

variable {s0 s : State}

theorem Keeps.acts {t : State} (h : Keeps s0 s) (a : Acts s t) : Keeps s0 t := h.trans a.keeps

theorem Keeps.motion (h : Keeps s0 s) (m : Motion) : Keeps s0 { s with motion := m } := { h with }

theorem Keeps.log (h : Keeps s0 s) (g : DropLog) : Keeps s0 { s with log := g } := { h with }

theorem Keeps.post (h : Keeps s0 s) (k : AttnKey) (d : Detail) : Keeps s0 (post k d s) := h.acts ((Acts.refl s).post k d)

/-! ### What the operations leave -/

theorem Keeps.writeRecord (h : Keeps s0 s) (e : DropEnding) (r : RestAxis) : Keeps s0 (writeRecord e r s) := by
  unfold Machine.writeRecord
  split
  · exact (h.motion _).post _ _
  · exact ((h.log _).motion _).post _ _

theorem levels_waitJoltHold (b : Bay) : (waitJoltHold b).levels = b.levels := by
  unfold waitJoltHold
  split
  · split <;> rfl
  · rfl

@[simp] theorem get_waitHolds (x : BayId) (s : State) : (waitHolds s).bays.get x = waitJoltHold (s.bays.get x) := by cases x <;> rfl

theorem Acts.waitHolds (h : Acts s0 s) : Acts s0 (waitHolds s) :=
  (h.updBay .A _ levels_waitJoltHold).updBay .B _ levels_waitJoltHold

theorem Keeps.beginEpisode (h : Keeps s0 s) (d : Detector) (n : Nat) : Keeps s0 (beginEpisode d n s) :=
  (h.motion _).acts (Acts.refl _).waitHolds

theorem Keeps.closeWindow (h : Keeps s0 s) : Keeps s0 (closeWindow s) := (h.motion _).acts (Acts.refl _).windowCloseEvent

theorem Keeps.beginClose (h : Keeps s0 s) : Keeps s0 (beginClose s) := by
  unfold Machine.beginClose
  split
  · exact h.closeWindow
  · exact h.motion _

theorem Keeps.returnToArmed (h : Keeps s0 s) : Keeps s0 (returnToArmed s) := (h.motion _).beginClose

theorem Keeps.endEpisode (h : Keeps s0 s) (e : DropEnding) (r : RestAxis) : Keeps s0 (endEpisode e r s) :=
  (h.writeRecord e r).returnToArmed

theorem Keeps.impactSample (h : Keeps s0 s) (p : Sample) (c : SampleClass) : Keeps s0 (impactSample p c s) := by
  unfold Machine.impactSample Machine.judgeImpact
  split
  · exact (h.motion _).endEpisode _ _
  · split
    · exact (h.motion _).endEpisode _ _
    · exact h.motion _

theorem Keeps.enterImpact (h : Keeps s0 s) (k : DropKind) : Keeps s0 (enterImpact k s) :=
  (h.motion _).acts (Acts.refl _).cacheImpact

theorem Keeps.takeSample (h : Keeps s0 s) (p : Sample) : Keeps s0 (takeSample p s) := by
  unfold Machine.takeSample
  split
  · unfold Machine.armedSample
    split
    · split
      · exact h.beginEpisode _ _
      · exact h.motion _
    · exact ((h.beginEpisode _ _).enterImpact _).impactSample p _
    · exact h.motion _
    · exact h.motion _
  · unfold Machine.fallingSample
    split
    · exact (h.motion _).motion _
    · exact ((h.motion _).enterImpact _).impactSample p _
    · exact h.returnToArmed
    · exact h.returnToArmed
  · exact h.impactSample p _

theorem Keeps.stallOut (h : Keeps s0 s) : Keeps s0 (stallOut s) := by
  unfold Machine.stallOut
  split
  · exact h
  · exact h.endEpisode _ _

theorem Keeps.holdOut (h : Keeps s0 s) : Keeps s0 (holdOut s) := by
  unfold Machine.holdOut
  split
  · exact h.closeWindow
  · exact h

/-! ### The monitor's law -/

theorem motionLaw_jolted (m : Motion) (j : Pair Bool) : motionLaw { m with jolted := j } ↔ motionLaw m := Iff.rfl

/-- Actions keep the monitor's law. -/
theorem Acts.motionLaw {t : State} (h : Acts s t) (g : motionLaw s.motion) : motionLaw t.motion := by
  rw [h.motion]; exact (motionLaw_jolted _ _).2 g

theorem motionLaw_beginMotion (d : Detector) (n : Nat) (f : Bool) (m : Motion) (hd : d ≠ .armed) : motionLaw (beginMotion d n f m) := by
  refine ⟨?_, ?_, fun _ => rfl, rfl⟩ <;> cases d <;> first | rfl | exact absurd rfl hd

theorem detector_beginEpisode (d : Detector) (n : Nat) (s : State) : (beginEpisode d n s).motion.detector = d := rfl

theorem motionLaw_beginEpisode (d : Detector) (n : Nat) (s : State) (hd : d ≠ .armed) : motionLaw (beginEpisode d n s).motion :=
  motionLaw_beginMotion d n _ _ hd

theorem motionLaw_closeWindow (s : State) (h : motionLaw s.motion) (hd : s.motion.detector = .armed) :
    motionLaw (closeWindow s).motion := by
  refine Acts.motionLaw (Acts.refl _).windowCloseEvent ?_
  exact ⟨h.1, h.2.1, fun k => absurd hd k, rfl⟩

/-- The detector and the window after a return to ARMED. -/
theorem motionLaw_returnToArmed (s : State) : motionLaw (returnToArmed s).motion := by
  unfold returnToArmed beginClose
  split
  · refine Acts.motionLaw (Acts.refl _).windowCloseEvent ?_
    exact ⟨rfl, rfl, fun k => absurd rfl k, rfl⟩
  · exact ⟨rfl, rfl, fun k => absurd rfl k, rfl⟩

theorem motionLaw_impactSample (p : Sample) (c : SampleClass) (s : State) (h : motionLaw s.motion)
    (hd : s.motion.detector ≠ .armed) : motionLaw (impactSample p c s).motion := by
  unfold impactSample judgeImpact
  split
  · exact motionLaw_returnToArmed _
  · split
    · exact motionLaw_returnToArmed _
    · refine ⟨h.1, ?_, h.2.2.1, h.2.2.2⟩
      cases hk : s.motion.detector <;> first | exact absurd hk hd | simp [countImpact, hk]

theorem motionLaw_enterImpact (k : DropKind) (s : State) (h : motionLaw s.motion) (hd : s.motion.detector ≠ .armed) :
    motionLaw (enterImpact k s).motion := by
  refine Acts.motionLaw (Acts.refl _).cacheImpact ?_
  refine ⟨?_, ?_, fun _ => h.2.2.1 hd, h.2.2.2⟩
  · rw [show _ = s.motion.park from rfl, h.1]; cases hk : s.motion.detector <;> first | exact absurd hk hd | rfl
  · rw [show _ = s.motion.stall.isSome from rfl, h.2.1]; cases hk : s.motion.detector <;> first | exact absurd hk hd | rfl

theorem motionLaw_restartStall (s : State) (h : motionLaw s.motion) (hd : s.motion.detector ≠ .armed) :
    motionLaw (restartStall s).motion := by
  refine ⟨h.1, ?_, h.2.2.1, h.2.2.2⟩
  cases hk : s.motion.detector <;> first | exact absurd hk hd | simp [restartStall, hk]

theorem motionLaw_takeSample (p : Sample) (s : State) (h : motionLaw s.motion) : motionLaw (takeSample p s).motion := by
  unfold takeSample
  split
  · unfold armedSample
    split
    · split
      · exact motionLaw_beginEpisode _ _ _ (by decide)
      · exact h
    · refine motionLaw_impactSample _ _ _ (motionLaw_enterImpact _ _ (motionLaw_beginEpisode _ _ _ (by decide)) ?_) ?_
      · rw [detector_beginEpisode]; decide
      · exact (by decide : Detector.impact ≠ .armed)
    · exact h
    · exact h
  · next hd =>
    have hf : s.motion.detector ≠ .armed := by rw [hd]; decide
    unfold fallingSample
    split
    · exact motionLaw_restartStall _ h hf
    · exact motionLaw_impactSample _ _ _ (motionLaw_enterImpact _ _ (motionLaw_restartStall _ h hf) hf)
        (by decide : Detector.impact ≠ .armed)
    · exact motionLaw_returnToArmed _
    · exact motionLaw_returnToArmed _
  · next hd => exact motionLaw_impactSample _ _ _ h (by rw [hd]; decide)

/-! ### The law of the Drop Log -/

theorem logLaw_place (r : DropRecord) (recs : List DropRecord) (hl : recs.length ≤ 8)
    (hs : (recs.map DropRecord.seq).Pairwise (· < ·)) (hb : ∀ q ∈ recs, q.seq < r.seq) :
    (placeRecord r recs).1.length ≤ 8 ∧ ((placeRecord r recs).1.map DropRecord.seq).Pairwise (· < ·)
      ∧ ∀ q ∈ (placeRecord r recs).1, q ∈ recs ∨ q = r := by
  have key : ∀ l : List DropRecord, l.Sublist recs → ((l ++ [r]).map DropRecord.seq).Pairwise (· < ·)
      ∧ ∀ q ∈ l ++ [r], q ∈ recs ∨ q = r := by
    intro l hsub
    refine ⟨?_, ?_⟩
    · rw [List.map_append, List.pairwise_append]
      refine ⟨hs.sublist (hsub.map _), by simp, ?_⟩
      intro a ha b hb'
      obtain ⟨q, hq, rfl⟩ := List.mem_map.1 ha
      simp only [List.map_cons, List.map_nil, List.mem_singleton] at hb'
      subst hb'
      exact hb q (hsub.subset hq)
    · intro q hq
      rcases List.mem_append.1 hq with h | h
      · exact Or.inl (hsub.subset h)
      · exact Or.inr (by simpa using h)
  unfold placeRecord
  split
  · next h8 => exact ⟨by simp; omega, key recs (List.Sublist.refl _)⟩
  · split
    · next h8 hp =>
      have hsub := List.eraseP_sublist (p := fun q : DropRecord => q.peak == smallestPeak recs) (l := recs)
      refine ⟨?_, key _ hsub⟩
      have hex : ∃ q ∈ recs, (q.peak == smallestPeak recs) = true := by
        have hne : recs ≠ [] := by intro e; subst e; simp at h8
        clear hp h8 key hb hs hl hsub
        induction recs with
        | nil => exact absurd rfl hne
        | cons a rest ih =>
          cases rest with
          | nil => exact ⟨a, by simp, by simp [smallestPeak]⟩
          | cons b rest =>
            have hm : smallestPeak (a :: b :: rest) = min a.peak (smallestPeak (b :: rest)) := rfl
            rw [hm]
            rcases Nat.le_total a.peak (smallestPeak (b :: rest)) with h | h
            · exact ⟨a, by simp, by simp [min_eq_left h]⟩
            · obtain ⟨q, hq, he⟩ := ih (by simp)
              exact ⟨q, List.mem_cons_of_mem _ hq, by rw [min_eq_right h]; exact he⟩
      obtain ⟨q, hq, he⟩ := hex
      have := List.length_eraseP_of_mem (p := fun q : DropRecord => q.peak == smallestPeak recs) hq he
      simp only [List.length_append, List.length_cons, List.length_nil]
      omega
    · exact ⟨hl, hs, fun q hq => Or.inl hq⟩

/-- R154: composing a record keeps the law of the log. -/
theorem logLaw_writeRecord (e : DropEnding) (r : RestAxis) (s : State) (h : logLaw s.log) : logLaw (writeRecord e r s).log := by
  unfold writeRecord
  split
  · exact h
  · next q hq =>
    obtain ⟨h8, hs, hr, hn⟩ := h
    have hb := hn q hq
    have hc : (composeRecord q e r s).seq = q := rfl
    have hp := logLaw_place (composeRecord q e r s) s.log.records h8 hs (by rw [hc]; exact hb.2.2)
    refine ⟨hp.1, hp.2.1, ?_, ?_⟩
    · intro k hk
      rcases hp.2.2 k hk with h' | rfl
      · exact hr k h'
      · exact ⟨hb.1, hb.2.1⟩
    · intro k hk
      have hk' : nextSequence q = some k := hk
      unfold nextSequence at hk'
      split at hk'
      · next hlt =>
        injection hk' with hk'
        subst hk'
        refine ⟨by omega, by omega, ?_⟩
        intro p hp'
        rcases hp.2.2 p hp' with h' | rfl
        · have := hb.2.2 p h'; omega
        · show q < q + 1; omega
      · cases hk'

theorem log_closeWindow (s : State) : (closeWindow s).log = s.log := (Acts.refl _).windowCloseEvent.log

theorem log_returnToArmed (s : State) : (returnToArmed s).log = s.log := by
  unfold returnToArmed beginClose
  split
  · exact log_closeWindow _
  · rfl

theorem logLaw_impactSample (p : Sample) (c : SampleClass) (s : State) (h : logLaw s.log) : logLaw (impactSample p c s).log := by
  unfold impactSample judgeImpact endEpisode
  split
  · rw [log_returnToArmed]; exact logLaw_writeRecord _ _ _ h
  · split
    · rw [log_returnToArmed]; exact logLaw_writeRecord _ _ _ h
    · exact h

theorem log_beginEpisode (d : Detector) (n : Nat) (s : State) : (beginEpisode d n s).log = s.log := rfl

theorem logLaw_takeSample (p : Sample) (s : State) (h : logLaw s.log) : logLaw (takeSample p s).log := by
  unfold takeSample
  split
  · unfold armedSample
    split
    · split
      · rw [log_beginEpisode]; exact h
      · exact h
    · refine logLaw_impactSample _ _ _ ?_
      rw [show (enterImpact .strike (beginEpisode .impact 0 s)).log = (beginEpisode .impact 0 s).log from rfl, log_beginEpisode]
      exact h
    · exact h
    · exact h
  · unfold fallingSample
    split
    · exact h
    · exact logLaw_impactSample _ _ _ h
    · rw [log_returnToArmed]; exact h
    · rw [log_returnToArmed]; exact h
  · exact logLaw_impactSample _ _ _ h

end Sys2Proof.Machine
end

