-- ==== Sys2Proof/Laws/TableActs.lean ====
section
/-! SUPPORT. What Table Memory does when a region enters or leaves service, and that its own law is kept by every table operation. -/

namespace Sys2Proof.Machine

/-! ### What a hand-over does (R166) -/

/-- The state `t` is reached from `s` by actions, a change of HOST_MAX, of rings or of the map instance. -/
structure Serves (s t : State) : Prop where
  tables : t.tables = s.tables
  log : t.log = s.log
  flags : t.flags = s.flags
  time : t.time = s.time
  lane : t.lane = s.lane
  port : t.port = s.port
  pending : t.pending = s.pending
  pollTimer : t.pollTimer = s.pollTimer
  motion : t.motion = { s.motion with jolted := t.motion.jolted }
  ext : t.pp.ext = s.pp.ext
  bridgeReady : t.pp.bridgeReady = s.pp.bridgeReady
  power : powerLaw s.pp → powerLaw t.pp
  attn : attnLaw s.attn → attnLaw t.attn
  cache : cacheLaw s.cache → cacheLaw t.cache
  levels : ∀ x, (t.bays.get x).levels = (s.bays.get x).levels

theorem Acts.serves {s t : State} (h : Acts s t) : Serves s t := { h.moves with levels := h.levels }

theorem Serves.refl (s : State) : Serves s s := (Acts.refl s).serves

theorem Serves.trans {s t u : State} (h : Serves s t) (k : Serves t u) : Serves s u where
  tables := k.tables.trans h.tables
  log := k.log.trans h.log
  flags := k.flags.trans h.flags
  time := k.time.trans h.time
  lane := k.lane.trans h.lane
  port := k.port.trans h.port
  pending := k.pending.trans h.pending
  pollTimer := k.pollTimer.trans h.pollTimer
  motion := by rw [k.motion, h.motion]
  ext := k.ext.trans h.ext
  bridgeReady := k.bridgeReady.trans h.bridgeReady
  power := fun g => k.power (h.power g)
  attn := fun g => k.attn (h.attn g)
  cache := fun g => k.cache (h.cache g)
  levels := fun x => (k.levels x).trans (h.levels x)

variable {s0 s : State}

theorem Serves.acts {t : State} (h : Serves s0 s) (a : Acts s t) : Serves s0 t := h.trans a.serves

theorem Serves.pipe (h : Serves s0 s) (p : Pipeline) : Serves s0 { s with pipe := p } := { h with }

theorem Serves.mapInst (h : Serves s0 s) (n : Nat) : Serves s0 { s with mapInst := n } := { h with }

theorem Serves.relay (h : Serves s0 s) (x : BayId) (f : Relay → Relay) : Serves s0 (updRelay x f s) := { h with }

theorem Acts.clampCount (h : Acts s0 s) (x : BayId) : Acts s0 (clampCount x s) := h.updRelay x _ fun _ => min_le_left _ _

theorem Acts.faultAtLimit (h : Acts s0 s) (x : BayId) : Acts s0 (faultAtLimit x s) := Acts.settling (h.faultIfReached x)

theorem Acts.rebuildRing (h : Acts s0 s) (x : BayId) : Acts s0 (rebuildRing x s) := h.updRelay x _ fun _ => le_rfl

theorem Serves.handOverConfig (h : Serves s0 s) : Serves s0 (handOverConfig s) :=
  (h.pipe _).acts (((((Acts.refl _).recompute.clampCount .A).clampCount .B).faultAtLimit .A).faultAtLimit .B)

theorem Serves.newInstance (h : Serves s0 s) : Serves s0 (newInstance s) :=
  (h.mapInst _).acts (((Acts.refl _).rebuildRing .A).rebuildRing .B)

theorem Serves.enterService (h : Serves s0 s) (r : RegionId) : Serves s0 (enterService r s) := by
  cases r
  · exact h.handOverConfig
  · exact h.newInstance
  · exact h
  · exact h

theorem Serves.leaveService (h : Serves s0 s) (r : RegionId) : Serves s0 (leaveService r s) := by
  cases r
  · exact h.handOverConfig
  · exact h.newInstance.acts (Acts.refl _).cacheDropAll
  · exact h
  · exact h

/-- R166, R113, R114, R64: a CONFIG hand-over establishes the laws of the output and of the counts. -/
theorem handOverConfig_laws (s : State) (hm : minLevel s ≤ 1000) : outputLaw (handOverConfig s) ∧ countLaw (handOverConfig s) := by
  have hr : outputLaw (recompute (raiseHostMax s)) := outputLaw_recompute _ hm (le_max_right _ _)
  have ht : (recompute (raiseHostMax s)).tables = s.tables := by rw [recompute_eq]; rfl
  have hc : countLaw (clampCount .B (clampCount .A (recompute (raiseHostMax s)))) := ⟨min_le_right _ _, min_le_right _ _⟩
  have ho : outputLaw (clampCount .B (clampCount .A (recompute (raiseHostMax s)))) := hr
  have ha := ((Acts.refl (clampCount .B (clampCount .A (recompute (raiseHostMax s))))).faultAtLimit .A).faultAtLimit .B
  refine ⟨ha.output ?_ ho, ha.count hc⟩
  have e : minLevel (clampCount .B (clampCount .A (recompute (raiseHostMax s)))) = minLevel s := minLevel_congr ht
  rw [e]; exact hm

/-- R166, R106: a CONFIG hand-over makes the budget record current. -/
theorem handOverConfig_budget (s : State) : budgetLaw (handOverConfig s) :=
  (((((Acts.refl (recompute (raiseHostMax s))).clampCount .A).clampCount .B).faultAtLimit .A).faultAtLimit .B).budget
    (budgetLaw_recompute _)

/-! ### The law of Table Memory -/

/-- Two regions that give the same contents in effect (R165). -/
def sameEffect (g g' : Region) : Prop :=
  (g'.state = .inService ↔ g.state = .inService) ∧ (g.state = .inService → g'.words = g.words)

theorem cfg_congr {s t : State} (h : sameEffect s.tables.config t.tables.config) (i : Nat) : cfg t i = cfg s i := by
  unfold cfg inEffect Tables.get
  by_cases hs : s.tables.config.state = .inService
  · rw [if_pos hs, if_pos (h.1.2 hs), h.2 hs]
  · rw [if_neg hs, if_neg (fun e => hs (h.1.1 e))]

/-- A region in service passes its check, so none of its words fails. -/
theorem word_ok {r : RegionId} {m : Memory} (h : checkFailure r m = none) (i : Nat) (hi : i < Config.regionSize r - 1) :
    wordFails r m i = false := by
  unfold checkFailure at h
  split at h
  · cases h
  · split at h
    · split at h
      · cases h
      · next hl =>
        unfold lowestFailing at hl
        have := List.find?_eq_none.1 hl i (List.mem_range.2 hi)
        simpa using this
    · cases h

/-- R172 or R165: MIN_LEVEL in effect is at most 200. -/
theorem minLevel_le (s : State) (h : regionLaw .config s.tables.config) : minLevel s ≤ 200 := by
  by_cases hs : s.tables.config.state = .inService
  · have hw := word_ok (h.2.2.2 hs) 25 (by decide)
    have e : minLevel s = (Memory.read s.tables.config.words 25).toNat := by
      unfold minLevel cfg inEffect Tables.get; rw [if_pos hs]
    simp only [wordFails, configFails, Bool.or_eq_false_iff] at hw
    have h1 := hw.1
    have er : Config.configRows[25]? = some ⟨0, 200, 20, false⟩ := by decide
    unfold rowFails at h1
    rw [er] at h1
    simp only [inRange, Bool.not_eq_false', Bool.and_eq_true, decide_eq_true_eq, Bool.false_eq_true, if_false] at h1
    rw [e]; omega
  · have e : minLevel s = (Config.defaultWord .config 25).toNat := by
      unfold minLevel cfg inEffect Tables.get; rw [if_neg hs]
    rw [e]; decide

theorem regionLaw_reset (r : RegionId) : regionLaw r Region.reset :=
  ⟨rfl, fun _ => rfl, fun h => (by cases h), fun h => (by cases h)⟩

theorem tablesLaw_upd {t : Tables} (r : RegionId) {f : Region → Region} (h : tablesLaw t)
    (hf : regionLaw r (t.get r) → regionLaw r (f (t.get r))) : tablesLaw (t.upd r f) := by
  cases r
  · exact ⟨hf h.1, h.2.1, h.2.2.1, h.2.2.2⟩
  · exact ⟨h.1, hf h.2.1, h.2.2.1, h.2.2.2⟩
  · exact ⟨h.1, h.2.1, hf h.2.2.1, h.2.2.2⟩
  · exact ⟨h.1, h.2.1, h.2.2.1, hf h.2.2.2⟩

theorem tablesLaw_get {t : Tables} (h : tablesLaw t) (r : RegionId) : regionLaw r (t.get r) := by
  cases r
  · exact h.1
  · exact h.2.1
  · exact h.2.2.1
  · exact h.2.2.2

/-- R167: a range that is not bad lies within the region. -/
theorem rangeBad_false {r : RegionId} {off n : Nat} (h : rangeBad r off n = false) :
    0 < n ∧ n ≤ 48 ∧ off + n ≤ Config.regionSize r := by
  simp only [rangeBad, Bool.or_eq_false_iff, beq_eq_false_iff_ne, decide_eq_false_iff_not] at h
  omega

/-- R169: storing words in a region that is not locked and not in service keeps its law. -/
theorem regionLaw_store {r : RegionId} {g : Region} {off : Nat} {ws : List Word} (h : regionLaw r g) (hl : g.lock = false)
    (hr : rangeBad r off ws.length = false) :
    regionLaw r { g with state := .loading, words := Memory.writeAll g.words off ws } := by
  have := rangeBad_false hr
  refine ⟨Memory.wf_writeAll _ _ _ _ this.2.2 h.1, fun e => (by cases e), fun e => ?_, fun e => by cases e⟩
  rw [show _ = g.lock from rfl, hl] at e; cases e

/-- R168: a cleared region that is not locked. -/
theorem regionLaw_clear {r : RegionId} {g : Region} (hl : g.lock = false) :
    regionLaw r { g with state := .empty, words := [] } :=
  ⟨rfl, fun _ => rfl, fun e => (by rw [show _ = g.lock from rfl, hl] at e; cases e), fun e => by cases e⟩

/-- A region that is not in service is not locked. -/
theorem unlocked {r : RegionId} {g : Region} (h : regionLaw r g) (hs : g.state ≠ .inService) : g.lock = false := by
  cases hl : g.lock
  · rfl
  · exact absurd (h.2.2.1 hl) hs

/-- R170, R171: a check begins or fails. -/
theorem regionLaw_state {r : RegionId} {g : Region} (h : regionLaw r g) (st : RegionState) (hs : g.state ≠ .inService)
    (h1 : st ≠ .empty) (h2 : st ≠ .inService) : regionLaw r { g with state := st } :=
  ⟨h.1, fun e => absurd e h1, fun e => (by rw [show _ = g.lock from rfl, unlocked h hs] at e; cases e), fun e => absurd e h2⟩

/-- R171: a check that passes. -/
theorem regionLaw_pass {r : RegionId} {g : Region} (h : regionLaw r g) (hp : checkFailure r g.words = none) :
    regionLaw r { g with state := .inService } := ⟨h.1, fun e => (by cases e), fun _ => rfl, fun _ => hp⟩

/-- R177: a region in service is locked. -/
theorem regionLaw_lock {r : RegionId} {g : Region} (h : regionLaw r g) (hs : g.state = .inService) :
    regionLaw r { g with lock := true } := ⟨h.1, h.2.1, fun _ => hs, h.2.2.2⟩

/-- R179: a region at a software reset. -/
theorem regionLaw_softReset {r : RegionId} {g : Region} (h : regionLaw r g) : regionLaw r (resetRegion g) := by
  unfold resetRegion
  split
  · exact h
  · next hl => exact regionLaw_clear (by simpa using hl)

end Sys2Proof.Machine
end

