-- ==== Sys2Proof/Laws/RowActs.lean ====
section
/-! SUPPORT. What the rows do, in the terms of `Acts`, `Keeps` and `Serves`: the line and link rows, the flag commands, the bay commands and the
way a command is taken. -/

namespace Sys2Proof.Machine

variable {s0 s : State}

/-! ### Lines (R17, R18, R34, R38) -/

/-- Actions on both sides of one recording of a line. -/
theorem Turns.refl (s : State) : Turns s s := (Acts.refl s).turns

theorem Turns.presenceLineRises (h : Turns s0 s) (x : BayId) : Turns s0 (presenceLineRises x s) := by
  unfold Machine.presenceLineRises
  split
  · exact h.acts ((Acts.refl _).enterSeating x)
  · exact h.updBay x _

theorem Turns.seatingLineFalls (h : Turns s0 s) (x : BayId) : Turns s0 (seatingLineFalls x s) := by
  unfold Machine.seatingLineFalls
  split
  · exact (h.updBay x _).presenceFalls x
  · exact h.acts (((Acts.refl _).updBay x _).setBayState x .empty)

theorem Turns.presenceLineFalls (h : Turns s0 s) (x : BayId) : Turns s0 (presenceLineFalls x s) := by
  have h1 := h.acts (((Acts.refl _).loseLink x).failRecover x)
  unfold Machine.presenceLineFalls
  simp only
  split
  · exact h1.seatingLineFalls x
  · exact h1.updBay x _

theorem Turns.presenceLine (h : Turns s0 s) (x : BayId) (b : Bool) : Turns s0 (presenceLine x b s) := by
  unfold Machine.presenceLine
  split
  · exact h
  · cases b
    · exact (h.updBay x _).presenceLineFalls x
    · exact (h.updBay x _).presenceLineRises x

theorem Turns.recordRise (h : Turns s0 s) (x : BayId) : Turns s0 (recordRise x s) := by
  have h1 : Turns s0 (if (s.bays.get x).presence then s else Machine.presenceRises x s) := by
    split
    · exact h
    · exact h.presenceRises x
  have h2 : Turns s0 (if (s.bays.get x).presence then (if (s.bays.get x).presence then s else Machine.presenceRises x s)
      else Machine.post (.presence (.bay x)) dArrived (if (s.bays.get x).presence then s else Machine.presenceRises x s)) := by
    by_cases hp : (s.bays.get x).presence = true
    · rw [if_pos hp]; exact h1
    · rw [if_neg hp]; exact h1.acts ((Acts.refl _).post _ _)
  have h3 : Turns s0 (if (s.bays.get x).presence then (if (s.bays.get x).presence then s else Machine.presenceRises x s)
      else Machine.joltReturn x (if (s.bays.get x).presence then s else Machine.presenceRises x s)) := by
    by_cases hp : (s.bays.get x).presence = true
    · rw [if_pos hp]; exact h1
    · rw [if_neg hp]; exact h1.acts ((Acts.refl _).joltReturn x)
  unfold Machine.recordRise
  generalize (if (s.bays.get x).presence then s else Machine.presenceRises x s) = t at h1 h2 h3 ⊢
  cases he : (t.bays.get x).state <;> simp only [he] <;>
    first | exact h1 | exact h2.acts ((Acts.refl _).enterProbing x .insertion) | exact h3

theorem Turns.presenceExpiry (h : Turns s0 s) (x : BayId) : Turns s0 (presenceExpiry x s) := by
  unfold Machine.presenceExpiry
  split
  · exact h
  · simp only
    split
    · exact Turns.recordRise (h.updBay x _) x
    · split
      · exact Turns.presenceFalls (h.updBay x _) x
      · exact h.updBay x _

theorem Turns.latchLine (h : Turns s0 s) (x : BayId) (b : Bool) : Turns s0 (latchLine x b s) := by
  unfold Machine.latchLine
  split
  · exact h
  · exact (h.updBay x _).updBay x _

theorem Turns.latchExpiry (h : Turns s0 s) (x : BayId) : Turns s0 (latchExpiry x s) := by
  unfold Machine.latchExpiry
  split
  · exact h
  · simp only
    split
    · exact h.updBay x _
    · split
      · exact Turns.latchCloses (h.updBay x _) x
      · exact Turns.latchOpens (h.updBay x _) x

theorem Turns.settling {f : State → State} (h : Turns s0 (f s)) : Turns s0 (settling f s) := h.acts ((Acts.refl _).settle s)

theorem Acts.expireBridge (h : Acts s0 s) : Acts s0 (expireBridge s) := by
  unfold Machine.expireBridge
  split
  · next hr =>
    refine Acts.recompute_of (Moves.post (h.moves.setPower
      { s.pp with bridge := .expired, timer := max s.pp.timer (bridgeMax s), pfail := true } rfl rfl fun g => ?_) .bridgeLow _) h.levels
    have h1 := g.1
    have h2 := g.2.1
    rw [hr] at h1 h2
    exact ⟨h1, h2, rfl, fun e => by cases e⟩
  · exact h

theorem Acts.joltHoldOut (h : Acts s0 s) (x : BayId) : Acts s0 (joltHoldOut x s) := by
  unfold Machine.joltHoldOut
  split
  · exact h.joltExpire x
  · exact h

theorem Acts.contextOut (h : Acts s0 s) (x : BayId) : Acts s0 (contextOut x s) := by
  unfold Machine.contextOut
  split
  · exact h.discardContext x
  · exact h

/-- R1: what follows the recorded change of EXT presence. -/
theorem Acts.extFollows (s : State) (v : Bool) : Acts (setExt v s) (if v then extArrives s else extDeparts s) := by
  cases v
  · have h1 : Acts (setExt false s) (Machine.recompute (Machine.post (.presence .ext) dDeparted (setExt false s))) :=
      ((Acts.refl _).post _ _).recompute
    simp only [Bool.false_eq_true, if_false]
    unfold Machine.extDeparts
    simp only
    split
    · exact h1.answerNoSource
    · exact h1
  · exact (((Acts.refl _).post _ _).recompute).releaseHeld.endBridge

/-! ### Links -/

theorem Acts.completeTx (h : Acts s0 s) (x : BayId) (r : PackReply) : Acts s0 (completeTx x r s) := by
  unfold Machine.completeTx
  split
  · split
    · exact h.finishTx x _ _
    · exact h
  · exact h

theorem Acts.timeoutTx (h : Acts s0 s) (x : BayId) : Acts s0 (timeoutTx x s) := by
  unfold Machine.timeoutTx
  split
  · exact h.finishTx x _ _
  · exact h

theorem Acts.forwardBlock (h : Acts s0 s) (b : List Byte) : Acts s0 (forwardBlock b s) := by
  unfold Machine.forwardBlock
  split
  · exact h.reachForwarding _ _ _
  · exact h.outOfPlace

/-! ### How a command is taken (R183, R184) -/

/-- A command changes the slot and the upstream link, and beyond them only what its body changes. -/
theorem manage_keeps {P : State → Prop} {body : State → State × Frame} (hslot : ∀ s v, P s → P (setSlot v s))
    (hup : ∀ s a, P s → P (endUpstream a s)) (hans : ∀ s a, P s → P (setAnswer a s)) (hb : ∀ s, P s → P (body s).1) (h : P s) :
    P (manage body s) := by
  unfold manage
  split
  · exact hans _ _ h
  · split
    · exact hslot _ _ (hb _ (hslot _ _ (hup _ _ h)))
    · exact hup _ _ h

theorem noParams_keeps {P : State → Prop} {f : State → State × Frame} (hf : ∀ s, P s → P (f s).1) (p : List Byte) (h : P s) :
    P (noParams p f s).1 := by
  unfold noParams
  split
  · exact hf _ h
  · exact h

theorem withBay_keeps {P : State → Prop} {f : BayId → State → State × Frame} (hf : ∀ x s, P s → P (f x s).1) (p : List Byte)
    (h : P s) : P (withBay p f s).1 := by
  unfold withBay
  split
  · split
    · exact hf _ _ h
    · exact h
  · exact h

theorem withRegion_keeps {P : State → Prop} {f : RegionId → State → State × Frame} (hf : ∀ r s, P s → P (f r s).1) (p : List Byte)
    (h : P s) : P (withRegion p f s).1 := by
  unfold withRegion
  split
  · split
    · exact hf _ _ h
    · exact h
  · exact h

/-! ### Bay and flag commands -/

theorem Acts.handFlag (h : Acts s0 s) (n : Nat) (a b : Bool) : Acts s0 (handFlag n a b s) := by
  unfold Machine.handFlag
  split
  · split
    · exact h.reevaluate .A
    · split
      · exact h.reevaluate .B
      · exact h
  · split
    · exact (h.updRelay .A _).updRelay .B _
    · exact h

theorem Acts.bayRelease (h : Acts s0 s) (x : BayId) : Acts s0 (bayRelease x s).1 := by
  unfold Machine.bayRelease
  split
  · split
    · exact h.evaluate x false
    · exact h.evaluate x false
    · exact h.evaluate x false
  · exact h

theorem Acts.bayReturn (h : Acts s0 s) (x : BayId) : Acts s0 (bayReturn x s).1 := by
  unfold Machine.bayReturn
  split
  · exact Acts.settling (h.returnBay x)
  · exact h

theorem Acts.bayProbe (h : Acts s0 s) (x : BayId) : Acts s0 (bayProbe x s).1 := by
  unfold Machine.bayProbe
  split
  · split
    · exact h
    · exact Acts.settling ((h.updRelay x _).enterProbing x .bayProbe)
  · exact h

theorem Acts.linkRecover (h : Acts s0 s) (x : BayId) : Acts s0 (linkRecover x s).1 := by
  unfold Machine.linkRecover
  cases (s.bays.get x).state <;> first
    | exact h
    | (simp only; split <;> [exact h.updRelay x _ fun _ => le_rfl; exact h])

theorem Acts.cacheFlush (h : Acts s0 s) (p : List Byte) : Acts s0 (cacheFlush p s).1 := by
  unfold Machine.cacheFlush
  split
  · split
    · exact h.cacheDropBay .A
    · exact h.cacheDropBay .B
    · exact h.cacheDropAll
    · exact h
  · exact h

end Sys2Proof.Machine
end

