-- ==== Sys2Proof/Laws/ResetActs.lean ====
section
/-! SUPPORT. What the software reset does, in two parts: the blocks that take their reset values (`resetBase`), and the events that follow from it
(`resetTail`), which keep every law. -/

namespace Sys2Proof.Machine

/-- The state after the relay, the tables, the cache, the pipeline, the budget and the monitor have taken the reset. -/
def resetBase (s : State) : State :=
  motionReset (recompute (pipeReset (cacheReset (tablesReset (relayReset (emptyAttn s))))))

/-- The events that follow: probes restarted, flags cleared, the window closed. -/
def resetEvents (s : State) : State := windowReset (flagsReset (restartProbe .B (restartProbe .A s)))

/-- The events, and then the poll timer and the port. -/
def resetTail (s : State) : State := portReset (pollTimerReset (resetEvents s))

theorem softReset_eq (s : State) : softReset s = resetTail (resetBase s) := rfl

variable {s0 s : State}

theorem Acts.restartProbe (h : Acts s0 s) (x : BayId) : Acts s0 (restartProbe x s) := by
  unfold Machine.restartProbe
  split
  · exact Acts.settling (h.startProbe x)
  · exact h

/-- R203: what follows the clearing of the flags. -/
theorem Acts.flagsFollow (s : State) : Acts { s with flags := flagsClear } (flagsReset s) := by
  have h1 := (Acts.refl ({ s with flags := flagsClear } : State)).reevaluate .A
  unfold Machine.flagsReset
  simp only
  split
  · split
    · exact h1.reevaluate .B
    · exact (Acts.refl _).reevaluate .B
  · split
    · exact h1
    · exact Acts.refl _

theorem Keeps.windowReset (h : Keeps s0 s) : Keeps s0 (windowReset s) := by
  unfold Machine.windowReset
  split
  · exact h.closeWindow
  · exact h

theorem log_windowReset (s : State) : (windowReset s).log = s.log := by
  unfold windowReset
  split
  · exact log_closeWindow s
  · rfl

/-- The events keep what `Keeps` keeps, from the state with its flags cleared. -/
theorem resetEvents_keeps (s : State) :
    Keeps { restartProbe .B (restartProbe .A s) with flags := flagsClear } (resetEvents s) := by
  unfold resetEvents
  exact (Acts.flagsFollow _).keeps.trans (Keeps.refl _).windowReset

theorem restart_acts (s : State) : Acts s (restartProbe .B (restartProbe .A s)) := ((Acts.refl s).restartProbe .A).restartProbe .B

/-- The tail differs from its events in the poll timer and the port. -/
theorem resetTail_form (s : State) : ∃ n p, resetTail s = { resetEvents s with pollTimer := n, port := p } := ⟨_, _, rfl⟩

theorem resetTail_tables (s : State) : (resetTail s).tables = s.tables := by
  obtain ⟨n, p, h⟩ := resetTail_form s
  rw [h]; simp only; rw [(resetEvents_keeps s).tables]; simp only; rw [(restart_acts s).tables]

theorem resetTail_time (s : State) : (resetTail s).time = s.time := by
  obtain ⟨n, p, h⟩ := resetTail_form s
  rw [h]; simp only; rw [(resetEvents_keeps s).time]; simp only; rw [(restart_acts s).time]

theorem resetTail_lane (s : State) : (resetTail s).lane = s.lane := by
  obtain ⟨n, p, h⟩ := resetTail_form s
  rw [h]; simp only; rw [(resetEvents_keeps s).lane]; simp only; rw [(restart_acts s).lane]

theorem resetTail_mapInst (s : State) : (resetTail s).mapInst = s.mapInst := by
  obtain ⟨n, p, h⟩ := resetTail_form s
  rw [h]; simp only; rw [(resetEvents_keeps s).mapInst]; simp only; rw [(restart_acts s).mapInst]

theorem resetTail_pending (s : State) : (resetTail s).pending = s.pending := by
  obtain ⟨n, p, h⟩ := resetTail_form s
  rw [h]; simp only; rw [(resetEvents_keeps s).pending]; simp only; rw [(restart_acts s).pending]

theorem resetTail_flags (s : State) : (resetTail s).flags = flagsClear := by
  obtain ⟨n, p, h⟩ := resetTail_form s
  rw [h]; simp only; rw [(resetEvents_keeps s).flags]

theorem resetTail_ext (s : State) : (resetTail s).pp.ext = s.pp.ext := by
  obtain ⟨n, p, h⟩ := resetTail_form s
  rw [h]; simp only; rw [(resetEvents_keeps s).ext]; simp only; rw [(restart_acts s).ext]

theorem resetTail_ready (s : State) : (resetTail s).pp.bridgeReady = s.pp.bridgeReady := by
  obtain ⟨n, p, h⟩ := resetTail_form s
  rw [h]; simp only; rw [(resetEvents_keeps s).bridgeReady]; simp only; rw [(restart_acts s).bridgeReady]

theorem resetTail_log (s : State) : (resetTail s).log = s.log := by
  obtain ⟨n, p, h⟩ := resetTail_form s
  rw [h]; simp only; unfold resetEvents
  rw [log_windowReset, (Acts.flagsFollow _).log]; simp only; rw [(restart_acts s).log]

/-- The pipeline but for O. -/
theorem resetTail_pipe (s : State) : ∃ o, (resetTail s).pipe = { s.pipe with o := o } := by
  obtain ⟨n, p, h⟩ := resetTail_form s
  rw [h]; simp only; rw [(resetEvents_keeps s).pipe]; simp only; rw [(restart_acts s).pipe]; exact ⟨_, rfl⟩

theorem resetTail_power (s : State) (h : powerLaw s.pp) : powerLaw (resetTail s).pp := by
  obtain ⟨n, p, e⟩ := resetTail_form s
  rw [e]; exact (resetEvents_keeps s).power ((restart_acts s).power h)

theorem resetTail_attn (s : State) (h : attnLaw s.attn) : attnLaw (resetTail s).attn := by
  obtain ⟨n, p, e⟩ := resetTail_form s
  rw [e]; exact (resetEvents_keeps s).attn ((restart_acts s).attn h)

theorem resetTail_cache (s : State) (h : cacheLaw s.cache) : cacheLaw (resetTail s).cache := by
  obtain ⟨n, p, e⟩ := resetTail_form s
  rw [e]; exact (resetEvents_keeps s).cache ((restart_acts s).cache h)

theorem resetTail_output (s : State) (hm : minLevel s ≤ 1000) (h : outputLaw s) : outputLaw (resetTail s) := by
  obtain ⟨n, p, e⟩ := resetTail_form s
  have e1 : minLevel ({ restartProbe .B (restartProbe .A s) with flags := flagsClear } : State) = minLevel s :=
    minLevel_congr (restart_acts s).tables
  have := (resetEvents_keeps s).output (by rw [e1]; exact hm) ((restart_acts s).output hm h)
  rw [e]; exact this

theorem resetTail_count (s : State) (h : countLaw s) : countLaw (resetTail s) := by
  obtain ⟨n, p, e⟩ := resetTail_form s
  have := (resetEvents_keeps s).count ((restart_acts s).count h)
  rw [e]; exact this

/-- R162: the monitor is ARMED with its window closed after the reset, the bays in JOLT aside. -/
theorem resetTail_motion (s : State) (h : motionLaw s.motion) (hd : s.motion.detector = .armed) :
    motionLaw (resetTail s).motion ∧ (resetTail s).motion.detector = .armed ∧ (resetTail s).motion.window = .closed := by
  obtain ⟨n, p, e⟩ := resetTail_form s
  rw [e]; simp only
  have b := (Acts.flagsFollow (restartProbe .B (restartProbe .A s))).motion
  simp only at b
  rw [(restart_acts s).motion] at b
  unfold resetEvents
  generalize flagsReset (restartProbe .B (restartProbe .A s)) = u at b ⊢
  have hu : motionLaw u.motion := by rw [b]; exact h
  have hd' : u.motion.detector = .armed := by rw [b]; exact hd
  unfold windowReset
  split
  · have c := (Acts.refl ({ u with motion := { u.motion with window := .closed, hold := none } } : State)).windowCloseEvent.motion
    refine ⟨motionLaw_closeWindow u hu hd', ?_, ?_⟩
    · unfold closeWindow; rw [c]; exact hd'
    · unfold closeWindow; rw [c]
  · next hw => exact ⟨hu, hd', by simpa [windowOpen] using hw⟩

/-! ### The base -/

/-- The state that the recomputation of the reset (R119) starts from. -/
def beforeRecompute (s : State) : State := pipeReset (cacheReset (tablesReset (relayReset (emptyAttn s))))

theorem resetBase_recompute (s : State) : resetBase s = motionReset (recompute (beforeRecompute s)) := rfl

/-- A field that neither the relay's rings nor the map instance touch. -/
theorem beforeRecompute_field {α : Type} (f : State → α) (s : State) (v : α)
    (h : ∀ (r r' : List Code × Nat × Bool) (n : Nat), f (pipeReset (cacheReset { (relayReset (emptyAttn s)) with
      relays := ⟨{ resetRelay s.relays.a with ring := r.1, ptr := r.2.1, pollDue := r.2.2 },
                 { resetRelay s.relays.b with ring := r'.1, ptr := r'.2.1, pollDue := r'.2.2 }⟩,
      mapInst := n,
      tables := ⟨resetRegion s.tables.config, resetRegion s.tables.codemap, resetRegion s.tables.curve,
        resetRegion s.tables.motion⟩ })) = v) : f (beforeRecompute s) = v := by
  unfold beforeRecompute tablesReset
  simp only
  split
  · exact h (ringOf (mapInService _), 0, false) (ringOf (mapInService _), 0, false) _
  · exact h (s.relays.a.ring, 0, false) (s.relays.b.ring, 0, false) _

theorem beforeRecompute_tables (s : State) : (beforeRecompute s).tables =
    ⟨resetRegion s.tables.config, resetRegion s.tables.codemap, resetRegion s.tables.curve, resetRegion s.tables.motion⟩ :=
  beforeRecompute_field State.tables s _ fun _ _ _ => rfl

theorem resetBase_tables (s : State) : (resetBase s).tables =
    ⟨resetRegion s.tables.config, resetRegion s.tables.codemap, resetRegion s.tables.curve, resetRegion s.tables.motion⟩ := by
  rw [resetBase_recompute]
  exact (Acts.refl (beforeRecompute s)).recompute.tables.trans (beforeRecompute_tables s)

theorem resetBase_log (s : State) : (resetBase s).log = s.log :=
  (Acts.refl (beforeRecompute s)).recompute.log.trans (beforeRecompute_field State.log s _ fun _ _ _ => rfl)

theorem resetBase_flags (s : State) : (resetBase s).flags = s.flags :=
  (Acts.refl (beforeRecompute s)).recompute.flags.trans (beforeRecompute_field State.flags s _ fun _ _ _ => rfl)

theorem resetBase_time (s : State) : (resetBase s).time = s.time :=
  (Acts.refl (beforeRecompute s)).recompute.time.trans (beforeRecompute_field State.time s _ fun _ _ _ => rfl)

theorem resetBase_lane (s : State) : (resetBase s).lane = s.lane :=
  (Acts.refl (beforeRecompute s)).recompute.lane.trans (beforeRecompute_field State.lane s _ fun _ _ _ => rfl)

theorem resetBase_pending (s : State) : (resetBase s).pending = s.pending :=
  (Acts.refl (beforeRecompute s)).recompute.pending.trans (beforeRecompute_field State.pending s _ fun _ _ _ => rfl)

theorem resetBase_pp (s : State) : (resetBase s).pp = s.pp := by
  rw [resetBase_recompute, recompute_eq]
  exact beforeRecompute_field State.pp s _ fun _ _ _ => rfl

theorem resetBase_bays (s : State) : (resetBase s).bays = s.bays := by
  rw [resetBase_recompute, recompute_eq]
  exact beforeRecompute_field State.bays s _ fun _ _ _ => rfl

theorem resetBase_cache (s : State) : (resetBase s).cache = List.replicate 16 CacheSet.reset := by
  rw [resetBase_recompute, recompute_eq]
  exact beforeRecompute_field State.cache s _ fun _ _ _ => rfl

theorem resetBase_motion (s : State) : (resetBase s).motion = { disarmMotion s.motion with jolted := ⟨false, false⟩ } := by
  rw [resetBase_recompute, recompute_eq]
  unfold motionReset
  simp only
  rw [beforeRecompute_field State.motion s s.motion fun _ _ _ => rfl]

theorem resetBase_output (s : State) (hm : minLevel (resetBase s) ≤ 1000) : outputLaw (resetBase s) := by
  have e : minLevel (resetBase s) = minLevel (beforeRecompute s) :=
    minLevel_congr (Acts.refl (beforeRecompute s)).recompute.tables
  rw [e] at hm
  have hh : (beforeRecompute s).pipe.hostMax = 1000 := beforeRecompute_field (fun s => s.pipe.hostMax) s _ fun _ _ _ => rfl
  exact outputLaw_recompute (beforeRecompute s) hm (by rw [hh]; exact hm)

theorem resetBase_count (s : State) : countLaw (resetBase s) := by
  have e : (resetBase s).relays.a.failCount = 0 ∧ (resetBase s).relays.b.failCount = 0 := by
    rw [resetBase_recompute, recompute_eq]
    exact beforeRecompute_field (fun s => s.relays.a.failCount = 0 ∧ s.relays.b.failCount = 0) s True
      (fun _ _ _ => eq_true ⟨rfl, rfl⟩) ▸ trivial
  exact ⟨by rw [e.1]; exact Nat.zero_le _, by rw [e.2]; exact Nat.zero_le _⟩

theorem attnLaw_empty : attnLaw { queue := [], req := false } := ⟨by simp, by simp, rfl⟩

theorem resetBase_attn (s : State) : attnLaw (resetBase s).attn := by
  refine (Acts.refl (beforeRecompute s)).recompute.attn ?_
  rw [beforeRecompute_field State.attn s { queue := [], req := false } fun _ _ _ => rfl]
  exact attnLaw_empty

end Sys2Proof.Machine
end

