-- ==== Sys2Proof/Laws/RowKeeps.lean ====
section
/-! SUPPORT. One lemma for every row: a property that actions keep is kept by a row when it is kept by the few changes that the row makes
besides actions. -/

namespace Sys2Proof.Machine

/-- What a property has to survive, beside actions, so that the row `i` keeps it. -/
structure RowKeeps (i : Instr) (P : State → Prop) : Prop where
  acts : ∀ s t, Acts s t → P s → P t
  lines : ∀ s t, ((∃ x v, i = .presenceLineChange x v) ∨ (∃ x, i = .presenceDebounceExpiry x) ∨ (∃ x v, i = .latchLineChange x v)
    ∨ ∃ x, i = .latchDebounceExpiry x) → Turns s t → P s → P t
  slot : ∀ s v, P s → P (setSlot v s)
  por : ∀ l s, i = .powerOnReset l → P s → P (powerOn l s)
  ext : ∀ v s, i = .extPresentChange v → P s → P (setExt v s)
  ready : ∀ v s, i = .bridgeReadyChange v → P s → P { s with pp := { s.pp with bridgeReady := v } }
  uptime : ∀ s, i = .uptimeTick → P s → P { s with time := { s.time with uptime := nextUptime s.time.uptime } }
  poll : ∀ s, i = .pollPeriodExpiry → P s → P { s with pollTimer := pollPeriod s }
  lane : ∀ s, P s → P (laneIdle s)
  light : ∀ b0 b1 b2 l o s, i = .lightSample b0 b1 b2 → P s → P (takeLight l o s)
  sample : ∀ x0 x1 y0 y1 z0 z1 p s, i = .motionSample x0 x1 y0 y1 z0 z1 → P s → P (takeSample p s)
  stall : ∀ s, i = .stallTimeout → P s → P (stallOut s)
  hold : ∀ s, i = .windowHoldExpiry → P s → P (holdOut s)
  check : ∀ r s, i = .tableCheckEnd r → P s → P (endCheck r s)
  seen : ∀ p s, i = .identify p → P s → P { s with port := { s.port with resetSeen := false } }
  sense : ∀ p s e rest, i = .senseAttention p → s.attn.queue = e :: rest → P s →
    P { s with attn := { queue := rest, req := !rest.isEmpty } }
  flag : ∀ p s n v, (i = .flagSet p ∨ i = .flagClear p ∨ i = .flagToggle p) → P s → P { s with flags := flagPut s.flags n v }
  reset : ∀ p s, i = .resetPart p → P s → P (softReset s)
  bright : ∀ p s m l h, i = .brightnessSet p → P s → P (setBrightness m l h s)
  sticky : ∀ p s, i = .brightnessQuery p → P s → P { s with pipe := { s.pipe with clampedLux := false, ceilingLimited := false } }
  logClear : ∀ p s, i = .dropLogClear p → P s → P { s with log := { s.log with records := [] } }
  clear : ∀ p r s, i = .tableClear p → P s → P (tableClear r s).1
  write : ∀ p r off ws s, i = .tableWrite p → P s → P (tableWrite r off ws s).1
  begin : ∀ p r s, i = .tableCheck p → P s → P (tableCheck r s).1
  lock : ∀ p r s, i = .tableLock p → P s → P (tableLock r s).1
  last : ∀ s t j, completed i s = some j → runCommand j s = .next t → P s → P t

variable {i : Instr} {P : State → Prop}

theorem RowKeeps.manage (k : RowKeeps i P) {body : State → State × Frame} (hb : ∀ s, P s → P (body s).1) {s : State} (h : P s) :
    P (manage body s) :=
  manage_keeps (fun s v h => k.slot s v h) (fun s a h => k.acts _ _ ((Acts.refl s).endUpstream a) h)
    (fun s a h => k.acts _ _ ((Acts.refl s).setAnswer a) h) hb h

theorem RowKeeps.query (k : RowKeeps i P) (f : State → List Byte) (p : List Byte) {s : State} (h : P s) :
    P (Machine.manage (noParams p (query f)) s) := k.manage (fun _ h => noParams_keeps (fun _ h => h) p h) h

theorem RowKeeps.bay (k : RowKeeps i P) {f : BayId → State → State × Frame} (hf : ∀ x s, Acts s (f x s).1) (p : List Byte) {s : State}
    (h : P s) : P (Machine.manage (withBay p f) s) :=
  k.manage (fun _ h => withBay_keeps (fun x s h => k.acts _ _ (hf x s) h) p h) h

theorem RowKeeps.flagCommand (k : RowKeeps i P) (p : List Byte) (f : Bool → Bool)
    (hf : ∀ s n v, P s → P { s with flags := flagPut s.flags n v }) (s : State) (h : P s) : P (flagCommand p f s).1 := by
  unfold Machine.flagCommand
  split
  · split
    · exact k.acts { s with flags := _ } _ ((Acts.refl _).handFlag _ _ _) (hf _ _ _ h)
    · exact h
  · exact h

theorem flagPut_get (f : Flags) (n : Nat) (v : Bool) (h : flagGet f n = some v) : flagPut f n v = f := by
  obtain ⟨a, b, c, d, e, g, i, j⟩ := f
  unfold flagGet at h
  unfold flagPut
  split at h <;> first | (injection h with h; subst h; rfl) | cases h

theorem handFlag_same (n : Nat) (v : Bool) (s : State) : handFlag n v v s = s := by
  unfold handFlag; cases v <;> rfl

/-- R202: Flag Test changes nothing. -/
theorem flagTest_state (p : List Byte) (s : State) : (flagCommand p id s).1 = s := by
  unfold flagCommand
  split
  · split
    · next hq => simp only [id]; rw [handFlag_same, flagPut_get _ _ _ hq]
    · rfl
  · rfl

/-- R183: a byte row has the command that its byte completes executed, or leaves the state `t`. -/
theorem acceptOr_cases {b : Byte} {t s r : State} (e : acceptOr b t s = .next r) :
    r = t ∨ ∃ j, completedBy b s.upstream = some j ∧ runCommand j s = .next r := by
  unfold acceptOr at e
  split at e
  · next j hj => exact Or.inr ⟨j, hj, e⟩
  · injection e with e; exact Or.inl e.symm

/-- R183, R184: the command that a byte completes is executed as its own row is. -/
theorem runCommand_eq_exec {c : BitVec 7} {p : List Byte} {j : Instr} (h : commandRow c p = some j) (s : State) :
    runCommand j s = Machine.exec j s := by
  unfold commandRow at h
  split at h <;> first | (injection h with h; subst h; rfl) | cases h

/-- A byte row that completes a command is that command's row. -/
theorem exec_completed {s : State} {j : Instr} (h : completed i s = some j) : Machine.exec i s = Machine.exec j s := by
  have key : ∀ b, completedBy b s.upstream = some j → ∀ t, acceptOr b t s = Machine.exec j s := by
    intro b hb t
    have : ∃ c p, commandRow c p = some j := by
      unfold completedBy at hb
      split at hb
      · split at hb
        · exact ⟨_, _, hb⟩
        · cases hb
      · exact ⟨_, _, hb⟩
      · cases hb
    obtain ⟨c, p, hc⟩ := this
    unfold acceptOr
    rw [hb]
    exact runCommand_eq_exec hc s
  unfold completed at h
  split at h
  · exact key _ h _
  · exact key _ h _
  · cases h

/-- A row keeps what its changes keep. -/
theorem RowKeeps.exec (k : RowKeeps i P) {s t : State} (h : P s) (e : exec i s = .next t) : P t := by
  have hA : ∀ {s t}, Acts s t → P s → P t := fun a h => k.acts _ _ a h
  cases i
  case permitCheck d =>
    cases d with
    | writeByte b =>
      rcases acceptOr_cases e with e | ⟨j, hj, e⟩
      · exact e ▸ hA ((Acts.refl _).takeDirection _) h
      · exact k.last s t j hj e h
    | readAddress a => injection e with e; exact e ▸ hA ((Acts.refl _).takeDirection _) h
  case writeBlockLengthRefuse b =>
    rcases acceptOr_cases e with e | ⟨j, hj, e⟩
    · exact e ▸ hA ((Acts.refl _).takeLength b) h
    · exact k.last s t j hj e h
  all_goals (injection e with e; subst e)
  case powerOnReset l => exact k.por l s rfl h
  case extPresentChange v =>
    refine hA ((Acts.refl (extLine v s)).settle _) ?_
    unfold extLine
    split
    · exact h
    · have := hA (Acts.extFollows s v) (k.ext v s rfl h)
      cases v <;> exact this
  case presenceLineChange x v => exact k.lines _ _ (Or.inl ⟨x, v, rfl⟩) (Turns.settling ((Turns.refl _).presenceLine x v)) h
  case presenceDebounceExpiry x => exact k.lines _ _ (Or.inr (Or.inl ⟨x, rfl⟩)) (Turns.settling ((Turns.refl _).presenceExpiry x)) h
  case latchLineChange x v => exact k.lines _ _ (Or.inr (Or.inr (Or.inl ⟨x, v, rfl⟩))) ((Turns.refl _).latchLine x v) h
  case latchDebounceExpiry x => exact k.lines _ _ (Or.inr (Or.inr (Or.inr ⟨x, rfl⟩))) (Turns.settling ((Turns.refl _).latchExpiry x)) h
  case bridgeReadyChange v => exact k.ready v s rfl h
  case bridgeExpiry => exact hA (Acts.refl _).expireBridge h
  case joltHoldExpiry x => exact hA (Acts.settling ((Acts.refl _).joltHoldOut x)) h
  case contextWindowExpiry x => exact hA ((Acts.refl _).contextOut x) h
  case uptimeTick => exact k.uptime s rfl h
  case ageTick => exact hA (Acts.refl _).age h
  case pollPeriodExpiry => exact hA (((Acts.refl _).makeDue .A).makeDue .B) (k.poll s rfl h)
  case pollStart x => exact hA ((Acts.refl _).startPoll x) h
  case pollRetry x => exact hA ((Acts.refl _).retryPoll x) h
  case probeReadStart x => exact hA ((Acts.refl _).startProbeRead x) h
  case slotTransactionStart x => exact hA ((Acts.refl _).startSlot x) h
  case packTransactionEnd x r => exact hA (Acts.settling ((Acts.refl _).completeTx x r)) h
  case linkTimeout x => exact hA (Acts.settling ((Acts.refl _).timeoutTx x)) h
  case linkRecoverBegin x => exact hA ((Acts.refl _).beginRecover x) h
  case linkRecoverEnd x r => exact hA (Acts.settling ((Acts.refl _).endRecover x r)) h
  case lightSample => exact k.light _ _ _ _ _ _ rfl (k.lane _ h)
  case motionSample => exact k.sample _ _ _ _ _ _ _ _ rfl (k.lane _ h)
  case frameDiscard => exact k.lane _ h
  case laneGapDiscard => exact k.lane _ h
  case stallTimeout => exact k.stall _ rfl h
  case windowHoldExpiry => exact k.hold _ rfl h
  case tableCheckEnd r => exact k.check _ _ rfl h
  case platformAddress a r => exact hA ((Acts.refl _).takeAddress a r) h
  case codeByteCheck b => exact hA ((Acts.refl _).takeCodeByte b) h
  case transactionAbandon => exact hA (Acts.refl _).abandonUp h
  case readValue n => exact hA ((Acts.refl _).reachForwarding _ _ _) h
  case writeValue a b => exact hA ((Acts.refl _).reachForwarding _ _ _) h
  case readBlock n => exact hA ((Acts.refl _).reachForwarding _ _ _) h
  case writeBlock n => exact hA ((Acts.refl _).forwardBlock _) h
  case resultRead n =>
    have hu : ∀ a, P (endUpstream a s) := fun a => hA ((Acts.refl s).endUpstream a) h
    unfold readResult
    split
    · exact hA ((Acts.refl s).setAnswer _) h
    · split
      · simp only; split
        · exact k.slot _ _ (hu _)
        · exact hu _
      · exact hu _
      · exact hu _
  case invalidCommand => exact k.manage (fun _ h => h) h
  case identify p => exact k.manage (fun _ h => noParams_keeps (fun s h => k.seen p s rfl h) p h) h
  case senseAttention p =>
    refine k.manage (fun _ h => noParams_keeps (fun s h => ?_) p h) h
    unfold senseHead
    split
    · exact h
    · next hq => exact k.sense p s _ _ rfl hq h
  case flagTest p => exact k.manage (fun _ h => by rw [flagTest_state]; exact h) h
  case flagSet p => exact k.manage (k.flagCommand p _ fun _ _ _ h => k.flag p _ _ _ (Or.inl rfl) h) h
  case flagClear p => exact k.manage (k.flagCommand p _ fun _ _ _ h => k.flag p _ _ _ (Or.inr (Or.inl rfl)) h) h
  case flagToggle p => exact k.manage (k.flagCommand p _ fun _ _ _ h => k.flag p _ _ _ (Or.inr (Or.inr rfl)) h) h
  case resetPart p =>
    have hu : ∀ a, P (endUpstream a s) := fun a => hA ((Acts.refl s).endUpstream a) h
    unfold Machine.resetPart
    split
    · exact hA ((Acts.refl s).setAnswer _) h
    · split
      · split
        · exact k.reset p _ rfl (k.slot _ _ (hu _))
        · exact k.slot _ _ (k.slot _ _ (hu _))
      · exact hu _
  case powerQuery p => exact k.query _ p h
  case bayQuery p => exact k.bay (fun _ s => Acts.refl s) p h
  case bayRelease p => exact k.bay (fun x s => (Acts.refl s).bayRelease x) p h
  case bayReturn p => exact k.bay (fun x s => (Acts.refl s).bayReturn x) p h
  case bayProbe p => exact k.bay (fun x s => (Acts.refl s).bayProbe x) p h
  case linkRecover p => exact k.bay (fun x s => (Acts.refl s).linkRecover x) p h
  case cacheFlush p => exact k.manage (fun s h => hA ((Acts.refl s).cacheFlush p) h) h
  case cacheInspect p =>
    refine k.manage (fun s h => ?_) h
    unfold Machine.cacheInspect
    split
    · split
      · split <;> exact h
      · exact h
    · exact h
  case budgetQuery p => exact k.query _ p h
  case brightnessSet p =>
    refine k.manage (fun s h => ?_) h
    unfold Machine.brightnessSet
    split
    · split
      · exact k.bright _ s _ _ _ rfl h
      · exact h
    · exact h
  case brightnessQuery p => exact k.manage (fun _ h => noParams_keeps (fun s h => k.sticky p s rfl h) p h) h
  case dropStateQuery p => exact k.query _ p h
  case dropLogRead p =>
    refine k.manage (fun s h => ?_) h
    unfold Machine.dropLogRead
    split
    · split
      · exact h
      · split <;> exact h
    · exact h
  case dropLogClear p => exact k.manage (fun _ h => noParams_keeps (fun s h => k.logClear p s rfl h) p h) h
  case tableClear p => exact k.manage (fun _ h => withRegion_keeps (fun r s h => k.clear p r s rfl h) p h) h
  case tableWrite p =>
    refine k.manage (fun s h => ?_) h
    unfold Machine.tableWriteParams
    split
    · split
      · split
        · exact k.write _ _ _ _ s rfl h
        · exact h
      · exact h
    · exact h
  case tableCheck p => exact k.manage (fun _ h => withRegion_keeps (fun r s h => k.begin p r s rfl h) p h) h
  case tableRead p =>
    refine k.manage (fun s h => ?_) h
    unfold Machine.tableReadParams
    split
    · split
      · unfold Machine.tableRead; split <;> exact h
      · exact h
    · exact h
  case tableLock p => exact k.manage (fun _ h => withRegion_keeps (fun r s h => k.lock p r s rfl h) p h) h

end Sys2Proof.Machine
end

