-- ==== Sys2Proof/Laws/Fresh.lean ====
section
/-! SUPPORT. No operation leaves a FRESH line of a bay in EMPTY, SEATING, PROBING, JOLT or FAULTED (R85): one lemma for each operation, of the form
that `Acts` has. -/

namespace Sys2Proof.Machine

/-- The line is no FRESH line of bay `x`. -/
def noFreshLine (x : BayId) (l : Line) : Prop := ¬ (l.valid = true ∧ l.bay = x ∧ l.state = .fresh)
/-- No way of the set holds one. -/
def noFreshWays (x : BayId) (cs : CacheSet) : Prop := noFreshLine x cs.l0 ∧ noFreshLine x cs.l1 ∧ noFreshLine x cs.l2 ∧ noFreshLine x cs.l3
/-- No set of the cache holds one. -/
def noFreshIn (c : List CacheSet) (x : BayId) : Prop := ∀ cs ∈ c, noFreshWays x cs
/-- R85, second half, way by way: the same law as `freshLaw`. -/
def freshParts (s : State) : Prop := ∀ x, steady (s.bays.get x).state = false → noFreshIn s.cache x

theorem noFreshSet_iff (x : BayId) (cs : CacheSet) : noFreshSet x cs ↔ noFreshWays x cs :=
  ⟨fun h => ⟨h .w0, h .w1, h .w2, h .w3⟩, fun h w => by cases w <;> [exact h.1; exact h.2.1; exact h.2.2.1; exact h.2.2.2]⟩

theorem freshLaw_iff (s : State) : freshLaw s ↔ freshParts s :=
  ⟨fun h x hx cs hc => (noFreshSet_iff x cs).1 (h x hx cs hc), fun h x hx cs hc => (noFreshSet_iff x cs).2 (h x hx cs hc)⟩

/-- The law, as a fact that operations hand on. -/
structure FreshKept (s : State) : Prop where
  law : freshParts s

variable {s : State}

theorem FreshKept.congr (h : FreshKept s) {t : State} (hb : ∀ x, (t.bays.get x).state = (s.bays.get x).state) (hc : t.cache = s.cache) : FreshKept t :=
  ⟨fun x hx => by rw [hc]; exact h.law x (by rw [← hb x]; exact hx)⟩

/-- The law for every bay but `x`. -/
def FreshBut (x : BayId) (s : State) : Prop := ∀ y, y ≠ x → steady (s.bays.get y).state = false → noFreshIn s.cache y

theorem FreshKept.toX (h : FreshKept s) (x) : FreshBut x s := fun y _ hy => h.law y hy

theorem FreshBut.congr {x} (h : FreshBut x s) {t : State} (hb : ∀ y, y ≠ x → (t.bays.get y).state = (s.bays.get y).state) (hc : t.cache = s.cache) : FreshBut x t :=
  fun y hy hx => by rw [hc]; exact h y hy (by rw [← hb y hy]; exact hx)

theorem FreshBut.done {x} (h : FreshBut x s) (hx : steady (s.bays.get x).state = false → noFreshIn s.cache x) : FreshKept s :=
  ⟨fun y hy => by by_cases e : y = x; · subst e; exact hx hy
                  · exact h y e hy⟩

theorem recompute_bays (s : State) : (recompute s).bays = s.bays := by rw [recompute_eq]
theorem recompute_cache (s : State) : (recompute s).cache = s.cache := by rw [recompute_eq]

theorem FreshKept.updBay (h : FreshKept s) (x : BayId) (f : Bay → Bay) (hf : ∀ b, (f b).state = b.state := by intro b; rfl) : FreshKept (updBay x f s) :=
  h.congr (fun y => by cases x <;> cases y <;> first | rfl | exact hf _) rfl
theorem FreshKept.upstream (h : FreshKept s) (u : Upstream) : FreshKept { s with upstream := u } := ⟨h.law⟩
theorem FreshKept.setAnswer (h : FreshKept s) (a : Answer) : FreshKept (setAnswer a s) := ⟨h.law⟩
theorem FreshKept.endUpstream (h : FreshKept s) (a : Answer) : FreshKept (endUpstream a s) := ⟨h.law⟩
theorem FreshKept.post (h : FreshKept s) (k : AttnKey) (d : Detail) : FreshKept (post k d s) := ⟨h.law⟩
theorem FreshKept.jolted (h : FreshKept s) (j : Pair Bool) : FreshKept { s with motion := { s.motion with jolted := j } } := ⟨h.law⟩
theorem FreshKept.updRelay (h : FreshKept s) (x : BayId) (f : Relay → Relay) (_ : True := trivial) : FreshKept (updRelay x f s) := ⟨h.law⟩
theorem FreshKept.recompute (h : FreshKept s) : FreshKept (recompute s) := h.congr (fun _ => by rw [recompute_bays]) (recompute_cache s)
theorem FreshKept.setPower (h : FreshKept s) (p : PowerPath) : FreshKept { s with pp := p } := ⟨h.law⟩

theorem get_map (f : Line → Line) (x) (hf : ∀ l, noFreshLine x l → noFreshLine x (f l)) (cs : CacheSet) (h : noFreshWays x cs) : noFreshWays x (cs.mapLines f) :=
  ⟨hf _ h.1, hf _ h.2.1, hf _ h.2.2.1, hf _ h.2.2.2⟩

theorem noFresh_map (f : Line → Line) (x) (hf : ∀ l, noFreshLine x l → noFreshLine x (f l)) (c : List CacheSet) (h : noFreshIn c x) : noFreshIn (c.map (CacheSet.mapLines f)) x := by
  intro cs hcs
  obtain ⟨k, hk, rfl⟩ := List.mem_map.1 hcs
  exact get_map f x hf k (h k hk)

theorem noFresh_kill (f : Line → Line) (x) (hf : ∀ l, noFreshLine x (f l)) (c : List CacheSet) : noFreshIn (c.map (CacheSet.mapLines f)) x := by
  intro cs hcs
  obtain ⟨k, hk, rfl⟩ := List.mem_map.1 hcs
  exact ⟨hf _, hf _, hf _, hf _⟩

theorem FreshKept.mapCache (h : FreshKept s) (f : Line → Line) (hf : ∀ l x, noFreshLine x l → noFreshLine x (f l)) : FreshKept (mapCache f s) :=
  ⟨fun x hx => noFresh_map f x (fun l => hf l x) _ (h.law x hx)⟩

theorem FreshBut.mapCache {x} (h : FreshBut x s) (f : Line → Line) (hf : ∀ l y, y ≠ x → noFreshLine y l → noFreshLine y (f l)) : FreshBut x (mapCache f s) :=
  fun y hy hx => noFresh_map f y (fun l => hf l y hy) _ (h y hy hx)

theorem nf_invalid (x) : noFreshLine x Line.invalid := fun h => by cases h.1
theorem nf_distrust (l : Line) (x) : noFreshLine x l.distrust := by
  unfold Line.distrust noFreshLine; split
  · rintro ⟨_, _, h⟩; cases h
  · next h => rintro ⟨a, _, b⟩; exact h ⟨a, b⟩

theorem mem_set {c : List CacheSet} {i k v} (h : k ∈ c.set i v) : k ∈ c ∨ k = v := (List.mem_or_eq_of_mem_set h)

theorem cs_get {m : List CacheSet} {x} (h : noFreshIn m x) (i) : noFreshWays x (cacheSet m i) := by
  unfold cacheSet
  cases e : m[i]? with
  | none => exact ⟨nf_invalid x, nf_invalid x, nf_invalid x, nf_invalid x⟩
  | some k => exact h k (List.mem_of_getElem? e)

theorem FreshKept.setCache1 (h : FreshKept s) (i : Nat) (v : CacheSet) (hv : ∀ x, steady (s.bays.get x).state = false → noFreshWays x v) : FreshKept { s with cache := s.cache.set i v } :=
  ⟨fun x hx k hk => by rcases mem_set hk with hk | rfl; · exact h.law x hx k hk
                       · exact hv x hx⟩

theorem put_nf {x} {cs : CacheSet} (h : noFreshWays x cs) (w : Way) (l) (hl : noFreshLine x l) : noFreshWays x (cs.put w l) := by
  cases w
  · exact ⟨hl, h.2.1, h.2.2.1, h.2.2.2⟩
  · exact ⟨h.1, hl, h.2.2.1, h.2.2.2⟩
  · exact ⟨h.1, h.2.1, hl, h.2.2.2⟩
  · exact ⟨h.1, h.2.1, h.2.2.1, hl⟩
theorem touch_nf {x} {cs : CacheSet} (h : noFreshWays x cs) (w : Way) : noFreshWays x (cs.touch w) := by cases w <;> exact h
theorem get_nf {x} {cs : CacheSet} (h : noFreshWays x cs) (w : Way) : noFreshLine x (cs.get w) := by
  cases w
  · exact h.1
  · exact h.2.1
  · exact h.2.2.1
  · exact h.2.2.2

theorem FreshKept.setHeld (h : FreshKept s) (x : BayId) (v : Bool) : FreshKept (setHeld x v s) := ⟨h.law⟩
theorem FreshKept.setSwitch (h : FreshKept s) (x : BayId) (v : Switch) : FreshKept (setSwitch x v s) := (h.setPower _).recompute
theorem FreshKept.releaseHeldOne (h : FreshKept s) (x : BayId) : FreshKept (releaseHeldOne x s) := by
  unfold Machine.releaseHeldOne; split
  · exact h.setSwitch x .off
  · exact h
theorem FreshKept.releaseHeld (h : FreshKept s) : FreshKept (releaseHeld s) := (h.releaseHeldOne .A).releaseHeldOne .B
theorem FreshKept.endBridge (h : FreshKept s) : FreshKept (endBridge s) := by
  unfold Machine.endBridge; split
  · exact h
  · exact (h.setPower _).recompute
theorem FreshKept.switchOn (h : FreshKept s) (x : BayId) : FreshKept (switchOn x s) := by
  unfold Machine.switchOn; split
  · exact h.setHeld x false
  · split
    · exact (h.setSwitch x .on).endBridge.releaseHeld
    · exact h.setSwitch x .on
theorem FreshKept.switchOff (h : FreshKept s) (x : BayId) : FreshKept (switchOff x s) := by
  unfold Machine.switchOff; split
  · exact h.setHeld x false
  · split
    · exact h.setSwitch x .off
    · exact h.setHeld x true
theorem FreshKept.startBridge (h : FreshKept s) (why : BridgeReason) : FreshKept (startBridge why s) := by
  unfold Machine.startBridge; split
  · exact ((FreshKept.post (h.setPower _) .bridgeOn (dBridge why)).recompute).releaseHeld
  · exact h

theorem other_or (x y : BayId) : y = x ∨ y = x.other := by cases x <;> cases y <;> simp [BayId.other]

theorem FreshKept.cacheFill (h : FreshKept s) (x : BayId) (c : Code) (g : Governing) (v : Half) : FreshKept (cacheFill x c g v s) := by
  unfold Machine.cacheFill; split
  · next hc =>
    refine h.setCache1 _ _ fun y hy => ?_
    have hne : y ≠ x := by rintro rfl; rw [hc.2.2] at hy; cases hy
    unfold CacheSet.fill
    refine touch_nf (put_nf (cs_get (h.law y hy) _) _ _ ?_) _
    rintro ⟨_, e, _⟩; exact hne e.symm
  · exact h
theorem FreshKept.touchSet (h : FreshKept s) (c : Code) (w : Way) : FreshKept (Machine.updSet (setOf c) (fun cs => cs.touch w) s) :=
  h.setCache1 _ _ fun y hy => touch_nf (cs_get (h.law y hy) _) w
theorem find_holds {cs : CacheSet} {x c w} (h : cs.find x c = some w) : (cs.get w).bay = x := by
  have := (holds_iff _ _ _).1 (find_some h); exact this.2.1
theorem FreshKept.cacheWrite (h : FreshKept s) (x : BayId) (c : Code) (g : Governing) (v : Half) : FreshKept (cacheWrite x c g v s) := by
  unfold Machine.cacheWrite; split
  · split
    · exact h
    · next w hw =>
      refine h.setCache1 _ _ fun y hy => put_nf (cs_get (h.law y hy) _) _ _ ?_
      have hg := get_nf (cs_get (h.law y hy) (setOf c)) w
      unfold writeLine
      split
      · next hst =>
        have hne : y ≠ x := by rintro rfl; rw [hst] at hy; cases hy
        have hb := find_holds hw
        split
        · exact hg
        · rintro ⟨_, e, _⟩; exact hne (e.symm.trans hb)
        · rintro ⟨_, e, _⟩; exact hne (e.symm.trans hb)
      · exact nf_invalid y
  · exact h
theorem FreshKept.cacheFailedWrite (h : FreshKept s) (x : BayId) (c : Code) : FreshKept (cacheFailedWrite x c s) := by
  unfold Machine.cacheFailedWrite; split
  · exact h
  · exact h.setCache1 _ _ fun y hy => put_nf (cs_get (h.law y hy) _) _ _ (nf_distrust _ _)
theorem FreshKept.cacheDistrust (h : FreshKept s) (x : BayId) : FreshKept (cacheDistrust x s) :=
  h.mapCache _ fun l y hl => by split <;> [exact nf_distrust _ _; exact hl]
theorem FreshBut.cacheDistrust {x} (h : FreshBut x s) : FreshKept (cacheDistrust x s) := by
  refine FreshBut.done (x := x) ?_ fun _ => ?_
  · exact h.mapCache _ fun l y _ hl => by split <;> [exact nf_distrust _ _; exact hl]
  · exact noFresh_kill _ x (fun l => by
      split
      · exact nf_distrust _ _
      · next e => rintro ⟨_, e', _⟩; exact e e') _
theorem FreshKept.cacheImpact (h : FreshKept s) : FreshKept (cacheImpact s) := h.mapCache _ fun _ _ _ => nf_distrust _ _
theorem park_nf (v l y) : noFreshLine y (parkLine v l) := by
  unfold parkLine; split
  · split
    · rintro ⟨_, _, e⟩; cases e
    · exact nf_invalid y
  · exact nf_invalid y
  · next e => rintro ⟨_, _, e'⟩; rw [e] at e'; cases e'
theorem FreshKept.cacheEmpty (h : FreshKept s) (x : BayId) : FreshKept (cacheEmpty x s) :=
  h.mapCache _ fun l y hl => by split <;> [exact park_nf _ _ _; exact hl]
theorem cacheEmpty_nf (x : BayId) (s : State) : noFreshIn (cacheEmpty x s).cache x :=
  noFresh_kill _ x (fun l => by
      split
      · exact park_nf _ _ _
      · next e => rintro ⟨a, b, _⟩; exact e ⟨a, b⟩) _
theorem FreshBut.cacheRestore {x} (h : FreshBut x s) : FreshBut x (cacheRestore x s) :=
  h.mapCache _ fun l y hy hl => by
    split
    · next e => rintro ⟨_, b, _⟩; exact hy (b.symm.trans e.2.1)
    · exact hl
theorem FreshKept.cacheDropParked (h : FreshKept s) (x : BayId) : FreshKept (cacheDropParked x s) :=
  h.mapCache _ fun l y hl => by split <;> [exact nf_invalid y; exact hl]
theorem FreshKept.cacheDropBay (h : FreshKept s) (x : BayId) : FreshKept (cacheDropBay x s) :=
  h.mapCache _ fun l y hl => by split <;> [exact nf_invalid y; exact hl]
theorem FreshKept.cacheDropAll (h : FreshKept s) : FreshKept (cacheDropAll s) := h.mapCache _ fun _ y _ => nf_invalid y
theorem FreshKept.age (h : FreshKept s) : FreshKept (Machine.mapCache Line.older s) := h.mapCache _ fun l y hl => by
  unfold Line.older; split
  · exact hl
  · exact hl

/-- setBayState -/
theorem setBayState_cache (x st) (s : State) : (setBayState x st s).cache = s.cache := by unfold setBayState; rw [recompute_cache]; rfl
theorem setBayState_self (x st) (s : State) : ((setBayState x st s).bays.get x).state = st := by
  unfold setBayState; rw [recompute_bays]; cases x <;> rfl
theorem setBayState_ne (x st) (s : State) (y) (hy : y ≠ x) : ((setBayState x st s).bays.get y) = s.bays.get y := by
  unfold setBayState; rw [recompute_bays]; cases x <;> cases y <;> first | rfl | exact absurd rfl hy
theorem FreshBut.setBayState {x} (h : FreshBut x s) (st) : FreshBut x (setBayState x st s) :=
  h.congr (fun y hy => by rw [setBayState_ne x st s y hy]) (setBayState_cache x st s)
theorem FreshBut.steadyState {x} (h : FreshBut x s) (st) (hst : steady st = true) : FreshKept (Machine.setBayState x st s) :=
  (h.setBayState st).done fun e => by rw [setBayState_self, hst] at e; cases e
theorem FreshKept.steadyState (h : FreshKept s) (x st) (hst : steady st = true) : FreshKept (Machine.setBayState x st s) := (h.toX x).steadyState st hst
theorem FreshKept.emptyState (h : FreshKept s) (x st) (hn : noFreshIn s.cache x) : FreshKept (Machine.setBayState x st s) :=
  ((h.toX x).setBayState st).done fun _ => by rw [setBayState_cache]; exact hn




theorem setSwitch_bays (x v) (s : State) : (setSwitch x v s).bays = s.bays := by unfold setSwitch updPower; rw [recompute_bays]
theorem setSwitch_cache (x v) (s : State) : (setSwitch x v s).cache = s.cache := by unfold setSwitch updPower; rw [recompute_cache]
theorem rel1_bays (x) (s : State) : (releaseHeldOne x s).bays = s.bays := by unfold releaseHeldOne; split <;> first | exact setSwitch_bays .. | rfl
theorem rel1_cache (x) (s : State) : (releaseHeldOne x s).cache = s.cache := by unfold releaseHeldOne; split <;> first | exact setSwitch_cache .. | rfl
theorem rel_bays (s : State) : (releaseHeld s).bays = s.bays := by unfold releaseHeld; rw [rel1_bays, rel1_bays]
theorem rel_cache (s : State) : (releaseHeld s).cache = s.cache := by unfold releaseHeld; rw [rel1_cache, rel1_cache]
theorem endB_bays (s : State) : (endBridge s).bays = s.bays := by unfold endBridge updPower; split <;> first | rfl | rw [recompute_bays]
theorem endB_cache (s : State) : (endBridge s).cache = s.cache := by unfold endBridge updPower; split <;> first | rfl | rw [recompute_cache]
theorem on_bays (x) (s : State) : (switchOn x s).bays = s.bays := by
  unfold switchOn; split
  · rfl
  · split
    · rw [rel_bays, endB_bays, setSwitch_bays]
    · rw [setSwitch_bays]
theorem on_cache (x) (s : State) : (switchOn x s).cache = s.cache := by
  unfold switchOn; split
  · rfl
  · split
    · rw [rel_cache, endB_cache, setSwitch_cache]
    · rw [setSwitch_cache]
theorem off_bays (x) (s : State) : (switchOff x s).bays = s.bays := by
  unfold switchOff; split
  · rfl
  · split
    · rw [setSwitch_bays]
    · rfl
theorem off_cache (x) (s : State) : (switchOff x s).cache = s.cache := by
  unfold switchOff; split
  · rfl
  · split
    · rw [setSwitch_cache]
    · rfl
theorem req_bays (x) (s : State) : (requestOn x s).bays = s.bays := by
  unfold requestOn; split
  · rw [off_bays, on_bays]
  · rw [on_bays]
theorem req_cache (x) (s : State) : (requestOn x s).cache = s.cache := by
  unfold requestOn; split
  · rw [off_cache, on_cache]
  · rw [on_cache]
theorem FreshBut.switchOff {x} (h : FreshBut x s) (z) : FreshBut x (Machine.switchOff z s) := h.congr (fun y _ => by rw [off_bays]) (off_cache z s)
theorem FreshBut.requestOn {x} (h : FreshBut x s) (z) : FreshBut x (Machine.requestOn z s) := h.congr (fun y _ => by rw [req_bays]) (req_cache z s)
theorem FreshBut.updBay {x} (h : FreshBut x s) (z) (f : Bay → Bay) (hf : ∀ b, (f b).state = b.state := by intro b; rfl) : FreshBut x (Machine.updBay z f s) :=
  h.congr (fun y _ => by cases z <;> cases y <;> first | rfl | exact hf _) rfl
theorem FreshBut.post {x} (h : FreshBut x s) (k d) : FreshBut x (Machine.post k d s) := h
theorem FreshBut.cacheDropParked {x} (h : FreshBut x s) (z) : FreshBut x (Machine.cacheDropParked z s) :=
  h.mapCache _ fun l y _ hl => by split <;> [exact nf_invalid y; exact hl]
theorem FreshBut.cacheDropBay {x} (h : FreshBut x s) (z) : FreshBut x (Machine.cacheDropBay z s) :=
  h.mapCache _ fun l y _ hl => by split <;> [exact nf_invalid y; exact hl]
theorem FreshBut.matchContext {x} (h : FreshBut x s) : FreshBut x (Machine.matchContext x s) := by
  unfold Machine.matchContext Machine.clearContext
  split
  · exact h.cacheRestore.updBay x _
  · exact (h.cacheDropParked x).updBay x _
theorem FreshBut.placeSwitch {x} (h : FreshBut x s) : FreshKept (Machine.placeSwitch x s) := by
  unfold Machine.placeSwitch
  split
  · exact (h.requestOn x).steadyState .online rfl
  · exact (h.switchOff x).steadyState .standby rfl

theorem FreshKept.countOutcome (h : FreshKept s) (x : BayId) (b : Bool) : FreshKept (countOutcome x b s) := ⟨h.law⟩
theorem FreshKept.endLost (h : FreshKept s) (x : BayId) (p : Purpose) : FreshKept (endLost x p s) := by
  unfold Machine.endLost
  split
  · exact h.endUpstream _
  · exact h.updRelay _ _
  · exact h.updRelay _ _
  · exact h

theorem FreshKept.refuseSlot (h : FreshKept s) (x : BayId) : FreshKept (refuseSlot x s) := by
  unfold Machine.refuseSlot
  split
  · exact (h.updRelay x _).endUpstream _
  · exact h

theorem FreshKept.loseLink (h : FreshKept s) (x : BayId) : FreshKept (loseLink x s) := by
  unfold Machine.loseLink
  split
  · exact h
  · exact ((h.updRelay x _).endLost x _).refuseSlot x

theorem FreshKept.failRecover (h : FreshKept s) (x : BayId) : FreshKept (failRecover x s) := by
  unfold Machine.failRecover
  split
  · exact h
  · exact (h.updRelay x _).post _ _

theorem FreshKept.requestOn (h : FreshKept s) (x : BayId) : FreshKept (requestOn x s) := by
  unfold Machine.requestOn
  split
  · exact (h.switchOn x).switchOff x.other
  · exact h.switchOn x

theorem FreshKept.goOnline (h : FreshKept s) (x : BayId) (d : Detail) : FreshKept (goOnline x d s) :=
  ((h.requestOn x).steadyState x .online rfl).post _ d

theorem FreshKept.standbyJoin (h : FreshKept s) (x : BayId) : FreshKept (standbyJoin x s) := by
  unfold Machine.standbyJoin
  split
  · exact h.goOnline x dTakeOver
  · exact h

theorem FreshKept.settleOne (h : FreshKept s) (old new : State) (x : BayId) : FreshKept (settleOne old new x s) := by
  unfold Machine.settleOne
  split
  · exact h.standbyJoin x
  · exact h

theorem FreshKept.settle (h : FreshKept s) (old : State) : FreshKept (settle old s) := (h.settleOne old s .A).settleOne old s .B

/-- An action followed by the events it made. -/
theorem FreshKept.settling {f : State → State} (h : FreshKept (f s)) : FreshKept (settling f s) := h.settle s

theorem FreshKept.releaseBay (h : FreshKept s) (x : BayId) (k : HandoverKind) : FreshKept (releaseBay x k s) :=
  (h.updBay x _).steadyState x .releasing rfl

theorem FreshKept.refuseBay (h : FreshKept s) (x : BayId) (b : Bool) (r : RefusalReason) : FreshKept (refuseBay x b r s) := by
  unfold Machine.refuseBay
  split
  · exact (h.updBay x _).post _ _
  · exact h.updBay x _

theorem FreshKept.handoverToStandby (h : FreshKept s) (x : BayId) (b : Bool) : FreshKept (handoverToStandby x b s).1 := by
  unfold Machine.handoverToStandby
  split
  · exact ((h.goOnline x.other dTakeOver).switchOff x).releaseBay x .makeFirst
  · split
    · exact ((h.switchOff x).releaseBay x .breakFirst).goOnline x.other dTakeOver
    · split
      · exact (((h.startBridge .through).switchOff x).releaseBay x .bridgeThrough).goOnline x.other dTakeOver
      · exact h.refuseBay x b .mismatch

theorem FreshKept.evaluateCases (h : FreshKept s) (x : BayId) (b : Bool) : FreshKept (evaluateCases x b s).1 := by
  unfold Machine.evaluateCases
  split
  · exact h.refuseBay x b .held
  · split
    · split
      · exact h.updBay x _
      · exact h.refuseBay x b .drop
    · split
      · split
        · exact (h.switchOff x).releaseBay x .plain
        · exact h.refuseBay x b .lowBudget
      · split
        · exact h.handoverToStandby x b
        · split
          · exact ((h.startBridge .hold).switchOff x).releaseBay x .bridgeHold
          · exact h.refuseBay x b .noSource

theorem FreshKept.evaluate (h : FreshKept s) (x : BayId) (b : Bool) : FreshKept (evaluate x b s).1 := (h.evaluateCases x b).settle s

theorem FreshKept.evaluateLatch (h : FreshKept s) (x : BayId) : FreshKept (evaluateLatch x s) := h.evaluate x true

theorem FreshKept.reevaluate (h : FreshKept s) (x : BayId) : FreshKept (reevaluate x s) := by
  unfold Machine.reevaluate
  split
  · exact h.evaluateLatch x
  · exact h

theorem FreshKept.clearContext (h : FreshKept s) (x : BayId) : FreshKept (clearContext x s) := h.updBay x _

theorem FreshKept.discardContext (h : FreshKept s) (x : BayId) : FreshKept (discardContext x s) := (h.cacheDropParked x).clearContext x

theorem FreshKept.saveContext (h : FreshKept s) (x : BayId) (v : Option Half) : FreshKept (saveContext x v s) := by
  unfold Machine.saveContext
  split
  · exact (h.cacheDropParked x).updBay x _
  · exact h.updBay x _

theorem FreshKept.enterSeating (h : FreshKept s) (x : BayId) (hn : noFreshIn s.cache x) : FreshKept (enterSeating x s) := by
  unfold Machine.enterSeating
  exact ((h.updBay x _).updRelay x _).emptyState x .seating hn

theorem FreshKept.parkDeparted (h : FreshKept s) (x : BayId) (v : Option (Option Half)) : FreshKept (parkDeparted x v s) := by
  unfold Machine.parkDeparted
  split
  · exact h.cacheEmpty x
  · split
    · exact ((h.saveContext x _).cacheEmpty x).discardContext x
    · exact (h.saveContext x _).cacheEmpty x

theorem FreshKept.postDeparted (h : FreshKept s) (x : BayId) (d : Bool) : FreshKept (postDeparted x d s) := by
  unfold Machine.postDeparted
  split
  · exact h.post _ _
  · exact h

theorem parked_nf (x v) (s : State) : noFreshIn (Machine.parkDeparted x v s).cache x := by
  unfold Machine.parkDeparted; split
  · exact cacheEmpty_nf x s
  · split
    · exact noFresh_map _ x (fun l hl => by split <;> [exact nf_invalid x; exact hl]) _ (cacheEmpty_nf x _)
    · exact cacheEmpty_nf x _

theorem FreshKept.becomeEmpty (h : FreshKept s) (x : BayId) (v : Option (Option Half)) (d : Bool) : FreshKept (becomeEmpty x v d s) :=
  (((h.parkDeparted x v).emptyState x .empty (parked_nf x v s)).postDeparted x d).switchOff x

theorem becomeEmpty_cache (x v d) (s : State) : (Machine.becomeEmpty x v d s).cache = (Machine.parkDeparted x v s).cache := by
  unfold Machine.becomeEmpty Machine.postDeparted
  rw [off_cache]; split
  · exact setBayState_cache x .empty _
  · rw [setBayState_cache]

theorem FreshKept.enterEmpty (h : FreshKept s) (x : BayId) (v : Option (Option Half)) (d : Bool) : FreshKept (enterEmpty x v d s) := by
  unfold Machine.enterEmpty
  split
  · exact (h.becomeEmpty x v d).enterSeating x (by rw [becomeEmpty_cache]; exact parked_nf x v s)
  · exact h.becomeEmpty x v d

theorem FreshKept.postProbeEnd (h : FreshKept s) (b : Bay) (x : BayId) (d : Detail) : FreshKept (postProbeEnd b x d s) := by
  unfold Machine.postProbeEnd
  split
  · exact h.post _ _
  · exact h

theorem FreshKept.abruptLoss (h : FreshKept s) (x : BayId) : FreshKept (abruptLoss x s) := (h.enterEmpty x _ true).postProbeEnd _ x dAborted

theorem FreshKept.enterJolt (h : FreshKept s) (x : BayId) : FreshKept (enterJolt x s) :=
  ((((h.toX x).setBayState .jolt).updBay x _).cacheDistrust.postProbeEnd _ x dAborted).jolted _

theorem FreshKept.joltExpire (h : FreshKept s) (x : BayId) : FreshKept (joltExpire x s) := (h.enterEmpty x _ false).post _ _

theorem FreshKept.answerNoSource (h : FreshKept s) : FreshKept (answerNoSource s) := by
  unfold Machine.answerNoSource
  split
  · exact h.goOnline _ dTakeOver
  · exact h.startBridge .emergency

theorem FreshKept.enterFault (h : FreshKept s) (x : BayId) (why : FaultReason) : FreshKept (enterFault x why s) :=
  (((((h.toX x).setBayState .faulted).updBay x _).switchOff x).cacheDistrust.post _ _).postProbeEnd _ x _


theorem FreshKept.placeSwitch (h : FreshKept s) (x : BayId) : FreshKept (placeSwitch x s) := by
  unfold Machine.placeSwitch
  split
  · exact (h.requestOn x).steadyState x .online rfl
  · exact (h.switchOff x).steadyState x .standby rfl

theorem FreshKept.placeFresh (h : FreshKept s) (x : BayId) : FreshKept (placeFresh x s) := by
  have h1 := (h.toX x).matchContext.placeSwitch
  unfold Machine.placeFresh
  simp only
  split
  · exact h1.post _ _
  · exact h1

theorem FreshKept.clearJolt (h : FreshKept s) (x : BayId) : FreshKept (clearJolt x s) := h.updBay x _

theorem FreshKept.returnOnline (h : FreshKept s) (x : BayId) : FreshKept (returnOnline x s) := by
  unfold Machine.returnOnline
  split
  · split
    · exact (h.requestOn x).steadyState x .online rfl
    · exact ((h.requestOn x).steadyState x .online rfl).evaluateLatch x
  · exact h.placeSwitch x

theorem FreshKept.settleJolt (h : FreshKept s) (x : BayId) : FreshKept (settleJolt x s) := by
  have h1 := (h.post (.jolt x) dSame).clearJolt x
  unfold Machine.settleJolt
  simp only
  split
  · split
    · split
      · exact h1.returnOnline x
      · exact ((h1.switchOff x).steadyState x .standby rfl).standbyJoin x
      · exact h1.placeFresh x
    · exact h1
  · exact (((h.cacheDropBay x).post _ _).clearJolt x).placeFresh x

theorem FreshKept.placePack (h : FreshKept s) (x : BayId) : FreshKept (placePack x s) := by
  unfold Machine.placePack
  simp only
  split
  · exact (h.updBay x _).settleJolt x
  · exact ((h.updBay x _).placeFresh x).postProbeEnd _ x dAdmitted

theorem FreshKept.admitPack (h : FreshKept s) (x : BayId) : FreshKept (admitPack x s) := by
  refine FreshKept.settling ?_
  split
  · exact h.placePack x
  · exact h.enterFault x .admission

theorem FreshKept.startProbe (h : FreshKept s) (x : BayId) : FreshKept (startProbe x s) := by
  unfold Machine.startProbe
  split
  · exact h.admitPack x
  · exact h.updRelay x _

theorem FreshKept.enterProbing (h : FreshKept s) (x : BayId) (c : ProbeCause) : FreshKept (enterProbing x c s) :=
  (((h.toX x).setBayState .probing).updBay x _).cacheDistrust.startProbe x

theorem FreshKept.presenceRises (h : FreshKept s) (x : BayId) : FreshKept (presenceRises x s) := by
  unfold Machine.presenceRises
  simp only
  split
  · exact (h.updBay x _).recompute
  · exact ((h.updBay x _).recompute).releaseHeld
  · exact ((h.updBay x _).recompute).endBridge.releaseHeld

theorem FreshKept.joltReturn (h : FreshKept s) (x : BayId) : FreshKept (joltReturn x s) :=
  (((h.updBay x _).updRelay x _).recompute).enterProbing x .joltReturn

theorem FreshKept.fallByState (h : FreshKept s) (x : BayId) : FreshKept (fallByState x s) := by
  unfold Machine.fallByState
  split
  · split <;> [exact h.enterJolt x; exact h.abruptLoss x]
  · split <;> [exact h.enterJolt x; exact h.abruptLoss x]
  · split <;> [exact h.enterJolt x; exact h.abruptLoss x]
  · exact h.enterEmpty x _ true
  · exact h.enterEmpty x _ true
  · exact h.enterEmpty x _ false
  · exact h
  · exact h

theorem FreshKept.presenceFalls (h : FreshKept s) (x : BayId) : FreshKept (presenceFalls x s) := by
  have h2 := ((((h.updBay x (fun b => { b with presence := false })).recompute).loseLink x).failRecover x).fallByState x
  unfold Machine.presenceFalls
  simp only
  split
  · exact h2.answerNoSource
  · exact h2

theorem FreshKept.returnBay (h : FreshKept s) (x : BayId) : FreshKept (returnBay x s) := by
  unfold Machine.returnBay
  split
  · exact (h.requestOn x).steadyState x .online rfl
  · exact (h.switchOff x).steadyState x .standby rfl

theorem FreshKept.latchCloses (h : FreshKept s) (x : BayId) : FreshKept (latchCloses x s) := by
  unfold Machine.latchCloses
  simp only
  split
  · exact (h.updBay x _).standbyJoin x
  · exact (h.updBay x _).returnBay x
  · exact h.updBay x _

theorem FreshKept.latchOpens (h : FreshKept s) (x : BayId) : FreshKept (latchOpens x s) := by
  unfold Machine.latchOpens
  simp only
  split
  · exact (h.updBay x _).evaluateLatch x
  · exact h.updBay x _

theorem FreshKept.startJoltHold (h : FreshKept s) (x : BayId) : FreshKept (startJoltHold x s) := by
  unfold Machine.startJoltHold
  split
  · exact FreshKept.settling (h.joltExpire x)
  · exact h.updBay x _

theorem FreshKept.closeDeferred (h : FreshKept s) (x : BayId) : FreshKept (closeDeferred x s) := by
  unfold Machine.closeDeferred
  simp only
  split
  · split
    · exact (h.updBay x _).evaluateLatch x
    · exact h.updBay x _
  · exact h

theorem FreshKept.windowCloseOne (h : FreshKept s) (x : BayId) : FreshKept (windowCloseOne x s) := by
  unfold Machine.windowCloseOne
  split
  · exact (h.closeDeferred x).startJoltHold x
  · exact h.closeDeferred x

theorem FreshKept.windowCloseEvent (h : FreshKept s) : FreshKept (windowCloseEvent s) := (h.windowCloseOne .A).windowCloseOne .B


theorem FreshKept.storeSnapshot (h : FreshKept s) (x : BayId) (t : Tag) (v : Half) : FreshKept (storeSnapshot x t v s) := by
  unfold Machine.storeSnapshot
  split
  · exact (h.updRelay x _).recompute
  · exact h.updRelay x _

theorem FreshKept.updateSnapshot (h : FreshKept s) (x : BayId) (t : Tag) (v : Half) : FreshKept (updateSnapshot x t v s) := by
  unfold Machine.updateSnapshot
  split
  · exact ((h.storeSnapshot x t v).standbyJoin .A).standbyJoin .B
  · exact h.storeSnapshot x t v

theorem FreshKept.faultIfReached (h : FreshKept s) (x : BayId) : FreshKept (faultIfReached x s) := by
  unfold Machine.faultIfReached
  split
  · exact h.enterFault x .link
  · exact h

theorem FreshKept.answerMaster (h : FreshKept s) (r : TxResult) : FreshKept (answerMaster r s) := by
  unfold Machine.answerMaster
  split
  · split
    · split <;> exact h.endUpstream _
    · exact h
  · exact h

theorem FreshKept.handPlatform (h : FreshKept s) (x : BayId) (q : Request) (r : TxResult) : FreshKept (handPlatform x q r s) := by
  obtain ⟨kind, c, payload, gov⟩ := q
  cases kind <;> cases r <;> first
    | exact h
    | exact (h.updateSnapshot x _ _).cacheFill x _ _ _
    | exact h.cacheFailedWrite x _
    | skip
  rcases payload with _ | ⟨lo, _ | ⟨hi, _ | ⟨a, l⟩⟩⟩
  · exact h
  · exact h
  · exact h.cacheWrite x _ _ _
  · exact h

theorem FreshKept.handPoll (h : FreshKept s) (x : BayId) (q : Request) (r : TxResult) : FreshKept (handPoll x q r s) := by
  unfold Machine.handPoll
  split
  · exact ((h.updRelay x _).updateSnapshot x _ _).cacheFill x _ _ _
  · split
    · split
      · exact h
      · exact h.updRelay x _
    · exact h

theorem FreshKept.probeAdvance (h : FreshKept s) (x : BayId) : FreshKept (probeAdvance x s) := by
  unfold Machine.probeAdvance
  split
  · split
    · exact (h.updRelay x _).admitPack x
    · exact h.updRelay x _
  · exact h

theorem FreshKept.probeFailure (h : FreshKept s) (x : BayId) : FreshKept (probeFailure x s) := by
  unfold Machine.probeFailure
  split
  · split
    · exact h.enterFault x .link
    · exact h
  · exact h

theorem FreshKept.handProbe (h : FreshKept s) (x : BayId) (q : Request) (r : TxResult) : FreshKept (handProbe x q r s) := by
  unfold Machine.handProbe
  split
  · exact (h.updateSnapshot x _ _).probeAdvance x
  · exact h.probeFailure x

theorem FreshKept.handOrphan (h : FreshKept s) (x : BayId) (q : Request) (r : TxResult) : FreshKept (handOrphan x q r s) := by
  unfold Machine.handOrphan
  split
  · exact h.updateSnapshot x _ _
  · exact h

theorem FreshKept.handOn (h : FreshKept s) (x : BayId) (tx : PackTx) (r : TxResult) : FreshKept (handOn x tx r s) := by
  unfold Machine.handOn
  split
  · exact (h.answerMaster r).handPlatform x _ r
  · exact h.handPoll x _ r
  · exact h.handProbe x _ r
  · exact h.handOrphan x _ r

theorem FreshKept.finishTx (h : FreshKept s) (x : BayId) (tx : PackTx) (r : TxResult) : FreshKept (finishTx x tx r s) := by
  have h1 := ((h.updRelay x (fun q => { q with link := none })).countOutcome x r.failed).handOn x tx r
  unfold Machine.finishTx
  simp only
  split
  · exact h1.faultIfReached x
  · exact h1

theorem FreshKept.startTx (h : FreshKept s) (x : BayId) (q : Request) (p : Purpose) : FreshKept (startTx x q p s) := by
  unfold Machine.startTx
  split
  · exact h.updRelay x _
  · exact h.endLost x p

theorem FreshKept.startPoll (h : FreshKept s) (x : BayId) : FreshKept (startPoll x s) := by
  unfold Machine.startPoll
  split
  · split
    · exact (h.updRelay x _).startTx x _ .poll
    · exact h
  · exact h

theorem FreshKept.retryPoll (h : FreshKept s) (x : BayId) : FreshKept (retryPoll x s) := by
  unfold Machine.retryPoll
  split
  · split
    · exact h
    · split
      · exact h.updRelay x _
      · split
        · exact (h.updRelay x _).startTx x _ .poll
        · exact h
  · exact h

theorem FreshKept.startProbeRead (h : FreshKept s) (x : BayId) : FreshKept (startProbeRead x s) := by
  unfold Machine.startProbeRead
  split
  · split
    · split
      · exact (h.updRelay x _).startTx x _ .probe
      · exact h
    · exact h
  · exact h

theorem FreshKept.startSlot (h : FreshKept s) (x : BayId) : FreshKept (startSlot x s) := by
  unfold Machine.startSlot
  split
  · split
    · split
      · exact (h.updRelay x _).startTx x _ .platform
      · exact (h.updRelay x _).endUpstream _
    · exact h
  · exact h

theorem FreshKept.makeDue (h : FreshKept s) (x : BayId) : FreshKept (makeDue x s) := by
  unfold Machine.makeDue
  split
  · exact h.updRelay x _
  · exact h

theorem FreshKept.beginRecover (h : FreshKept s) (x : BayId) : FreshKept (beginRecover x s) := by
  unfold Machine.beginRecover
  split
  · exact h.updRelay x _
  · exact h

theorem FreshKept.recovered (h : FreshKept s) (x : BayId) : FreshKept (recovered x s) := by
  have h1 : FreshKept (Machine.updRelay x (fun r => { r with failCount := 0 }) s) := h.updRelay x _
  unfold Machine.recovered
  simp only
  split
  · exact h1.enterProbing x .insertion
  · exact h1

theorem FreshKept.endRecover (h : FreshKept s) (x : BayId) (k : Option Nat) : FreshKept (endRecover x k s) := by
  unfold Machine.endRecover
  split
  · simp only
    split
    · exact ((h.updRelay x _).recovered x).post _ _
    · exact (h.updRelay x _).post _ _
  · exact h

theorem FreshKept.outOfPlace (h : FreshKept s) : FreshKept (outOfPlace s) := h.setAnswer _

theorem FreshKept.deny (h : FreshKept s) (x : BayId) (c : Code) : FreshKept (deny x c s) := (h.endUpstream _).post _ _

theorem FreshKept.setStage (h : FreshKept s) (tx : UpTx) (st : UpStage) (a : Answer) : FreshKept (setStage tx st a s) := h.upstream _

theorem FreshKept.takeMgmtAddress (h : FreshKept s) (b : Bool) : FreshKept (takeMgmtAddress b s) :=
  takeMgmtAddress_frame b s ▸ h.upstream _

theorem FreshKept.mgmtCodeByte (h : FreshKept s) (b : Byte) : FreshKept (mgmtCodeByte b s) := mgmtCodeByte_frame b s ▸ h.upstream _

theorem FreshKept.mgmtDirection (h : FreshKept s) (d : DirByte) : FreshKept (mgmtDirection d s) := mgmtDirection_frame d s ▸ h.upstream _

theorem FreshKept.mgmtByte (h : FreshKept s) (b : Byte) : FreshKept (mgmtByte b s) := mgmtByte_frame b s ▸ h.upstream _

theorem FreshKept.takeAddress (h : FreshKept s) (a : Addr) (b : Bool) : FreshKept (takeAddress a b s) := by
  unfold Machine.takeAddress
  split
  · exact h.setAnswer _
  · split
    · exact h.takeMgmtAddress _
    · split
      · exact h.endUpstream _
      · split
        · exact h.upstream _
        · exact h.endUpstream _

theorem FreshKept.takeCodeByte (h : FreshKept s) (b : Byte) : FreshKept (takeCodeByte b s) := by
  unfold Machine.takeCodeByte
  split
  · split
    · split
      · exact h.setStage _ _ _
      · exact h.deny _ _
    · exact h.outOfPlace
  · exact h.mgmtCodeByte _

theorem FreshKept.takeDirection (h : FreshKept s) (d : DirByte) : FreshKept (takeDirection d s) := by
  unfold Machine.takeDirection
  split
  · split
    · split
      · split
        · exact h.endUpstream _
        · split <;> [exact h.setStage _ _ _; exact h.deny _ _]
      · split <;> [exact h.setStage _ _ _; exact h.deny _ _]
    · exact h.outOfPlace
  · exact h.mgmtDirection _

theorem FreshKept.takeLength (h : FreshKept s) (b : Byte) : FreshKept (takeLength b s) := by
  unfold Machine.takeLength
  split
  · split
    · split <;> [exact h.endUpstream _; exact h.setAnswer _]
    · exact h.outOfPlace
  · exact h.mgmtByte _

theorem FreshKept.forward (h : FreshKept s) (tx : UpTx) (q : Request) (n : Nat) : FreshKept (forward tx q n s) := by
  unfold Machine.forward
  simp only
  split
  · exact (h.setStage tx _ _).startTx tx.bay q .platform
  · exact (h.setStage tx _ _).updRelay tx.bay _

theorem FreshKept.forwardingPoint (h : FreshKept s) (tx : UpTx) (q : Request) (n : Nat) : FreshKept (forwardingPoint tx q n s) := by
  unfold Machine.forwardingPoint
  split
  · split
    · split
      · exact (h.touchSet _ _).endUpstream _
      · exact h.forward tx q n
    · exact h.forward tx q n
  · exact h.endUpstream _

theorem FreshKept.reachForwarding (h : FreshKept s) (k : TxKind) (p : List Byte) (n : Nat) : FreshKept (reachForwarding k p n s) := by
  unfold Machine.reachForwarding
  split
  · split
    · split <;> [exact h.forwardingPoint _ _ n; exact h.outOfPlace]
    · exact h.outOfPlace
  · exact h.outOfPlace

theorem FreshKept.abandonUp (h : FreshKept s) : FreshKept (abandonUp s) := by
  unfold Machine.abandonUp
  split <;> [exact h.setAnswer _; exact h.endUpstream _]


theorem FreshKept.enterSeatingRow (h : FreshKept s) (x : BayId) : FreshKept (presenceLineRises x s) := by
  unfold Machine.presenceLineRises
  split
  · next he => exact h.enterSeating x (h.law x (by rw [he.1]; rfl))
  · exact h.updBay x _

theorem FreshKept.seatingLineFalls (h : FreshKept s) (x : BayId) (he : (s.bays.get x).state = .seating) : FreshKept (seatingLineFalls x s) := by
  unfold Machine.seatingLineFalls
  split
  · exact (h.updBay x _).presenceFalls x
  · exact (h.updBay x _).emptyState x .empty (h.law x (by rw [he]; rfl))

theorem FreshKept.presenceLineFalls (h : FreshKept s) (x : BayId) : FreshKept (presenceLineFalls x s) := by
  have h1 := (h.loseLink x).failRecover x
  unfold Machine.presenceLineFalls
  simp only
  split
  · next he => exact h1.seatingLineFalls x he
  · exact h1.updBay x _

theorem FreshKept.presenceLine (h : FreshKept s) (x : BayId) (b : Bool) : FreshKept (presenceLine x b s) := by
  unfold Machine.presenceLine
  split
  · exact h
  · cases b
    · exact (h.updBay x _).presenceLineFalls x
    · exact (h.updBay x _).enterSeatingRow x

theorem FreshKept.recordRise (h : FreshKept s) (x : BayId) : FreshKept (recordRise x s) := by
  have h1 : FreshKept (if (s.bays.get x).presence then s else Machine.presenceRises x s) := by
    split
    · exact h
    · exact h.presenceRises x
  have h2 : FreshKept (if (s.bays.get x).presence then (if (s.bays.get x).presence then s else Machine.presenceRises x s)
      else Machine.post (.presence (.bay x)) dArrived (if (s.bays.get x).presence then s else Machine.presenceRises x s)) := by
    by_cases hp : (s.bays.get x).presence = true
    · rw [if_pos hp]; exact h1
    · rw [if_neg hp]; exact h1.post _ _
  have h3 : FreshKept (if (s.bays.get x).presence then (if (s.bays.get x).presence then s else Machine.presenceRises x s)
      else Machine.joltReturn x (if (s.bays.get x).presence then s else Machine.presenceRises x s)) := by
    by_cases hp : (s.bays.get x).presence = true
    · rw [if_pos hp]; exact h1
    · rw [if_neg hp]; exact h1.joltReturn x
  unfold Machine.recordRise
  generalize (if (s.bays.get x).presence then s else Machine.presenceRises x s) = t at h1 h2 h3 ⊢
  cases he : (t.bays.get x).state <;> simp only [he] <;> first | exact h1 | exact h2.enterProbing x .insertion | exact h3

theorem FreshKept.presenceExpiry (h : FreshKept s) (x : BayId) : FreshKept (presenceExpiry x s) := by
  unfold Machine.presenceExpiry
  split
  · exact h
  · simp only
    split
    · exact (h.updBay x _).recordRise x
    · split
      · exact (h.updBay x _).presenceFalls x
      · exact h.updBay x _

theorem FreshKept.latchLine (h : FreshKept s) (x : BayId) (b : Bool) : FreshKept (latchLine x b s) := by
  unfold Machine.latchLine
  split
  · exact h
  · exact (h.updBay x _).updBay x _

theorem FreshKept.latchExpiry (h : FreshKept s) (x : BayId) : FreshKept (latchExpiry x s) := by
  unfold Machine.latchExpiry
  split
  · exact h
  · simp only
    split
    · exact h.updBay x _
    · split
      · exact (h.updBay x _).latchCloses x
      · exact (h.updBay x _).latchOpens x

theorem FreshKept.expireBridge (h : FreshKept s) : FreshKept (expireBridge s) := by
  unfold Machine.expireBridge
  split
  · next hr =>
    exact (FreshKept.post (h.setPower _) .bridgeLow _).recompute
  · exact h

theorem FreshKept.joltHoldOut (h : FreshKept s) (x : BayId) : FreshKept (joltHoldOut x s) := by
  unfold Machine.joltHoldOut
  split
  · exact h.joltExpire x
  · exact h

theorem FreshKept.contextOut (h : FreshKept s) (x : BayId) : FreshKept (contextOut x s) := by
  unfold Machine.contextOut
  split
  · exact h.discardContext x
  · exact h

/-! ### Links -/

theorem FreshKept.completeTx (h : FreshKept s) (x : BayId) (r : PackReply) : FreshKept (completeTx x r s) := by
  unfold Machine.completeTx
  split
  · split
    · exact h.finishTx x _ _
    · exact h
  · exact h

theorem FreshKept.timeoutTx (h : FreshKept s) (x : BayId) : FreshKept (timeoutTx x s) := by
  unfold Machine.timeoutTx
  split
  · exact h.finishTx x _ _
  · exact h

theorem FreshKept.forwardBlock (h : FreshKept s) (b : List Byte) : FreshKept (forwardBlock b s) := by
  unfold Machine.forwardBlock
  split
  · exact h.reachForwarding _ _ _
  · exact h.outOfPlace

/-! ### Bay and flag commands -/

theorem FreshKept.handFlag (h : FreshKept s) (n : Nat) (a b : Bool) : FreshKept (handFlag n a b s) := by
  unfold Machine.handFlag
  split
  · split
    · exact h.reevaluate .A
    · split
      · exact h.reevaluate .B
      · exact h
  · split
    · exact (h.updRelay .A _).updRelay .B _
    · exact h

theorem FreshKept.bayRelease (h : FreshKept s) (x : BayId) : FreshKept (bayRelease x s).1 := by
  unfold Machine.bayRelease
  split
  · split
    · exact h.evaluate x false
    · exact h.evaluate x false
    · exact h.evaluate x false
  · exact h

theorem FreshKept.bayReturn (h : FreshKept s) (x : BayId) : FreshKept (bayReturn x s).1 := by
  unfold Machine.bayReturn
  split
  · exact FreshKept.settling (h.returnBay x)
  · exact h

theorem FreshKept.bayProbe (h : FreshKept s) (x : BayId) : FreshKept (bayProbe x s).1 := by
  unfold Machine.bayProbe
  split
  · split
    · exact h
    · exact FreshKept.settling ((h.updRelay x _).enterProbing x .bayProbe)
  · exact h

theorem FreshKept.linkRecover (h : FreshKept s) (x : BayId) : FreshKept (linkRecover x s).1 := by
  unfold Machine.linkRecover
  cases (s.bays.get x).state <;> first
    | exact h
    | (simp only; split <;> [exact h.updRelay x _; exact h])

theorem FreshKept.cacheFlush (h : FreshKept s) (p : List Byte) : FreshKept (cacheFlush p s).1 := by
  unfold Machine.cacheFlush
  split
  · split
    · exact h.cacheDropBay .A
    · exact h.cacheDropBay .B
    · exact h.cacheDropAll
    · exact h
  · exact h



end Sys2Proof.Machine
end

