-- ==== Sys2Proof/Laws/PerInstr.lean ====
section
/-! SUPPORT. One fact about every row as syntax, by constructor: the parameters of a well-formed command fit the length byte of its frame
(R183). -/

namespace Sys2Proof.Laws

/-- The parameter bytes of a management command; no other row has any. -/
def commandParams : Instr → Option (List Byte)
  | .invalidCommand _ p => some p
  | .identify p | .senseAttention p | .flagTest p | .flagSet p | .flagClear p | .flagToggle p | .resetPart p | .powerQuery p | .bayQuery p
  | .bayRelease p | .bayReturn p | .bayProbe p | .linkRecover p | .cacheFlush p | .cacheInspect p | .budgetQuery p | .brightnessSet p
  | .brightnessQuery p | .dropStateQuery p | .dropLogRead p | .dropLogClear p | .tableClear p | .tableWrite p | .tableCheck p
  | .tableRead p | .tableLock p => some p
  | _ => none

/-- The length byte of a command's frame counts its parameters (R183). -/
def Family.Statement (i : Instr) : Prop := i.wf = true → ∀ p, commandParams i = some p → p.length ≤ 255

/-- A row that is no command. -/
theorem statement_of_none {i : Instr} (h : commandParams i = none) : Family.Statement i :=
  fun _ p e => by rw [h] at e; cases e

/-- A command whose well-formedness is that of its parameters. -/
theorem statement_of_params {i : Instr} {q : List Byte} (h : commandParams i = some q) (hw : i.wf = paramsWf q) : Family.Statement i := by
  intro w p e
  rw [h] at e
  injection e with e
  rw [hw] at w
  rw [← e]
  simpa [paramsWf] using w

theorem Family.powerOnReset (lines : Lines) : Family.Statement (.powerOnReset lines) := statement_of_none rfl

theorem Family.extPresentChange (asserted : Bool) : Family.Statement (.extPresentChange asserted) := statement_of_none rfl

theorem Family.presenceLineChange (bay : BayId) (asserted : Bool) : Family.Statement (.presenceLineChange bay asserted) := statement_of_none rfl

theorem Family.presenceDebounceExpiry (bay : BayId) : Family.Statement (.presenceDebounceExpiry bay) := statement_of_none rfl

theorem Family.latchLineChange (bay : BayId) (closed : Bool) : Family.Statement (.latchLineChange bay closed) := statement_of_none rfl

theorem Family.latchDebounceExpiry (bay : BayId) : Family.Statement (.latchDebounceExpiry bay) := statement_of_none rfl

theorem Family.bridgeReadyChange (asserted : Bool) : Family.Statement (.bridgeReadyChange asserted) := statement_of_none rfl

theorem Family.bridgeExpiry : Family.Statement (.bridgeExpiry) := statement_of_none rfl

theorem Family.joltHoldExpiry (bay : BayId) : Family.Statement (.joltHoldExpiry bay) := statement_of_none rfl

theorem Family.contextWindowExpiry (bay : BayId) : Family.Statement (.contextWindowExpiry bay) := statement_of_none rfl

theorem Family.uptimeTick : Family.Statement (.uptimeTick) := statement_of_none rfl

theorem Family.ageTick : Family.Statement (.ageTick) := statement_of_none rfl

theorem Family.pollPeriodExpiry : Family.Statement (.pollPeriodExpiry) := statement_of_none rfl

theorem Family.pollStart (bay : BayId) : Family.Statement (.pollStart bay) := statement_of_none rfl

theorem Family.pollRetry (bay : BayId) : Family.Statement (.pollRetry bay) := statement_of_none rfl

theorem Family.probeReadStart (bay : BayId) : Family.Statement (.probeReadStart bay) := statement_of_none rfl

theorem Family.slotTransactionStart (bay : BayId) : Family.Statement (.slotTransactionStart bay) := statement_of_none rfl

theorem Family.packTransactionEnd (bay : BayId) (reply : PackReply) : Family.Statement (.packTransactionEnd bay reply) := statement_of_none rfl

theorem Family.linkTimeout (bay : BayId) : Family.Statement (.linkTimeout bay) := statement_of_none rfl

theorem Family.linkRecoverBegin (bay : BayId) : Family.Statement (.linkRecoverBegin bay) := statement_of_none rfl

theorem Family.linkRecoverEnd (bay : BayId) (released : Option Nat) : Family.Statement (.linkRecoverEnd bay released) := statement_of_none rfl

theorem Family.lightSample (b0 b1 b2 : Byte) : Family.Statement (.lightSample b0 b1 b2) := statement_of_none rfl

theorem Family.motionSample (x0 x1 y0 y1 z0 z1 : Byte) : Family.Statement (.motionSample x0 x1 y0 y1 z0 z1) := statement_of_none rfl

theorem Family.frameDiscard (header : Byte) (payload : List Byte) : Family.Statement (.frameDiscard header payload) := statement_of_none rfl

theorem Family.laneGapDiscard (received : List Byte) : Family.Statement (.laneGapDiscard received) := statement_of_none rfl

theorem Family.stallTimeout : Family.Statement (.stallTimeout) := statement_of_none rfl

theorem Family.windowHoldExpiry : Family.Statement (.windowHoldExpiry) := statement_of_none rfl

theorem Family.tableCheckEnd (region : RegionId) : Family.Statement (.tableCheckEnd region) := statement_of_none rfl

theorem Family.platformAddress (addr : Addr) (read : Bool) : Family.Statement (.platformAddress addr read) := statement_of_none rfl

theorem Family.codeByteCheck (byte : Byte) : Family.Statement (.codeByteCheck byte) := statement_of_none rfl

theorem Family.permitCheck (byte : DirByte) : Family.Statement (.permitCheck byte) := statement_of_none rfl

theorem Family.writeBlockLengthRefuse (len : Byte) : Family.Statement (.writeBlockLengthRefuse len) := statement_of_none rfl

theorem Family.transactionAbandon : Family.Statement (.transactionAbandon) := statement_of_none rfl

theorem Family.readValue (count : Nat) : Family.Statement (.readValue count) := statement_of_none rfl

theorem Family.writeValue (lo hi : Byte) : Family.Statement (.writeValue lo hi) := statement_of_none rfl

theorem Family.readBlock (count : Nat) : Family.Statement (.readBlock count) := statement_of_none rfl

theorem Family.writeBlock (bytes : List Byte) : Family.Statement (.writeBlock bytes) := statement_of_none rfl

theorem Family.resultRead (count : Nat) : Family.Statement (.resultRead count) := statement_of_none rfl

theorem Family.invalidCommand (code : BitVec 7) (params : List Byte) : Family.Statement (.invalidCommand code params) := by
  intro w p e
  injection e with e
  simp only [Instr.wf, Bool.and_eq_true] at w
  rw [← e]
  simpa [paramsWf] using w.2

theorem Family.identify (params : List Byte) : Family.Statement (.identify params) := statement_of_params rfl rfl

theorem Family.senseAttention (params : List Byte) : Family.Statement (.senseAttention params) := statement_of_params rfl rfl

theorem Family.flagTest (params : List Byte) : Family.Statement (.flagTest params) := statement_of_params rfl rfl

theorem Family.flagSet (params : List Byte) : Family.Statement (.flagSet params) := statement_of_params rfl rfl

theorem Family.flagClear (params : List Byte) : Family.Statement (.flagClear params) := statement_of_params rfl rfl

theorem Family.flagToggle (params : List Byte) : Family.Statement (.flagToggle params) := statement_of_params rfl rfl

theorem Family.resetPart (params : List Byte) : Family.Statement (.resetPart params) := statement_of_params rfl rfl

theorem Family.powerQuery (params : List Byte) : Family.Statement (.powerQuery params) := statement_of_params rfl rfl

theorem Family.bayQuery (params : List Byte) : Family.Statement (.bayQuery params) := statement_of_params rfl rfl

theorem Family.bayRelease (params : List Byte) : Family.Statement (.bayRelease params) := statement_of_params rfl rfl

theorem Family.bayReturn (params : List Byte) : Family.Statement (.bayReturn params) := statement_of_params rfl rfl

theorem Family.bayProbe (params : List Byte) : Family.Statement (.bayProbe params) := statement_of_params rfl rfl

theorem Family.linkRecover (params : List Byte) : Family.Statement (.linkRecover params) := statement_of_params rfl rfl

theorem Family.cacheFlush (params : List Byte) : Family.Statement (.cacheFlush params) := statement_of_params rfl rfl

theorem Family.cacheInspect (params : List Byte) : Family.Statement (.cacheInspect params) := statement_of_params rfl rfl

theorem Family.budgetQuery (params : List Byte) : Family.Statement (.budgetQuery params) := statement_of_params rfl rfl

theorem Family.brightnessSet (params : List Byte) : Family.Statement (.brightnessSet params) := statement_of_params rfl rfl

theorem Family.brightnessQuery (params : List Byte) : Family.Statement (.brightnessQuery params) := statement_of_params rfl rfl

theorem Family.dropStateQuery (params : List Byte) : Family.Statement (.dropStateQuery params) := statement_of_params rfl rfl

theorem Family.dropLogRead (params : List Byte) : Family.Statement (.dropLogRead params) := statement_of_params rfl rfl

theorem Family.dropLogClear (params : List Byte) : Family.Statement (.dropLogClear params) := statement_of_params rfl rfl

theorem Family.tableClear (params : List Byte) : Family.Statement (.tableClear params) := statement_of_params rfl rfl

theorem Family.tableWrite (params : List Byte) : Family.Statement (.tableWrite params) := statement_of_params rfl rfl

theorem Family.tableCheck (params : List Byte) : Family.Statement (.tableCheck params) := statement_of_params rfl rfl

theorem Family.tableRead (params : List Byte) : Family.Statement (.tableRead params) := statement_of_params rfl rfl

theorem Family.tableLock (params : List Byte) : Family.Statement (.tableLock params) := statement_of_params rfl rfl

end Sys2Proof.Laws
end

