-- ==== Sys2Proof/Tests/Slice0.lean ====
section
/-! SUPPORT. Tests: what the well-formedness check refuses, the figures the manual works out, one or two small steps for each row, and for
each statement a state that meets its hypotheses. -/

namespace Sys2Proof.Tests

open Sys2Proof.Machine

/-! ### Helpers -/

/-- The state that a row leaves. -/
def after (i : Instr) (s : State) : State :=
  match exec i s with
  | .next t => t
  | _ => s

/-- A bay in state `st` with its pack in place and its latch closed. -/
def packIn (st : BayState) : Bay :=
  { Bay.reset with state := st, presLine := true, presence := true, latchLine := true, latch := true }

/-- The record of a bay in state `st`, empty for EMPTY. -/
def bayIn : BayState → Bay
  | .empty => Bay.reset
  | st => packIn st

/-- The switch of a bay in a state. -/
def switchIn : BayState → Switch
  | .online => .on
  | _ => .off

/-- Two bays in given states, with or without external supply, the bridge cell not ready, the budget current. -/
def withBays (ext : Bool) (a b : BayState) : State :=
  let s := { State.reset with pp := { State.reset.pp with ext := ext, sw := ⟨switchIn a, switchIn b⟩ }, bays := ⟨bayIn a, bayIn b⟩ }
  { s with budget := computeBudget s }

/-- The same with the bridge cell ready. -/
def ready (s : State) : State := { s with pp := { s.pp with bridgeReady := true } }

/-- The bridge running since `ms`. -/
def bridged (ms : Nat) (s : State) : State :=
  { s with pp := { s.pp with bridge := .running, timer := ms, bridgeSw := true, lowpwr := true } }

/-- Both VOLTAGE values. -/
def volts (v w : Half) (s : State) : State :=
  withSnap .A { Snapshot.absent with voltage := some v } (withSnap .B { Snapshot.absent with voltage := some w } s)

/-- The drop window in a state. -/
def inWindow (w : Window) (s : State) : State :=
  { s with motion := { s.motion with window := w, hold := if w = .holding then some 300 else none } }

/-- The detector in a state outside ARMED, with `n` low samples. -/
def detecting (d : Detector) (n : Nat) (s : State) : State :=
  { s with motion := { s.motion with detector := d, n := n, stall := some 250, window := .open, park := true } }

/-- Bay A's latch line open and its debounce running out. -/
def latchOpens (s : State) : State := updBay .A (fun b => { b with latchLine := false, latchDeb := some 0 }) s

/-- Bay A's latch line closed over a recorded open latch, its debounce running out. -/
def latchCloses (s : State) : State := updBay .A (fun b => { b with latchLine := true, latch := false, latchDeb := some 0 }) s

/-- Bay A's presence line released and its debounce running out. -/
def packLeaves (s : State) : State := updBay .A (fun b => { b with presLine := false, presDeb := some 0 }) s

/-- Bay A's presence line asserted over a recorded absence, its debounce running out. -/
def packComes (s : State) : State := updBay .A (fun b => { b with presLine := true, presence := false, presDeb := some 0 }) s

/-- Bay A in JOLT with a jolt record. -/
def jolted (j : JoltRecord) (s : State) : State := updBay .A (fun b => { b with state := .jolt, presence := false, jolt := some j }) s

/-- What a read of code `c` carries under the built-in map, with a tag. -/
def govOf (t : Tag) : Governing := { inst := 0, cls := .timed, maxAge := 10, tag := t }

/-- A transaction in flight on bay A's link. -/
def inFlight (k : TxKind) (p : Purpose) (t : Tag) (bytes : List Byte) (s : State) : State :=
  updRelay .A (fun r => { r with link := some { req := { kind := k, code := 5, payload := bytes, gov := govOf t }, purpose := p,
                                                timeout := 0 } }) s

/-- A platform transaction of address 2Ah at a stage, governed by the map in service. -/
def upAt (st : UpStage) (s : State) : State :=
  { s with upstream := { tx := some { addr := 0x2A, bay := .A, inst := s.mapInst, map := mapInService s, stage := st }, answer := .none } }

/-- A probe of bay A with reads of these tags to make and `n` attempts issued. -/
def probing (tags : List Tag) (n : Nat) (s : State) : State :=
  updRelay .A (fun r => { r with probe := some { reads := tags.map (fun t => { code := 5, gov := govOf t }), attempts := n,
                                                 background := false } }) s

/-- The CODEMAP in service with these words after word 0, which gives length 128. -/
def mapped (words : Memory) (s : State) : State :=
  { s with tables := { s.tables with codemap := { state := .inService, lock := false, words := (0, 128) :: words } } }

/-- Code 5 with both permits, TIMED, maximum age 10, tag VOLTAGE and the poll flag (R195). -/
def voltsEntry : Memory := [(6, BitVec.ofNat 32 (3 + 4 + 10 * 256 + 65536 + 1048576))]

/-- A CONFIG in service that differs from the defaults in word `i`. -/
def configured (i : Nat) (w : Word) (s : State) : State :=
  { s with tables := { s.tables with config := {
      state := .inService, lock := false,
      words := (List.range 26).map fun k => (k, if k = i then w else Config.defaultWord .config k) } } }

/-- A FRESH line of bay A and code 5 in way 0 of its set. -/
def cached (age : Nat) (s : State) : State :=
  { s with cache := s.cache.set (setOf 5) { CacheSet.reset with
      l0 := { valid := true, bay := .A, code := 5, value := 12000, state := .fresh, age := age } } }

/-- The value of the head entry. -/
def headDetail (s : State) : Option (AttnKey × Detail) := s.attn.queue.head?.map (fun e => (e.key, e.detail))

/-- The result frame in the slot. -/
def result (s : State) : Option Frame :=
  match s.port.slot with
  | .pending f => some f
  | _ => none

/-! ### What the check refuses -/

theorem test_wf_refuses_block_of_another_length : Instr.wf (.packTransactionEnd .A (.block 2 [1])) = false := by decide

theorem test_wf_refuses_a_seventeenth_pulse : Instr.wf (.linkRecoverEnd .A (some 17)) = false := by decide

theorem test_wf_refuses_discard_of_a_good_frame :
    Instr.wf (.frameDiscard 0x13 [0, 0, 0]) = false ∧ Instr.wf (.frameDiscard 0x26 [0, 0, 0, 0, 0, 0]) = false
      ∧ Instr.wf (.frameDiscard 0x32 [0]) = false ∧ Instr.wf (.frameDiscard 0x12 [0, 0]) = true := by decide

theorem test_wf_refuses_a_gap_without_a_partial_frame :
    Instr.wf (.laneGapDiscard []) = false ∧ Instr.wf (.laneGapDiscard [0x13, 0, 0, 0]) = false
      ∧ Instr.wf (.laneGapDiscard [0x13, 0, 0]) = true := by decide

theorem test_wf_refuses_a_legal_length_refused :
    Instr.wf (.writeBlockLengthRefuse 1) = false ∧ Instr.wf (.writeBlockLengthRefuse 32) = false
      ∧ Instr.wf (.writeBlockLengthRefuse 0) = true ∧ Instr.wf (.writeBlockLengthRefuse 33) = true := by decide

theorem test_wf_refuses_reads_of_no_byte :
    Instr.wf (.readValue 0) = false ∧ Instr.wf (.readBlock 0) = false ∧ Instr.wf (.resultRead 0) = false := by decide

theorem test_wf_refuses_blocks_out_of_range :
    Instr.wf (.writeBlock []) = false ∧ Instr.wf (.writeBlock (List.replicate 33 0)) = false
      ∧ Instr.wf (.writeBlock (List.replicate 32 0)) = true := by decide

theorem test_wf_refuses_codes_that_are_no_invalid_command :
    Instr.wf (.invalidCommand 0 []) = false ∧ Instr.wf (.invalidCommand 0x10 []) = false ∧ Instr.wf (.invalidCommand 0x44 []) = false
      ∧ Instr.wf (.invalidCommand 0x45 []) = true := by decide

theorem test_wf_refuses_256_parameters :
    Instr.wf (.identify (List.replicate 256 0)) = false ∧ Instr.wf (.tableWrite (List.replicate 256 0)) = false
      ∧ Instr.wf (.invalidCommand 0x45 (List.replicate 256 0)) = false ∧ Instr.wf (.tableWrite (List.replicate 255 0)) = true := by decide +kernel

/-- No row has bits. -/
theorem test_no_word_spells_a_row : decodeTableWord 8 0x10 = none ∧ decodeTableWord 0 0 = none := by decide

/-- R192 and R196: codes and frames as they stand on the wire. -/
theorem test_codes_and_frames_are_rows :
    commandRow 0x10 [] = some (.identify []) ∧ commandRow 0x2A [1] = some (.invalidCommand 0x2A [1]) ∧ commandRow 0 [] = none
      ∧ frameRow 0x13 [1, 2, 3] = .lightSample 1 2 3
      ∧ frameRow 0x26 [1, 2, 3, 4, 5, 6] = .motionSample 1 2 3 4 5 6 ∧ frameRow 0x12 [1, 2] = .frameDiscard 0x12 [1, 2]
      ∧ laneFeed [] 0x13 = ([0x13], none) ∧ laneFeed [0x13, 1, 2] 3 = ([], some (.lightSample 1 2 3)) := by decide

/-- R180: the three forms at MGMT, and what each refuses. -/
theorem test_forms_at_MGMT :
    mgmtWrite 0x90 [] = some (.identify []) ∧ mgmtWrite 0x10 [] = none ∧ mgmtWrite 0x80 [1] = none
      ∧ mgmtRead 0x80 0x29 3 = some (.resultRead 3) ∧ mgmtRead 0x80 0x28 3 = none ∧ mgmtRead 0x80 0x2A 3 = none ∧ mgmtRead 0x90 0x29 3 = none
      ∧ mgmtRead 0x00 0x29 3 = none := by decide

/-! ### Figures of the manual -/

/-- R125 on the built-in curve: 400 per-mille at 10,000 lux and 201 at 30. -/
theorem test_curve_figures :
    curveLevel 10000 (breakpoints State.reset) = 400 ∧ curveLevel 30 (breakpoints State.reset) = 201
      ∧ curveLevel 40000 (breakpoints State.reset) = 1000 ∧ curveLevel 65535 (breakpoints State.reset) = 1000 := by decide

/-- R109: 12,100 mV at 3,200 mA are 38,720 mW; R110 halves them where the pack is hot. -/
theorem test_pack_power :
    bayPower (withSnap .A { Snapshot.absent with voltage := some 12100, maxDischarge := some 3200 } State.reset) .A
        = ⟨38720, .snapshot, false⟩
      ∧ bayPower (withSnap .A { Snapshot.absent with voltage := some 12100, maxDischarge := some 3200, temperature := some 550 }
          State.reset) .A = ⟨19360, .snapshot, true⟩
      ∧ bayPower State.reset .A = ⟨30000, .dflt, false⟩ := by decide

/-! ### One step of each row -/

/-- R14, R46: after power-on with a pack in bay A alone, its switch is PASSIVE and it is SEATING with a fresh debounce; the budget of the manual's
first row. -/
theorem test_power_on_reset :
    let t := after (.powerOnReset ⟨true, false, true, false, false, true⟩) State.reset
    t.pp.sw = ⟨.passive, .off⟩ ∧ t.bays.a.state = .seating ∧ t.bays.a.presDeb = some 50 ∧ t.bays.b = Bay.reset
      ∧ t.budget.pA = 30000 ∧ t.budget.h = 6000 ∧ t.budget.c = 500 ∧ t.pipe.o = 300 := by decide

/-- R1, R33: EXT falls with no other source: the STANDBY bay takes over; without one the bridge starts. -/
theorem test_ext_present_change :
    headDetail (after (.extPresentChange true) State.reset) = some (.presence .ext, dArrived)
      ∧ (after (.extPresentChange false) (withBays true .standby .empty)).bays.a.state = .online
      ∧ (after (.extPresentChange false) (ready (withBays true .empty .empty))).pp.bridge = .running := by decide

/-- R17, R18: a line change starts the debounce, and a return stops it. -/
theorem test_line_changes :
    (after (.presenceLineChange .A true) State.reset).bays.a.state = .seating
      ∧ (after (.presenceLineChange .A false) (withBays true .online .empty)).bays.a.presDeb = some 50
      ∧ (after (.latchLineChange .A false) (withBays true .online .empty)).bays.a.latchDeb = some 20
      ∧ (after (.latchLineChange .A true) (latchOpens (withBays true .online .empty))).bays.a.latchDeb = none := by decide

/-- R19, R23: a seated pack with its latch closed and no probe code comes ONLINE with INSERTION; with the window open a loss is a jolt. -/
theorem test_presence_debounce_expiry :
    (after (.presenceDebounceExpiry .A) (packComes (withBays true .seating .empty))).bays.a.state = .online
      ∧ (after (.presenceDebounceExpiry .A) (packLeaves (withBays true .online .empty))).bays.a.state = .empty
      ∧ (after (.presenceDebounceExpiry .A) (packLeaves (inWindow .open (withBays true .online .empty)))).bays.a.state = .jolt := by decide

/-- R26, R29, R40: a latch-open of an ONLINE bay. -/
theorem test_latch_debounce_expiry :
    (after (.latchDebounceExpiry .A) (latchOpens (withBays true .online .empty))).bays.a.lastHandover = .plain
      ∧ (after (.latchDebounceExpiry .A) (latchOpens (withBays false .online .empty))).bays.a.refusal = .noSource
      ∧ (after (.latchDebounceExpiry .A) (latchOpens (inWindow .holding (withBays true .online .empty)))).bays.a.deferred = true := by decide

/-- R12, R9: BRIDGE_READY is recorded, and the bridge run expires. -/
theorem test_bridge_rows :
    (after (.bridgeReadyChange true) State.reset).pp.bridgeReady = true
      ∧ (after .bridgeExpiry (bridged 20000 State.reset)).pp.pfail = true
      ∧ headDetail (after .bridgeExpiry (bridged 20000 State.reset)) = some (.bridgeLow, dRunTimer 20000) := by decide

/-- R34: the jolt hold runs out. -/
theorem test_jolt_hold_expiry :
    let s := updBay .A (fun b => { b with state := .jolt, jolt := some { earlier := .online, serial := some 7, hold := .running 0 } }) State.reset
    (after (.joltHoldExpiry .A) s).bays.a.state = .empty
      ∧ (after (.joltHoldExpiry .A) s).bays.a.context = some { serial := some 7, departure := 0 } := by decide

/-- R38, R188, R94. -/
theorem test_time_rows :
    (after (.contextWindowExpiry .A) { updBay .A (fun b => { b with context := some { serial := none, departure := 0 } }) State.reset with
        time := { uptime := 600, ageMs := 0, secondMs := 0 } }).bays.a.context = none
      ∧ (after .uptimeTick State.reset).time.uptime = 1
      ∧ (after .uptimeTick { State.reset with time := { uptime := 4294967295, ageMs := 0, secondMs := 0 } }).time.uptime = 4294967295
      ∧ ((after .ageTick (cached 254 State.reset)).cache.map fun cs => cs.l0.age)
          = [0, 0, 0, 0, 0, 255, 0, 0, 0, 0, 0, 0, 0, 0, 0, 0] := by decide

/-- R60, R61: the poll of a ring of one code. -/
theorem test_poll_rows :
    let s := updRelay .A (fun r => { r with ring := [5] }) (mapped voltsEntry (withBays true .online .empty))
    let p := after .pollPeriodExpiry s
    p.relays.a.pollDue = true ∧ p.pollTimer = 250 ∧ (after (.pollStart .A) p).relays.a.link.map PackTx.timeout = some 25
      ∧ ((after (.pollStart .A) p).relays.a.poll.map fun q => (q.attempts, q.gov.tag)) = some (1, .voltage)
      ∧ ((after (.pollRetry .A) (after (.linkTimeout .A) (after (.pollStart .A) p))).relays.a.poll.map Poll.attempts) = some 2 := by decide

/-- R62: the one read of a probe, and the admission that ends it. -/
theorem test_probe_and_transaction_end :
    let s := probing [.voltage] 0 (withBays true .probing .empty)
    let r := after (.probeReadStart .A) s
    r.relays.a.link.map PackTx.purpose = some .probe ∧ (after (.packTransactionEnd .A (.value 0xE0 0x2E)) r).bays.a.state = .online
      ∧ (after (.packTransactionEnd .A (.value 0xE0 0x2E)) r).relays.a.snap.voltage = some 12000
      ∧ (after (.packTransactionEnd .A (.value 0 0)) r).bays.a.faultReason = .admission
      ∧ (after (.linkTimeout .A) r).relays.a.failCount = 1 := by decide

/-- R57: the link takes its slot. -/
theorem test_slot_transaction_start :
    let q : Request := { kind := .readBlock, code := 9, payload := [], gov := govOf .none }
    let t := after (.slotTransactionStart .A) (updRelay .A (fun r => { r with slot := some q }) (withBays true .online .empty))
    t.relays.a.slot = none ∧ t.relays.a.link.map PackTx.req = some q := by decide

/-- R66, R67. -/
theorem test_link_recover_rows :
    let t := after (.linkRecover [0]) (withBays true .online .empty)
    t.relays.a.recover = .running ∧ result t = some (bareFrame .accepted)
      ∧ headDetail (after (.linkRecoverEnd .A (some 16)) t) = some (.linkDone .A, dRecoverOk)
      ∧ headDetail (after (.linkRecoverEnd .A none) t) = some (.linkDone .A, dRecoverFail)
      ∧ (after (.linkRecoverBegin .A) (updRelay .A (fun r => { r with recover := .waiting }) t)).relays.a.recover = .running := by decide

/-- R124 to R130: a light sample of 10,000 lux after POR on external supply: S rises by a quarter of the way, O by SLEW_UP at most. -/
theorem test_light_sample :
    let t := after (.lightSample 0x10 0x27 0) (after (.powerOnReset ⟨false, false, false, false, true, false⟩) State.reset)
    t.pipe.l = 10000 ∧ t.pipe.t = 400 ∧ t.pipe.s = 5200 ∧ t.pipe.d = 325 ∧ t.pipe.o = 325
      ∧ (after (.lightSample 0 0 1) State.reset).pipe.l = 65535 := by decide

/-- R142, R143: low samples raise the run count, and an impact in FALLING is counted, with the manual's peak sample (2047, 300, -900). -/
theorem test_motion_sample :
    (after (.motionSample 0 0 0 0 0 0) State.reset).motion.run = 1
      ∧ (after (.motionSample 0xFF 0x07 0x2C 0x01 0x7C 0xFC) (detecting .falling 160 State.reset)).motion.peak = 5090209
      ∧ (after (.motionSample 0xFF 0x07 0x2C 0x01 0x7C 0xFC) (detecting .falling 160 State.reset)).motion.saturated = true := by decide

/-- R121: a discarded frame and a gap change nothing. -/
theorem test_discards :
    after (.frameDiscard 0x32 [1, 2]) State.reset = State.reset ∧ after (.laneGapDiscard [0x26, 1]) { State.reset with lane := [0x26, 1] } = State.reset := by
  decide

/-- R147, R148. -/
theorem test_stall_and_hold :
    let t := after .stallTimeout (detecting .falling 160 State.reset)
    (t.log.records.map fun r => (r.seq, r.height, r.ending)) = [(1, 784, .stalled)] ∧ t.motion.window = .holding
      ∧ t.motion.hold = some 300 ∧ (after .windowHoldExpiry t).motion.window = .closed := by decide

/-- R167 to R171, R176: words are written, a check finds the lowest blank word, and an EMPTY region reads as zeros. -/
theorem test_table_rows :
    let w := after (.tableWrite [3, 0, 1, 0x90, 0x01, 0, 0]) State.reset
    let c := after (.tableCheck [3]) { w with port := State.reset.port }
    result w = some (okFrame [8]) ∧ w.tables.motion.words = [(0, 400)] ∧ c.tables.motion.state = .checking
      ∧ headDetail (after (.tableCheckEnd .motion) c) = some (.tableDone .motion, dFailBlank 1)
      ∧ result (after (.tableRead [2, 0, 1]) State.reset) = some (okFrame [1, 0, 0, 0, 0])
      ∧ result (after (.tableLock [2]) State.reset) = some (bareFrame .state)
      ∧ (after (.tableClear [3]) { w with port := State.reset.port }).tables = State.reset.tables := by decide

/-- R48 to R53, R73 to R75: a read of a value from its address byte to the link. -/
theorem test_platform_read :
    let a := after (.platformAddress 0x2A false) (withBays true .online .empty)
    let c := after (.codeByteCheck 5) a
    let p := after (.permitCheck (.readAddress 0x2A)) c
    let f := after (.readValue 2) p
    a.upstream.answer = .acknowledged ∧ c.upstream.answer = .acknowledged ∧ f.upstream.answer = .stretched
      ∧ (after (.packTransactionEnd .A (.value 0x34 0x12)) f).upstream.answer = .data [0x34, 0x12]
      ∧ (after (.readValue 3) (upAt (.directed false 5 false) (cached 2 (mapped voltsEntry (withBays true .online .empty))))).upstream.answer
          = .data [0xE0, 0x2E, 0xFF] := by decide

/-- R49, R53: the other forwarding rows, and the early ends. -/
theorem test_platform_writes_and_ends :
    let s := withBays true .online .empty
    (after (.writeValue 1 2) (upAt (.directed false 5 true) s)).relays.a.link.map (fun t => t.req.payload) = some [1, 2]
      ∧ (after (.readBlock 4) (upAt (.directed true 5 false) s)).relays.a.link.isSome = true
      ∧ (after (.writeBlock [7]) (upAt (.directed true 5 true) s)).relays.a.link.map (fun t => t.req.payload) = some [1, 7]
      ∧ (after (.writeBlockLengthRefuse 33) (upAt (.directed true 5 true) s)).upstream = { tx := none, answer := .refused }
      ∧ (after .transactionAbandon (upAt .addressed s)).upstream.tx = none := by decide

/-- R183, R185, R187: the result slot. -/
theorem test_result_slot :
    let t := after (.invalidCommand 0x7F [1]) State.reset
    result t = some (bareFrame .invalid) ∧ (after (.resultRead 2) t).upstream.answer = .data [0x01, 0x03]
      ∧ (after (.resultRead 2) t).port.slot = .empty ∧ (after (.resultRead 1) t).port.slot = t.port.slot
      ∧ (after (.powerQuery []) t).upstream.answer = .refused := by decide

/-- R188, R200, R202: Identify, Sense Attention and the flags. -/
theorem test_identify_attention_and_flags :
    result (after (.identify []) State.reset) = some (okFrame [0x40, 0x52, 0x01, 0, 0, 0, 0, 0, 0, 0, 0])
      ∧ result (after (.senseAttention []) State.reset) = some (bareFrame .empty)
      ∧ result (after (.senseAttention []) (post .drop (dStored 258) State.reset)) = some (okFrame [9, 0, 1, 0, 0, 0, 0, 0, 2, 1])
      ∧ result (after (.flagSet [4]) State.reset) = some (okFrame [0]) ∧ (after (.flagSet [4]) State.reset).flags.sem0 = true
      ∧ result (after (.flagTest [2]) State.reset) = some (okFrame [0])
      ∧ (after (.flagToggle [3]) State.reset).flags.holdCurve = true
      ∧ (after (.flagClear [3]) { State.reset with flags := flagPut flagsClear 3 true }).flags = flagsClear := by decide

/-- R189: a software reset of a locked and an unlocked region. -/
theorem test_reset_part :
    let s := mapped voltsEntry { State.reset with port := { slot := .empty, resetSeen := false } }
    (after (.resetPart []) s).tables.codemap.state = .empty ∧ (after (.resetPart []) s).port = { slot := .empty, resetSeen := true } := by decide

/-- R13, R117, R135, R158: the queries after reset. -/
theorem test_queries :
    result (after (.powerQuery []) (withBays true .online .empty)) = some (okFrame [1, 2, 2, 0, 0, 0, 0, 0])
      ∧ (result (after (.budgetQuery []) State.reset)).map (fun f => f.data.drop 18)
          = some [0, 0, 0, 0, 0x40, 0xA2, 0xFF, 0xFF, 20, 0, 20, 0]
      ∧ result (after (.brightnessQuery []) State.reset) = some (okFrame
          [0, 0xF4, 0x01, 0xE8, 0x03, 0, 0, 20, 0, 0x40, 0x01, 20, 0, 20, 0, 20, 0, 0])
      ∧ (result (after (.dropStateQuery []) State.reset)).map (fun f => f.data.length) = some 21
      ∧ (result (after (.bayQuery [0]) State.reset)).map (fun f => f.data.length) = some 52 := by decide

/-- R43 to R45: the bay commands. -/
theorem test_bay_commands :
    result (after (.bayRelease [0]) (withBays true .online .empty)) = some (okFrame [1])
      ∧ result (after (.bayReturn [0]) (withBays true .releasing .empty)) = some (okFrame [4])
      ∧ result (after (.bayProbe [0]) (mapped voltsEntry (withBays true .standby .empty))) = some (bareFrame .accepted)
      ∧ (after (.bayProbe [0]) (mapped voltsEntry (withBays true .standby .empty))).bays.a.state = .probing := by decide

/-- R102, R103: flush and inspect. -/
theorem test_cache_commands :
    result (after (.cacheFlush [0]) (cached 3 State.reset)) = some (okFrame [1])
      ∧ result (after (.cacheInspect [5, 0]) (cached 3 State.reset)) = some (okFrame [1, 0, 5, 0xE0, 0x2E, 0, 3, 0])
      ∧ result (after (.cacheInspect [5, 1]) State.reset) = some (okFrame [0, 0, 0, 0, 0, 0, 0, 0]) := by decide

/-- R134, R159, R160. -/
theorem test_brightness_set_and_drop_log :
    result (after (.brightnessSet [1, 0, 0, 0x1E, 0]) State.reset) = some (okFrame [1, 20, 0, 30, 0, 20, 0])
      ∧ result (after (.dropLogRead [0]) State.reset) = some (bareFrame .empty)
      ∧ (result (after (.dropLogRead [0]) (after .stallTimeout (detecting .falling 160 State.reset)))).map (fun f => f.data)
          = some [1, 0, 0, 160, 0, 0x10, 0x03, 0, 0, 4, 0, 0, 0, 0, 0, 0]
      ∧ result (after (.dropLogClear []) (after .stallTimeout (detecting .falling 160 State.reset))) = some (okFrame [1]) := by decide

/-! ### A state for the hypotheses of each statement -/

/-- Both bays ONLINE and STANDBY on external supply, with a row waiting. -/
def waiting (i : Instr) : State := { withBays true .online .standby with pending := [i] }

/-- The link action of bay `x` as the statement of the tick spells it. -/
def dueOf (s : State) (x : BayId) : List Instr :=
  if (s.relays.get x).slot ≠ none ∧ (s.relays.get x).link = none then [.slotTransactionStart x]
  else if (s.relays.get x).recover = .waiting ∧ (s.relays.get x).link = none then [.linkRecoverBegin x]
  else if (s.bays.get x).state = .probing ∧ (s.relays.get x).link = none ∧ (s.relays.get x).slot = none
      ∧ ((s.relays.get x).probe.bind fun p => p.reads.head?) ≠ none then [.probeReadStart x]
  else if (s.relays.get x).poll ≠ none ∧ (s.relays.get x).link.map PackTx.purpose ≠ some .poll
      ∧ (((s.relays.get x).link = none ∧ (s.relays.get x).slot = none) ∨ steady (s.bays.get x).state = false
          ∨ (s.relays.get x).recover ≠ .notRunning) then [.pollRetry x]
  else if (s.relays.get x).pollDue = true ∧ (s.relays.get x).link = none ∧ (s.relays.get x).slot = none
      ∧ (s.relays.get x).ring[(s.relays.get x).ptr]? ≠ none then [.pollStart x]
  else []

theorem test_witness_EmptyQueueIsOneTick :
    let s := ready (withBays true .online .empty)
    let h := jolted { earlier := .online, serial := none, hold := .running 1 } { s with time := { s.time with secondMs := 999 } }
    (s.pending = [] ∧ dueOf s .A ++ dueOf s .B = [])
      ∧ dueOf (probing [.voltage] 0 (withBays true .probing .empty)) .A = [.probeReadStart .A]
      ∧ dueOf (updRelay .A (fun r => { r with pollDue := true, ring := [5] }) s) .A = [.pollStart .A]
      ∧ dueOf (updRelay .A (fun r => { r with recover := .waiting }) s) .A = [.linkRecoverBegin .A]
      ∧ dueOf (updRelay .A (fun r => { r with poll := some { code := 5, gov := govOf .none, attempts := 1 } }) s) .A = [.pollRetry .A]
      ∧ dueOf (updRelay .A (fun r => { r with slot := some { kind := .readValue, code := 5, payload := [], gov := govOf .none } }) s) .A
          = [.slotTransactionStart .A]
      ∧ (h.pending = [] ∧ dueOf h .A ++ dueOf h .B = []
          ∧ (tick h).pending = [.joltHoldExpiry .A, .uptimeTick, .contextWindowExpiry .A, .contextWindowExpiry .B]) := by decide

theorem test_witness_LawsHoldAfterReset : ∃ t, exec (.powerOnReset ⟨true, true, true, true, true, true⟩) State.reset = .next t := ⟨_, rfl⟩

theorem test_witness_EveryStepKeepsThePowerAttentionLogAndMotionLaws :
    powerLaw (waiting .ageTick).pp ∧ attnLaw (waiting .ageTick).attn ∧ logLaw (waiting .ageTick).log ∧ motionLaw (waiting .ageTick).motion
      ∧ ∃ t, step (waiting .ageTick) = .next t := by
  unfold powerLaw attnLaw logLaw motionLaw
  refine ⟨by decide, by decide, by decide, by decide, ⟨_, rfl⟩⟩

theorem test_witness_EveryStepKeepsTheCacheLaw :
    cacheLaw (cached 3 (waiting .ageTick)).cache ∧ freshLaw (cached 3 (waiting .ageTick)) ∧ ∃ t, step (cached 3 (waiting .ageTick)) = .next t := by
  refine ⟨⟨by decide, fun i h => ?_⟩, fun x h => ?_, ⟨_, rfl⟩⟩
  · unfold setLaw lineLaw apart
    refine ⟨?_, ?_, ?_, ?_, ?_, ?_, ?_, ?_, ?_, ?_⟩ <;> revert i <;> decide
  · cases x <;> exact absurd h (by decide)

theorem test_witness_EveryStepKeepsTablesOutputAndCounts :
    tablesLaw (waiting .ageTick).tables ∧ outputLaw (waiting .ageTick) ∧ countLaw (waiting .ageTick) ∧ ∃ t, step (waiting .ageTick) = .next t := by
  unfold tablesLaw regionLaw outputLaw countLaw
  refine ⟨by decide, by decide, by decide, ⟨_, rfl⟩⟩

theorem test_witness_EveryStepKeepsTheBudgetCurrent :
    budgetLaw (waiting (.extPresentChange false)) ∧ ∃ t, step (waiting (.extPresentChange false)) = .next t := ⟨by unfold budgetLaw; decide, ⟨_, rfl⟩⟩

theorem bays_lawful (a b : BayState) (ha : a ∈ [BayState.empty, .online, .standby, .releasing, .faulted])
    (hb : b ∈ [BayState.empty, .online, .standby, .releasing, .faulted]) (ext : Bool) (x : BayId) : bayLaw (withBays ext a b) x := by
  unfold bayLaw
  simp only [List.mem_cons, List.not_mem_nil, or_false] at ha hb
  rcases ha with h | h | h | h | h <;> rcases hb with g | g | g | g | g <;> subst h <;> subst g <;> cases ext <;> cases x <;> decide

theorem test_witness_EveryStepKeepsTheBayLaw :
    (∀ x, bayLaw (waiting .ageTick) x) ∧ ∃ t, step (waiting .ageTick) = .next t :=
  ⟨bays_lawful .online .standby (by decide) (by decide) true, ⟨_, rfl⟩⟩

theorem test_witness_BothSwitchesTurnOnOnlyByTheParallelingRule :
    let s := latchCloses (volts 12000 12100 (withBays true .standby .online))
    ((∀ x, bayLaw { s with pending := [.latchDebounceExpiry .A] } x) ∧ (∀ x, switchLaw { s with pending := [.latchDebounceExpiry .A] } x)
        ∧ ∃ t, step { s with pending := [.latchDebounceExpiry .A] } = .next t)
      ∧ ∃ t, exec (.latchDebounceExpiry .A) s = .next t ∧ t.pp.sw.a = .on ∧ t.pp.sw.b = .on ∧ s.pp.sw.a = .off := by
  unfold bayLaw switchLaw
  exact ⟨⟨fun x => (by cases x <;> decide), fun x => (by cases x <;> decide), ⟨_, rfl⟩⟩, ⟨_, rfl, by decide, by decide, by decide⟩⟩

theorem test_witness_LockedAndServingRegionsKeepTheirWords :
    let s := { State.reset with tables := { State.reset.tables with curve := { state := .inService, lock := true, words := [(0, 2)] } } }
    (s.tables.get .curve).lock = true ∧ (s.tables.get .curve).state = .inService
      ∧ ∃ t, exec (.resetPart []) s = .next t ∧ (t.tables.get .curve).state = .inService := by
  exact ⟨rfl, rfl, ⟨_, rfl, by decide⟩⟩

theorem test_witness_NoRowTurnsOffTheLastSource :
    anyConducts (withBays false .online .empty) = true
      ∧ ∃ t, exec (.presenceDebounceExpiry .A) (packLeaves (withBays false .online .empty)) = .next t := ⟨by decide, ⟨_, rfl⟩⟩

theorem test_witness_TheDropWindowHoldsAndDefers :
    let s := inWindow .open (withBays true .online .standby)
    (s.motion.window ≠ .closed ∧ (s.bays.get .A).state = .online ∧ (∃ t, exec (.bayRelease [0]) s = .next t)
        ∧ (∃ t, exec (.latchLineChange .A false) s = .next t) ∧ ∃ t, exec (.latchDebounceExpiry .A) s = .next t)
      ∧ (presenceTurns (packLeaves s) .A false ∧ ∃ t, exec (.presenceDebounceExpiry .A) (packLeaves s) = .next t)
      ∧ (holdSwap s .A = false ∧ latchTurns (latchOpens s) .A false ∧ accepts s ∧ bayOfByte 0 = some .A) := by
  unfold presenceTurns latchTurns accepts
  exact ⟨⟨by decide, by decide, ⟨_, rfl⟩, ⟨_, rfl⟩, ⟨_, rfl⟩⟩, ⟨by decide, ⟨_, rfl⟩⟩, by decide⟩

theorem test_witness_WhatEachRowLeavesAlone :
    completed .ageTick State.reset = none ∧ (∃ t, exec .ageTick State.reset = .next t) ∧ (∀ l, Instr.ageTick ≠ .powerOnReset l) ∧ (∀ v, Instr.ageTick ≠ .presenceLineChange .A v)
      ∧ Instr.ageTick ≠ .latchDebounceExpiry .A ∧ Instr.ageTick ≠ .presenceDebounceExpiry .A
      ∧ (∃ t, exec (.presenceLineChange .A true) State.reset = .next t) ∧ (∃ t, exec (.brightnessSet [0, 0, 0, 0, 0]) State.reset = .next t)
      ∧ (∃ t, exec (.bridgeReadyChange true) State.reset = .next t) ∧ (∃ t, exec (.lightSample 0 0 0) State.reset = .next t)
      ∧ ∃ t, exec (.uptimeTick) State.reset = .next t :=
  ⟨rfl, ⟨_, rfl⟩, fun _ h => (by cases h), fun _ h => (by cases h), by decide, by decide, ⟨_, rfl⟩, ⟨_, rfl⟩, ⟨_, rfl⟩, ⟨_, rfl⟩, ⟨_, rfl⟩⟩

theorem test_witness_ExtPresentRisesAndFalls :
    let held := { bridged 5 (withBays false .standby .empty) with
      pp := { (bridged 5 (withBays false .standby .empty)).pp with held := ⟨true, false⟩, sw := ⟨.on, .off⟩ } }
    (held.pp.ext = false ∧ held.pp.bridge ≠ .idle ∧ held.pp.held.get .A = true ∧ (held.bays.get .A).state ≠ .online)
      ∧ (withBays true .online .empty).pp.ext = true ∧ conductsBay (withBays true .online .empty) .A = true
      ∧ (conductsBay (withBays true .empty .standby) .A = false ∧ conductsBay (withBays true .empty .standby) .B = false
          ∧ conductsBridge (withBays true .empty .standby) = false ∧ takeOverBay (withBays true .empty .standby) = some .B
          ∧ takeOverBay (withBays true .empty .empty) = none ∧ bridgeCanStart (withBays true .empty .empty) = false
          ∧ bridgeCanStart (ready (withBays true .empty .empty)) = true) := by decide

theorem test_witness_ChoicesOfABay :
    let s := volts 12000 12001 (withBays false .standby .standby)
    let o := volts 12000 12001 (withBays false .online .online)
    (canTakeOver s .A = true ∧ canTakeOver s .B = true ∧ takeOverBay s = some .B ∧ takeOverBay (volts 12000 12000 s) = some .A
        ∧ takeOverBay (withSnap .B Snapshot.absent s) = some .A ∧ takeOverBay (withSnap .A Snapshot.absent s) = some .B)
      ∧ ((o.pp.sw.get (BayId.other .A) = .on ∧ (o.bays.get (BayId.other .A)).presence = true) ∧ parallelAllows .A o = true
          ∧ parallelAllows .A (volts 12000 12200 o) = true ∧ parallelAllows .A (volts 12000 12201 o) = false
          ∧ ¬ (s.pp.sw.get (BayId.other .A) = .on ∧ (s.bays.get (BayId.other .A)).presence = true))
      ∧ (activeCandidate s .A = false ∧ activeCandidate s .B = false ∧ activeCandidate (withBays false .online .empty) .A = true
          ∧ activeCandidate (withBays false .online .empty) .B = false ∧ activeCandidate (withBays false .empty .online) .B = true
          ∧ chooseActive o = some .B ∧ chooseActive (withBays false .online .online) = some .A
          ∧ chooseActive (withSnap .A { Snapshot.absent with remaining := some 5 }
              (withSnap .B { Snapshot.absent with remaining := some 4, voltage := some 1 } o)) = some .A) := by decide

theorem test_witness_BridgeReadyAndExpiry :
    State.reset.pp.bridge ≠ .running ∧ (bridged 20000 State.reset).pp.bridge = .running ∧ State.reset.tables.config.state ≠ .inService := by
  decide

theorem test_witness_LinesAreDebouncedAndLatchesRecorded :
    let s := withBays true .standby .empty
    ((s.bays.get .A).latchLine = true ∧ (s.bays.get .A).presLine = true ∧ (s.bays.get .A).state ≠ .empty ∧ (s.bays.get .A).state ≠ .seating
        ∧ (s.relays.get .A).link = none ∧ (s.relays.get .A).recover = .notRunning
        ∧ ((packLeaves s).bays.get .A).presLine = !true ∧ ((packLeaves s).bays.get .A).state ≠ .empty)
      ∧ ((s.bays.get .A).latchDeb = none ∧ (s.bays.get .A).latchLine = (s.bays.get .A).latch)
      ∧ (latchTurns (latchCloses (withBays true .faulted .empty)) .A true ∧ latchTurns (latchOpens s) .A false
          ∧ (withBays true .faulted .empty).bays.a.state ≠ .standby ∧ (withBays true .faulted .empty).bays.a.state ≠ .releasing)
      ∧ (latchTurns (latchCloses s) .A true ∧ parallelAllows .A (latchCloses s) = true
          ∧ parallelAllows .A (latchCloses (withBays true .standby .online)) = false)
      ∧ (latchTurns (latchCloses (withBays true .releasing .online)) .A true
          ∧ parallelAllows .A (latchCloses (withBays true .releasing .empty)) = true
          ∧ parallelAllows .A (latchCloses (withBays true .releasing .online)) = false)
      ∧ ((inFlight .readValue .platform .none [] s).bays.get .A).presLine = true
      ∧ ((inFlight .readValue .platform .none [] s).relays.get .A).link.map PackTx.purpose = some .platform
      ∧ ((inFlight .readValue .poll .none [] s).relays.get .A).link.map PackTx.purpose = some .poll
      ∧ ((updRelay .A (fun r => { r with recover := .running }) s).relays.get .A).recover ≠ .notRunning := by
  unfold latchTurns
  decide

theorem test_witness_SeatingBeginsAndEnds :
    let e := withBays true .empty .empty
    let s := updBay .A (fun b => { b with state := .seating, presLine := true, presDeb := some 0 }) e
    let p := fun (ext : Bool) (o : BayState) => ({ withBays ext .seating o with pp := { (withBays ext .seating o).pp with sw := ⟨.passive, .off⟩ } } : State)
    ((e.bays.get .A).state = .empty ∧ (e.bays.get .A).presLine = false ∧ (e.bays.get .A).presence = false)
      ∧ ((s.bays.get .A).state = .seating ∧ (s.bays.get .A).presLine = true ∧ (s.bays.get .A).presence = false ∧ (s.relays.get .A).link = none
          ∧ (s.relays.get .A).recover = .notRunning ∧ (s.relays.get .A).probe = none ∧ (s.relays.get .A).pollDue = false
          ∧ (s.relays.get .A).poll = none ∧ budgetLaw s ∧ outputLaw s)
      ∧ (s.bays.get .A).presDeb.isSome = true ∧ probeReads s = [] ∧ probeReads (mapped voltsEntry s) ≠ []
      ∧ (∀ g ∈ [p true .empty, p false .standby, p false .empty, ready (p false .empty)], (g.bays.get .A).state = .seating
          ∧ (g.bays.get .A).presLine = true ∧ (g.bays.get .A).presence = true ∧ g.pp.sw.get .A ≠ .off)
      ∧ (otherConducts (p true .empty) .A = true ∧ otherConducts (p false .standby) .A = false ∧ canTakeOver (p false .standby) .B = true
          ∧ otherConducts (p false .empty) .A = false ∧ canTakeOver (p false .empty) .B = false ∧ bridgeCanStart (p false .empty) = false
          ∧ bridgeCanStart (ready (p false .empty)) = true ∧ otherConducts (ready (p false .empty)) .A = false
          ∧ canTakeOver (ready (p false .empty)) .B = false) := by
  unfold budgetLaw outputLaw
  decide

theorem test_witness_JoltedPackReturnsOrExpires :
    let s := mapped voltsEntry (packComes (jolted { earlier := .online, serial := none, hold := .running 0 } (withBays true .online .empty)))
    let d := fun (o : BayState) => packComes (jolted { earlier := .online, serial := some 7, hold := .running 0 } (withBays true .online o))
    let h := { d .faulted with pp := { (d .faulted).pp with sw := ⟨.on, .on⟩, held := ⟨false, true⟩ } }
    (presenceTurns s .A true ∧ (s.bays.get .A).state = .jolt ∧ probeReads s ≠ [] ∧ s.pp.held.get .A = false)
      ∧ (∀ t ∈ [d .empty, d .online, h], presenceTurns t .A true ∧ (t.bays.get .A).state = .jolt ∧ probeReads t = [] ∧ (t.bays.get .A).latch = true)
      ∧ ((d .empty).pp.sw.get (BayId.other .A) ≠ .on)
      ∧ ((d .online).pp.sw.get (BayId.other .A) = .on ∧ ((d .online).bays.get (BayId.other .A)).presence = true
          ∧ (d .online).pp.held.get (BayId.other .A) = false)
      ∧ (h.pp.held.get (BayId.other .A) = true ∧ (h.bays.get (BayId.other .A)).state ≠ .online ∧ h.pp.sw.get .A ≠ .off ∧ h.pp.held.get .A = false)
      ∧ holdRuns (s.bays.get .A) = true ∧ holdRuns (State.reset.bays.get .A) = false := by
  unfold presenceTurns
  decide

theorem test_witness_LossInTheWindowIsAJolt :
    let s := packLeaves (inWindow .holding (withBays true .online .empty))
    let p := packLeaves (inWindow .open (updBay .A (fun b => { b with probeCause := .bayProbe }) (withBays true .probing .empty)))
    let r := updRelay .A (fun r => { r with recover := .running }) s
    (presenceTurns s .A false ∧ s.motion.window ≠ .closed ∧ (s.bays.get .A).state = .online ∧ s.pp.held.get .A = false)
      ∧ (presenceTurns p .A false ∧ p.motion.window ≠ .closed ∧ (p.bays.get .A).state = .probing ∧ (p.bays.get .A).probeCause = .bayProbe)
      ∧ (presenceTurns r .A false ∧ r.motion.window ≠ .closed ∧ (r.relays.get .A).recover ≠ .notRunning ∧ (r.bays.get .A).state = .online) := by
  unfold presenceTurns
  decide

theorem test_witness_LossOutsideTheWindow :
    let s := packLeaves (withBays false .online .standby)
    let f := packLeaves (withBays true .faulted .empty)
    let l := packLeaves (withBays true .releasing .empty)
    let p := packLeaves (updBay .A (fun b => { b with probeCause := .bayProbe }) (withBays true .probing .empty))
    let e := packLeaves (ready (withBays false .online .empty))
    (presenceTurns s .A false ∧ s.motion.window = .closed ∧ steady (s.bays.get .A).state = true ∧ (s.bays.get .A).state = .online
        ∧ s.pp.sw.get .A ≠ .off ∧ s.pp.ext = false ∧ conductsBay s .B = false ∧ conductsBridge s = false ∧ canTakeOver s .B = true)
      ∧ (presenceTurns f .A false ∧ f.motion.window = .closed ∧ (f.bays.get .A).state = .faulted ∧ steady (f.bays.get .A).state = false)
      ∧ (presenceTurns (inWindow .open f) .A false ∧ ((inWindow .open f).bays.get .A).state = .faulted
          ∧ presenceTurns (inWindow .open l) .A false ∧ ((inWindow .open l).bays.get .A).state = .releasing
          ∧ steady ((inWindow .open l).bays.get .A).state = true)
      ∧ (presenceTurns p .A false ∧ p.motion.window = .closed ∧ (p.bays.get .A).state = .probing ∧ (p.bays.get .A).probeCause = .bayProbe)
      ∧ (presenceTurns e .A false ∧ e.pp.ext = false ∧ canTakeOver e .B = false ∧ bridgeCanStart e = true ∧ conductsBay e .B = false) := by
  unfold presenceTurns
  decide

theorem test_witness_ContextWindowUptimeAndAge :
    let s := updBay .A (fun b => { b with context := some { serial := none, departure := 0 } }) State.reset
    (∀ c, (s.bays.get .A).context = some c → s.time.uptime - c.departure < reinsertWindow s)
      ∧ (({ s with time := { s.time with uptime := 600 } } : State).bays.get .A).context = some { serial := none, departure := 0 }
      ∧ reinsertWindow s ≤ 600 - 0 := by
  refine ⟨fun c h => ?_, by decide⟩
  cases h
  decide

/-! Handover: ONLINE bay A against each case of R26. -/

theorem test_witness_RefusedHandovers :
    let held := { withBays true .online .empty with flags := flagPut flagsClear 0 true }
    let low := withSnap .B { Snapshot.absent with voltage := some 10000, maxDischarge := some 100 } (withBays false .online .online)
    let apart := volts 12000 13000 (withBays false .online .standby)
    let alone := withBays false .online .empty
    ((refusalCase held .A .held ∧ (held.bays.get .A).state = .online) ∧ (refusalCase low .A .lowBudget ∧ (low.bays.get .A).state = .online)
        ∧ (refusalCase apart .A .mismatch ∧ (apart.bays.get .A).state = .online)
        ∧ (refusalCase alone .A .noSource ∧ (alone.bays.get .A).state = .online))
      ∧ latchTurns (latchOpens alone) .A false ∧ refusalCase (latchOpens alone) .A .noSource ∧ accepts alone ∧ bayOfByte 0 = some .A := by
  unfold refusalCase swapFree otherSource packAlternative latchTurns accepts
  decide

theorem test_witness_HandoversCarriedOut :
    let close := volts 12000 12200 (withBays false .online .standby)
    let apart := volts 12000 13000 (withBays false .online .standby)
    handoverCase (withBays true .online .empty) .A .plain ∧ handoverCase close .A .makeFirst
      ∧ handoverCase (configured 6 1 (bridged 5 apart)) .A .breakFirst ∧ handoverCase (ready apart) .A .bridgeThrough
      ∧ handoverCase (ready (withBays false .online .empty)) .A .bridgeHold
      ∧ (∀ x, bayLaw (withBays false .online .standby) x) ∧ accepts close ∧ bayOfByte 0 = some .A
      ∧ handoverCase (latchOpens close) .A .makeFirst ∧ latchTurns (latchOpens close) .A false
      ∧ ¬ (((ready (withBays false .online .empty)).bays.get .B).state = .standby ∧ ((ready (withBays false .online .empty)).bays.get .B).latch
          = true) := by
  refine ⟨?_, ?_, ?_, ?_, ?_, bays_lawful .online .standby (by decide) (by decide) false, ?_⟩
  all_goals
    unfold handoverCase swapFree otherSource packAlternative
    try unfold accepts latchTurns
    decide

theorem test_witness_BayReturnAndBayProbe :
    let r := withBays true .releasing .empty
    let p := mapped voltsEntry (withBays true .faulted .empty)
    let u := withSnap .A { Snapshot.absent with voltage := some 8700 } (withBays true .faulted .empty)
    (∀ s ∈ [withBays true .standby .empty, withBays true .standby .online, u], bayOfByte 0 = some .A ∧ accepts s
        ∧ ((s.bays.get .A).state = .faulted ∨ (s.bays.get .A).state = .standby) ∧ background s .A = false ∧ probeReads s = [])
      ∧ (admissionOk (withBays true .standby .empty) .A = true ∧ parallelAllows .A (withBays true .standby .empty) = true
          ∧ parallelAllows .A (withBays true .standby .online) = false ∧ admissionOk u .A = false)
      ∧ (bayOfByte 0 = some .A ∧ accepts r ∧ (r.bays.get .A).state ≠ .online ∧ (r.bays.get .A).state = .releasing ∧ (r.bays.get .A).latch = true
        ∧ parallelAllows .A r = true ∧ parallelAllows .A (withBays true .releasing .online) = false)
      ∧ (accepts p ∧ ¬ ((p.bays.get .A).state = .releasing ∧ (p.bays.get .A).latch = true) ∧ (p.bays.get .A).state = .faulted
          ∧ background p .A = false ∧ probeReads p ≠ [] ∧ background (updRelay .A (fun r => { r with recover := .running }) p) .A = true) := by
  unfold accepts
  decide

/-! Polls, probes, the slot and pack transactions. -/

theorem test_witness_PollsComeDueStartAndRetry :
    let s := updRelay .A (fun r => { r with ring := [5] }) (withBays true .online .empty)
    let d := updRelay .A (fun r => { r with pollDue := true }) s
    let p := updRelay .A (fun r => { r with poll := some { code := 5, gov := govOf .none, attempts := 1 } }) s
    (becomesDue s .A ∧ ¬ becomesDue s .B)
      ∧ ((d.relays.get .A).pollDue = true ∧ (d.relays.get .A).link = none ∧ (d.relays.get .A).slot = none
          ∧ (d.relays.get .A).ring[(d.relays.get .A).ptr]? = some 5 ∧ (s.relays.get .A).pollDue = false
          ∧ (s.relays.get .B).ring[(s.relays.get .B).ptr]? = none)
      ∧ ((s.relays.get .A).poll = none ∧ (p.relays.get .A).poll = some { code := 5, gov := govOf .none, attempts := 1 }
          ∧ pollInFlight (p.relays.get .A) = false ∧ steady (p.bays.get .A).state = true ∧ (p.relays.get .A).recover = .notRunning
          ∧ (p.relays.get .A).link = none ∧ (p.relays.get .A).slot = none
          ∧ pollInFlight ((inFlight .readValue .poll .none [] p).relays.get .A) = true
          ∧ pollInFlight ((inFlight .readValue .platform .none [] p).relays.get .A) = false
          ∧ ((updRelay .A (fun r => { r with recover := .waiting }) p).relays.get .A).recover ≠ .notRunning) := by
  unfold becomesDue
  decide

theorem test_witness_ProbeReadsAndSlotsStart :
    let p := probing [.voltage, .serial] 0 (withBays true .probing .empty)
    let q : Request := { kind := .readValue, code := 5, payload := [], gov := govOf .none }
    let s := updRelay .A (fun r => { r with slot := some q }) (withBays true .online .empty)
    (∃ r rest, (p.relays.get .A).probe = some { reads := r :: rest, attempts := 0, background := false })
      ∧ ((p.bays.get .A).state = .probing ∧ (p.relays.get .A).link = none ∧ (p.relays.get .A).slot = none
          ∧ ¬ ((s.bays.get .A).state = .probing) ∧ (s.relays.get .A).probe = none)
      ∧ ((s.relays.get .A).slot = some q ∧ (s.relays.get .A).link = none ∧ served s .A = true ∧ (s.bays.get .A).presLine = true
          ∧ (p.relays.get .A).slot = none ∧ ((inFlight .readValue .poll .none [] s).relays.get .A).link ≠ none
          ∧ ¬ (served (updRelay .A (fun r => { r with recover := .running }) s) .A = true)) :=
  ⟨⟨_, _, rfl⟩, by decide, by decide⟩

theorem test_witness_RepliesGiveOutcomesAndFailuresCount :
    let w := inFlight .writeValue .platform .none [1, 2] (upAt (.stretched 0) (withBays true .online .empty))
    let near := updRelay .A (fun r => { r with failCount := 2 }) w
    let p := updRelay .A (fun r => { r with poll := some { code := 5, gov := govOf .none, attempts := 1 } })
      (inFlight .readValue .poll .none [] (withBays true .online .empty))
    (∃ tx, (w.relays.get .A).link = some tx ∧ resultOf tx.req.kind .refusedByte = some .nack
        ∧ resultOf tx.req.kind (.value 0 0) = none ∧ tx.purpose ≠ .probe ∧ tx.purpose = .platform)
      ∧ (State.reset.relays.get .A).link = none
      ∧ (w.relays.get .A).failCount + 1 < faultLimit w
      ∧ (faultLimit near ≤ (near.relays.get .A).failCount + 1 ∧ servedState (near.bays.get .A).state = true)
      ∧ (∃ u, w.upstream.tx = some u ∧ u.stage = .stretched 0)
      ∧ ((1 ≤ (1 : Byte).toNat ∧ (32 : Byte).toNat ≤ 32) ∧ (0 : Byte).toNat = 0 ∧ 32 < (33 : Byte).toNat)
      ∧ (∃ tx q, (p.relays.get .A).link = some tx ∧ tx.purpose = .poll ∧ (p.relays.get .A).poll = some q ∧ q.attempts ≤ linkRetries p
          ∧ (p.relays.get .A).failCount + 1 < faultLimit p ∧ steady (p.bays.get .A).state = true
          ∧ (p.relays.get .A).recover = .notRunning) :=
  ⟨⟨_, rfl, by decide, by decide, by decide, by decide⟩, by decide, by decide, by decide, ⟨_, rfl, rfl⟩, by decide,
    ⟨_, _, rfl, by decide, rfl, by decide, by decide, by decide, by decide⟩⟩

/-- A probe of bay A with its first read in flight, the count at `f` and the cause `c`. -/
def readingProbe (tags : List Tag) (n f : Nat) (c : ProbeCause) (s : State) : State :=
  updBay .A (fun b => { b with state := .probing, probeCause := c })
    (updRelay .A (fun r => { r with failCount := f }) (probing tags n (inFlight .readValue .probe (tags.headD .none) [] s)))

theorem test_witness_ReadsThatSucceed :
    let s := inFlight .readValue .platform .serial [] (upAt (.stretched 3) (withBays true .online .empty))
    let p := inFlight .readValue .poll .voltage [] (withBays true .online .empty)
    (∃ tx, (s.relays.get .A).link = some tx ∧ tx.req.kind = .readValue ∧ tx.purpose = .platform ∧ tx.req.gov.cls ≠ .none
        ∧ tx.req.gov.inst = s.mapInst ∧ steady (s.bays.get .A).state = true ∧ tx.req.gov.tag ≠ .voltage)
      ∧ (∃ u, s.upstream.tx = some u ∧ u.stage = .stretched 3)
      ∧ ∃ tx, (p.relays.get .A).link = some tx ∧ tx.req.kind = .readValue ∧ tx.purpose = .poll :=
  ⟨⟨_, rfl, by decide, by decide, by decide, by decide, by decide, by decide⟩, ⟨_, rfl, rfl⟩, ⟨_, rfl, by decide, by decide⟩⟩

theorem test_witness_ReadsThatSucceed_of_a_voltage :
    let s := fun (a b : BayState) => volts 13000 12000 (inFlight .readValue .poll .voltage [] (withBays true a b))
    let u := fun (a b : BayState) (v : Half) => withSnap .A (snapAfter (s a b) .A .voltage v) (s a b)
    let p := readingProbe [.voltage, .serial] 1 0 .bayProbe (withBays true .probing .empty)
    (∀ a b, ∃ tx, ((s a b).relays.get .A).link = some tx ∧ tx.req.kind = .readValue ∧ tx.req.gov.tag = .voltage ∧ tx.purpose ≠ .probe)
      ∧ joins (u .standby .online 12100) .A ∧ (joins (u .online .standby 12100) .B ∧ ¬ joins (u .online .standby 12100) .A)
      ∧ (joins (u .standby .standby 12100) .A ∧ ((u .standby .standby 12100).bays.get .B).state = .standby
          ∧ ((u .standby .standby 12100).bays.get .B).latch = true ∧ voltsClose (u .standby .standby 12100) = true)
      ∧ (joins (u .standby .standby 13000) .A ∧ ((u .standby .standby 13000).bays.get .A).presence = true
          ∧ voltsClose (u .standby .standby 13000) = false)
      ∧ (¬ joins (u .standby .online 13000) .A ∧ ¬ joins (u .standby .online 13000) .B)
      ∧ ∃ q, (p.relays.get .A).probe = some q ∧ q.reads.length = 2 := by
  unfold joins
  exact ⟨fun _ _ => ⟨_, rfl, by decide, by decide, by decide⟩, by decide, by decide, by decide, by decide, by decide, ⟨_, rfl, rfl⟩⟩

/-- R25: a STANDBY bay joins an ONLINE one once the two VOLTAGE values are close. -/
theorem test_voltage_update :
    let s := volts 13000 12000 (inFlight .readValue .poll .voltage [] (withBays true .standby .online))
    (after (.packTransactionEnd .A (.value 0xE0 0x2E)) s).bays.a.state = .online
      ∧ headDetail (after (.packTransactionEnd .A (.value 0xE0 0x2E)) s) = some (.swapDone .A, dTakeOver)
      ∧ (after (.packTransactionEnd .A (.value 0xC8 0x32)) s).bays.a.state = .standby := by decide

theorem test_witness_WritesAndBlocksThatSucceed :
    let w := inFlight .writeValue .platform .none [1, 2] (upAt (.stretched 0) (withBays true .online .empty))
    let b := inFlight .readBlock .platform .none [] (upAt (.stretched 2) (withBays true .online .empty))
    (∃ tx, (w.relays.get .A).link = some tx ∧ tx.purpose = .platform ∧ tx.req.kind = .writeValue ∧ tx.req.payload = [1, 2]
        ∧ resultOf tx.req.kind .wrote = some .doneWrite)
      ∧ (∃ u, w.upstream.tx = some u ∧ u.stage = .stretched 0)
      ∧ (∃ tx, (b.relays.get .A).link = some tx ∧ tx.purpose = .platform ∧ tx.req.kind ≠ .readValue ∧ tx.req.kind ≠ .writeValue
        ∧ resultOf tx.req.kind (.block 1 [9]) = some (.doneBlock 1 [9]))
      ∧ ∃ u, b.upstream.tx = some u ∧ u.stage = .stretched 2 :=
  ⟨⟨_, rfl, by decide, by decide, by decide, by decide⟩, ⟨_, rfl, rfl⟩, ⟨_, rfl, by decide, by decide, by decide, by decide⟩, ⟨_, rfl, rfl⟩⟩

theorem test_witness_ProbeReadsAdvanceOrFail :
    let s := readingProbe [.voltage, .serial] 1 0 .bayProbe (withBays true .probing .empty)
    let e := readingProbe [.voltage, .serial] 2 1 .bayProbe (withBays true .probing .empty)
    (∃ tx p r rest, (s.bays.get .A).state = .probing ∧ (s.relays.get .A).link = some tx ∧ tx.purpose = .probe ∧ tx.req.kind = .readValue
        ∧ (s.relays.get .A).probe = some p ∧ p.reads = r :: rest ∧ rest ≠ []
        ∧ (s.relays.get .A).failCount + 1 < faultLimit s ∧ p.attempts < linkRetries s + 1 ∧ (s.bays.get .A).probeCause = .bayProbe)
      ∧ ∃ tx p, (e.relays.get .A).link = some tx ∧ (e.relays.get .A).probe = some p ∧ linkRetries e + 1 ≤ p.attempts :=
  ⟨⟨_, _, _, _, rfl, rfl, by decide, by decide, rfl, rfl, by decide, by decide, by decide, by decide⟩, ⟨_, _, rfl, rfl, by decide⟩⟩

/-- The state on which the value `v`, the last of a probe of bay A, leads to admission. -/
def placing (g : Tag) (v : Half) (s : State) : State := beforePlacing .A g (snapAfter s .A g v) s

theorem test_witness_AdmissionPlacesThePack :
    let s := readingProbe [.status] 1 0 .insertion (withBays true .probing .empty)
    let masked := configured 10 1 s
    let open_ := updBay .A (fun b => { b with latch := false }) (readingProbe [.serial] 1 0 .bayProbe (withBays true .probing .empty))
    let known := updBay .A (fun b => { b with context := some { serial := some 7, departure := 0 } }) open_
    let v := volts 12000 13000 (readingProbe [.voltage] 1 0 .insertion (withBays true .probing .standby))
    lastProbeRead s .A .status
      ∧ (admissionOk (placing .status 1 s) .A = true ∧ (s.bays.get .A).probeCause ≠ .joltReturn
          ∧ ((placing .status 1 s).bays.get .A).latch = true ∧ parallelAllows .A (placing .status 1 s) = true)
      ∧ (lastProbeRead masked .A .status ∧ admissionOk (placing .status 1 masked) .A = false)
      ∧ (lastProbeRead open_ .A .serial ∧ (open_.bays.get .A).probeCause = .bayProbe
          ∧ ((placing .serial 7 open_).bays.get .A).latch = false)
      ∧ (contextMatches (placing .serial 7 known) .A = true ∧ contextMatches (placing .serial 8 known) .A = false)
      ∧ (lastProbeRead v .A .voltage ∧ joins (withSnap .A (snapAfter v .A .voltage 12000) v) (BayId.other .A)
          ∧ admissionOk (placing .voltage 12000 v) .A = true ∧ parallelAllows .A (placing .voltage 12000 v) = false
          ∧ parallelAllows .A (placing .voltage 12900 v) = true ∧ admissionOk (placing .voltage 8000 v) .A = false) := by
  unfold joins
  exact ⟨⟨rfl, ⟨_, _, rfl, rfl⟩, ⟨_, rfl, by decide, by decide, by decide⟩⟩, by decide,
    ⟨⟨rfl, ⟨_, _, rfl, rfl⟩, ⟨_, rfl, by decide, by decide, by decide⟩⟩, by decide⟩,
    ⟨⟨rfl, ⟨_, _, rfl, rfl⟩, ⟨_, rfl, by decide, by decide, by decide⟩⟩, by decide, by decide⟩, by decide,
    ⟨⟨rfl, ⟨_, _, rfl, rfl⟩, ⟨_, rfl, by decide, by decide, by decide⟩⟩, by decide, by decide, by decide, by decide, by decide⟩⟩

/-- Bay A jolted from `e` with serial 7 and probed on its return, the SERIAL read in flight. -/
def returning (e : JoltEarlier) (sw : Switch) (latch : Bool) (s : State) : State :=
  let t := updBay .A (fun b => { b with latch := latch, jolt := some { earlier := e, serial := some 7, hold := .stopped } })
    (readingProbe [.serial] 1 0 .joltReturn s)
  { t with pp := { t.pp with sw := ⟨sw, t.pp.sw.b⟩ } }

theorem returning_reads (e : JoltEarlier) (sw : Switch) (latch : Bool) (s : State) : lastProbeRead (returning e sw latch s) .A .serial :=
  ⟨rfl, ⟨_, _, rfl, rfl⟩, ⟨_, rfl, rfl, rfl, rfl⟩⟩

theorem test_witness_JoltReturnsAreSettled :
    let s := fun (e : JoltEarlier) (sw : Switch) (latch : Bool) => returning e sw latch (withBays true .online .empty)
    let u := fun (e : JoltEarlier) (sw : Switch) (latch : Bool) => placing .serial 7 (s e sw latch)
    (∀ e sw latch, lastProbeRead (s e sw latch) .A .serial ∧ admissionOk (u e sw latch) .A = true
        ∧ ((s e sw latch).bays.get .A).probeCause = .joltReturn
        ∧ ((s e sw latch).bays.get .A).jolt = some { earlier := e, serial := some 7, hold := .stopped }
        ∧ (snapAfter (s e sw latch) .A .serial 7).serial = some 7 ∧ (snapAfter (s e sw latch) .A .serial 8).serial ≠ some 7
        ∧ (u e sw latch).pp.sw.get .A = sw ∧ ((u e sw latch).bays.get .A).latch = latch ∧ parallelAllows .A (u e sw latch) = true
        ∧ ∀ y, bayLaw (s e sw latch) y)
      ∧ handoverCase (u .online .on false) .A .plain
      ∧ refusalCase (placing .serial 7 (returning .online .on false (withBays false .online .empty))) .A .noSource
      ∧ (holdSwap (s .online .on false) .A = false ∧ (inWindow .open (s .online .on false)).motion.window ≠ .closed)
      ∧ joins (withSnap .A (snapAfter (volts 12000 12000 (withBays true .probing .standby)) .A .voltage 12000)
          (volts 12000 12000 (withBays true .probing .standby))) (BayId.other .A) := by
  unfold handoverCase refusalCase swapFree otherSource packAlternative joins
  refine ⟨fun e sw latch => ⟨returning_reads e sw latch _, ?_⟩, by decide, by decide, by decide, by decide⟩
  unfold bayLaw
  refine ⟨rfl, rfl, rfl, rfl, (by decide : (some 8 : Option Half) ≠ some 7), rfl, rfl, rfl, fun y => ?_⟩
  cases y <;> cases e <;> cases sw <;> cases latch <;> decide

/-- R37: the same pack back on an ONLINE bay: ONLINE, released, refused, or deferred by its latch and the window; its switch turned OFF; and another pack. -/
theorem test_jolt_returns :
    let t := fun (lo : Byte) (s : State) => after (.packTransactionEnd .A (.value lo 0)) s
    let s := fun (e : JoltEarlier) (sw : Switch) (latch : Bool) => returning e sw latch (withBays true .online .empty)
    (t 7 (s .online .on true)).bays.a.state = .online ∧ (t 7 (s .online .on false)).bays.a.lastHandover = .plain
      ∧ (t 7 (returning .online .on false (withBays false .online .empty))).bays.a.refusal = .noSource
      ∧ (t 7 (inWindow .open (s .online .on false))).bays.a.deferred = true ∧ (t 7 (s .online .off false)).bays.a.state = .standby
      ∧ (t 7 (s .standby .off true)).bays.a.state = .online ∧ headDetail (t 8 (s .online .on true)) = some (.jolt .A, dDifferent) := by decide

theorem test_witness_LinkRecoverIsTakenAndRuns :
    let s := withBays true .online .empty
    let w := updRelay .A (fun r => { r with recover := .waiting }) s
    let f := updBay .A (fun b => { b with faultReason := .link })
      (updRelay .A (fun r => { r with recover := .running }) (mapped voltsEntry (withBays true .faulted .empty)))
    let e := updBay .A (fun b => { b with faultReason := .link }) (updRelay .A (fun r => { r with recover := .running }) (withBays true .faulted .empty))
    let v := withSnap .A { Snapshot.absent with voltage := some 8700 } e
    ((e.relays.get .A).recover = .running ∧ (e.bays.get .A).state = .faulted ∧ (e.bays.get .A).faultReason = .link ∧ probeReads e = []
        ∧ admissionOk e .A = true ∧ admissionOk v .A = false)
      ∧ (bayOfByte 0 = some .A ∧ accepts s ∧ steady (s.bays.get .A).state = true ∧ (s.relays.get .A).recover = .notRunning
        ∧ (w.relays.get .A).recover ≠ .notRunning ∧ (State.reset.bays.get .A).state = .empty
        ∧ ((withBays true .probing .empty).bays.get .A).state = .probing)
      ∧ ((w.relays.get .A).recover = .waiting ∧ (w.relays.get .A).link = none)
      ∧ ((f.relays.get .A).recover = .running ∧ (f.bays.get .A).state = .faulted ∧ (f.bays.get .A).faultReason = .link ∧ probeReads f ≠ []
          ∧ (w.relays.get .A).recover ≠ .running ∧ ¬ ((s.bays.get .A).state = .faulted)) := by
  unfold accepts
  decide

/-! Platform transactions and the cache. -/

/-- A transaction at MGMT at a stage. -/
def mgmtAt (g : MgmtStage) (s : State) : State := { s with upstream := { tx := none, mgmt := some g, answer := .acknowledged } }

theorem test_witness_AddressByteIsTaken :
    let full := fun (g : MgmtStage) => mgmtAt g { State.reset with port := { slot := .executing, resetSeen := true } }
    upStretched (upAt (.stretched 2) State.reset) = true ∧ upStretched State.reset = false ∧ served (withBays true .online .empty) .A = true
      ∧ served (withBays true .online .empty) .B = false ∧ chooseActive (withBays true .online .empty) = some .A
      ∧ chooseActive State.reset = none ∧ (0x29 : Addr) ≠ 0x2A
      ∧ (∀ a ∈ [(0x28 : Addr), 0x2C, 0x2E], a ≠ 0x29 ∧ a ≠ 0x2A ∧ a ≠ 0x2B ∧ a ≠ 0x2D)
      ∧ ((mgmtAt .addressed State.reset).upstream.tx = none ∧ (mgmtAt .addressed State.reset).upstream.mgmt = some .addressed
          ∧ (0x7F : Byte).getLsbD 7 = false ∧ (0x81 : Byte).getLsbD 7 = true ∧ (0x81 : Byte) ≠ 0x80
          ∧ (mgmtAt .addressed State.reset).port.slot = .empty ∧ (full .addressed).port.slot ≠ .empty)
      ∧ (mgmtAt .resultNamed State.reset).upstream.mgmt = some .resultNamed
      ∧ ((mgmtAt (.command 0x10) State.reset).upstream.mgmt = some (.command 0x10) ∧ (1 : Byte) ≠ 0 ∧ commandRow 0x10 [] = some (.identify []))
      ∧ ((mgmtAt (.params 0x1A 2 []) State.reset).upstream.mgmt = some (.params 0x1A (1 + 1) []) ∧ (1 : Nat) ≠ 0
          ∧ (mgmtAt (.params 0x1A 1 []) State.reset).upstream.mgmt = some (.params 0x1A (0 + 1) [])
          ∧ commandRow 0x1A ([] ++ [3]) = some (.flagClear [3]) ∧ State.reset.upstream.mgmt = none ∧ State.reset.upstream.tx = none)
      ∧ completed (.permitCheck (.writeByte 3)) (mgmtAt (.params 0x1A 1 []) State.reset) = some (.flagClear [3])
      ∧ completed (.writeBlockLengthRefuse 0) (mgmtAt (.command 0x10) State.reset) = some (.identify [])
      ∧ (mgmtWrite 0x81 []).isSome = true ∧ mgmtRead 0x80 0x29 3 = some (.resultRead 3) ∧ mgmtRead 0x80 0x2A 3 = none := by decide

/-- R183, R184: the bytes of a whole command write, code byte 99h (Flag Set), length 1 and flag number 3, execute it; a byte beyond them is refused. -/
theorem test_command_write_byte_by_byte :
    let c := after (.codeByteCheck 0x99) (after (.platformAddress 0x29 false) State.reset)
    let l := after (.writeBlockLengthRefuse 1) c
    let e := after (.permitCheck (.writeByte 3)) l
    l.upstream.mgmt = some (.params 0x19 1 []) ∧ e.flags = flagPut flagsClear 3 true ∧ result e = some (okFrame [0])
      ∧ e.upstream = { tx := none, answer := .acknowledged } ∧ (after (.permitCheck (.writeByte 0)) e).upstream.answer = .refused
      ∧ result (after (.writeBlockLengthRefuse 0) c) = some (bareFrame .param) := by decide

theorem test_witness_CodesPermitsAndEarlyEnds :
    let s := mapped voltsEntry (withBays true .online .empty)
    let v := mapInService s
    (∃ u, (upAt .addressed s).upstream.tx = some u ∧ u.stage = .addressed ∧ u.map = v)
      ∧ ((codeByteCode 0x85).toNat < mapLength v ∧ (mapEntry v (codeByteCode 0x85)).readPermit = true)
      ∧ ¬ ((mapEntry v (codeByteCode 6)).readPermit = true ∨ (mapEntry v (codeByteCode 6)).writePermit = true)
      ∧ (s.upstream.tx = none ∧ s.upstream.mgmt = none)
      ∧ (∃ u, (upAt (.coded false 5) s).upstream.tx = some u ∧ u.stage = .coded false 5 ∧ (mapEntry u.map 5).readPermit = true
          ∧ (mapEntry u.map 5).writePermit = true ∧ (mapEntry u.map 6).readPermit = false ∧ (mapEntry u.map 6).writePermit = false
          ∧ (0x2B : Addr) ≠ u.addr)
      ∧ (∃ u, (upAt (.directed true 5 true) s).upstream.tx = some u ∧ u.stage = .directed true 5 true) ∧ upStretched (upAt .addressed s) = false :=
  ⟨⟨_, rfl, rfl, rfl⟩, by decide, by decide, ⟨rfl, rfl⟩,
    ⟨_, rfl, rfl, by decide, by decide, by decide, by decide, by decide⟩, ⟨_, rfl, rfl⟩, by decide⟩

theorem test_witness_ForwardingPoint :
    let s := upAt (.directed true 5 true) (withBays true .online .empty)
    let r := upAt (.directed false 5 false) (withBays true .online .empty)
    (forwards (.writeBlock [7]) .writeBlock [1, 7] 0 ∧ ∃ u, s.upstream.tx = some u ∧ directedFor u .writeBlock 5 ∧ u.bay = .A)
      ∧ (forwards (.readValue 2) .readValue [] 2 ∧ ∃ u, r.upstream.tx = some u ∧ directedFor u .readValue 5
          ∧ cacheServes r u.bay 5 (governing u.inst u.map 5) = none)
      ∧ served s .A = true ∧ steady (r.bays.get .A).state = true ∧ (s.relays.get .A).link = none ∧ (s.bays.get .A).presLine = true
      ∧ ((inFlight .readValue .poll .none [] s).relays.get .A).link ≠ none
      ∧ served (updRelay .A (fun q => { q with recover := .waiting }) s) .A = false
      ∧ ((packLeaves s).bays.get .A).presLine = false :=
  ⟨⟨by unfold forwards; decide, _, rfl, rfl, rfl⟩, ⟨by unfold forwards; decide, _, rfl, rfl, by decide⟩, by decide, by decide, by decide,
    by decide, by decide, by decide, by decide⟩

theorem test_witness_CacheServesAndFills :
    let s := upAt (.directed false 5 false) (cached 9 (mapped voltsEntry (withBays true .online .empty)))
    let old := cached 10 s
    (∃ u, s.upstream.tx = some u ∧ directedFor u .readValue 5 ∧ served s u.bay = true ∧ steady (s.bays.get u.bay).state = true
        ∧ cacheServes s u.bay 5 (governing u.inst u.map 5) = some (.w0, 12000)
        ∧ cacheServes old u.bay 5 (governing u.inst u.map 5) = none ∧ cacheServes s u.bay 5 (governing u.inst .builtin 5) = none)
      ∧ ((cacheSet s.cache (setOf 5)).find .A 5 = some .w0 ∧ (cacheSet s.cache (setOf 5)).find .B 5 = none)
      ∧ ((govOf .none).inst = s.mapInst ∧ (govOf .none).inst ≠ ({ s with mapInst := 1 } : State).mapInst
          ∧ (cacheSet State.reset.cache (setOf 5)).find .A 5 = none)
      ∧ setLaw (setOf 5) (cacheSet s.cache (setOf 5)) := by
  refine ⟨⟨_, rfl, rfl, by decide, by decide, by decide, by decide, by decide⟩, by decide, by decide, ?_⟩
  unfold setLaw lineLaw apart
  refine ⟨?_, ?_, ?_, ?_, ?_, ?_, ?_, ?_, ?_, ?_⟩ <;> decide

/-! The sample lane, light and motion. -/

theorem test_witness_LaneAndLightSamples :
    let man := { State.reset with pipe := { State.reset.pipe with mode := .manual } }
    let hold := { State.reset with flags := flagPut flagsClear 3 true }
    (State.reset.pipe.mode = .auto ∧ State.reset.flags.holdCurve = false) ∧ man.pipe.mode = .manual
      ∧ (hold.pipe.mode = .auto ∧ hold.flags.holdCurve = true) := by decide

theorem test_witness_PipelineArithmetic :
    (State.reset.pipe.mode = .auto ∧ State.reset.flags.holdCurve = false)
      ∧ ((0 : Int) < 16 * (20 : Nat) - (0 : Nat) ∧ (16 : Int) * (0 : Nat) - (320 : Nat) < 0 ∧ (16 : Int) * (20 : Nat) - (319 : Nat) < (2 ^ 2 : Nat))
      ∧ (0 ≤ 30 ∧ 30 < 40000 ∧ 200 ≤ 1000) := by decide

theorem test_witness_SamplesAreClassified :
    let quiet := sampleOf 0 0 0 0 0 0
    let rest := sampleOf 0 0 0 0 0x80 0
    let full := sampleOf 0x00 0xF8 0 0 0 0
    (quiet.saturated = false ∧ quiet.m2 ≤ impactThresh State.reset ^ 2 ∧ quiet.m2 < ffThresh State.reset ^ 2)
      ∧ (ffThresh State.reset ^ 2 ≤ rest.m2 ∧ stillLo State.reset ^ 2 ≤ rest.m2 ∧ rest.m2 ≤ stillHi State.reset ^ 2)
      ∧ (full.saturated = true ∧ full.x = -2047 ∧ (sampleOf 0 0 0 0 0x90 0).saturated = false
          ∧ stillHi State.reset ^ 2 < (sampleOf 0 0 0 0 0x90 0).m2 ∧ (sampleOf 0 0 0 0 0x90 0).m2 ≤ impactThresh State.reset ^ 2) := by decide

theorem test_witness_ArmedAndFallingSamples :
    let last := { State.reset with motion := { State.reset.motion with run := 23 } }
    let f := detecting .falling 24 State.reset
    (State.reset.motion.detector = .armed ∧ classify State.reset (sampleOf 0 0 0 0 0 0) = .low ∧ State.reset.motion.run + 1 < ffCount State.reset
        ∧ ffCount last ≤ last.motion.run + 1 ∧ classify State.reset (sampleOf 0 0 0 0 0x80 0) = .still
        ∧ classify State.reset (sampleOf 0 0 0 0 0x90 0) = .other)
      ∧ (classify State.reset (sampleOf 0xFF 0x07 0 0 0 0) = .impact ∧ 1 < impactMax State.reset ∧ 0 < settleCount State.reset)
      ∧ (f.motion.detector = .falling ∧ joltHoldMs f ≠ 0 ∧ classify f (sampleOf 0xFF 0x07 0 0 0 0) = .impact
          ∧ classify f (sampleOf 0 0 0 0 0 0) = .low)
      ∧ (inWindow .holding last).motion.window ≠ .closed := by decide

/-- R34, R149: the window opens again, and a running jolt hold waits. -/
theorem test_hold_waits :
    let s := fun (w : Window) => inWindow w (jolted { earlier := .online, serial := none, hold := .running 200 }
      { withBays true .online .empty with motion := { State.reset.motion with run := 23 } })
    ∀ w ∈ [Window.closed, .holding], ((after (.motionSample 0 0 0 0 0 0) (s w)).bays.a.jolt.map JoltRecord.hold) = some .waiting := by decide

theorem test_witness_ImpactSamples :
    let s := { detecting .impact 160 State.reset with motion := { (detecting .impact 160 State.reset).motion with settle := 79, impacts := 117 } }
    s.motion.detector = .impact ∧ classify s (sampleOf 0 0 0 0 0x80 0) = .still ∧ settleCount s ≤ s.motion.settle + 1
      ∧ 0 < settleCount s ∧ s.motion.impacts + 1 < impactMax s ∧ joltHoldMs s ≠ 0 ∧ s.log.next = some 1
      ∧ classify s (sampleOf 0 0 0 0 0x90 0) = .other
      ∧ impactMax s ≤ ({ s with motion := { s.motion with impacts := 799 } } : State).motion.impacts + 1 := by decide

theorem test_witness_StallAndWindowHoldRunOut :
    let f := detecting .falling 160 State.reset
    let h := inWindow .holding (updBay .A (fun b => { b with jolt := some { earlier := .online, serial := none, hold := .waiting } })
      (withBays true .jolt .empty))
    State.reset.motion.detector = .armed
      ∧ (f.motion.detector ≠ .armed ∧ f.motion.stall.isSome = true ∧ joltHoldMs f ≠ 0 ∧ f.log.next = some 1
          ∧ ({ f with log := { records := [], next := none } } : State).log.next = none)
      ∧ (State.reset.motion.window ≠ .holding ∧ h.motion.window = .holding ∧ joltHoldMs h ≠ 0 ∧ (h.bays.get .A).state = .jolt
          ∧ (h.bays.get .A).deferred = false ∧ (h.bays.get .A).jolt = some { earlier := .online, serial := none, hold := .waiting })
      ∧ (inWindow .holding State.reset).motion.window = .holding := by decide

theorem test_witness_StallAndWindowHoldRunOut_at_the_close :
    let late := fun (s : State) => updBay .A (fun b => { b with deferred := true, latch := false }) s
    let close := fun (s : State) => updBay .A (fun b => { b with deferred := false })
      { s with motion := { s.motion with window := .closed, hold := none } }
    let s := fun (ext : Bool) => inWindow .holding (late (withBays ext .online .empty))
    let two := inWindow .holding (late (updBay .B (fun b => { b with deferred := true, latch := false }) (withBays false .online .online)))
    let zero := configured 15 0 (jolted { earlier := .online, serial := none, hold := .waiting } (withBays true .online .empty))
    (∀ ext, (s ext).motion.window = .holding ∧ ((s ext).bays.get .A).state = .online ∧ ((s ext).bays.get .A).deferred = true
        ∧ ((s ext).bays.get .A).latch = false ∧ ((s ext).bays.get (BayId.other .A)).deferred = false
        ∧ ((s ext).bays.get (BayId.other .A)).state ≠ .jolt)
      ∧ refusalCase (close (s false)) .A .noSource ∧ handoverCase (close (s true)) .A .plain ∧ (∀ ext x, bayLaw (s ext) x)
      ∧ (two.motion.window = .holding ∧ (∀ x, bayLaw two x) ∧ two.pp.ext = false ∧ pMinRun two ≤ totalWithout two .A
          ∧ (∀ x, (two.bays.get x).state = .online ∧ (two.bays.get x).deferred = true ∧ (two.bays.get x).latch = false ∧ holdSwap two x = false)
          ∧ bridgeCanStart two = false ∧ bridgeCanStart (ready two) = true)
      ∧ joltHoldMs zero = 0 ∧ (zero.bays.get .A).state = .jolt ∧ beginsClose .windowHoldExpiry (inWindow .holding zero)
      ∧ beginsClose .stallTimeout (detecting .falling 160 zero) ∧ beginsClose (.motionSample 0 0 0 0 0x80 0) (detecting .falling 160 zero)
      ∧ beginsClose (.motionSample 0 0 0 0 0x80 0)
          { detecting .impact 160 zero with motion := { (detecting .impact 160 zero).motion with settle := 79 } } := by
  unfold bayLaw refusalCase handoverCase swapFree otherSource packAlternative beginsClose
  refine ⟨fun ext => (by cases ext <;> decide), by decide, by decide, fun ext x => (by cases ext <;> cases x <;> decide),
    ⟨by decide, fun x => (by cases x <;> decide), by decide, by decide, fun x => (by cases x <;> decide), by decide, by decide⟩,
    by decide, by decide, by decide, by decide, by decide, by decide⟩

/-- A record with a sequence and a peak. -/
def record (q p : Nat) : DropRecord :=
  { seq := q, kind := .strike, n := 0, height := 0, peak := p, saturated := false, ending := .settled, rest := .none, time := 0,
    jolted := ⟨false, false⟩ }

/-- A log of eight records of peaks 100 to 800, the fifth the smallest. -/
def fullLog : List DropRecord :=
  [record 1 800, record 2 300, record 3 300, record 4 400] ++ ([record 5 100] ++ [record 6 100, record 7 500, record 8 600])

theorem test_witness_DropRecordArithmetic :
    (12570627 ≤ 12570627 ∧ (composeRecord 1 .stalled .none (detecting .falling 160 State.reset)).kind = .fall)
      ∧ ((3 : Int).natAbs ≤ (-3 : Int).natAbs ∧ (2 : Int).natAbs < (3 : Int).natAbs)
      ∧ (fullLog.length = 8 ∧ (∃ q ∈ fullLog, 100 ≤ q.peak ∧ ∀ q' ∈ fullLog, q.peak ≤ q'.peak)
          ∧ (∀ q' ∈ [record 1 800, record 2 300, record 3 300, record 4 400], 100 < q'.peak)
          ∧ (∀ q' ∈ [record 6 100, record 7 500, record 8 600], 100 ≤ q'.peak)
          ∧ (placeRecord (record 9 101) fullLog).2 = true ∧ (placeRecord (record 9 100) fullLog).2 = false) :=
  ⟨by decide, by decide, by decide, ⟨record 5 100, by decide, by decide, by decide⟩, by decide, by decide, by decide, by decide⟩

/-! The Management Port. -/

theorem test_witness_ResultReads :
    let s := { State.reset with port := { slot := .pending (okFrame [1]), resetSeen := true } }
    upStretched s = false ∧ s.port.slot = .pending (okFrame [1]) ∧ State.reset.port.slot = .empty ∧ upStretched State.reset = false := by decide

theorem test_witness_CommandsRefusedInvalidOrOutOfRange :
    (upStretched State.reset = false ∧ ({ State.reset with port := { slot := .executing, resetSeen := true } } : State).port.slot ≠ .empty)
      ∧ upStretched (upAt (.stretched 2) State.reset) = true ∧ accepts State.reset ∧ 1 < (2 : Byte).toNat ∧ 3 < (4 : Byte).toNat
      ∧ 7 < (8 : Byte).toNat ∧ 2 < (3 : Byte).toNat ∧ 15 < (16 : Byte).toNat ∧ 48 < (49 : Byte).toNat
      ∧ regionOfByte 3 = some .motion ∧ Config.regionSize .motion < (8 : Byte).toNat + (2 : Byte).toNat
      ∧ ([3, 0, 1, 0] : List Byte) = 3 :: 0 :: 1 :: [0] ∧ ([0] : List Byte).length ≠ 4 * (1 : Byte).toNat := by
  unfold accepts
  decide

theorem test_witness_IdentifyAndSenseAttention :
    accepts State.reset ∧ ([1] : List Byte) ≠ [] ∧ State.reset.attn.queue = []
      ∧ (post .drop (dStored 1) State.reset).attn.queue = [{ key := .drop, count := 1, first := 0, detail := dStored 1 }]
      ∧ accepts (post .drop (dStored 1) State.reset)
      ∧ (∀ e ∈ State.reset.attn.queue, e.key ≠ .drop)
      ∧ (∃ e, (post .bridgeOn (dBridge .hold) (post .drop (dStored 1) State.reset)).attn.queue
            = [] ++ e :: [{ key := .bridgeOn, count := 1, first := 0, detail := dBridge .hold }] ∧ e.key = .drop) := by
  unfold accepts
  exact ⟨by decide, by decide, by decide, by decide, by decide, by decide, ⟨_, rfl, rfl⟩⟩

theorem test_witness_FlagCommandsAndClearedHolds :
    let s := { withBays true .online .empty with flags := flagPut flagsClear 0 true }
    let r := updBay .A (fun b => { b with refuse := true, latch := false }) s
    let f := { begun r with flags := flagPut r.flags 0 false }
    (accepts State.reset ∧ flagGet State.reset.flags 2 = some false ∧ flagGet State.reset.flags 7 = some false
        ∧ flagGet State.reset.flags 8 = none ∧ bayOfByte 0 = some .A
        ∧ ¬ ((s.bays.get .A).state = .online ∧ (s.bays.get .A).refuse = true ∧ (s.bays.get .A).latch = false))
      ∧ (accepts r ∧ flagGet r.flags 0 = some true ∧ (r.bays.get .A).state = .online ∧ (r.bays.get .A).refuse = true
          ∧ (r.bays.get .A).latch = false ∧ handoverCase f .A .plain)
      ∧ refusalCase (inWindow .closed { f with pp := { f.pp with ext := false } }) .A .noSource
      ∧ (accepts (inWindow .open r) ∧ (inWindow .open r).motion.window ≠ .closed) := by
  unfold accepts handoverCase refusalCase swapFree otherSource packAlternative
  decide

theorem test_witness_ResetPartResetsEveryBlock :
    let p := readingProbe [.voltage] 1 0 .bayProbe (withBays true .probing .empty)
    let q := { p with tables := { p.tables with codemap := { state := .inService, lock := true, words := (0, 128) :: voltsEntry } } }
    let r := mapped voltsEntry (withSnap .A { Snapshot.absent with serial := some 7 } (returning .online .on false (withBays true .online .empty)))
    let j := inWindow .open (jolted { earlier := .online, serial := none, hold := .waiting } (withBays true .online .empty))
    let h := fun (ext : Bool) => ({ updBay .A (fun b => { b with refuse := true, latch := false }) (withBays ext .online .empty) with
      flags := flagPut flagsClear 0 true } : State)
    (accepts (withBays true .online .empty) ∧ motionLaw (withBays true .online .empty).motion
        ∧ motionLaw (detecting .falling 24 State.reset).motion
        ∧ (holdSwap (withBays true .online .empty) .A = false ∧ (withBays true .online .empty).bays.a.state ≠ .probing
            ∧ (withBays true .online .empty).motion.window = .closed))
      ∧ (accepts p ∧ (p.bays.get .A).state = .probing ∧ probeReads (after (.resetPart []) p) = []
          ∧ accepts q ∧ (q.bays.get .A).state = .probing ∧ probeReads (after (.resetPart []) q) ≠ [])
      ∧ (accepts r ∧ (r.bays.get .A).state = .probing ∧ (r.bays.get .A).probeCause = .joltReturn ∧ probeReads (after (.resetPart []) r) = []
            ∧ ((after (.resetPart []) r).bays.get .A).state = .releasing)
      ∧ (accepts j ∧ j.motion.window ≠ .closed ∧ (j.bays.get .A).state = .jolt ∧ joltHoldMs (after (.resetPart []) j) ≠ 0)
      ∧ (∀ ext, accepts (h ext) ∧ (∀ y, ((h ext).bays.get y).state ≠ .probing) ∧ (h ext).motion.window = .closed
          ∧ holdSwap (h ext) .A = true ∧ holdSwap (h ext) .B = false ∧ ((h ext).bays.get .A).state = .online
          ∧ ((h ext).bays.get .A).refuse = true ∧ ((h ext).bays.get .A).latch = false ∧ (∀ y, bayLaw (h ext) y))
      ∧ refusalCase (after (.resetPart []) { h false with flags := flagsClear }) .A .noSource
      ∧ handoverCase (after (.resetPart []) { h true with flags := flagsClear }) .A .plain := by
  unfold accepts motionLaw bayLaw refusalCase handoverCase swapFree otherSource packAlternative
  refine ⟨by decide, by decide, by decide, by decide, fun ext => ?_, by decide, by decide⟩
  refine ⟨by cases ext <;> decide, fun y => (by cases ext <;> cases y <;> decide), by cases ext <;> decide, by cases ext <;> decide,
    by cases ext <;> decide, by cases ext <;> decide, by cases ext <;> decide, by cases ext <;> decide,
    fun y => (by cases ext <;> cases y <;> decide)⟩

theorem test_witness_QueriesFlushAndInspect :
    let s := cached 3 State.reset
    let lines := s.cache.flatMap fun cs => [cs.l0, cs.l1, cs.l2, cs.l3]
    (accepts State.reset ∧ ([0] : List Byte) ≠ [] ∧ bayOfByte 1 = some .B ∧ upStretched State.reset = false ∧ attnLaw State.reset.attn)
      ∧ (accepts s ∧ s.cache.length = 16 ∧ 2 < (3 : Byte).toNat ∧ 15 < (16 : Byte).toNat ∧ 3 < (4 : Byte).toNat ∧ (15 : Byte).toNat ≤ 15
          ∧ (cacheSet s.cache 5).l0.valid = true ∧ (cacheSet s.cache 15).l3.valid = false)
      ∧ (1 = lines.countP (fun l => l.valid && l.bay == .A) ∧ 0 = lines.countP (fun l => l.valid && l.bay == .B)
          ∧ 1 = lines.countP (fun l => l.valid)) := by
  unfold accepts attnLaw
  decide

theorem test_witness_BrightnessSetApplies :
    accepts State.reset ∧ 1 < (2 : Byte).toNat ∧ 30 = max (minLevel State.reset) (min ((0 : Byte) ++ (30 : Byte)).toNat 1000)
      ∧ 20 = max (minLevel State.reset) (min ((0 : Byte) ++ (0 : Byte)).toNat 1000)
      ∧ 1000 = max (minLevel State.reset) (min ((0xFF : Byte) ++ (0xFF : Byte)).toNat 1000) := by
  unfold accepts
  decide

theorem test_witness_BrightnessQueryClearsTheFlags : accepts State.reset ∧ ([1] : List Byte) ≠ [] := by
  unfold accepts
  decide

theorem test_witness_BudgetOfTheInputs :
    let s := withSnap .A { Snapshot.absent with voltage := some 12100, maxDischarge := some 3200, temperature := some 550 }
      (withBays false .online .empty)
    conductsBay s .A = true ∧ conductsBay s .B = false ∧ (s.relays.get .A).snap.voltage = some 12100
      ∧ (s.relays.get .A).snap.maxDischarge = some 3200 ∧ (s.relays.get .B).snap.voltage = none
      ∧ (computeBudget State.reset).h ≤ blBase State.reset ∧ (blBase s : Int) < (computeBudget (withBays true .online .empty)).h := by decide

theorem test_witness_DropLogReadAndClear :
    let s := { State.reset with log := { records := fullLog, next := some 9 } }
    accepts s ∧ logLaw s.log ∧ 7 < (8 : Byte).toNat ∧ (7 : Byte).toNat ≤ 7 ∧ s.log.records[(7 : Byte).toNat]? = some (record 8 600)
      ∧ State.reset.log.records.length ≤ (0 : Byte).toNat := by
  unfold accepts logLaw
  refine ⟨by decide, ⟨by decide, by decide, by decide, ?_⟩, by decide⟩
  intro q h
  cases h
  decide

/-! Table Memory. -/

theorem test_witness_TableCommandsByRegionState :
    let tbl (g : Region) : State := { State.reset with tables := { State.reset.tables with config := g, codemap := g } }
    (accepts (tbl Region.reset) ∧ regionOfByte 0 = some .config ∧ regionOfByte 1 = some .codemap)
      ∧ ((tbl { state := .inService, lock := true, words := [] }).tables.get .config).lock = true
      ∧ ((tbl { state := .checking, lock := false, words := [] }).tables.get .config).state = .checking
      ∧ ((tbl { state := .inService, lock := false, words := [] }).tables.get .codemap).state = .inService
      ∧ (∃ k, k < (1 : Byte).toNat
          ∧ (Memory.get? ((tbl { state := .loading, lock := false, words := [(0, 5)] }).tables.get .config).words ((0 : Byte).toNat + k)).isSome
              = true)
      ∧ ((tbl Region.reset).tables.get .config).lock = false ∧ ((tbl Region.reset).tables.get .config).state ≠ .checking
      ∧ (1 ≤ (48 : Byte).toNat ∧ (48 : Byte).toNat ≤ 48 ∧ (82 : Byte).toNat + (48 : Byte).toNat ≤ Config.regionSize .codemap) := by
  refine ⟨?_, by decide, by decide, by decide, ⟨0, by decide, by decide⟩, by decide, by decide, by decide⟩
  unfold accepts
  decide

theorem test_witness_TableWriteAndRead :
    accepts State.reset ∧ regionOfByte 3 = some .motion ∧ 1 ≤ (1 : Byte).toNat ∧ (1 : Byte).toNat ≤ 48
      ∧ (8 : Byte).toNat + (1 : Byte).toNat ≤ Config.regionSize .motion ∧ ([1, 2, 3, 4] : List Byte).length = 4 * (1 : Byte).toNat
      ∧ (State.reset.tables.get .motion).lock = false ∧ (State.reset.tables.get .motion).state = .empty
      ∧ (∀ k, k < (1 : Byte).toNat → Memory.get? (State.reset.tables.get .motion).words ((8 : Byte).toNat + k) = none) := by
  unfold accepts
  decide

/-- The nine words of MOTION at their defaults but for word 1, with a check word that makes the sum 0 (R164). -/
def motionWords (w : Word) : Memory :=
  (List.range 8).map (fun i => (i, if i = 1 then w else Config.defaultWord .motion i))
    ++ [(8, 0 - (400 + w + 24 + 1536 + 115 + 141 + 80 + 800))]

theorem test_witness_TableChecks :
    let s := updRegion .motion (fun _ => { state := .checking, lock := false, words := motionWords 45 }) State.reset
    let e := updRegion .motion (fun _ => { state := .checking, lock := false, words := [] }) State.reset
    (s.tables.get .motion).state = .checking ∧ checkFailure .motion (s.tables.get .motion).words = none
      ∧ checkFailure .motion (e.tables.get .motion).words = some (dFailBlank 0) ∧ (State.reset.tables.get .motion).state ≠ .checking
      ∧ (regionLaw .motion { state := .inService, lock := false, words := motionWords 45 })
      ∧ regionSum .motion (motionWords 45) = 0 ∧ regionSum .motion (motionWords 256) = 0
      ∧ checkFailure .motion (motionWords 256) = some (dFailField 1) ∧ wordFails .motion (motionWords 256) 1 = true
      ∧ regionSum .motion ((0, 1) :: motionWords 45) ≠ 0 ∧ checkFailure .motion ((0, 401) :: (motionWords 45).tail) = some (dFailSum 8)
      ∧ (1 ≤ 1 ∧ 5 ≤ 5 ∧ 16 ≤ 16) ∧ wordFails .config [(11, -401)] 11 = true ∧ wordFails .config [(11, -400)] 11 = false
      ∧ wordFails .codemap [(0, 128), (6, 0x60007)] 6 = true ∧ wordFails .codemap [(0, 128), (6, 0x60009)] 6 = false
      ∧ wordFails .codemap [(0, 5), (6, 1)] 6 = true ∧ wordFails .curve [(0, 2), (6, 0), (7, 0x10000)] 7 = true
      ∧ wordFails .curve [(0, 2), (6, 0), (7, 0x10001)] 7 = false := by
  unfold regionLaw
  decide

end Sys2Proof.Tests
end

