-- ==== Sys2Proof/Proofs/BudgetOfTheInputs.lean ====
section
/-! PROOFS. The contributions, the headroom and the ceilings of one recomputation (R107 to R113): the equations of each function of the budget,
and the statement over `computeBudget` put together from them. -/

namespace Sys2Proof.Machine

/-! ### Contribution of a bay (R108 to R110) -/

section BayContribution
variable {s : State} {x : BayId}

/-- R109: both values are present, and basis SNAPSHOT. -/
theorem rawPower_of_present {v i : Half} (hv : (s.relays.get x).snap.voltage = some v) (hi : (s.relays.get x).snap.maxDischarge = some i) :
    rawPower s x = (v.toNat * i.toNat / 1000, .snapshot) := by
  unfold rawPower
  rw [hv, hi]

/-- R109: a value is absent, and basis DEFAULT. -/
theorem rawPower_of_absent (h : (s.relays.get x).snap.voltage = none ∨ (s.relays.get x).snap.maxDischarge = none) :
    rawPower s x = (defaultPack s, .dflt) := by
  unfold rawPower
  obtain hv | hi := h
  · rw [hv]
  · rw [hi]
    cases (s.relays.get x).snap.voltage <;> rfl

/-- R110: the derating condition; an absent TEMPERATURE never derates. -/
theorem hot_iff : hot s x = true ↔ ∃ v, (s.relays.get x).snap.temperature = some v ∧ tempHot s ≤ v.toInt := by
  unfold hot
  cases (s.relays.get x).snap.temperature <;> simp

/-- R110: the mark of a contribution is the derating condition. -/
theorem bayPower_derated (s : State) (x : BayId) : (bayPower s x).derated = hot s x := rfl

/-- R110: the raw power, whatever its basis, is limited first and halved afterwards. -/
theorem bayPower_of_rawPower {raw : Nat} {b : Basis} (h : rawPower s x = (raw, b)) :
    (bayPower s x).basis = b
      ∧ (bayPower s x).power = (if (bayPower s x).derated then min raw (bayLimit s) / 2 else min raw (bayLimit s)) := by
  unfold bayPower
  rw [h]
  exact ⟨rfl, rfl⟩

theorem countedPower_of_conducts (h : conductsBay s x = true) : countedPower s x = bayPower s x := if_pos h

theorem countedPower_of_not_conducts (h : conductsBay s x = false) :
    countedPower s x = { power := 0, basis := .notCounted, derated := false } := by
  simp [countedPower, h]

end BayContribution

/-! ### Bridge and ceiling (R111, R112) -/

/-- R111: the bridge is counted unless it is IDLE. -/
theorem bridgePower_eq (s : State) : bridgePower s = if s.pp.bridge = .idle then 0 else bridgeMw s := by
  unfold bridgePower conductsBridge
  cases s.pp.bridge <;> rfl

theorem budgetCeiling_of_le {minL base full : Nat} {h : Int} (hh : h ≤ base) : budgetCeiling minL base full h = minL := if_pos hh

/-- R112: above BL_BASE_mW the quotient is not negative, so the level computed in the naturals is the signed one of the rule. -/
theorem budgetCeiling_of_gt {minL base full : Nat} {h : Int} (hh : (base : Int) < h) :
    (budgetCeiling minL base full h : Int) = min 1000 (max (minL : Int) ((h - base) * 1000 / (full : Int))) := by
  have hq : 0 ≤ (h - base) * 1000 / (full : Int) := Int.ediv_nonneg (by omega) (Int.natCast_nonneg full)
  unfold budgetCeiling
  rw [if_neg (not_le.mpr hh), Nat.cast_min, Nat.cast_max, Int.toNat_of_nonneg hq]
  rfl

/-! ### The statement -/

/-- Settles O56: each field of the record by the equation of the function that computes it. -/
theorem budgetOfTheInputs : Obligations.BudgetOfTheInputs := by
  intro s
  refine ⟨rfl, fun x => ⟨⟨rfl, rfl⟩, countedPower_of_not_conducts, countedPower_of_conducts, ?snapshot, ?default, ?derated⟩,
    bridgePower_eq s, rfl, rfl, budgetCeiling_of_le, budgetCeiling_of_gt, rfl⟩
  case snapshot => exact fun v i hv hi => bayPower_of_rawPower (rawPower_of_present hv hi)
  case default => exact fun h => bayPower_of_rawPower (rawPower_of_absent h)
  case derated => rw [bayPower_derated, hot_iff]

end Sys2Proof.Machine
end

