-- ==== Sys2Proof/Proofs/PipelineArithmetic.lean ====
section
/-! PROOFS. The arithmetic of one light sample (R125, R126, R130): the slew step, the curve, and the filter step with its bounds and its fall to
16 × T. -/

namespace Sys2Proof.Machine

/-! ### The slew step (R130) -/

section Slew
variable {g o : Nat} (up down : Nat)

theorem slew_of_lt (h : o < g) : slew up down g o = min g (o + up) := if_pos h

theorem slew_of_le (h : g ≤ o) : slew up down g o = max g (o - down) := if_neg (not_lt.mpr h)

/-- R130: an output at the goal stays. -/
theorem slew_self (o : Nat) : slew up down o o = o := by
  rw [slew_of_le up down le_rfl]
  exact max_eq_left (Nat.sub_le o down)

end Slew

/-! ### The curve (R125) -/

section Curve
variable {x l x' l' lux : Nat}

theorem curveLevel_of_lt (hx : lux < x) : ∀ {rest : List (Nat × Nat)}, rest ≠ [] → curveLevel lux ((x, l) :: rest) = l
  | [], h => absurd rfl h
  | (_, _) :: _, _ => if_pos hx

theorem curveLevel_between (rest : List (Nat × Nat)) (hx : x ≤ lux) (hx' : lux < x') :
    curveLevel lux ((x, l) :: (x', l') :: rest) = interpolate x l x' l' lux := by
  rw [curveLevel, if_neg (not_lt.mpr hx), if_pos hx']

theorem curveLevel_beyond (rest : List (Nat × Nat)) (hx : x ≤ lux) (hx' : x' ≤ lux) :
    curveLevel lux ((x, l) :: (x', l') :: rest) = curveLevel lux ((x', l') :: rest) := by
  rw [curveLevel, if_neg (not_lt.mpr hx), if_neg (not_lt.mpr hx')]

/-- A rounded quotient of a product does not exceed the factor that the divisor bounds. -/
theorem rounded_mul_div_le (a : Nat) {b c : Nat} (h : b < c) : (2 * (a * b) + c) / (2 * c) ≤ a := by
  have hab : a * b ≤ a * c := Nat.mul_le_mul_left a h.le
  refine Nat.le_of_lt_succ ((Nat.div_lt_iff_lt_mul (by omega)).mpr ?_)
  calc 2 * (a * b) + c < 2 * (a * c) + 2 * c := by omega
    _ = (a + 1) * (2 * c) := by ring

/-- R125: the interpolation stays between the two levels. -/
theorem interpolate_bounds (hx : x ≤ lux) (hx' : lux < x') (hl : l ≤ l') :
    l ≤ interpolate x l x' l' lux ∧ interpolate x l x' l' lux ≤ l' := by
  have hq := rounded_mul_div_le (l' - l) (show lux - x < x' - x by omega)
  refine ⟨Nat.le_add_right _ _, ?_⟩
  calc interpolate x l x' l' lux ≤ l + (l' - l) := Nat.add_le_add_left hq l
    _ = l' := Nat.add_sub_cancel' hl

end Curve

/-! ### The filter step (R126) -/

section Filter
variable {up down t st k : Nat} {diff : Int}

/-- A quotient by a positive number lies between 0 and the dividend, and that of a negative dividend is below 0. -/
theorem ediv_between {n : Nat} (hn : 0 < n) (d : Int) :
    (0 ≤ d → 0 ≤ d / (n : Int) ∧ d / (n : Int) ≤ d) ∧ (d < 0 → d ≤ d / (n : Int) ∧ d / (n : Int) < 0) := by
  have hn' : (0 : Int) < n := by exact_mod_cast hn
  refine ⟨fun h => ⟨Int.ediv_nonneg h hn'.le, Int.ediv_le_self _ h⟩, fun h => ⟨?_, Int.ediv_neg_of_neg_of_pos h hn'⟩⟩
  exact (Int.le_ediv_iff_mul_le hn').mpr (mul_le_of_one_le_right h.le (by omega))

/-- R126: a step adds the floor of diff divided by 2 to the power k; the sum is not negative, so the naturals hold it. -/
theorem filterNext_eq (hd : diff = 16 * (t : Int) - st) (hk : k = if 0 < diff then up else down) :
    (filterNext up down t st : Int) = st + diff / (2 ^ k : Nat) := by
  obtain ⟨hrise, hfall⟩ := ediv_between (Nat.two_pow_pos k) diff
  have hnonneg : 0 ≤ (st : Int) + diff / (2 ^ k : Nat) := by omega
  have hnext : filterNext up down t st = ((st : Int) + diff / (2 ^ k : Nat)).toNat := by
    unfold filterNext
    rw [← hd, hk]
    by_cases h : st < 16 * t
    · rw [if_pos h, if_pos (show 0 < diff by omega)]
    · rw [if_neg h, if_neg (show ¬ 0 < diff by omega)]
  rw [hnext, Int.toNat_of_nonneg hnonneg]

/-- R126: a step from at or below 16 × T ends between S and 16 × T. -/
theorem filterNext_rise (h : st ≤ 16 * t) : st ≤ filterNext up down t st ∧ filterNext up down t st ≤ 16 * t := by
  have he := filterNext_eq (up := up) (down := down) (t := t) (st := st) rfl rfl
  obtain ⟨hrise, -⟩ := ediv_between (Nat.two_pow_pos (if 0 < 16 * (t : Int) - st then up else down)) (16 * (t : Int) - st)
  omega

/-- R126: a fall moves S by at least 1 and does not pass 16 × T. -/
theorem filterNext_fall (h : 16 * t < st) : 16 * t ≤ filterNext up down t st ∧ filterNext up down t st < st := by
  have he := filterNext_eq (up := up) (down := down) (t := t) (st := st) rfl rfl
  obtain ⟨-, hfall⟩ := ediv_between (Nat.two_pow_pos (if 0 < 16 * (t : Int) - st then up else down)) (16 * (t : Int) - st)
  omega

/-- R126: a diff of 0 adds 0. -/
theorem filterNext_self (up down t : Nat) : filterNext up down t (16 * t) = 16 * t := by
  obtain ⟨hlo, hhi⟩ := filterNext_rise (up := up) (down := down) (le_refl (16 * t))
  omega

/-- R126: S stays in the range of 16 × T. -/
theorem filterNext_le_max : filterNext up down t st ≤ max st (16 * t) := by
  by_cases h : st ≤ 16 * t
  · exact (filterNext_rise h).2.trans (le_max_right _ _)
  · exact (filterNext_fall (not_le.mp h)).2.le.trans (le_max_left _ _)

/-- R126: a rise stops once diff is below 2 to the power K_UP. -/
theorem filterNext_stops (hpos : st < 16 * t) (hlt : 16 * (t : Int) - st < (2 ^ up : Nat)) : filterNext up down t st = st := by
  have he := filterNext_eq (up := up) (down := down) (t := t) (st := st) rfl rfl
  rw [if_pos (show 0 < 16 * (t : Int) - st by omega), Int.ediv_eq_zero_of_lt (by omega) hlt] at he
  omega

/-- R126: k of 0 takes S to 16 × T at once. -/
theorem filterNext_of_shift_zero (hk : (if 0 < 16 * (t : Int) - st then up else down) = 0) : filterNext up down t st = 16 * t := by
  have he := filterNext_eq (up := up) (down := down) (t := t) (st := st) rfl hk.symm
  rw [pow_zero, Nat.cast_one, Int.ediv_one] at he
  omega

/-- R126: after `n` steps of a fall S is at least `n` lower or has reached 16 × T. -/
theorem repeat_filterNext_fall (up down : Nat) (h : 16 * t ≤ st) (n : Nat) :
    16 * t ≤ Nat.repeat (filterNext up down t) n st ∧ Nat.repeat (filterNext up down t) n st ≤ max (16 * t) (st - n) := by
  induction n with
  | zero => exact ⟨h, le_max_right _ _⟩
  | succ n ih =>
    obtain ⟨hlo, hhi⟩ := ih
    unfold Nat.repeat
    obtain heq | hlt := hlo.eq_or_lt
    · rw [← heq, filterNext_self]
      exact ⟨le_rfl, le_max_left _ _⟩
    · have hfall := filterNext_fall (up := up) (down := down) hlt
      omega

/-- R126: a fall reaches 16 × T. -/
theorem exists_repeat_filterNext_eq (up down : Nat) (h : 16 * t ≤ st) : ∃ n, Nat.repeat (filterNext up down t) n st = 16 * t := by
  obtain ⟨hlo, hhi⟩ := repeat_filterNext_fall up down h (st - 16 * t)
  exact ⟨st - 16 * t, by omega⟩

end Filter

/-! ### A light sample and the statement -/

/-- R122, R126: a light sample in AUTO with HOLD_CURVE clear runs the filter step on the new target; the later stages leave S and T. -/
theorem lightSample_filters {s : State} (hmode : s.pipe.mode = .auto) (hhold : s.flags.holdCurve = false) (b0 b1 b2 : Byte) :
    ∃ p, exec (.lightSample b0 b1 b2) s = .next { s with lane := [], pipe := p } ∧ p.s = filterNext (kUp s) (kDown s) p.t s.pipe.s := by
  refine ⟨lightStep (halfOf b0 b1).toNat (overRange b2) (laneIdle s), rfl, ?_⟩
  simp only [lightStep, laneIdle, hmode, hhold]
  rfl

/-- Settles O41: each clause is one of the lemmas above, with diff and k replaced by their values. -/
theorem pipelineArithmetic : Obligations.PipelineArithmetic := by
  refine ⟨?slew, ?filter, ?sample, ?below, fun _ _ _ => rfl, ?between, ?beyond⟩
  case slew =>
    rintro up down g o
    exact ⟨slew_of_lt up down, fun h => slew_of_le up down h.le, fun h => h ▸ slew_self up down g⟩
  case filter =>
    rintro up down t st k diff rfl rfl
    refine ⟨filterNext_eq rfl rfl, fun h => filterNext_rise (by omega), fun h => filterNext_fall (by omega), fun ht hst => ?_,
      fun hpos hlt => filterNext_stops (by omega) hlt, filterNext_of_shift_zero, fun h => ?_,
      fun h => exists_repeat_filterNext_eq up down (by omega)⟩
    · exact filterNext_le_max.trans (max_le hst (by omega))
    · obtain rfl : st = 16 * t := by omega
      exact filterNext_self up down t
  case sample =>
    intro b0 b1 b2 s hmode hhold
    obtain ⟨p, hp, hs⟩ := lightSample_filters hmode hhold b0 b1 b2
    exact ⟨p, hp, hs, rfl, rfl⟩
  case below => exact fun x l rest lux hx hrest => curveLevel_of_lt hx hrest
  case between =>
    intro x l x' l' rest lux hx hx' hl
    rw [curveLevel_between rest hx hx']
    exact ⟨rfl, interpolate_bounds hx hx' hl⟩
  case beyond => exact fun x l x' l' rest lux => curveLevel_beyond rest

end Sys2Proof.Machine
end

