-- ==== Sys2Proof/Proofs/BrightnessCommands.lean ====
section
/-! PROOFS. The commands of the Backlight Pipeline (R134, R135): what an accepted command does, what a recomputation does to O and the Attention
Queue, and the fields of the pipeline after Brightness Set. -/

namespace Sys2Proof.Machine

/-! ### An accepted command (R183, R184) -/

section Accepted
variable {s t : State} {code : ResultCode} {data : List Byte}

/-- R184: an accepted command executes on `begun s`, and its frame is placed in the state that its body leaves. -/
theorem manage_of_accepts {body : State → State × Frame} (h : accepts s) (hb : body (begun s) = (t, { code := code, data := data })) :
    manage body s = ended t code data := by
  obtain ⟨hfree, hslot⟩ := h
  have he : manage body s = setSlot (.pending (body (begun s)).2) (body (begun s)).1 := by
    simp only [manage, hfree, hslot]
    rfl
  rw [he, hb]
  rfl

theorem noParams_nil (f : State → State × Frame) (u : State) : noParams [] f u = f u := if_pos rfl

theorem noParams_of_ne_nil {p : List Byte} (hp : p ≠ []) (f : State → State × Frame) (u : State) :
    noParams p f u = (u, bareFrame .param) := if_neg hp

end Accepted

/-! ### Brightness Query (R135) -/

theorem exec_brightnessQuery (p : List Byte) (s : State) :
    exec (.brightnessQuery p) s = .next (manage (noParams p brightnessQuery) s) := rfl

/-- Settles O55: with parameters the body is never run; without, it clears the flags of the state whose values it has taken. -/
theorem brightnessQueryClearsTheFlags : Obligations.BrightnessQueryClearsTheFlags := by
  refine ⟨fun p s h hp => ?_, fun s h => ?_⟩
  · rw [exec_brightnessQuery, manage_of_accepts h (noParams_of_ne_nil hp _ _)]
  · rw [exec_brightnessQuery, manage_of_accepts h (noParams_nil _ _)]
    rfl

/-! ### O and the Attention Queue in a recomputation (R114) -/

/-- R197: a posting leaves an entry with its pair and its detail. -/
theorem exists_mem_coalesce (k : AttnKey) (d : Detail) (now : Nat) (q : List AttnEntry) :
    ∃ e ∈ coalesce k d now q, e.key = k ∧ e.detail = d := by
  induction q with
  | nil => exact ⟨_, List.mem_singleton_self _, rfl, rfl⟩
  | cons a rest ih =>
    unfold coalesce
    split
    · next hk => exact ⟨_, List.mem_cons_self, hk, rfl⟩
    · obtain ⟨e, he, hkd⟩ := ih
      exact ⟨e, List.mem_cons_of_mem a he, hkd⟩

theorem queued_post (k : AttnKey) (d : Detail) (s : State) : queued (post k d s) k d :=
  exists_mem_coalesce k d s.time.uptime s.attn.queue

theorem recompute_budget (s : State) : (recompute s).budget = computeBudget s := by rw [recompute_eq]

/-- R114: an O above the new C is cut to it, with BUDGET_CUT. -/
theorem recompute_cuts {s : State} (h : (recompute s).budget.c < s.pipe.o) :
    (recompute s).pipe.o = (recompute s).budget.c ∧ queued (recompute s) .budgetCut ⟨0, (recompute s).budget.c⟩ := by
  rw [recompute_budget] at h ⊢
  have ho : cutTo (computeBudget s).c (minLevel s) s.pipe.o = (computeBudget s).c := if_pos h
  have ha : cutAttn (computeBudget s).c s.pipe.o s = (post .budgetCut (dCeiling (computeBudget s).c) s).attn := if_pos h
  rw [recompute_eq, ho, ha]
  exact ⟨rfl, queued_post _ _ s⟩

/-- R114: an O between MIN_LEVEL and the new C stays, and nothing is posted. -/
theorem recompute_leaves_output {s : State} (hc : s.pipe.o ≤ (recompute s).budget.c) (hm : minLevel s ≤ s.pipe.o) :
    (recompute s).pipe.o = s.pipe.o ∧ (recompute s).attn = s.attn := by
  rw [recompute_budget] at hc
  have ho : cutTo (computeBudget s).c (minLevel s) s.pipe.o = s.pipe.o := by
    unfold cutTo
    rw [if_neg (not_lt.mpr hc), if_neg (not_lt.mpr hm)]
  have ha : cutAttn (computeBudget s).c s.pipe.o s = s.attn := if_neg (not_lt.mpr hc)
  rw [recompute_eq, ho, ha]
  exact ⟨rfl, rfl⟩

/-- R114: of the pipeline a recomputation changes O alone. -/
theorem recompute_pipe (s : State) : (recompute s).pipe = { s.pipe with o := (recompute s).pipe.o } := by rw [recompute_eq]

theorem recompute_pp (s : State) : (recompute s).pp = s.pp := by rw [recompute_eq]

/-! ### Brightness Set (R134) -/

/-- R134, step 2: MANUAL takes D from the manual level; a change to AUTO takes S and D from O. -/
theorem applyMode_eq (m : PipeMode) (p : Pipeline) : applyMode m p =
    { p with mode := m, d := if m = .manual then p.manual else if p.mode = .manual then p.o else p.d,
             s := if m = .auto ∧ p.mode = .manual then 16 * p.o else p.s } := by
  obtain ⟨mode⟩ := p
  cases m <;> cases mode <;> rfl

theorem modeOfByte_of_gt {m : Byte} (h : 1 < m.toNat) : modeOfByte m = none := by
  unfold modeOfByte
  split
  · omega
  · omega
  · rfl

theorem modeOfByte_modeCode {m : Byte} {mode : PipeMode} (h : (m = 0 ∧ mode = .auto) ∨ (m = 1 ∧ mode = .manual)) :
    modeOfByte m = some mode ∧ byteOf (modeCode mode) = m := by
  obtain ⟨rfl, rfl⟩ | ⟨rfl, rfl⟩ := h <;> exact ⟨rfl, rfl⟩

/-- R134: a mode byte that names no mode. -/
theorem brightnessSet_of_none {m : Byte} (h : modeOfByte m = none) (l0 l1 h0 h1 : Byte) (s : State) :
    brightnessSet [m, l0, l1, h0, h1] s = (s, bareFrame .param) := by
  simp only [brightnessSet, h]

/-- R134: a mode byte that names a mode. -/
theorem brightnessSet_of_some {m : Byte} {mode : PipeMode} (h : modeOfByte m = some mode) (l0 l1 h0 h1 : Byte) (s : State) :
    brightnessSet [m, l0, l1, h0, h1] s
      = (setBrightness mode (l1 ++ l0).toNat (h1 ++ h0).toNat s,
         okFrame (brightnessSetBytes (setBrightness mode (l1 ++ l0).toNat (h1 ++ h0).toNat s))) := by
  simp only [brightnessSet, h]
  rfl

theorem exec_brightnessSet (p : List Byte) (s : State) : exec (.brightnessSet p) s = .next (manage (brightnessSet p) s) := rfl

/-- R134: the fields that Brightness Set stores, and those that it leaves. -/
theorem setBrightness_pipe {mode : PipeMode} {level host : Nat} {s : State} {p : Pipeline} (hp : (setBrightness mode level host s).pipe = p) :
    p.mode = mode ∧ p.manual = clampLevel (minLevel s) level ∧ p.hostMax = clampLevel (minLevel s) host
      ∧ p.d = (if mode = .manual then clampLevel (minLevel s) level else if s.pipe.mode = .manual then s.pipe.o else s.pipe.d)
      ∧ p.s = (if mode = .auto ∧ s.pipe.mode = .manual then 16 * s.pipe.o else s.pipe.s)
      ∧ p.t = s.pipe.t ∧ p.l = s.pipe.l ∧ p.clampedLux = s.pipe.clampedLux ∧ p.ceilingLimited = s.pipe.ceilingLimited := by
  unfold setBrightness at hp
  rw [recompute_pipe] at hp
  simp only [brightnessPipe, applyMode_eq] at hp
  subst hp
  exact ⟨rfl, rfl, rfl, rfl, rfl, rfl, rfl, rfl, rfl⟩

/-- Applying a mode leaves O as it is. -/
theorem brightnessPipe_o (mode : PipeMode) (level host : Nat) (s : State) : (brightnessPipe mode level host s).o = s.pipe.o := by
  simp only [brightnessPipe, applyMode_eq]

/-- R134: an O above the new C is cut to it, with BUDGET_CUT. -/
theorem setBrightness_cuts {mode : PipeMode} {level host : Nat} {s : State} (h : (setBrightness mode level host s).budget.c < s.pipe.o) :
    (setBrightness mode level host s).pipe.o = (setBrightness mode level host s).budget.c
      ∧ queued (setBrightness mode level host s) .budgetCut ⟨0, (setBrightness mode level host s).budget.c⟩ :=
  recompute_cuts (h.trans_eq (brightnessPipe_o mode level host s).symm)

/-- R134: an O between MIN_LEVEL and the new C stays. -/
theorem setBrightness_leaves_output {mode : PipeMode} {level host : Nat} {s : State}
    (hc : s.pipe.o ≤ (setBrightness mode level host s).budget.c) (hm : minLevel s ≤ s.pipe.o) :
    (setBrightness mode level host s).pipe.o = s.pipe.o ∧ (setBrightness mode level host s).attn = s.attn := by
  have ho := brightnessPipe_o mode level host s
  obtain ⟨hout, hattn⟩ := recompute_leaves_output (s := { s with pipe := brightnessPipe mode level host s })
    (ho.trans_le hc) (hm.trans_eq ho.symm)
  exact ⟨hout.trans ho, hattn⟩

/-- R105: the port is no input of the budget. -/
theorem budgetLaw_ended {t : State} (h : budgetLaw t) (code : ResultCode) (data : List Byte) : budgetLaw (ended t code data) :=
  h.trans (computeBudget_congr rfl rfl rfl rfl (fun _ => rfl) (fun _ => rfl) rfl)

/-- R134: the power path, the bays and the cache have no part in Brightness Set. -/
theorem setBrightness_frame (mode : PipeMode) (level host : Nat) (s : State) :
    (setBrightness mode level host s).bays = s.bays ∧ (setBrightness mode level host s).pp = s.pp
      ∧ (setBrightness mode level host s).cache = s.cache :=
  ⟨recompute_bays _, recompute_pp _, recompute_cache _⟩

/-- R134: the result holds the levels and the mode as stored. -/
theorem brightnessSetBytes_eq {t : State} {mode : PipeMode} {man host : Nat} (hmode : t.pipe.mode = mode) (hman : t.pipe.manual = man)
    (hhost : t.pipe.hostMax = host) :
    brightnessSetBytes t = [byteOf (modeCode mode)] ++ le16 man ++ le16 host ++ le16 t.budget.c := by
  subst hmode hman hhost
  rfl

/-- Settles O54: a bad mode byte leaves the body's state as it is; otherwise the command ends in the state `t` of `setBrightness` with the frame
placed, and each clause is one of the lemmas about that state. -/
theorem brightnessSetApplies : Obligations.BrightnessSetApplies := by
  refine ⟨fun m l0 l1 h0 h1 s h hm => ?_, ?_⟩
  · rw [exec_brightnessSet, manage_of_accepts h (brightnessSet_of_none (modeOfByte_of_gt hm) _ _ _ _ _)]
  · rintro m l0 l1 h0 h1 mode _ _ s h hm rfl rfl
    obtain ⟨hbyte, hcode⟩ := modeOfByte_modeCode hm
    have hrun := manage_of_accepts h (brightnessSet_of_some hbyte l0 l1 h0 h1 (begun s))
    generalize ht : setBrightness mode (l1 ++ l0).toNat (h1 ++ h0).toNat (begun s) = t at hrun
    obtain ⟨hmode, hman, hhost, hd, hS, hT, hl, hclamp, hlimit⟩ := setBrightness_pipe (congrArg State.pipe ht)
    obtain ⟨hbays, hpp, hcache⟩ := ht ▸ setBrightness_frame mode (l1 ++ l0).toNat (h1 ++ h0).toNat (begun s)
    have hlaw : budgetLaw t := ht ▸ budgetLaw_recompute _
    have hcut : t.budget.c < s.pipe.o → t.pipe.o = t.budget.c ∧ queued t .budgetCut ⟨0, t.budget.c⟩ := ht ▸ setBrightness_cuts (s := begun s)
    have hstay : s.pipe.o ≤ t.budget.c → minLevel s ≤ s.pipe.o → t.pipe.o = s.pipe.o ∧ t.attn = s.attn :=
      ht ▸ setBrightness_leaves_output (s := begun s)
    rw [brightnessSetBytes_eq hmode hman hhost, hcode] at hrun
    exact ⟨_, congrArg Host.Outcome.next hrun, hmode, hman, hhost, hT, hl, hd, hS, hclamp, hlimit, budgetLaw_ended hlaw _ _, hcut, hstay, rfl,
      hbays, hpp, hcache⟩

end Sys2Proof.Machine
end

