-- ==== Sys2Proof/Proofs/DropRecordArithmetic.lean ====
section
/-! PROOFS. The arithmetic of a drop record (R151 to R154): the square root bit by bit, the height, the rest axis, and what the log does with a
record at fewer than eight records, at eight of peaks not below its own, and at eight with a smaller one. -/

namespace Sys2Proof.Machine

/-! ### The square root (R151) -/

/-- R151: one bit of the root, taken where the square stays within `n`. -/
def rootBit (n r b : Nat) : Nat := if (r + b) * (r + b) ≤ n then r + b else r

/-- The powers of two below `2 ^ k`, from the highest down. -/
def powersBelow : Nat → List Nat
  | 0 => []
  | k + 1 => 2 ^ k :: powersBelow k

theorem squareRoot_eq_foldl (n : Nat) : squareRoot n = (powersBelow 12).foldl (rootBit n) 0 := rfl

/-- R151: a bit of half the width of an interval that holds the root leaves it in the half it moves to. -/
theorem rootBit_bounds {n r b : Nat} (hlo : r ^ 2 ≤ n) (hhi : n < (r + 2 * b) ^ 2) :
    rootBit n r b ^ 2 ≤ n ∧ n < (rootBit n r b + b) ^ 2 := by
  unfold rootBit
  split
  · next h => exact ⟨by rwa [sq], by rwa [add_assoc, ← two_mul]⟩
  · next h => exact ⟨hlo, by rw [sq]; exact not_le.mp h⟩

/-- R151: after the bits below `2 ^ k` the interval has width 1. -/
theorem foldl_rootBit_bounds {n : Nat} (k : Nat) : ∀ {r : Nat}, r ^ 2 ≤ n → n < (r + 2 ^ k) ^ 2 →
    ((powersBelow k).foldl (rootBit n) r) ^ 2 ≤ n ∧ n < ((powersBelow k).foldl (rootBit n) r + 1) ^ 2 := by
  induction k with
  | zero => exact fun hlo hhi => ⟨hlo, hhi⟩
  | succ k ih =>
    intro r hlo hhi
    obtain ⟨hlo', hhi'⟩ := rootBit_bounds hlo (pow_succ' 2 k ▸ hhi)
    exact ih hlo' hhi'

/-- R151: the greatest number whose square does not exceed `n`, for `n` below 4,096 squared. -/
theorem squareRoot_bounds {n : Nat} (h : n < 4096 ^ 2) : squareRoot n ^ 2 ≤ n ∧ n < (squareRoot n + 1) ^ 2 := by
  rw [squareRoot_eq_foldl]
  exact foldl_rootBit_bounds 12 (Nat.zero_le n) h

/-! ### The height (R152) -/

theorem dropHeight_eq (n odr : Nat) : dropHeight n odr = min 65535 (4903 * n ^ 2 / odr ^ 2) := by
  simp only [dropHeight, sq, mul_assoc]

/-- R151, R152: a FALL record has the fall count and its height. -/
theorem composeRecord_of_fall {q : Nat} {e : DropEnding} {a : RestAxis} {s : State} (h : (composeRecord q e a s).kind = .fall) :
    (composeRecord q e a s).n = s.motion.n ∧ (composeRecord q e a s).height = dropHeight s.motion.n (odrHz s) :=
  ⟨if_pos h, if_pos h⟩

/-! ### The rest axis (R153) -/

section RestAxis
variable {p : Sample}

/-- R153: x is dominant at a tie with y or z. -/
theorem restAxisOf_x (hy : p.y.natAbs ≤ p.x.natAbs) (hz : p.z.natAbs ≤ p.x.natAbs) :
    restAxisOf p = if 0 ≤ p.x then .xPos else .xNeg := if_pos ⟨hy, hz⟩

/-- R153: y is dominant at a tie with z. -/
theorem restAxisOf_y (hx : p.x.natAbs < p.y.natAbs) (hz : p.z.natAbs ≤ p.y.natAbs) :
    restAxisOf p = if 0 ≤ p.y then .yPos else .yNeg := by
  rw [restAxisOf, if_neg fun h => not_le.mpr hx h.1, if_pos hz]

theorem restAxisOf_z (hx : p.x.natAbs < p.z.natAbs) (hy : p.y.natAbs < p.z.natAbs) :
    restAxisOf p = if 0 ≤ p.z then .zPos else .zNeg := by
  rw [restAxisOf, if_neg fun h => not_le.mpr hx h.2, if_neg (not_le.mpr hy)]

end RestAxis

/-! ### The smallest peak -/

theorem smallestPeak_cons (r : DropRecord) {rest : List DropRecord} (h : rest ≠ []) :
    smallestPeak (r :: rest) = min r.peak (smallestPeak rest) := by
  cases rest with
  | nil => exact absurd rfl h
  | cons => rfl

/-- The smallest peak is the library's minimum of the peaks. -/
theorem min?_map_peak {l : List DropRecord} (h : l ≠ []) : (l.map DropRecord.peak).min? = some (smallestPeak l) := by
  induction l using smallestPeak.induct with
  | case1 => exact absurd rfl h
  | case2 r => rfl
  | case3 r rest hne ih => rw [List.map_cons, List.min?_cons, ih hne, smallestPeak_cons r hne]; rfl

theorem smallestPeak_eq {l : List DropRecord} {q : DropRecord} (hq : q ∈ l) (hmin : ∀ q' ∈ l, q.peak ≤ q'.peak) :
    smallestPeak l = q.peak := by
  have hsome : (l.map DropRecord.peak).min? = some q.peak :=
    List.min?_eq_some_iff.mpr ⟨List.mem_map_of_mem hq, List.forall_mem_map.mpr hmin⟩
  exact Option.some.inj ((min?_map_peak (List.ne_nil_of_mem hq)).symm.trans hsome)

/-! ### The placing (R154) -/

section Placing
variable {r : DropRecord} {l : List DropRecord}

/-- R154: a log with room takes the record. -/
theorem placeRecord_of_room (h : l.length < 8) : placeRecord r l = (l ++ [r], true) := if_pos h

/-- R154: a full log discards a record of no greater peak than its smallest. -/
theorem placeRecord_of_le (hl : l.length = 8) (h : r.peak ≤ smallestPeak l) : placeRecord r l = (l, false) := by
  rw [placeRecord, if_neg (by omega), if_neg (not_lt.mpr h)]

/-- R154: a full log drops its first record of the smallest peak for one of a greater peak. -/
theorem placeRecord_of_lt (hl : l.length = 8) (h : smallestPeak l < r.peak) :
    placeRecord r l = (l.eraseP (fun q => q.peak == smallestPeak l) ++ [r], true) := by
  rw [placeRecord, if_neg (by omega), if_pos h]

end Placing

/-- The first record of a peak goes, and those of greater peaks before it stay. -/
theorem eraseP_peak_append {l1 l2 : List DropRecord} {q : DropRecord} (h : ∀ q' ∈ l1, q.peak < q'.peak) :
    (l1 ++ q :: l2).eraseP (fun q' => q'.peak == q.peak) = l1 ++ l2 := by
  have hl1 : ∀ q' ∈ l1, ¬ (q'.peak == q.peak) = true := fun q' hq' he => (h q' hq').ne' (eq_of_beq he)
  rw [List.eraseP_append_right _ hl1, List.eraseP_cons, beq_self_eq_true, cond_true]

/-- Settles O46: 12,570,627, the greatest magnitude squared of three axes of 2,047, is below 4,096 squared; in a full log the named record `q`
has the smallest peak. -/
theorem dropRecordArithmetic : Obligations.DropRecordArithmetic := by
  refine ⟨fun n hn => squareRoot_bounds (by omega), ?fall, dropHeight_eq, by decide, by decide, by decide, by decide,
    fun p => ⟨restAxisOf_x, restAxisOf_y, restAxisOf_z⟩, fun r l => ⟨placeRecord_of_room, fun hl => ⟨?discards, ?replaces⟩⟩⟩
  case fall =>
    intro q e a s h
    obtain ⟨hn, hheight⟩ := composeRecord_of_fall h
    exact ⟨hn, hheight.trans (dropHeight_eq _ _)⟩
  case discards =>
    rintro ⟨q, hq, hr, hmin⟩
    exact placeRecord_of_le hl (hr.trans_eq (smallestPeak_eq hq hmin).symm)
  case replaces =>
    rintro l1 q l2 rfl h1 h2 hr
    have hmin : ∀ q' ∈ l1 ++ q :: l2, q.peak ≤ q'.peak := by
      intro q' hq'
      obtain hq' | rfl | hq' := by simpa using hq'
      · exact (h1 q' hq').le
      · exact le_rfl
      · exact h2 q' hq'
    have hsmall := smallestPeak_eq (List.mem_append_right l1 List.mem_cons_self) hmin
    rw [placeRecord_of_lt hl (hsmall.trans_lt hr), hsmall, eraseP_peak_append h1]

end Sys2Proof.Machine
end

