-- ==== Sys2Proof/Proofs/DropLogCommands.lean ====
section
/-! PROOFS. The commands of the Drop Log (R159, R160): what Drop Log Read answers at each index, the place of a record among the sequences, and
Drop Log Clear. -/

namespace Sys2Proof.Machine

/-! ### Drop Log Read (R159) -/

theorem exec_dropLogRead (p : List Byte) (s : State) : exec (.dropLogRead p) s = .next (manage (dropLogRead p) s) := rfl

section Read
variable {b : Byte} {s : State}

/-- R159: an index above 7. -/
theorem dropLogRead_of_gt (h : 7 < b.toNat) : dropLogRead [b] s = (s, bareFrame .param) := if_pos h

theorem dropLogRead_of_some (h : b.toNat ≤ 7) {r : DropRecord} (hr : s.log.records[b.toNat]? = some r) :
    dropLogRead [b] s = (s, okFrame (dropBytes r)) := by
  simp only [dropLogRead, if_neg (not_lt.mpr h), hr]

/-- R159: an index at or above the number of records. -/
theorem dropLogRead_of_length_le (h : b.toNat ≤ 7) (hl : s.log.records.length ≤ b.toNat) :
    dropLogRead [b] s = (s, bareFrame .empty) := by
  simp only [dropLogRead, if_neg (not_lt.mpr h), List.getElem?_eq_none hl]

end Read

/-- A mark bit that tells the ending of a record. -/
theorem bitAt_ending (k : Nat) (e f : DropEnding) : bitAt k (e == f) = if e = f then 2 ^ k else 0 := by
  simp only [bitAt, beq_iff_eq]

/-- Section 8.6: the bytes of a record, with the marks and the jolted set as sums of bits. -/
theorem dropBytes_eq (r : DropRecord) : dropBytes r =
    le16 r.seq ++ [byteOf (dropKindCode r.kind)] ++ le16 r.n ++ le16 r.height ++ le16 r.peak
      ++ [byteOf ((if r.saturated then 1 else 0) + (if r.ending = .unsettled then 2 else 0) + if r.ending = .stalled then 4 else 0),
          byteOf (restAxisCode r.rest)] ++ le32 r.time
      ++ [byteOf ((if r.jolted.a then 1 else 0) + if r.jolted.b then 2 else 0)] := by
  rw [dropBytes, bitAt_ending, bitAt_ending]
  rfl

/-- In an ascending list as many elements lie below an element as stand before it. -/
theorem countP_lt_of_pairwise_lt {l : List Nat} (h : l.Pairwise (· < ·)) :
    ∀ {i a : Nat}, l[i]? = some a → (l.countP fun x => decide (x < a)) = i := by
  induction h with
  | nil => exact fun ha => nomatch ha
  | @cons x l hx _ ih =>
    intro i a ha
    cases i with
    | zero =>
      obtain rfl : x = a := Option.some.inj ha
      have habove : ∀ y ∈ x :: l, x ≤ y := List.forall_mem_cons.mpr ⟨le_rfl, fun y hy => (hx y hy).le⟩
      exact List.countP_eq_zero.mpr fun y hy => by simpa using habove y hy
    | succ i =>
      have hlt : x < a := hx a (List.mem_of_getElem? ha)
      rw [List.countP_cons, ih ha, if_pos (decide_eq_true hlt)]

/-- R159: the index of a record counts the records of lower sequences. -/
theorem countP_seq_lt {g : DropLog} (h : logLaw g) {i : Nat} {r : DropRecord} (hr : g.records[i]? = some r) :
    (g.records.countP fun q => decide (q.seq < r.seq)) = i := by
  obtain ⟨-, hsorted, -, -⟩ := h
  have hseq : (g.records.map DropRecord.seq)[i]? = some r.seq := by rw [List.getElem?_map, hr]; rfl
  have hcount := countP_lt_of_pairwise_lt hsorted hseq
  rwa [List.countP_map] at hcount

/-! ### Drop Log Clear (R160) -/

theorem exec_dropLogClear (p : List Byte) (s : State) : exec (.dropLogClear p) s = .next (manage (noParams p dropLogClear) s) := rfl

/-- R160: the next sequence lies above every record of the log. -/
theorem seq_lt_next {g : DropLog} (h : logLaw g) {r : DropRecord} (hr : r ∈ g.records) {q : Nat} (hq : g.next = some q) : r.seq < q := by
  obtain ⟨-, -, -, hnext⟩ := h
  obtain ⟨-, -, hbelow⟩ := hnext q hq
  exact hbelow r hr

/-- Settles O57: each command is its body on `begun s`, which has the log of `s`; the facts about sequences are the log's law. -/
theorem dropLogReadAndClear : Obligations.DropLogReadAndClear := by
  refine ⟨⟨fun b s h hb => ?param, fun b s h hb => ⟨fun hlaw r hr => countP_seq_lt hlaw hr, fun r hr => ?record, fun hl => ?empty⟩⟩,
    fun s h hlaw => ⟨?clear, hlaw.1, fun r hr q hq => seq_lt_next hlaw hr hq⟩⟩
  case param => rw [exec_dropLogRead, manage_of_accepts h (dropLogRead_of_gt hb)]
  case record => rw [exec_dropLogRead, manage_of_accepts h (dropLogRead_of_some hb hr), dropBytes_eq]
  case empty => rw [exec_dropLogRead, manage_of_accepts h (dropLogRead_of_length_le hb hl)]
  case clear => rw [exec_dropLogClear, manage_of_accepts h (noParams_nil _ _)]; rfl

end Sys2Proof.Machine
end

