-- ==== Sys2Proof/Proofs/TableWordCommands.lean ====
section
/-! PROOFS. Table Write and Table Read (R169, R176): the words that parameter bytes give, the count of blank words of a range, what the two
commands do with a range that passes their tests. -/

namespace Sys2Proof.Machine

/-! ### The words of the parameters (R192) -/

theorem length_wordsOf {n : Nat} : ∀ {l : List Byte}, l.length = 4 * n → (wordsOf l).length = n := by
  induction n with
  | zero =>
    intro l h
    rw [List.eq_nil_of_length_eq_zero h]
    rfl
  | succ n ih =>
    intro l h
    match l with
    | b0 :: b1 :: b2 :: b3 :: rest =>
      have hrest : rest.length = 4 * n := by simp only [List.length_cons] at h; omega
      exact congrArg Nat.succ (ih hrest)

/-- R192: word `k` comes from the four bytes from `4 * k` on, the low one first. -/
theorem getElem?_wordsOf {k : Nat} {b0 b1 b2 b3 : Byte} : ∀ {l : List Byte}, l[4 * k]? = some b0 → l[4 * k + 1]? = some b1 →
    l[4 * k + 2]? = some b2 → l[4 * k + 3]? = some b3 → (wordsOf l)[k]? = some (wordOf b0 b1 b2 b3) := by
  induction k with
  | zero =>
    intro l h0 h1 h2 h3
    match l with
    | c0 :: c1 :: c2 :: c3 :: rest =>
      cases h0; cases h1; cases h2; cases h3
      rfl
  | succ k ih =>
    intro l h0 h1 h2 h3
    match l with
    | c0 :: c1 :: c2 :: c3 :: rest => exact ih (l := rest) h0 h1 h2 h3

/-! ### The blank words of a range (R176) -/

theorem Memory.blanks_eq_countP (m : Memory) (i n : Nat) :
    Memory.blanks m i n = (List.range n).countP fun k => (Memory.get? m (i + k)).isNone :=
  List.countP_eq_length_filter.symm

theorem Memory.blanks_of_blank {m : Memory} {i n : Nat} (h : ∀ k, k < n → Memory.get? m (i + k) = none) :
    Memory.blanks m i n = n := by
  have hall : ∀ k ∈ List.range n, (Memory.get? m (i + k)).isNone = true := fun k hk => by rw [h k (List.mem_range.mp hk)]; rfl
  rw [Memory.blanks_eq_countP, List.countP_eq_length.mpr hall, List.length_range]

theorem Memory.blanks_of_written {m : Memory} {i n : Nat} (h : ∀ k, k < n → Memory.get? m (i + k) ≠ none) :
    Memory.blanks m i n = 0 := by
  rw [Memory.blanks_eq_countP]
  refine List.countP_eq_zero.mpr fun k hk => ?_
  rw [Option.isNone_iff_eq_none]
  exact h k (List.mem_range.mp hk)

/-- R171, test 1: the words of a region that pass its check are all written. -/
theorem get?_ne_none_of_checkFailure {r : RegionId} {m : Memory} (h : checkFailure r m = none) {i : Nat} (hi : i < Config.regionSize r) :
    Memory.get? m i ≠ none := by
  have hlow : lowestBlank r m = none := by
    unfold checkFailure at h
    split at h
    · cases h
    · assumption
  have hwritten := List.find?_eq_none.mp hlow i (List.mem_range.mpr hi)
  rwa [Option.isNone_iff_eq_none] at hwritten

/-- R164: a region in service has no blank word. -/
theorem blanks_of_inService {r : RegionId} {g : Region} (hlaw : regionLaw r g) (hs : g.state = .inService) {off n : Nat}
    (hr : off + n ≤ Config.regionSize r) : Memory.blanks g.words off n = 0 := by
  obtain ⟨-, -, -, hpass⟩ := hlaw
  exact Memory.blanks_of_written fun k hk => get?_ne_none_of_checkFailure (hpass hs) (by omega)

/-! ### A range that passes the tests (R167) -/

theorem rangeBad_of_le {r : RegionId} {off n : Nat} (h1 : 1 ≤ n) (h48 : n ≤ 48) (hr : off + n ≤ Config.regionSize r) :
    rangeBad r off n = false := by
  simp only [rangeBad, Bool.or_eq_false_iff, beq_eq_false_iff_ne, decide_eq_false_iff_not]
  omega

/-! ### Table Write (R169) -/

theorem exec_tableWrite (p : List Byte) (s : State) : exec (.tableWrite p) s = .next (manage (tableWriteParams p) s) := rfl

theorem tableWriteParams_of_region {r : RegionId} {b off n : Byte} {rest : List Byte} (hb : regionOfByte b = some r)
    (hl : rest.length = 4 * n.toNat) (s : State) :
    tableWriteParams (b :: off :: n :: rest) s = tableWrite r off.toNat (wordsOf rest) s := by
  simp only [tableWriteParams, if_pos hl, hb]

/-- R169: blank words of an EMPTY or LOADING region are stored. -/
theorem tableWrite_of_blank {r : RegionId} {off : Nat} {ws : List Word} {s : State} (hbad : rangeBad r off ws.length = false)
    (hlock : (s.tables.get r).lock = false)
    (hst : (s.tables.get r).state = .empty ∨ (s.tables.get r).state = .loading)
    (hblank : Memory.blanks (s.tables.get r).words off ws.length = ws.length) :
    tableWrite r off ws s = (storeWords r off ws s, okFrame [byteOf (blankCount r (storeWords r off ws s))]) := by
  obtain hst | hst := hst <;> simp [tableWrite, hbad, hlock, hst, hblank]

/-- R169: the words of the region before the write may stand in place of those of the update. -/
theorem storeWords_eq (r : RegionId) (off : Nat) (ws : List Word) (s : State) : storeWords r off ws s
    = updRegion r (fun g => { g with state := .loading, words := Memory.writeAll (s.tables.get r).words off ws }) s := by
  cases r <;> rfl

theorem blankCount_storeWords (r : RegionId) (off : Nat) (ws : List Word) (s : State) : blankCount r (storeWords r off ws s)
    = (List.range (Config.regionSize r)).countP fun i => (Memory.get? (Memory.writeAll (s.tables.get r).words off ws) i).isNone := by
  simp only [blankCount, storeWords, updRegion_tables, Tables.get_upd_self, Memory.blanks_eq_countP, Nat.zero_add]

/-! ### Table Read (R176) -/

theorem exec_tableRead (p : List Byte) (s : State) : exec (.tableRead p) s = .next (manage (tableReadParams p) s) := rfl

/-- R176: the words of a range are read in every state of the region. -/
theorem tableReadParams_of_range {r : RegionId} {b off n : Byte} {s : State} (hb : regionOfByte b = some r)
    (hbad : rangeBad r off.toNat n.toNat = false) :
    tableReadParams [b, off, n] s = (s, okFrame (byteOf (Memory.blanks (s.tables.get r).words off.toNat n.toNat)
      :: rangeBytes (s.tables.get r).words off.toNat n.toNat)) := by
  simp only [tableReadParams, hb, tableRead, hbad, Bool.false_eq_true, if_false]

/-- Settles O59: each command is its body on `begun s`, which has the tables of `s`; the words written are those of `wordsOf`, and the clauses
on the words are the rules of `Memory.writeAll` and `Memory.blanks`. -/
theorem tableWriteAndRead : Obligations.TableWriteAndRead := by
  refine ⟨fun r b off n rest s h hb h1 h48 hr hl hlock hst hblank => ?write, fun r b off n s h hb h1 h48 hr => ?read⟩
  case write =>
    have hlen : (wordsOf rest).length = n.toNat := length_wordsOf hl
    have hbody := (tableWriteParams_of_region (off := off) hb hl (begun s)).trans
      (tableWrite_of_blank (by rw [hlen]; exact rangeBad_of_le h1 h48 hr) hlock hst (by rw [hlen]; exact Memory.blanks_of_blank hblank))
    refine ⟨Memory.writeAll (s.tables.get r).words off.toNat (wordsOf rest), _, ?_,
      fun k b0 b1 b2 b3 hk h0 h1 h2 h3 => ?_, fun i hi => Memory.get?_writeAll_out _ _ _ _ (hlen.symm ▸ hi),
      blankCount_storeWords r off.toNat (wordsOf rest) (begun s)⟩
    · rw [exec_tableWrite, manage_of_accepts h hbody, storeWords_eq]
      rfl
    · rw [Memory.get?_writeAll_in _ _ _ _ (hk.trans_eq hlen.symm), getElem?_wordsOf h0 h1 h2 h3]
      rfl
  case read =>
    have hbody := tableReadParams_of_range (s := begun s) hb (rangeBad_of_le h1 h48 hr)
    refine ⟨_, Memory.blanks_eq_countP _ _ _, ?_, fun hnil => ?_, fun hlaw hs => blanks_of_inService hlaw hs hr⟩
    · rw [exec_tableRead, manage_of_accepts h hbody]
      rfl
    · exact Memory.blanks_of_blank fun k _ => by rw [hnil]; rfl

end Sys2Proof.Machine
end

