-- ==== Sys2Proof/Proofs/IdentityAndAttention.lean ====
section
/-! PROOFS. Identify and Reset Part (R188 to R190), the uptime (R188), Sense Attention (R200) and the two effects of a posting on the queue
(R197). -/

namespace Sys2Proof.Machine

/-! ### Identify (R188) -/

theorem exec_identify (p : List Byte) (s : State) : exec (.identify p) s = .next (manage (noParams p identify) s) := rfl

/-- R194: the bytes of the identity record, with the part code and the revision spelled out and the lock mark as bit 7. -/
theorem identifyBytes_eq (s : State) : identifyBytes s =
    [0x40, 0x52, 0x01]
      ++ [RegionId.config, .codemap, .curve, .motion].map (fun r =>
          byteOf (regionStateCode (s.tables.get r).state + if (s.tables.get r).lock then 128 else 0))
      ++ le32 s.time.uptime := rfl

/-! ### Reset Part (R189, R190) -/

theorem exec_resetPart (p : List Byte) (s : State) : exec (.resetPart p) s = .next (resetPart p s) := rfl

theorem resetPart_of_accepts {s : State} (h : accepts s) : resetPart [] s = softReset (begun s) := by
  obtain ⟨hfree, hslot⟩ := h
  simp only [resetPart, hfree, hslot]
  rfl

/-- R190: the port is the last block that a software reset takes. -/
theorem softReset_port (s : State) : (softReset s).port = { slot := .empty, resetSeen := true } := rfl

/-- R189: a software reset leaves the time base. -/
theorem softReset_time (s : State) : (softReset s).time = s.time := by
  rw [softReset_eq, resetTail_time, resetBase_time]

/-! ### Sense Attention (R200) -/

theorem exec_senseAttention (p : List Byte) (s : State) : exec (.senseAttention p) s = .next (manage (noParams p senseHead) s) := rfl

theorem senseHead_of_nil {s : State} (h : s.attn.queue = []) : senseHead s = (s, bareFrame .empty) := by
  simp only [senseHead, h]

theorem senseHead_of_cons {s : State} {e : AttnEntry} {rest : List AttnEntry} (h : s.attn.queue = e :: rest) :
    senseHead s = ({ s with attn := { queue := rest, req := decide (rest ≠ []) } }, okFrame (attnBytes e)) := by
  have hreq : (!rest.isEmpty) = decide (rest ≠ []) := by cases rest <;> rfl
  simp only [senseHead, h, hreq]

/-! ### A posting (R197, R199) -/

/-- R197: a posting of a queued pair changes the first entry of that pair, in its place. -/
theorem coalesce_append_cons {k : AttnKey} {e : AttnEntry} {l1 : List AttnEntry} (hl1 : ∀ q ∈ l1, q.key ≠ k) (he : e.key = k)
    (d : Detail) (now : Nat) (l2 : List AttnEntry) :
    coalesce k d now (l1 ++ e :: l2) = l1 ++ { e with count := min 255 (e.count + 1), detail := d } :: l2 := by
  induction l1 with
  | nil => exact if_pos he
  | cons a l1 ih =>
    obtain ⟨ha, hrest⟩ := List.forall_mem_cons.mp hl1
    exact (if_neg ha).trans (congrArg (a :: ·) (ih hrest))

/-- R197: a pair that is not queued. -/
theorem post_of_new {k : AttnKey} {s : State} (h : ∀ e ∈ s.attn.queue, e.key ≠ k) (d : Detail) :
    post k d s = { s with attn := {
      queue := s.attn.queue ++ [{ key := k, count := 1, first := s.time.uptime, detail := d }], req := true } } := by
  have hk : k ∉ s.attn.queue.map AttnEntry.key := fun hmem => by
    obtain ⟨e, he, hek⟩ := List.mem_map.mp hmem
    exact h e he hek
  rw [post, coalesce_keys_new k d _ _ hk]

/-- R197: a pair that is queued. -/
theorem post_of_queued {k : AttnKey} {s : State} {l1 l2 : List AttnEntry} {e : AttnEntry} (hq : s.attn.queue = l1 ++ e :: l2)
    (hl1 : ∀ q ∈ l1, q.key ≠ k) (he : e.key = k) (d : Detail) :
    post k d s = { s with attn := {
      queue := l1 ++ { e with count := min 255 (e.count + 1), detail := d } :: l2, req := true } } := by
  rw [post, hq, coalesce_append_cons hl1 he]

/-- Settles O49: Identify and Sense Attention are their bodies on `begun s`, which has the tables, the time and the queue of `s`; Reset Part is
the software reset, which leaves the time base; a posting is `coalesce` on the queue. -/
theorem identifyAndSenseAttention : Obligations.IdentifyAndSenseAttention := by
  refine ⟨⟨fun s h => ?identify, fun p s h hp => ?identifyParam, fun s h => ?reset, fun l s => ⟨_, rfl, rfl⟩, fun s => rfl⟩,
    fun s h => ⟨fun p hp => ?senseParam, fun hq => ?senseEmpty, fun e rest hq => ?senseHead⟩,
    fun k d s => ⟨fun hnew => post_of_new hnew d, fun l1 e l2 hq hl1 he => post_of_queued hq hl1 he d⟩⟩
  case identify =>
    rw [exec_identify, manage_of_accepts h (noParams_nil _ _), identifyBytes_eq]
    rfl
  case identifyParam => rw [exec_identify, manage_of_accepts h (noParams_of_ne_nil hp _ _)]
  case reset =>
    exact ⟨_, exec_resetPart [] s, by rw [resetPart_of_accepts h, softReset_port],
      by rw [resetPart_of_accepts h, softReset_time]; rfl⟩
  case senseParam => rw [exec_senseAttention, manage_of_accepts h (noParams_of_ne_nil hp _ _)]
  case senseEmpty =>
    rw [exec_senseAttention, manage_of_accepts h ((noParams_nil _ _).trans (senseHead_of_nil hq))]
  case senseHead =>
    rw [exec_senseAttention, manage_of_accepts h ((noParams_nil _ _).trans (senseHead_of_cons hq))]
    rfl

end Sys2Proof.Machine
end

