-- ==== Sys2Proof/Proofs/StepInvariants.lean ====
section
/-! PROOFS. What every step keeps: the two forms of a step, the rows of a property that survives each change a row makes, and the invariants that
follow from the laws of the actions alone. -/

namespace Sys2Proof.Machine

/-! ### The two forms of a step -/

theorem step_of_nil {s : State} (h : s.pending = []) : step s = .next (idle s) := by rw [step, h]

theorem step_of_cons {s : State} {c : Instr} {rest : List Instr} (h : s.pending = c :: rest) :
    step s = exec c { s with pending := rest } := by rw [step, h]

/-- A step is what the part does by itself on an empty queue, or the row at the front of the queue. -/
theorem step_cases {s t : State} (e : step s = .next t) :
    (s.pending = [] ∧ t = idle s) ∨ ∃ c rest, s.pending = c :: rest ∧ exec c { s with pending := rest } = .next t := by
  cases h : s.pending with
  | nil => rw [step_of_nil h] at e; injection e with e; exact .inl ⟨rfl, e.symm⟩
  | cons c rest => rw [step_of_cons h] at e; exact .inr ⟨c, rest, rfl, e⟩

/-- On an empty queue only the timers and the queue change. -/
theorem idle_keeps {P : State → Prop} (hq : ∀ s l, P s → P { s with pending := l }) (ht : ∀ s, P s → P (tickTimers s)) {s : State}
    (h : P s) : P (idle s) := by
  unfold idle
  split
  · exact hq _ _ (ht _ h)
  · exact hq _ _ h

/-- A step keeps what every row keeps, the timers keep and the queue does not matter to. -/
theorem step_keeps {P : State → Prop} (hq : ∀ s l, P s → P { s with pending := l }) (ht : ∀ s, P s → P (tickTimers s))
    (hr : ∀ i s t, P s → exec i s = .next t → P t) {s t : State} (h : P s) (e : step s = .next t) : P t := by
  rcases step_cases e with ⟨-, rfl⟩ | ⟨c, rest, -, e⟩
  · exact idle_keeps hq ht h
  · exact hr c _ t (hq s rest h) e

/-! ### Rows of commands -/

/-- The row of a command is no byte row, so it completes no other command. -/
theorem completed_of_commandRow {c : BitVec 7} {p : List Byte} {j : Instr} (h : commandRow c p = some j) (s : State) :
    completed j s = none := by
  unfold commandRow at h
  split at h <;> first | (injection h with h; subst h; rfl) | cases h

/-- The row that a byte completes is the row of a command. -/
theorem commandRow_of_completedBy {b : Byte} {u : Upstream} {j : Instr} (h : completedBy b u = some j) :
    ∃ c p, commandRow c p = some j := by
  unfold completedBy at h
  split at h
  · split at h
    · exact ⟨_, _, h⟩
    · cases h
  · exact ⟨_, _, h⟩
  · cases h

/-- A byte that completes a command runs the command's row, which is no byte row. -/
theorem commandRow_of_completed {i j : Instr} {s : State} (h : completed i s = some j) : ∃ c p, commandRow c p = some j := by
  unfold completed at h
  split at h
  · exact commandRow_of_completedBy h
  · exact commandRow_of_completedBy h
  · cases h

/-- What the rows keep that complete no command, every row keeps. -/
theorem exec_keeps_of_rows {P : State → Prop} (k : ∀ i s t, completed i s = none → P s → exec i s = .next t → P t)
    (i : Instr) (s t : State) (h : P s) (e : exec i s = .next t) : P t := by
  cases hc : completed i s with
  | none => exact k i s t hc h e
  | some j =>
    obtain ⟨c, p, hj⟩ := commandRow_of_completed hc
    exact k j s t (completed_of_commandRow hj s) h (exec_completed hc ▸ e)

/-- What survives every change that a row of the machine makes, every row keeps; the byte that completes a command needs no case of its own. -/
theorem exec_keeps {P : State → Prop}
    (k : ∀ i, (∀ s t j, completed i s = some j → runCommand j s = .next t → P s → P t) → RowKeeps i P)
    (i : Instr) (s t : State) (h : P s) (e : exec i s = .next t) : P t := by
  have command : ∀ {c p j}, commandRow c p = some j → ∀ s t, runCommand j s = .next t → P s → P t := fun {c p j} hj s t e h => by
    have none_completed : ∀ u, completed j u = none := completed_of_commandRow hj
    exact (k j fun s t j' hc _ _ => by rw [none_completed s] at hc; cases hc).exec h (runCommand_eq_exec hj s ▸ e)
  refine (k i fun s t j hc e h => ?_).exec h e
  obtain ⟨c, p, hj⟩ := commandRow_of_completed hc
  exact command hj s t e h

/-- Settles O1. -/
theorem stepRunsTheFrontRow : Obligations.StepRunsTheFrontRow := fun _ _ _ => step_of_cons rfl

end Sys2Proof.Machine
end

