-- ==== Sys2Proof/Proofs/FourLaws.lean ====
section
/-! PROOFS. Every step keeps the laws of the power lines, the Attention Queue, the Drop Log and the Motion Monitor (R11, R146 to R148, R154, R197 to
R199): what a table row hands over, what the timers leave, and one family of row lemmas for each law. -/

namespace Sys2Proof.Machine

/-! ### Table rows -/

section TableRows
variable {P : State → Prop} {s : State}

/-- R171: the end of a check changes its region and hands over. -/
theorem endCheck_keeps (hs : ∀ s t, Serves s t → P s → P t) (hr : ∀ r f s, P s → P (updRegion r f s)) (r : RegionId) (h : P s) :
    P (endCheck r s) := by
  unfold endCheck
  split
  · split
    · exact hs _ _ (((Serves.refl _).enterService r).acts ((Acts.refl _).post _ _)) (hr r _ s h)
    · exact hs _ _ ((Serves.refl _).acts ((Acts.refl _).post _ _)) (hr r _ s h)
  · exact h

/-- R168: Table Clear changes its region and hands over. -/
theorem tableClear_keeps (hs : ∀ s t, Serves s t → P s → P t) (hr : ∀ r f s, P s → P (updRegion r f s)) (r : RegionId) (h : P s) :
    P (tableClear r s).1 := by
  unfold tableClear
  split
  · exact h
  · split
    · exact h
    · unfold clearRegion
      split
      · exact hs _ _ ((Serves.refl _).leaveService r) (hr r _ s h)
      · exact hr r _ s h

theorem tableWrite_keeps (hr : ∀ r f s, P s → P (updRegion r f s)) (r : RegionId) (off : Nat) (ws : List Word) (h : P s) :
    P (tableWrite r off ws s).1 := by
  unfold tableWrite
  split_ifs
  all_goals first | exact h | exact hr r _ s h

theorem tableCheck_keeps (hr : ∀ r f s, P s → P (updRegion r f s)) (r : RegionId) (h : P s) : P (tableCheck r s).1 := by
  unfold tableCheck
  split
  · exact hr r _ s h
  · exact h

theorem tableLock_keeps (hr : ∀ r f s, P s → P (updRegion r f s)) (r : RegionId) (h : P s) : P (tableLock r s).1 := by
  unfold tableLock
  split
  · exact hr r _ s h
  · exact h

end TableRows

/-! ### Timers -/

theorem powerLaw_tick {p : PowerPath} (h : powerLaw p) : powerLaw (tickBridge p) := by
  obtain ⟨hl, hs, hp, ht⟩ := h
  exact ⟨hl, hs, hp, fun hi => by unfold tickBridge at hi ⊢; exact (if_pos hi).trans (ht hi)⟩

theorem isSome_down (t : Option Nat) : (down t).isSome = t.isSome := by cases t <;> rfl

theorem motionLaw_tick {m : Motion} (h : motionLaw m) : motionLaw { m with stall := down m.stall, hold := down m.hold } := by
  obtain ⟨hp, hs, hw, hh⟩ := h
  exact ⟨hp, (isSome_down _).trans hs, hw, (isSome_down _).trans hh⟩

/-! ### The bridge lines (R11) -/

theorem powerLaw_rows (i : Instr) (hl : ∀ s t j, completed i s = some j → runCommand j s = .next t → powerLaw s.pp → powerLaw t.pp) :
    RowKeeps i (fun s => powerLaw s.pp) where
  acts _ _ a h := a.power h
  lines _ _ _ a h := a.moves.power h
  slot _ _ h := h
  por _ _ _ _ := ⟨rfl, rfl, rfl, fun _ => rfl⟩
  ext _ _ _ h := h
  ready _ _ _ h := h
  uptime _ _ h := h
  poll _ _ h := h
  lane _ h := h
  light _ _ _ _ _ _ _ h := h
  sample _ _ _ _ _ _ p s _ h := ((Keeps.refl s).takeSample p).power h
  stall s _ h := (Keeps.refl s).stallOut.power h
  hold s _ h := (Keeps.refl s).holdOut.power h
  check r s _ h := endCheck_keeps (P := fun s => powerLaw s.pp) (fun _ _ a => a.power) (fun _ _ _ h => h) r h
  seen _ _ _ h := h
  sense _ _ _ _ _ _ h := h
  flag _ _ _ _ _ h := h
  reset _ s _ h := by rw [softReset_eq]; exact resetTail_power _ ((resetBase_pp s).symm ▸ h)
  bright _ s _ _ _ _ h := by unfold setBrightness; rw [recompute_pp]; exact h
  sticky _ _ _ h := h
  logClear _ _ _ h := h
  clear _ r _ _ h := tableClear_keeps (P := fun s => powerLaw s.pp) (fun _ _ a => a.power) (fun _ _ _ h => h) r h
  write _ r off ws _ _ h := tableWrite_keeps (P := fun s => powerLaw s.pp) (fun _ _ _ h => h) r off ws h
  begin _ r _ _ h := tableCheck_keeps (P := fun s => powerLaw s.pp) (fun _ _ _ h => h) r h
  lock _ r _ _ h := tableLock_keeps (P := fun s => powerLaw s.pp) (fun _ _ _ h => h) r h
  last := hl

/-! ### The Attention Queue (R197 to R199) -/

/-- R200: the law of the queue without its head. -/
theorem attnLaw_tail {a : Attn} {e : AttnEntry} {rest : List AttnEntry} (hq : a.queue = e :: rest) (h : attnLaw a) :
    attnLaw { queue := rest, req := !rest.isEmpty } := by
  obtain ⟨hn, hc, -⟩ := h
  rw [hq] at hn hc
  exact ⟨(List.nodup_cons.1 hn).2, fun q hm => hc q (List.mem_cons_of_mem _ hm), rfl⟩

theorem attnLaw_recompute {s : State} (h : attnLaw s.attn) : attnLaw (recompute s).attn := by
  rw [recompute_eq]; exact attnLaw_cutAttn _ _ _ h

theorem attnLaw_rows (i : Instr) (hl : ∀ s t j, completed i s = some j → runCommand j s = .next t → attnLaw s.attn → attnLaw t.attn) :
    RowKeeps i (fun s => attnLaw s.attn) where
  acts _ _ a h := a.attn h
  lines _ _ _ a h := a.moves.attn h
  slot _ _ h := h
  por _ _ _ _ := attnLaw_empty
  ext _ _ _ h := h
  ready _ _ _ h := h
  uptime _ _ h := h
  poll _ _ h := h
  lane _ h := h
  light _ _ _ _ _ _ _ h := h
  sample _ _ _ _ _ _ p s _ h := ((Keeps.refl s).takeSample p).attn h
  stall s _ h := (Keeps.refl s).stallOut.attn h
  hold s _ h := (Keeps.refl s).holdOut.attn h
  check r s _ h := endCheck_keeps (P := fun s => attnLaw s.attn) (fun _ _ a => a.attn) (fun _ _ _ h => h) r h
  seen _ _ _ h := h
  sense _ _ _ _ _ hq h := attnLaw_tail hq h
  flag _ _ _ _ _ h := h
  reset _ s _ _ := by rw [softReset_eq]; exact resetTail_attn _ (resetBase_attn s)
  bright _ _ _ _ _ _ h := attnLaw_recompute h
  sticky _ _ _ h := h
  logClear _ _ _ h := h
  clear _ r _ _ h := tableClear_keeps (P := fun s => attnLaw s.attn) (fun _ _ a => a.attn) (fun _ _ _ h => h) r h
  write _ r off ws _ _ h := tableWrite_keeps (P := fun s => attnLaw s.attn) (fun _ _ _ h => h) r off ws h
  begin _ r _ _ h := tableCheck_keeps (P := fun s => attnLaw s.attn) (fun _ _ _ h => h) r h
  lock _ r _ _ h := tableLock_keeps (P := fun s => attnLaw s.attn) (fun _ _ _ h => h) r h
  last := hl

/-! ### The Drop Log (R154, R155, R160) -/

/-- R147: the record of a stalled episode keeps the law of the log. -/
theorem logLaw_stallOut {s : State} (h : logLaw s.log) : logLaw (stallOut s).log := by
  unfold stallOut
  split
  · exact h
  · unfold endEpisode; rw [log_returnToArmed]; exact logLaw_writeRecord _ _ s h

theorem log_holdOut (s : State) : (holdOut s).log = s.log := by
  unfold holdOut
  split
  · exact log_closeWindow s
  · rfl

/-- R160: a cleared log keeps the sequence that comes next. -/
theorem logLaw_clear {g : DropLog} (h : logLaw g) : logLaw { g with records := [] } := by
  obtain ⟨-, -, -, hnext⟩ := h
  exact ⟨by simp, by simp, by simp, fun q hq => ⟨(hnext q hq).1, (hnext q hq).2.1, by simp⟩⟩

theorem logLaw_por : logLaw { records := [], next := some 1 } :=
  ⟨by simp, by simp, by simp, fun q hq => by cases hq; exact ⟨by decide, by decide, by simp⟩⟩

theorem logLaw_rows (i : Instr) (hl : ∀ s t j, completed i s = some j → runCommand j s = .next t → logLaw s.log → logLaw t.log) :
    RowKeeps i (fun s => logLaw s.log) where
  acts _ _ a h := a.log.symm ▸ h
  lines _ _ _ a h := a.moves.log.symm ▸ h
  slot _ _ h := h
  por _ _ _ _ := logLaw_por
  ext _ _ _ h := h
  ready _ _ _ h := h
  uptime _ _ h := h
  poll _ _ h := h
  lane _ h := h
  light _ _ _ _ _ _ _ h := h
  sample _ _ _ _ _ _ p s _ h := logLaw_takeSample p s h
  stall _ _ h := logLaw_stallOut h
  hold s _ h := (log_holdOut s).symm ▸ h
  check r s _ h := endCheck_keeps (P := fun s => logLaw s.log) (fun _ _ a h => a.log.symm ▸ h) (fun _ _ _ h => h) r h
  seen _ _ _ h := h
  sense _ _ _ _ _ _ h := h
  flag _ _ _ _ _ h := h
  reset _ s _ h := by rw [softReset_eq, resetTail_log, resetBase_log]; exact h
  bright _ s _ _ _ _ h := by unfold setBrightness; rw [recompute_eq]; exact h
  sticky _ _ _ h := h
  logClear _ _ _ h := logLaw_clear h
  clear _ r _ _ h := tableClear_keeps (P := fun s => logLaw s.log) (fun _ _ a h => a.log.symm ▸ h) (fun _ _ _ h => h) r h
  write _ r off ws _ _ h := tableWrite_keeps (P := fun s => logLaw s.log) (fun _ _ _ h => h) r off ws h
  begin _ r _ _ h := tableCheck_keeps (P := fun s => logLaw s.log) (fun _ _ _ h => h) r h
  lock _ r _ _ h := tableLock_keeps (P := fun s => logLaw s.log) (fun _ _ _ h => h) r h
  last := hl

/-! ### The Motion Monitor (R146 to R148) -/

theorem motionLaw_serves {s t : State} (a : Serves s t) (h : motionLaw s.motion) : motionLaw t.motion := by
  rw [a.motion]; exact (motionLaw_jolted _ _).2 h

theorem motionLaw_stallOut {s : State} (h : motionLaw s.motion) : motionLaw (stallOut s).motion := by
  unfold stallOut
  split
  · exact h
  · exact motionLaw_returnToArmed _

/-- R148: a HOLDING window has an ARMED detector, since the window is OPEN during an episode. -/
theorem motionLaw_holdOut {s : State} (h : motionLaw s.motion) : motionLaw (holdOut s).motion := by
  unfold holdOut
  split
  · next hw =>
    obtain ⟨hp, hs, hopen, hh⟩ := h
    refine motionLaw_closeWindow s ⟨hp, hs, hopen, hh⟩ (Classical.byContradiction fun hd => ?_)
    cases (hopen hd).symm.trans hw
  · exact h

theorem motionLaw_disarm (m : Motion) (h : motionLaw m) : motionLaw { disarmMotion m with jolted := ⟨false, false⟩ } := by
  obtain ⟨-, -, -, hh⟩ := h
  exact ⟨rfl, rfl, fun hd => absurd rfl hd, hh⟩

theorem motionLaw_softReset {s : State} (h : motionLaw s.motion) : motionLaw (softReset s).motion := by
  rw [softReset_eq]
  refine (resetTail_motion _ ?_ ?_).1
  · rw [resetBase_motion]; exact motionLaw_disarm _ h
  · rw [resetBase_motion]; rfl

theorem motion_recompute (s : State) : (recompute s).motion = s.motion := by rw [recompute_eq]

theorem motionLaw_rows (i : Instr)
    (hl : ∀ s t j, completed i s = some j → runCommand j s = .next t → motionLaw s.motion → motionLaw t.motion) :
    RowKeeps i (fun s => motionLaw s.motion) where
  acts _ _ a h := a.motionLaw h
  lines _ _ _ a h := by rw [a.moves.motion]; exact (motionLaw_jolted _ _).2 h
  slot _ _ h := h
  por _ _ _ _ := ⟨rfl, rfl, fun hd => absurd rfl hd, rfl⟩
  ext _ _ _ h := h
  ready _ _ _ h := h
  uptime _ _ h := h
  poll _ _ h := h
  lane _ h := h
  light _ _ _ _ _ _ _ h := h
  sample _ _ _ _ _ _ p s _ h := motionLaw_takeSample p s h
  stall _ _ h := motionLaw_stallOut h
  hold _ _ h := motionLaw_holdOut h
  check r s _ h := endCheck_keeps (P := fun s => motionLaw s.motion) (fun _ _ => motionLaw_serves) (fun _ _ _ h => h) r h
  seen _ _ _ h := h
  sense _ _ _ _ _ _ h := h
  flag _ _ _ _ _ h := h
  reset _ _ _ h := motionLaw_softReset h
  bright _ _ _ _ _ _ h := by unfold setBrightness; rw [motion_recompute]; exact h
  sticky _ _ _ h := h
  logClear _ _ _ h := h
  clear _ r _ _ h := tableClear_keeps (P := fun s => motionLaw s.motion) (fun _ _ => motionLaw_serves) (fun _ _ _ h => h) r h
  write _ r off ws _ _ h := tableWrite_keeps (P := fun s => motionLaw s.motion) (fun _ _ _ h => h) r off ws h
  begin _ r _ _ h := tableCheck_keeps (P := fun s => motionLaw s.motion) (fun _ _ _ h => h) r h
  lock _ r _ _ h := tableLock_keeps (P := fun s => motionLaw s.motion) (fun _ _ _ h => h) r h
  last := hl

/-! ### The statement -/

/-- Settles O5: each law is kept by the timers and by every row. -/
theorem everyStepKeepsThePowerAttentionLogAndMotionLaws : Obligations.EveryStepKeepsThePowerAttentionLogAndMotionLaws :=
  ⟨fun _ _ => step_keeps (P := fun s => powerLaw s.pp) (fun _ _ h => h) (fun _ => powerLaw_tick) (exec_keeps powerLaw_rows),
   fun _ _ => step_keeps (P := fun s => attnLaw s.attn) (fun _ _ h => h) (fun _ h => h) (exec_keeps attnLaw_rows),
   fun _ _ => step_keeps (P := fun s => logLaw s.log) (fun _ _ h => h) (fun _ h => h) (exec_keeps logLaw_rows),
   fun _ _ => step_keeps (P := fun s => motionLaw s.motion) (fun _ _ h => h) (fun _ => motionLaw_tick) (exec_keeps motionLaw_rows)⟩

end Sys2Proof.Machine
end

