-- ==== Sys2Proof/Proofs/TablesOutputCounts.lean ====
section
/-! PROOFS. Every step keeps the laws of Table Memory, of the output level and of the failure counts (R64, R114, R163, R164), and the budget record
current (R105): what a table command and the end of a check can do, and when two states have the same contents in effect. -/

namespace Sys2Proof.Machine

/-! ### What a table row can do (R167 to R171, R177) -/

section TableCases
variable (r : RegionId) (s : State)

theorem endCheck_cases : endCheck r s = s
    ∨ ((s.tables.get r).state = .checking ∧ ∃ d, endCheck r s = post (.tableDone r) d (setRegionState r .loading s))
    ∨ ((s.tables.get r).state = .checking ∧ checkFailure r (s.tables.get r).words = none
        ∧ endCheck r s = post (.tableDone r) dPass (enterService r (setRegionState r .inService s))) := by
  unfold endCheck
  split
  · next hc =>
    split
    · next hf => exact .inr (.inr ⟨hc, hf, rfl⟩)
    · exact .inr (.inl ⟨hc, _, rfl⟩)
  · exact .inl rfl

/-- The region blank and EMPTY (R168). -/
def blankRegion (g : Region) : Region := { g with state := .empty, words := [] }

theorem tableClear_cases : (tableClear r s).1 = s
    ∨ ((s.tables.get r).lock = false ∧ (s.tables.get r).state ≠ .inService ∧ (tableClear r s).1 = updRegion r blankRegion s)
    ∨ ((s.tables.get r).lock = false ∧ (s.tables.get r).state = .inService
        ∧ (tableClear r s).1 = leaveService r (updRegion r blankRegion s)) := by
  unfold tableClear
  split
  · exact .inl rfl
  · next hl =>
    split
    · exact .inl rfl
    · unfold clearRegion
      have hl : (s.tables.get r).lock = false := by simpa using hl
      split
      · next hs => exact .inr (.inr ⟨hl, hs, rfl⟩)
      · next hs => exact .inr (.inl ⟨hl, hs, rfl⟩)

theorem tableWrite_cases (off : Nat) (ws : List Word) : (tableWrite r off ws s).1 = s
    ∨ (rangeBad r off ws.length = false ∧ (s.tables.get r).lock = false ∧ (s.tables.get r).state ≠ .inService
        ∧ (tableWrite r off ws s).1 = storeWords r off ws s) := by
  unfold tableWrite
  split_ifs with hbad hlock _ hs _
  · exact .inl rfl
  · exact .inl rfl
  · exact .inl rfl
  · exact .inl rfl
  · exact .inl rfl
  · exact .inr ⟨by simpa using hbad, by simpa using hlock, hs, rfl⟩

theorem tableCheck_cases : (tableCheck r s).1 = s
    ∨ ((s.tables.get r).state = .loading ∧ (tableCheck r s).1 = setRegionState r .checking s) := by
  unfold tableCheck
  split
  · next hs => exact .inr ⟨hs, rfl⟩
  · exact .inl rfl

theorem tableLock_cases : (tableLock r s).1 = s
    ∨ ((s.tables.get r).state = .inService ∧ (tableLock r s).1 = updRegion r (fun g => { g with lock := true }) s) := by
  unfold tableLock
  split
  · next hs => exact .inr ⟨hs, rfl⟩
  · exact .inl rfl

end TableCases

/-! ### The same contents in effect -/

theorem sameEffect_refl (g : Region) : sameEffect g g := ⟨Iff.rfl, fun _ => rfl⟩

theorem sameEffect_of_out {g g' : Region} (h : g.state ≠ .inService) (h' : g'.state ≠ .inService) : sameEffect g g' :=
  ⟨⟨fun e => absurd e h', fun e => absurd e h⟩, fun e => absurd e h⟩

/-- A region changed to one with the same effect leaves the CONFIG in effect. -/
theorem sameEffect_upd {t : Tables} (r : RegionId) {f : Region → Region} (h : sameEffect (t.get r) (f (t.get r))) :
    sameEffect t.config (t.upd r f).config := by
  cases r
  · exact h
  all_goals exact sameEffect_refl _

section Effect
variable {s t : State}

theorem inEffect_congr (h : sameEffect s.tables.config t.tables.config) (i : Nat) : inEffect t .config i = inEffect s .config i :=
  BitVec.eq_of_toNat_eq (cfg_congr h i)

theorem outputLaw_congr (hc : sameEffect s.tables.config t.tables.config) (hp : t.pipe = s.pipe) (hb : t.budget = s.budget)
    (h : outputLaw s) : outputLaw t := by
  unfold outputLaw minLevel at h ⊢
  rw [cfg_congr hc, hp, hb]
  exact h

theorem countLaw_congr (hc : sameEffect s.tables.config t.tables.config)
    (hn : ∀ x, (t.relays.get x).failCount = (s.relays.get x).failCount) (h : countLaw s) : countLaw t := by
  have ha := hn .A
  have hb := hn .B
  unfold countLaw faultLimit at h ⊢
  rw [cfg_congr hc]
  exact ⟨ha ▸ h.1, hb ▸ h.2⟩

/-- R105: the inputs of the budget, with the same CONFIG in effect. -/
theorem budgetLaw_congr (hc : sameEffect s.tables.config t.tables.config) (hpp : t.pp = s.pp) (hbays : t.bays = s.bays)
    (hn : ∀ x, (t.relays.get x).snap = (s.relays.get x).snap) (hm : t.pipe.hostMax = s.pipe.hostMax) (hb : t.budget = s.budget)
    (h : budgetLaw s) : budgetLaw t := by
  have hi := inEffect_congr hc
  unfold budgetLaw
  rw [hb, h]
  exact (computeBudget_parts hi (by rw [hpp]) (by rw [hpp]) (fun x => countedPower_congr x hi (by rw [hpp]) (by rw [hbays]) (hn x)) hm).symm

end Effect

/-! ### The light stages -/

theorem lightStep_hostMax (l : Nat) (o : Bool) (s : State) : (lightStep l o s).hostMax = s.pipe.hostMax := by
  unfold lightStep
  split
  · rfl
  · split <;> rfl

theorem slew_bounds {up down g o lo hi : Nat} (hg : lo ≤ g ∧ g ≤ hi) (ho : lo ≤ o ∧ o ≤ hi) :
    lo ≤ slew up down g o ∧ slew up down g o ≤ hi := by
  unfold slew
  split <;> omega

theorem goal_bounds {minL c : Nat} (d : Nat) (h : minL ≤ c) : minL ≤ goal minL d c ∧ goal minL d c ≤ c := by
  unfold goal; omega

/-- R129, R130: a light sample moves O towards the goal, which lies between MIN_LEVEL and C. -/
theorem outputLaw_takeLight {s : State} (l : Nat) (o : Bool) (h : outputLaw s) : outputLaw (takeLight l o s) := by
  obtain ⟨hlo, hhi, hc⟩ := h
  have moved : ∀ p : Pipeline, p.o = s.pipe.o →
      minLevel s ≤ (slewStage s p).o ∧ (slewStage s p).o ≤ s.budget.c := fun p hp =>
    slew_bounds (goal_bounds p.d (hlo.trans hhi)) (hp ▸ ⟨hlo, hhi⟩)
  have bounds : minLevel s ≤ (lightStep l o s).o ∧ (lightStep l o s).o ≤ s.budget.c := by
    unfold lightStep
    split
    · exact moved _ rfl
    · split
      · exact ⟨hlo, hhi⟩
      · exact moved _ rfl
  exact ⟨bounds.1, bounds.2, hc.trans_eq (lightStep_hostMax l o s).symm⟩

/-! ### The three laws together -/

/-- The laws of Table Memory, of the output level and of the failure counts. -/
structure StoreLaws (s : State) : Prop where
  tables : tablesLaw s.tables
  output : outputLaw s
  count : countLaw s

section StoreLaws
variable {s t : State}

theorem minLevel_le_1000 (h : tablesLaw s.tables) : minLevel s ≤ 1000 := (minLevel_le s h.1).trans (by decide)

theorem StoreLaws.keeps (a : Keeps s t) (h : StoreLaws s) : StoreLaws t :=
  ⟨a.tables.symm ▸ h.tables, a.output (minLevel_le_1000 h.tables) h.output, a.count h.count⟩

theorem StoreLaws.moves (a : Moves s t) (h : StoreLaws s) : StoreLaws t :=
  ⟨a.tables.symm ▸ h.tables, a.output (minLevel_le_1000 h.tables) h.output, a.count h.count⟩

/-- A region changed lawfully, with the same effect. -/
theorem StoreLaws.updRegion (h : StoreLaws s) {r : RegionId} {f : Region → Region}
    (hf : regionLaw r (s.tables.get r) → regionLaw r (f (s.tables.get r))) (he : sameEffect (s.tables.get r) (f (s.tables.get r))) :
    StoreLaws (updRegion r f s) :=
  ⟨tablesLaw_upd r h.tables hf, outputLaw_congr (sameEffect_upd r he) rfl rfl h.output,
   countLaw_congr (sameEffect_upd r he) (fun _ => rfl) h.count⟩

/-- R166: a region that enters or leaves service, its law kept: CONFIG's hand-over brings the laws about, any other region leaves CONFIG. -/
theorem StoreLaws.ofHandOver (h : StoreLaws s) {r : RegionId} {f : Region → Region}
    (hf : regionLaw r (s.tables.get r) → regionLaw r (f (s.tables.get r))) (ht : t.tables = (s.tables.upd r f))
    (hconfig : r = .config → t = handOverConfig (Machine.updRegion r f s))
    (hother : r ≠ .config → t.pipe = s.pipe ∧ t.budget = s.budget ∧ ∀ x, (t.relays.get x).failCount = (s.relays.get x).failCount) :
    StoreLaws t := by
  have htab : tablesLaw (s.tables.upd r f) := tablesLaw_upd r h.tables hf
  by_cases hr : r = .config
  · have hl := handOverConfig_laws (Machine.updRegion r f s) (minLevel_le_1000 (s := Machine.updRegion r f s) htab)
    exact ⟨ht ▸ htab, hconfig hr ▸ hl.1, hconfig hr ▸ hl.2⟩
  · obtain ⟨hp, hb, hn⟩ := hother hr
    have hc : sameEffect s.tables.config t.tables.config := by
      rw [ht]
      cases r
      · exact absurd rfl hr
      all_goals exact sameEffect_refl _
    exact ⟨ht ▸ htab, outputLaw_congr hc hp hb h.output, countLaw_congr hc hn h.count⟩

/-- R83: a new map instance rebuilds the rings. -/
theorem newInstance_relays (x : BayId) (s : State) : (newInstance s).relays.get x
    = { s.relays.get x with ring := ringOf (mapInService s), ptr := 0, pollDue := false } := by
  cases x <;> rfl

theorem StoreLaws.enterService (h : StoreLaws s) {r : RegionId} {f : Region → Region}
    (hf : regionLaw r (s.tables.get r) → regionLaw r (f (s.tables.get r))) : StoreLaws (enterService r (Machine.updRegion r f s)) := by
  refine h.ofHandOver hf ((Serves.refl _).enterService r).tables (fun e => by subst e; rfl) fun hr => ?_
  cases r
  · exact absurd rfl hr
  · exact ⟨rfl, rfl, fun x => by rw [Machine.enterService, newInstance_relays]; rfl⟩
  all_goals exact ⟨rfl, rfl, fun _ => rfl⟩

theorem StoreLaws.leaveService (h : StoreLaws s) {r : RegionId} {f : Region → Region}
    (hf : regionLaw r (s.tables.get r) → regionLaw r (f (s.tables.get r))) : StoreLaws (leaveService r (Machine.updRegion r f s)) := by
  refine h.ofHandOver hf ((Serves.refl _).leaveService r).tables (fun e => by subst e; rfl) fun hr => ?_
  cases r
  · exact absurd rfl hr
  · exact ⟨rfl, rfl, fun x => (congrArg Relay.failCount (newInstance_relays x (Machine.updRegion .codemap f s)) :)⟩
  all_goals exact ⟨rfl, rfl, fun _ => rfl⟩

end StoreLaws

/-! ### The rows, for the three laws -/

section StoreRows
variable {s : State}

theorem storeLaws_endCheck (r : RegionId) (h : StoreLaws s) : StoreLaws (endCheck r s) := by
  rcases endCheck_cases r s with e | ⟨hc, d, e⟩ | ⟨-, hf, e⟩
  · exact e.symm ▸ h
  · have out : (s.tables.get r).state ≠ .inService := fun e => by cases hc.symm.trans e
    rw [e]
    exact (h.updRegion (fun g => regionLaw_state g .loading out (by decide) (by decide))
      (sameEffect_of_out out (show RegionState.loading ≠ .inService by decide))).moves ((Moves.refl _).post _ _)
  · rw [e]
    exact (h.enterService fun g => regionLaw_pass g hf).moves ((Moves.refl _).post _ _)

theorem storeLaws_tableClear (r : RegionId) (h : StoreLaws s) : StoreLaws (tableClear r s).1 := by
  rcases tableClear_cases r s with e | ⟨hl, hs, e⟩ | ⟨hl, -, e⟩
  · exact e.symm ▸ h
  · rw [e]
    exact h.updRegion (fun _ => regionLaw_clear hl) (sameEffect_of_out hs (show RegionState.empty ≠ .inService by decide))
  · rw [e]
    exact h.leaveService fun _ => regionLaw_clear hl

theorem storeLaws_tableWrite (r : RegionId) (off : Nat) (ws : List Word) (h : StoreLaws s) : StoreLaws (tableWrite r off ws s).1 := by
  rcases tableWrite_cases r s off ws with e | ⟨hbad, hl, hs, e⟩
  · exact e.symm ▸ h
  · rw [e]
    exact h.updRegion (fun g => regionLaw_store g hl hbad) (sameEffect_of_out hs (show RegionState.loading ≠ .inService by decide))

theorem storeLaws_tableCheck (r : RegionId) (h : StoreLaws s) : StoreLaws (tableCheck r s).1 := by
  rcases tableCheck_cases r s with e | ⟨hs, e⟩
  · exact e.symm ▸ h
  · have out : (s.tables.get r).state ≠ .inService := fun e => by cases hs.symm.trans e
    rw [e]
    exact h.updRegion (fun g => regionLaw_state g .checking out (by decide) (by decide))
      (sameEffect_of_out out (show RegionState.checking ≠ .inService by decide))

theorem storeLaws_tableLock (r : RegionId) (h : StoreLaws s) : StoreLaws (tableLock r s).1 := by
  rcases tableLock_cases r s with e | ⟨hs, e⟩
  · exact e.symm ▸ h
  · rw [e]
    exact h.updRegion (fun g => regionLaw_lock g hs) ⟨Iff.rfl, fun _ => rfl⟩

/-- R179: the four regions at a software reset. -/
theorem tablesLaw_resetBase (h : tablesLaw s.tables) : tablesLaw (resetBase s).tables := by
  obtain ⟨hc, hm, hv, hd⟩ := h
  rw [resetBase_tables]
  exact ⟨regionLaw_softReset hc, regionLaw_softReset hm, regionLaw_softReset hv, regionLaw_softReset hd⟩

theorem storeLaws_softReset (h : StoreLaws s) : StoreLaws (softReset s) := by
  have ht := tablesLaw_resetBase h.tables
  have hm : minLevel (resetBase s) ≤ 1000 := minLevel_le_1000 ht
  rw [softReset_eq]
  exact ⟨(resetTail_tables _).symm ▸ ht, resetTail_output _ hm (resetBase_output s hm), resetTail_count _ (resetBase_count s)⟩

/-- R134, R113: HOST_MAX is set no lower than MIN_LEVEL, and the recomputation brings O within C. -/
theorem storeLaws_setBrightness (m : PipeMode) (l host : Nat) (h : StoreLaws s) : StoreLaws (setBrightness m l host s) := by
  have ht : (setBrightness m l host s).tables = s.tables := by unfold setBrightness; rw [recompute_eq]
  refine ⟨ht.symm ▸ h.tables, outputLaw_recompute _ (minLevel_le_1000 h.tables) (le_max_left _ _), ?_⟩
  refine countLaw_congr (ht.symm ▸ sameEffect_refl _) (fun x => ?_) h.count
  unfold setBrightness
  rw [recompute_eq]

/-- R178, R138: the values of power-on reset. -/
theorem storeLaws_powerOn (l : Lines) (s : State) : StoreLaws (powerOn l s) := by
  have hm : minLevel (porBase l) = 20 := rfl
  have hhost : (porBase l).pipe.hostMax = 1000 := rfl
  have hc := computeBudget_c (porBase l) (by rw [hm]; decide) (by rw [hm, hhost]; decide)
  rw [hm] at hc
  have ho : 20 ≤ min 300 (computeBudget (porBase l)).c := le_min (by decide) hc.1
  exact ⟨⟨regionLaw_reset _, regionLaw_reset _, regionLaw_reset _, regionLaw_reset _⟩, ⟨ho, min_le_right _ _, hc.2⟩,
    Nat.zero_le _, Nat.zero_le _⟩

end StoreRows

theorem storeLaws_rows (i : Instr) (hl : ∀ s t j, completed i s = some j → runCommand j s = .next t → StoreLaws s → StoreLaws t) :
    RowKeeps i StoreLaws where
  acts _ _ a h := h.moves a.moves
  lines _ _ _ a h := h.moves a.moves
  slot _ _ h := ⟨h.tables, h.output, h.count⟩
  por l s _ _ := storeLaws_powerOn l s
  ext _ _ _ h := ⟨h.tables, h.output, h.count⟩
  ready _ _ _ h := ⟨h.tables, h.output, h.count⟩
  uptime _ _ h := ⟨h.tables, h.output, h.count⟩
  poll _ _ h := ⟨h.tables, h.output, h.count⟩
  lane _ h := ⟨h.tables, h.output, h.count⟩
  light _ _ _ l o _ _ h := ⟨h.tables, outputLaw_takeLight l o h.output, h.count⟩
  sample _ _ _ _ _ _ p s _ h := h.keeps ((Keeps.refl s).takeSample p)
  stall s _ h := h.keeps (Keeps.refl s).stallOut
  hold s _ h := h.keeps (Keeps.refl s).holdOut
  check r _ _ h := storeLaws_endCheck r h
  seen _ _ _ h := ⟨h.tables, h.output, h.count⟩
  sense _ _ _ _ _ _ h := ⟨h.tables, h.output, h.count⟩
  flag _ _ _ _ _ h := ⟨h.tables, h.output, h.count⟩
  reset _ _ _ h := storeLaws_softReset h
  bright _ _ m l host _ h := storeLaws_setBrightness m l host h
  sticky _ _ _ h := ⟨h.tables, h.output, h.count⟩
  logClear _ _ _ h := ⟨h.tables, h.output, h.count⟩
  clear _ r _ _ h := storeLaws_tableClear r h
  write _ r off ws _ _ h := storeLaws_tableWrite r off ws h
  begin _ r _ _ h := storeLaws_tableCheck r h
  lock _ r _ _ h := storeLaws_tableLock r h
  last := hl

theorem storeLaws_tick {s : State} (h : StoreLaws s) : StoreLaws (tickTimers s) := ⟨h.tables, h.output, h.count⟩

/-- Settles O7: the three laws, kept together by the timers and by every row. -/
theorem everyStepKeepsTablesOutputAndCounts : Obligations.EveryStepKeepsTablesOutputAndCounts := by
  intro s t htab hout hcount e
  have h := step_keeps (P := StoreLaws) (fun _ _ h => ⟨h.tables, h.output, h.count⟩) (fun _ => storeLaws_tick)
    (exec_keeps storeLaws_rows) ⟨htab, hout, hcount⟩ e
  exact ⟨h.tables, h.output, h.count⟩

end Sys2Proof.Machine
end

