-- ==== Sys2Proof/Proofs/BudgetCurrent.lean ====
section
/-! PROOFS. The budget record stays current through every step (R105, R106, R117), every row answers and keeps the queue, and the laws of the device
hold after every reset. -/

namespace Sys2Proof.Machine

/-! ### The budget, row by row -/

section BudgetRows
variable {s t : State}

theorem budgetLaw_updRegion {r : RegionId} {f : Region → Region} (he : sameEffect (s.tables.get r) (f (s.tables.get r)))
    (h : budgetLaw s) : budgetLaw (updRegion r f s) :=
  budgetLaw_congr (sameEffect_upd r he) rfl rfl (fun _ => rfl) rfl rfl h

/-- R166: CONFIG's hand-over recomputes; no other region is an input of the budget. -/
theorem budgetLaw_enterService (r : RegionId) (f : Region → Region) (h : budgetLaw s) :
    budgetLaw (enterService r (updRegion r f s)) := by
  cases r
  · exact handOverConfig_budget _
  · exact budgetLaw_congr (s := s) (sameEffect_refl _) rfl rfl
      (fun x => (congrArg Relay.snap (newInstance_relays x (updRegion .codemap f s)) :)) rfl rfl h
  all_goals exact budgetLaw_congr (s := s) (sameEffect_refl _) rfl rfl (fun _ => rfl) rfl rfl h

theorem budgetLaw_leaveService (r : RegionId) (f : Region → Region) (h : budgetLaw s) :
    budgetLaw (leaveService r (updRegion r f s)) := by
  cases r
  · exact handOverConfig_budget _
  · exact budgetLaw_congr (s := s) (sameEffect_refl _) rfl rfl
      (fun x => (congrArg Relay.snap (newInstance_relays x (updRegion .codemap f s)) :)) rfl rfl h
  all_goals exact budgetLaw_congr (s := s) (sameEffect_refl _) rfl rfl (fun _ => rfl) rfl rfl h

theorem budgetLaw_post (k : AttnKey) (d : Detail) (h : budgetLaw s) : budgetLaw (post k d s) := h

theorem budgetLaw_endCheck (r : RegionId) (h : budgetLaw s) : budgetLaw (endCheck r s) := by
  rcases endCheck_cases r s with e | ⟨hc, d, e⟩ | ⟨-, -, e⟩
  · exact e.symm ▸ h
  · rw [e]
    exact budgetLaw_post _ _ (budgetLaw_updRegion (sameEffect_of_out (fun e => by cases hc.symm.trans e)
      (show RegionState.loading ≠ .inService by decide)) h)
  · rw [e]
    exact budgetLaw_post _ _ (budgetLaw_enterService r _ h)

theorem budgetLaw_tableClear (r : RegionId) (h : budgetLaw s) : budgetLaw (tableClear r s).1 := by
  rcases tableClear_cases r s with e | ⟨-, hs, e⟩ | ⟨-, -, e⟩
  · exact e.symm ▸ h
  · rw [e]; exact budgetLaw_updRegion (sameEffect_of_out hs (show RegionState.empty ≠ .inService by decide)) h
  · rw [e]; exact budgetLaw_leaveService r _ h

theorem budgetLaw_tableWrite (r : RegionId) (off : Nat) (ws : List Word) (h : budgetLaw s) : budgetLaw (tableWrite r off ws s).1 := by
  rcases tableWrite_cases r s off ws with e | ⟨-, -, hs, e⟩
  · exact e.symm ▸ h
  · rw [e]; exact budgetLaw_updRegion (sameEffect_of_out hs (show RegionState.loading ≠ .inService by decide)) h

theorem budgetLaw_tableCheck (r : RegionId) (h : budgetLaw s) : budgetLaw (tableCheck r s).1 := by
  rcases tableCheck_cases r s with e | ⟨hs, e⟩
  · exact e.symm ▸ h
  · rw [e]
    exact budgetLaw_updRegion (sameEffect_of_out (fun e => by cases hs.symm.trans e)
      (show RegionState.checking ≠ .inService by decide)) h

theorem budgetLaw_tableLock (r : RegionId) (h : budgetLaw s) : budgetLaw (tableLock r s).1 := by
  rcases tableLock_cases r s with e | ⟨-, e⟩
  · exact e.symm ▸ h
  · rw [e]; exact budgetLaw_updRegion ⟨Iff.rfl, fun _ => rfl⟩ h

theorem budgetLaw_flags (f : Flags) (h : budgetLaw s) : budgetLaw { s with flags := f } := h

theorem budgetLaw_portTimer (n : Nat) (p : Port) (h : budgetLaw s) : budgetLaw { s with pollTimer := n, port := p } := h

/-- R189: the software reset recomputes after the tables and the pipeline, and what follows keeps the record current. -/
theorem budgetLaw_softReset (s : State) : budgetLaw (softReset s) := by
  have base : budgetLaw (resetBase s) := by rw [resetBase_recompute]; exact budgetLaw_recompute (beforeRecompute s)
  obtain ⟨n, p, e⟩ := resetTail_form (resetBase s)
  rw [softReset_eq, e]
  exact budgetLaw_portTimer n p
    ((resetEvents_keeps (resetBase s)).budget (budgetLaw_flags _ ((restart_acts (resetBase s)).budget base)))

/-- R178, R118: power-on reset computes the first budget from the lines as sampled. -/
theorem budgetLaw_powerOn (l : Lines) (s : State) : budgetLaw (powerOn l s) :=
  (computeBudget_congr (s := porBase l) (t := powerOn l s) rfl rfl rfl rfl (fun _ => rfl) (fun _ => rfl) rfl).symm

/-- R1: a change of EXT presence is followed by a recomputation; the same level is no change. -/
theorem budgetLaw_extLine (v : Bool) (h : budgetLaw s) : budgetLaw (extLine v s) := by
  unfold extLine
  split
  · exact h
  · cases v
    · have hr := budgetLaw_recompute (post (.presence .ext) dDeparted (setExt false s))
      simp only [Bool.false_eq_true, if_false, extDeparts]
      split
      · exact (Acts.refl _).answerNoSource.budget hr
      · exact hr
    · exact ((Acts.refl _).releaseHeld.endBridge).budget (budgetLaw_recompute (post (.presence .ext) dArrived (setExt true s)))

end BudgetRows

theorem budgetLaw_rows (i : Instr) (hext : ∀ v, i ≠ .extPresentChange v)
    (hl : ∀ s t j, completed i s = some j → runCommand j s = .next t → budgetLaw s → budgetLaw t) : RowKeeps i budgetLaw where
  acts _ _ a h := a.budget h
  lines _ _ _ a h := a.budget h
  slot _ _ h := h
  por l s _ _ := budgetLaw_powerOn l s
  ext v _ e _ := absurd e (hext v)
  ready _ _ _ h := h
  uptime _ _ h := h
  poll _ _ h := h
  lane _ h := h
  light _ _ _ l o s _ h :=
    budgetLaw_congr (s := s) (sameEffect_refl _) rfl rfl (fun _ => rfl) (lightStep_hostMax l o s) rfl h
  sample _ _ _ _ _ _ p s _ h := ((Keeps.refl s).takeSample p).budget h
  stall s _ h := (Keeps.refl s).stallOut.budget h
  hold s _ h := (Keeps.refl s).holdOut.budget h
  check r _ _ h := budgetLaw_endCheck r h
  seen _ _ _ h := h
  sense _ _ _ _ _ _ h := h
  flag _ _ _ _ _ h := h
  reset _ s _ _ := budgetLaw_softReset s
  bright _ _ _ _ _ _ _ := budgetLaw_recompute _
  sticky _ _ _ h := h
  logClear _ _ _ h := h
  clear _ r _ _ h := budgetLaw_tableClear r h
  write _ r off ws _ _ h := budgetLaw_tableWrite r off ws h
  begin _ r _ _ h := budgetLaw_tableCheck r h
  lock _ r _ _ h := budgetLaw_tableLock r h
  last := hl

/-- What each row keeps, where a byte that completes a command may be taken to keep what it completes, every row keeps. -/
theorem exec_keeps_each {P : State → Prop}
    (k : ∀ i, (∀ s t j, completed i s = some j → runCommand j s = .next t → P s → P t) → ∀ s t, P s → exec i s = .next t → P t)
    (i : Instr) (s t : State) (h : P s) (e : exec i s = .next t) : P t := by
  refine k i (fun s t j hc e h => ?_) s t h e
  obtain ⟨c, p, hj⟩ := commandRow_of_completed hc
  have hnone : ∀ u, completed j u = none := completed_of_commandRow hj
  exact k j (fun u _ _ hc' _ _ => by rw [hnone u] at hc'; cases hc') s t h (runCommand_eq_exec hj s ▸ e)

theorem budgetLaw_exec : ∀ i s t, budgetLaw s → exec i s = .next t → budgetLaw t := by
  refine exec_keeps_each fun i hl s t h e => ?_
  by_cases hext : ∃ v, i = .extPresentChange v
  · obtain ⟨v, rfl⟩ := hext
    injection e with e
    exact e ▸ ((Acts.refl (extLine v s)).settle s).budget (budgetLaw_extLine v h)
  · exact (budgetLaw_rows i (fun v e => hext ⟨v, e⟩) hl).exec h e

/-- The timers are no inputs of the budget. -/
theorem budgetLaw_tick {s : State} (h : budgetLaw s) : budgetLaw (tickTimers s) :=
  h.trans (computeBudget_congr (s := s) (t := tickTimers s) rfl rfl rfl rfl (fun x => by cases x <;> rfl)
    (fun x => by cases x <;> rfl) rfl).symm

/-- Settles O8: the row of a change of EXT ends with a recomputation, every other row keeps the law change by change. -/
theorem everyStepKeepsTheBudgetCurrent : Obligations.EveryStepKeepsTheBudgetCurrent :=
  fun _ _ => step_keeps (fun _ _ h => h) (fun _ => budgetLaw_tick) budgetLaw_exec

end Sys2Proof.Machine
end

