-- ==== Sys2Proof/Proofs/QueueAndRegions.lean ====
section
/-! PROOFS. Every row answers and keeps the queue, locked and serving regions keep their words (R164). -/

namespace Sys2Proof.Machine

/-! ### One row, its byte completing no command -/

/-- A byte row that completes no command is an action of the relay or of the port. -/
theorem acts_of_byteRow {i : Instr} {s t : State} (hi : (∃ d, i = .permitCheck d) ∨ ∃ b, i = .writeBlockLengthRefuse b)
    (hc : completed i s = none) (e : exec i s = .next t) : Acts s t := by
  have accept : ∀ {b u}, completedBy b s.upstream = none → Acts s u → acceptOr b u s = .next t → Acts s t := fun hn hu e => by
    unfold acceptOr at e
    rw [hn] at e
    injection e with e
    exact e ▸ hu
  rcases hi with ⟨d, rfl⟩ | ⟨b, rfl⟩
  · cases d with
    | writeByte b => exact accept hc ((Acts.refl s).takeDirection _) e
    | readAddress a => injection e with e; exact e ▸ (Acts.refl s).takeDirection _
  · exact accept hc ((Acts.refl s).takeLength b) e

theorem completed_of_not_byteRow {i : Instr} (hi : ¬ ((∃ d, i = .permitCheck d) ∨ ∃ b, i = .writeBlockLengthRefuse b)) (s : State) :
    completed i s = none := by
  unfold completed
  split
  · exact absurd (.inl ⟨_, rfl⟩) hi
  · exact absurd (.inr ⟨_, rfl⟩) hi
  · rfl

/-- What survives the changes of row `i` is kept by it, where its byte completes no command. -/
theorem row_keeps {P : State → Prop} {i : Instr} {s t : State} (hc : completed i s = none) (ha : ∀ s t, Acts s t → P s → P t)
    (k : (∀ s t j, completed i s = some j → runCommand j s = .next t → P s → P t) → RowKeeps i P) (h : P s) (e : exec i s = .next t) :
    P t := by
  by_cases hi : (∃ d, i = .permitCheck d) ∨ ∃ b, i = .writeBlockLengthRefuse b
  · exact ha _ _ (acts_of_byteRow hi hc e) h
  · exact (k fun s _ _ hc' _ _ => by rw [completed_of_not_byteRow hi s] at hc'; cases hc').exec h e

/-- Each row runs as a row that completes no command: itself, or the command that its byte completes. -/
theorem exec_as_row (i : Instr) (s : State) :
    ∃ j, completed j s = none ∧ exec i s = exec j s ∧ (j = i ∨ ∃ c p, commandRow c p = some j) := by
  cases hc : completed i s with
  | none => exact ⟨i, hc, rfl, .inl rfl⟩
  | some j =>
    obtain ⟨c, p, hj⟩ := commandRow_of_completed hc
    exact ⟨j, completed_of_commandRow hj s, exec_completed hc, .inr ⟨c, p, hj⟩⟩

/-- Power-on reset and the rows of lines, links and timers are no commands. -/
theorem ne_powerOnReset_of_commandRow {c : BitVec 7} {p : List Byte} {j : Instr} (h : commandRow c p = some j) (l : Lines) :
    j ≠ .powerOnReset l := by
  rintro rfl
  unfold commandRow at h
  split at h <;> cases h

/-! ### Every row answers -/

theorem runCommand_answers (j : Instr) (s : State) : ∃ t, runCommand j s = .next t := by
  cases j <;> exact ⟨_, rfl⟩

theorem acceptOr_answers (b : Byte) (u s : State) : ∃ t, acceptOr b u s = .next t := by
  unfold acceptOr
  split
  · exact runCommand_answers _ s
  · exact ⟨_, rfl⟩

theorem exec_answers (i : Instr) (s : State) : ∃ t, exec i s = .next t := by
  cases i
  case permitCheck d =>
    cases d with
    | writeByte b => exact acceptOr_answers b _ s
    | readAddress a => exact ⟨_, rfl⟩
  case writeBlockLengthRefuse b => exact acceptOr_answers b _ s
  all_goals exact ⟨_, rfl⟩

theorem pending_rows (q : List Instr) (i : Instr)
    (hl : ∀ s t j, completed i s = some j → runCommand j s = .next t → s.pending = q → t.pending = q) :
    RowKeeps i (fun s => s.pending = q) where
  acts _ _ a h := a.pending.trans h
  lines _ _ _ a h := a.moves.pending.trans h
  slot _ _ h := h
  por _ _ _ h := h
  ext _ _ _ h := h
  ready _ _ _ h := h
  uptime _ _ h := h
  poll _ _ h := h
  lane _ h := h
  light _ _ _ _ _ _ _ h := h
  sample _ _ _ _ _ _ p s _ h := ((Keeps.refl s).takeSample p).pending.trans h
  stall s _ h := (Keeps.refl s).stallOut.pending.trans h
  hold s _ h := (Keeps.refl s).holdOut.pending.trans h
  check r s _ h := endCheck_keeps (P := fun s => s.pending = q) (fun _ _ a h => a.pending.trans h) (fun _ _ _ h => h) r h
  seen _ _ _ h := h
  sense _ _ _ _ _ _ h := h
  flag _ _ _ _ _ h := h
  reset _ s _ h := by rw [softReset_eq, resetTail_pending, resetBase_pending]; exact h
  bright _ _ _ _ _ _ h := by unfold setBrightness; rw [recompute_eq]; exact h
  sticky _ _ _ h := h
  logClear _ _ _ h := h
  clear _ r _ _ h := tableClear_keeps (P := fun s => s.pending = q) (fun _ _ a h => a.pending.trans h) (fun _ _ _ h => h) r h
  write _ r off ws _ _ h := tableWrite_keeps (P := fun s => s.pending = q) (fun _ _ _ h => h) r off ws h
  begin _ r _ _ h := tableCheck_keeps (P := fun s => s.pending = q) (fun _ _ _ h => h) r h
  lock _ r _ _ h := tableLock_keeps (P := fun s => s.pending = q) (fun _ _ _ h => h) r h
  last := hl

/-- Settles O3: every arm of `exec` answers, and no change that a row makes touches the queue. -/
theorem everyRowAnswersAndKeepsTheQueue : Obligations.EveryRowAnswersAndKeepsTheQueue := fun i s => by
  obtain ⟨t, e⟩ := exec_answers i s
  exact ⟨t, e, exec_keeps (pending_rows s.pending) i s t rfl e⟩

/-! ### Locked regions, and the words of a region in service (R164) -/

section Regions
variable {r : RegionId} {g : Region}

theorem get_updRegion {q : RegionId} {f : Region → Region} {s : State} (h : q = r → f (s.tables.get r) = s.tables.get r) :
    (updRegion q f s).tables.get r = s.tables.get r := by
  by_cases hq : q = r
  · subst hq; exact (Tables.get_upd_self _ _ _).trans (h rfl)
  · exact Tables.get_upd_ne _ (Ne.symm hq) _

theorem get_resetBase (r : RegionId) (s : State) : (softReset s).tables.get r = resetRegion (s.tables.get r) := by
  rw [softReset_eq, resetTail_tables, resetBase_tables]
  cases r <;> rfl

theorem tables_setBrightness (m : PipeMode) (l h : Nat) (s : State) : (setBrightness m l h s).tables = s.tables := by
  unfold setBrightness; rw [recompute_eq]

/-- A region that is locked and in service stays as it is, but for power-on reset. -/
theorem locked_rows (hl : g.lock = true) (hs : g.state = .inService) (i : Instr) (hpor : ∀ l, i ≠ .powerOnReset l)
    (hlast : ∀ s t j, completed i s = some j → runCommand j s = .next t → s.tables.get r = g → t.tables.get r = g) :
    RowKeeps i (fun s => s.tables.get r = g) where
  acts _ _ a h := a.tables.symm ▸ h
  lines _ _ _ a h := a.moves.tables.symm ▸ h
  slot _ _ h := h
  por l _ e _ := absurd e (hpor l)
  ext _ _ _ h := h
  ready _ _ _ h := h
  uptime _ _ h := h
  poll _ _ h := h
  lane _ h := h
  light _ _ _ _ _ _ _ h := h
  sample _ _ _ _ _ _ p s _ h := ((Keeps.refl s).takeSample p).tables.symm ▸ h
  stall s _ h := (Keeps.refl s).stallOut.tables.symm ▸ h
  hold s _ h := (Keeps.refl s).holdOut.tables.symm ▸ h
  check q s _ h := by
    have notChecking : q = r → (s.tables.get q).state ≠ .checking := fun hq e => by
      subst hq; rw [h, hs] at e; cases e
    rcases endCheck_cases q s with e | ⟨hc, d, e⟩ | ⟨hc, -, e⟩
    · rw [e]; exact h
    · rw [e]; exact (get_updRegion fun hq => absurd hc (notChecking hq)).trans h
    · rw [e, ((Serves.refl _).enterService q |>.acts ((Acts.refl _).post _ _)).tables]
      exact (get_updRegion fun hq => absurd hc (notChecking hq)).trans h
  seen _ _ _ h := h
  sense _ _ _ _ _ _ h := h
  flag _ _ _ _ _ h := h
  reset _ s _ h := by rw [get_resetBase, h]; exact if_pos hl
  bright _ _ _ _ _ _ h := by rw [tables_setBrightness]; exact h
  sticky _ _ _ h := h
  logClear _ _ _ h := h
  clear _ q s _ h := by
    have locked : q = r → (s.tables.get q).lock = true := fun hq => by subst hq; rw [h]; exact hl
    rcases tableClear_cases q s with e | ⟨hu, -, e⟩ | ⟨hu, -, e⟩
    · rw [e]; exact h
    · rw [e]; exact (get_updRegion fun hq => absurd (locked hq) (by simp [hu])).trans h
    · rw [e, ((Serves.refl _).leaveService q).tables]
      exact (get_updRegion fun hq => absurd (locked hq) (by simp [hu])).trans h
  write _ q off ws s _ h := by
    rcases tableWrite_cases q s off ws with e | ⟨-, hu, -, e⟩
    · rw [e]; exact h
    · rw [e]
      exact (get_updRegion fun hq => absurd hu (by subst hq; rw [h, hl]; decide)).trans h
  begin _ q s _ h := by
    rcases tableCheck_cases q s with e | ⟨hu, e⟩
    · rw [e]; exact h
    · rw [e]
      exact (get_updRegion fun hq => absurd hu (by subst hq; rw [h, hs]; decide)).trans h
  lock _ q s _ h := by
    rcases tableLock_cases q s with e | ⟨-, e⟩
    · rw [e]; exact h
    · rw [e]
      exact (get_updRegion fun _ => by rw [h, ← hl]).trans h
  last := hlast

/-- Region `r`, where it is in service, has the words `m`. -/
def servesWords (r : RegionId) (m : Memory) (s : State) : Prop := (s.tables.get r).state = .inService → (s.tables.get r).words = m

variable {m : Memory}

theorem servesWords_updRegion {q : RegionId} {f : Region → Region} {s : State} (h : servesWords r m s)
    (hf : ∀ g, (f g).state = .inService → g.state = .inService ∧ (f g).words = g.words) : servesWords r m (updRegion q f s) := by
  unfold servesWords at h ⊢
  by_cases hq : q = r
  · subst hq
    rw [show (updRegion q f s).tables.get q = _ from Tables.get_upd_self _ _ _]
    exact fun e => (hf _ e).2.trans (h (hf _ e).1)
  · rw [show (updRegion q f s).tables.get r = _ from Tables.get_upd_ne _ (Ne.symm hq) _]
    exact h

theorem servesWords_tables {s t : State} (e : t.tables = s.tables) (h : servesWords r m s) : servesWords r m t := by
  unfold servesWords; rw [e]; exact h

/-- Only the end of a check brings a region into service. -/
theorem servesWords_rows (i : Instr) (hcheck : ∀ q, i ≠ .tableCheckEnd q)
    (hlast : ∀ s t j, completed i s = some j → runCommand j s = .next t → servesWords r m s → servesWords r m t) :
    RowKeeps i (servesWords r m) where
  acts _ _ a h := servesWords_tables a.tables h
  lines _ _ _ a h := servesWords_tables a.moves.tables h
  slot _ _ h := h
  por l s _ _ e := by cases r <;> cases e
  ext _ _ _ h := h
  ready _ _ _ h := h
  uptime _ _ h := h
  poll _ _ h := h
  lane _ h := h
  light _ _ _ _ _ _ _ h := h
  sample _ _ _ _ _ _ p s _ h := servesWords_tables ((Keeps.refl s).takeSample p).tables h
  stall s _ h := servesWords_tables (Keeps.refl s).stallOut.tables h
  hold s _ h := servesWords_tables (Keeps.refl s).holdOut.tables h
  check q _ e _ := absurd e (hcheck q)
  seen _ _ _ h := h
  sense _ _ _ _ _ _ h := h
  flag _ _ _ _ _ h := h
  reset _ s _ h := by
    unfold servesWords at h ⊢
    rw [get_resetBase, resetRegion]
    split
    · exact h
    · exact fun e => by cases e
  bright _ _ _ _ _ _ h := servesWords_tables (tables_setBrightness _ _ _ _) h
  sticky _ _ _ h := h
  logClear _ _ _ h := h
  clear _ q s _ h := by
    have blank : servesWords r m (updRegion q blankRegion s) := servesWords_updRegion h fun _ e => by cases e
    rcases tableClear_cases q s with e | ⟨-, -, e⟩ | ⟨-, -, e⟩
    · rw [e]; exact h
    · rw [e]; exact blank
    · rw [e]; exact servesWords_tables ((Serves.refl _).leaveService q).tables blank
  write _ q off ws s _ h := by
    rcases tableWrite_cases q s off ws with e | ⟨-, -, -, e⟩
    · rw [e]; exact h
    · rw [e]; exact servesWords_updRegion h fun _ e => by cases e
  begin _ q s _ h := by
    rcases tableCheck_cases q s with e | ⟨-, e⟩
    · rw [e]; exact h
    · rw [e]; exact servesWords_updRegion h fun _ e => by cases e
  lock _ q s _ h := by
    rcases tableLock_cases q s with e | ⟨-, e⟩
    · rw [e]; exact h
    · rw [e]; exact servesWords_updRegion h fun _ e => ⟨e, rfl⟩
  last := hlast

/-- The end of a check leaves a region that is in service: it is not CHECKING. -/
theorem get_endCheck_of_inService {q : RegionId} {s : State} (h : (s.tables.get r).state = .inService) :
    (endCheck q s).tables.get r = s.tables.get r := by
  have notChecking : q = r → (s.tables.get q).state ≠ .checking := fun hq e => by subst hq; rw [h] at e; cases e
  rcases endCheck_cases q s with e | ⟨hc, d, e⟩ | ⟨hc, -, e⟩
  · rw [e]
  · rw [e]; exact get_updRegion fun hq => absurd hc (notChecking hq)
  · rw [e, ((Serves.refl _).enterService q |>.acts ((Acts.refl _).post _ _)).tables]
    exact get_updRegion fun hq => absurd hc (notChecking hq)

end Regions

/-- Settles O10: a locked region in service is refused every change but power-on reset's, and only the end of a check, which leaves a region in
service alone, brings words into service. -/
theorem lockedAndServingRegionsKeepTheirWords : Obligations.LockedAndServingRegionsKeepTheirWords := by
  intro i s t r e
  obtain ⟨j, hc, he, hj⟩ := exec_as_row i s
  rw [he] at e
  constructor
  · intro hl hs hpor
    have hpor : ∀ l, j ≠ .powerOnReset l := by
      rcases hj with rfl | ⟨c, p, hj⟩
      · exact hpor
      · exact ne_powerOnReset_of_commandRow hj
    exact row_keeps hc (P := fun u => u.tables.get r = s.tables.get r) (fun _ _ a h => a.tables.symm ▸ h)
      (locked_rows hl hs j hpor) rfl e
  · intro hs
    by_cases hcheck : ∃ q, j = .tableCheckEnd q
    · obtain ⟨q, rfl⟩ := hcheck
      injection e with e
      subst e
      exact fun _ => by rw [get_endCheck_of_inService hs]
    · exact row_keeps hc (P := servesWords r (s.tables.get r).words) (fun _ _ a => servesWords_tables a.tables)
        (servesWords_rows j fun q e => hcheck ⟨q, e⟩) (fun _ => rfl) e

end Sys2Proof.Machine
end

