-- ==== Sys2Proof/Proofs/LawsAfterReset.lean ====
section
/-! PROOFS. The laws of the device hold after power-on reset with any lines, and `State.reset` is that reset with every line low. -/

namespace Sys2Proof.Machine

section
variable (l : Lines) (s : State)

theorem powerOn_pp : (powerOn l s).pp =
    { sw := ⟨porSwitch l.presA, porSwitch l.presB⟩, held := ⟨false, false⟩, ext := l.ext, bridgeReady := l.bridgeReady,
      bridge := .idle, timer := 0, bridgeSw := false, lowpwr := false, pfail := false } := rfl

theorem powerOn_bays : (powerOn l s).bays = ⟨porBay l.presA l.latchA, porBay l.presB l.latchB⟩ := rfl

theorem powerOn_relays : (powerOn l s).relays = ⟨Relay.reset, Relay.reset⟩ := rfl

theorem powerOn_cache : (powerOn l s).cache = List.replicate 16 CacheSet.reset := rfl

/-- R104: no line of an empty cache is valid. -/
theorem noFreshSet_reset (x : BayId) : noFreshSet x CacheSet.reset := fun w ⟨hv, _, _⟩ => by cases w <;> cases hv

theorem freshLaw_powerOn : freshLaw (powerOn l s) := by
  intro x _ cs hcs
  rw [powerOn_cache, List.mem_replicate] at hcs
  exact hcs.2 ▸ noFreshSet_reset x

/-- R46: a bay present at power-on is SEATING with its presence recorded, and every other bay EMPTY with its line released. -/
theorem bayLaw_powerOn (x : BayId) : bayLaw (powerOn l s) x := by
  unfold bayLaw
  rw [powerOn_pp, powerOn_bays, powerOn_relays]
  obtain ⟨presA, presB, latchA, latchB, ext, ready⟩ := l
  cases x
  · cases presA <;> simp [Pair.get, porBay, porSwitch, steady, Bay.reset, Relay.reset]
  · cases presB <;> simp [Pair.get, porBay, porSwitch, steady, Bay.reset, Relay.reset]

/-- R14, R46: the switch of a bay present at power-on is PASSIVE, and OFF otherwise. -/
theorem switchLaw_powerOn (x : BayId) : switchLaw (powerOn l s) x := by
  unfold switchLaw
  rw [powerOn_pp, powerOn_bays]
  obtain ⟨presA, presB, latchA, latchB, ext, ready⟩ := l
  cases x
  · cases presA <;> simp [Pair.get, porBay, porSwitch]
  · cases presB <;> simp [Pair.get, porBay, porSwitch]

theorem deviceLaws_powerOn : deviceLaws (powerOn l s) := by
  have store := storeLaws_powerOn l s
  exact ⟨⟨rfl, rfl, rfl, fun _ => rfl⟩, attnLaw_empty, logLaw_por, ⟨rfl, rfl, fun hd => absurd rfl hd, rfl⟩, cacheLaw_reset,
    freshLaw_powerOn l s, store.tables, store.output, store.count, budgetLaw_powerOn l s, bayLaw_powerOn l s, switchLaw_powerOn l s⟩

end

/-- The state after reset is power-on reset with every line low (log 1). -/
theorem reset_eq_powerOn :
    State.reset = powerOn { presA := false, presB := false, latchA := false, latchB := false, ext := false, bridgeReady := false }
      State.reset := by decide

/-- Settles O4. -/
theorem lawsHoldAfterReset : Obligations.LawsHoldAfterReset := by
  refine ⟨?_, fun l s t e => ?_⟩
  · rw [reset_eq_powerOn]; exact deviceLaws_powerOn _ _
  · injection e with e
    exact e ▸ deviceLaws_powerOn l s

end Sys2Proof.Machine
end

