-- ==== Sys2Proof/Proofs/Switching.lean ====
section
/-! PROOFS. A property that survives the few changes that the switching of bays is made of (`Swaps`) survives every handover, every event between
two bays and every answer to an emptied set: each operation is walked through once, for any such property. -/

namespace Sys2Proof.Machine

theorem other_other (x : BayId) : x.other.other = x := by cases x <;> rfl

theorem other_ne (x : BayId) : x.other ≠ x := by cases x <;> decide

/-! ### What the power path's operations leave -/

/-- `t` differs from `s` in the power path, the budget, the pipeline and the Attention Queue alone. -/
def powerOnly (s t : State) : Prop := t = { s with pp := t.pp, budget := t.budget, pipe := t.pipe, attn := t.attn }

section PowerOnly
variable {s t u : State}

theorem powerOnly.field {α : Type} (h : powerOnly s t) (f : State → α)
    (hf : ∀ p b q a, f { s with pp := p, budget := b, pipe := q, attn := a } = f s) : f t = f s :=
  (congrArg f h).trans (hf _ _ _ _)

theorem powerOnly.bays (h : powerOnly s t) : t.bays = s.bays := h.field State.bays fun _ _ _ _ => rfl
theorem powerOnly.relays (h : powerOnly s t) : t.relays = s.relays := h.field State.relays fun _ _ _ _ => rfl
theorem powerOnly.cache (h : powerOnly s t) : t.cache = s.cache := h.field State.cache fun _ _ _ _ => rfl
theorem powerOnly.upstream (h : powerOnly s t) : t.upstream = s.upstream := h.field State.upstream fun _ _ _ _ => rfl
theorem powerOnly.tables (h : powerOnly s t) : t.tables = s.tables := h.field State.tables fun _ _ _ _ => rfl
theorem powerOnly.motion (h : powerOnly s t) : t.motion = s.motion := h.field State.motion fun _ _ _ _ => rfl
theorem powerOnly.time (h : powerOnly s t) : t.time = s.time := h.field State.time fun _ _ _ _ => rfl
theorem powerOnly.flags (h : powerOnly s t) : t.flags = s.flags := h.field State.flags fun _ _ _ _ => rfl
theorem powerOnly.port (h : powerOnly s t) : t.port = s.port := h.field State.port fun _ _ _ _ => rfl
theorem powerOnly.mapInst (h : powerOnly s t) : t.mapInst = s.mapInst := h.field State.mapInst fun _ _ _ _ => rfl

theorem powerOnly.refl (s : State) : powerOnly s s := rfl

theorem powerOnly.trans (h : powerOnly s t) (k : powerOnly t u) : powerOnly s u := by
  unfold powerOnly at h k ⊢
  rw [k, h]

theorem powerOnly.setPower (h : powerOnly s t) (p : PowerPath) : powerOnly s { t with pp := p } :=
  h.trans rfl

theorem powerOnly.post (h : powerOnly s t) (k : AttnKey) (d : Detail) : powerOnly s (post k d t) := h.trans rfl

theorem powerOnly.recompute (h : powerOnly s t) : powerOnly s (recompute t) := h.trans (by rw [recompute_eq]; rfl)

theorem powerOnly.setHeld (h : powerOnly s t) (x : BayId) (v : Bool) : powerOnly s (setHeld x v t) := h.setPower _

theorem powerOnly.setSwitch (h : powerOnly s t) (x : BayId) (v : Switch) : powerOnly s (setSwitch x v t) := (h.setPower _).recompute

theorem powerOnly.releaseHeldOne (h : powerOnly s t) (x : BayId) : powerOnly s (releaseHeldOne x t) := by
  unfold Machine.releaseHeldOne
  split
  · exact h.setSwitch x .off
  · exact h

theorem powerOnly.releaseHeld (h : powerOnly s t) : powerOnly s (releaseHeld t) := (h.releaseHeldOne .A).releaseHeldOne .B

theorem powerOnly.endBridge (h : powerOnly s t) : powerOnly s (endBridge t) := by
  unfold Machine.endBridge
  split
  · exact h
  · exact (h.setPower _).recompute

theorem powerOnly.switchOn (h : powerOnly s t) (x : BayId) : powerOnly s (switchOn x t) := by
  unfold Machine.switchOn
  split
  · exact h.setHeld x false
  · split
    · exact (h.setSwitch x .on).endBridge.releaseHeld
    · exact h.setSwitch x .on

theorem powerOnly.switchOff (h : powerOnly s t) (x : BayId) : powerOnly s (switchOff x t) := by
  unfold Machine.switchOff
  split
  · exact h.setHeld x false
  · split
    · exact h.setSwitch x .off
    · exact h.setHeld x true

theorem powerOnly.requestOn (h : powerOnly s t) (x : BayId) : powerOnly s (requestOn x t) := by
  unfold Machine.requestOn
  split
  · exact (h.switchOn x).switchOff x.other
  · exact h.switchOn x

theorem powerOnly.startBridge (h : powerOnly s t) (why : BridgeReason) : powerOnly s (startBridge why t) := by
  unfold Machine.startBridge
  split
  · exact (((h.setPower _).post _ _).recompute).releaseHeld
  · exact h

end PowerOnly

/-! ### A change of bay state -/

/-- What a change of bay state does to the bay's record. -/
def Bay.enter (st : BayState) (b : Bay) : Bay :=
  { b with state := st, refuse := if b.state = .online ∧ st ≠ .online then false else b.refuse,
           jolt := if st = .empty ∨ st = .faulted then none else b.jolt }

/-- What a change of bay state does to the bay's relay. -/
def Relay.enter (st : BayState) (r : Relay) : Relay :=
  if steady st then endProbe r else if st = .probing then dropPending r else dropPending (endProbe r)

theorem setBayState_eq (x : BayId) (st : BayState) (s : State) :
    setBayState x st s = recompute (updRelay x (Relay.enter st) (updBay x (Bay.enter st) s)) := rfl

section SetBayState
variable (x : BayId) (st : BayState) (s : State)

theorem setBayState_only : powerOnly (updRelay x (Relay.enter st) (updBay x (Bay.enter st) s)) (setBayState x st s) :=
  (powerOnly.refl _).recompute

@[simp] theorem setBayState_bays : (setBayState x st s).bays = s.bays.upd x (Bay.enter st) := (setBayState_only x st s).bays
@[simp] theorem setBayState_relays : (setBayState x st s).relays = s.relays.upd x (Relay.enter st) := (setBayState_only x st s).relays
@[simp] theorem setBayState_pp : (setBayState x st s).pp = s.pp := recompute_pp _
@[simp] theorem setBayState_upstream : (setBayState x st s).upstream = s.upstream := (setBayState_only x st s).upstream
@[simp] theorem setBayState_tables : (setBayState x st s).tables = s.tables := (setBayState_only x st s).tables
@[simp] theorem setBayState_motion : (setBayState x st s).motion = s.motion := (setBayState_only x st s).motion
@[simp] theorem setBayState_flags : (setBayState x st s).flags = s.flags := (setBayState_only x st s).flags
@[simp] theorem setBayState_time : (setBayState x st s).time = s.time := (setBayState_only x st s).time
@[simp] theorem setBayState_port : (setBayState x st s).port = s.port := (setBayState_only x st s).port
@[simp] theorem setBayState_mapInst : (setBayState x st s).mapInst = s.mapInst := (setBayState_only x st s).mapInst

end SetBayState

section Enter
variable (st : BayState)

@[simp] theorem Bay.enter_state (b : Bay) : (b.enter st).state = st := rfl
@[simp] theorem Bay.enter_presence (b : Bay) : (b.enter st).presence = b.presence := rfl
@[simp] theorem Bay.enter_presLine (b : Bay) : (b.enter st).presLine = b.presLine := rfl
@[simp] theorem Bay.enter_latch (b : Bay) : (b.enter st).latch = b.latch := rfl
@[simp] theorem Bay.enter_context (b : Bay) : (b.enter st).context = b.context := rfl
@[simp] theorem Bay.enter_probeCause (b : Bay) : (b.enter st).probeCause = b.probeCause := rfl
@[simp] theorem Bay.enter_faultReason (b : Bay) : (b.enter st).faultReason = b.faultReason := rfl
@[simp] theorem Bay.enter_deferred (b : Bay) : (b.enter st).deferred = b.deferred := rfl
@[simp] theorem Bay.enter_presDeb (b : Bay) : (b.enter st).presDeb = b.presDeb := rfl
@[simp] theorem Bay.enter_refusal (b : Bay) : (b.enter st).refusal = b.refusal := rfl
@[simp] theorem Bay.enter_lastHandover (b : Bay) : (b.enter st).lastHandover = b.lastHandover := rfl
@[simp] theorem Bay.enter_levels (b : Bay) : (b.enter st).levels = b.levels := rfl

theorem Bay.enter_jolt {b : Bay} (h : ¬ (st = .empty ∨ st = .faulted)) : (b.enter st).jolt = b.jolt := if_neg h

@[simp] theorem Relay.enter_snap (r : Relay) : (r.enter st).snap = r.snap := by unfold Relay.enter; split_ifs <;> rfl
@[simp] theorem Relay.enter_failCount (r : Relay) : (r.enter st).failCount = r.failCount := by unfold Relay.enter; split_ifs <;> rfl
@[simp] theorem Relay.enter_recover (r : Relay) : (r.enter st).recover = r.recover := by unfold Relay.enter; split_ifs <;> rfl
@[simp] theorem Relay.enter_ring (r : Relay) : (r.enter st).ring = r.ring := by unfold Relay.enter; split_ifs <;> rfl

theorem Relay.enter_probe {r : Relay} (h : st ≠ .probing) : (r.enter st).probe = none := by
  unfold Relay.enter
  split_ifs
  · rfl
  · rfl

theorem Relay.enter_probing (r : Relay) : r.enter .probing = dropPending r := rfl

end Enter

theorem post_frame (k : AttnKey) (d : Detail) (s : State) : powerOnly s (post k d s) := (powerOnly.refl s).post k d

theorem goOnline_eq (x : BayId) (d : Detail) (s : State) :
    goOnline x d s = post (.swapDone x) d (setBayState x .online (requestOn x s)) := rfl

/-! ### Marks of a bay -/

/-- `f` changes the refuse indicator, the refusal reason, the deferred mark and the last handover of a bay and nothing else. -/
def marksOnly (f : Bay → Bay) : Prop :=
  ∀ b, f b = { b with refuse := (f b).refuse, refusal := (f b).refusal, deferred := (f b).deferred, lastHandover := (f b).lastHandover }

/-- The marks that a handover carried out leaves (R27 to R29). -/
def markReleased (k : HandoverKind) (b : Bay) : Bay := { b with lastHandover := k, refusal := .none, refuse := false }

theorem releaseBay_eq (x : BayId) (k : HandoverKind) (s : State) :
    releaseBay x k s = setBayState x .releasing (updBay x (markReleased k) s) := rfl

/-! ### The walk -/

/-- Bay `x` may be placed ONLINE: it is STANDBY, RELEASING or PROBING, and its switch is ON or the paralleling rule allows (R24). -/
def mayJoin (x : BayId) (s : State) : Prop :=
  ((s.bays.get x).state = .standby ∨ (s.bays.get x).state = .releasing ∨ (s.bays.get x).state = .probing)
    ∧ (s.pp.sw.get x = .on ∨ parallelAllows x s = true)

/-- ONLINE bay `x` may leave: EXT is present, the other bay is ONLINE, or another source conducts (R27, R28). -/
def mayLeave (x : BayId) (s : State) : Prop :=
  (s.bays.get x).state = .online ∧ (s.pp.ext = true ∨ (s.bays.get x.other).state = .online ∨ otherConducts s x = true)

/-- What a property has to survive so that the switching of bays keeps it. Where `W` is given, each change comes with what the part tested before
it. -/
structure Swaps (W : Prop) (P : State → Prop) : Prop where
  done : ∀ x d s, P s → P (post (.swapDone x) d s)
  refused : ∀ x d s, P s → P (post (.swapRefused x) d s)
  mark : ∀ x f s, marksOnly f → P s → P (updBay x f s)
  online : ∀ x s, (W → mayJoin x s) → P s → P (setBayState x .online (requestOn x s))
  standby : ∀ x s, (W → (s.bays.get x).state = .releasing ∨ (s.bays.get x).state = .probing) → P s →
    P (setBayState x .standby (switchOff x s))
  release : ∀ x k s, (W → mayLeave x s) → P s → P (releaseBay x k (switchOff x s))
  bridge : ∀ why s, P s → P (startBridge why s)

section SwapsWalk
variable {W : Prop} {P : State → Prop} {s : State}

theorem Swaps.goOnline (k : Swaps W P) (x : BayId) (d : Detail) (hj : W → mayJoin x s) (h : P s) : P (goOnline x d s) :=
  k.done x d _ (k.online x s hj h)

theorem Swaps.standbyJoin (k : Swaps W P) (x : BayId) (h : P s) : P (standbyJoin x s) := by
  unfold Machine.standbyJoin
  split
  · next hc => exact k.goOnline x _ (fun _ => ⟨.inl hc.1, .inr hc.2.2⟩) h
  · exact h

theorem Swaps.settleOne (k : Swaps W P) (old new : State) (x : BayId) (h : P s) : P (settleOne old new x s) := by
  unfold Machine.settleOne
  split
  · exact k.standbyJoin x h
  · exact h

theorem Swaps.settle (k : Swaps W P) (old : State) (h : P s) : P (settle old s) := k.settleOne _ _ _ (k.settleOne _ _ _ h)

theorem Swaps.settling (k : Swaps W P) {f : State → State} (h : P (f s)) : P (settling f s) := k.settle s h

theorem Swaps.refuseBay (k : Swaps W P) (x : BayId) (b : Bool) (r : RefusalReason) (h : P s) : P (refuseBay x b r s) := by
  unfold Machine.refuseBay
  split
  · exact k.refused x _ _ (k.mark x _ s (fun _ => rfl) h)
  · exact k.mark x _ s (fun _ => rfl) h

/-! What an operation leaves that a later one of the same handover tests. -/

theorem state_switchOff (x y : BayId) (s : State) : ((switchOff x s).bays.get y).state = (s.bays.get y).state := by rw [off_bays]

theorem bays_startBridge (why : BridgeReason) (s : State) : (startBridge why s).bays = s.bays :=
  ((powerOnly.refl s).startBridge why).bays

theorem get_releaseBay_other (x : BayId) (k : HandoverKind) (s : State) : (releaseBay x k s).bays.get x.other = s.bays.get x.other := by
  rw [releaseBay_eq]; simp

theorem sw_releaseBay (x : BayId) (k : HandoverKind) (s : State) : (releaseBay x k s).pp = s.pp := by rw [releaseBay_eq]; simp

theorem state_goOnline_self (x : BayId) (d : Detail) (s : State) : ((goOnline x d s).bays.get x).state = .online := by
  rw [goOnline_eq]; exact setBayState_self x .online _

theorem get_goOnline_other (x : BayId) (d : Detail) (s : State) : (goOnline x d s).bays.get x.other = s.bays.get x.other := by
  have h : (goOnline x d s).bays = (setBayState x .online (requestOn x s)).bays := rfl
  rw [h, setBayState_bays, req_bays, Pair.get_upd_other]

/-- R5: a turn-off request with another source conducting turns the switch OFF. -/
theorem sw_setSwitch (x y : BayId) (v : Switch) (s : State) : (setSwitch x v s).pp.sw.get y = (s.pp.sw.upd x fun _ => v).get y := by
  unfold setSwitch updPower; rw [recompute_pp]

theorem held_setSwitch (x y : BayId) (v : Switch) (s : State) :
    (setSwitch x v s).pp.held.get y = (s.pp.held.upd x fun _ => false).get y := by
  unfold setSwitch updPower; rw [recompute_pp]

theorem sw_switchOff_of_conducts {x : BayId} (h : otherConducts s x = true) : (switchOff x s).pp.sw.get x = .off := by
  unfold switchOff
  split
  · next hoff => exact hoff
  · rw [sw_setSwitch, Pair.get_upd_self]

theorem bridge_setSwitch (x : BayId) (v : Switch) (s : State) : (setSwitch x v s).pp.bridge = s.pp.bridge := by
  unfold setSwitch updPower; rw [recompute_pp]

theorem bridge_releaseHeldOne (x : BayId) (s : State) : (releaseHeldOne x s).pp.bridge = s.pp.bridge := by
  unfold releaseHeldOne
  split
  · exact bridge_setSwitch _ _ _
  · rfl

theorem bridge_releaseHeld (s : State) : (releaseHeld s).pp.bridge = s.pp.bridge := by
  unfold releaseHeld; rw [bridge_releaseHeldOne, bridge_releaseHeldOne]

/-- R8: a bridge that can start runs after the request. -/
theorem bridge_startBridge {why : BridgeReason} (h : bridgeCanStart s = true) : (startBridge why s).pp.bridge = .running := by
  unfold startBridge
  rw [if_pos h, bridge_releaseHeld, recompute_pp]
  rfl

theorem otherConducts_of_bridge {x : BayId} (h : s.pp.bridge ≠ .idle) : otherConducts s x = true := by
  unfold otherConducts conductsBridge
  simp [h]

/-- R24: with the other switch not ON the rule allows. -/
theorem parallelAllows_of_ne_on {x : BayId} (h : s.pp.sw.get x.other ≠ .on) : parallelAllows x s = true := by
  unfold parallelAllows
  rw [if_neg fun e => h e.1]

theorem parallelAllows_of_absent {x : BayId} (h : (s.bays.get x.other).presence = false) : parallelAllows x s = true := by
  unfold parallelAllows
  rw [if_neg fun e => by rw [h] at e; cases e.2]

theorem parallelAllows_of_close {x : BayId} (h : voltsClose s = true) : parallelAllows x s = true := by
  unfold parallelAllows
  split
  · exact h
  · rfl

/-- R27, case 4: after bay `x` has been released with its switch OFF, the STANDBY pack may join. -/
theorem mayJoin_after_release {x : BayId} {k : HandoverKind} (hst : (s.bays.get x.other).state = .standby)
    (hc : otherConducts s x = true) : mayJoin x.other (releaseBay x k (switchOff x s)) := by
  refine ⟨.inl ?_, .inr (parallelAllows_of_ne_on ?_)⟩
  · rw [get_releaseBay_other, off_bays]; exact hst
  · rw [sw_releaseBay, other_other, sw_switchOff_of_conducts hc]; decide

theorem Swaps.handoverToStandby (k : Swaps W P) (x : BayId) (b : Bool) (hx : W → (s.bays.get x).state = .online)
    (hst : (s.bays.get x.other).state = .standby) (h : P s) : P (handoverToStandby x b s).1 := by
  unfold Machine.handoverToStandby
  split
  · next hv =>
    refine k.release x _ _ (fun w => ⟨?_, .inr (.inl (state_goOnline_self _ _ _))⟩)
      (k.goOnline x.other _ (fun _ => ⟨.inl hst, .inr (parallelAllows_of_close hv)⟩) h)
    have := get_goOnline_other x.other dTakeOver s
    rw [other_other] at this
    rw [this]; exact hx w
  · split
    · next hb =>
      exact k.goOnline x.other _ (fun _ => mayJoin_after_release hst hb.2)
        (k.release x _ _ (fun w => ⟨hx w, .inr (.inr hb.2)⟩) h)
    · split
      · next hb =>
        have hc : otherConducts (startBridge .through s) x = true := otherConducts_of_bridge (by rw [bridge_startBridge hb]; decide)
        have hbays := bays_startBridge .through s
        exact k.goOnline x.other _ (fun _ => mayJoin_after_release (by rw [hbays]; exact hst) hc)
          (k.release x _ _ (fun w => ⟨by rw [hbays]; exact hx w, .inr (.inr hc)⟩) (k.bridge _ _ h))
      · exact k.refuseBay x b _ h

theorem Swaps.evaluateCases (k : Swaps W P) (x : BayId) (b : Bool) (hx : W → (s.bays.get x).state = .online) (h : P s) :
    P (evaluateCases x b s).1 := by
  unfold Machine.evaluateCases
  split
  · exact k.refuseBay x b _ h
  · split
    · split
      · exact k.mark x _ s (fun _ => rfl) h
      · exact k.refuseBay x b _ h
    · split
      · next ho =>
        split
        · exact k.release x _ s (fun w => ⟨hx w, ho.imp id .inl⟩) h
        · exact k.refuseBay x b _ h
      · split
        · next hst => exact k.handoverToStandby x b hx hst.1 h
        · split
          · next hb =>
            have hc : otherConducts (startBridge .hold s) x = true := otherConducts_of_bridge (by rw [bridge_startBridge hb]; decide)
            exact k.release x _ _ (fun w => ⟨by rw [bays_startBridge]; exact hx w, .inr (.inr hc)⟩) (k.bridge _ _ h)
          · exact k.refuseBay x b _ h

theorem Swaps.evaluate (k : Swaps W P) (x : BayId) (b : Bool) (hx : W → (s.bays.get x).state = .online) (h : P s) :
    P (evaluate x b s).1 := k.settle s (k.evaluateCases x b hx h)

theorem Swaps.evaluateLatch (k : Swaps W P) (x : BayId) (hx : W → (s.bays.get x).state = .online) (h : P s) :
    P (evaluateLatch x s) := k.evaluate x true hx h

theorem Swaps.reevaluate (k : Swaps W P) (x : BayId) (h : P s) : P (reevaluate x s) := by
  unfold Machine.reevaluate
  split
  · next hc => exact k.evaluateLatch x (fun _ => hc.1) h
  · exact h

theorem Swaps.returnBay (k : Swaps W P) (x : BayId) (hx : W → (s.bays.get x).state = .releasing) (h : P s) : P (returnBay x s) := by
  unfold Machine.returnBay
  split
  · next hp => exact k.online x s (fun w => ⟨.inr (.inl (hx w)), .inr hp⟩) h
  · exact k.standby x s (fun w => .inl (hx w)) h

/-- R33: the bay of a take-over is STANDBY with its pack present. -/
theorem takeOverBay_spec {x : BayId} (h : takeOverBay s = some x) : (s.bays.get x).state = .standby ∧ (s.bays.get x).presence = true := by
  have spec : ∀ y, canTakeOver s y = true → (s.bays.get y).state = .standby ∧ (s.bays.get y).presence = true := fun y hy => by
    simpa [canTakeOver] using hy
  unfold takeOverBay at h
  split at h
  · next ha =>
    split at h
    · next hb => injection h with h; exact h ▸ spec .B hb.1
    · injection h with h; exact h ▸ spec .A ha
  · split at h
    · next hb => injection h with h; exact h ▸ spec .B hb
    · cases h

theorem Swaps.answerNoSource (k : Swaps W P) (hp : W → ∀ x, takeOverBay s = some x → parallelAllows x s = true) (h : P s) :
    P (answerNoSource s) := by
  unfold Machine.answerNoSource
  split
  · next x hx => exact k.goOnline x _ (fun w => ⟨.inl (takeOverBay_spec hx).1, .inr (hp w x hx)⟩) h
  · exact k.bridge _ _ h

theorem Swaps.closeDeferred (k : Swaps W P) (x : BayId) (h : P s) : P (closeDeferred x s) := by
  unfold Machine.closeDeferred
  have hm : P (updBay x (fun b => { b with deferred := false }) s) := k.mark x _ s (fun _ => rfl) h
  split
  · simp only
    split
    · next hc => exact k.evaluateLatch x (fun _ => by rw [updBay_bays, Pair.get_upd_self]; exact hc.1) hm
    · exact hm
  · exact h

theorem Swaps.handFlag (k : Swaps W P) (n : Nat) (a b : Bool) (hr : ∀ x f s, (∀ r : Relay, f r = { r with pollDue := false }) → P s → P (updRelay x f s))
    (h : P s) : P (handFlag n a b s) := by
  unfold Machine.handFlag
  split
  · split
    · exact k.reevaluate .A h
    · split
      · exact k.reevaluate .B h
      · exact h
  · split
    · exact hr .B _ _ (fun _ => rfl) (hr .A _ _ (fun _ => rfl) h)
    · exact h

theorem Swaps.bayRelease (k : Swaps W P) (x : BayId) (h : P s) : P (bayRelease x s).1 := by
  unfold Machine.bayRelease
  split
  · next ho =>
    have := k.evaluate x false (fun _ => ho) h
    split <;> exact this
  · exact h

theorem Swaps.bayReturn (k : Swaps W P) (x : BayId) (h : P s) : P (bayReturn x s).1 := by
  unfold Machine.bayReturn
  split
  · next hc => exact k.settle s (k.returnBay x (fun _ => hc.1) h)
  · exact h

end SwapsWalk

end Sys2Proof.Machine
end

