-- ==== Sys2Proof/Proofs/Admission.lean ====
section
/-! PROOFS. The walk goes on: faults, admission, placement and probes (`Faults`, `Admits`), and the close of the drop window with the episodes of the
Motion Monitor that lead to it (`Losses`). -/

namespace Sys2Proof.Machine

/-! ### Faults -/

/-- What a fault does to the bay's record beside its state (R35). -/
def markFaulted (why : FaultReason) (b : Bay) : Bay := { b with faultReason := why, refuse := false, deferred := false }

/-- R35: the bay in FAULTED with its switch requested OFF. -/
def faulted (x : BayId) (why : FaultReason) (s : State) : State :=
  switchOff x (updBay x (markFaulted why) (setBayState x .faulted s))

/-- Beside the switching of bays: postings, changes of cache lines, and a fault. -/
structure Faults (W : Prop) (P : State → Prop) : Prop extends Swaps W P where
  note : ∀ k d s, P s → P (post k d s)
  lines : ∀ f s, P s → P (mapCache f s)
  fault : ∀ x why s, (W → servedState (s.bays.get x).state = true) → P s → P (faulted x why s)

section FaultsWalk
variable {W : Prop} {P : State → Prop} {s : State}

theorem Faults.postProbeEnd (k : Faults W P) (b : Bay) (x : BayId) (d : Detail) (h : P s) : P (postProbeEnd b x d s) := by
  unfold Machine.postProbeEnd
  split
  · exact k.note _ _ _ h
  · exact h

theorem enterFault_eq (x : BayId) (why : FaultReason) (s : State) :
    enterFault x why s = postProbeEnd (s.bays.get x) x (if why = .admission then dNotAdmitted else dLinkFailed)
      (post (.bayFault x) (dFault why) (cacheDistrust x (faulted x why s))) := rfl

theorem Faults.enterFault (k : Faults W P) (x : BayId) (why : FaultReason) (hx : W → servedState (s.bays.get x).state = true) (h : P s) :
    P (enterFault x why s) := by
  rw [enterFault_eq]
  exact k.postProbeEnd _ x _ (k.note _ _ _ (k.lines _ _ (k.fault x why s hx h)))

theorem Faults.faultIfReached (k : Faults W P) (x : BayId) (h : P s) : P (faultIfReached x s) := by
  unfold Machine.faultIfReached
  split
  · next hc => exact k.enterFault x .link (fun _ => by unfold countAtLimit at hc; exact (Bool.and_eq_true_iff.1 hc).1) h
  · exact h

theorem Faults.faultAtLimit (k : Faults W P) (x : BayId) (h : P s) : P (faultAtLimit x s) := k.settling (k.faultIfReached x h)

end FaultsWalk

/-! ### Admission and placement -/

/-- `f` leaves a bay's state, its presence line and its recorded presence. -/
def keepsPlace (f : Bay → Bay) : Prop := ∀ b, (f b).state = b.state ∧ (f b).presLine = b.presLine ∧ (f b).presence = b.presence

/-- Beside faults: changes of the bay's records, entry into PROBING, and a probe. -/
structure Admits (W : Prop) (P : State → Prop) : Prop extends Faults W P where
  record : ∀ x f s, keepsPlace f → P s → P (updBay x f s)
  probing : ∀ x s, (W → (s.bays.get x).state = .standby ∨ (s.bays.get x).state = .faulted ∨ (s.bays.get x).presence = true) → P s →
    P (setBayState x .probing s)
  probe : ∀ x p s, (W → (s.bays.get x).state = .probing) → P s → P (updRelay x (fun q => { q with probe := some p }) s)

theorem bays_mapCache (f : Line → Line) (s : State) : (mapCache f s).bays = s.bays := rfl

theorem get_matchContext (x : BayId) (s : State) : (matchContext x s).bays.get x = { s.bays.get x with context := none } := by
  unfold matchContext clearContext
  split <;> exact Pair.get_upd_self _ _ _

theorem state_updBay {x y : BayId} {f : Bay → Bay} (hf : keepsPlace f) (s : State) :
    ((updBay x f s).bays.get y).state = (s.bays.get y).state := by
  rw [updBay_bays]
  by_cases h : y = x
  · subst h; rw [Pair.get_upd_self]; exact (hf _).1
  · rw [Pair.get_upd_ne _ h]

section AdmitsWalk
variable {W : Prop} {P : State → Prop} {s : State}

theorem Admits.clearContext (k : Admits W P) (x : BayId) (h : P s) : P (clearContext x s) := k.record x _ s (fun _ => ⟨rfl, rfl, rfl⟩) h

theorem Admits.matchContext (k : Admits W P) (x : BayId) (h : P s) : P (matchContext x s) := by
  unfold Machine.matchContext
  split
  · exact k.clearContext x (k.lines _ _ h)
  · exact k.clearContext x (k.lines _ _ h)

theorem Admits.placeSwitch (k : Admits W P) (x : BayId) (hx : W → (s.bays.get x).state = .probing) (h : P s) : P (placeSwitch x s) := by
  unfold Machine.placeSwitch
  split
  · next hc => exact k.online x s (fun w => ⟨.inr (.inr (hx w)), .inr hc.2⟩) h
  · exact k.standby x s (fun w => .inr (hx w)) h

theorem Admits.placeFresh (k : Admits W P) (x : BayId) (hx : W → (s.bays.get x).state = .probing) (h : P s) : P (placeFresh x s) := by
  have placed := k.placeSwitch x (s := Machine.matchContext x s) (fun w => by rw [get_matchContext]; exact hx w) (k.matchContext x h)
  unfold Machine.placeFresh
  simp only
  split
  · exact k.done x _ _ placed
  · exact placed

theorem Admits.clearJolt (k : Admits W P) (x : BayId) (h : P s) : P (clearJolt x s) := k.record x _ s (fun _ => ⟨rfl, rfl, rfl⟩) h

theorem Admits.returnOnline (k : Admits W P) (x : BayId) (hx : W → (s.bays.get x).state = .probing) (h : P s) : P (returnOnline x s) := by
  unfold Machine.returnOnline
  split
  · next hsw =>
    have ho := k.online x s (fun w => ⟨.inr (.inr (hx w)), .inl hsw⟩) h
    split
    · exact ho
    · exact k.evaluateLatch x (fun _ => setBayState_self x .online _) ho
  · exact k.placeSwitch x hx h

theorem Admits.settleJolt (k : Admits W P) (x : BayId) (hx : W → (s.bays.get x).state = .probing) (h : P s) : P (settleJolt x s) := by
  have cleared : ∀ u : State, (Machine.clearJolt x u).bays.get x = { u.bays.get x with jolt := none } := fun u => Pair.get_upd_self _ _ _
  unfold Machine.settleJolt
  split
  · have h1 := k.clearJolt x (k.note (.jolt x) dSame s h)
    have hx1 : W → ((Machine.clearJolt x (post (.jolt x) dSame s)).bays.get x).state = .probing := fun w => by
      rw [cleared]; exact hx w
    simp only
    split
    · split
      · exact k.returnOnline x hx1 h1
      · exact k.standbyJoin x (k.standby x _ (fun w => .inr (hx1 w)) h1)
      · exact k.placeFresh x hx1 h1
    · exact h1
  · exact k.placeFresh x (fun w => by rw [cleared]; exact hx w) (k.clearJolt x (k.note _ _ _ (k.lines _ _ h)))

theorem Admits.placePack (k : Admits W P) (x : BayId) (hx : W → (s.bays.get x).state = .probing) (h : P s) : P (placePack x s) := by
  have hx1 : W → ((updBay x (fun b => { b with faultReason := FaultReason.none }) s).bays.get x).state = .probing := fun w => by
    rw [updBay_bays, Pair.get_upd_self]; exact hx w
  have h1 := k.record x (fun b => { b with faultReason := FaultReason.none }) s (fun _ => ⟨rfl, rfl, rfl⟩) h
  unfold Machine.placePack
  simp only
  split
  · exact k.settleJolt x hx1 h1
  · exact k.postProbeEnd _ x _ (k.placeFresh x hx1 h1)

theorem Admits.admitPack (k : Admits W P) (x : BayId) (hx : W → (s.bays.get x).state = .probing) (h : P s) : P (admitPack x s) := by
  refine k.settling ?_
  split
  · exact k.placePack x hx h
  · exact k.enterFault x .admission (fun w => by rw [hx w]; rfl) h

theorem Admits.startProbe (k : Admits W P) (x : BayId) (hx : W → (s.bays.get x).state = .probing) (h : P s) : P (startProbe x s) := by
  unfold Machine.startProbe
  split
  · exact k.admitPack x hx h
  · exact k.probe x _ s hx h

/-- R21: the state in which the probe of a bay that has entered PROBING starts. -/
theorem state_beforeProbe (x : BayId) (c : ProbeCause) (s : State) :
    ((cacheDistrust x (updBay x (fun b => { b with probeCause := c }) (setBayState x .probing s))).bays.get x).state = .probing := by
  show ((updBay x _ _).bays.get x).state = _
  rw [updBay_bays, Pair.get_upd_self]
  exact setBayState_self x .probing s

/-- R21: once the bay is in PROBING, what follows keeps the property. -/
theorem Admits.probeFrom (k : Admits W P) (x : BayId) (c : ProbeCause) (h : P (setBayState x .probing s)) : P (enterProbing x c s) :=
  k.startProbe x (fun _ => state_beforeProbe x c s) (k.lines _ _ (k.record x _ _ (fun _ => ⟨rfl, rfl, rfl⟩) h))

theorem Admits.enterProbing (k : Admits W P) (x : BayId) (c : ProbeCause)
    (hx : W → (s.bays.get x).state = .standby ∨ (s.bays.get x).state = .faulted ∨ (s.bays.get x).presence = true) (h : P s) :
    P (enterProbing x c s) := k.probeFrom x c (k.probing x s hx h)

theorem Admits.restartProbe (k : Admits W P) (x : BayId) (h : P s) : P (restartProbe x s) := by
  unfold Machine.restartProbe
  split
  · next hx => exact k.settling (k.startProbe x (fun _ => hx) h)
  · exact h

end AdmitsWalk

/-! ### The episodes of the Motion Monitor -/

/-- What a property has to survive so that the Motion Monitor keeps it: changes of the monitor, the record of an episode, the stop of a jolt hold, the
notice to the cache, and the close of the window. -/
structure Episodes (P : State → Prop) : Prop where
  motion : ∀ m s, P s → P { s with motion := m }
  record : ∀ e r s, P s → P (writeRecord e r s)
  wait : ∀ x s, P s → P (updBay x waitJoltHold s)
  impact : ∀ s, P s → P (cacheImpact s)
  close : ∀ s, P s → P (windowCloseEvent s)

section EpisodesWalk
variable {P : State → Prop} {s : State}

theorem Episodes.closeWindow (k : Episodes P) (h : P s) : P (closeWindow s) := k.close _ (k.motion _ _ h)

theorem Episodes.beginClose (k : Episodes P) (h : P s) : P (beginClose s) := by
  unfold Machine.beginClose
  split
  · exact k.closeWindow h
  · exact k.motion _ _ h

theorem Episodes.returnToArmed (k : Episodes P) (h : P s) : P (returnToArmed s) := k.beginClose (k.motion _ _ h)

theorem Episodes.endEpisode (k : Episodes P) (e : DropEnding) (r : RestAxis) (h : P s) : P (endEpisode e r s) :=
  k.returnToArmed (k.record e r s h)

theorem Episodes.beginEpisode (k : Episodes P) (d : Detector) (n : Nat) (h : P s) : P (beginEpisode d n s) :=
  k.wait .B _ (k.wait .A _ (k.motion _ _ h))

theorem Episodes.impactSample (k : Episodes P) (p : Sample) (c : SampleClass) (h : P s) : P (impactSample p c s) := by
  have h1 := k.motion (countImpact p c s.motion) s h
  unfold Machine.impactSample judgeImpact
  split
  · exact k.endEpisode _ _ h1
  · split
    · exact k.endEpisode _ _ h1
    · exact h1

theorem Episodes.enterImpact (k : Episodes P) (d : DropKind) (h : P s) : P (enterImpact d s) := k.impact _ (k.motion _ _ h)

theorem Episodes.takeSample (k : Episodes P) (p : Sample) (h : P s) : P (takeSample p s) := by
  unfold Machine.takeSample
  split
  · unfold armedSample
    split
    · split
      · exact k.beginEpisode _ _ h
      · exact k.motion _ _ h
    · exact k.impactSample p _ (k.enterImpact _ (k.beginEpisode _ _ h))
    · exact k.motion _ _ h
    · exact k.motion _ _ h
  · unfold fallingSample
    split
    · exact k.motion _ _ (k.motion _ _ h)
    · exact k.impactSample p _ (k.enterImpact _ (k.motion _ _ h))
    · exact k.returnToArmed h
    · exact k.returnToArmed h
  · exact k.impactSample p _ h

theorem Episodes.stallOut (k : Episodes P) (h : P s) : P (stallOut s) := by
  unfold Machine.stallOut
  split
  · exact h
  · exact k.endEpisode _ _ h

theorem Episodes.holdOut (k : Episodes P) (h : P s) : P (holdOut s) := by
  unfold Machine.holdOut
  split
  · exact k.closeWindow h
  · exact h

theorem Episodes.windowReset (k : Episodes P) (h : P s) : P (windowReset s) := by
  unfold Machine.windowReset
  split
  · exact k.closeWindow h
  · exact h

end EpisodesWalk

/-! ### The close of the window -/

/-- `t` has the power path, the bays, the relays, the tables, the cache and the upstream link of `s`. -/
structure SameCore (s t : State) : Prop where
  pp : t.pp = s.pp
  bays : t.bays = s.bays
  relays : t.relays = s.relays
  tables : t.tables = s.tables
  cache : t.cache = s.cache
  upstream : t.upstream = s.upstream

theorem SameCore.refl (s : State) : SameCore s s := ⟨rfl, rfl, rfl, rfl, rfl, rfl⟩

theorem SameCore.recompute {s t : State} (h : SameCore s t) : SameCore s (recompute t) := by
  rw [recompute_eq]; exact ⟨h.pp, h.bays, h.relays, h.tables, h.cache, h.upstream⟩

/-- Beside admission: every change outside those parts, and the end of a jolt hold. -/
structure Losses (W : Prop) (P : State → Prop) : Prop extends Admits W P where
  outside : ∀ s t, SameCore s t → P s → P t
  expire : ∀ x v s, (W → (s.bays.get x).state = .jolt) → P s → P (enterEmpty x (some v) false s)

theorem keepsPlace_setJoltHold (t : HoldTimer) : keepsPlace (setJoltHold t) := fun _ => ⟨rfl, rfl, rfl⟩

theorem keepsPlace_waitJoltHold : keepsPlace waitJoltHold := fun b => by
  unfold waitJoltHold
  split
  · split <;> exact ⟨rfl, rfl, rfl⟩
  · exact ⟨rfl, rfl, rfl⟩

section LossesWalk
variable {W : Prop} {P : State → Prop} {s : State}

theorem Losses.joltExpire (k : Losses W P) (x : BayId) (hx : W → (s.bays.get x).state = .jolt) (h : P s) : P (joltExpire x s) :=
  k.note _ _ _ (k.expire x _ s hx h)

theorem Losses.startJoltHold (k : Losses W P) (x : BayId) (hx : W → (s.bays.get x).state = .jolt) (h : P s) : P (startJoltHold x s) := by
  unfold Machine.startJoltHold
  split
  · exact k.settling (k.joltExpire x hx h)
  · exact k.record x _ s (keepsPlace_setJoltHold _) h

theorem Losses.windowCloseOne (k : Losses W P) (x : BayId) (h : P s) : P (windowCloseOne x s) := by
  have h1 := k.closeDeferred x h
  unfold Machine.windowCloseOne
  split
  · next hj => exact k.startJoltHold x (fun _ => hj) h1
  · exact h1

theorem Losses.windowCloseEvent (k : Losses W P) (h : P s) : P (windowCloseEvent s) := k.windowCloseOne .B (k.windowCloseOne .A h)

theorem writeRecord_outside (e : DropEnding) (r : RestAxis) (s : State) : SameCore s (writeRecord e r s) := by
  unfold writeRecord
  split <;> exact ⟨rfl, rfl, rfl, rfl, rfl, rfl⟩

theorem Losses.episodes (k : Losses W P) : Episodes P where
  motion _ s h := k.outside s _ ⟨rfl, rfl, rfl, rfl, rfl, rfl⟩ h
  record e r s h := k.outside s _ (writeRecord_outside e r s) h
  wait x s h := k.record x _ s keepsPlace_waitJoltHold h
  impact s h := k.lines _ s h
  close _ h := k.windowCloseEvent h

theorem Losses.flagsReset (k : Losses W P) (h : P s) : P (flagsReset s) := by
  have h1 : P { s with flags := flagsClear } := k.outside s _ ⟨rfl, rfl, rfl, rfl, rfl, rfl⟩ h
  have h2 : P (if s.flags.holdSwapA then reevaluate .A { s with flags := flagsClear } else { s with flags := flagsClear }) := by
    split
    · exact k.reevaluate .A h1
    · exact h1
  unfold Machine.flagsReset
  simp only
  split
  · exact k.reevaluate .B h2
  · exact h2

/-- R189: what follows the base of a software reset. -/
theorem Losses.resetTail (k : Losses W P) (h : P s) : P (resetTail s) := by
  obtain ⟨n, p, e⟩ := resetTail_form s
  rw [e]
  exact k.outside (resetEvents s) _ ⟨rfl, rfl, rfl, rfl, rfl, rfl⟩
    (k.episodes.windowReset (k.flagsReset (k.restartProbe .B (k.restartProbe .A h))))

end LossesWalk

end Sys2Proof.Machine
end

