-- ==== Sys2Proof/Proofs/RowSteps.lean ====
section
/-! PROOFS. The rows one by one: what holds before a row (`A`) and after it (`B`), given for each function that a row runs. It is finer than
`RowKeeps`: a property need not survive every action, and may be weaker after a row than before it. -/

namespace Sys2Proof.Machine

/-! ### The rows that take the upstream link, the slot and the sample lane -/

/-- A row of a line, a timer, the sample lane or the pack side of a poll or a probe; every other row may move the upstream link. -/
def movesLink : Instr → Bool
  | .extPresentChange _ | .latchLineChange .. | .latchDebounceExpiry _ | .bridgeReadyChange _ | .bridgeExpiry | .joltHoldExpiry _
  | .contextWindowExpiry _ | .uptimeTick | .ageTick | .pollPeriodExpiry | .pollStart _ | .pollRetry _ | .probeReadStart _
  | .linkRecoverBegin _ | .linkRecoverEnd .. | .lightSample .. | .motionSample .. | .frameDiscard .. | .laneGapDiscard _
  | .stallTimeout | .windowHoldExpiry | .tableCheckEnd _ => false
  | _ => true

/-- The result read and the commands. -/
def movesSlot : Instr → Bool
  | .resultRead _ | .invalidCommand .. | .identify _ | .senseAttention _ | .flagTest _ | .flagSet _ | .flagClear _
  | .flagToggle _ | .resetPart _ | .powerQuery _ | .bayQuery _ | .bayRelease _ | .bayReturn _ | .bayProbe _ | .linkRecover _
  | .cacheFlush _ | .cacheInspect _ | .budgetQuery _ | .brightnessSet _ | .brightnessQuery _ | .dropStateQuery _ | .dropLogRead _
  | .dropLogClear _ | .tableClear _ | .tableWrite _ | .tableCheck _ | .tableRead _ | .tableLock _ => true
  | _ => false

/-- The rows of frames on the sample lane. -/
def movesLane : Instr → Bool
  | .lightSample .. | .motionSample .. | .frameDiscard .. | .laneGapDiscard _ => true
  | _ => false

/-- The byte of row `i` may be denied (R78). -/
def mayDeny (i : Instr) : Prop := (∃ b, i = .codeByteCheck b) ∨ ∃ d, i = .permitCheck d

/-- Row `i` forwardedBy a transaction of kind `k`. -/
def forwardedBy (i : Instr) : TxKind → Prop
  | .readValue => ∃ n, i = .readValue n
  | .writeValue => ∃ a b, i = .writeValue a b
  | .readBlock => ∃ n, i = .readBlock n
  | .writeBlock => ∃ p, i = .writeBlock p

/-- Row `i` gives a flag that was `a` the value `b`. -/
def flips (i : Instr) (p : List Byte) (a b : Bool) : Prop :=
  (i = .flagSet p ∧ b = true) ∨ (i = .flagClear p ∧ b = false) ∨ (i = .flagToggle p ∧ b = !a)

theorem movesLink_of_slot {i : Instr} (h : movesSlot i = true) : movesLink i = true := by
  cases i with
  | extPresentChange | latchLineChange | latchDebounceExpiry | bridgeReadyChange | bridgeExpiry | joltHoldExpiry | contextWindowExpiry
  | uptimeTick | ageTick | pollPeriodExpiry | pollStart | pollRetry | probeReadStart | linkRecoverBegin | linkRecoverEnd | lightSample
  | motionSample | frameDiscard | laneGapDiscard | stallTimeout | windowHoldExpiry | tableCheckEnd => cases h
  | _ => rfl

/-- `B` holds after each function of a row where `A` holds before it, so that row `i` takes `A` to `B`. -/
structure RowSteps (i : Instr) (A B : State → Prop) : Prop where
  weaken : ∀ s, A s → B s
  link : ∀ s u, movesLink i = true → A s → A { s with upstream := u }
  slot : ∀ s v, movesSlot i = true → A s → A (setSlot v s)
  slotEnd : ∀ s v, movesSlot i = true → B s → B (setSlot v s)
  lane : ∀ s, movesLane i = true → A s → A (laneIdle s)
  deny : ∀ x c s, mayDeny i → A s → B (deny x c s)
  por : ∀ l s, i = .powerOnReset l → A s → B (powerOn l s)
  ext : ∀ v s, i = .extPresentChange v → A s → B (settling (extLine v) s)
  presLine : ∀ x v s, i = .presenceLineChange x v → A s → B (settling (presenceLine x v) s)
  presExpiry : ∀ x s, i = .presenceDebounceExpiry x → A s → B (settling (presenceExpiry x) s)
  latchLine : ∀ x v s, i = .latchLineChange x v → A s → B (latchLine x v s)
  latchExpiry : ∀ x s, i = .latchDebounceExpiry x → A s → B (settling (latchExpiry x) s)
  ready : ∀ v s, i = .bridgeReadyChange v → A s → B { s with pp := { s.pp with bridgeReady := v } }
  expire : ∀ s, i = .bridgeExpiry → A s → B (expireBridge s)
  joltOut : ∀ x s, i = .joltHoldExpiry x → A s → B (settling (joltHoldOut x) s)
  context : ∀ x s, i = .contextWindowExpiry x → A s → B (contextOut x s)
  uptime : ∀ s, i = .uptimeTick → A s → B { s with time := { s.time with uptime := nextUptime s.time.uptime } }
  age : ∀ s, i = .ageTick → A s → B (mapCache Line.older s)
  pollPeriod : ∀ s, i = .pollPeriodExpiry → A s → B (pollPeriodOut s)
  pollStart : ∀ x s, i = .pollStart x → A s → B (startPoll x s)
  pollRetry : ∀ x s, i = .pollRetry x → A s → B (retryPoll x s)
  probeRead : ∀ x s, i = .probeReadStart x → A s → B (startProbeRead x s)
  slotStart : ∀ x s, i = .slotTransactionStart x → A s → B (startSlot x s)
  complete : ∀ x r s, i = .packTransactionEnd x r → A s → B (settling (completeTx x r) s)
  timeout : ∀ x s, i = .linkTimeout x → A s → B (settling (timeoutTx x) s)
  recoverBegin : ∀ x s, i = .linkRecoverBegin x → A s → B (beginRecover x s)
  recoverEnd : ∀ x o s, i = .linkRecoverEnd x o → A s → B (settling (endRecover x o) s)
  light : ∀ b0 b1 b2 l o s, i = .lightSample b0 b1 b2 → A s → B (takeLight l o s)
  sample : ∀ x0 x1 y0 y1 z0 z1 p s, i = .motionSample x0 x1 y0 y1 z0 z1 → A s → B (takeSample p s)
  stall : ∀ s, i = .stallTimeout → A s → B (stallOut s)
  hold : ∀ s, i = .windowHoldExpiry → A s → B (holdOut s)
  check : ∀ r s, i = .tableCheckEnd r → A s → B (endCheck r s)
  forward : ∀ k p n s, forwardedBy i k → A s → B (reachForwarding k p n s)
  seen : ∀ p s, i = .identify p → A s → B { s with port := { s.port with resetSeen := false } }
  sense : ∀ p s e rest, i = .senseAttention p → s.attn.queue = e :: rest → A s → B { s with attn := { queue := rest, req := !rest.isEmpty } }
  flag : ∀ p s n a b, flips i p a b → A s →
    B (handFlag n a b { s with flags := flagPut s.flags n b })
  reset : ∀ p s, i = .resetPart p → A s → B (softReset s)
  release : ∀ p x s, i = .bayRelease p → A s → B (bayRelease x s).1
  giveBack : ∀ p x s, i = .bayReturn p → A s → B (bayReturn x s).1
  probe : ∀ p x s, i = .bayProbe p → A s → B (bayProbe x s).1
  recover : ∀ p x s, i = .linkRecover p → A s → B (linkRecover x s).1
  flush : ∀ p s, i = .cacheFlush p → A s → B (cacheFlush p s).1
  bright : ∀ p s m l h, i = .brightnessSet p → A s → B (setBrightness m l h s)
  sticky : ∀ p s, i = .brightnessQuery p → A s → B { s with pipe := { s.pipe with clampedLux := false, ceilingLimited := false } }
  logClear : ∀ p s, i = .dropLogClear p → A s → B { s with log := { s.log with records := [] } }
  clear : ∀ p r s, i = .tableClear p → A s → B (tableClear r s).1
  write : ∀ p r off ws s, i = .tableWrite p → A s → B (tableWrite r off ws s).1
  begin : ∀ p r s, i = .tableCheck p → A s → B (tableCheck r s).1
  lock : ∀ p r s, i = .tableLock p → A s → B (tableLock r s).1

/-! ### Platform bytes change the upstream link, and a denial posts -/

section PlatformBytes
variable (s : State)

theorem outOfPlace_link : ∃ u, outOfPlace s = { s with upstream := u } := ⟨_, rfl⟩

theorem takeMgmtAddress_link (read : Bool) : ∃ u, takeMgmtAddress read s = { s with upstream := u } := by
  cases read <;> exact ⟨_, rfl⟩

theorem takeAddress_link (a : Addr) (read : Bool) : ∃ u, takeAddress a read s = { s with upstream := u } := by
  unfold takeAddress
  split
  · exact ⟨_, rfl⟩
  · split
    · exact takeMgmtAddress_link s read
    · split
      · exact ⟨_, rfl⟩
      · split <;> exact ⟨_, rfl⟩

theorem mgmtCodeByte_link (b : Byte) : ∃ u, mgmtCodeByte b s = { s with upstream := u } := by
  unfold mgmtCodeByte
  split
  · split
    · split
      · exact ⟨_, rfl⟩
      · split <;> exact ⟨_, rfl⟩
    · exact ⟨_, rfl⟩
  · exact outOfPlace_link s

theorem mgmtByte_link (b : Byte) : ∃ u, mgmtByte b s = { s with upstream := u } := by
  unfold mgmtByte
  split
  · exact ⟨_, rfl⟩
  · exact ⟨_, rfl⟩
  · exact ⟨_, rfl⟩
  · exact outOfPlace_link s

theorem mgmtDirection_link (d : DirByte) : ∃ u, mgmtDirection d s = { s with upstream := u } := by
  cases d with
  | writeByte b => exact mgmtByte_link s b
  | readAddress a =>
    show ∃ u, mgmtReadAddress a s = _
    unfold mgmtReadAddress
    split
    · split <;> exact ⟨_, rfl⟩
    · exact ⟨_, rfl⟩
    · exact ⟨_, rfl⟩
    · exact outOfPlace_link s

theorem takeLength_link (b : Byte) : ∃ u, takeLength b s = { s with upstream := u } := by
  unfold takeLength
  split
  · split
    · split <;> exact ⟨_, rfl⟩
    · exact outOfPlace_link s
  · exact mgmtByte_link s b

theorem abandonUp_link : ∃ u, abandonUp s = { s with upstream := u } := by
  unfold abandonUp
  split <;> exact ⟨_, rfl⟩

theorem takeCodeByte_cases (b : Byte) :
    (∃ u, takeCodeByte b s = { s with upstream := u }) ∨ ∃ x c, takeCodeByte b s = deny x c s := by
  unfold takeCodeByte
  split
  · split
    · split
      · exact .inl ⟨_, rfl⟩
      · exact .inr ⟨_, _, rfl⟩
    · exact .inl (outOfPlace_link s)
  · exact .inl (mgmtCodeByte_link s b)

theorem takeDirection_cases (d : DirByte) :
    (∃ u, takeDirection d s = { s with upstream := u }) ∨ ∃ x c, takeDirection d s = deny x c s := by
  unfold takeDirection
  split
  · split
    · split
      · split
        · exact .inl ⟨_, rfl⟩
        · split
          · exact .inl ⟨_, rfl⟩
          · exact .inr ⟨_, _, rfl⟩
      · split
        · exact .inl ⟨_, rfl⟩
        · exact .inr ⟨_, _, rfl⟩
    · exact .inl (outOfPlace_link s)
  · exact .inl (mgmtDirection_link s d)

end PlatformBytes

/-! ### From the functions to the row -/

section RowStepsExec
variable {i : Instr} {A B : State → Prop} {s t : State}

theorem RowSteps.linked (k : RowSteps i A B) (h : A s) (e : ∃ u, t = { s with upstream := u }) (hu : movesLink i = true := by rfl) : B t := by
  obtain ⟨u, rfl⟩ := e
  exact k.weaken _ (k.link _ u hu h)

theorem RowSteps.denied (k : RowSteps i A B) (h : A s) (e : (∃ u, t = { s with upstream := u }) ∨ ∃ x c, t = Machine.deny x c s)
    (hd : mayDeny i) (hu : movesLink i = true := by rfl) : B t := by
  rcases e with e | ⟨x, c, rfl⟩
  · exact k.linked h e hu
  · exact k.deny x c s hd h

/-- R183, R184: a command that is taken runs its body between the two changes of the slot. -/
theorem RowSteps.manage (k : RowSteps i A B) {body : State → State × Frame} (hb : ∀ s, A s → B (body s).1) (h : A s)
    (hm : movesSlot i = true := by rfl) : B (manage body s) := by
  have hu := movesLink_of_slot hm
  unfold Machine.manage
  split
  · exact k.linked h ⟨_, rfl⟩ hu
  · split
    · exact k.slotEnd _ _ hm (hb _ (k.slot _ _ hm (k.link _ _ hu h)))
    · exact k.linked h ⟨_, rfl⟩ hu

theorem RowSteps.noParams (k : RowSteps i A B) {f : State → State × Frame} (hf : ∀ s, A s → B (f s).1) (p : List Byte) (h : A s)
    (hm : movesSlot i = true := by rfl) : B (Machine.manage (noParams p f) s) := by
  refine k.manage (fun s h => ?_) h hm
  unfold Machine.noParams
  split
  · exact hf s h
  · exact k.weaken s h

theorem RowSteps.withBay (k : RowSteps i A B) {f : BayId → State → State × Frame} (hf : ∀ x s, A s → B (f x s).1) (p : List Byte)
    (h : A s) (hm : movesSlot i = true := by rfl) : B (Machine.manage (withBay p f) s) := by
  refine k.manage (fun s h => ?_) h hm
  unfold Machine.withBay
  split
  · split
    · exact hf _ s h
    · exact k.weaken s h
  · exact k.weaken s h

theorem RowSteps.withRegion (k : RowSteps i A B) {f : RegionId → State → State × Frame} (hf : ∀ r s, A s → B (f r s).1) (p : List Byte)
    (h : A s) (hm : movesSlot i = true := by rfl) : B (Machine.manage (withRegion p f) s) := by
  refine k.manage (fun s h => ?_) h hm
  unfold Machine.withRegion
  split
  · split
    · exact hf _ s h
    · exact k.weaken s h
  · exact k.weaken s h

theorem RowSteps.flags (k : RowSteps i A B) {p : List Byte} {f : Bool → Bool} (hi : ∀ a, flips i p a (f a)) (h : A s)
    (hm : movesSlot i = true := by rfl) : B (Machine.manage (flagCommand p f) s) := by
  refine k.manage (fun s h => ?_) h hm
  unfold flagCommand
  split
  · split
    · exact k.flag _ s _ _ _ (hi _) h
    · exact k.weaken s h
  · exact k.weaken s h

theorem RowSteps.readResult (k : RowSteps i A B) (n : Nat) (h : A s) (hm : movesSlot i = true := by rfl) : B (readResult n s) := by
  have hu := movesLink_of_slot hm
  unfold Machine.readResult
  split
  · exact k.linked h ⟨_, rfl⟩ hu
  · split
    · simp only
      split
      · exact k.slotEnd _ _ hm (k.linked h ⟨_, rfl⟩ hu)
      · exact k.linked h ⟨_, rfl⟩ hu
    · exact k.linked h ⟨_, rfl⟩ hu
    · exact k.linked h ⟨_, rfl⟩ hu

theorem RowSteps.resetPart (k : RowSteps i A B) {p : List Byte} (hi : i = .resetPart p) (h : A s) : B (resetPart p s) := by
  have hm : movesSlot i = true := by rw [hi]; rfl
  have hu := movesLink_of_slot hm
  unfold Machine.resetPart
  split
  · exact k.linked h ⟨_, rfl⟩ hu
  · split
    · split
      · exact k.reset p _ hi (k.slot _ _ hm (k.link _ _ hu h))
      · exact k.slotEnd _ _ hm (k.weaken _ (k.slot _ _ hm (k.link _ _ hu h)))
    · exact k.linked h ⟨_, rfl⟩ hu

/-- A row takes `A` to `B` where the row of a command that its byte completes does so. -/
theorem RowSteps.exec_of (k : RowSteps i A B) (hl : ∀ j, completed i s = some j → runCommand j s = .next t → B t) (h : A s)
    (e : exec i s = .next t) : B t := by
  cases i
  case permitCheck d =>
    cases d with
    | writeByte b =>
      rcases acceptOr_cases e with e | ⟨j, hj, e⟩
      · exact e ▸ k.denied h (takeDirection_cases s _) (.inr ⟨_, rfl⟩)
      · exact hl j hj e
    | readAddress a => injection e with e; exact e ▸ k.denied h (takeDirection_cases s _) (.inr ⟨_, rfl⟩)
  case writeBlockLengthRefuse b =>
    rcases acceptOr_cases e with e | ⟨j, hj, e⟩
    · exact e ▸ k.linked h (takeLength_link s b)
    · exact hl j hj e
  all_goals (injection e with e; subst e)
  case powerOnReset l => exact k.por l s rfl h
  case extPresentChange v => exact k.ext v s rfl h
  case presenceLineChange x v => exact k.presLine x v s rfl h
  case presenceDebounceExpiry x => exact k.presExpiry x s rfl h
  case latchLineChange x v => exact k.latchLine x v s rfl h
  case latchDebounceExpiry x => exact k.latchExpiry x s rfl h
  case bridgeReadyChange v => exact k.ready v s rfl h
  case bridgeExpiry => exact k.expire s rfl h
  case joltHoldExpiry x => exact k.joltOut x s rfl h
  case contextWindowExpiry x => exact k.context x s rfl h
  case uptimeTick => exact k.uptime s rfl h
  case ageTick => exact k.age s rfl h
  case pollPeriodExpiry => exact k.pollPeriod s rfl h
  case pollStart x => exact k.pollStart x s rfl h
  case pollRetry x => exact k.pollRetry x s rfl h
  case probeReadStart x => exact k.probeRead x s rfl h
  case slotTransactionStart x => exact k.slotStart x s rfl h
  case packTransactionEnd x r => exact k.complete x r s rfl h
  case linkTimeout x => exact k.timeout x s rfl h
  case linkRecoverBegin x => exact k.recoverBegin x s rfl h
  case linkRecoverEnd x o => exact k.recoverEnd x o s rfl h
  case lightSample b0 b1 b2 => exact k.light b0 b1 b2 _ _ _ rfl (k.lane s rfl h)
  case motionSample => exact k.sample _ _ _ _ _ _ _ _ rfl (k.lane s rfl h)
  case frameDiscard => exact k.weaken _ (k.lane s rfl h)
  case laneGapDiscard => exact k.weaken _ (k.lane s rfl h)
  case stallTimeout => exact k.stall s rfl h
  case windowHoldExpiry => exact k.hold s rfl h
  case tableCheckEnd r => exact k.check r s rfl h
  case platformAddress a r => exact k.linked h (takeAddress_link s a r)
  case codeByteCheck b => exact k.denied h (takeCodeByte_cases s b) (.inl ⟨b, rfl⟩)
  case transactionAbandon => exact k.linked h (abandonUp_link s)
  case readValue n => exact k.forward _ _ _ s ⟨n, rfl⟩ h
  case writeValue a b => exact k.forward _ _ _ s ⟨a, b, rfl⟩ h
  case readBlock n => exact k.forward _ _ _ s ⟨n, rfl⟩ h
  case writeBlock bytes =>
    unfold forwardBlock
    split
    · exact k.forward _ _ _ s ⟨bytes, rfl⟩ h
    · exact k.linked h (outOfPlace_link s)
  case resultRead n => exact k.readResult n h
  case invalidCommand => exact k.manage k.weaken h
  case identify p => exact k.noParams (fun s => k.seen p s rfl) p h
  case senseAttention p =>
    refine k.noParams (fun s h => ?_) p h
    unfold senseHead
    split
    · exact k.weaken s h
    · next hq => exact k.sense p s _ _ rfl hq h
  case flagTest p => exact k.manage (fun s h => by rw [flagTest_state]; exact k.weaken s h) h
  case flagSet p => exact k.flags (fun _ => .inl ⟨rfl, rfl⟩) h
  case flagClear p => exact k.flags (fun _ => .inr (.inl ⟨rfl, rfl⟩)) h
  case flagToggle p => exact k.flags (fun _ => .inr (.inr ⟨rfl, rfl⟩)) h
  case resetPart p => exact k.resetPart rfl h
  case powerQuery p => exact k.noParams k.weaken p h
  case bayQuery p => exact k.withBay (fun _ => k.weaken) p h
  case bayRelease p => exact k.withBay (fun x s => k.release p x s rfl) p h
  case bayReturn p => exact k.withBay (fun x s => k.giveBack p x s rfl) p h
  case bayProbe p => exact k.withBay (fun x s => k.probe p x s rfl) p h
  case linkRecover p => exact k.withBay (fun x s => k.recover p x s rfl) p h
  case cacheFlush p => exact k.manage (fun s => k.flush p s rfl) h
  case cacheInspect p =>
    refine k.manage (fun s h => ?_) h
    unfold Machine.cacheInspect
    split
    · split
      · split <;> exact k.weaken s h
      · exact k.weaken s h
    · exact k.weaken s h
  case budgetQuery p => exact k.noParams k.weaken p h
  case brightnessSet p =>
    refine k.manage (fun s h => ?_) h
    unfold Machine.brightnessSet
    split
    · split
      · exact k.bright _ s _ _ _ rfl h
      · exact k.weaken s h
    · exact k.weaken s h
  case brightnessQuery p => exact k.noParams (fun s => k.sticky p s rfl) p h
  case dropStateQuery p => exact k.noParams k.weaken p h
  case dropLogRead p =>
    refine k.manage (fun s h => ?_) h
    unfold Machine.dropLogRead
    split
    · split
      · exact k.weaken s h
      · split <;> exact k.weaken s h
    · exact k.weaken s h
  case dropLogClear p => exact k.noParams (fun s => k.logClear p s rfl) p h
  case tableClear p => exact k.withRegion (fun r s => k.clear p r s rfl) p h
  case tableWrite p =>
    refine k.manage (fun s h => ?_) h
    unfold Machine.tableWriteParams
    split
    · split
      · split
        · exact k.write _ _ _ _ s rfl h
        · exact k.weaken s h
      · exact k.weaken s h
    · exact k.weaken s h
  case tableCheck p => exact k.withRegion (fun r s => k.begin p r s rfl) p h
  case tableRead p =>
    refine k.manage (fun s h => ?_) h
    unfold Machine.tableReadParams
    split
    · split
      · unfold Machine.tableRead; split <;> exact k.weaken s h
      · exact k.weaken s h
    · exact k.weaken s h
  case tableLock p => exact k.withRegion (fun r s => k.lock p r s rfl) p h

/-- A row whose byte completes no command. -/
theorem RowSteps.exec (k : RowSteps i A B) (hc : completed i s = none) (h : A s) (e : exec i s = .next t) : B t :=
  k.exec_of (fun j hj _ => by rw [hc] at hj; cases hj) h e

end RowStepsExec

/-- What each row takes from `A` to `B`, the row of a completed command takes too. -/
theorem exec_steps {A B : State → Prop} (k : ∀ i, RowSteps i A B) (i : Instr) (s t : State) (h : A s) (e : exec i s = .next t) : B t := by
  obtain ⟨j, hc, he, -⟩ := exec_as_row i s
  exact (k j).exec hc h (he ▸ e)

end Sys2Proof.Machine
end

