-- ==== Sys2Proof/Proofs/FreshLines.lean ====
section
/-! PROOFS. Every step keeps the law of the Reading Cache (R85): one valid line for a bay and code, change by change, and no FRESH line of a bay
outside STANDBY, ONLINE and RELEASING, row by row. -/

namespace Sys2Proof.Machine

/-! ### One valid line for a bay and code -/

theorem cacheLaw_rows (i : Instr) (hl : ∀ s t j, completed i s = some j → runCommand j s = .next t → cacheLaw s.cache → cacheLaw t.cache) :
    RowKeeps i (fun s => cacheLaw s.cache) where
  acts _ _ a h := a.cache h
  lines _ _ _ a h := a.moves.cache h
  slot _ _ h := h
  por _ _ _ _ := cacheLaw_reset
  ext _ _ _ h := h
  ready _ _ _ h := h
  uptime _ _ h := h
  poll _ _ h := h
  lane _ h := h
  light _ _ _ _ _ _ _ h := h
  sample _ _ _ _ _ _ p s _ h := ((Keeps.refl s).takeSample p).cache h
  stall s _ h := (Keeps.refl s).stallOut.cache h
  hold s _ h := (Keeps.refl s).holdOut.cache h
  check r s _ h := endCheck_keeps (P := fun s => cacheLaw s.cache) (fun _ _ a => a.cache) (fun _ _ _ h => h) r h
  seen _ _ _ h := h
  sense _ _ _ _ _ _ h := h
  flag _ _ _ _ _ h := h
  reset _ s _ _ := by rw [softReset_eq]; exact resetTail_cache _ (by rw [resetBase_cache]; exact cacheLaw_reset)
  bright _ _ _ _ _ _ h := by unfold setBrightness; rw [recompute_cache]; exact h
  sticky _ _ _ h := h
  logClear _ _ _ h := h
  clear _ r _ _ h := tableClear_keeps (P := fun s => cacheLaw s.cache) (fun _ _ a => a.cache) (fun _ _ _ h => h) r h
  write _ r off ws _ _ h := tableWrite_keeps (P := fun s => cacheLaw s.cache) (fun _ _ _ h => h) r off ws h
  begin _ r _ _ h := tableCheck_keeps (P := fun s => cacheLaw s.cache) (fun _ _ _ h => h) r h
  lock _ r _ _ h := tableLock_keeps (P := fun s => cacheLaw s.cache) (fun _ _ _ h => h) r h
  last := hl

/-! ### No FRESH line of a bay out of service -/

section FreshRows
variable {s : State}

theorem FreshKept.takes {t : State} (h : FreshKept s) (hb : t.bays = s.bays) (hc : t.cache = s.cache) : FreshKept t :=
  h.congr (fun _ => by rw [hb]) hc

theorem FreshKept.outside {t : State} (h : FreshKept s) (a : SameCore s t) : FreshKept t := h.takes a.bays a.cache

theorem FreshKept.episodes : Episodes FreshKept where
  motion _ _ h := ⟨h.law⟩
  record e r s h := h.outside (writeRecord_outside e r s)
  wait x _ h := h.updBay x _ fun b => (keepsPlace_waitJoltHold b).1
  impact _ h := h.cacheImpact
  close _ h := h.windowCloseEvent

theorem FreshKept.takeLight (h : FreshKept s) (l : Nat) (o : Bool) : FreshKept (takeLight l o s) := ⟨h.law⟩

theorem FreshKept.pollPeriodOut (h : FreshKept s) : FreshKept (pollPeriodOut s) :=
  FreshKept.makeDue (FreshKept.makeDue (s := { s with pollTimer := pollPeriod s }) ⟨h.law⟩ .A) .B

theorem FreshKept.region (h : FreshKept s) (r : RegionId) (f : Region → Region) : FreshKept (updRegion r f s) := ⟨h.law⟩

theorem FreshKept.faultAtLimit (h : FreshKept s) (x : BayId) : FreshKept (faultAtLimit x s) := FreshKept.settling (h.faultIfReached x)

theorem FreshKept.handOverConfig (h : FreshKept s) : FreshKept (handOverConfig s) :=
  ((((FreshKept.recompute (s := raiseHostMax s) ⟨h.law⟩).updRelay .A _).updRelay .B _).faultAtLimit .A).faultAtLimit .B

theorem FreshKept.newInstance (h : FreshKept s) : FreshKept (newInstance s) :=
  FreshKept.updRelay (FreshKept.updRelay (s := { s with mapInst := s.mapInst + 1 }) ⟨h.law⟩ .A _) .B _

theorem FreshKept.enterService (h : FreshKept s) (r : RegionId) : FreshKept (enterService r s) := by
  cases r
  · exact h.handOverConfig
  · exact h.newInstance
  · exact h
  · exact h

theorem FreshKept.leaveService (h : FreshKept s) (r : RegionId) : FreshKept (leaveService r s) := by
  cases r
  · exact h.handOverConfig
  · exact h.newInstance.cacheDropAll
  · exact h
  · exact h

theorem FreshKept.endCheck (h : FreshKept s) (r : RegionId) : FreshKept (endCheck r s) := by
  rcases endCheck_cases r s with e | ⟨-, d, e⟩ | ⟨-, -, e⟩
  · exact e.symm ▸ h
  · exact e ▸ (h.region r _).post _ _
  · exact e ▸ ((h.region r _).enterService r).post _ _

theorem FreshKept.tableClear (h : FreshKept s) (r : RegionId) : FreshKept (tableClear r s).1 := by
  rcases tableClear_cases r s with e | ⟨-, -, e⟩ | ⟨-, -, e⟩
  · exact e.symm ▸ h
  · exact e ▸ h.region r _
  · exact e ▸ (h.region r _).leaveService r

theorem FreshKept.restartProbe (h : FreshKept s) (x : BayId) : FreshKept (restartProbe x s) := by
  unfold Machine.restartProbe
  split
  · next hx => exact FreshKept.settling (h.startProbe x)
  · exact h

theorem FreshKept.flagsReset (h : FreshKept s) : FreshKept (flagsReset s) := by
  have h1 : FreshKept { s with flags := flagsClear } := ⟨h.law⟩
  have h2 : FreshKept (if s.flags.holdSwapA then Machine.reevaluate .A { s with flags := flagsClear } else { s with flags := flagsClear }) := by
    split
    · exact h1.reevaluate BayId.A
    · exact h1
  unfold Machine.flagsReset
  simp only
  split
  · exact h2.reevaluate BayId.B
  · exact h2

/-- R104: no line of a cache just reset is valid. -/
theorem freshKept_resetBase (s : State) : FreshKept (resetBase s) := by
  refine ⟨(freshLaw_iff _).1 fun x _ cs hcs => ?_⟩
  rw [resetBase_cache] at hcs
  exact List.eq_of_mem_replicate hcs ▸ noFreshSet_reset x

theorem freshKept_softReset (s : State) : FreshKept (softReset s) := by
  obtain ⟨n, p, e⟩ := resetTail_form (resetBase s)
  rw [softReset_eq, e]
  have restarted := ((freshKept_resetBase s).restartProbe .A).restartProbe .B
  exact ⟨(FreshKept.episodes.windowReset restarted.flagsReset).law⟩

theorem FreshKept.setBrightness (h : FreshKept s) (m : PipeMode) (l n : Nat) : FreshKept (setBrightness m l n s) :=
  FreshKept.recompute ⟨h.law⟩

end FreshRows

theorem freshKept_rows (i : Instr) : RowSteps i FreshKept FreshKept where
  weaken _ h := h
  link _ u _ h := h.upstream u
  slot _ _ _ h := ⟨h.law⟩
  slotEnd _ _ _ h := ⟨h.law⟩
  lane _ _ h := ⟨h.law⟩
  deny x c _ _ h := h.deny x c
  por _ _ _ _ := ⟨(freshLaw_iff _).1 (freshLaw_powerOn _ _)⟩
  ext v s _ h := by
    refine FreshKept.settling ?_
    unfold extLine
    split
    · exact h
    · cases v
      · have h1 := FreshKept.recompute (FreshKept.post (s := setExt false s) ⟨h.law⟩ (.presence .ext) dDeparted)
        simp only [Bool.false_eq_true, if_false]
        unfold extDeparts
        simp only
        split
        · exact h1.answerNoSource
        · exact h1
      · exact (FreshKept.recompute (FreshKept.post (s := setExt true s) ⟨h.law⟩ (.presence .ext) dArrived)).releaseHeld.endBridge
  presLine x v _ _ h := FreshKept.settling (h.presenceLine x v)
  presExpiry x _ _ h := FreshKept.settling (h.presenceExpiry x)
  latchLine x v _ _ h := h.latchLine x v
  latchExpiry x _ _ h := FreshKept.settling (h.latchExpiry x)
  ready _ _ _ h := h.setPower _
  expire _ _ h := h.expireBridge
  joltOut x _ _ h := FreshKept.settling (h.joltHoldOut x)
  context x _ _ h := h.contextOut x
  uptime _ _ h := ⟨h.law⟩
  age _ _ h := h.age
  pollPeriod _ _ h := h.pollPeriodOut
  pollStart x _ _ h := h.startPoll x
  pollRetry x _ _ h := h.retryPoll x
  probeRead x _ _ h := h.startProbeRead x
  slotStart x _ _ h := h.startSlot x
  complete x r _ _ h := FreshKept.settling (h.completeTx x r)
  timeout x _ _ h := FreshKept.settling (h.timeoutTx x)
  recoverBegin x _ _ h := h.beginRecover x
  recoverEnd x o _ _ h := FreshKept.settling (h.endRecover x o)
  light _ _ _ l o _ _ h := h.takeLight l o
  sample _ _ _ _ _ _ p _ _ h := FreshKept.episodes.takeSample p h
  stall _ _ h := FreshKept.episodes.stallOut h
  hold _ _ h := FreshKept.episodes.holdOut h
  check r _ _ h := h.endCheck r
  forward k p n _ _ h := h.reachForwarding k p n
  seen _ _ _ h := ⟨h.law⟩
  sense _ _ _ _ _ _ h := ⟨h.law⟩
  flag _ s n a b _ h := FreshKept.handFlag (s := { s with flags := flagPut s.flags n b }) ⟨h.law⟩ n a b
  reset _ s _ _ := freshKept_softReset s
  release _ x _ _ h := h.bayRelease x
  giveBack _ x _ _ h := h.bayReturn x
  probe _ x _ _ h := h.bayProbe x
  recover _ x _ _ h := h.linkRecover x
  flush p _ _ h := h.cacheFlush p
  bright _ _ m l n _ h := h.setBrightness m l n
  sticky _ _ _ h := ⟨h.law⟩
  logClear _ _ _ h := ⟨h.law⟩
  clear _ r _ _ h := h.tableClear r
  write _ r off ws _ _ h := tableWrite_keeps (fun r f _ h => h.region r f) r off ws h
  begin _ r _ _ h := tableCheck_keeps (fun r f _ h => h.region r f) r h
  lock _ r _ _ h := tableLock_keeps (fun r f _ h => h.region r f) r h

theorem get_tickTimers (x : BayId) (s : State) : (tickTimers s).bays.get x = tickBay (s.bays.get x) := by cases x <;> rfl

/-- Settles O6: the two halves of the law are kept each by itself. -/
theorem everyStepKeepsTheCacheLaw : Obligations.EveryStepKeepsTheCacheLaw := by
  intro s t hc hf e
  constructor
  · exact step_keeps (P := fun s => cacheLaw s.cache) (fun _ _ h => h) (fun _ h => h) (exec_keeps cacheLaw_rows) hc e
  · refine (freshLaw_iff t).2 (step_keeps (P := FreshKept) (fun _ _ h => ⟨h.law⟩) (fun s h => ?_) (exec_steps freshKept_rows)
      ⟨(freshLaw_iff s).1 hf⟩ e).law
    exact h.congr (fun x => by rw [get_tickTimers]; rfl) rfl

end Sys2Proof.Machine
end

