-- ==== Sys2Proof/Proofs/RowOps.lean ====
section
/-! PROOFS. The rows of the machine made of the walks over its operations: a property `A` that calm changes keep, a property `P` that every operation
of the bays keeps (`Losses`), and the few changes of a row that take `A` to `P`. -/

namespace Sys2Proof.Machine

/-! ### Calm changes -/

/-- `t` has the power path, the bays, the relays and the tables of `s`. -/
structure SameUnits (s t : State) : Prop where
  pp : t.pp = s.pp
  bays : t.bays = s.bays
  relays : t.relays = s.relays
  tables : t.tables = s.tables

theorem SameUnits.refl (s : State) : SameUnits s s := ⟨rfl, rfl, rfl, rfl⟩

theorem SameUnits.recompute (s : State) : SameUnits s (recompute s) := by rw [recompute_eq]; exact ⟨rfl, rfl, rfl, rfl⟩

/-- The relay keeps its snapshot and starts no probe. -/
def calmRelay (r r' : Relay) : Prop := r'.snap = r.snap ∧ (r'.probe.isSome = true → r.probe.isSome = true)

theorem calmRelay_of_eq {r r' : Relay} (hs : r'.snap = r.snap) (hp : r'.probe = r.probe) : calmRelay r r' := ⟨hs, by rw [hp]; exact id⟩

theorem calmRelay_of_none {r r' : Relay} (hs : r'.snap = r.snap) (hp : r'.probe = none) : calmRelay r r' := ⟨hs, by rw [hp]; exact fun h => by cases h⟩

/-- What a property has to survive so that every row without a move of a bay keeps it. -/
structure Calm (Q : State → Prop) : Prop where
  units : ∀ s t, SameUnits s t → Q s → Q t
  bay : ∀ x f s, keepsPlace f → Q s → Q (updBay x f s)
  relay : ∀ x f s, calmRelay (s.relays.get x) (f (s.relays.get x)) → Q s → Q (updRelay x f s)

/-! #### Transactions and recoveries on the pack links -/

/-- What a property has to survive to be kept by the rows of the pack links that hand no outcome on; where `L` is given, the upstream link may change. -/
structure Links (L : Prop) (Q : State → Prop) : Prop where
  link : L → ∀ s u, Q s → Q { s with upstream := u }
  timer : ∀ s n, Q s → Q { s with pollTimer := n }
  relay : ∀ x f s, calmRelay (s.relays.get x) (f (s.relays.get x)) → (f (s.relays.get x)).failCount = (s.relays.get x).failCount → Q s →
    Q (updRelay x f s)

theorem Calm.links {Q : State → Prop} (k : Calm Q) : Links True Q where
  link _ s _ h := k.units s _ ⟨rfl, rfl, rfl, rfl⟩ h
  timer s _ h := k.units s _ ⟨rfl, rfl, rfl, rfl⟩ h
  relay x f s hf _ h := k.relay x f s hf h

section LinksWalk
variable {L : Prop} {Q : State → Prop} {s : State}

theorem Links.same (k : Links L Q) (x : BayId) (f : Relay → Relay)
    (hf : ∀ r, (f r).snap = r.snap ∧ (f r).probe = r.probe ∧ (f r).failCount = r.failCount) (h : Q s) : Q (updRelay x f s) :=
  k.relay x f s (calmRelay_of_eq (hf _).1 (hf _).2.1) (hf _).2.2 h

theorem Links.endLost (k : Links L Q) (x : BayId) (p : Purpose) (hp : p = .platform → L) (h : Q s) : Q (endLost x p s) := by
  cases p
  · exact k.link (hp rfl) _ _ h
  · exact k.same x _ (fun _ => ⟨rfl, rfl, rfl⟩) h
  · exact k.relay x _ s (calmRelay_of_none rfl rfl) rfl h
  · exact h

theorem Links.startTx (k : Links L Q) (x : BayId) (q : Request) (p : Purpose) (hp : p = .platform → L) (h : Q s) : Q (startTx x q p s) := by
  unfold Machine.startTx
  split
  · exact k.same x _ (fun _ => ⟨rfl, rfl, rfl⟩) h
  · exact k.endLost x p hp h

theorem Links.makeDue (k : Links L Q) (x : BayId) (h : Q s) : Q (makeDue x s) := by
  unfold Machine.makeDue
  split
  · exact k.same x _ (fun _ => ⟨rfl, rfl, rfl⟩) h
  · exact h

theorem Links.pollPeriodOut (k : Links L Q) (h : Q s) : Q (pollPeriodOut s) := k.makeDue .B (k.makeDue .A (k.timer s _ h))

theorem Links.startPoll (k : Links L Q) (x : BayId) (h : Q s) : Q (startPoll x s) := by
  unfold Machine.startPoll
  split
  · split
    · exact k.startTx x _ .poll nofun (k.same x _ (fun _ => ⟨rfl, rfl, rfl⟩) h)
    · exact h
  · exact h

theorem Links.retryPoll (k : Links L Q) (x : BayId) (h : Q s) : Q (retryPoll x s) := by
  unfold Machine.retryPoll
  split
  · split
    · exact h
    · split
      · exact k.same x _ (fun _ => ⟨rfl, rfl, rfl⟩) h
      · split
        · exact k.startTx x _ .poll nofun (k.same x _ (fun _ => ⟨rfl, rfl, rfl⟩) h)
        · exact h
  · exact h

theorem Links.startProbeRead (k : Links L Q) (x : BayId) (h : Q s) : Q (startProbeRead x s) := by
  unfold Machine.startProbeRead
  split
  · next hp =>
    split
    · split
      · exact k.startTx x _ .probe nofun (k.relay x _ s ⟨rfl, fun _ => by rw [hp]; rfl⟩ rfl h)
      · exact h
    · exact h
  · exact h

theorem Links.startSlot (k : Links L Q) (hL : L) (x : BayId) (h : Q s) : Q (startSlot x s) := by
  unfold Machine.startSlot
  have h1 := k.same x (fun r => { r with slot := none }) (fun _ => ⟨rfl, rfl, rfl⟩) h
  split
  · split
    · split
      · exact k.startTx x _ .platform (fun _ => hL) h1
      · exact k.link hL _ _ h1
    · exact h
  · exact h

theorem Links.beginRecover (k : Links L Q) (x : BayId) (h : Q s) : Q (beginRecover x s) := by
  unfold Machine.beginRecover
  split
  · exact k.same x _ (fun _ => ⟨rfl, rfl, rfl⟩) h
  · exact h

theorem Links.linkRecover (k : Links L Q) (x : BayId) (h : Q s) : Q (linkRecover x s).1 := by
  have taken : Q (if (s.relays.get x).recover = .notRunning then (updRelay x acceptRecover s, bareFrame .accepted) else (s, bareFrame .busy)).1 := by
    split
    · exact k.same x _ (fun _ => ⟨rfl, rfl, rfl⟩) h
    · exact h
  unfold Machine.linkRecover
  cases (s.bays.get x).state
  all_goals first | exact taken | exact h

/-- R49, R53: a transaction at its forwarding point is forwarded, or its READ_VALUE is served by the cache. -/
theorem Links.reachForwarding (k : Links L Q) (hL : L) (t : TxKind) (p : List Byte) (n : Nat)
    (hc : t = .readValue → ∀ i f s, Q s → Q (updSet i f s)) (h : Q s) : Q (reachForwarding t p n s) := by
  have outOfPlace : Q (outOfPlace s) := k.link hL _ _ h
  have forward : ∀ tx q, Q (forward tx q n s) := fun tx q => by
    unfold Machine.forward
    simp only
    split
    · exact k.startTx _ _ .platform (fun _ => hL) (k.link hL _ _ h)
    · exact k.same _ _ (fun _ => ⟨rfl, rfl, rfl⟩) (k.link hL _ _ h)
  unfold Machine.reachForwarding
  split
  · split
    · split
      · unfold forwardingPoint
        split
        · split
          · next hread =>
            split
            · exact k.link hL _ _ (hc hread.1 _ _ _ h)
            · exact forward _ _
          · exact forward _ _
        · exact k.link hL _ _ h
      · exact outOfPlace
    · exact outOfPlace
  · exact outOfPlace

end LinksWalk

section CalmWalk
variable {Q : State → Prop} {s : State}

theorem Calm.recompute (k : Calm Q) (h : Q s) : Q (recompute s) := k.units _ _ (SameUnits.recompute s) h

theorem Calm.post (k : Calm Q) (a : AttnKey) (d : Detail) (h : Q s) : Q (post a d s) := k.units s _ ⟨rfl, rfl, rfl, rfl⟩ h

theorem Calm.upstream (k : Calm Q) (u : Upstream) (h : Q s) : Q { s with upstream := u } := k.units s _ ⟨rfl, rfl, rfl, rfl⟩ h

theorem Calm.same (k : Calm Q) (x : BayId) (f : Relay → Relay) (hf : ∀ r, (f r).snap = r.snap ∧ (f r).probe = r.probe) (h : Q s) :
    Q (updRelay x f s) := k.relay x f s (calmRelay_of_eq (hf _).1 (hf _).2) h

theorem Calm.loseLink (k : Calm Q) (x : BayId) (h : Q s) : Q (loseLink x s) := by
  unfold Machine.loseLink
  split
  · exact h
  · next tx _ =>
    have h1 := k.links.endLost x tx.purpose (fun _ => trivial) (k.same x (fun r => { r with link := none }) (fun _ => ⟨rfl, rfl⟩) h)
    unfold refuseSlot
    split
    · exact k.upstream _ (k.same x _ (fun _ => ⟨rfl, rfl⟩) h1)
    · exact h1

theorem Calm.failRecover (k : Calm Q) (x : BayId) (h : Q s) : Q (failRecover x s) := by
  unfold Machine.failRecover
  split
  · exact h
  · exact k.post _ _ (k.same x _ (fun _ => ⟨rfl, rfl⟩) h)

theorem Calm.cacheFill (k : Calm Q) (x : BayId) (c : Code) (g : Governing) (v : Half) (h : Q s) : Q (cacheFill x c g v s) := by
  unfold Machine.cacheFill
  split
  · exact k.units s _ ⟨rfl, rfl, rfl, rfl⟩ h
  · exact h

theorem Calm.cacheWrite (k : Calm Q) (x : BayId) (c : Code) (g : Governing) (v : Half) (h : Q s) : Q (cacheWrite x c g v s) := by
  unfold Machine.cacheWrite
  split
  · split
    · exact h
    · exact k.units s _ ⟨rfl, rfl, rfl, rfl⟩ h
  · exact h

theorem Calm.cacheFailedWrite (k : Calm Q) (x : BayId) (c : Code) (h : Q s) : Q (cacheFailedWrite x c s) := by
  unfold Machine.cacheFailedWrite
  split
  · exact h
  · exact k.units s _ ⟨rfl, rfl, rfl, rfl⟩ h

theorem Calm.answerMaster (k : Calm Q) (r : TxResult) (h : Q s) : Q (answerMaster r s) := by
  unfold Machine.answerMaster
  split
  · split
    · cases r <;> exact k.upstream _ h
    · exact h
  · exact h

theorem Calm.cacheFlush (k : Calm Q) (p : List Byte) (h : Q s) : Q (cacheFlush p s).1 := by
  unfold Machine.cacheFlush
  split
  · split
    · exact k.units s _ ⟨rfl, rfl, rfl, rfl⟩ h
    · exact k.units s _ ⟨rfl, rfl, rfl, rfl⟩ h
    · exact k.units s _ ⟨rfl, rfl, rfl, rfl⟩ h
    · exact h
  · exact h

theorem Calm.newInstance (k : Calm Q) (h : Q s) : Q (newInstance s) :=
  k.same .B _ (fun _ => ⟨rfl, rfl⟩) (k.same .A _ (fun _ => ⟨rfl, rfl⟩) (k.units s { s with mapInst := s.mapInst + 1 } ⟨rfl, rfl, rfl, rfl⟩ h))

/-- R166: CONFIG's hand-over up to the counts. -/
theorem Calm.clampCounts (k : Calm Q) (h : Q s) : Q (clampCount .B (clampCount .A (Machine.recompute (raiseHostMax s)))) :=
  k.same .B _ (fun _ => ⟨rfl, rfl⟩) (k.same .A _ (fun _ => ⟨rfl, rfl⟩)
    (k.recompute (k.units s (raiseHostMax s) ⟨rfl, rfl, rfl, rfl⟩ h)))

end CalmWalk

/-! ### Rows -/

/-- Bay `x`, its presence recorded, loses it: what the relay and the bay do (R17, R30 to R32, R55, R68). -/
def afterLoss (x : BayId) (s : State) : State :=
  fallByState x (failRecover x (loseLink x (recompute (updBay x (fun b => { b with presence := false }) s))))

/-- R34: the bay of a pack that returns from a jolt, in PROBING before its probe starts. -/
def afterReturn (x : BayId) (s : State) : State :=
  setBayState x .probing (recompute (updRelay x (fun r => { r with snap := Snapshot.absent, failCount := 0 })
    (updBay x (setJoltHold .stopped) (presenceRises x s))))

/-- The rows in which a recorded presence of bay `x` may fall. -/
def mayLose (i : Instr) (x : BayId) : Prop := i = .presenceLineChange x false ∨ i = .presenceDebounceExpiry x

/-- What row `i` does beside the walks, so that it takes `A` to `P`; where `W` is given, the walks come with what the part tested. -/
structure RowOps (W : Prop) (i : Instr) (A P : State → Prop) : Prop extends Losses W P where
  before : Calm A
  after : Calm P
  weaken : ∀ s, A s → P s
  tables : ∀ t s, A s → A { s with tables := t }
  power : ∀ p s, p.sw = s.pp.sw → p.held = s.pp.held → p.ext = s.pp.ext → (p.bridge = .idle ↔ s.pp.bridge = .idle) → A s → A { s with pp := p }
  probed : W → ∀ x s, P s → (s.relays.get x).probe.isSome = true → (s.bays.get x).state = .probing
  store : ∀ x t v s, A s → P (updRelay x (fun r => { r with snap := r.snap.put t v }) s)
  por : ∀ l s, i = .powerOnReset l → A s → P (powerOn l s)
  extUp : ∀ s, A s → P (endBridge (releaseHeld (recompute (post (.presence .ext) dArrived (setExt true s)))))
  extDown : ∀ s, i = .extPresentChange false → A s → P (recompute (post (.presence .ext) dDeparted (setExt false s)))
  line : ∀ x v s, ¬ (v = true ∧ (s.bays.get x).state = .empty ∧ (s.bays.get x).presence = false) → A s →
    A (updBay x (fun b => { b with presLine := v }) s)
  seat : ∀ x s, (s.bays.get x).state = .empty → (s.bays.get x).presence = false → A s →
    P (enterSeating x (updBay x (fun b => { b with presLine := true }) s))
  unseat : ∀ x s, (s.bays.get x).state = .seating → (s.bays.get x).presLine = false → (s.bays.get x).presence = false → A s →
    P (setBayState x .empty s)
  lost : ∀ x s, mayLose i x → (s.bays.get x).presLine = false → (s.bays.get x).presence = true → A s → P (afterLoss x s)
  rise : ∀ x s, (s.bays.get x).presence = false → (s.bays.get x).presLine = true → (s.bays.get x).state ≠ .jolt → A s →
    P (presenceRises x s)
  back : ∀ x s, (s.bays.get x).presence = false → (s.bays.get x).state = .jolt → A s → P (afterReturn x s)

section RowOpsWalk
variable {W : Prop} {i : Instr} {A P : State → Prop} {s : State}

/-! #### EXT_PRESENT -/

theorem parallelAllows_of_dark {x : BayId} (h : anyConducts s = false) : parallelAllows x s = true := by
  unfold parallelAllows
  split
  · next hc =>
    have : conductsBay s x.other = true := by unfold conductsBay; rw [hc.1, hc.2]; rfl
    unfold anyConducts at h
    cases x <;> simp_all [BayId.other]
  · rfl

theorem RowOps.ext (k : RowOps W i A P) (v : Bool) (hi : i = .extPresentChange v) (h : A s) : P (settling (extLine v) s) := by
  refine k.settling ?_
  unfold extLine
  split
  · exact k.weaken s h
  · cases v
    · have h1 := k.extDown s hi h
      simp only [Bool.false_eq_true, if_false]
      unfold extDeparts
      simp only
      split
      · next hc => exact k.answerNoSource (fun _ x _ => parallelAllows_of_dark (by simpa using hc.2)) h1
      · exact h1
    · exact k.extUp s h

/-! #### Presence -/

/-- R33: after the recorded presence of bay `x` has fallen, a take-over is the other bay's, and the paralleling rule allows it. -/
theorem parallelAllows_after_loss {x y : BayId} (hy : takeOverBay (afterLoss x s) = some y) : parallelAllows y (afterLoss x s) = true := by
  have gone : ((afterLoss x s).bays.get x).presence = false := by
    have acts := ((((Acts.refl (recompute (updBay x (fun b => { b with presence := false }) s))).loseLink x).failRecover x).fallByState x).levels x
    have hx : (recompute (updBay x (fun b => { b with presence := false }) s)).bays.get x = { s.bays.get x with presence := false } := by
      rw [recompute_bays, updBay_bays, Pair.get_upd_self]
    rw [hx] at acts
    exact congrArg (fun l => l.2.1) acts
  have present := (takeOverBay_spec hy).2
  have other : y = x.other := by
    cases x <;> cases y <;> first | rfl | (rw [gone] at present; cases present)
  exact parallelAllows_of_absent (by rw [other, other_other]; exact gone)

theorem RowOps.presenceFalls (k : RowOps W i A P) (x : BayId) (hi : mayLose i x) (hl : (s.bays.get x).presLine = false)
    (hp : (s.bays.get x).presence = true) (h : A s) : P (presenceFalls x s) := by
  have h1 := k.lost x s hi hl hp h
  unfold Machine.presenceFalls
  simp only
  split
  · exact k.answerNoSource (fun _ _ => parallelAllows_after_loss) h1
  · exact h1

theorem get_loseLink_bays (x : BayId) (s : State) : (failRecover x (loseLink x s)).bays = s.bays := by
  have lost : ∀ p u, (endLost x p u).bays = u.bays := fun p u => by cases p <;> rfl
  have link : (loseLink x s).bays = s.bays := by
    unfold loseLink
    split
    · rfl
    · unfold refuseSlot; split <;> exact lost _ _
  unfold failRecover
  split
  · exact link
  · exact link

theorem RowOps.presenceLine (k : RowOps W i A P) (x : BayId) (v : Bool) (hi : i = .presenceLineChange x v) (h : A s) :
    P (settling (presenceLine x v) s) := by
  refine k.settling ?_
  have get : ∀ v, (updBay x (fun b => { b with presLine := v }) s).bays.get x = { s.bays.get x with presLine := v } :=
    fun v => Pair.get_upd_self _ _ _
  unfold Machine.presenceLine
  split
  · exact k.weaken s h
  · cases v
    · have h1 := k.before.failRecover x (k.before.loseLink x (k.line x false s (fun e => by cases e.1) h))
      have hb : ∀ f, (updBay x f (failRecover x (loseLink x (updBay x (fun b => { b with presLine := false }) s)))).bays.get x
          = f { s.bays.get x with presLine := false } := fun f => by
        rw [updBay_bays, Pair.get_upd_self, get_loseLink_bays, get]
      simp only [Bool.false_eq_true, if_false]
      unfold presenceLineFalls
      simp only
      split
      · next hst =>
        have h2 := k.before.bay x (fun b => { b with presDeb := none }) _ (fun _ => ⟨rfl, rfl, rfl⟩) h1
        rw [get_loseLink_bays, get] at hst
        unfold seatingLineFalls
        split
        · next hp =>
          rw [get_loseLink_bays, get] at hp
          exact k.presenceFalls x (.inl hi) (by rw [stopPresenceDeb, hb]) (by rw [stopPresenceDeb, hb]; exact hp) h2
        · next hp =>
          rw [get_loseLink_bays, get] at hp
          exact k.unseat x _ (by rw [stopPresenceDeb, hb]; exact hst) (by rw [stopPresenceDeb, hb])
            (by rw [stopPresenceDeb, hb]; simpa using hp) h2
      · exact k.weaken _ (k.before.bay x _ _ (fun _ => ⟨rfl, rfl, rfl⟩) h1)
    · simp only [if_true]
      unfold presenceLineRises
      rw [get]
      split
      · next hc => exact k.seat x s hc.1 (by simpa using hc.2) h
      · next hc =>
        exact k.weaken _ (k.before.bay x _ _ (fun _ => ⟨rfl, rfl, rfl⟩) (k.line x true s (fun e => hc ⟨e.2.1, by simp [e.2.2]⟩) h))

theorem get_presenceRises (x : BayId) (s : State) : (presenceRises x s).bays.get x = { s.bays.get x with presence := true } := by
  have hb : (presenceRises x s).bays = (updBay x (fun b => { b with presence := true }) s).bays := by
    have : powerOnly (updBay x (fun b => { b with presence := true }) s) (presenceRises x s) := by
      unfold presenceRises
      simp only
      split
      · exact (powerOnly.refl _).recompute
      · exact ((powerOnly.refl _).recompute).releaseHeld
      · exact (((powerOnly.refl _).recompute).endBridge).releaseHeld
    exact this.bays
  rw [hb, updBay_bays, Pair.get_upd_self]

theorem RowOps.recordRise (k : RowOps W i A P) (x : BayId) (hl : (s.bays.get x).presLine = true) (h : A s) : P (recordRise x s) := by
  unfold Machine.recordRise
  by_cases hp : (s.bays.get x).presence = true
  · simp only [hp, if_true]
    cases hst : (s.bays.get x).state <;> simp only
    case seating => exact k.enterProbing x _ (fun _ => .inr (.inr hp)) (k.weaken s h)
    all_goals exact k.weaken s h
  · have hp' : (s.bays.get x).presence = false := by simpa using hp
    simp only [hp', Bool.false_eq_true, if_false, get_presenceRises]
    by_cases hj : (s.bays.get x).state = .jolt
    · simp only [hj]
      exact k.probeFrom x _ (k.back x s hp' hj h)
    · have h1 := k.rise x s hp' hl hj h
      cases hst : (s.bays.get x).state <;> simp only
      case seating =>
        refine k.enterProbing x _ (fun _ => .inr (.inr ?_)) (k.note _ _ _ h1)
        show ((presenceRises x s).bays.get x).presence = true
        rw [get_presenceRises]
      case jolt => exact absurd hst hj
      all_goals exact h1

theorem RowOps.presenceExpiry (k : RowOps W i A P) (x : BayId) (hi : i = .presenceDebounceExpiry x) (h : A s) :
    P (settling (presenceExpiry x) s) := by
  refine k.settling ?_
  have h1 : A (stopPresenceDeb x s) := k.before.bay x _ s (fun _ => ⟨rfl, rfl, rfl⟩) h
  have get : (stopPresenceDeb x s).bays.get x = { s.bays.get x with presDeb := none } := Pair.get_upd_self _ _ _
  unfold Machine.presenceExpiry
  split
  · exact k.weaken s h
  · simp only
    split
    · next hl => exact k.recordRise x (by rw [get]; exact hl) h1
    · next hl =>
      split
      · next hp => exact k.presenceFalls x (.inr hi) (by rw [get]; simpa using hl) (by rw [get]; exact hp) h1
      · exact k.weaken _ h1

/-! #### Latches -/

theorem RowOps.latchLine (k : RowOps W i A P) (x : BayId) (v : Bool) (h : A s) : P (latchLine x v s) := by
  refine k.weaken _ ?_
  unfold Machine.latchLine
  split
  · exact h
  · exact k.before.bay x _ _ (fun _ => ⟨rfl, rfl, rfl⟩) (k.before.bay x _ s (fun _ => ⟨rfl, rfl, rfl⟩) h)

theorem RowOps.latchExpiry (k : RowOps W i A P) (x : BayId) (h : A s) : P (settling (latchExpiry x) s) := by
  refine k.settling ?_
  have h1 := k.before.bay x (fun b => { b with latchDeb := none }) s (fun _ => ⟨rfl, rfl, rfl⟩) h
  unfold Machine.latchExpiry
  split
  · exact k.weaken s h
  · simp only
    split
    · exact k.weaken _ h1
    · split
      · have h2 := k.weaken _ (k.before.bay x (fun b => { b with latch := true, refuse := false, deferred := false }) _
          (fun _ => ⟨rfl, rfl, rfl⟩) h1)
        unfold latchCloses
        simp only
        split
        · exact k.standbyJoin x h2
        · next hr => exact k.returnBay x (fun _ => hr) h2
        · exact h2
      · have h2 := k.weaken _ (k.before.bay x (fun b => { b with latch := false }) _ (fun _ => ⟨rfl, rfl, rfl⟩) h1)
        unfold latchOpens
        simp only
        split
        · next ho => exact k.evaluateLatch x (fun _ => ho) h2
        · exact h2

/-! #### The bridge, jolt holds and contexts -/

theorem RowOps.expireBridge (k : RowOps W i A P) (h : A s) : P (expireBridge s) := by
  refine k.weaken _ ?_
  unfold Machine.expireBridge
  split
  · next hr =>
    exact k.before.recompute (k.before.post _ _ (k.power { s.pp with
      bridge := .expired, timer := max s.pp.timer (bridgeMax s), pfail := true } s rfl rfl rfl
      ⟨(fun e => by cases e), (fun e => by rw [hr] at e; cases e)⟩ h))
  · exact h

theorem RowOps.joltHoldOut (k : RowOps W i A P) (x : BayId) (h : A s) : P (settling (joltHoldOut x) s) := by
  refine k.settling ?_
  unfold Machine.joltHoldOut
  split
  · next hr =>
    refine k.joltExpire x (fun _ => ?_) (k.weaken s h)
    unfold holdRuns at hr
    simpa using (Bool.and_eq_true_iff.1 hr).1
  · exact k.weaken s h

theorem RowOps.contextOut (k : RowOps W i A P) (x : BayId) (h : A s) : P (contextOut x s) := by
  unfold Machine.contextOut
  split
  · exact k.clearContext x (k.lines _ _ (k.weaken s h))
  · exact k.weaken s h

/-! #### Outcomes -/

theorem RowOps.updateSnapshot (k : RowOps W i A P) (x : BayId) (t : Tag) (v : Half) (h : A s) : P (updateSnapshot x t v s) := by
  have stored : P (storeSnapshot x t v s) := by
    unfold storeSnapshot
    split
    · exact k.after.recompute (k.store x t v s h)
    · exact k.store x t v s h
  unfold Machine.updateSnapshot
  split
  · exact k.standbyJoin .B (k.standbyJoin .A stored)
  · exact stored

theorem RowOps.probeAdvance (k : RowOps W i A P) (x : BayId) (h : P s) : P (probeAdvance x s) := by
  unfold Machine.probeAdvance
  split
  · next p hp =>
    have hx : (s.relays.get x).probe.isSome = true := by rw [hp]; rfl
    split
    · exact k.admitPack x (fun w => k.probed w x s h hx) (k.after.relay x _ s (calmRelay_of_none rfl rfl) h)
    · exact k.after.relay x _ s ⟨rfl, fun _ => hx⟩ h
  · exact h

theorem RowOps.probeFailure (k : RowOps W i A P) (x : BayId) (h : P s) : P (probeFailure x s) := by
  unfold Machine.probeFailure
  split
  · next p hp =>
    split
    · exact k.enterFault x .link (fun w => by rw [k.probed w x s h (by rw [hp]; rfl)]; rfl) h
    · exact h
  · exact h

/-- R58: what the outcome of a platform transaction does beside the answer to the master. -/
theorem handPlatform_cases (x : BayId) (q : Request) (r : TxResult) (s : State) :
    (∃ v, handPlatform x q r s = cacheFill x q.code q.gov v (updateSnapshot x q.gov.tag v s))
      ∨ (∃ v, handPlatform x q r s = cacheWrite x q.code q.gov v s) ∨ handPlatform x q r s = cacheFailedWrite x q.code s
      ∨ handPlatform x q r s = s := by
  obtain ⟨kind, c, payload, gov⟩ := q
  cases kind
  case readValue =>
    cases r
    case doneValue v => exact .inl ⟨v, rfl⟩
    all_goals exact .inr (.inr (.inr rfl))
  case writeValue =>
    cases r
    case doneWrite =>
      rcases payload with _ | ⟨lo, _ | ⟨hi, _ | ⟨a, l⟩⟩⟩
      · exact .inr (.inr (.inr rfl))
      · exact .inr (.inr (.inr rfl))
      · exact .inr (.inl ⟨_, rfl⟩)
      · exact .inr (.inr (.inr rfl))
    case nack => exact .inr (.inr (.inl rfl))
    case timeout => exact .inr (.inr (.inl rfl))
    all_goals exact .inr (.inr (.inr rfl))
  all_goals exact .inr (.inr (.inr (by cases r <;> rfl)))

theorem RowOps.handPlatform (k : RowOps W i A P) (x : BayId) (q : Request) (r : TxResult) (h : A s) : P (handPlatform x q r s) := by
  rcases handPlatform_cases x q r s with ⟨v, e⟩ | ⟨v, e⟩ | e | e
  · exact e ▸ k.after.cacheFill x _ _ _ (k.updateSnapshot x _ _ h)
  · exact e ▸ k.after.cacheWrite x _ _ _ (k.weaken s h)
  · exact e ▸ k.after.cacheFailedWrite x _ (k.weaken s h)
  · exact e.symm ▸ k.weaken s h

theorem RowOps.handPoll (k : RowOps W i A P) (x : BayId) (q : Request) (r : TxResult) (h : A s) : P (handPoll x q r s) := by
  have ended := k.before.same x (fun r => { r with poll := none }) (fun _ => ⟨rfl, rfl⟩) h
  unfold Machine.handPoll
  split
  · exact k.after.cacheFill x _ _ _ (k.updateSnapshot x _ _ ended)
  · split
    · split
      · exact k.weaken s h
      · exact k.weaken _ ended
    · exact k.weaken s h

theorem RowOps.handProbe (k : RowOps W i A P) (x : BayId) (q : Request) (r : TxResult) (h : A s) : P (handProbe x q r s) := by
  unfold Machine.handProbe
  split
  · exact k.probeAdvance x (k.updateSnapshot x _ _ h)
  · exact k.probeFailure x (k.weaken s h)

theorem RowOps.handOn (k : RowOps W i A P) (x : BayId) (tx : PackTx) (r : TxResult) (h : A s) : P (handOn x tx r s) := by
  unfold Machine.handOn
  split
  · exact k.handPlatform x tx.req r (k.before.answerMaster r h)
  · exact k.handPoll x tx.req r h
  · exact k.handProbe x tx.req r h
  · unfold handOrphan
    split
    · exact k.updateSnapshot x _ _ h
    · exact k.weaken s h

theorem RowOps.finishTx (k : RowOps W i A P) (x : BayId) (tx : PackTx) (r : TxResult) (h : A s) : P (finishTx x tx r s) := by
  have h1 : A (countOutcome x r.failed (updRelay x (fun q => { q with link := none }) s)) :=
    k.before.same x _ (fun _ => ⟨rfl, rfl⟩) (k.before.same x _ (fun _ => ⟨rfl, rfl⟩) h)
  unfold Machine.finishTx
  simp only
  split
  · exact k.faultIfReached x (k.handOn x tx r h1)
  · exact k.handOn x tx r h1

theorem RowOps.completeTx (k : RowOps W i A P) (x : BayId) (r : PackReply) (h : A s) : P (settling (completeTx x r) s) := by
  refine k.settling ?_
  unfold Machine.completeTx
  split
  · split
    · exact k.finishTx x _ _ h
    · exact k.weaken s h
  · exact k.weaken s h

theorem RowOps.timeoutTx (k : RowOps W i A P) (x : BayId) (h : A s) : P (settling (timeoutTx x) s) := by
  refine k.settling ?_
  unfold Machine.timeoutTx
  split
  · exact k.finishTx x _ _ h
  · exact k.weaken s h

theorem RowOps.endRecover (k : RowOps W i A P) (x : BayId) (o : Option Nat) (h : A s) : P (settling (endRecover x o) s) := by
  refine k.settling ?_
  have h1 := k.weaken _ (k.before.same x (fun r => { r with recover := .notRunning }) (fun _ => ⟨rfl, rfl⟩) h)
  unfold Machine.endRecover
  split
  · simp only
    split
    · refine k.note _ _ _ ?_
      have h2 := k.after.same x (fun r => { r with failCount := 0 }) (fun _ => ⟨rfl, rfl⟩) h1
      unfold recovered
      simp only
      split
      · next hf => exact k.enterProbing x _ (fun _ => .inr (.inl hf.1)) h2
      · exact h2
    · exact k.note _ _ _ h1
  · exact k.weaken s h

/-! #### Tables and the software reset -/

theorem RowOps.handOverConfig (k : RowOps W i A P) (h : A s) : P (handOverConfig s) :=
  k.faultAtLimit .B (k.faultAtLimit .A (k.weaken _ (k.before.clampCounts h)))

theorem RowOps.enterService (k : RowOps W i A P) (r : RegionId) (h : A s) : P (enterService r s) := by
  cases r
  · exact k.handOverConfig h
  · exact k.weaken _ (k.before.newInstance h)
  · exact k.weaken s h
  · exact k.weaken s h

theorem RowOps.leaveService (k : RowOps W i A P) (r : RegionId) (h : A s) : P (leaveService r s) := by
  cases r
  · exact k.handOverConfig h
  · exact k.lines _ _ (k.weaken _ (k.before.newInstance h))
  · exact k.weaken s h
  · exact k.weaken s h

theorem RowOps.region (k : RowOps W i A P) (r : RegionId) (f : Region → Region) (h : A s) : A (updRegion r f s) := k.tables _ s h

theorem RowOps.endCheck (k : RowOps W i A P) (r : RegionId) (h : A s) : P (endCheck r s) := by
  rcases endCheck_cases r s with e | ⟨-, d, e⟩ | ⟨-, -, e⟩
  · exact e.symm ▸ k.weaken s h
  · exact e ▸ k.note _ _ _ (k.weaken _ (k.region r _ h))
  · exact e ▸ k.note _ _ _ (k.enterService r (k.region r _ h))

theorem RowOps.tableClear (k : RowOps W i A P) (r : RegionId) (h : A s) : P (tableClear r s).1 := by
  rcases tableClear_cases r s with e | ⟨-, -, e⟩ | ⟨-, -, e⟩
  · exact e.symm ▸ k.weaken s h
  · exact e ▸ k.weaken _ (k.region r _ h)
  · exact e ▸ k.leaveService r (k.region r _ h)

theorem Calm.tablesReset {Q : State → Prop} (k : Calm Q) (ht : ∀ t s, Q s → Q { s with tables := t }) (h : Q s) : Q (tablesReset s) := by
  unfold Machine.tablesReset
  simp only
  split
  · exact k.newInstance (ht _ s h)
  · exact ht _ s h

theorem RowOps.resetBase (k : RowOps W i A P) (h : A s) : A (resetBase s) := by
  have emptied : A (emptyAttn s) := k.before.units s _ ⟨rfl, rfl, rfl, rfl⟩ h
  have relays : A (relayReset (emptyAttn s)) :=
    k.before.relay .B _ _ (calmRelay_of_none rfl rfl) (k.before.relay .A _ _ (calmRelay_of_none rfl rfl) emptied)
  have tables := k.before.tablesReset k.tables relays
  have recomputed : A (recompute (pipeReset (cacheReset (tablesReset (relayReset (emptyAttn s)))))) :=
    k.before.recompute (k.before.units (tablesReset (relayReset (emptyAttn s))) _ ⟨rfl, rfl, rfl, rfl⟩ tables)
  exact k.before.units (recompute (pipeReset (cacheReset (tablesReset (relayReset (emptyAttn s)))))) _ ⟨rfl, rfl, rfl, rfl⟩ recomputed

/-! #### Commands on a bay -/

theorem RowOps.bayProbe (k : RowOps W i A P) (x : BayId) (h : A s) : P (bayProbe x s).1 := by
  unfold Machine.bayProbe
  split
  · next hst =>
    split
    · exact k.weaken s h
    · exact k.settling (k.enterProbing x _ (fun _ => hst.elim (fun e => .inr (.inl e)) .inl)
        (k.weaken _ (k.before.same x (fun r => { r with failCount := 0 }) (fun _ => ⟨rfl, rfl⟩) h)))
  · exact k.weaken s h

end RowOpsWalk

theorem RowOps.steps {W : Prop} {i : Instr} {A P : State → Prop} (k : RowOps W i A P) : RowSteps i A P where
  weaken := k.weaken
  link _ u _ h := k.before.upstream u h
  slot s _ _ h := k.before.units s _ ⟨rfl, rfl, rfl, rfl⟩ h
  slotEnd s _ _ h := k.after.units s _ ⟨rfl, rfl, rfl, rfl⟩ h
  lane s _ h := k.before.units s _ ⟨rfl, rfl, rfl, rfl⟩ h
  deny x c s _ h := k.weaken _ (k.before.units s (deny x c s) ⟨rfl, rfl, rfl, rfl⟩ h)
  por := k.por
  ext v _ hi h := k.ext v hi h
  presLine x v _ hi h := k.presenceLine x v hi h
  presExpiry x _ hi h := k.presenceExpiry x hi h
  latchLine x v _ _ h := k.latchLine x v h
  latchExpiry x _ _ h := k.latchExpiry x h
  ready v s _ h := k.weaken _ (k.power _ s rfl rfl rfl Iff.rfl h)
  expire _ _ h := k.expireBridge h
  joltOut x _ _ h := k.joltHoldOut x h
  context x _ _ h := k.contextOut x h
  uptime s _ h := k.weaken _ (k.before.units s _ ⟨rfl, rfl, rfl, rfl⟩ h)
  age s _ h := k.weaken _ (k.before.units s (mapCache Line.older s) ⟨rfl, rfl, rfl, rfl⟩ h)
  pollPeriod _ _ h := k.weaken _ (k.before.links.pollPeriodOut h)
  pollStart x _ _ h := k.weaken _ (k.before.links.startPoll x h)
  pollRetry x _ _ h := k.weaken _ (k.before.links.retryPoll x h)
  probeRead x _ _ h := k.weaken _ (k.before.links.startProbeRead x h)
  slotStart x _ _ h := k.weaken _ (k.before.links.startSlot trivial x h)
  complete x r _ _ h := k.completeTx x r h
  timeout x _ _ h := k.timeoutTx x h
  recoverBegin x _ _ h := k.weaken _ (k.before.links.beginRecover x h)
  recoverEnd x o _ _ h := k.endRecover x o h
  light _ _ _ l o s _ h := k.weaken _ (k.before.units s (takeLight l o s) ⟨rfl, rfl, rfl, rfl⟩ h)
  sample _ _ _ _ _ _ p s _ h := k.episodes.takeSample p (k.weaken s h)
  stall s _ h := k.episodes.stallOut (k.weaken s h)
  hold s _ h := k.episodes.holdOut (k.weaken s h)
  check r _ _ h := k.endCheck r h
  forward t p n _ _ h := k.weaken _ (k.before.links.reachForwarding trivial t p n (fun _ _ _ s h => k.before.units s _ ⟨rfl, rfl, rfl, rfl⟩ h) h)
  seen _ s _ h := k.weaken _ (k.before.units s _ ⟨rfl, rfl, rfl, rfl⟩ h)
  sense _ s _ _ _ _ h := k.weaken _ (k.before.units s _ ⟨rfl, rfl, rfl, rfl⟩ h)
  flag _ s n a b _ h := k.handFlag n a b (fun x f s hf h => k.after.relay x f s (by rw [hf]; exact calmRelay_of_eq rfl rfl) h)
    (k.weaken _ (k.before.units s { s with flags := flagPut s.flags n b } ⟨rfl, rfl, rfl, rfl⟩ h))
  reset _ s _ h := k.resetTail (k.weaken _ (k.resetBase h))
  release _ x s _ h := k.bayRelease x (k.weaken s h)
  giveBack _ x s _ h := k.bayReturn x (k.weaken s h)
  probe _ x _ _ h := k.bayProbe x h
  recover _ x _ _ h := k.weaken _ (k.before.links.linkRecover x h)
  flush p _ _ h := k.weaken _ (k.before.cacheFlush p h)
  bright _ s _ _ _ _ h := k.weaken _ (k.before.recompute (k.before.units s _ ⟨rfl, rfl, rfl, rfl⟩ h))
  sticky _ s _ h := k.weaken _ (k.before.units s _ ⟨rfl, rfl, rfl, rfl⟩ h)
  logClear _ s _ h := k.weaken _ (k.before.units s _ ⟨rfl, rfl, rfl, rfl⟩ h)
  clear _ r _ _ h := k.tableClear r h
  write _ r off ws _ _ h := k.weaken _ (tableWrite_keeps (fun r f _ h => k.region r f h) r off ws h)
  begin _ r _ _ h := k.weaken _ (tableCheck_keeps (fun r f _ h => k.region r f h) r h)
  lock _ r _ _ h := k.weaken _ (tableLock_keeps (fun r f _ h => k.region r f h) r h)

end Sys2Proof.Machine
end

