-- ==== Sys2Proof/Proofs/BayLaw.lean ====
section
/-! PROOFS. Every step keeps the bay law (R20 to R37): what an operation of the power path does to the switch of each bay, a bay that only follows
a change made for the other one, and the law of the bay that is moved. -/

namespace Sys2Proof.Machine

/-! ### What happens to a bay that is not moved -/

/-- What the power path may do to the switch of a bay in state `st` beside its own requests: nothing, release it where the bay is not ONLINE (R6), or
hold it where the bay is in JOLT (R34). -/
def swEases (st : BayState) (sw : Switch) (held : Bool) (sw' : Switch) (held' : Bool) : Prop :=
  (sw' = sw ∧ held' = held) ∨ (st ≠ .online ∧ sw' = .off) ∨ (st = .jolt ∧ held' = true ∧ sw' = sw)

/-- From `s` to `t` bay `y` stays in place: its state, line and presence stay, no probe of it starts, and its switch at most eases. -/
structure Follows (y : BayId) (s t : State) : Prop where
  state : (t.bays.get y).state = (s.bays.get y).state
  presLine : (t.bays.get y).presLine = (s.bays.get y).presLine
  presence : (t.bays.get y).presence = (s.bays.get y).presence
  probe : (t.relays.get y).probe.isSome = true → (s.relays.get y).probe.isSome = true
  switch : swEases (s.bays.get y).state (s.pp.sw.get y) (s.pp.held.get y) (t.pp.sw.get y) (t.pp.held.get y)

section Follows
variable {y x : BayId} {s t u : State}

theorem Follows.of_eq (hb : t.bays.get y = s.bays.get y) (hr : t.relays.get y = s.relays.get y) (hp : t.pp = s.pp) : Follows y s t :=
  ⟨by rw [hb], by rw [hb], by rw [hb], by rw [hr]; exact id, .inl ⟨by rw [hp], by rw [hp]⟩⟩

theorem Follows.refl (y : BayId) (s : State) : Follows y s s := .of_eq rfl rfl rfl

theorem swEases_trans {st : BayState} {a b c : Switch} {p q r : Bool} (h : swEases st a p b q) (k : swEases st b q c r) :
    swEases st a p c r := by
  rcases k with ⟨rfl, rfl⟩ | k | ⟨hj, hr, rfl⟩
  · exact h
  · exact .inr (.inl k)
  · rcases h with ⟨rfl, rfl⟩ | h | ⟨-, -, h⟩
    · exact .inr (.inr ⟨hj, hr, rfl⟩)
    · exact .inr (.inl h)
    · exact .inr (.inr ⟨hj, hr, h⟩)

theorem Follows.trans (h : Follows y s t) (k : Follows y t u) : Follows y s u where
  state := k.state.trans h.state
  presLine := k.presLine.trans h.presLine
  presence := k.presence.trans h.presence
  probe := fun e => h.probe (k.probe e)
  switch := swEases_trans h.switch (h.state ▸ k.switch)

theorem Follows.units (a : SameUnits s t) : Follows y s t := .of_eq (by rw [a.bays]) (by rw [a.relays]) a.pp

theorem Follows.power (h : powerOnly s t) (hs : swEases (s.bays.get y).state (s.pp.sw.get y) (s.pp.held.get y) (t.pp.sw.get y) (t.pp.held.get y)) :
    Follows y s t := ⟨by rw [h.bays], by rw [h.bays], by rw [h.bays], by rw [h.relays]; exact id, hs⟩

theorem sw_eq_on_of_eases (h : Follows y s t) (ht : t.pp.sw.get y = .on) : s.pp.sw.get y = .on := by
  rcases h.switch with ⟨e, -⟩ | ⟨-, e⟩ | ⟨-, -, e⟩
  · exact e ▸ ht
  · rw [e] at ht; cases ht
  · exact e ▸ ht

/-- The bay law of a bay that stays in place. -/
theorem Follows.bayLaw (h : Follows y s t) (l : bayLaw s y) : bayLaw t y := by
  obtain ⟨hempty, hline, hpres, hon, hoff, hstandby, hprobe⟩ := l
  unfold Machine.bayLaw
  rw [h.state, h.presence, h.presLine]
  refine ⟨hempty, hline, hpres, fun e => ?_, fun e => ?_, fun e => ?_, fun e => hprobe (h.probe e)⟩
  · rcases h.switch with ⟨e1, -⟩ | ⟨e1, -⟩ | ⟨e1, -, -⟩
    · rw [e1]; exact hon e
    · exact absurd e e1
    · rw [e] at e1; cases e1
  · rcases h.switch with ⟨e1, -⟩ | ⟨-, e1⟩ | ⟨e1, -, -⟩
    · rw [e1]; exact hoff e
    · exact e1
    · rw [e] at e1; cases e1
  · rcases h.switch with ⟨e1, e2⟩ | ⟨-, e1⟩ | ⟨e1, -, -⟩
    · rw [e1, e2]; exact hstandby e
    · exact .inl e1
    · rw [e] at e1; cases e1

/-- The switch law of a bay that stays in place. -/
theorem Follows.switchLaw (h : Follows y s t) (l : switchLaw s y) : switchLaw t y := by
  obtain ⟨hout, hseat⟩ := l
  unfold Machine.switchLaw
  rw [h.state, h.presence]
  refine ⟨fun e => ?_, fun e => ?_⟩
  · rcases h.switch with ⟨e1, e2⟩ | ⟨-, e1⟩ | ⟨e1, -, -⟩
    · rw [e1, e2]; exact hout e
    · exact .inl e1
    · rw [e1] at e; rcases e with e | e <;> cases e
  · rcases h.switch with ⟨e1, e2⟩ | ⟨-, e1⟩ | ⟨e1, -, -⟩
    · rw [e1, e2]; exact hseat e
    · exact .inl e1
    · rw [e1] at e; cases e

end Follows

/-! ### The switches after each operation -/

section Switches
variable {s : State} {x : BayId} (y : BayId)

theorem follows_releaseHeldOne (x : BayId) (s : State) : Follows y s (releaseHeldOne x s) := by
  refine Follows.power ((powerOnly.refl s).releaseHeldOne x) ?_
  unfold releaseHeldOne
  split
  · next hc =>
    rw [sw_setSwitch, held_setSwitch]
    by_cases hy : y = x
    · subst hy
      rw [Pair.get_upd_self]
      exact .inr (.inl ⟨hc.2.1, rfl⟩)
    · rw [Pair.get_upd_ne _ hy, Pair.get_upd_ne _ hy]
      exact .inl ⟨rfl, rfl⟩
  · exact .inl ⟨rfl, rfl⟩

theorem follows_releaseHeld (s : State) : Follows y s (releaseHeld s) :=
  (follows_releaseHeldOne y .A s).trans (follows_releaseHeldOne y .B _)

theorem follows_endBridge (s : State) : Follows y s (endBridge s) := by
  refine Follows.power ((powerOnly.refl s).endBridge) ?_
  unfold endBridge updPower
  split
  · exact .inl ⟨rfl, rfl⟩
  · rw [recompute_pp]; exact .inl ⟨rfl, rfl⟩

theorem follows_startBridge (why : BridgeReason) (s : State) : Follows y s (startBridge why s) := by
  unfold startBridge
  split
  · refine Follows.trans ?_ (follows_releaseHeld y _)
    refine Follows.power ((((powerOnly.refl s).setPower _).post _ _).recompute) ?_
    rw [recompute_pp]
    exact .inl ⟨rfl, rfl⟩
  · exact Follows.refl y s

/-- R4: the switch of a bay requested ON is ON and not held. -/
theorem switchOn_self (x : BayId) (s : State) : (switchOn x s).pp.sw.get x = .on ∧ (switchOn x s).pp.held.get x = false := by
  have set_on : (setSwitch x .on s).pp.sw.get x = .on ∧ (setSwitch x .on s).pp.held.get x = false := by
    rw [sw_setSwitch, held_setSwitch, Pair.get_upd_self, Pair.get_upd_self]; exact ⟨rfl, rfl⟩
  have ended : (endBridge (setSwitch x .on s)).pp.sw.get x = .on ∧ (endBridge (setSwitch x .on s)).pp.held.get x = false := by
    unfold endBridge updPower
    split
    · exact set_on
    · rw [recompute_pp]; exact set_on
  have kept : ∀ z u, u.pp.sw.get x = .on ∧ u.pp.held.get x = false →
      (releaseHeldOne z u).pp.sw.get x = .on ∧ (releaseHeldOne z u).pp.held.get x = false := fun z u hu => by
    unfold releaseHeldOne
    split
    · next hc =>
      have hz : x ≠ z := fun e => by rw [← e, hu.2] at hc; cases hc.1
      rw [sw_setSwitch, held_setSwitch, Pair.get_upd_ne _ hz, Pair.get_upd_ne _ hz]
      exact hu
    · exact hu
  unfold switchOn
  split
  · next h =>
    refine ⟨h, ?_⟩
    exact Pair.get_upd_self _ _ _
  · split
    · exact kept .B _ (kept .A _ ended)
    · exact set_on

theorem follows_switchOn_other (x : BayId) (s : State) : Follows x.other s (switchOn x s) := by
  have set_on : Follows x.other s (setSwitch x .on s) := by
    refine Follows.power ((powerOnly.refl s).setSwitch x .on) ?_
    rw [sw_setSwitch, held_setSwitch, Pair.get_upd_other, Pair.get_upd_other]
    exact .inl ⟨rfl, rfl⟩
  unfold switchOn
  split
  · exact Follows.power ((powerOnly.refl s).setHeld x false) (.inl ⟨rfl, Pair.get_upd_other _ _ _⟩)
  · split
    · exact set_on.trans ((follows_endBridge _ _).trans (follows_releaseHeld _ _))
    · exact set_on

/-- R5: after a turn-off request the switch is OFF, or held as it was while no other source conducts. -/
theorem switchOff_self (x : BayId) (s : State) :
    (switchOff x s).pp.sw.get x = .off
      ∨ ((switchOff x s).pp.held.get x = true ∧ (switchOff x s).pp.sw.get x = s.pp.sw.get x ∧ otherConducts s x = false) := by
  unfold switchOff
  split
  · next h => exact .inl h
  · split
    · exact .inl (by rw [sw_setSwitch, Pair.get_upd_self])
    · next hc => exact .inr ⟨Pair.get_upd_self _ _ _, rfl, by simpa using hc⟩

theorem switchOff_self_off_or_held (x : BayId) (s : State) :
    (switchOff x s).pp.sw.get x = .off ∨ (switchOff x s).pp.held.get x = true :=
  (switchOff_self x s).imp_right fun h => h.1

theorem follows_switchOff_other (x : BayId) (s : State) : Follows x.other s (switchOff x s) := by
  refine Follows.power ((powerOnly.refl s).switchOff x) (.inl ?_)
  unfold switchOff
  split
  · exact ⟨rfl, Pair.get_upd_other _ _ _⟩
  · split
    · rw [sw_setSwitch, held_setSwitch, Pair.get_upd_other, Pair.get_upd_other]; exact ⟨rfl, rfl⟩
    · exact ⟨rfl, Pair.get_upd_other _ _ _⟩

theorem sw_requestOn_self (x : BayId) (s : State) : (requestOn x s).pp.sw.get x = .on := by
  unfold requestOn
  split
  · have h := (follows_switchOff_other x.other (switchOn x s)).switch
    rw [other_other] at h
    have hon := (switchOn_self x s).1
    have keep := follows_switchOff_other x.other (switchOn x s)
    unfold switchOff
    split
    · exact hon
    · split
      · rw [sw_setSwitch, Pair.get_upd_ne _ (by cases x <;> decide)]; exact hon
      · exact hon
  · exact (switchOn_self x s).1

/-- R34: of the other bay, the request turns OFF or holds at most the switch of a bay in JOLT. -/
theorem follows_requestOn_other (x : BayId) (s : State) : Follows x.other s (requestOn x s) := by
  have on := follows_switchOn_other x s
  unfold requestOn
  split
  · next hc =>
    refine on.trans (Follows.power ((powerOnly.refl _).switchOff x.other) ?_)
    rcases switchOff_self x.other (switchOn x s) with h | ⟨h, e, -⟩
    · exact .inr (.inl ⟨by rw [hc.2.1]; decide, h⟩)
    · exact .inr (.inr ⟨hc.2.1, h, e⟩)
  · exact on

theorem get_relays_setBayState_other (x : BayId) (st : BayState) (s : State) :
    (setBayState x st s).relays.get x.other = s.relays.get x.other := by rw [setBayState_relays, Pair.get_upd_other]

theorem get_bays_setBayState_other (x : BayId) (st : BayState) (s : State) :
    (setBayState x st s).bays.get x.other = s.bays.get x.other := by rw [setBayState_bays, Pair.get_upd_other]

theorem follows_setBayState_other (x : BayId) (st : BayState) (s : State) : Follows x.other s (setBayState x st s) :=
  .of_eq (get_bays_setBayState_other x st s) (get_relays_setBayState_other x st s) (setBayState_pp x st s)

theorem follows_updBay_other (x : BayId) (f : Bay → Bay) (s : State) : Follows x.other s (updBay x f s) :=
  .of_eq (by rw [updBay_bays, Pair.get_upd_other]) rfl rfl

theorem follows_updRelay_other (x : BayId) (f : Relay → Relay) (s : State) : Follows x.other s (updRelay x f s) :=
  .of_eq rfl (by rw [updRelay_relays, Pair.get_upd_other]) rfl

theorem follows_recompute (s : State) : Follows y s (recompute s) := Follows.units (SameUnits.recompute s)

theorem follows_post (k : AttnKey) (d : Detail) (s : State) : Follows y s (post k d s) := Follows.units ⟨rfl, rfl, rfl, rfl⟩

theorem follows_mapCache (f : Line → Line) (s : State) : Follows y s (mapCache f s) := Follows.units ⟨rfl, rfl, rfl, rfl⟩

end Switches

/-! ### The law at each change -/

/-- The bay law, of the bay's record, its switch with its held mark, and whether its probe runs. -/
def bayLawOf (b : Bay) (sw : Switch) (held probe : Bool) : Prop :=
  ((b.state = .empty ∨ b.state = .jolt) → b.presence = false) ∧ (b.state = .empty → b.presLine = false)
    ∧ ((b.state = .probing ∨ steady b.state = true ∨ b.state = .faulted) → b.presence = true)
    ∧ (b.state = .online → sw = .on) ∧ (b.state = .releasing → sw = .off) ∧ (b.state = .standby → sw = .off ∨ held = true)
    ∧ (probe = true → b.state = .probing)

theorem bayLaw_iff {s : State} {x : BayId} :
    bayLaw s x ↔ bayLawOf (s.bays.get x) (s.pp.sw.get x) (s.pp.held.get x) (s.relays.get x).probe.isSome := Iff.rfl

section Moved
variable {s : State} {x : BayId}

/-- The law of a bay that the state `t` has moved to `st`, the other bay following. -/
theorem bayLaws_of_self {t : State} (l : ∀ y, bayLaw s y) (ho : Follows x.other s t) (hx : bayLaw t x) (y : BayId) : bayLaw t y := by
  by_cases hy : y = x
  · exact hy ▸ hx
  · have : y = x.other := by cases x <;> cases y <;> first | rfl | exact absurd rfl hy
    exact this ▸ ho.bayLaw (l x.other)

theorem bayLaw_setBayState {st : BayState} (h : bayLawOf ((s.bays.get x).enter st) (s.pp.sw.get x) (s.pp.held.get x)
    ((s.relays.get x).enter st).probe.isSome) : bayLaw (setBayState x st s) x := by
  rw [bayLaw_iff, setBayState_bays, setBayState_relays, setBayState_pp, Pair.get_upd_self, Pair.get_upd_self]
  exact h

variable (l : ∀ y, bayLaw s y)
include l

theorem bayLaw_presence (h : (s.bays.get x).state = .probing ∨ steady (s.bays.get x).state = true ∨ (s.bays.get x).state = .faulted) :
    (s.bays.get x).presence = true := (l x).2.2.1 h

theorem bayLaws_online (hj : mayJoin x s) : ∀ y, bayLaw (setBayState x .online (requestOn x s)) y := by
  have hp : (s.bays.get x).presence = true := bayLaw_presence l (by rcases hj.1 with e | e | e <;> simp [e, steady])
  refine bayLaws_of_self l ((follows_requestOn_other x s).trans (follows_setBayState_other x _ _)) (bayLaw_setBayState ?_)
  rw [req_bays, sw_requestOn_self, Relay.enter_probe _ (by decide)]
  simp [bayLawOf, hp]

theorem bayLaws_standby (hs : (s.bays.get x).state = .releasing ∨ (s.bays.get x).state = .probing) :
    ∀ y, bayLaw (setBayState x .standby (switchOff x s)) y := by
  have hp : (s.bays.get x).presence = true := bayLaw_presence l (by rcases hs with e | e <;> simp [e, steady])
  refine bayLaws_of_self l ((follows_switchOff_other x s).trans (follows_setBayState_other x _ _)) (bayLaw_setBayState ?_)
  rw [off_bays, Relay.enter_probe _ (by decide)]
  simp [bayLawOf, hp, switchOff_self_off_or_held]

/-- R27, R28: an ONLINE bay that may leave has another source conducting. -/
theorem otherConducts_of_mayLeave (h : mayLeave x s) : otherConducts s x = true := by
  unfold otherConducts
  rcases h.2 with e | e | e
  · rw [e]; rfl
  · have hp := bayLaw_presence (x := x.other) l (.inr (.inl (by rw [e]; rfl)))
    have hsw := (l x.other).2.2.2.1 e
    simp [conductsBay, hp, hsw]
  · exact e

theorem bayLaws_release (k : HandoverKind) (h : mayLeave x s) : ∀ y, bayLaw (releaseBay x k (switchOff x s)) y := by
  have hp : (s.bays.get x).presence = true := bayLaw_presence l (by simp [h.1, steady])
  rw [releaseBay_eq]
  refine bayLaws_of_self l (((follows_switchOff_other x s).trans (follows_updBay_other x _ _)).trans (follows_setBayState_other x _ _))
    (bayLaw_setBayState ?_)
  rw [updBay_pp, sw_switchOff_of_conducts (otherConducts_of_mayLeave l h), Relay.enter_probe _ (by decide), updBay_bays, Pair.get_upd_self,
    off_bays]
  simp [bayLawOf, markReleased, hp]

theorem bayLaws_faulted (why : FaultReason) (h : servedState (s.bays.get x).state = true) : ∀ y, bayLaw (faulted x why s) y := by
  have hp : (s.bays.get x).presence = true := bayLaw_presence l (by
    revert h; cases (s.bays.get x).state <;> simp [servedState, steady])
  unfold faulted
  refine bayLaws_of_self l (((follows_setBayState_other x _ s).trans (follows_updBay_other x _ _)).trans (follows_switchOff_other x _)) ?_
  rw [bayLaw_iff, off_bays, ((powerOnly.refl _).switchOff x).relays, updBay_bays, updBay_relays, Pair.get_upd_self, setBayState_bays,
    setBayState_relays, Pair.get_upd_self, Pair.get_upd_self, Relay.enter_probe _ (by decide)]
  simp [bayLawOf, markFaulted, hp]

theorem bayLaws_probing (h : (s.bays.get x).presence = true) : ∀ y, bayLaw (setBayState x .probing s) y := by
  refine bayLaws_of_self l (follows_setBayState_other x _ s) (bayLaw_setBayState ?_)
  simp [bayLawOf, h]

theorem bayLaws_probe (p : Probe) (h : (s.bays.get x).state = .probing) :
    ∀ y, bayLaw (updRelay x (fun q => { q with probe := some p }) s) y := by
  refine bayLaws_of_self l (follows_updRelay_other x _ s) ?_
  obtain ⟨hempty, hline, hpres, hon, hoff, hstandby, -⟩ := l x
  exact ⟨hempty, hline, hpres, hon, hoff, hstandby, fun _ => h⟩

omit l in
theorem bayLaws_seating (l : ∀ y, y ≠ x → bayLaw s y) : ∀ y, bayLaw (enterSeating x s) y := by
  intro y
  unfold enterSeating
  by_cases hy : y = x
  · subst hy
    refine bayLaw_setBayState ?_
    rw [Relay.enter_probe _ (by decide)]
    simp [bayLawOf, steady]
  · have : y = x.other := by cases x <;> cases y <;> first | rfl | exact absurd rfl hy
    exact this ▸ ((((follows_updBay_other x _ s).trans (follows_updRelay_other x _ _)).trans (follows_setBayState_other x _ _)).bayLaw
      (this ▸ l y hy))

end Moved

/-! ### EMPTY and JOLT -/

section Leaves
variable (x : BayId) (save : Option (Option Half)) (d : Bool) (s : State)

theorem units_discardContext (x : BayId) (s : State) : (discardContext x s).pp = s.pp ∧ (discardContext x s).relays = s.relays ∧
    (discardContext x s).bays = s.bays.upd x (fun b => { b with context := none }) := ⟨rfl, rfl, rfl⟩

theorem units_saveContext (serial : Option Half) : (saveContext x serial s).pp = s.pp ∧ (saveContext x serial s).relays = s.relays ∧
    (saveContext x serial s).bays = s.bays.upd x (fun b => { b with context := some { serial := serial, departure := s.time.uptime } }) := by
  unfold saveContext
  split <;> exact ⟨rfl, rfl, rfl⟩

/-- R38: the context of a bay whose pack departs. -/
def departedContext (save : Option (Option Half)) (s : State) (c : Option Context) : Option Context :=
  match save with
  | none => c
  | some serial => if reinsertWindow s = 0 then none else some { serial := serial, departure := s.time.uptime }

theorem parkDeparted_units : (parkDeparted x save s).pp = s.pp ∧ (parkDeparted x save s).relays = s.relays := by
  have saved := fun serial => units_saveContext x s serial
  unfold parkDeparted
  split
  · exact ⟨rfl, rfl⟩
  · next serial =>
    split
    · exact ⟨(saved serial).1, (saved serial).2.1⟩
    · exact ⟨(saved serial).1, (saved serial).2.1⟩

theorem parkDeparted_bays :
    (parkDeparted x save s).bays = s.bays.upd x (fun b => { b with context := departedContext save s b.context }) := by
  unfold parkDeparted departedContext
  cases save with
  | none => cases x <;> rfl
  | some serial =>
    have saved := (units_saveContext x s serial).2.2
    simp only
    split
    · rw [(units_discardContext x _).2.2, show (cacheEmpty x (saveContext x serial s)).bays = _ from saved]
      cases x <;> rfl
    · show (saveContext x serial s).bays = _
      rw [saved]

theorem postDeparted_units : SameUnits s (postDeparted x d s) := by
  unfold postDeparted
  split <;> exact ⟨rfl, rfl, rfl, rfl⟩

theorem becomeEmpty_bays : (becomeEmpty x save d s).bays
    = s.bays.upd x (fun b => Bay.enter .empty { b with context := departedContext save s b.context }) := by
  unfold becomeEmpty
  rw [off_bays, (postDeparted_units x d _).bays, setBayState_bays, parkDeparted_bays]
  cases x <;> rfl

theorem becomeEmpty_relays : (becomeEmpty x save d s).relays = s.relays.upd x (Relay.enter .empty) := by
  unfold becomeEmpty
  rw [((powerOnly.refl _).switchOff x).relays, (postDeparted_units x d _).relays, setBayState_relays, (parkDeparted_units x save s).2]

theorem follows_becomeEmpty_other : Follows x.other s (becomeEmpty x save d s) := by
  have parked : Follows x.other s (parkDeparted x save s) :=
    .of_eq (by rw [parkDeparted_bays, Pair.get_upd_other]) (by rw [(parkDeparted_units x save s).2]) (parkDeparted_units x save s).1
  exact ((parked.trans (follows_setBayState_other x _ _)).trans (Follows.units (postDeparted_units x d _))).trans
    (follows_switchOff_other x _)

theorem follows_enterSeating_other : Follows x.other s (enterSeating x s) :=
  ((follows_updBay_other x _ s).trans (follows_updRelay_other x _ _)).trans (follows_setBayState_other x _ _)

theorem follows_enterEmpty_other : Follows x.other s (enterEmpty x save d s) := by
  unfold enterEmpty
  split
  · exact (follows_becomeEmpty_other x save d s).trans (follows_enterSeating_other x _)
  · exact follows_becomeEmpty_other x save d s

variable {x s}

theorem eq_other_of_ne {y : BayId} (h : y ≠ x) : y = x.other := by cases x <;> cases y <;> first | rfl | exact absurd rfl h

/-- A bay without recorded presence may enter EMPTY. -/
theorem bayLaws_enterEmpty (l : bayLaw s x.other) (hp : (s.bays.get x).presence = false) : ∀ y, bayLaw (enterEmpty x save d s) y := by
  intro y
  unfold enterEmpty
  split
  · exact bayLaws_seating (fun z hz => eq_other_of_ne hz ▸ (follows_becomeEmpty_other x save d s).bayLaw l) y
  · next hline =>
    by_cases hy : y = x
    · subst hy
      rw [becomeEmpty_bays, Pair.get_upd_self] at hline
      rw [bayLaw_iff, becomeEmpty_bays, becomeEmpty_relays, Pair.get_upd_self, Pair.get_upd_self, Relay.enter_probe _ (by decide)]
      simp [bayLawOf, steady, hp] at hline ⊢
      exact hline
    · exact eq_other_of_ne hy ▸ (follows_becomeEmpty_other x save d s).bayLaw l

theorem postProbeEnd_units (b : Bay) (x : BayId) (d : Detail) (s : State) : SameUnits s (postProbeEnd b x d s) := by
  unfold postProbeEnd
  split <;> exact ⟨rfl, rfl, rfl, rfl⟩

/-- The jolt record that a bay takes on a loss in the drop window (R32). -/
def markJolted (e : JoltEarlier) (serial : Option Half) (b : Bay) : Bay :=
  { b with deferred := false, jolt := some { earlier := e, serial := serial, hold := .waiting } }

theorem enterJolt_units (x : BayId) (s : State) : SameUnits
    (updBay x (markJolted (joltEarlierOf (s.bays.get x).state) (serialOf s x)) (setBayState x .jolt s)) (enterJolt x s) := by
  have ended := postProbeEnd_units (s.bays.get x) x dAborted
    (cacheDistrust x (updBay x (markJolted (joltEarlierOf (s.bays.get x).state) (serialOf s x)) (setBayState x .jolt s)))
  exact ⟨ended.pp, ended.bays, ended.relays, ended.tables⟩

theorem follows_enterJolt_other (x : BayId) (s : State) : Follows x.other s (enterJolt x s) :=
  ((follows_setBayState_other x _ s).trans (follows_updBay_other x _ _)).trans (Follows.units (enterJolt_units x s))

theorem bayLaws_enterJolt (l : bayLaw s x.other) (hp : (s.bays.get x).presence = false) : ∀ y, bayLaw (enterJolt x s) y := by
  intro y
  by_cases hy : y = x
  · subst hy
    have e := enterJolt_units y s
    rw [bayLaw_iff, e.bays, e.relays, e.pp, updBay_bays, updBay_relays, updBay_pp, setBayState_bays, setBayState_relays, Pair.get_upd_self,
      Pair.get_upd_self, Pair.get_upd_self, Relay.enter_probe _ (by decide)]
    simp [bayLawOf, steady, markJolted, hp]
  · exact eq_other_of_ne hy ▸ (follows_enterJolt_other x s).bayLaw l

end Leaves

/-! ### A recorded loss -/

section Loss
variable {x : BayId} {s : State}

theorem follows_postProbeEnd (y : BayId) (b : Bay) (d : Detail) (s : State) : Follows y s (postProbeEnd b x d s) :=
  Follows.units (postProbeEnd_units b x d s)

theorem follows_fallByState_other (x : BayId) (s : State) : Follows x.other s (fallByState x s) := by
  have lost : Follows x.other s (if windowOpen s then enterJolt x s else abruptLoss x s) := by
    split
    · exact follows_enterJolt_other x s
    · exact (follows_enterEmpty_other x _ _ s).trans (follows_postProbeEnd _ _ _ _)
  unfold fallByState
  cases (s.bays.get x).state
  case releasing => exact follows_enterEmpty_other x _ _ s
  case faulted => exact follows_enterEmpty_other x _ _ s
  case seating => exact follows_enterEmpty_other x _ _ s
  case empty => exact Follows.refl _ s
  case jolt => exact Follows.refl _ s
  all_goals exact lost

/-- The bay that has lost its pack is in EMPTY, SEATING or JOLT; nothing of the law beyond its presence is used. -/
theorem bayLaws_fallByState (l : bayLaw s x.other) (hp : (s.bays.get x).presence = false)
    (hs : (s.bays.get x).state ≠ .empty ∧ (s.bays.get x).state ≠ .jolt) : ∀ y, bayLaw (fallByState x s) y := by
  have lost : ∀ y, bayLaw (if windowOpen s then enterJolt x s else abruptLoss x s) y := by
    split
    · exact bayLaws_enterJolt l hp
    · exact fun y => (follows_postProbeEnd y _ _ _).bayLaw (bayLaws_enterEmpty _ _ l hp y)
  unfold fallByState
  cases hst : (s.bays.get x).state
  case releasing => exact bayLaws_enterEmpty _ _ l hp
  case faulted => exact bayLaws_enterEmpty _ _ l hp
  case seating => exact bayLaws_enterEmpty _ _ l hp
  case empty => exact absurd hst hs.1
  case jolt => exact absurd hst hs.2
  all_goals exact lost

/-- The relay's end of a pack transaction and of a Link Recover leaves every bay in place. -/
theorem follows_endLink (y x : BayId) (s : State) : Follows y s (failRecover x (loseLink x s)) := by
  have calm : Calm (Follows y s) :=
    { units := fun _ _ a h => h.trans (Follows.units a)
      bay := fun x f u hf h => h.trans ⟨(state_updBay hf u), by
          rw [updBay_bays]
          by_cases e : y = x
          · subst e; rw [Pair.get_upd_self]; exact (hf _).2.1
          · rw [Pair.get_upd_ne _ e], by
          rw [updBay_bays]
          by_cases e : y = x
          · subst e; rw [Pair.get_upd_self]; exact (hf _).2.2
          · rw [Pair.get_upd_ne _ e], id, .inl ⟨rfl, rfl⟩⟩
      relay := fun x f u hf h => h.trans ⟨rfl, rfl, rfl, by
          rw [updRelay_relays]
          by_cases e : y = x
          · subst e; rw [Pair.get_upd_self]; exact hf.2
          · rw [Pair.get_upd_ne _ e]; exact id, .inl ⟨rfl, rfl⟩⟩ }
  exact calm.failRecover x (calm.loseLink x (Follows.refl y s))

theorem follows_afterLoss_other (x : BayId) (s : State) : Follows x.other s (afterLoss x s) :=
  (((follows_updBay_other x _ s).trans (follows_recompute _ _)).trans (follows_endLink _ x _)).trans (follows_fallByState_other x _)

/-- R17: the bay as the loss finds it, its presence recorded as gone. -/
theorem get_beforeFall (x : BayId) (s : State) :
    (failRecover x (loseLink x (recompute (updBay x (fun b => { b with presence := false }) s)))).bays.get x
      = { s.bays.get x with presence := false } := by
  rw [get_loseLink_bays, recompute_bays, updBay_bays, Pair.get_upd_self]

theorem bayLaws_afterLoss (l : ∀ y, bayLaw s y) (hp : (s.bays.get x).presence = true) : ∀ y, bayLaw (afterLoss x s) y := by
  refine bayLaws_fallByState ?_ (by rw [get_beforeFall]) ?_
  · exact (((follows_updBay_other x _ s).trans (follows_recompute _ _)).trans (follows_endLink _ x _)).bayLaw (l x.other)
  · rw [get_beforeFall]
    have absent : ¬ ((s.bays.get x).state = .empty ∨ (s.bays.get x).state = .jolt) := fun e => by
      have := (l x).1 e
      rw [hp] at this
      cases this
    exact ⟨fun e => absent (.inl e), fun e => absent (.inr e)⟩

end Loss

/-! ### A recorded rise -/

section Rise
variable {x : BayId} {s : State}

/-- R17, R6, R10: beside the presence itself a rise only eases switches. -/
theorem follows_presenceRises (y x : BayId) (s : State) : Follows y (updBay x (fun b => { b with presence := true }) s) (presenceRises x s) := by
  unfold presenceRises
  simp only
  split
  · exact follows_recompute _ _
  · exact (follows_recompute _ _).trans (follows_releaseHeld _ _)
  · exact ((follows_recompute _ _).trans (follows_endBridge _ _)).trans (follows_releaseHeld _ _)

theorem follows_presenceRises_other (x : BayId) (s : State) : Follows x.other s (presenceRises x s) :=
  (follows_updBay_other x _ s).trans (follows_presenceRises _ x s)

theorem bayLaws_presenceRises (l : ∀ y, bayLaw s y) (hs : (s.bays.get x).state ≠ .empty ∧ (s.bays.get x).state ≠ .jolt) :
    ∀ y, bayLaw (presenceRises x s) y := by
  refine bayLaws_of_self l (follows_presenceRises_other x s) ((follows_presenceRises x x s).bayLaw ?_)
  obtain ⟨-, -, -, hon, hoff, hstandby, hprobe⟩ := l x
  rw [bayLaw_iff, updBay_bays, Pair.get_upd_self]
  exact ⟨fun e => by rcases e with e | e <;> [exact absurd e hs.1; exact absurd e hs.2], fun e => absurd e hs.1, fun _ => rfl, hon, hoff,
    hstandby, hprobe⟩

theorem follows_afterReturn_other (x : BayId) (s : State) : Follows x.other s (afterReturn x s) :=
  ((((follows_presenceRises_other x s).trans (follows_updBay_other x _ _)).trans (follows_updRelay_other x _ _)).trans
    (follows_recompute _ _)).trans (follows_setBayState_other x _ _)

theorem bayLaws_afterReturn (l : ∀ y, bayLaw s y) : ∀ y, bayLaw (afterReturn x s) y := by
  refine bayLaws_of_self l (follows_afterReturn_other x s) (bayLaw_setBayState ?_)
  have hp : ((recompute (updRelay x (fun r => { r with snap := Snapshot.absent, failCount := 0 })
      (updBay x (setJoltHold .stopped) (presenceRises x s)))).bays.get x).presence = true := by
    rw [recompute_bays, updRelay_bays, updBay_bays, Pair.get_upd_self, get_presenceRises]
    rfl
  simp [bayLawOf, hp]

end Rise

/-! ### The rows -/

theorem calm_bayLaws : Calm (fun s => ∀ y, bayLaw s y) where
  units _ _ a l y := (Follows.units a).bayLaw (l y)
  bay x f s hf l y := by
    by_cases hy : y = x
    · subst hy
      rw [bayLaw_iff, updBay_bays, Pair.get_upd_self]
      unfold bayLawOf
      rw [(hf _).1, (hf _).2.1, (hf _).2.2]
      exact l y
    · exact eq_other_of_ne hy ▸ (follows_updBay_other x f s).bayLaw (l x.other)
  relay x f s hf l y := by
    by_cases hy : y = x
    · subst hy
      obtain ⟨hempty, hline, hpres, hon, hoff, hstandby, hprobe⟩ := l y
      refine ⟨hempty, hline, hpres, hon, hoff, hstandby, fun e => hprobe (hf.2 ?_)⟩
      rw [updRelay_relays, Pair.get_upd_self] at e
      exact e
    · exact eq_other_of_ne hy ▸ (follows_updRelay_other x f s).bayLaw (l x.other)

section Records
variable {s : State} {x : BayId} (l : ∀ y, bayLaw s y)
include l

theorem bayLaws_enterProbing (h : (s.bays.get x).state = .standby ∨ (s.bays.get x).state = .faulted ∨ (s.bays.get x).presence = true) :
    ∀ y, bayLaw (setBayState x .probing s) y := by
  refine bayLaws_probing l ?_
  rcases h with e | e | e
  · exact bayLaw_presence l (.inr (.inl (by rw [e]; rfl)))
  · exact bayLaw_presence l (.inr (.inr e))
  · exact e

theorem bayLaws_power {p : PowerPath} (hsw : p.sw = s.pp.sw) (hheld : p.held = s.pp.held) : ∀ y, bayLaw { s with pp := p } y := fun y => by
  have h := l y
  rw [bayLaw_iff] at h ⊢
  rw [← hsw, ← hheld] at h
  exact h

/-- R63: a value read changes the snapshot, of which the law says nothing. -/
theorem bayLaws_store (t : Tag) (v : Half) : ∀ y, bayLaw (updRelay x (fun r => { r with snap := r.snap.put t v }) s) y := by
  refine bayLaws_of_self l (follows_updRelay_other x _ s) ?_
  obtain ⟨hempty, hline, hpres, hon, hoff, hstandby, hprobe⟩ := l x
  refine ⟨hempty, hline, hpres, hon, hoff, hstandby, fun e => hprobe ?_⟩
  rw [updRelay_relays, Pair.get_upd_self] at e
  exact e

/-- R20: the line of an EMPTY bay rises only on the way to SEATING. -/
theorem bayLaws_line (v : Bool) (hv : ¬ (v = true ∧ (s.bays.get x).state = .empty ∧ (s.bays.get x).presence = false)) :
    ∀ y, bayLaw (updBay x (fun b => { b with presLine := v }) s) y := by
  refine bayLaws_of_self l (follows_updBay_other x _ s) ?_
  obtain ⟨hempty, -, hpres, hon, hoff, hstandby, hprobe⟩ := l x
  rw [bayLaw_iff, updBay_bays, Pair.get_upd_self]
  refine ⟨hempty, fun e => ?_, hpres, hon, hoff, hstandby, hprobe⟩
  cases v
  · rfl
  · exact absurd ⟨rfl, e, hempty (.inl e)⟩ hv

theorem bayLaws_seat : ∀ y, bayLaw (enterSeating x (updBay x (fun b => { b with presLine := true }) s)) y :=
  bayLaws_seating fun _ hy => eq_other_of_ne hy ▸ (follows_updBay_other x _ s).bayLaw (l x.other)

theorem bayLaws_unseat (hline : (s.bays.get x).presLine = false) (hp : (s.bays.get x).presence = false) :
    ∀ y, bayLaw (setBayState x .empty s) y := by
  refine bayLaws_of_self l (follows_setBayState_other x _ s) (bayLaw_setBayState ?_)
  rw [Relay.enter_probe _ (by decide)]
  simp [bayLawOf, steady, hline, hp]

theorem bayLaws_rise (hline : (s.bays.get x).presLine = true) (hs : (s.bays.get x).state ≠ .jolt) : ∀ y, bayLaw (presenceRises x s) y := by
  refine bayLaws_presenceRises l ⟨fun e => ?_, hs⟩
  have := (l x).2.1 e
  rw [hline] at this
  cases this

end Records

theorem bayLaw_ops (i : Instr) : RowOps True i (fun s => ∀ y, bayLaw s y) (fun s => ∀ y, bayLaw s y) where
  before := calm_bayLaws
  after := calm_bayLaws
  done _ _ _ l := calm_bayLaws.post _ _ l
  refused _ _ _ l := calm_bayLaws.post _ _ l
  mark x f s hf l := calm_bayLaws.bay x f s (fun b => by rw [hf b]; exact ⟨rfl, rfl, rfl⟩) l
  online _ _ hj l := bayLaws_online l (hj trivial)
  standby _ _ hs l := bayLaws_standby l (hs trivial)
  release _ k _ h l := bayLaws_release l k (h trivial)
  bridge why s l y := (follows_startBridge y why s).bayLaw (l y)
  note _ _ _ l := calm_bayLaws.post _ _ l
  lines f s l := calm_bayLaws.units s (mapCache f s) ⟨rfl, rfl, rfl, rfl⟩ l
  fault _ why _ h l := bayLaws_faulted l why (h trivial)
  record := calm_bayLaws.bay
  probing _ _ h l := bayLaws_enterProbing l (h trivial)
  probe _ p _ h l := bayLaws_probe l p (h trivial)
  outside s t a l := calm_bayLaws.units s t ⟨a.pp, a.bays, a.relays, a.tables⟩ l
  expire x _ _ h l := bayLaws_enterEmpty _ _ (l x.other) ((l x).1 (.inr (h trivial)))
  weaken _ l := l
  tables _ _ l := l
  power _ _ hsw hheld _ _ l := bayLaws_power l hsw hheld
  probed _ x _ l := (l x).2.2.2.2.2.2
  store _ t v _ l := bayLaws_store l t v
  por l s _ _ := bayLaw_powerOn l s
  extUp s l y := (((follows_recompute y _).trans (follows_releaseHeld y _)).trans (follows_endBridge y _)).bayLaw (l y)
  extDown s _ l y := (follows_recompute y (post (.presence .ext) dDeparted (setExt false s))).bayLaw (l y)
  line _ v _ hv l := bayLaws_line l v hv
  seat _ _ _ _ l := bayLaws_seat l
  unseat _ _ _ hline hp l := bayLaws_unseat l hline hp
  lost _ _ _ _ hp l := bayLaws_afterLoss l hp
  rise _ _ _ hline hs l := bayLaws_rise l hline hs
  back _ _ _ _ l := bayLaws_afterReturn l

theorem bayLaw_tick {s : State} {x : BayId} (l : bayLaw s x) : bayLaw (tickTimers s) x := by
  rw [bayLaw_iff] at l ⊢
  rw [get_tickTimers, show (tickTimers s).relays.get x = tickRelay (s.relays.get x) by cases x <;> rfl]
  exact l

/-- Settles O9: each row is made of operations that keep the law, or of a loss or a rise of presence that ends in it. -/
theorem everyStepKeepsTheBayLaw : Obligations.EveryStepKeepsTheBayLaw := fun _ _ l e =>
  step_keeps (P := fun s => ∀ y, bayLaw s y) (fun _ _ l => l) (fun _ l x => bayLaw_tick (l x))
    (exec_steps fun i => (bayLaw_ops i).steps) l e

end Sys2Proof.Machine
end

