-- ==== Sys2Proof/Proofs/LastSource.lean ====
section
/-! PROOFS. No row turns off the last conducting source (R5, R7): each operation of the power path keeps the set from becoming empty, and what empties it is
a fall of EXT or of a recorded presence. -/

namespace Sys2Proof.Machine

/-! ### The set of conducting sources -/

section Conducts
variable {s t : State} {x : BayId}

theorem anyConducts_iff : anyConducts s = true ↔ s.pp.ext = true ∨ (∃ x, conductsBay s x = true) ∨ s.pp.bridge ≠ .idle := by
  unfold anyConducts conductsBridge
  constructor
  · intro h
    simp only [Bool.or_eq_true, bne_iff_ne] at h
    rcases h with ((h | h) | h) | h
    · exact .inl h
    · exact .inr (.inl ⟨_, h⟩)
    · exact .inr (.inl ⟨_, h⟩)
    · exact .inr (.inr h)
  · simp only [Bool.or_eq_true, bne_iff_ne]
    rintro (h | ⟨x, h⟩ | h)
    · exact .inl (.inl (.inl h))
    · cases x
      · exact .inl (.inl (.inr h))
      · exact .inl (.inr h)
    · exact .inr h

theorem conductsBay_iff : conductsBay s x = true ↔ s.pp.sw.get x ≠ .off ∧ (s.bays.get x).presence = true := by
  unfold conductsBay
  simp

/-- Another source conducts, or the bay itself. -/
theorem anyConducts_eq (x : BayId) (s : State) : anyConducts s = (otherConducts s x || conductsBay s x) := by
  unfold anyConducts otherConducts
  cases x <;> simp only [BayId.other] <;> cases s.pp.ext <;> cases conductsBay s .A <;> cases conductsBay s .B <;>
    cases conductsBridge s <;> rfl

theorem otherConducts_congr (he : t.pp.ext = s.pp.ext) (hs : t.pp.sw.get x.other = s.pp.sw.get x.other) (hb : t.pp.bridge = s.pp.bridge)
    (hp : (t.bays.get x.other).presence = (s.bays.get x.other).presence) : otherConducts t x = otherConducts s x := by
  unfold otherConducts conductsBay conductsBridge
  rw [he, hs, hb, hp]

theorem anyConducts_congr (he : t.pp.ext = s.pp.ext) (hs : t.pp.sw = s.pp.sw) (hb : t.pp.bridge = .idle ↔ s.pp.bridge = .idle)
    (hp : ∀ x, (t.bays.get x).presence = (s.bays.get x).presence) (h : anyConducts s = true) : anyConducts t = true := by
  rw [anyConducts_iff] at h ⊢
  rw [he, Ne, hb]
  refine h.imp_right (Or.imp_left fun ⟨x, hx⟩ => ⟨x, ?_⟩)
  rw [conductsBay_iff] at hx ⊢
  rw [hs, hp]
  exact hx

theorem ext_setSwitch (x : BayId) (v : Switch) (s : State) : (setSwitch x v s).pp.ext = s.pp.ext := by
  unfold setSwitch updPower; rw [recompute_pp]

theorem otherConducts_setSwitch (x : BayId) (v : Switch) (s : State) : otherConducts (setSwitch x v s) x = otherConducts s x :=
  otherConducts_congr (ext_setSwitch x v s) (by rw [sw_setSwitch, Pair.get_upd_other]) (bridge_setSwitch x v s) (by rw [setSwitch_bays])

/-- R5: a switch turned OFF while another source conducts leaves that source. -/
theorem lit_setSwitch_off (h : otherConducts s x = true) : anyConducts (setSwitch x .off s) = true := by
  rw [anyConducts_eq x, otherConducts_setSwitch, h]
  rfl

theorem lit_releaseHeldOne (x : BayId) (h : anyConducts s = true) : anyConducts (releaseHeldOne x s) = true := by
  unfold releaseHeldOne
  split
  · next hc => exact lit_setSwitch_off hc.2.2
  · exact h

theorem lit_releaseHeld (h : anyConducts s = true) : anyConducts (releaseHeld s) = true := lit_releaseHeldOne .B (lit_releaseHeldOne .A h)

theorem lit_recompute (h : anyConducts s = true) : anyConducts (recompute s) = true :=
  anyConducts_congr (by rw [recompute_pp]) (by rw [recompute_pp]) (by rw [recompute_pp]) (fun _ => by rw [recompute_bays]) h

theorem endBridge_pp (s : State) : (endBridge s).pp.sw = s.pp.sw ∧ (endBridge s).pp.ext = s.pp.ext := by
  unfold endBridge updPower
  split
  · exact ⟨rfl, rfl⟩
  · rw [recompute_pp]; exact ⟨rfl, rfl⟩

/-- R10: a bridge run ends where EXT or a pack conducts. -/
theorem lit_endBridge (h : s.pp.ext = true ∨ ∃ x, conductsBay s x = true) : anyConducts (endBridge s) = true := by
  rw [anyConducts_iff, (endBridge_pp s).2]
  refine h.imp_right fun ⟨x, hx⟩ => .inl ⟨x, ?_⟩
  rw [conductsBay_iff] at hx ⊢
  rw [(endBridge_pp s).1, endB_bays]
  exact hx

theorem lit_switchOn (x : BayId) (h : anyConducts s = true) : anyConducts (switchOn x s) = true := by
  unfold switchOn
  split
  · exact anyConducts_congr (s := s) rfl rfl Iff.rfl (fun _ => rfl) h
  · split
    · next hp =>
      refine lit_releaseHeld (lit_endBridge (.inr ⟨x, ?_⟩))
      rw [conductsBay_iff, sw_setSwitch, Pair.get_upd_self, setSwitch_bays]
      exact ⟨by decide, hp⟩
    · next hp =>
      rw [anyConducts_eq x] at h ⊢
      have dark : conductsBay s x = false := by unfold conductsBay; simp [hp]
      rw [dark, Bool.or_false] at h
      rw [otherConducts_setSwitch, h]
      rfl

theorem lit_switchOff (x : BayId) (h : anyConducts s = true) : anyConducts (switchOff x s) = true := by
  unfold switchOff
  split
  · exact anyConducts_congr (s := s) rfl rfl Iff.rfl (fun _ => rfl) h
  · split
    · next hc => exact lit_setSwitch_off hc
    · exact anyConducts_congr (s := s) rfl rfl Iff.rfl (fun _ => rfl) h

theorem lit_requestOn (x : BayId) (h : anyConducts s = true) : anyConducts (requestOn x s) = true := by
  unfold requestOn
  split
  · exact lit_switchOff _ (lit_switchOn x h)
  · exact lit_switchOn x h

theorem lit_startBridge (why : BridgeReason) (h : anyConducts s = true) : anyConducts (startBridge why s) = true := by
  unfold startBridge
  split
  · refine lit_releaseHeld (lit_recompute (anyConducts_iff.2 (.inr (.inr ?_))))
    show BridgeState.running ≠ .idle
    decide
  · exact h

theorem lit_units (a : SameUnits s t) (h : anyConducts s = true) : anyConducts t = true :=
  anyConducts_congr (by rw [a.pp]) (by rw [a.pp]) (by rw [a.pp]) (fun _ => by rw [a.bays]) h

theorem presence_updBay {y : BayId} {f : Bay → Bay} (hf : ∀ b, (f b).presence = b.presence) :
    ((updBay x f s).bays.get y).presence = (s.bays.get y).presence := by
  rw [updBay_bays]
  by_cases hy : y = x
  · subst hy; rw [Pair.get_upd_self, hf]
  · rw [Pair.get_upd_ne _ hy]

theorem lit_updBay {f : Bay → Bay} (hf : ∀ b, (f b).presence = b.presence) (h : anyConducts s = true) : anyConducts (updBay x f s) = true :=
  anyConducts_congr (s := s) rfl rfl Iff.rfl (fun _ => presence_updBay hf) h

theorem lit_setBayState (st : BayState) (h : anyConducts s = true) : anyConducts (setBayState x st s) = true := by
  have hp : ∀ y, ((setBayState x st s).bays.get y).presence = (s.bays.get y).presence := fun y => by
    rw [setBayState_bays]
    exact presence_updBay (x := x) (s := s) fun _ => rfl
  exact anyConducts_congr (by rw [setBayState_pp]) (by rw [setBayState_pp]) (by rw [setBayState_pp]) hp h

theorem lit_enterSeating (h : anyConducts s = true) : anyConducts (enterSeating x s) = true :=
  lit_setBayState _ (anyConducts_congr (s := updBay x (fun b => { b with presDeb := some (presenceDebounce s) }) s)
    rfl rfl Iff.rfl (fun _ => rfl) (lit_updBay (fun _ => rfl) h))

theorem lit_becomeEmpty (save : Option (Option Half)) (d : Bool) (h : anyConducts s = true) : anyConducts (becomeEmpty x save d s) = true := by
  have parked : anyConducts (parkDeparted x save s) = true :=
    anyConducts_congr (by rw [(parkDeparted_units x save s).1]) (by rw [(parkDeparted_units x save s).1])
      (by rw [(parkDeparted_units x save s).1]) (fun y => by
        rw [parkDeparted_bays]; exact presence_updBay (x := x) (s := s) fun _ => rfl) h
  exact lit_switchOff x (lit_units (postDeparted_units x d _) (lit_setBayState _ parked))

theorem lit_enterEmpty (save : Option (Option Half)) (d : Bool) (h : anyConducts s = true) : anyConducts (enterEmpty x save d s) = true := by
  unfold enterEmpty
  split
  · exact lit_enterSeating (lit_becomeEmpty save d h)
  · exact lit_becomeEmpty save d h

/-- R17: the set with the pack of bay `x` present holds at least what it held. -/
theorem lit_present (x : BayId) (h : anyConducts s = true) : anyConducts (updBay x (fun b => { b with presence := true }) s) = true := by
  rw [anyConducts_iff] at h ⊢
  refine h.imp_right (Or.imp_left fun ⟨y, hy⟩ => ⟨y, ?_⟩)
  rw [conductsBay_iff] at hy ⊢
  rw [updBay_bays]
  by_cases e : y = x
  · subst e; rw [Pair.get_upd_self]; exact ⟨hy.1, rfl⟩
  · rw [Pair.get_upd_ne _ e]; exact hy

theorem lit_presenceRises (x : BayId) (h : anyConducts s = true) : anyConducts (presenceRises x s) = true := by
  have h1 := lit_recompute (lit_present x h)
  unfold presenceRises
  simp only
  split
  · exact h1
  · exact lit_releaseHeld h1
  · next hon =>
    refine lit_releaseHeld (lit_endBridge (.inr ⟨x, ?_⟩))
    rw [conductsBay_iff, hon, recompute_bays, updBay_bays, Pair.get_upd_self]
    exact ⟨by decide, rfl⟩

end Conducts

/-! ### The rows -/

/-- A source conducts, or a recorded presence that stood at the start `o` of row `i` has fallen in it. -/
def litOrLost (i : Instr) (o s : State) : Prop :=
  anyConducts s = true ∨ ∃ x, mayLose i x ∧ (o.bays.get x).presence = true ∧ (s.bays.get x).presence = false

/-- A source conducts, and no presence is recorded that was not at the start `o`. -/
def litFrom (o s : State) : Prop := anyConducts s = true ∧ ∀ x, (s.bays.get x).presence = true → (o.bays.get x).presence = true

section Rows
variable {i : Instr} {o s t : State}

theorem presence_of_acts (a : Acts s t) (x : BayId) : (t.bays.get x).presence = (s.bays.get x).presence :=
  congrArg (fun l => l.2.1) (a.levels x)

theorem litOrLost.acts (a : Acts s t) (hc : anyConducts s = true → anyConducts t = true) (h : litOrLost i o s) : litOrLost i o t :=
  h.imp hc fun ⟨x, hi, ho, hs⟩ => ⟨x, hi, ho, (presence_of_acts a x).trans hs⟩

theorem litOrLost.units (a : SameUnits s t) (h : litOrLost i o s) : litOrLost i o t :=
  h.imp (lit_units a) fun ⟨x, hi, ho, hs⟩ => ⟨x, hi, ho, by rw [a.bays]; exact hs⟩

theorem litOrLost.updBay {x : BayId} {f : Bay → Bay} (hf : ∀ b, (f b).presence = b.presence) (h : litOrLost i o s) :
    litOrLost i o (updBay x f s) :=
  h.imp (lit_updBay hf) fun ⟨y, hi, ho, hs⟩ => ⟨y, hi, ho, (presence_updBay hf).trans hs⟩

theorem litOrLost.updRelay {x : BayId} {f : Relay → Relay} (h : litOrLost i o s) : litOrLost i o (updRelay x f s) :=
  h.imp (anyConducts_congr (s := s) rfl rfl Iff.rfl fun _ => rfl) fun h => h

theorem calm_litOrLost : Calm (litOrLost i o) where
  units _ _ a h := h.units a
  bay _ _ _ hf h := h.updBay fun b => (hf b).2.2
  relay _ _ _ _ h := h.updRelay

theorem calm_litFrom : Calm (litFrom o) where
  units _ _ a h := ⟨lit_units a h.1, fun x hx => h.2 x (by rw [← a.bays]; exact hx)⟩
  bay _ _ _ hf h := ⟨lit_updBay (fun b => (hf b).2.2) h.1, fun x hx => h.2 x ((presence_updBay fun b => (hf b).2.2) ▸ hx)⟩
  relay _ _ s _ h := ⟨anyConducts_congr (s := s) rfl rfl Iff.rfl (fun _ => rfl) h.1, h.2⟩

theorem presence_afterLoss (x : BayId) (s : State) : ((afterLoss x s).bays.get x).presence = false := by
  have acts := (((Acts.refl (recompute (Machine.updBay x (fun b => { b with presence := false }) s))).loseLink x).failRecover x).fallByState x
  refine (presence_of_acts acts x).trans ?_
  rw [recompute_bays, updBay_bays, Pair.get_upd_self]

theorem lit_ops (i : Instr) (hpor : ∀ l, i ≠ .powerOnReset l) (hext : i ≠ .extPresentChange false) (o : State) :
    RowOps False i (litFrom o) (litOrLost i o) where
  before := calm_litFrom
  after := calm_litOrLost
  done _ _ _ h := calm_litOrLost.post _ _ h
  refused _ _ _ h := calm_litOrLost.post _ _ h
  mark _ f _ hf h := h.updBay fun b => by rw [hf b]
  online x s _ h := h.acts (((Acts.refl s).requestOn x).setBayState x .online) fun h => lit_setBayState _ (lit_requestOn x h)
  standby x s _ h := h.acts (((Acts.refl s).switchOff x).setBayState x .standby) fun h => lit_setBayState _ (lit_switchOff x h)
  release x k s _ h := h.acts (((Acts.refl s).switchOff x).releaseBay x k) fun h =>
    lit_setBayState _ (lit_updBay (fun _ => rfl) (lit_switchOff x h))
  bridge why s h := h.acts ((Acts.refl s).startBridge why) (lit_startBridge why)
  note _ _ _ h := calm_litOrLost.post _ _ h
  lines f s h := calm_litOrLost.units s (mapCache f s) ⟨rfl, rfl, rfl, rfl⟩ h
  fault x why s _ h := h.acts ((((Acts.refl s).setBayState x .faulted).updBay x (markFaulted why)).switchOff x) fun h =>
    lit_switchOff x (lit_updBay (fun _ => rfl) (lit_setBayState _ h))
  record := calm_litOrLost.bay
  probing x s _ h := h.acts ((Acts.refl s).setBayState x .probing) (lit_setBayState _)
  probe _ _ _ _ h := h.updRelay
  outside s t a h := calm_litOrLost.units s t ⟨a.pp, a.bays, a.relays, a.tables⟩ h
  expire x v s _ h := h.acts ((Acts.refl s).enterEmpty x (some v) false) (lit_enterEmpty _ _)
  weaken _ h := .inl h.1
  tables _ s h := ⟨anyConducts_congr (s := s) rfl rfl Iff.rfl (fun _ => rfl) h.1, h.2⟩
  power p s hsw _ hext hb h := ⟨anyConducts_congr (s := s) hext hsw hb (fun _ => rfl) h.1, h.2⟩
  probed w := w.elim
  store _ _ _ _ h := litOrLost.updRelay (.inl h.1)
  por l _ hi _ := absurd hi (hpor l)
  extUp s _ := .inl (lit_endBridge (.inl (by
    rw [((Acts.refl (recompute (post (.presence .ext) dArrived (setExt true s)))).releaseHeld).ext, recompute_pp]; rfl)))
  extDown _ hi _ := absurd hi hext
  line x v s _ h := ⟨lit_updBay (fun _ => rfl) h.1, fun y hy => h.2 y ((presence_updBay (f := fun b => { b with presLine := v }) fun _ => rfl) ▸ hy)⟩
  seat x s _ _ h := .inl (lit_enterSeating (lit_updBay (fun _ => rfl) h.1))
  unseat x s _ _ _ h := .inl (lit_setBayState _ h.1)
  lost x s hi _ hp h := .inr ⟨x, hi, h.2 x hp, presence_afterLoss x s⟩
  rise x s _ _ _ h := .inl (lit_presenceRises x h.1)
  back x s _ _ h := .inl (lit_setBayState _ (lit_recompute (anyConducts_congr (s := updBay x (setJoltHold .stopped) (presenceRises x s))
    rfl rfl Iff.rfl (fun _ => rfl) (lit_updBay (fun _ => rfl) (lit_presenceRises x h.1)))))

end Rows

theorem not_mayLose_of_commandRow {c : BitVec 7} {p : List Byte} {j : Instr} (h : commandRow c p = some j) (x : BayId) : ¬ mayLose j x := by
  rintro (rfl | rfl) <;>
  · unfold commandRow at h
    split at h <;> cases h

/-- Settles O11: the row taken for itself, or for the command that its byte completes. -/
theorem noRowTurnsOffTheLastSource : Obligations.NoRowTurnsOffTheLastSource := by
  intro i s t e lit
  obtain ⟨j, hc, he, hj⟩ := exec_as_row i s
  rw [he] at e
  by_cases hpor : ∃ l, i = .powerOnReset l
  · exact .inr (.inl hpor)
  by_cases hext : i = .extPresentChange false
  · exact .inr (.inr (.inl hext))
  have hpor' : ∀ l, j ≠ .powerOnReset l := by
    rcases hj with rfl | ⟨c, p, hj⟩
    · exact fun l e => hpor ⟨l, e⟩
    · exact ne_powerOnReset_of_commandRow hj
  have hext' : j ≠ .extPresentChange false := by
    rcases hj with rfl | ⟨c, p, hj⟩
    · exact hext
    · rintro rfl
      unfold commandRow at hj
      split at hj <;> cases hj
  rcases (lit_ops j hpor' hext' s).steps.exec hc ⟨lit, fun _ h => h⟩ e with lit' | ⟨x, hx, hs, ht⟩
  · exact .inl lit'
  · rcases hj with rfl | ⟨c, p, hj⟩
    · rcases hx with rfl | rfl
      · exact .inr (.inr (.inr (.inl ⟨x, rfl, hs, ht⟩)))
      · exact .inr (.inr (.inr (.inr ⟨x, rfl, hs, ht⟩)))
    · exact absurd hx (not_mayLose_of_commandRow hj x)

end Sys2Proof.Machine
end

