-- ==== Sys2Proof/Proofs/Paralleling.lean ====
section
/-! PROOFS. The switch law and the device's law for paralleling (R3, R5, R24, R31, R34 to R36): a row turns both switches ON only by the paralleling
rule, with both packs present and their voltages close. -/

namespace Sys2Proof.Machine

/-! ### The switch law at each change -/

section SwitchLaw
variable {s t : State} {x : BayId}

theorem switchLaws_of_self (l : switchLaw s x.other) (ho : Follows x.other s t) (hx : switchLaw t x) (y : BayId) : switchLaw t y := by
  by_cases hy : y = x
  · exact hy ▸ hx
  · exact eq_other_of_ne hy ▸ ho.switchLaw l

/-- The law says nothing of the switch of a bay in the other states. -/
theorem switchLaw_of_state (h : (t.bays.get x).state ≠ .empty ∧ (t.bays.get x).state ≠ .faulted ∧ (t.bays.get x).state ≠ .seating) :
    switchLaw t x := ⟨fun e => by rcases e with e | e <;> [exact absurd e h.1; exact absurd e h.2.1], fun e => absurd e h.2.2⟩

/-- A switch that is OFF or held satisfies the law in every state. -/
theorem switchLaw_of_off (h : t.pp.sw.get x = .off ∨ t.pp.held.get x = true) : switchLaw t x :=
  ⟨fun _ => h, fun _ => h.imp_right .inl⟩

theorem switchLaw_enterEmpty (save : Option (Option Half)) (d : Bool) (s : State) : switchLaw (enterEmpty x save d s) x := by
  have off : (becomeEmpty x save d s).pp.sw.get x = .off ∨ (becomeEmpty x save d s).pp.held.get x = true := switchOff_self_off_or_held x _
  unfold enterEmpty
  split
  · refine switchLaw_of_off ?_
    unfold enterSeating
    rw [setBayState_pp]
    exact off
  · exact switchLaw_of_off off

variable (l : switchLaw s x.other)
include l

theorem switchLaws_enterEmpty (save : Option (Option Half)) (d : Bool) : ∀ y, switchLaw (enterEmpty x save d s) y :=
  switchLaws_of_self l (follows_enterEmpty_other x save d s) (switchLaw_enterEmpty save d s)

theorem switchLaws_setBayState {u : State} {st : BayState} (ho : Follows x.other s u) (hst : st ≠ .empty ∧ st ≠ .faulted ∧ st ≠ .seating) :
    ∀ y, switchLaw (setBayState x st u) y :=
  switchLaws_of_self l (ho.trans (follows_setBayState_other x st u)) (switchLaw_of_state (by rw [setBayState_self]; exact hst))

theorem switchLaws_faulted (why : FaultReason) : ∀ y, switchLaw (faulted x why s) y :=
  switchLaws_of_self l (((follows_setBayState_other x _ s).trans (follows_updBay_other x _ _)).trans (follows_switchOff_other x _))
    (switchLaw_of_off (switchOff_self_off_or_held x _))

theorem switchLaws_enterJolt : ∀ y, switchLaw (enterJolt x s) y := by
  refine switchLaws_of_self l (follows_enterJolt_other x s) (switchLaw_of_state ?_)
  rw [(enterJolt_units x s).bays, updBay_bays, Pair.get_upd_self, setBayState_bays, Pair.get_upd_self]
  exact ⟨by simp [markJolted], by simp [markJolted], by simp [markJolted]⟩

theorem switchLaws_fallByState (hs : (s.bays.get x).state ≠ .empty ∧ (s.bays.get x).state ≠ .jolt) :
    ∀ y, switchLaw (fallByState x s) y := by
  have lost : ∀ y, switchLaw (if windowOpen s then enterJolt x s else abruptLoss x s) y := by
    split
    · exact switchLaws_enterJolt l
    · exact fun y => (follows_postProbeEnd y _ _ _).switchLaw (switchLaws_enterEmpty l _ _ y)
  unfold fallByState
  cases hst : (s.bays.get x).state
  case releasing => exact switchLaws_enterEmpty l _ _
  case faulted => exact switchLaws_enterEmpty l _ _
  case seating => exact switchLaws_enterEmpty l _ _
  case empty => exact absurd hst hs.1
  case jolt => exact absurd hst hs.2
  all_goals exact lost

end SwitchLaw

/-! ### Both switches ON -/

/-- Both bay switches are ON. -/
def bothOn (s : State) : Prop := ∀ y, s.pp.sw.get y = .on

/-- Both switches are ON only where `B` holds, or where both packs are present with close voltages. -/
def paired (B : Prop) (s : State) : Prop := bothOn s → B ∨ (voltsClose s = true ∧ ∀ y, (s.bays.get y).presence = true)

/-- From `s` to `t` no switch turns ON, and what the paralleling rule looks at stays. -/
structure Pulls (s t : State) : Prop where
  sw : ∀ y, t.pp.sw.get y = .on → s.pp.sw.get y = .on
  presence : ∀ y, (t.bays.get y).presence = (s.bays.get y).presence
  snap : ∀ y, (t.relays.get y).snap = (s.relays.get y).snap
  tables : t.tables = s.tables

section Pulls
variable {B : Prop} {s t u : State}

theorem voltsClose_congr (hs : ∀ y, (t.relays.get y).snap = (s.relays.get y).snap) (ht : t.tables = s.tables) : voltsClose t = voltsClose s := by
  unfold voltsClose vdiffMax cfg inEffect
  rw [hs, hs, ht]

theorem Pulls.trans (h : Pulls s t) (k : Pulls t u) : Pulls s u :=
  ⟨fun y e => h.sw y (k.sw y e), fun y => (k.presence y).trans (h.presence y), fun y => (k.snap y).trans (h.snap y), k.tables.trans h.tables⟩

theorem Pulls.paired (h : Pulls s t) (p : paired B s) : paired B t := fun e =>
  (p fun y => h.sw y (e y)).imp_right fun ⟨hv, hp⟩ => ⟨(voltsClose_congr h.snap h.tables).trans hv, fun y => (h.presence y).trans (hp y)⟩

theorem Pulls.units (a : SameUnits s t) : Pulls s t :=
  ⟨fun y => by rw [a.pp]; exact id, fun y => by rw [a.bays], fun y => by rw [a.relays], a.tables⟩

theorem Pulls.power (h : powerOnly s t) (hs : ∀ y, t.pp.sw.get y = .on → s.pp.sw.get y = .on) : Pulls s t :=
  ⟨hs, fun y => by rw [h.bays], fun y => by rw [h.relays], h.tables⟩

theorem Pulls.of_follows (h : powerOnly s t) (hf : ∀ y, Follows y s t) : Pulls s t := .power h fun y => sw_eq_on_of_eases (hf y)

theorem Pulls.updBay (x : BayId) {f : Bay → Bay} (hf : ∀ b, (f b).presence = b.presence) (s : State) : Pulls s (updBay x f s) :=
  ⟨fun _ => id, fun _ => presence_updBay hf, fun _ => rfl, rfl⟩

theorem Pulls.updRelay (x : BayId) {f : Relay → Relay} (hf : ∀ r, (f r).snap = r.snap) (s : State) : Pulls s (updRelay x f s) :=
  ⟨fun _ => id, fun _ => rfl, fun y => by
    rw [updRelay_relays]
    by_cases e : y = x
    · subst e; rw [Pair.get_upd_self, hf]
    · rw [Pair.get_upd_ne _ e], rfl⟩

theorem pulls_setBayState (x : BayId) (st : BayState) (s : State) : Pulls s (setBayState x st s) := by
  have e : Pulls (Machine.updRelay x (Relay.enter st) (Machine.updBay x (Bay.enter st) s)) (setBayState x st s) :=
    Pulls.units (SameUnits.recompute _)
  exact ((Pulls.updBay x (f := Bay.enter st) (fun _ => rfl) s).trans (Pulls.updRelay x (fun r => Relay.enter_snap st r) _)).trans e

theorem pulls_switchOff (x : BayId) (s : State) : Pulls s (switchOff x s) := by
  refine Pulls.power ((powerOnly.refl s).switchOff x) fun y e => ?_
  by_cases hy : y = x
  · subst hy
    rcases switchOff_self y s with h | ⟨-, h, -⟩
    · rw [h] at e; cases e
    · exact h ▸ e
  · rw [eq_other_of_ne hy] at e ⊢
    exact sw_eq_on_of_eases (follows_switchOff_other x s) e

theorem pulls_startBridge (why : BridgeReason) (s : State) : Pulls s (startBridge why s) :=
  .of_follows ((powerOnly.refl s).startBridge why) fun y => follows_startBridge y why s

theorem pulls_releaseHeld (s : State) : Pulls s (releaseHeld s) := .of_follows ((powerOnly.refl s).releaseHeld) fun y => follows_releaseHeld y s

theorem pulls_endBridge (s : State) : Pulls s (endBridge s) := .of_follows ((powerOnly.refl s).endBridge) fun y => follows_endBridge y s

theorem pulls_recompute (s : State) : Pulls s (recompute s) := .units (SameUnits.recompute s)

theorem pulls_parkDeparted (x : BayId) (save : Option (Option Half)) (s : State) : Pulls s (parkDeparted x save s) where
  sw y := by rw [(parkDeparted_units x save s).1]; exact id
  presence y := by rw [parkDeparted_bays]; exact presence_updBay (x := x) (s := s) fun _ => rfl
  snap y := by rw [(parkDeparted_units x save s).2]
  tables := ((Acts.refl s).parkDeparted x save).tables

theorem pulls_becomeEmpty (x : BayId) (save : Option (Option Half)) (d : Bool) (s : State) : Pulls s (becomeEmpty x save d s) :=
  (((pulls_parkDeparted x save s).trans (pulls_setBayState x .empty _)).trans (.units (postDeparted_units x d _))).trans (pulls_switchOff x _)

/-- Where both switches were ON only under `B`, they are so whatever becomes of the packs. -/
theorem bothOn_enterSeating {x : BayId} (h : bothOn (enterSeating x s)) : bothOn s := fun y => by
  have e := h y
  unfold enterSeating at e
  rw [setBayState_pp] at e
  exact e

theorem bothOn_enterEmpty {x : BayId} {save : Option (Option Half)} {d : Bool} (h : bothOn (enterEmpty x save d s)) : bothOn s := by
  unfold enterEmpty at h
  split at h
  · exact fun y => (pulls_becomeEmpty x save d s).sw y (bothOn_enterSeating h y)
  · exact fun y => (pulls_becomeEmpty x save d s).sw y (h y)

theorem pulls_enterJolt (x : BayId) (s : State) : Pulls s (enterJolt x s) :=
  ((pulls_setBayState x .jolt s).trans
    (Pulls.updBay x (f := markJolted (joltEarlierOf (s.bays.get x).state) (serialOf s x)) (fun _ => rfl) _)).trans (.units (enterJolt_units x s))

theorem bothOn_fallByState {x : BayId} (h : bothOn (fallByState x s)) : bothOn s := by
  have lost : bothOn (if windowOpen s then enterJolt x s else abruptLoss x s) → bothOn s := by
    split
    · exact fun h y => (pulls_enterJolt x s).sw y (h y)
    · exact fun h => bothOn_enterEmpty (x := x) fun y => (Pulls.units (postProbeEnd_units _ x _ _)).sw y (h y)
  unfold fallByState at h
  split at h
  · exact lost h
  · exact lost h
  · exact lost h
  · exact bothOn_enterEmpty h
  · exact bothOn_enterEmpty h
  · exact bothOn_enterEmpty h
  · exact h
  · exact h

theorem bothOn_afterLoss {x : BayId} (h : bothOn (afterLoss x s)) : bothOn s := fun y => by
  have e := sw_eq_on_of_eases (follows_endLink y x _) (bothOn_fallByState h y)
  rw [recompute_pp] at e
  exact e

theorem bothOn_presenceRises {x : BayId} (h : bothOn (presenceRises x s)) : bothOn s :=
  fun y => (sw_eq_on_of_eases (follows_presenceRises y x s) (h y) :)

/-! ### Turning ON -/

/-- R6: the release of held switches turns OFF a held switch of a bay that is not ONLINE beside a conducting bay whose switch is not held. -/
theorem sw_releaseHeld_of_held {y : BayId} (hh : s.pp.held.get y = true) (hs : (s.bays.get y).state ≠ .online)
    (hc : conductsBay s y.other = true) (hx : s.pp.held.get y.other = false) : (releaseHeld s).pp.sw.get y = .off := by
  have conducts : otherConducts s y = true := by unfold otherConducts; rw [hc]; simp
  have released : (releaseHeldOne y s).pp.sw.get y = .off := by
    unfold releaseHeldOne
    rw [if_pos ⟨hh, hs, conducts⟩, sw_setSwitch, Pair.get_upd_self]
  have kept : releaseHeldOne y.other s = s := by
    unfold releaseHeldOne
    rw [hx]
    exact if_neg fun e => by cases e.1
  unfold releaseHeld
  cases y
  · rcases (follows_releaseHeldOne .A .B (releaseHeldOne .A s)).switch with ⟨e, -⟩ | ⟨-, e⟩ | ⟨-, -, e⟩
    · exact e.trans released
    · exact e
    · exact e.trans released
  · exact (congrArg (fun u => (releaseHeldOne .B u).pp.sw.get .B) kept).trans released

/-- R4, R6: turning ON the switch of a present pack turns OFF the held switch of the other bay where that bay is not ONLINE. -/
theorem sw_switchOn_other_of_held {x : BayId} (hsw : s.pp.sw.get x ≠ .on) (hp : (s.bays.get x).presence = true)
    (hh : s.pp.held.get x.other = true) (hs : (s.bays.get x.other).state ≠ .online) : (switchOn x s).pp.sw.get x.other = .off := by
  unfold switchOn
  rw [if_neg hsw, if_pos hp]
  have held_endBridge : ∀ u : State, (endBridge u).pp.held = u.pp.held := fun u => by
    unfold endBridge updPower
    split
    · rfl
    · rw [recompute_pp]
  refine sw_releaseHeld_of_held ?_ ?_ ?_ ?_
  · rw [held_endBridge, held_setSwitch, Pair.get_upd_other]; exact hh
  · rw [endB_bays, setSwitch_bays]; exact hs
  · rw [conductsBay_iff, (endBridge_pp _).1, endB_bays, setSwitch_bays, other_other, sw_setSwitch, Pair.get_upd_self]
    exact ⟨by decide, hp⟩
  · rw [held_endBridge, held_setSwitch, other_other, Pair.get_upd_self]

/-- R34: turning ON the switch of a present pack turns OFF the switch of a jolted bay. -/
theorem sw_requestOn_other_of_jolt {x : BayId} (hsw : s.pp.sw.get x ≠ .on) (hp : (s.bays.get x).presence = true)
    (hj : (s.bays.get x.other).state = .jolt) : (requestOn x s).pp.sw.get x.other ≠ .on := by
  unfold requestOn
  split
  · refine fun e => ?_
    rw [sw_switchOff_of_conducts] at e
    · cases e
    · have : conductsBay (switchOn x s) x = true := by
        rw [conductsBay_iff, (switchOn_self x s).1, on_bays]; exact ⟨by decide, hp⟩
      unfold otherConducts
      rw [other_other, this]
      simp
  · next hc => exact fun e => hc ⟨hsw, by rw [on_bays]; exact hj, e⟩

/-- R24: where the request leaves both switches ON, they both were ON, or the rule allowed it on close voltages. -/
theorem paired_online {x : BayId} (l : ∀ y, bayLaw s y) (k : ∀ y, switchLaw s y) (hj : mayJoin x s) (p : paired B s) :
    paired B (setBayState x .online (requestOn x s)) := by
  intro both
  have present : (s.bays.get x).presence = true := bayLaw_presence l (by rcases hj.1 with e | e | e <;> simp [e, steady])
  have other : (requestOn x s).pp.sw.get x.other = .on := by have := both x.other; rwa [setBayState_pp] at this
  have otherOn : s.pp.sw.get x.other = .on := sw_eq_on_of_eases (follows_requestOn_other x s) other
  have acts := ((Acts.refl s).requestOn x).setBayState x .online
  have close : voltsClose (setBayState x .online (requestOn x s)) = voltsClose s := voltsClose_congr (fun y => by
    rw [(pulls_setBayState x .online _).snap, ((powerOnly.refl s).requestOn x).relays]) acts.tables
  have goal : bothOn s ∨ (voltsClose s = true ∧ ∀ y, (s.bays.get y).presence = true) := by
    by_cases hsw : s.pp.sw.get x = .on
    · exact .inl fun y => by
        by_cases hy : y = x
        · exact hy ▸ hsw
        · exact eq_other_of_ne hy ▸ otherOn
    · have allows := hj.2.resolve_left hsw
      by_cases hp : (s.bays.get x.other).presence = true
      · refine .inr ⟨?_, fun y => ?_⟩
        · unfold parallelAllows at allows; rwa [if_pos ⟨otherOn, hp⟩] at allows
        · by_cases hy : y = x
          · exact hy ▸ present
          · exact eq_other_of_ne hy ▸ hp
      · exfalso
        have held : (s.bays.get x.other).state = .empty ∨ (s.bays.get x.other).state = .seating → s.pp.held.get x.other = true := by
          rintro (e | e)
          · exact ((k x.other).1 (.inl e)).resolve_left (by rw [otherOn]; decide)
          · rcases (k x.other).2 e with h | h | h
            · rw [otherOn] at h; cases h
            · exact h
            · exact absurd h.2 hp
        have released : (s.bays.get x.other).state = .empty ∨ (s.bays.get x.other).state = .seating → False := fun e => by
          have off := sw_switchOn_other_of_held hsw present (held e) (by rcases e with e | e <;> rw [e] <;> decide)
          unfold requestOn at other
          have stays : ¬ (s.pp.sw.get x ≠ .on ∧ ((switchOn x s).bays.get x.other).state = .jolt ∧ (switchOn x s).pp.sw.get x.other = .on) :=
            fun c => by have := c.2.2; rw [off] at this; cases this
          rw [if_neg stays, off] at other
          cases other
        have law := bayLaw_presence (x := x.other) l
        cases hst : (s.bays.get x.other).state
        case empty => exact released (.inl hst)
        case seating => exact released (.inr hst)
        case jolt => exact sw_requestOn_other_of_jolt hsw present hst other
        all_goals exact hp (law (by rw [hst]; simp [steady]))
  rcases goal with h | ⟨hv, hp⟩
  · refine (p h).imp_right fun ⟨hv, hp⟩ => ⟨close.trans hv, fun y => (presence_of_acts acts y).trans (hp y)⟩
  · exact .inr ⟨close.trans hv, fun y => (presence_of_acts acts y).trans (hp y)⟩

end Pulls

/-! ### The rows -/

/-- The bay law, the switch law, and both switches ON only under `B`. -/
def pairFrom (B : Prop) (s : State) : Prop := (∀ y, bayLaw s y) ∧ (∀ y, switchLaw s y) ∧ (bothOn s → B)

/-- The bay law, the switch law, and both switches ON only under `B` or by the paralleling rule. -/
def pairTo (B : Prop) (s : State) : Prop := (∀ y, bayLaw s y) ∧ (∀ y, switchLaw s y) ∧ paired B s

theorem calm_switchLaws : Calm (fun s => ∀ y, switchLaw s y) where
  units _ _ a l y := (Follows.units a).switchLaw (l y)
  bay x f s hf l := switchLaws_of_self (l x.other) (follows_updBay_other x f s) (by
    unfold switchLaw
    rw [updBay_bays, Pair.get_upd_self, (hf _).1, (hf _).2.2]
    exact l x)
  relay x f s _ l := switchLaws_of_self (l x.other) (follows_updRelay_other x f s) (l x)

section PairRows
variable {B : Prop}

theorem calm_pairFrom : Calm (pairFrom B) where
  units s t a h := ⟨calm_bayLaws.units s t a h.1, calm_switchLaws.units s t a h.2.1, fun e => h.2.2 fun y => (Pulls.units a).sw y (e y)⟩
  bay x f s hf h := ⟨calm_bayLaws.bay x f s hf h.1, calm_switchLaws.bay x f s hf h.2.1, h.2.2⟩
  relay x f s hf h := ⟨calm_bayLaws.relay x f s hf h.1, calm_switchLaws.relay x f s hf h.2.1, h.2.2⟩

theorem paired_updRelay {x : BayId} {f : Relay → Relay} {s : State} (hf : (f (s.relays.get x)).snap = (s.relays.get x).snap)
    (p : paired B s) : paired B (updRelay x f s) := by
  have snaps : ∀ y, ((updRelay x f s).relays.get y).snap = (s.relays.get y).snap := fun y => by
    rw [updRelay_relays]
    by_cases e : y = x
    · subst e; rw [Pair.get_upd_self, hf]
    · rw [Pair.get_upd_ne _ e]
  exact (Pulls.mk (s := s) (t := updRelay x f s) (fun _ => id) (fun _ => rfl) snaps rfl).paired p

theorem calm_pairTo : Calm (pairTo B) where
  units s t a h := ⟨calm_bayLaws.units s t a h.1, calm_switchLaws.units s t a h.2.1, (Pulls.units a).paired h.2.2⟩
  bay x f s hf h := ⟨calm_bayLaws.bay x f s hf h.1, calm_switchLaws.bay x f s hf h.2.1, (Pulls.updBay x (fun b => (hf b).2.2) s).paired h.2.2⟩
  relay x f s hf h := ⟨calm_bayLaws.relay x f s hf h.1, calm_switchLaws.relay x f s hf h.2.1, paired_updRelay hf.1 h.2.2⟩

section PairOps
variable {s : State} {x : BayId}

theorem pairTo_online (hj : mayJoin x s) (h : pairTo B s) : pairTo B (setBayState x .online (requestOn x s)) :=
  ⟨bayLaws_online h.1 hj, switchLaws_setBayState (h.2.1 _) (follows_requestOn_other x s) (by decide), paired_online h.1 h.2.1 hj h.2.2⟩

theorem pairTo_standby (hs : (s.bays.get x).state = .releasing ∨ (s.bays.get x).state = .probing) (h : pairTo B s) :
    pairTo B (setBayState x .standby (switchOff x s)) :=
  ⟨bayLaws_standby h.1 hs, switchLaws_setBayState (h.2.1 _) (follows_switchOff_other x s) (by decide),
    ((pulls_switchOff x s).trans (pulls_setBayState x .standby _)).paired h.2.2⟩

theorem pairTo_release (k : HandoverKind) (hr : mayLeave x s) (h : pairTo B s) : pairTo B (releaseBay x k (switchOff x s)) :=
  ⟨bayLaws_release h.1 k hr,
    switchLaws_setBayState (h.2.1 _) ((follows_switchOff_other x s).trans (follows_updBay_other x (markReleased k) _)) (by decide),
    (((pulls_switchOff x s).trans (Pulls.updBay x (f := markReleased k) (fun _ => rfl) _)).trans (pulls_setBayState x .releasing _)).paired h.2.2⟩

theorem pairTo_faulted (why : FaultReason) (hs : servedState (s.bays.get x).state = true) (h : pairTo B s) : pairTo B (faulted x why s) :=
  ⟨bayLaws_faulted h.1 why hs, switchLaws_faulted (h.2.1 _) why,
    (((pulls_setBayState x .faulted s).trans (Pulls.updBay x (f := markFaulted why) (fun _ => rfl) _)).trans (pulls_switchOff x _)).paired h.2.2⟩

theorem pairTo_follows {t : State} (hp : powerOnly s t) (f : ∀ y, Follows y s t) (h : pairTo B s) : pairTo B t :=
  ⟨fun y => (f y).bayLaw (h.1 y), fun y => (f y).switchLaw (h.2.1 y), (Pulls.of_follows hp f).paired h.2.2⟩

theorem pairTo_expire (v : Option Half) (hj : (s.bays.get x).state = .jolt) (h : pairTo B s) : pairTo B (enterEmpty x (some v) false s) := by
  have absent := (h.1 x).1 (.inr hj)
  refine ⟨bayLaws_enterEmpty _ _ (h.1 _) absent, switchLaws_enterEmpty (h.2.1 _) _ _, fun e => .inl ?_⟩
  refine (h.2.2 (bothOn_enterEmpty e)).resolve_right fun ⟨_, hp⟩ => ?_
  rw [hp x] at absent
  cases absent

/-- A change before which both switches were ON only under `B`, and that turns none ON. -/
theorem pairTo_of_from {t : State} (hl : ∀ y, bayLaw t y) (hk : ∀ y, switchLaw t y) (hb : bothOn t → bothOn s) (h : pairFrom B s) : pairTo B t :=
  ⟨hl, hk, fun e => .inl (h.2.2 (hb e))⟩

theorem pairTo_extFollows {t : State} (f : ∀ y, Follows y s t) (h : pairFrom B s) : pairTo B t :=
  pairTo_of_from (fun y => (f y).bayLaw (h.1 y)) (fun y => (f y).switchLaw (h.2.1 y)) (fun e y => sw_eq_on_of_eases (f y) (e y)) h

theorem pairTo_powerOn (l : Lines) (s : State) : pairTo B (powerOn l s) := by
  refine ⟨bayLaw_powerOn l s, switchLaw_powerOn l s, fun e => ?_⟩
  have := e .A
  rw [powerOn_pp] at this
  cases hp : l.presA <;> rw [Pair.get, hp] at this <;> cases this

theorem pairFrom_power (p : PowerPath) (hsw : p.sw = s.pp.sw) (hheld : p.held = s.pp.held) (h : pairFrom B s) :
    pairFrom B { s with pp := p } := by
  refine ⟨bayLaws_power h.1 hsw hheld, fun y => ?_, fun e => h.2.2 fun y => by rw [← hsw]; exact e y⟩
  have l := h.2.1 y
  unfold switchLaw at l ⊢
  rw [← hsw, ← hheld] at l
  exact l

theorem pairFrom_line (v : Bool) (hv : ¬ (v = true ∧ (s.bays.get x).state = .empty ∧ (s.bays.get x).presence = false)) (h : pairFrom B s) :
    pairFrom B (updBay x (fun b => { b with presLine := v }) s) := by
  refine ⟨bayLaws_line h.1 v hv, switchLaws_of_self (h.2.1 _) (follows_updBay_other x _ s) ?_, h.2.2⟩
  unfold switchLaw
  rw [updBay_bays, Pair.get_upd_self]
  exact h.2.1 x

theorem pairTo_seat (hst : (s.bays.get x).state = .empty) (h : pairFrom B s) :
    pairTo B (enterSeating x (updBay x (fun b => { b with presLine := true }) s)) := by
  refine pairTo_of_from (s := s) (bayLaws_seat h.1) ?_
    (bothOn_enterSeating (s := updBay x (fun b => { b with presLine := true }) s)) h
  refine switchLaws_of_self (h.2.1 _) ((follows_updBay_other x _ s).trans (follows_enterSeating_other x _)) (switchLaw_of_off ?_)
  unfold enterSeating
  rw [setBayState_pp]
  exact (h.2.1 x).1 (.inl hst)

theorem pairTo_unseat (hst : (s.bays.get x).state = .seating) (hl : (s.bays.get x).presLine = false) (hp : (s.bays.get x).presence = false)
    (h : pairFrom B s) : pairTo B (setBayState x .empty s) := by
  refine pairTo_of_from (bayLaws_unseat h.1 hl hp) ?_ (fun e y => (pulls_setBayState x .empty s).sw y (e y)) h
  refine switchLaws_of_self (h.2.1 _) (follows_setBayState_other x _ s) (switchLaw_of_off ?_)
  rw [setBayState_pp]
  exact ((h.2.1 x).2 hst).imp_right fun e => e.resolve_right fun e => by rw [hp] at e; cases e.2

theorem pairTo_lost (hp : (s.bays.get x).presence = true) (h : pairFrom B s) : pairTo B (afterLoss x s) := by
  refine pairTo_of_from (bayLaws_afterLoss h.1 hp) (switchLaws_fallByState ?_ ?_) (fun e => bothOn_afterLoss e) h
  · exact (((follows_updBay_other x _ s).trans (follows_recompute _ _)).trans (follows_endLink _ x _)).switchLaw (h.2.1 _)
  · rw [get_beforeFall]
    have absent : ¬ ((s.bays.get x).state = .empty ∨ (s.bays.get x).state = .jolt) := fun e => by
      have := (h.1 x).1 e
      rw [hp] at this
      cases this
    exact ⟨fun e => absent (.inl e), fun e => absent (.inr e)⟩

theorem pairTo_rise (hl : (s.bays.get x).presLine = true) (hs : (s.bays.get x).state ≠ .jolt)
    (h : pairFrom B s) : pairTo B (presenceRises x s) := by
  refine pairTo_of_from (bayLaws_rise h.1 hl hs) ?_ (fun e => bothOn_presenceRises e) h
  refine switchLaws_of_self (h.2.1 _) (follows_presenceRises_other x s) ((follows_presenceRises x x s).switchLaw ?_)
  unfold switchLaw
  rw [updBay_bays, Pair.get_upd_self]
  exact ⟨(h.2.1 x).1, fun e => ((h.2.1 x).2 e).imp_right (Or.imp_right fun e => ⟨e.1, rfl⟩)⟩

theorem bothOn_afterReturn (h : bothOn (afterReturn x s)) : bothOn s := bothOn_presenceRises fun y => by
  have := h y
  unfold afterReturn at this
  rw [setBayState_pp, recompute_pp] at this
  exact this

theorem pairTo_back (h : pairFrom B s) : pairTo B (afterReturn x s) := by
  refine pairTo_of_from (bayLaws_afterReturn h.1) ?_ (fun e => bothOn_afterReturn e) h
  refine switchLaws_of_self (h.2.1 _) (follows_afterReturn_other x s) (switchLaw_of_state ?_)
  unfold afterReturn
  rw [setBayState_self]
  decide

end PairOps

theorem pair_ops (i : Instr) : RowOps True i (pairFrom B) (pairTo B) where
  before := calm_pairFrom
  after := calm_pairTo
  done _ _ _ h := calm_pairTo.post _ _ h
  refused _ _ _ h := calm_pairTo.post _ _ h
  mark x f s hf h := calm_pairTo.bay x f s (fun b => by rw [hf b]; exact ⟨rfl, rfl, rfl⟩) h
  online _ _ hj h := pairTo_online (hj trivial) h
  standby _ _ hs h := pairTo_standby (hs trivial) h
  release _ k _ hr h := pairTo_release k (hr trivial) h
  bridge why s h := pairTo_follows ((powerOnly.refl s).startBridge why) (fun y => follows_startBridge y why s) h
  note _ _ _ h := calm_pairTo.post _ _ h
  lines f s h := calm_pairTo.units s (mapCache f s) ⟨rfl, rfl, rfl, rfl⟩ h
  fault _ why _ hs h := pairTo_faulted why (hs trivial) h
  record := calm_pairTo.bay
  probing x s hs h := ⟨bayLaws_enterProbing h.1 (hs trivial), switchLaws_setBayState (h.2.1 _) (Follows.refl _ s) (by decide),
    (pulls_setBayState x .probing s).paired h.2.2⟩
  probe x p s hs h := ⟨bayLaws_probe h.1 p (hs trivial), switchLaws_of_self (h.2.1 _) (follows_updRelay_other x _ s) (h.2.1 x),
    paired_updRelay rfl h.2.2⟩
  outside s t a h := calm_pairTo.units s t ⟨a.pp, a.bays, a.relays, a.tables⟩ h
  expire _ v _ hj h := pairTo_expire v (hj trivial) h
  weaken _ h := ⟨h.1, h.2.1, fun e => .inl (h.2.2 e)⟩
  tables _ _ h := h
  power p _ hsw hheld _ _ h := pairFrom_power p hsw hheld h
  probed _ x s h := (h.1 x).2.2.2.2.2.2
  store x t v s h := ⟨bayLaws_store h.1 t v, switchLaws_of_self (h.2.1 _) (follows_updRelay_other x _ s) (h.2.1 x),
    fun e => .inl (h.2.2 e)⟩
  por l s _ _ := pairTo_powerOn l s
  extUp s h := pairTo_extFollows (s := post (.presence .ext) dArrived (setExt true s))
    (fun y => ((follows_recompute y _).trans (follows_releaseHeld y _)).trans (follows_endBridge y _)) h
  extDown s _ h := pairTo_extFollows (s := post (.presence .ext) dDeparted (setExt false s)) (fun y => follows_recompute y _) h
  line _ v _ hv h := pairFrom_line v hv h
  seat _ _ hst _ h := pairTo_seat hst h
  unseat _ _ hst hl hp h := pairTo_unseat hst hl hp h
  lost _ _ _ _ hp h := pairTo_lost hp h
  rise _ _ _ hl hs h := pairTo_rise hl hs h
  back _ _ _ _ h := pairTo_back h

end PairRows

/-- R24: what `voltsClose` says of the two VOLTAGE snapshots. -/
theorem voltsClose_iff {s : State} : voltsClose s = true ↔ ∃ v w, s.relays.a.snap.voltage = some v ∧ s.relays.b.snap.voltage = some w
    ∧ v.toNat ≤ w.toNat + vdiffMax s ∧ w.toNat ≤ v.toNat + vdiffMax s := by
  unfold voltsClose
  show (match s.relays.a.snap.voltage, s.relays.b.snap.voltage with | some v, some w => _ | _, _ => false) = true ↔ _
  split
  · next v w hv hw =>
    rw [decide_eq_true_iff]
    constructor
    · exact fun h => ⟨v, w, hv, hw, by omega, by omega⟩
    · rintro ⟨v', w', hv', hw', h1, h2⟩
      obtain rfl : v = v' := Option.some.inj (hv.symm.trans hv')
      obtain rfl : w = w' := Option.some.inj (hw.symm.trans hw')
      omega
  · next h =>
    constructor
    · intro e; cases e
    · rintro ⟨v, w, hv, hw, -⟩
      exact absurd hw (h v w hv)

theorem switchLaw_tick {s : State} {x : BayId} (l : switchLaw s x) : switchLaw (tickTimers s) x := by
  unfold switchLaw
  rw [get_tickTimers]
  exact l

/-- Settles O53: the laws go through each row together, with both switches ON only where they were, or where the rule has let them. -/
theorem bothSwitchesTurnOnOnlyByTheParallelingRule : Obligations.BothSwitchesTurnOnOnlyByTheParallelingRule := by
  constructor
  · intro s t l k e
    have kept := step_keeps (P := fun s => (∀ y, bayLaw s y) ∧ ∀ y, switchLaw s y) (fun _ _ h => h)
      (fun s h => ⟨fun y => bayLaw_tick (h.1 y), fun y => switchLaw_tick (h.2 y)⟩) (fun i s t h e => by
        obtain ⟨hl, hk, -⟩ := exec_steps (A := pairFrom True) (B := pairTo True) (fun i => (pair_ops i).steps) i s t ⟨h.1, h.2, fun _ => trivial⟩ e
        exact ⟨hl, hk⟩) ⟨l, k⟩ e
    exact kept.2
  · intro i s t l k e ha hb
    obtain ⟨-, -, both⟩ := exec_steps (A := pairFrom (bothOn s)) (B := pairTo (bothOn s)) (fun i => (pair_ops i).steps) i s t ⟨l, k, id⟩ e
    rcases both (fun y => by cases y; exacts [ha, hb]) with h | ⟨h, -⟩
    · exact .inl ⟨h .A, h .B⟩
    · exact .inr (voltsClose_iff.1 h)

end Sys2Proof.Machine
end

