-- ==== Sys2Proof/Proofs/IdleSteps.lean ====
section
/-! PROOFS. What a step does on an empty queue: the link actions that are due, or one tick with the rows of the timers that ran out. -/

namespace Sys2Proof.Machine

theorem isSome_and_isNone {α β : Type} (a : Option α) (b : Option β) : (a.isSome && b.isNone) = true ↔ a ≠ none ∧ b = none := by
  cases a <;> cases b <;> simp

theorem linkFree_iff (s : State) (x : BayId) : linkFree s x = true ↔ (s.relays.get x).link = none ∧ (s.relays.get x).slot = none := by
  unfold linkFree
  simp

theorem probeReady_iff (s : State) (x : BayId) : probeReady s x = true ↔ (s.bays.get x).state = .probing ∧ (s.relays.get x).link = none
    ∧ (s.relays.get x).slot = none ∧ ((s.relays.get x).probe.bind fun p => p.reads.head?) ≠ none := by
  unfold probeReady
  rw [Bool.and_eq_true, Bool.and_eq_true, linkFree_iff, beq_iff_eq]
  cases hp : (s.relays.get x).probe with
  | none => simp
  | some p => cases hr : p.reads <;> simp [hr]

theorem pollInFlight_iff (r : Relay) : pollInFlight r = true ↔ r.link.map PackTx.purpose = some .poll := by
  unfold pollInFlight
  cases r.link <;> simp

theorem retryReady_iff (s : State) (x : BayId) : retryReady s x = true ↔ (s.relays.get x).poll ≠ none
    ∧ (s.relays.get x).link.map PackTx.purpose ≠ some .poll ∧ (((s.relays.get x).link = none ∧ (s.relays.get x).slot = none)
      ∨ steady (s.bays.get x).state = false ∨ (s.relays.get x).recover ≠ .notRunning) := by
  unfold retryReady
  rw [Bool.and_eq_true, Bool.and_eq_true, Bool.or_eq_true, Bool.or_eq_true, linkFree_iff, Bool.not_eq_true', bne_iff_ne,
    ← Bool.not_eq_true, pollInFlight_iff, Option.isSome_iff_ne_none]
  simp only [Bool.not_eq_true', and_assoc, or_assoc]

theorem pollReady_iff (s : State) (x : BayId) : pollReady s x = true ↔ (s.relays.get x).pollDue = true ∧ (s.relays.get x).link = none
    ∧ (s.relays.get x).slot = none ∧ (s.relays.get x).ring[(s.relays.get x).ptr]? ≠ none := by
  unfold pollReady
  rw [Bool.and_eq_true, Bool.and_eq_true, linkFree_iff, Option.isSome_iff_ne_none]
  simp only [and_assoc]

/-- R57, R60 to R62, R66: the link action of a bay that is due. -/
theorem linkAction_eq (s : State) (x : BayId) : linkAction s x =
    if (s.relays.get x).slot ≠ none ∧ (s.relays.get x).link = none then [.slotTransactionStart x]
    else if (s.relays.get x).recover = .waiting ∧ (s.relays.get x).link = none then [.linkRecoverBegin x]
    else if (s.bays.get x).state = .probing ∧ (s.relays.get x).link = none ∧ (s.relays.get x).slot = none
        ∧ ((s.relays.get x).probe.bind fun p => p.reads.head?) ≠ none then [.probeReadStart x]
    else if (s.relays.get x).poll ≠ none ∧ (s.relays.get x).link.map PackTx.purpose ≠ some .poll
        ∧ (((s.relays.get x).link = none ∧ (s.relays.get x).slot = none) ∨ steady (s.bays.get x).state = false
            ∨ (s.relays.get x).recover ≠ .notRunning) then [.pollRetry x]
    else if (s.relays.get x).pollDue = true ∧ (s.relays.get x).link = none ∧ (s.relays.get x).slot = none
        ∧ (s.relays.get x).ring[(s.relays.get x).ptr]? ≠ none then [.pollStart x]
    else [] := by
  unfold linkAction
  exact if_congr (isSome_and_isNone _ _) rfl (if_congr (by simp) rfl (if_congr (probeReady_iff s x) rfl
    (if_congr (retryReady_iff s x) rfl (if_congr (pollReady_iff s x) rfl rfl))))

/-! ### The tick -/

theorem mem_rowIf {c : Bool} {i j : Instr} : i ∈ rowIf c j ↔ c = true ∧ i = j := by
  unfold rowIf
  cases c <;> simp

theorem mem_checkRow {s : State} {r : RegionId} {i : Instr} :
    i ∈ checkRow s r ↔ (s.tables.get r).state = .checking ∧ i = .tableCheckEnd r := by
  unfold checkRow
  rw [mem_rowIf, beq_iff_eq]

theorem mem_secondRows {n : Nat} {i : Instr} :
    i ∈ (if n = 0 then secondRows else []) ↔ n = 0 ∧ (i = .uptimeTick ∨ i = .contextWindowExpiry .A ∨ i = .contextWindowExpiry .B) := by
  by_cases h : n = 0 <;> simp [h, secondRows]

theorem timeoutOut_iff (r : Relay) : timeoutOut r = true ↔ r.link.map PackTx.timeout = some 0 := by
  unfold timeoutOut
  cases r.link <;> simp

theorem jolted0_iff (b : Bay) : jolted0 b = true ↔ b.jolt.map JoltRecord.hold = some (.running 0) := by
  unfold jolted0
  cases b.jolt <;> simp

/-- The rows that a tick queues, one disjunct for each. -/
theorem mem_tickRows (s : State) (i : Instr) : i ∈ tickRows s ↔
    (s.pp.bridge = .running ∧ bridgeMax s ≤ s.pp.timer) ∧ i = .bridgeExpiry
    ∨ (∃ x, (s.bays.get x).presDeb = some 0 ∧ i = .presenceDebounceExpiry x)
    ∨ (∃ x, (s.bays.get x).latchDeb = some 0 ∧ i = .latchDebounceExpiry x)
    ∨ (∃ x, (s.relays.get x).link.map PackTx.timeout = some 0 ∧ i = .linkTimeout x)
    ∨ (∃ x, (s.bays.get x).jolt.map JoltRecord.hold = some (.running 0) ∧ i = .joltHoldExpiry x)
    ∨ s.motion.stall = some 0 ∧ i = .stallTimeout
    ∨ s.motion.hold = some 0 ∧ i = .windowHoldExpiry
    ∨ (∃ r, (s.tables.get r).state = .checking ∧ i = .tableCheckEnd r)
    ∨ s.pollTimer = 0 ∧ i = .pollPeriodExpiry
    ∨ s.time.ageMs = 0 ∧ i = .ageTick
    ∨ s.time.secondMs = 0 ∧ (i = .uptimeTick ∨ ∃ x, i = .contextWindowExpiry x) := by
  have bays : ∀ p : BayId → Prop, (∃ x, p x) ↔ p .A ∨ p .B :=
    fun p => ⟨fun ⟨x, h⟩ => by cases x; exacts [.inl h, .inr h], fun h => h.elim (fun h => ⟨_, h⟩) fun h => ⟨_, h⟩⟩
  have regions : ∀ p : RegionId → Prop, (∃ r, p r) ↔ p .config ∨ p .codemap ∨ p .curve ∨ p .motion :=
    fun p => ⟨fun ⟨r, h⟩ => by cases r <;> simp [h], fun h => by rcases h with h | h | h | h <;> exact ⟨_, h⟩⟩
  unfold tickRows
  simp only [List.mem_append, mem_rowIf, mem_checkRow, mem_secondRows, timeoutOut_iff, jolted0_iff, bays, regions, beq_iff_eq,
    Bool.and_eq_true, decide_eq_true_eq, or_assoc, Pair.get]

section Tick
variable (s : State)

theorem get_relays_tickTimers (x : BayId) : (tickTimers s).relays.get x = tickRelay (s.relays.get x) := by cases x <;> rfl

theorem tickBay_eq (b : Bay) : tickBay b = { b with
    presDeb := b.presDeb.map (· - 1), latchDeb := b.latchDeb.map (· - 1),
    jolt := b.jolt.map fun j => { j with hold := match j.hold with | .running ms => .running (ms - 1) | h => h } } := by
  unfold tickBay
  congr 1

/-- At a second the uptime and the tests of the contexts come last. -/
theorem tickRows_second (h : s.time.secondMs = 0) :
    ∃ l, tickRows s = l ++ [.uptimeTick, .contextWindowExpiry .A, .contextWindowExpiry .B] := ⟨_, by
  unfold tickRows
  rw [if_pos h]
  rfl⟩

end Tick

/-- Settles O2: on an empty queue the part queues what is due, and otherwise ticks. -/
theorem emptyQueueIsOneTick : Obligations.EmptyQueueIsOneTick := by
  intro s due hq hdue
  have actions : due .A ++ due .B = linkActions s := by rw [hdue, hdue, ← linkAction_eq, ← linkAction_eq]; rfl
  rw [actions, step_of_nil hq]
  refine ⟨fun h => by unfold idle; rw [if_neg h], fun h => ⟨tick s, by unfold idle; rw [if_pos h], rfl, fun x => ?_, fun x => ?_, rfl, rfl,
    rfl, ?_⟩⟩
  · exact (get_tickTimers x s).trans (tickBay_eq _)
  · exact get_relays_tickTimers s x
  have mem := mem_tickRows (tickTimers s)
  refine ⟨(mem _).trans (by simp; rfl), fun x => (mem _).trans (by simp; rfl), fun x => (mem _).trans (by simp; rfl),
    fun x => (mem _).trans (by simp; rfl), fun x => (mem _).trans (by simp; rfl), (mem _).trans (by simp; rfl), (mem _).trans (by simp; rfl),
    fun r => (mem _).trans (by simp; rfl), (mem _).trans (by simp; rfl), (mem _).trans (by simp; rfl), (mem _).trans (by simp; rfl),
    fun x => (mem _).trans (by simp; rfl), tickRows_second (tickTimers s), fun i hi => ?_, rfl, rfl, rfl, rfl, rfl, rfl, rfl, rfl, rfl, rfl, rfl⟩
  rcases (mem i).1 hi with ⟨-, e⟩ | ⟨x, -, e⟩ | ⟨x, -, e⟩ | ⟨x, -, e⟩ | ⟨x, -, e⟩ | ⟨-, e⟩ | ⟨-, e⟩ | ⟨r, -, e⟩ | ⟨-, e⟩ | ⟨-, e⟩ | ⟨-, e | ⟨x, e⟩⟩ <;>
    simp [e]

end Sys2Proof.Machine
end

