-- ==== Sys2Proof/Proofs/PowerRows.lean ====
section
/-! PROOFS. Power-on reset, the choices between two bays, and the rows of the bridge. -/

namespace Sys2Proof.Machine

/-! ### What stands in the Attention Queue -/

section Queued
variable {s t : State} {k : AttnKey} {d : Detail}

theorem queued_of_attn (ha : t.attn = s.attn) (h : queued s k d) : queued t k d := by unfold queued; rw [ha]; exact h

/-- R197: the posting of another pair leaves an entry as it is. -/
theorem mem_coalesce_of_ne {e : AttnEntry} {k' : AttnKey} (d' : Detail) (now : Nat) {q : List AttnEntry} (hk : k' ≠ e.key) (h : e ∈ q) :
    e ∈ coalesce k' d' now q := by
  induction q with
  | nil => cases h
  | cons a rest ih =>
    unfold coalesce
    split
    · next ha =>
      rcases List.mem_cons.1 h with rfl | h
      · exact absurd ha.symm hk
      · exact List.mem_cons_of_mem _ h
    · rcases List.mem_cons.1 h with rfl | h
      · exact List.mem_cons_self
      · exact List.mem_cons_of_mem _ (ih h)

theorem queued_post_of_ne {k' : AttnKey} (d' : Detail) (hk : k' ≠ k) (h : queued s k d) : queued (post k' d' s) k d := by
  obtain ⟨e, he, hek, hed⟩ := h
  exact ⟨e, mem_coalesce_of_ne d' _ (hek ▸ hk) he, hek, hed⟩

/-- R114: a recomputation posts BUDGET_CUT alone. -/
theorem queued_recompute (hk : k ≠ .budgetCut) (h : queued s k d) : queued (recompute s) k d := by
  have cut : queued (post .budgetCut (dCeiling (computeBudget s).c) s) k d := queued_post_of_ne _ (Ne.symm hk) h
  unfold queued
  rw [recompute_eq]
  show ∃ e ∈ (cutAttn _ _ s).queue, _
  unfold cutAttn
  split
  · exact cut
  · exact h

end Queued

/-! ### Choices between two bays (R24, R33, R50, R51) -/

section Choices
variable {s : State}

theorem canTakeOver_iff {x : BayId} : canTakeOver s x = true ↔ (s.bays.get x).state = .standby ∧ (s.bays.get x).presence = true := by
  unfold canTakeOver
  simp

theorem takeOverBay_of_both (ha : canTakeOver s .A = true) (hb : canTakeOver s .B = true) :
    takeOverBay s = if voltageRank s .A < voltageRank s .B then some .B else some .A := by
  unfold takeOverBay
  rw [if_pos ha]
  exact if_congr (and_iff_right hb) rfl rfl

theorem takeOverBay_none : takeOverBay s = none ↔ ∀ x, canTakeOver s x = false := by
  unfold takeOverBay
  constructor
  · intro h x
    split at h
    · split at h <;> cases h
    · next ha =>
      split at h
      · cases h
      · next hb =>
        cases x
        · exact Bool.not_eq_true _ ▸ ha
        · exact Bool.not_eq_true _ ▸ hb
  · intro h
    rw [h .A, h .B]
    rfl

theorem takeOverBay_of_other {x : BayId} (hx : canTakeOver s x = false) (ho : canTakeOver s x.other = true) : takeOverBay s = some x.other := by
  unfold takeOverBay
  cases x
  · rw [if_neg (by simp [hx]), if_pos (show canTakeOver s .B = true from ho)]; rfl
  · rw [if_pos (show canTakeOver s .A = true from ho), if_neg (by simp [hx])]; rfl

theorem voltageRank_of_some {x : BayId} {v : Half} (h : (s.relays.get x).snap.voltage = some v) : voltageRank s x = v.toNat + 1 := by
  unfold voltageRank; rw [h]

theorem voltageRank_of_none {x : BayId} (h : (s.relays.get x).snap.voltage = none) : voltageRank s x = 0 := by
  unfold voltageRank; rw [h]

theorem voltageRank_pos {x : BayId} (h : (s.relays.get x).snap.voltage ≠ none) : 0 < voltageRank s x := by
  obtain ⟨v, hv⟩ := Option.ne_none_iff_exists'.1 h
  rw [voltageRank_of_some hv]
  omega

/-- R24: the paralleling rule beside a switch that is ON on a present pack. -/
theorem parallelAllows_iff {x : BayId} (h : s.pp.sw.get x.other = .on ∧ (s.bays.get x.other).presence = true) :
    parallelAllows x s = true ↔ ∃ v w, (s.relays.get x).snap.voltage = some v ∧ (s.relays.get x.other).snap.voltage = some w
      ∧ v.toNat ≤ w.toNat + vdiffMax s ∧ w.toNat ≤ v.toNat + vdiffMax s := by
  unfold parallelAllows
  rw [if_pos h, voltsClose_iff]
  cases x
  · exact Iff.rfl
  · exact ⟨fun ⟨v, w, hv, hw, h1, h2⟩ => ⟨w, v, hw, hv, h2, h1⟩, fun ⟨v, w, hv, hw, h1, h2⟩ => ⟨w, v, hw, hv, h2, h1⟩⟩

theorem served_iff {x : BayId} : served s x = true ↔
    ((s.bays.get x).state = .probing ∨ (s.bays.get x).state = .standby ∨ (s.bays.get x).state = .online
      ∨ (s.bays.get x).state = .releasing) ∧ (s.relays.get x).recover = .notRunning := by
  unfold served servedState steady
  simp [or_assoc]

theorem activeCandidate_iff {x : BayId} :
    activeCandidate s x = true ↔ (s.bays.get x).state = .online ∧ (s.relays.get x).recover = .notRunning := by
  unfold activeCandidate
  simp

theorem chooseActive_of_both (ha : activeCandidate s .A = true) (hb : activeCandidate s .B = true) :
    chooseActive s = if s.relays.a.snap.remaining.isSome ∧ s.relays.b.snap.remaining.isSome then
        some (greaterBay s.relays.a.snap.remaining s.relays.b.snap.remaining)
      else some (greaterBay s.relays.a.snap.voltage s.relays.b.snap.voltage) := by
  unfold chooseActive
  rw [if_pos ha, if_pos hb]

theorem greaterBay_of_none {v w : Option Half} (h : v = none ∨ w = none) : greaterBay v w = .A := by
  unfold greaterBay
  rcases h with rfl | rfl
  · rfl
  · cases v <;> rfl

end Choices

/-- Settles O16. -/
theorem choicesOfABay : Obligations.ChoicesOfABay := by
  refine ⟨fun s => ⟨fun x => takeOverBay_spec, fun h x hx => ?_, fun ha hb => ⟨fun v w hv hw => ?_, fun hb' => ?_, fun ha' hb' => ?_⟩⟩,
    fun x s => ⟨fun h => ?_, parallelAllows_iff⟩, fun _ _ => served_iff,
    fun s => ⟨fun ha hb => ?_, fun ha hb => ?_, fun ha hb => ?_, fun ha hb => ⟨fun v w hv hw => ?_, fun hr => ⟨fun v w hv hw => ?_, fun hv => ?_⟩⟩,
      fun x => activeCandidate_iff⟩⟩
  · exact absurd (canTakeOver_iff.2 hx) (by rw [takeOverBay_none.1 h x]; decide)
  · rw [takeOverBay_of_both ha hb, voltageRank_of_some (x := .A) hv, voltageRank_of_some (x := .B) hw]
    split <;> split <;> first | rfl | omega
  · rw [takeOverBay_of_both ha hb, voltageRank_of_none (x := .B) hb', if_neg (Nat.not_lt_zero _)]
  · rw [takeOverBay_of_both ha hb, voltageRank_of_none (x := .A) ha', if_pos (voltageRank_pos (x := .B) hb')]
  · unfold parallelAllows
    rw [if_neg h]
  · unfold chooseActive
    rw [if_neg (by simp [ha]), if_neg (by simp [hb])]
  · unfold chooseActive
    rw [if_pos ha, if_neg (by simp [hb])]
  · unfold chooseActive
    rw [if_neg (by simp [ha]), if_pos hb]
  · rw [chooseActive_of_both ha hb, hv, hw]
    rfl
  · rw [chooseActive_of_both ha hb, if_neg (by rcases hr with e | e <;> simp [e]), hv, hw]
    rfl
  · rw [chooseActive_of_both ha hb, if_neg (by rcases hr with e | e <;> simp [e]), greaterBay_of_none hv]

/-! ### The bridge's rows (R8, R9, R12) -/

theorem bridgeCanStart_iff {s : State} :
    bridgeCanStart s = true ↔ s.pp.bridge = .idle ∧ bridgeAllowed s = true ∧ s.pp.bridgeReady = true := by
  unfold bridgeCanStart
  simp [and_assoc]

/-- R13: bit 1 of the first byte of the power record. -/
theorem powerBits_ready (e r l p : Bool) : (byteOf (bitAt 0 e + bitAt 1 r + bitAt 2 l + bitAt 3 p)).getLsbD 1 = r := by
  revert e r l p
  decide

/-- Settles O17. -/
theorem bridgeReadyAndExpiry : Obligations.BridgeReadyAndExpiry := by
  refine ⟨⟨fun _ _ => rfl, fun s => bridgeCanStart_iff, fun v s => ⟨_, rfl, powerBits_ready _ _ _ _⟩, fun s h => ?_⟩, fun s => ⟨fun h => ?_, fun h => ?_⟩⟩
  · unfold bridgeAllowed bridgeMax cfg inEffect
    rw [if_neg (show (s.tables.get .config).state ≠ .inService from h), if_neg (show (s.tables.get .config).state ≠ .inService from h)]
    decide
  · show Host.Outcome.next (expireBridge s) = _
    unfold expireBridge
    rw [if_neg h]
  · refine ⟨expireBridge s, rfl, ?_⟩
    unfold expireBridge
    rw [if_pos h]
    have units := SameUnits.recompute (post .bridgeLow (dRunTimer (max s.pp.timer (bridgeMax s)))
      { s with pp := { s.pp with bridge := .expired, timer := max s.pp.timer (bridgeMax s), pfail := true } })
    exact ⟨units.pp, queued_recompute (by decide) (queued_post _ _ _), units.bays, units.relays, recompute_cache _, by rw [recompute_eq]; rfl⟩

end Sys2Proof.Machine
end

