-- ==== Sys2Proof/Proofs/PortAnswers.lean ====
section
/-! PROOFS. The Management Port: result reads (R185), commands that are refused, held or answered INVALID or PARAM (R183, R184), the expiry of a
context (R38) and the two ticks (R94, R188). -/

namespace Sys2Proof.Machine

/-! ### Result reads (R185) -/

theorem exec_resultRead (n : Nat) (s : State) : exec (.resultRead n) s = .next (readResult n s) := rfl

theorem readResult_pending {s : State} (hfree : upStretched s = false) {f : Frame} (hslot : s.port.slot = .pending f) (n : Nat) :
    readResult n s =
      { s with
        port := { s.port with slot := if f.data.length + 2 ≤ n then .empty else .pending f },
        upstream := { tx := none, answer := .data (readOut n (frameBytes f)) } } := by
  have hread : readResult n s = if f.data.length + 2 ≤ n then setSlot .empty (endUpstream (.data (readOut n (frameBytes f))) s)
      else endUpstream (.data (readOut n (frameBytes f))) s := by
    rw [readResult, hfree, if_neg Bool.false_ne_true, hslot]
    rfl
  rw [hread]
  by_cases hn : f.data.length + 2 ≤ n
  · rw [if_pos hn, if_pos hn]
    rfl
  · rw [if_neg hn, if_neg hn, ← hslot]
    rfl

theorem readResult_idle {s : State} (hfree : upStretched s = false) (hslot : s.port.slot = .empty ∨ s.port.slot = .executing) (n : Nat) :
    readResult n s = endUpstream (.data (readOut n (frameBytes (bareFrame .empty)))) s := by
  rw [readResult, hfree, if_neg Bool.false_ne_true]
  obtain h | h := hslot <;> rw [h]

/-- Settles O47: a PENDING slot gives its frame and empties with the last byte, any other slot the frame of result EMPTY. -/
theorem resultReads : Obligations.ResultReads := fun n _ hfree =>
  ⟨fun _ hslot => congrArg _ (readResult_pending hfree hslot n), fun hslot => congrArg _ (readResult_idle hfree hslot n)⟩

/-! ### Contexts and ticks (R38, R94, R188) -/

theorem contextDue_iff (s : State) (x : BayId) :
    contextDue s x = true ↔ ∃ c, (s.bays.get x).context = some c ∧ reinsertWindow s ≤ s.time.uptime - c.departure := by
  rw [contextDue]
  cases h : (s.bays.get x).context with
  | none => exact ⟨fun h => Bool.noConfusion h, fun ⟨_, hc, _⟩ => by cases hc⟩
  | some c => exact decide_eq_true_iff.trans ⟨fun hd => ⟨c, rfl, hd⟩, fun ⟨_, hc, hd⟩ => by cases hc; exact hd⟩

/-- Settles O23: the context goes where its window is reached, and the two ticks change the uptime and the ages. -/
theorem contextWindowUptimeAndAge : Obligations.ContextWindowUptimeAndAge := by
  refine ⟨fun x s => ⟨fun hnot => ?before, fun c hc hdue => ?reached⟩, fun s => ⟨rfl, rfl⟩⟩
  case before =>
    have hdue : ¬ contextDue s x = true := fun h => by
      obtain ⟨c, hc, hle⟩ := (contextDue_iff s x).mp h
      exact Nat.not_lt.mpr hle (hnot c hc)
    exact congrArg _ (if_neg hdue)
  case reached => exact congrArg _ (if_pos ((contextDue_iff s x).mpr ⟨c, hc, hdue⟩))

/-! ### Commands that are held or refused (R49, R183) -/

/-- What a command row does while the clock is stretched or the slot is not EMPTY. -/
def Waits (i : Instr) : Prop :=
  ∀ s : State, (upStretched s = false → s.port.slot ≠ .empty → exec i s = .next (endUpstream .refused s))
    ∧ (upStretched s = true → exec i s = .next (setAnswer .held s))

theorem manage_refused (body : State → State × Frame) {s : State} (hfree : upStretched s = false) (hslot : s.port.slot ≠ .empty) :
    manage body s = endUpstream .refused s := by
  rw [manage, hfree, if_neg Bool.false_ne_true, if_neg hslot]

theorem manage_held (body : State → State × Frame) {s : State} (hs : upStretched s = true) : manage body s = setAnswer .held s := by
  rw [manage, if_pos hs]

theorem waits_of_manage {i : Instr} {body : State → State × Frame} (h : ∀ s, exec i s = .next (manage body s)) : Waits i := fun s =>
  ⟨fun hfree hslot => (h s).trans (congrArg _ (manage_refused body hfree hslot)), fun hs => (h s).trans (congrArg _ (manage_held body hs))⟩

theorem resetPart_of_params {p : List Byte} (hp : p ≠ []) (s : State) : resetPart p s = manage (fun u => (u, bareFrame .param)) s := by
  rw [resetPart, if_neg hp, manage]

theorem waits_resetPart (p : List Byte) : Waits (.resetPart p) := fun s => by
  refine ⟨fun hfree hslot => ?_, fun hs => ?_⟩
  · rw [exec_resetPart, resetPart, hfree, if_neg Bool.false_ne_true, if_neg hslot]
  · rw [exec_resetPart, resetPart, if_pos hs]

theorem waits_of_command (p : List Byte) (c : BitVec 7) :
    ∀ i ∈ [Instr.invalidCommand c p, .identify p, .senseAttention p, .flagTest p, .flagSet p, .flagClear p, .flagToggle p, .resetPart p,
      .powerQuery p, .bayQuery p, .bayRelease p, .bayReturn p, .bayProbe p, .linkRecover p, .cacheFlush p, .cacheInspect p,
      .budgetQuery p, .brightnessSet p, .brightnessQuery p, .dropStateQuery p, .dropLogRead p, .dropLogClear p, .tableClear p,
      .tableWrite p, .tableCheck p, .tableRead p, .tableLock p], Waits i := by
  simp only [List.forall_mem_cons, List.not_mem_nil, IsEmpty.forall_iff, implies_true, and_true]
  and_intros
  on_goal 8 => exact waits_resetPart p
  all_goals exact waits_of_manage fun _ => rfl

/-! ### Commands with wrong parameters (R184, R192) -/

/-- An accepted command row that has no effect but its result frame of one byte. -/
def Answers (i : Instr) (code : ResultCode) : Prop := ∀ s, accepts s → exec i s = .next (ended (begun s) code [])

theorem answers_of_manage {i : Instr} {body : State → State × Frame} {code : ResultCode} (h : ∀ s, exec i s = .next (manage body s))
    (hb : ∀ u, body u = (u, bareFrame code)) : Answers i code := fun s hs =>
  (h s).trans (congrArg _ (manage_of_accepts hs (hb _)))

theorem answers_noParams {i : Instr} {p : List Byte} {f : State → State × Frame} (hp : p ≠ [])
    (h : ∀ s, exec i s = .next (manage (noParams p f) s)) : Answers i .param :=
  answers_of_manage h (noParams_of_ne_nil hp f)

theorem answers_resetPart {p : List Byte} (hp : p ≠ []) : Answers (.resetPart p) .param :=
  answers_of_manage (fun s => congrArg _ (resetPart_of_params hp s)) fun _ => rfl

theorem withBay_of_length {p : List Byte} (hp : p.length ≠ 1) (f : BayId → State → State × Frame) (u : State) :
    withBay p f u = (u, bareFrame .param) := by
  match p, hp with
  | [], _ => rfl
  | [_], hp => exact absurd rfl hp
  | _ :: _ :: _, _ => rfl

theorem withRegion_of_length {p : List Byte} (hp : p.length ≠ 1) (f : RegionId → State → State × Frame) (u : State) :
    withRegion p f u = (u, bareFrame .param) := by
  match p, hp with
  | [], _ => rfl
  | [_], hp => exact absurd rfl hp
  | _ :: _ :: _, _ => rfl

theorem flagCommand_of_length {p : List Byte} (hp : p.length ≠ 1) (f : Bool → Bool) (u : State) :
    flagCommand p f u = (u, bareFrame .param) := by
  match p, hp with
  | [], _ => rfl
  | [_], hp => exact absurd rfl hp
  | _ :: _ :: _, _ => rfl

theorem cacheFlush_of_length {p : List Byte} (hp : p.length ≠ 1) (u : State) : cacheFlush p u = (u, bareFrame .param) := by
  match p, hp with
  | [], _ => rfl
  | [_], hp => exact absurd rfl hp
  | _ :: _ :: _, _ => rfl

theorem dropLogRead_of_length {p : List Byte} (hp : p.length ≠ 1) (u : State) : dropLogRead p u = (u, bareFrame .param) := by
  match p, hp with
  | [], _ => rfl
  | [_], hp => exact absurd rfl hp
  | _ :: _ :: _, _ => rfl

theorem cacheInspect_of_length {p : List Byte} (hp : p.length ≠ 2) (u : State) : cacheInspect p u = (u, bareFrame .param) := by
  match p, hp with
  | [], _ | [_], _ => rfl
  | [_, _], hp => exact absurd rfl hp
  | _ :: _ :: _ :: _, _ => rfl

theorem tableReadParams_of_length {p : List Byte} (hp : p.length ≠ 3) (u : State) : tableReadParams p u = (u, bareFrame .param) := by
  match p, hp with
  | [], _ | [_], _ | [_, _], _ => rfl
  | [_, _, _], hp => exact absurd rfl hp
  | _ :: _ :: _ :: _ :: _, _ => rfl

theorem brightnessSet_of_length {p : List Byte} (hp : p.length ≠ 5) (u : State) : brightnessSet p u = (u, bareFrame .param) := by
  match p, hp with
  | [], _ | [_], _ | [_, _], _ | [_, _, _], _ | [_, _, _, _], _ => rfl
  | [_, _, _, _, _], hp => exact absurd rfl hp
  | _ :: _ :: _ :: _ :: _ :: _ :: _, _ => rfl

theorem tableWriteParams_of_short {p : List Byte} (hp : p.length < 3) (u : State) : tableWriteParams p u = (u, bareFrame .param) := by
  match p, hp with
  | [], _ | [_], _ | [_, _], _ => rfl
  | _ :: _ :: _ :: q, hp => exact absurd hp (Nat.not_lt.mpr (Nat.le_add_left 3 q.length))

theorem tableWriteParams_of_count {r off n : Byte} {rest : List Byte} (h : rest.length ≠ 4 * n.toNat) (u : State) :
    tableWriteParams (r :: off :: n :: rest) u = (u, bareFrame .param) := if_neg h

/-! ### Parameters out of their range (R42, R66, R102, R103, R134, R159, R167, R192, R202) -/

theorem bayOfByte_of_gt {b : Byte} (h : 1 < b.toNat) : bayOfByte b = none := by
  rw [bayOfByte]
  split
  · omega
  · omega
  · rfl

theorem regionOfByte_of_gt {b : Byte} (h : 3 < b.toNat) : regionOfByte b = none := by
  rw [regionOfByte]
  split
  · omega
  · omega
  · omega
  · omega
  · rfl

theorem flagGet_of_gt (f : Flags) {n : Nat} (h : 7 < n) : flagGet f n = none := by
  rw [flagGet]
  all_goals omega

theorem withBay_of_gt {b : Byte} (h : 1 < b.toNat) (f : BayId → State → State × Frame) (u : State) :
    withBay [b] f u = (u, bareFrame .param) := by
  simp only [withBay, bayOfByte_of_gt h]

theorem withRegion_of_gt {b : Byte} (h : 3 < b.toNat) (f : RegionId → State → State × Frame) (u : State) :
    withRegion [b] f u = (u, bareFrame .param) := by
  simp only [withRegion, regionOfByte_of_gt h]

theorem flagCommand_of_gt {b : Byte} (h : 7 < b.toNat) (f : Bool → Bool) (u : State) : flagCommand [b] f u = (u, bareFrame .param) := by
  simp only [flagCommand, flagGet_of_gt _ h]

theorem cacheFlush_of_gt {b : Byte} (h : 2 < b.toNat) (u : State) : cacheFlush [b] u = (u, bareFrame .param) := by
  simp only [cacheFlush]
  split
  · omega
  · omega
  · omega
  · rfl

theorem wayOfByte_of_gt {b : Byte} (h : 3 < b.toNat) : wayOfByte b = none := by
  rw [wayOfByte]
  split
  · omega
  · omega
  · omega
  · omega
  · rfl

theorem cacheInspect_of_gt {b c : Byte} (h : 15 < b.toNat ∨ 3 < c.toNat) (u : State) : cacheInspect [b, c] u = (u, bareFrame .param) := by
  simp only [cacheInspect]
  cases hw : wayOfByte c with
  | none => rfl
  | some w =>
    have hb : ¬ b.toNat ≤ 15 := fun hle => by
      obtain h | h := h
      · exact Nat.not_lt.mpr hle h
      · exact absurd (wayOfByte_of_gt h) (hw ▸ Option.some_ne_none w)
    exact if_neg hb

theorem rangeBad_iff (r : RegionId) (off n : Nat) :
    rangeBad r off n = true ↔ n = 0 ∨ 48 < n ∨ Config.regionSize r < off + n := by
  simp only [rangeBad, Bool.or_eq_true, beq_iff_eq, decide_eq_true_iff, or_assoc]

/-- The three ways in which the region, the offset and the count of a Table Write or a Table Read are out of range. -/
def rangeRefused (b off n : Byte) : Prop :=
  3 < b.toNat ∨ n.toNat = 0 ∨ 48 < n.toNat ∨ ∃ g, regionOfByte b = some g ∧ Config.regionSize g < off.toNat + n.toNat

theorem rangeBad_of_refused {b off n : Byte} {g : RegionId} (hg : regionOfByte b = some g) (h : rangeRefused b off n) :
    rangeBad g off.toNat n.toNat = true := by
  obtain hb | hn | hn | ⟨r, hr, hsize⟩ := h
  · exact absurd (regionOfByte_of_gt hb) (hg ▸ Option.some_ne_none g)
  · exact (rangeBad_iff ..).mpr (.inl hn)
  · exact (rangeBad_iff ..).mpr (.inr (.inl hn))
  · cases hg.symm.trans hr
    exact (rangeBad_iff ..).mpr (.inr (.inr hsize))

theorem tableReadParams_of_refused {b off n : Byte} (h : rangeRefused b off n) (u : State) :
    tableReadParams [b, off, n] u = (u, bareFrame .param) := by
  rw [tableReadParams]
  cases hg : regionOfByte b with
  | none => rfl
  | some g => exact if_pos (rangeBad_of_refused hg h)

theorem tableWriteParams_of_refused {b off n : Byte} {rest : List Byte} (h : rangeRefused b off n) (hl : rest.length = 4 * n.toNat)
    (u : State) : tableWriteParams (b :: off :: n :: rest) u = (u, bareFrame .param) := by
  rw [tableWriteParams, if_pos hl]
  cases hg : regionOfByte b with
  | none => rfl
  | some g => exact if_pos (length_wordsOf hl ▸ rangeBad_of_refused hg h)

/-- Settles O48: the rows of the commands wait, and with wrong parameters they answer with a bare frame. -/
theorem commandsRefusedInvalidOrOutOfRange : Obligations.CommandsRefusedInvalidOrOutOfRange := by
  refine ⟨fun p c s i hi => waits_of_command p c i hi s, fun p c s h => ⟨?invalid, fun hp => ?none, fun hp => ?one, fun hp => ?two,
    fun hp => ?three, fun hp => ?five, ?write⟩, fun b s h => ⟨fun hb => ?bay, fun hb => ?region, fun hb => ?seven, fun hb => ?flush,
    fun c hb => ?inspect, fun hb l0 l1 h0 h1 => ?bright, fun off n hr => ⟨?read, fun rest hl => ?writeRange⟩⟩⟩
  case invalid => exact answers_of_manage (i := .invalidCommand c p) (fun _ => rfl) (fun _ => rfl) s h
  case none =>
    have hne : p ≠ [] := fun e => hp (e ▸ rfl)
    simp only [List.forall_mem_cons, List.not_mem_nil, IsEmpty.forall_iff, implies_true, and_true]
    exact ⟨answers_noParams hne (fun _ => rfl) s h, answers_noParams hne (fun _ => rfl) s h, answers_resetPart hne s h,
      answers_noParams hne (fun _ => rfl) s h, answers_noParams hne (fun _ => rfl) s h, answers_noParams hne (fun _ => rfl) s h,
      answers_noParams hne (fun _ => rfl) s h, answers_noParams hne (fun _ => rfl) s h⟩
  case one =>
    have hflag (f : Bool → Bool) := flagCommand_of_length hp f
    have hbay (f : BayId → State → State × Frame) := withBay_of_length hp f
    have hregion (f : RegionId → State → State × Frame) := withRegion_of_length hp f
    simp only [List.forall_mem_cons, List.not_mem_nil, IsEmpty.forall_iff, implies_true, and_true]
    exact ⟨answers_of_manage (fun _ => rfl) (hflag _) s h, answers_of_manage (fun _ => rfl) (hflag _) s h,
      answers_of_manage (fun _ => rfl) (hflag _) s h, answers_of_manage (fun _ => rfl) (hflag _) s h,
      answers_of_manage (fun _ => rfl) (hbay _) s h, answers_of_manage (fun _ => rfl) (hbay _) s h,
      answers_of_manage (fun _ => rfl) (hbay _) s h, answers_of_manage (fun _ => rfl) (hbay _) s h,
      answers_of_manage (fun _ => rfl) (hbay _) s h, answers_of_manage (fun _ => rfl) (cacheFlush_of_length hp) s h,
      answers_of_manage (fun _ => rfl) (dropLogRead_of_length hp) s h, answers_of_manage (fun _ => rfl) (hregion _) s h,
      answers_of_manage (fun _ => rfl) (hregion _) s h, answers_of_manage (fun _ => rfl) (hregion _) s h⟩
  case two => exact answers_of_manage (i := .cacheInspect p) (fun _ => rfl) (cacheInspect_of_length hp) s h
  case three => exact answers_of_manage (i := .tableRead p) (fun _ => rfl) (tableReadParams_of_length hp) s h
  case five => exact answers_of_manage (i := .brightnessSet p) (fun _ => rfl) (brightnessSet_of_length hp) s h
  case write =>
    rintro (hp | ⟨r, off, n, rest, rfl, hl⟩)
    · exact answers_of_manage (i := .tableWrite p) (fun _ => rfl) (tableWriteParams_of_short hp) s h
    · exact answers_of_manage (i := .tableWrite _) (fun _ => rfl) (tableWriteParams_of_count hl) s h
  case bay =>
    have hbay (f : BayId → State → State × Frame) := withBay_of_gt hb f
    simp only [List.forall_mem_cons, List.not_mem_nil, IsEmpty.forall_iff, implies_true, and_true]
    exact ⟨answers_of_manage (fun _ => rfl) (hbay _) s h, answers_of_manage (fun _ => rfl) (hbay _) s h,
      answers_of_manage (fun _ => rfl) (hbay _) s h, answers_of_manage (fun _ => rfl) (hbay _) s h,
      answers_of_manage (fun _ => rfl) (hbay _) s h⟩
  case region =>
    have hregion (f : RegionId → State → State × Frame) := withRegion_of_gt hb f
    simp only [List.forall_mem_cons, List.not_mem_nil, IsEmpty.forall_iff, implies_true, and_true]
    exact ⟨answers_of_manage (fun _ => rfl) (hregion _) s h, answers_of_manage (fun _ => rfl) (hregion _) s h,
      answers_of_manage (fun _ => rfl) (hregion _) s h⟩
  case seven =>
    have hflag (f : Bool → Bool) := flagCommand_of_gt hb f
    simp only [List.forall_mem_cons, List.not_mem_nil, IsEmpty.forall_iff, implies_true, and_true]
    exact ⟨answers_of_manage (fun _ => rfl) (hflag _) s h, answers_of_manage (fun _ => rfl) (hflag _) s h,
      answers_of_manage (fun _ => rfl) (hflag _) s h, answers_of_manage (fun _ => rfl) (hflag _) s h,
      answers_of_manage (fun _ => rfl) (fun _ => dropLogRead_of_gt hb) s h⟩
  case flush => exact answers_of_manage (i := .cacheFlush _) (fun _ => rfl) (cacheFlush_of_gt hb) s h
  case inspect => exact answers_of_manage (i := .cacheInspect _) (fun _ => rfl) (cacheInspect_of_gt hb) s h
  case bright =>
    exact answers_of_manage (i := .brightnessSet _) (fun _ => rfl)
      (brightnessSet_of_none (modeOfByte_of_gt hb) l0 l1 h0 h1) s h
  case read => exact answers_of_manage (i := .tableRead _) (fun _ => rfl) (tableReadParams_of_refused hr) s h
  case writeRange => exact answers_of_manage (i := .tableWrite _) (fun _ => rfl) (tableWriteParams_of_refused hr hl) s h

end Sys2Proof.Machine
end

