-- ==== Sys2Proof/Proofs/SampleRows.lean ====
section
/-! PROOFS. The sample lane: discarded frames (R121), light samples (R122, R124 to R133) and the class of a motion sample (R140, R141). -/

namespace Sys2Proof.Machine

/-! ### Light samples -/

theorem exec_lightSample (b0 b1 b2 : Byte) (s : State) :
    exec (.lightSample b0 b1 b2) s = .next { s with lane := [], pipe := lightStep (b1 ++ b0).toNat (overRange b2) (laneIdle s) } := rfl

theorem overRange_eq (b : Byte) : overRange b = b.getLsbD 0 := by
  rw [overRange, BitVec.getLsbD, Nat.testBit_zero]
  rfl

theorem lightStep_manual {s : State} (hm : s.pipe.mode = .manual) (lux : Nat) (clipped : Bool) :
    lightStep lux clipped s = slewStage s (inputStage lux clipped s.pipe) := by
  rw [lightStep, hm]

theorem lightStep_held {s : State} (hm : s.pipe.mode = .auto) (hh : s.flags.holdCurve = true) (lux : Nat) (clipped : Bool) :
    lightStep lux clipped s = inputStage lux clipped s.pipe := by
  rw [lightStep, hm, hh]
  rfl

/-- The stages after the input stage, as AUTO runs them. -/
def autoStages (s : State) (p : Pipeline) : Pipeline := slewStage s (hysteresisStage s (filterStage s (targetStage s p)))

theorem lightStep_auto {s : State} (hm : s.pipe.mode = .auto) (hh : s.flags.holdCurve = false) (lux : Nat) (clipped : Bool) :
    lightStep lux clipped s = autoStages s (inputStage lux clipped s.pipe) := by
  rw [lightStep, hm, hh]
  rfl

/-- What AUTO makes of a pipeline whose input stage has run. -/
structure AutoStages (s : State) (p q : Pipeline) : Prop where
  kept : q.mode = p.mode ∧ q.manual = p.manual ∧ q.hostMax = p.hostMax ∧ q.l = p.l ∧ q.clampedLux = p.clampedLux
  target : q.t = curveLevel p.l (breakpoints s)
  filter : q.s = filterNext (kUp s) (kDown s) q.t p.s
  rounding : q.d = if hyst s ≤ distance (rounded q.s) p.d ∨ rounded q.s = q.t then rounded q.s else p.d
  limited : q.ceilingLimited = (p.ceilingLimited || decide (s.budget.c < q.d))
  output : q.o = slew (slewUp s) (slewDown s) (goal (minLevel s) q.d s.budget.c) p.o

theorem autoStages_spec (s : State) (p : Pipeline) : AutoStages s p (autoStages s p) := by
  simp only [autoStages, slewStage, hysteresisStage, filterStage, targetStage]
  exact ⟨⟨rfl, rfl, rfl, rfl, rfl⟩, rfl, rfl, rfl, rfl, rfl⟩

theorem lightStep_laneIdle (lux : Nat) (clipped : Bool) (s : State) : lightStep lux clipped (laneIdle s) = lightStep lux clipped s := rfl

/-- The sign of the difference between the filter state and its target, as R126 takes it, is the comparison the filter makes. -/
theorem filterNext_of_target (up down t st : Nat) :
    (filterNext up down t st : Int) = st + (16 * (t : Int) - st) / (2 ^ (if st < 16 * t then up else down) : Nat) := by
  refine filterNext_eq rfl (ite_congr (propext ?_) (fun _ => rfl) fun _ => rfl)
  omega

/-- Settles O40: the stages that a light sample runs, by the mode and HOLD_CURVE. -/
theorem laneAndLightSamples : Obligations.LaneAndLightSamples := by
  refine ⟨fun h p s => ⟨rfl, rfl⟩, fun b0 b1 b2 s hm hh => ?auto, fun b0 b1 b2 s => ⟨fun hm => ?manual, fun hm hh => ?held⟩⟩
  case auto =>
    have hrun := exec_lightSample b0 b1 b2 s
    rw [lightStep_laneIdle, lightStep_auto hm hh, overRange_eq] at hrun
    obtain ⟨⟨hmode, hmanual, hhost, hl, hclamped⟩, ht, hs, hd, hlimited, ho⟩ :=
      autoStages_spec s (inputStage (b1 ++ b0).toNat (b2.getLsbD 0) s.pipe)
    exact ⟨_, hrun, hmode.trans hm, hmanual, hhost, hl, hclamped, hl ▸ ht,
      (congrArg Nat.cast hs).trans (filterNext_of_target ..), hd, hlimited, ho⟩
  case manual =>
    rw [exec_lightSample, lightStep_laneIdle, lightStep_manual hm, overRange_eq]
    rfl
  case held =>
    rw [exec_lightSample, lightStep_laneIdle, lightStep_held hm hh, overRange_eq]
    rfl

/-! ### Motion samples -/

theorem axisValue_sq_le {v : Int} (h : v ≤ 2047) : axisValue v * axisValue v ≤ 4190209 := by
  have hlo : -2047 ≤ axisValue v := Int.le_max_left ..
  have hhi : axisValue v ≤ 2047 := Int.max_le.mpr ⟨by decide, h⟩
  nlinarith

theorem axisRaw_le (lo hi : Byte) : axisRaw lo hi ≤ 2047 := Int.max_le.mpr ⟨by decide, Int.min_le_left ..⟩

theorem m2_cast (p : Sample) : (p.m2 : Int) = p.x ^ 2 + p.y ^ 2 + p.z ^ 2 := by
  have h : 0 ≤ p.x * p.x + p.y * p.y + p.z * p.z := by
    have hx := mul_self_nonneg p.x
    have hy := mul_self_nonneg p.y
    have hz := mul_self_nonneg p.z
    omega
  rw [Sample.m2, Int.toNat_of_nonneg h, pow_two, pow_two, pow_two]

theorem m2_sampleOf_le (x0 x1 y0 y1 z0 z1 : Byte) : (sampleOf x0 x1 y0 y1 z0 z1).m2 ≤ 12570627 := by
  have hx := axisValue_sq_le (axisRaw_le x0 x1)
  have hy := axisValue_sq_le (axisRaw_le y0 y1)
  have hz := axisValue_sq_le (axisRaw_le z0 z1)
  have hsum : axisValue (axisRaw x0 x1) * axisValue (axisRaw x0 x1) + axisValue (axisRaw y0 y1) * axisValue (axisRaw y0 y1)
      + axisValue (axisRaw z0 z1) * axisValue (axisRaw z0 z1) ≤ 12570627 := by omega
  exact Int.toNat_le.mpr hsum

theorem axisSaturated_iff (v : Int) : axisSaturated v = true ↔ v = -2048 ∨ v = 2047 := by
  rw [axisSaturated, Bool.or_eq_true, beq_iff_eq, beq_iff_eq]

theorem saturated_iff (x0 x1 y0 y1 z0 z1 : Byte) : (sampleOf x0 x1 y0 y1 z0 z1).saturated = true ↔
    ∃ v ∈ [axisRaw x0 x1, axisRaw y0 y1, axisRaw z0 z1], v = -2048 ∨ v = 2047 := by
  simp only [sampleOf, Bool.or_eq_true, axisSaturated_iff, List.exists_mem_cons_iff, List.not_mem_nil, false_and, exists_false, or_false,
    or_assoc]

theorem classify_impact {s : State} {p : Sample} (h : impactThresh s ^ 2 < p.m2 ∨ p.saturated = true) : classify s p = .impact :=
  if_pos (by rwa [← pow_two])

theorem classify_of_no_impact {s : State} {p : Sample} (hm : p.m2 ≤ impactThresh s ^ 2) (hs : p.saturated = false) :
    classify s p = if p.m2 < ffThresh s ^ 2 then .low
      else if stillLo s ^ 2 ≤ p.m2 ∧ p.m2 ≤ stillHi s ^ 2 then .still else .other := by
  have hno : ¬ (impactThresh s * impactThresh s < p.m2 ∨ p.saturated = true) := by
    rw [← pow_two, hs]
    exact not_or.mpr ⟨Nat.not_lt.mpr hm, Bool.false_ne_true⟩
  rw [classify, if_neg hno, ← pow_two, ← pow_two, ← pow_two]

/-- Settles O42: the axes of a sample, its magnitude, and the four classes in order. -/
theorem samplesAreClassified : Obligations.SamplesAreClassified := by
  refine ⟨fun lo hi => rfl, fun x0 x1 y0 y1 z0 z1 => ⟨rfl, rfl, rfl, saturated_iff .., m2_sampleOf_le ..⟩, m2_cast,
    fun s p => ⟨classify_impact, fun hm hs => ⟨fun hlow => ?low, fun hff hlo hhi => ?still, fun hff hout => ?other⟩⟩⟩
  case low => rw [classify_of_no_impact hm hs, if_pos hlow]
  case still => rw [classify_of_no_impact hm hs, if_neg (Nat.not_lt.mpr hff), if_pos ⟨hlo, hhi⟩]
  case other =>
    have hno : ¬ (stillLo s ^ 2 ≤ p.m2 ∧ p.m2 ≤ stillHi s ^ 2) := fun ⟨hlo, hhi⟩ =>
      hout.elim (Nat.not_lt.mpr hlo) (Nat.not_lt.mpr hhi)
    rw [classify_of_no_impact hm hs, if_neg (Nat.not_lt.mpr hff), if_neg hno]

end Sys2Proof.Machine
end

