-- ==== Sys2Proof/Proofs/Queries.lean ====
section
/-! PROOFS. The records that the queries return (R13, R42, R117, R158), the status byte (R181), Cache Flush (R102) and Cache Inspect (R103). -/

namespace Sys2Proof.Machine

/-! ### Bits of a byte -/

theorem bitAt_beq {α : Type} [BEq α] [LawfulBEq α] (k : Nat) (a b : α) [Decidable (a = b)] :
    bitAt k (a == b) = if a = b then 2 ^ k else 0 := by
  simp only [bitAt, beq_iff_eq]

theorem bitAt_bne {α : Type} [BEq α] [LawfulBEq α] (k : Nat) (a b : α) [Decidable (a = b)] :
    bitAt k (a != b) = if a ≠ b then 2 ^ k else 0 := by
  simp only [bitAt, bne_iff_ne]

theorem bitAt_and {p q : Prop} [Decidable p] [Decidable q] (k : Nat) {a b : Bool} (ha : a = true ↔ p) (hb : b = true ↔ q) :
    bitAt k (a && b) = if p ∧ q then 2 ^ k else 0 := by
  simp only [bitAt, Bool.and_eq_true, ha, hb]

theorem bitAt_isSome (k : Nat) (v : Option Half) : bitAt k v.isSome = if v = none then 0 else 2 ^ k := by
  cases v with
  | none => rfl
  | some v => exact (if_neg (Option.some_ne_none v)).symm

theorem bitAt_not_isEmpty (k : Nat) (q : List AttnEntry) : bitAt k (!q.isEmpty) = if q ≠ [] then 2 ^ k else 0 := by
  cases q with
  | nil => rfl
  | cons e q => exact (if_pos (List.cons_ne_nil e q)).symm

/-! ### The bay record (R42, R194) -/

theorem orZero_eq (v : Option Half) : orZero v = (v.getD 0).toNat := by cases v <;> rfl

theorem byteOf_bayCode {b : Byte} {x : BayId} (h : bayOfByte b = some x) : byteOf (bayCode x) = b := by
  refine BitVec.eq_of_toNat_eq ?_
  rw [bayOfByte] at h
  split at h
  next hb => cases h; exact hb.symm
  next hb => cases h; exact hb.symm
  next => cases h

theorem withBay_of_some {b : Byte} {x : BayId} (h : bayOfByte b = some x) (f : BayId → State → State × Frame) (u : State) :
    withBay [b] f u = f x u := by
  simp only [withBay, h]

theorem joltBytes_eq (o : Option JoltRecord) : joltBytes o =
    match o with
    | some j =>
        [byteOf (1 + (if j.serial = none then 0 else 2) + match j.hold with | .stopped => 0 | .waiting => 4 | .running _ => 8),
          match j.earlier with | .online => 4 | .standby => 3 | .probing => 2]
          ++ le16 (j.serial.getD 0).toNat ++ le16 (match j.hold with | .running ms => ms | _ => 0)
    | none => [0, 0, 0, 0, 0, 0] := by
  cases o with
  | none => rfl
  | some j =>
    obtain ⟨earlier, serial, hold⟩ := j
    rw [joltBytes, bitAt_isSome, orZero_eq]
    cases earlier <;> cases hold <;> rfl

theorem contextBytes_eq (s : State) (o : Option Context) : contextBytes s o =
    match o with
    | some q => [if q.serial = none then 1 else 3] ++ le16 (q.serial.getD 0).toNat ++ le32 q.departure
        ++ le32 (reinsertWindow s - (s.time.uptime - q.departure))
    | none => [0, 0, 0, 0, 0, 0, 0, 0, 0, 0, 0] := by
  cases o with
  | none => rfl
  | some q =>
    obtain ⟨serial, departure⟩ := q
    cases serial with
    | none => rfl
    | some v => rfl

theorem snapBytes_eq (n : Snapshot) : snapBytes n =
    [byteOf ((if n.voltage = none then 0 else 1) + (if n.maxDischarge = none then 0 else 2) + (if n.remaining = none then 0 else 4)
        + (if n.status = none then 0 else 8) + (if n.temperature = none then 0 else 16) + if n.serial = none then 0 else 32)]
      ++ [n.voltage, n.maxDischarge, n.remaining, n.status, n.temperature, n.serial].flatMap (fun v => le16 (v.getD 0).toNat) := by
  simp only [snapBytes, bitAt_isSome, orZero_eq]
  rfl

theorem byteOf_code (c : Code) : byteOf c.toNat = (c.setWidth 8 : Byte) := by
  refine BitVec.eq_of_toNat_eq ?_
  rw [byteOf, BitVec.toNat_ofNat, BitVec.toNat_setWidth]

theorem ringBytes_eq (r : Relay) : ringBytes r =
    [byteOf r.failCount, byteOf r.ring.length, byteOf r.ptr]
      ++ ((r.ring.map fun k : Code => (k.setWidth 8 : Byte)) ++ List.replicate 8 0xFF).take 8 := by
  simp only [ringBytes, byteOf_code]
  rfl

theorem length_joltBytes (o : Option JoltRecord) : (joltBytes o).length = 6 := by cases o <;> rfl

theorem length_contextBytes (s : State) (o : Option Context) : (contextBytes s o).length = 11 := by cases o <;> rfl

theorem length_ringBytes (r : Relay) : (ringBytes r).length = 11 := by
  have htake : ((r.ring.map fun c => byteOf c.toNat) ++ List.replicate 8 (0xFF#8)).length ≥ 8 := by
    rw [List.length_append, List.length_replicate]
    omega
  rw [ringBytes, List.length_append, List.length_take, Nat.min_eq_left htake]
  rfl

theorem length_bayBytes (x : BayId) (s : State) : (bayBytes x s).length = 52 := by
  simp only [bayBytes, List.length_append, length_joltBytes, length_contextBytes, length_ringBytes]
  rfl

/-! ### The other records -/

/-- Section 8.1: the bytes of the monitor's record with its marks as sums of bits. -/
theorem dropStateBytes_eq (s : State) : dropStateBytes s =
    [byteOf (detectorCode s.motion.detector), byteOf s.motion.run] ++ le16 s.motion.n ++ le16 s.motion.impacts
      ++ le16 s.motion.settle ++ le32 s.motion.peak
      ++ [byteOf ((if s.motion.saturated then 1 else 0) + (if s.motion.park then 2 else 0)
            + (if s.motion.stall.isSome then 4 else 0) + (if s.motion.hold.isSome then 8 else 0)
            + if s.motion.detector = .impact ∧ s.motion.kind = .strike then 16 else 0),
          byteOf (s.motion.stall.getD 0), byteOf (windowCode s.motion.window)] ++ le16 (s.motion.hold.getD 0)
      ++ [byteOf ((if s.motion.jolted.a then 1 else 0) + if s.motion.jolted.b then 2 else 0), byteOf s.log.records.length]
      ++ le16 (s.log.next.getD 0) := by
  rw [dropStateBytes, bitAt_and 4 beq_iff_eq beq_iff_eq]
  rfl

theorem statusByte_eq (u : State) : statusByte u = byteOf ((if u.port.slot = .empty then 1 else 0)
    + (match u.port.slot with | .pending _ => 2 | _ => 0)
    + (if u.attn.queue ≠ [] then 4 else 0) + (if anyChecking u.tables then 8 else 0) + (if background u .A then 16 else 0)
    + (if background u .B then 32 else 0) + (if u.pp.bridge ≠ .idle then 64 else 0) + if u.port.resetSeen then 128 else 0) := by
  rw [statusByte, bitAt_beq, bitAt_not_isEmpty, bitAt_bne]
  cases u.port.slot <;> rfl

theorem byteOf_bits_attn (b0 b1 b2 b3 b4 b5 b6 b7 : Bool) :
    (byteOf (bitAt 0 b0 + bitAt 1 b1 + bitAt 2 b2 + bitAt 3 b3 + bitAt 4 b4 + bitAt 5 b5 + bitAt 6 b6 + bitAt 7 b7)).getLsbD 2 = b2 := by
  revert b0 b1 b2 b3 b4 b5 b6 b7
  decide

theorem anyChecking_iff (t : Tables) : anyChecking t = true ↔ ∃ r, (t.get r).state = .checking := by
  simp only [anyChecking, Bool.or_eq_true, beq_iff_eq]
  constructor
  · rintro (((h | h) | h) | h)
    · exact ⟨.config, h⟩
    · exact ⟨.codemap, h⟩
    · exact ⟨.curve, h⟩
    · exact ⟨.motion, h⟩
  · rintro ⟨r, h⟩
    cases r with
    | config => exact .inl (.inl (.inl h))
    | codemap => exact .inl (.inl (.inr h))
    | curve => exact .inl (.inr h)
    | motion => exact .inr h

theorem background_iff (u : State) (x : BayId) : background u x = true ↔ (u.relays.get x).recover ≠ .notRunning
    ∨ ∃ p, (u.relays.get x).probe = some p ∧ p.background = true := by
  rw [background, Bool.or_eq_true, bne_iff_ne]
  cases (u.relays.get x).probe with
  | none => simp
  | some p => simp

theorem exec_statusRead {u : State} (h : upStretched u = false) :
    exec (.platformAddress 0x29 true) u = .next { u with upstream := { tx := none, answer := .data [statusByte u] } } := by
  show Host.Outcome.next (takeAddress 0x29 true u) = _
  rw [takeAddress, h]
  rfl

/-! ### Counting cache lines (R102) -/

/-- The four lines of a set. -/
def linesOf (cs : CacheSet) : List Line := [cs.l0, cs.l1, cs.l2, cs.l3]

theorem cacheCount_eq (p : Line → Bool) (s : State) : cacheCount p s = (s.cache.flatMap linesOf).countP p := by
  rw [List.countP_flatMap]
  rfl

theorem countP_valid (l : List Line) :
    l.countP (fun k => k.valid) = l.countP (fun k => k.valid && k.bay == .A) + l.countP (fun k => k.valid && k.bay == .B) := by
  induction l with
  | nil => rfl
  | cons k l ih =>
    obtain ⟨valid, bay, code, value, state, age⟩ := k
    simp only [List.countP_cons, ih]
    cases valid <;> cases bay <;> simp <;> omega

theorem length_flatMap_linesOf (c : List CacheSet) : (c.flatMap linesOf).length = 4 * c.length := by
  induction c with
  | nil => rfl
  | cons cs c ih =>
    rw [List.flatMap_cons, List.length_append, ih]
    simp only [linesOf, List.length_cons, List.length_nil]
    omega

/-! ### Cache Inspect (R103) -/

theorem cacheInspect_of_way {a b : Byte} {w : Way} (hw : wayOfByte b = some w) (ha : a.toNat ≤ 15) (u : State) :
    cacheInspect [a, b] u = (u, okFrame (lineBytes (cacheSet u.cache a.toNat) w)) := by
  simp only [cacheInspect, hw, if_pos ha]

/-- Settles O52: each query is its record, with the bits of the record's bytes as sums; Cache Flush counts lines by bay. -/
theorem queriesFlushAndInspect : Obligations.QueriesFlushAndInspect := by
  refine ⟨fun s h => ⟨fun p hp => ?powerParam, ?power, ?budget, ?drop, fun p hp => ?budgetParam, fun x b c n hb hc hn => ?bay,
      statusByte_eq, fun u => anyChecking_iff u.tables, fun u => exec_statusRead, fun u ha => ?attn, background_iff⟩,
    fun s na nb n h hna hnb hn => ⟨?total, fun hl => ?most, fun b hb => ?flushParam, ?flushA, ?flushB, ?flushAll⟩,
    fun a b s h hab => ?inspectParam, fun a b s l cs h ha hcs hb => ?inspect⟩
  case powerParam => exact answers_noParams hp (fun _ => rfl) s h
  case budgetParam => exact answers_noParams hp (fun _ => rfl) s h
  case power => exact congrArg _ (manage_of_accepts h (noParams_nil _ _))
  case budget => exact congrArg _ (manage_of_accepts h (noParams_nil _ _))
  case drop => exact congrArg _ (manage_of_accepts h ((noParams_nil _ _).trans (by rw [query, dropStateBytes_eq]; rfl)))
  case bay =>
    refine ⟨_, congrArg _ (manage_of_accepts h (withBay_of_some hb _ _)), length_bayBytes x _, ?_⟩
    rw [bayBytes, bayHead, joltBytes_eq, contextBytes_eq, snapBytes_eq, ringBytes_eq, byteOf_bayCode hb, hc, hn]
    simp only [List.append_assoc]
    rfl
  case attn => exact (byteOf_bits_attn ..).trans ha.2.2.symm
  case total => rw [hna, hnb, hn, countP_valid]
  case most =>
    have hle := List.countP_le_length (p := fun l : Line => l.valid) (l := s.cache.flatMap linesOf)
    rw [length_flatMap_linesOf, hl] at hle
    exact hn ▸ hle
  case flushParam => exact answers_of_manage (i := .cacheFlush [b]) (fun _ => rfl) (cacheFlush_of_gt hb) s h
  case flushA =>
    rw [hna.trans (cacheCount_eq _ (begun s)).symm]
    exact congrArg _ (manage_of_accepts h rfl)
  case flushB =>
    rw [hnb.trans (cacheCount_eq _ (begun s)).symm]
    exact congrArg _ (manage_of_accepts h rfl)
  case flushAll =>
    rw [hn.trans (cacheCount_eq _ (begun s)).symm]
    exact congrArg _ (manage_of_accepts h rfl)
  case inspectParam => exact answers_of_manage (i := .cacheInspect [a, b]) (fun _ => rfl) (cacheInspect_of_gt hab) s h
  case inspect =>
    obtain ⟨w, hw, hl⟩ : ∃ w, wayOfByte b = some w ∧ l = cs.get w := by
      obtain ⟨rfl, hl⟩ | ⟨rfl, hl⟩ | ⟨rfl, hl⟩ | ⟨rfl, hl⟩ := hb
      · exact ⟨.w0, rfl, hl⟩
      · exact ⟨.w1, rfl, hl⟩
      · exact ⟨.w2, rfl, hl⟩
      · exact ⟨.w3, rfl, hl⟩
    subst hl hcs
    exact congrArg _ (manage_of_accepts h (cacheInspect_of_way hw ha (begun s)))

end Sys2Proof.Machine
end

