-- ==== Sys2Proof/Proofs/LinkStarts.lean ====
section
/-! PROOFS. What starts on an idle link (R54, R55, R57, R60 to R62): polls, probe reads, the transaction in the slot, and a platform transaction at its
forwarding point (R53). -/

namespace Sys2Proof.Machine

/-! ### Two changes of one relay -/

theorem updRelay_updRelay (x : BayId) (f g : Relay → Relay) (s : State) :
    updRelay x g (updRelay x f s) = updRelay x (fun r => g (f r)) s := by cases x <;> rfl

theorem Pair.upd_congr {α : Type} {p : Pair α} {x : BayId} {f g : α → α} (h : f (p.get x) = g (p.get x)) : p.upd x f = p.upd x g := by
  cases x with
  | A => exact congrArg (fun a => (⟨a, p.b⟩ : Pair α)) h
  | B => exact congrArg (fun b => (⟨p.a, b⟩ : Pair α)) h

theorem updRelay_congr {x : BayId} {f g : Relay → Relay} {s : State} (h : f (s.relays.get x) = g (s.relays.get x)) :
    updRelay x f s = updRelay x g s := congrArg (fun r => { s with relays := r }) (Pair.upd_congr h)

theorem updBay_congr {x : BayId} {f g : Bay → Bay} {s : State} (h : f (s.bays.get x) = g (s.bays.get x)) :
    updBay x f s = updBay x g s := congrArg (fun b => { s with bays := b }) (Pair.upd_congr h)

theorem updBay_updBay (x : BayId) (f g : Bay → Bay) (s : State) : updBay x g (updBay x f s) = updBay x (fun b => g (f b)) s := by
  cases x <;> rfl

/-! ### Starting a transaction (R54, R55) -/

section Start
variable {x : BayId} {s : State}

theorem startTx_present (h : (s.bays.get x).presLine = true) (q : Request) (p : Purpose) :
    startTx x q p s = updRelay x (fun r => { r with link := some { req := q, purpose := p, timeout := linkTimeoutMs s } }) s := if_pos h

theorem startTx_absent (h : (s.bays.get x).presLine = false) (q : Request) (p : Purpose) : startTx x q p s = endLost x p s :=
  if_neg (by rw [h]; decide)

/-- R61, R55: an attempt of a poll, which ends without retry where the presence line is released. -/
theorem startTx_poll (q : Request) (f : Relay → Relay) :
    startTx x q .poll (updRelay x f s) = updRelay x (fun r =>
      if (s.bays.get x).presLine then { f r with link := some { req := q, purpose := .poll, timeout := linkTimeoutMs s } }
      else { f r with poll := none }) s := by
  cases h : (s.bays.get x).presLine with
  | true => exact (startTx_present (s := updRelay x f s) h q .poll).trans (updRelay_updRelay ..)
  | false => exact (startTx_absent (s := updRelay x f s) h q .poll).trans (updRelay_updRelay ..)

/-- R62, R55: a read of a probe, which is abandoned where the presence line is released. -/
theorem startTx_probe (q : Request) (f : Relay → Relay) :
    startTx x q .probe (updRelay x f s) = updRelay x (fun r =>
      if (s.bays.get x).presLine then { f r with link := some { req := q, purpose := .probe, timeout := linkTimeoutMs s } }
      else { f r with probe := none }) s := by
  cases h : (s.bays.get x).presLine with
  | true => exact (startTx_present (s := updRelay x f s) h q .probe).trans (updRelay_updRelay ..)
  | false => exact (startTx_absent (s := updRelay x f s) h q .probe).trans (updRelay_updRelay ..)

end Start

/-! ### Polls (R60, R61) -/

theorem pollEligible_iff (s : State) (x : BayId) : pollEligible s x = true ↔ becomesDue s x := by
  unfold pollEligible becomesDue
  simp only [Bool.and_eq_true, Bool.not_eq_true', beq_iff_eq, Option.isNone_iff_eq_none, List.isEmpty_eq_false_iff, and_assoc]

theorem makeDue_of (x : BayId) (s : State) : (becomesDue s x → makeDue x s = updRelay x (fun r => { r with pollDue := true }) s)
    ∧ (¬ becomesDue s x → makeDue x s = s) :=
  ⟨fun h => if_pos ((pollEligible_iff s x).mpr h), fun h => if_neg (mt (pollEligible_iff s x).mp h)⟩

theorem makeDue_frame (x : BayId) (s : State) : makeDue x s = { s with relays := (makeDue x s).relays } := by
  unfold makeDue
  split <;> rfl

theorem get_makeDue (x : BayId) (s : State) : (becomesDue s x → (makeDue x s).relays.get x = { s.relays.get x with pollDue := true })
    ∧ (¬ becomesDue s x → (makeDue x s).relays.get x = s.relays.get x) :=
  ⟨fun h => by rw [(makeDue_of x s).1 h, updRelay_relays, Pair.get_upd_self], fun h => by rw [(makeDue_of x s).2 h]⟩

theorem get_makeDue_other (x : BayId) (s : State) : (makeDue x s).relays.get x.other = s.relays.get x.other := by
  unfold makeDue
  split
  · exact Pair.get_upd_other ..
  · rfl

/-- R60: what makes a bay due is its own relay, its state and HOLD_POLL. -/
theorem becomesDue_congr {s t : State} {x : BayId} (hb : t.bays = s.bays) (hf : t.flags = s.flags)
    (hr : t.relays.get x = s.relays.get x) : becomesDue t x ↔ becomesDue s x := by
  unfold becomesDue
  rw [hb, hf, hr]

theorem pollPeriodOut_eq (s : State) : pollPeriodOut s = makeDue .B (makeDue .A { s with pollTimer := pollPeriod s }) := rfl

theorem pollPeriodOut_frame (s : State) :
    pollPeriodOut s = { s with pollTimer := pollPeriod s, relays := (pollPeriodOut s).relays } := by
  rw [pollPeriodOut_eq, makeDue_frame .B, makeDue_frame .A]

theorem get_pollPeriodOut (x : BayId) (s : State) :
    (becomesDue s x → (pollPeriodOut s).relays.get x = { s.relays.get x with pollDue := true })
      ∧ (¬ becomesDue s x → (pollPeriodOut s).relays.get x = s.relays.get x) := by
  rw [pollPeriodOut_eq]
  have hA := get_makeDue .A { s with pollTimer := pollPeriod s }
  cases x with
  | A =>
    have hB : (makeDue .B (makeDue .A { s with pollTimer := pollPeriod s })).relays.get .A
        = (makeDue .A { s with pollTimer := pollPeriod s }).relays.get .A := get_makeDue_other .B _
    rw [hB]
    exact hA
  | B =>
    have hB := get_makeDue .B (makeDue .A { s with pollTimer := pollPeriod s })
    have hrelay := get_makeDue_other .A { s with pollTimer := pollPeriod s }
    have hdue : becomesDue (makeDue .A { s with pollTimer := pollPeriod s }) .B ↔ becomesDue s .B :=
      becomesDue_congr (by rw [makeDue_frame .A]) (by rw [makeDue_frame .A]) hrelay
    rw [hdue] at hB
    exact hrelay ▸ hB

section Polls
variable {x : BayId} {s : State}

theorem startPoll_of_not (h : ¬ ((s.relays.get x).pollDue = true ∧ linkFree s x = true)) : startPoll x s = s := by
  unfold startPoll
  split
  · exact if_neg h
  · rfl

theorem startPoll_of_code {c : Code} (hc : (s.relays.get x).ring[(s.relays.get x).ptr]? = some c)
    (hd : (s.relays.get x).pollDue = true) (hf : linkFree s x = true) :
    startPoll x s = startTx x (readRequest c (governing s.mapInst (mapInService s) c)) .poll
      (updRelay x (fun r => { r with
        pollDue := false, ptr := (r.ptr + 1) % r.ring.length,
        poll := some { code := c, gov := governing s.mapInst (mapInService s) c, attempts := 1 } }) s) := by
  unfold startPoll
  rw [hc]
  exact if_pos ⟨hd, hf⟩

theorem retryPoll_of_none (h : (s.relays.get x).poll = none) : retryPoll x s = s := by
  unfold retryPoll
  rw [h]

theorem retryPoll_of_some {p : Poll} (h : (s.relays.get x).poll = some p) : retryPoll x s =
    if pollInFlight (s.relays.get x) then s
    else if ¬ (steady (s.bays.get x).state ∧ (s.relays.get x).recover = .notRunning) then updRelay x (fun r => { r with poll := none }) s
    else if linkFree s x then
      startTx x (readRequest p.code p.gov) .poll (updRelay x (fun r => { r with poll := some { p with attempts := p.attempts + 1 } }) s)
    else s := by
  unfold retryPoll
  rw [h]

end Polls

/-- Settles O27: the poll period makes bays due, a due poll starts, and a failed one is attempted again. -/
theorem pollsComeDueStartAndRetry : Obligations.PollsComeDueStartAndRetry := by
  refine ⟨fun s => ⟨_, rfl, ?timer, fun x => get_pollPeriodOut x s, ?frame⟩,
    fun x s => ⟨fun hnot => ?busy, fun hc => ?noCode, fun c hd hl hs hc => ?starts⟩,
    fun x s => ⟨fun hp => congrArg _ (retryPoll_of_none hp), fun p hp => ⟨fun hfly => ?flies, fun hfly =>
      ⟨fun hout => ?ends, fun hst hrec => ⟨fun hnot => ?waits, fun hl hs => ?again⟩⟩⟩⟩⟩
  case timer => rw [pollPeriodOut_frame]
  case frame => rw [pollPeriodOut_frame]
  case busy => exact congrArg _ (startPoll_of_not fun ⟨hd, hf⟩ => hnot ⟨hd, (linkFree_iff s x).mp hf⟩)
  case noCode =>
    show Host.Outcome.next (startPoll x s) = _
    rw [startPoll, hc]
  case starts => exact congrArg _ ((startPoll_of_code hc hd ((linkFree_iff s x).mpr ⟨hl, hs⟩)).trans (startTx_poll ..))
  case flies => exact congrArg _ ((retryPoll_of_some hp).trans (if_pos hfly))
  case ends =>
    have hnot : ¬ (steady (s.bays.get x).state = true ∧ (s.relays.get x).recover = .notRunning) := fun ⟨hst, hrec⟩ =>
      hout.elim (fun e => Bool.false_ne_true (e.symm.trans hst)) fun e => e hrec
    exact congrArg _ ((retryPoll_of_some hp).trans (by rw [hfly, if_neg Bool.false_ne_true, if_pos hnot]))
  case waits =>
    have hbusy : ¬ linkFree s x = true := fun h => hnot ((linkFree_iff s x).mp h)
    exact congrArg _ ((retryPoll_of_some hp).trans (by
      rw [hfly, if_neg Bool.false_ne_true, if_neg (not_not.mpr ⟨hst, hrec⟩), if_neg hbusy]))
  case again =>
    have hfree : linkFree s x = true := (linkFree_iff s x).mpr ⟨hl, hs⟩
    have hrun : retryPoll x s = _ := (retryPoll_of_some hp).trans (by
      rw [hfly, if_neg Bool.false_ne_true, if_neg (not_not.mpr ⟨hst, hrec⟩), if_pos hfree])
    exact congrArg _ (hrun.trans (startTx_poll ..))

/-! ### Probe reads and the slot (R57, R62) -/

section Probe
variable {x : BayId} {s : State}

theorem startProbeRead_of_not (h : ¬ ((s.bays.get x).state = .probing ∧ linkFree s x = true)) : startProbeRead x s = s := by
  unfold startProbeRead
  split
  · split
    · exact if_neg h
    · rfl
  · rfl

theorem startProbeRead_of_done (h : ∀ p, (s.relays.get x).probe = some p → p.reads = []) : startProbeRead x s = s := by
  unfold startProbeRead
  split
  · next p hp => rw [h p hp]
  · rfl

theorem startProbeRead_of_read {p : Probe} {r : ProbeRead} {rest : List ProbeRead} (hp : (s.relays.get x).probe = some p)
    (hr : p.reads = r :: rest) (hst : (s.bays.get x).state = .probing) (hf : linkFree s x = true) :
    startProbeRead x s = startTx x (readRequest r.code r.gov) .probe
      (updRelay x (fun q => { q with probe := some { p with attempts := p.attempts + 1 } }) s) := by
  unfold startProbeRead
  rw [hp]
  simp only [hr]
  exact if_pos ⟨hst, hf⟩

theorem startSlot_of_none (h : (s.relays.get x).slot = none) : startSlot x s = s := by
  unfold startSlot
  rw [h]

theorem startSlot_of_busy (h : (s.relays.get x).link ≠ none) : startSlot x s = s := by
  unfold startSlot
  split
  · exact if_neg (by rwa [Option.isNone_iff_eq_none])
  · rfl

theorem startSlot_of_some {q : Request} (hq : (s.relays.get x).slot = some q) (hl : (s.relays.get x).link = none) :
    startSlot x s = if served s x then startTx x q .platform (updRelay x (fun r => { r with slot := none }) s)
      else endUpstream .refused (updRelay x (fun r => { r with slot := none }) s) := by
  unfold startSlot
  rw [hq]
  exact if_pos (Option.isNone_iff_eq_none.mpr hl)

end Probe

/-- Settles O28: the next read of a probe and the transaction in the slot start on a free link. -/
theorem probeReadsAndSlotsStart : Obligations.ProbeReadsAndSlotsStart := by
  refine ⟨fun x s => ⟨fun hnot => ?busy, fun hdone => congrArg _ (startProbeRead_of_done hdone), fun p r rest hp hr hst hl hs => ?read⟩,
    fun x s => ⟨fun hq => congrArg _ (startSlot_of_none hq), fun hl => congrArg _ (startSlot_of_busy hl),
      fun q hq hl => ⟨fun hsrv hline => ?starts, fun hnot => ?refused⟩⟩⟩
  case busy =>
    exact congrArg _ (startProbeRead_of_not fun ⟨hst, hf⟩ => hnot ⟨hst, (linkFree_iff s x).mp hf⟩)
  case read =>
    exact congrArg _ ((startProbeRead_of_read hp hr hst ((linkFree_iff s x).mpr ⟨hl, hs⟩)).trans (startTx_probe ..))
  case starts =>
    exact congrArg _ ((startSlot_of_some hq hl).trans ((if_pos hsrv).trans
      ((startTx_present (s := updRelay x (fun r => { r with slot := none }) s) hline q .platform).trans (updRelay_updRelay ..))))
  case refused =>
    refine congrArg _ ((startSlot_of_some hq hl).trans ?_)
    by_cases hsrv : served s x = true
    · have hline : (s.bays.get x).presLine = false := Bool.eq_false_iff.mpr fun h => hnot ⟨hsrv, h⟩
      exact (if_pos hsrv).trans (startTx_absent (s := updRelay x (fun r => { r with slot := none }) s) hline q .platform)
    · exact if_neg hsrv

/-! ### The forwarding point (R50, R53, R57) -/

section Forward
variable {s : State}

theorem forward_idle {u : UpTx} (hl : (s.relays.get u.bay).link = none) (q : Request) (n : Nat) :
    forward u q n s = startTx u.bay q .platform (setStage u (.stretched n) .stretched s) := if_pos (Option.isNone_iff_eq_none.mpr hl)

theorem forward_busy {u : UpTx} (hl : (s.relays.get u.bay).link ≠ none) (q : Request) (n : Nat) :
    forward u q n s = updRelay u.bay (fun r => { r with slot := some q }) (setStage u (.stretched n) .stretched s) :=
  if_neg (by rwa [Option.isNone_iff_eq_none])

theorem forwardingPoint_unserved {u : UpTx} (h : served s u.bay = false) (q : Request) (n : Nat) :
    forwardingPoint u q n s = endUpstream .refused s := if_neg (by rw [h]; decide)

/-- R53: a transaction that the cache does not serve is forwarded. -/
theorem forwardingPoint_missed {u : UpTx} {q : Request} (h : served s u.bay = true)
    (hc : q.kind = .readValue → steady (s.bays.get u.bay).state = true → cacheServes s u.bay q.code q.gov = none) (n : Nat) :
    forwardingPoint u q n s = forward u q n s := by
  unfold forwardingPoint
  rw [if_pos h]
  split
  · next hk => rw [hc hk.1 hk.2]
  · rfl

theorem forwardingPoint_hit {u : UpTx} {q : Request} {w : Way} {v : Half} (h : served s u.bay = true) (hk : q.kind = .readValue)
    (hs : steady (s.bays.get u.bay).state = true) (hc : cacheServes s u.bay q.code q.gov = some (w, v)) (n : Nat) :
    forwardingPoint u q n s
      = endUpstream (.data (readOut n (le16 v.toNat))) (updSet (setOf q.code) (fun cs => cs.touch w) s) := by
  unfold forwardingPoint
  rw [if_pos h, if_pos ⟨hk, hs⟩, hc]

/-- The kind of a transaction is its kind marker with its direction (R48). -/
theorem kindOf_eq (k : TxKind) : kindOf (k == .readBlock || k == .writeBlock) (k == .writeValue || k == .writeBlock) = k := by
  cases k <;> rfl

theorem reachForwarding_of_directed {u : UpTx} {k : TxKind} {c : Code} (hu : s.upstream.tx = some u) (hd : directedFor u k c)
    (p : List Byte) (n : Nat) :
    reachForwarding k p n s = forwardingPoint u { kind := k, code := c, payload := p, gov := governing u.inst u.map c } n s := by
  unfold reachForwarding
  rw [hu]
  simp only [show u.stage = _ from hd, if_pos (kindOf_eq k)]

/-- The four rows of the forwarding point. -/
theorem exec_forwards {i : Instr} {k : TxKind} {bytes : List Byte} {n : Nat} (h : forwards i k bytes n) :
    exec i s = .next (reachForwarding k bytes n s) := by
  cases i with
  | readValue m => obtain ⟨rfl, rfl, rfl⟩ := h; rfl
  | readBlock m => obtain ⟨rfl, rfl, rfl⟩ := h; rfl
  | writeValue lo hi => obtain ⟨rfl, rfl, rfl⟩ := h; rfl
  | writeBlock data =>
    obtain ⟨rfl, rfl, rfl, hlo, hhi⟩ := h
    exact congrArg _ (if_pos ⟨hlo, hhi⟩)
  | _ => exact h.elim

end Forward

/-- Settles O38: at its forwarding point a transaction is refused, starts, or waits in the slot. -/
theorem forwardingPoints : Obligations.ForwardingPoint := by
  intro i k bytes n c u s hi hu hd
  have hrun := (exec_forwards (s := s) hi).trans (congrArg _ (reachForwarding_of_directed hu hd bytes n))
  refine ⟨fun hsrv => hrun.trans (congrArg _ (forwardingPoint_unserved hsrv _ _)), fun hsrv hmiss => ?_⟩
  have hfwd := hrun.trans (congrArg _ (forwardingPoint_missed hsrv hmiss n))
  refine ⟨fun hl hline => ?starts, fun hl hline => ?lost, fun hl => hfwd.trans (congrArg _ (forward_busy hl _ _))⟩
  case starts => exact hfwd.trans (congrArg _ ((forward_idle hl _ _).trans (startTx_present (s := setStage u _ _ s) hline _ _)))
  case lost => exact hfwd.trans (congrArg _ ((forward_idle hl _ _).trans (startTx_absent (s := setStage u _ _ s) hline _ _)))

end Sys2Proof.Machine
end

