-- ==== Sys2Proof/Proofs/CacheService.lean ====
section
/-! PROOFS. The Reading Cache: what it serves (R87), fills and replacement (R85, R86, R89 to R91), and write-throughs (R92, R93). -/

namespace Sys2Proof.Machine

/-! ### Service (R53, R87, R88) -/

section Serve
variable {s : State} {x : BayId} {c : Code} {g : Governing} {w : Way}

theorem cacheServes_of_miss (h : (cacheSet s.cache (setOf c)).find x c = none) : cacheServes s x c g = none := by
  rw [cacheServes, h]

theorem cacheServes_of_found (h : (cacheSet s.cache (setOf c)).find x c = some w) : cacheServes s x c g =
    if ((cacheSet s.cache (setOf c)).get w).state = .fresh
        ∧ (g.cls = .fixed ∨ (g.cls = .timed ∧ ((cacheSet s.cache (setOf c)).get w).age < g.maxAge)) then
      some (w, ((cacheSet s.cache (setOf c)).get w).value)
    else none := by
  rw [cacheServes, h]

end Serve

theorem exec_readValue (n : Nat) (s : State) : exec (.readValue n) s = .next (reachForwarding .readValue [] n s) := rfl

/-! ### The ways of a set (R85, R86) -/

section Ways
variable (cs : CacheSet)

@[simp] theorem CacheSet.get_put_self (w : Way) (l : Line) : (cs.put w l).get w = l := by cases w <;> rfl

theorem CacheSet.get_put_ne {w w' : Way} (h : w' ≠ w) (l : Line) : (cs.put w l).get w' = cs.get w' := by
  cases w <;> cases w' <;> first | exact absurd rfl h | rfl

@[simp] theorem CacheSet.get_touch (w w' : Way) : (cs.touch w).get w' = cs.get w' := by cases w <;> cases w' <;> rfl

theorem CacheSet.bits_put (w : Way) (l : Line) :
    (cs.put w l).s0 = cs.s0 ∧ (cs.put w l).s1 = cs.s1 ∧ (cs.put w l).s2 = cs.s2 := by cases w <;> exact ⟨rfl, rfl, rfl⟩

theorem CacheSet.bits_touch (w : Way) : ((cs.touch w).s0, (cs.touch w).s1, (cs.touch w).s2) = (match w with
    | .w0 => (true, true, cs.s2)
    | .w1 => (true, false, cs.s2)
    | .w2 => (false, cs.s1, true)
    | .w3 => (false, cs.s1, false)) := by cases w <;> rfl

variable {cs} {i : Nat} {x : BayId} {c : Code}

/-- R85: two ways of a set do not hold the same bay and code. -/
theorem apart_of_setLaw (h : setLaw i cs) {w w' : Way} (hw : w ≠ w') : apart (cs.get w) (cs.get w') := by
  obtain ⟨-, -, -, -, h01, h02, h03, h12, h13, h23⟩ := h
  cases w <;> cases w'
  case w0.w1 => exact h01
  case w0.w2 => exact h02
  case w0.w3 => exact h03
  case w1.w2 => exact h12
  case w1.w3 => exact h13
  case w2.w3 => exact h23
  case w1.w0 => exact apart_comm h01
  case w2.w0 => exact apart_comm h02
  case w3.w0 => exact apart_comm h03
  case w2.w1 => exact apart_comm h12
  case w3.w1 => exact apart_comm h13
  case w3.w2 => exact apart_comm h23
  all_goals exact absurd rfl hw

theorem find_eq_none_iff : cs.find x c = none ↔ ∀ w, (cs.get w).holds x c = false := by
  refine ⟨find_none, fun h => ?_⟩
  cases hf : cs.find x c with
  | none => rfl
  | some w => exact absurd (find_some hf) (by rw [h w]; decide)

theorem find_eq_of_holds (h : setLaw i cs) {w : Way} (hw : (cs.get w).holds x c = true) : cs.find x c = some w := by
  cases hf : cs.find x c with
  | none => exact absurd hw (by rw [find_none hf w]; decide)
  | some w' =>
    obtain ⟨hv, hb, hc⟩ := (holds_iff ..).mp hw
    obtain ⟨hv', hb', hc'⟩ := (holds_iff ..).mp (find_some hf)
    by_contra hne
    exact apart_of_setLaw h (fun e => hne (congrArg some e)) ⟨hv', hv, hb'.trans hb.symm, hc'.trans hc.symm⟩

/-- R90: the first invalid way, or the way that the replacement bits name. -/
theorem victim_spec (cs : CacheSet) :
    (cs.l0.valid = false → cs.victim = .w0)
      ∧ (cs.l0.valid = true → cs.l1.valid = false → cs.victim = .w1)
      ∧ (cs.l0.valid = true → cs.l1.valid = true → cs.l2.valid = false → cs.victim = .w2)
      ∧ (cs.l0.valid = true → cs.l1.valid = true → cs.l2.valid = true → cs.l3.valid = false → cs.victim = .w3)
      ∧ ((∀ w, (cs.get w).valid = true) →
          cs.victim = if cs.s0 then (if cs.s2 then .w3 else .w2) else (if cs.s1 then .w1 else .w0)) := by
  rw [CacheSet.victim]
  refine ⟨fun h0 => by rw [h0]; rfl, fun h0 h1 => by rw [h0, h1]; rfl, fun h0 h1 h2 => by rw [h0, h1, h2]; rfl,
    fun h0 h1 h2 h3 => by rw [h0, h1, h2, h3]; rfl, fun hall => ?_⟩
  have h0 : cs.l0.valid = true := hall .w0
  have h1 : cs.l1.valid = true := hall .w1
  have h2 : cs.l2.valid = true := hall .w2
  have h3 : cs.l3.valid = true := hall .w3
  rw [h0, h1, h2, h3]
  cases cs.s0 <;> cases cs.s1 <;> cases cs.s2 <;> rfl

/-- R89: the way that a fill takes. -/
def CacheSet.fillWay (cs : CacheSet) (x : BayId) (c : Code) : Way := (cs.find x c).getD cs.victim

theorem fill_eq (cs : CacheSet) (x : BayId) (c : Code) (v : Half) : cs.fill x c v
    = (cs.put (cs.fillWay x c) { valid := true, bay := x, code := c, value := v, state := .fresh, age := 0 }).touch (cs.fillWay x c) := rfl

end Ways

/-! ### Write-throughs (R92, R93) -/

section Write
variable {s : State} {x : BayId} {c : Code} {g : Governing} {w : Way}

theorem cacheWrite_of_inst (h : g.inst ≠ s.mapInst) (v : Half) : cacheWrite x c g v s = s := if_neg h

theorem cacheWrite_of_miss (h : (cacheSet s.cache (setOf c)).find x c = none) (v : Half) : cacheWrite x c g v s = s := by
  rw [cacheWrite, h]
  exact ite_self s

theorem cacheWrite_of_found (hi : g.inst = s.mapInst) (h : (cacheSet s.cache (setOf c)).find x c = some w) (v : Half) :
    cacheWrite x c g v s = updSet (setOf c) (fun cs => cs.put w (writeLine (steady (s.bays.get x).state) v (cs.get w))) s := by
  rw [cacheWrite, if_pos hi, h]

theorem writeLine_eq (b : Bool) (v : Half) (l : Line) : writeLine b v l =
    if b then (if l.state = .parked then l else { l with value := v, state := .fresh, age := 0 }) else Line.invalid := by
  obtain ⟨valid, bay, code, value, state, age⟩ := l
  cases b <;> cases state <;> rfl

theorem cacheFailedWrite_of_miss (h : (cacheSet s.cache (setOf c)).find x c = none) : cacheFailedWrite x c s = s := by
  rw [cacheFailedWrite, h]

theorem cacheFailedWrite_of_found (h : (cacheSet s.cache (setOf c)).find x c = some w) :
    cacheFailedWrite x c s = updSet (setOf c) (fun cs => cs.put w (cs.get w).distrust) s := by
  rw [cacheFailedWrite, h]

theorem distrust_of_valid {l : Line} (h : l.valid = true) : l.distrust = if l.state = .fresh then { l with state := .suspect } else l :=
  ite_congr (propext (and_iff_right h)) (fun _ => rfl) fun _ => rfl

end Write

/-- Settles O39: the line that serves a read, the way that a fill takes, and the line that a write changes. -/
theorem cacheServesAndFills : Obligations.CacheServesAndFills := by
  refine ⟨⟨fun n c u s w v hu hd hsrv hst hc => ?served, fun s x c g => ⟨fun h => cacheServes_of_miss h,
      fun w hw => ⟨fun hfresh hcls => ?serves, fun hnot => ?stale⟩⟩⟩,
    fun cs x c v h => ⟨cs.fillWay x c, ?line, fun w hw => ?others, fun w hw => ?hit, fun hmiss => ?miss, ?bits⟩,
    fun cs x c => ⟨?none, fun w hw => (holds_iff ..).mp (find_some hw)⟩,
    fun x c g v s => ⟨fun hi => cacheWrite_of_inst hi v, fun hf => ⟨cacheWrite_of_miss hf v, cacheFailedWrite_of_miss hf⟩,
      fun w l hf hl => ⟨fun hi => ?write, ?failed⟩⟩⟩
  case served =>
    rw [exec_readValue, reachForwarding_of_directed hu hd, forwardingPoint_hit hsrv rfl hst hc]
    rfl
  case serves => rw [cacheServes_of_found hw, if_pos ⟨hfresh, hcls⟩]
  case stale =>
    have hno : ¬ (((cacheSet s.cache (setOf c)).get w).state = .fresh
        ∧ (g.cls = .fixed ∨ (g.cls = .timed ∧ ((cacheSet s.cache (setOf c)).get w).age < g.maxAge))) := by
      rintro ⟨hfresh, hcls⟩
      obtain hstale | hnone | ⟨htimed, hold⟩ := hnot
      · exact hstale hfresh
      · rw [hnone] at hcls
        exact hcls.elim (fun e => by cases e) fun e => by cases e.1
      · rw [htimed] at hcls
        exact hcls.elim (fun e => by cases e) fun e => Nat.not_lt.mpr hold e.2
    rw [cacheServes_of_found hw, if_neg hno]
  case line => rw [fill_eq, CacheSet.get_touch, CacheSet.get_put_self]
  case others => rw [fill_eq, CacheSet.get_touch, CacheSet.get_put_ne _ hw]
  case hit => rw [CacheSet.fillWay, find_eq_of_holds h hw, Option.getD_some]
  case miss =>
    rw [CacheSet.fillWay, find_eq_none_iff.mpr hmiss, Option.getD_none]
    exact victim_spec cs
  case bits =>
    obtain ⟨-, h1, h2⟩ := cs.bits_put (cs.fillWay x c) { valid := true, bay := x, code := c, value := v, state := .fresh, age := 0 }
    rw [fill_eq, CacheSet.bits_touch, h1, h2] <;> rfl
  case none => simp only [find_eq_none_iff, ← holds_iff, Bool.not_eq_true]
  case write =>
    rw [cacheWrite_of_found hi hf, hl]
    simp only [writeLine_eq]
    rfl
  case failed =>
    obtain ⟨hv, -, -⟩ := (holds_iff ..).mp (find_some hf)
    rw [cacheFailedWrite_of_found hf, hl, ← distrust_of_valid hv]
    rfl

end Sys2Proof.Machine
end

