-- ==== Sys2Proof/Proofs/UpstreamBytes.lean ====
section
/-! PROOFS. The bytes of the upstream link: address bytes (R48 to R52, R181), the bytes of a command at MGMT (R180, R183), and the code byte, the
direction and the length byte of a platform transaction (R49, R73 to R75). -/

namespace Sys2Proof.Machine

/-! ### Code bytes (section 10.7.1) -/

theorem codeByteBlock_eq (b : Byte) : codeByteBlock b = b.getLsbD 7 := (BitVec.msb_eq_decide b).symm

theorem codeByteCode_eq (b : Byte) : codeByteCode b = b.setWidth 7 := by
  refine BitVec.eq_of_toNat_eq ?_
  rw [codeByteCode, BitVec.toNat_ofNat, BitVec.toNat_setWidth]

/-- R180: of the code bytes with the block marker 80h alone names code 0. -/
theorem codeByteCode_eq_zero {b : Byte} (h : b.getLsbD 7 = true) : codeByteCode b = 0 ↔ b = 0x80 := by
  have hb : 128 ≤ b.toNat := of_decide_eq_true ((codeByteBlock_eq b).trans h)
  have hlt := b.isLt
  rw [codeByteCode, BitVec.toNat_eq, BitVec.toNat_eq, BitVec.toNat_ofNat]
  show b.toNat % 2 ^ 7 = 0 ↔ b.toNat = 128
  omega

theorem mgmtCode_of_clear {b : Byte} (h : b.getLsbD 7 = false) : mgmtCode b = none :=
  if_neg (of_decide_eq_false ((codeByteBlock_eq b).trans h))

theorem mgmtCode_of_set {b : Byte} (h : b.getLsbD 7 = true) : mgmtCode b = some (codeByteCode b) :=
  if_pos (of_decide_eq_true ((codeByteBlock_eq b).trans h))

theorem commandRow_isSome {c : BitVec 7} (h : c ≠ 0) (p : List Byte) : (commandRow c p).isSome = true := by
  unfold commandRow
  split
  next h0 => exact absurd (BitVec.eq_of_toNat_eq h0) h
  all_goals rfl

/-- R180, R185: a result read is code byte 80h at MGMT. -/
theorem mgmtRead_eq (b : Byte) (a : Addr) (n : Nat) :
    mgmtRead b a n = if b = 0x80 ∧ a = 0x29 then some (.resultRead n) else none := by
  have hcode : mgmtCode b = some 0 ↔ b = 0x80 := by
    cases h : b.getLsbD 7 with
    | true => rw [mgmtCode_of_set h, Option.some_inj, codeByteCode_eq_zero h]
    | false =>
      rw [mgmtCode_of_clear h]
      exact ⟨(fun e => by cases e), fun e => by rw [e] at h; cases h⟩
  exact if_congr (and_congr_left' hcode) rfl rfl

/-! ### Rows of bytes -/

theorem exec_platformAddress (a : Addr) (r : Bool) (s : State) : exec (.platformAddress a r) s = .next (takeAddress a r s) := rfl

theorem exec_codeByteCheck (b : Byte) (s : State) : exec (.codeByteCheck b) s = .next (takeCodeByte b s) := rfl

theorem exec_readAddress (a : Addr) (s : State) : exec (.permitCheck (.readAddress a)) s = .next (takeDirection (.readAddress a) s) := rfl

theorem exec_writeByte (b : Byte) (s : State) :
    exec (.permitCheck (.writeByte b)) s = acceptOr b (takeDirection (.writeByte b) s) s := rfl

theorem exec_lengthByte (b : Byte) (s : State) : exec (.writeBlockLengthRefuse b) s = acceptOr b (takeLength b s) s := rfl

theorem acceptOr_of_none {b : Byte} {s : State} (h : completedBy b s.upstream = none) (t : State) : acceptOr b t s = .next t := by
  rw [acceptOr, h]

/-- R183: a byte that completes a command runs its row. -/
theorem acceptOr_of_some {b : Byte} {s : State} {j : Instr} (h : completedBy b s.upstream = some j) (t : State) :
    acceptOr b t s = exec j s := by
  obtain ⟨c, p, hc⟩ := commandRow_of_completedBy h
  rw [acceptOr, h]
  exact runCommand_eq_exec hc s

theorem completedBy_of_tx {b : Byte} {u : UpTx} {l : Upstream} (h : l.tx = some u) : completedBy b l = none := by
  rw [completedBy, h]

/-- With no transaction at all on the link a byte is refused, and the answer is all that the link then holds. -/
theorem outOfPlace_of_none {s : State} (ht : s.upstream.tx = none) (hm : s.upstream.mgmt = none) :
    outOfPlace s = endUpstream .refused s := by
  have hfree : upStretched s = false := by rw [upStretched, ht]
  have hlink : ({ s.upstream with answer := .refused } : Upstream) = { tx := none, answer := .refused } := by
    show ({ tx := s.upstream.tx, answer := .refused, mgmt := s.upstream.mgmt } : Upstream) = _
    rw [ht, hm]
  rw [outOfPlace, hfree, if_neg Bool.false_ne_true]
  exact congrArg (fun l => { s with upstream := l }) hlink

/-! ### Address bytes (R48 to R52) -/

section Address
variable {s : State} {a : Addr}

theorem takeAddress_held (h : upStretched s = true) (r : Bool) : takeAddress a r s = setAnswer .held s := if_pos h

theorem takeAddress_free (h : upStretched s = false) (r : Bool) : takeAddress a r s =
    if a = 0x29 then takeMgmtAddress r s
    else if r then endUpstream .refused s
    else match addressedBay s a with
      | some x => { s with upstream := {
          tx := some { addr := a, bay := x, inst := s.mapInst, map := mapInService s, stage := .addressed },
          answer := .acknowledged } }
      | none => endUpstream .refused s := by
  rw [takeAddress, h]
  rfl

theorem takeAddress_reached (h : upStretched s = false) (ha : a ≠ 0x29) {x : BayId} (hx : addressedBay s a = some x) :
    takeAddress a false s = { s with upstream := {
      tx := some { addr := a, bay := x, inst := s.mapInst, map := mapInService s, stage := .addressed },
      answer := .acknowledged } } := by
  rw [takeAddress_free h, if_neg ha, if_neg Bool.false_ne_true, hx]

theorem takeAddress_missed (h : upStretched s = false) (ha : a ≠ 0x29) (hx : addressedBay s a = none) :
    takeAddress a false s = endUpstream .refused s := by
  rw [takeAddress_free h, if_neg ha, if_neg Bool.false_ne_true, hx]

/-- R48, R50: the bay addresses reach their bay while it is served. -/
theorem addressedBay_of_bay {x : BayId} (h : (a = 0x2A ∧ x = .A) ∨ (a = 0x2B ∧ x = .B)) :
    addressedBay s a = if served s x then some x else none := by
  obtain ⟨rfl, rfl⟩ | ⟨rfl, rfl⟩ := h <;> rfl

end Address

/-! ### The bytes behind the code byte at MGMT (R180, R183) -/

section Mgmt
variable {s : State} (ht : s.upstream.tx = none)

include ht

theorem takeCodeByte_mgmt (b : Byte) : takeCodeByte b s = mgmtCodeByte b s := by
  rw [takeCodeByte, ht]

theorem takeDirection_mgmt (d : DirByte) : takeDirection d s = mgmtDirection d s := by
  rw [takeDirection, ht]

theorem takeLength_mgmt (b : Byte) : takeLength b s = mgmtByte b s := by
  rw [takeLength, ht]

/-- The two rows of a byte behind the code byte take it alike. -/
theorem exec_mgmtByte {i : Instr} {b : Byte} (hi : i = .permitCheck (.writeByte b) ∨ i = .writeBlockLengthRefuse b) :
    exec i s = acceptOr b (mgmtByte b s) s := by
  obtain rfl | rfl := hi
  · rw [exec_writeByte, takeDirection_mgmt ht]
    rfl
  · rw [exec_lengthByte, takeLength_mgmt ht]

theorem completedBy_command {c : BitVec 7} (hm : s.upstream.mgmt = some (.command c)) (b : Byte) :
    completedBy b s.upstream = if b = 0 then commandRow c [] else none := by
  rw [completedBy, ht, hm]

theorem completedBy_last {c : BitVec 7} {got : List Byte} (hm : s.upstream.mgmt = some (.params c 1 got)) (b : Byte) :
    completedBy b s.upstream = commandRow c (got ++ [b]) := by
  rw [completedBy, ht, hm]
  rfl

theorem completedBy_more {c : BitVec 7} {k : Nat} {got : List Byte} (hk : k ≠ 0) (hm : s.upstream.mgmt = some (.params c (k + 1) got))
    (b : Byte) : completedBy b s.upstream = none := by
  obtain ⟨k, rfl⟩ := Nat.exists_eq_succ_of_ne_zero hk
  rw [completedBy, ht, hm]
  rfl

theorem completedBy_result (hm : s.upstream.mgmt = some .resultNamed) (b : Byte) : completedBy b s.upstream = none := by
  rw [completedBy, ht, hm]

theorem completedBy_idle (hm : s.upstream.mgmt = none) (b : Byte) : completedBy b s.upstream = none := by
  rw [completedBy, ht, hm]

end Mgmt

theorem mgmtCodeByte_addressed {s : State} (hm : s.upstream.mgmt = some .addressed) (b : Byte) : mgmtCodeByte b s =
    if codeByteBlock b then
      if codeByteCode b = 0 then setMgmt .resultNamed .acknowledged s
      else if s.port.slot = .empty then setMgmt (.command (codeByteCode b)) .acknowledged s
      else endUpstream .refused s
    else endUpstream .refused s := by
  rw [mgmtCodeByte, hm]

/-- Settles O36: the address byte, the code byte at MGMT, and the bytes behind it. -/
theorem addressByteIsTaken : Obligations.AddressByteIsTaken := by
  refine ⟨fun a s => ⟨fun h r => congrArg _ (takeAddress_held h r), fun h ha => ?read, fun h x hx => ⟨fun hsrv => ?bay, fun hsrv => ?noBay⟩,
      fun h ha => ⟨fun x hx => ?active, fun hx => ?noActive⟩, fun h h29 h2A h2B h2D => ?elsewhere, fun h ha => ?mgmt⟩,
    fun b s ht hm => ⟨fun hb => ?clear, fun hb => ?result, fun hb hne => ⟨fun hslot => ?command, fun hslot => ?full⟩⟩,
    fun a s ht hm => ⟨fun b => ?resultByte, fun ha => ?resultRead, fun ha => ?resultElsewhere⟩,
    fun c b s i ht hi => ⟨fun hm => ⟨fun hb => ?length, fun hb j hj => ?noParams⟩,
      fun k got hm => ⟨fun hk => ?more, fun hk j hj => ?last⟩, fun hm => ?beyond⟩,
    fun c a s ht hm => ?readCommand, fun i j s hc => ?completes,
    fun b a p n => ⟨fun hb => ?noWrite, fun hb hne => ?write, mgmtRead_eq b a n⟩⟩
  case read => rw [exec_platformAddress, takeAddress_free h, if_neg ha, if_pos rfl]; rfl
  case bay =>
    have hne : a ≠ 0x29 := by obtain ⟨rfl, -⟩ | ⟨rfl, -⟩ := hx <;> decide
    exact congrArg _ (takeAddress_reached h hne (by rw [addressedBay_of_bay hx, hsrv]; rfl))
  case noBay =>
    have hne : a ≠ 0x29 := by obtain ⟨rfl, -⟩ | ⟨rfl, -⟩ := hx <;> decide
    exact congrArg _ (takeAddress_missed h hne (by rw [addressedBay_of_bay hx, hsrv]; rfl))
  case active =>
    subst ha
    exact congrArg _ (takeAddress_reached h (by decide) (show addressedBay s 0x2D = some x from hx))
  case noActive =>
    subst ha
    exact congrArg _ (takeAddress_missed h (by decide) (show addressedBay s 0x2D = none from hx))
  case elsewhere =>
    have hnone : addressedBay s a = none := by
      rw [addressedBay]
      exact (if_neg h2A).trans ((if_neg h2B).trans (if_neg h2D))
    exact congrArg _ (takeAddress_missed h h29 hnone)
  case mgmt =>
    subst ha
    exact ⟨congrArg _ ((takeAddress_free h false).trans (if_pos rfl)), congrArg _ ((takeAddress_free h true).trans (if_pos rfl))⟩
  case clear =>
    rw [exec_codeByteCheck, takeCodeByte_mgmt ht, mgmtCodeByte_addressed hm, codeByteBlock_eq, hb, if_neg Bool.false_ne_true]
    rfl
  case result =>
    subst hb
    rw [exec_codeByteCheck, takeCodeByte_mgmt ht, mgmtCodeByte_addressed hm]
    rfl
  case command =>
    rw [exec_codeByteCheck, takeCodeByte_mgmt ht, mgmtCodeByte_addressed hm, codeByteBlock_eq, if_pos hb,
      if_neg (mt (codeByteCode_eq_zero hb).mp hne), if_pos hslot, codeByteCode_eq]
    rfl
  case full =>
    rw [exec_codeByteCheck, takeCodeByte_mgmt ht, mgmtCodeByte_addressed hm, codeByteBlock_eq, if_pos hb,
      if_neg (mt (codeByteCode_eq_zero hb).mp hne), if_neg hslot]
    rfl
  case resultByte =>
    rw [exec_mgmtByte ht (.inl rfl), acceptOr_of_none (completedBy_result ht hm b), mgmtByte, hm]
    rfl
  case resultRead =>
    rw [exec_readAddress, takeDirection_mgmt ht, mgmtDirection, mgmtReadAddress, hm]
    exact congrArg _ (if_pos ha)
  case resultElsewhere =>
    rw [exec_readAddress, takeDirection_mgmt ht, mgmtDirection, mgmtReadAddress, hm]
    exact congrArg _ (if_neg ha)
  case length =>
    rw [exec_mgmtByte ht hi, acceptOr_of_none ((completedBy_command ht hm b).trans (if_neg hb)), mgmtByte, hm]
    rfl
  case noParams =>
    rw [exec_mgmtByte ht hi, acceptOr_of_some ((completedBy_command ht hm b).trans ((if_pos hb).trans hj))]
  case more =>
    rw [exec_mgmtByte ht hi, acceptOr_of_none (completedBy_more ht hk hm b), mgmtByte, hm]
    rfl
  case last =>
    subst hk
    rw [exec_mgmtByte ht hi, acceptOr_of_some ((completedBy_last ht hm b).trans hj)]
  case beyond =>
    rw [exec_mgmtByte ht hi, acceptOr_of_none (completedBy_idle ht hm b), mgmtByte, hm]
    exact congrArg _ (outOfPlace_of_none ht hm)
  case readCommand =>
    rw [exec_readAddress, takeDirection_mgmt ht, mgmtDirection, mgmtReadAddress]
    obtain hm | ⟨k, got, hm⟩ := hm <;> rw [hm] <;> rfl
  case completes =>
    obtain ⟨c, p, hrow⟩ := commandRow_of_completed hc
    exact ⟨exec_completed hc, completed_of_commandRow hrow s⟩
  case noWrite =>
    obtain hb | rfl := hb
    · rw [mgmtWrite, mgmtCode_of_clear hb]
      rfl
    · rfl
  case write =>
    have hw : mgmtWrite b p = commandRow (b.setWidth 7) p := by
      rw [mgmtWrite, mgmtCode_of_set hb, codeByteCode_eq]
      rfl
    rw [hw]
    exact ⟨rfl, commandRow_isSome (codeByteCode_eq b ▸ mt (codeByteCode_eq_zero hb).mp hne) p⟩

/-! ### The code byte, the direction and the length byte of a platform transaction (R49, R73 to R75) -/

section Platform
variable {s : State} {u : UpTx} (hu : s.upstream.tx = some u)

theorem codeAllowed_iff (v : MapView) (c : Code) : codeAllowed v c = true
    ↔ c.toNat < mapLength v ∧ ((mapEntry v c).readPermit = true ∨ (mapEntry v c).writePermit = true) := by
  rw [codeAllowed, Bool.and_eq_true, decide_eq_true_iff, Bool.or_eq_true]

include hu

theorem takeCodeByte_addressed (hst : u.stage = .addressed) (b : Byte) : takeCodeByte b s =
    if codeAllowed u.map (codeByteCode b) then setStage u (.coded (codeByteBlock b) (codeByteCode b)) .acknowledged s
    else deny u.bay (codeByteCode b) s := by
  rw [takeCodeByte, hu]
  simp only [hst]

variable {block : Bool} {c : Code}

theorem takeDirection_readAddress (hst : u.stage = .coded block c) (a : Addr) : takeDirection (.readAddress a) s =
    if a ≠ u.addr then endUpstream .refused s
    else if (mapEntry u.map c).readPermit then setStage u (.directed block c false) .stretched s
    else deny u.bay c s := by
  rw [takeDirection, hu]
  simp only [hst]

theorem takeDirection_writeByte (hst : u.stage = .coded block c) (b : Byte) : takeDirection (.writeByte b) s =
    if (mapEntry u.map c).writePermit then setStage u (.directed block c true) .acknowledged s else deny u.bay c s := by
  rw [takeDirection, hu]
  simp only [hst]

theorem takeLength_directed (hst : u.stage = .directed true c true) (b : Byte) : takeLength b s =
    if b.toNat = 0 ∨ 32 < b.toNat then endUpstream .refused s else setAnswer .acknowledged s := by
  rw [takeLength, hu]
  simp only [hst]

end Platform

theorem exec_transactionAbandon (s : State) : exec .transactionAbandon s = .next (abandonUp s) := rfl

/-- Settles O37: the permit tests, the length byte and the early end of a platform transaction. -/
theorem codesPermitsAndEarlyEnds : Obligations.CodesPermitsAndEarlyEnds := by
  refine ⟨fun b s => ⟨fun u hu hst => ⟨fun hok => ?allowed, fun hno => ?denied⟩, fun ht hm => ?noTx⟩,
    fun s u block c hu hst => ⟨fun a ha => ?elsewhere, fun hr => ?read, fun hr => ?readDenied, fun hw b => ?write, fun hw b => ?writeDenied⟩,
    fun len s u c hu hst => ⟨fun hbad => ?badLength, fun h1 h32 => ?goodLength⟩, fun s hfree => ?abandoned⟩
  case allowed =>
    rw [exec_codeByteCheck, takeCodeByte_addressed hu hst, if_pos ((codeAllowed_iff ..).mpr hok), codeByteBlock_eq]
    rfl
  case denied =>
    rw [exec_codeByteCheck, takeCodeByte_addressed hu hst, if_neg (mt (codeAllowed_iff ..).mp hno)]
    rfl
  case noTx =>
    rw [exec_codeByteCheck, takeCodeByte_mgmt ht, mgmtCodeByte, hm]
    exact congrArg _ (outOfPlace_of_none ht hm)
  case elsewhere => rw [exec_readAddress, takeDirection_readAddress hu hst, if_pos ha]; rfl
  case read => rw [exec_readAddress, takeDirection_readAddress hu hst, if_neg (not_not.mpr rfl), if_pos hr]; rfl
  case readDenied =>
    rw [exec_readAddress, takeDirection_readAddress hu hst, if_neg (not_not.mpr rfl), hr, if_neg Bool.false_ne_true]
    rfl
  case write =>
    rw [exec_writeByte, acceptOr_of_none (completedBy_of_tx hu), takeDirection_writeByte hu hst, if_pos hw]
    rfl
  case writeDenied =>
    rw [exec_writeByte, acceptOr_of_none (completedBy_of_tx hu), takeDirection_writeByte hu hst, hw, if_neg Bool.false_ne_true]
    rfl
  case badLength =>
    rw [exec_lengthByte, acceptOr_of_none (completedBy_of_tx hu), takeLength_directed hu hst, if_pos hbad]
    rfl
  case goodLength =>
    rw [exec_lengthByte, acceptOr_of_none (completedBy_of_tx hu), takeLength_directed hu hst, if_neg (by omega)]
    rfl
  case abandoned =>
    rw [exec_transactionAbandon, abandonUp, hfree, if_neg Bool.false_ne_true]
    rfl

end Sys2Proof.Machine
end

