-- ==== Sys2Proof/Proofs/Settling.lean ====
section
/-! PROOFS. What an action leaves once the STANDBY bays have taken the events it made (R25): a property of one key of the Attention Queue (`OnKey`),
the parts that the switching of bays never touches (`baysOnly`), and a bay that is not STANDBY. -/

namespace Sys2Proof.Machine

/-! ### One key of the Attention Queue -/

/-- `P` depends on the Attention Queue alone, and a posting of another key than `K` keeps it. -/
structure OnKey (K : AttnKey) (P : State → Prop) : Prop where
  same : ∀ s t, t.attn = s.attn → P s → P t
  other : ∀ k d s, k ≠ K → P s → P (post k d s)

theorem onKey_queued (K : AttnKey) (d : Detail) : OnKey K (fun s => queued s K d) where
  same _ _ e h := queued_of_attn e h
  other _ d' _ hk h := queued_post_of_ne d' hk h

section OnKeyWalk
variable {K : AttnKey} {P : State → Prop} {s : State}

theorem OnKey.recompute (k : OnKey K P) (hc : K ≠ .budgetCut) (h : P s) : P (recompute s) := by
  rw [recompute_eq]
  refine k.same { s with attn := cutAttn (computeBudget s).c s.pipe.o s } _ rfl ?_
  unfold cutAttn
  split
  · exact k.same (post .budgetCut (dCeiling (computeBudget s).c) s) _ rfl (k.other _ _ s hc.symm h)
  · exact k.same s _ rfl h

theorem OnKey.setHeld (k : OnKey K P) (x : BayId) (v : Bool) (h : P s) : P (setHeld x v s) := k.same s _ rfl h

theorem OnKey.setSwitch (k : OnKey K P) (hc : K ≠ .budgetCut) (x : BayId) (v : Switch) (h : P s) : P (setSwitch x v s) :=
  k.recompute hc (k.same s _ rfl h)

theorem OnKey.releaseHeldOne (k : OnKey K P) (hc : K ≠ .budgetCut) (x : BayId) (h : P s) : P (releaseHeldOne x s) := by
  unfold Machine.releaseHeldOne
  split
  · exact k.setSwitch hc x _ h
  · exact h

theorem OnKey.releaseHeld (k : OnKey K P) (hc : K ≠ .budgetCut) (h : P s) : P (releaseHeld s) :=
  k.releaseHeldOne hc .B (k.releaseHeldOne hc .A h)

theorem OnKey.endBridge (k : OnKey K P) (hc : K ≠ .budgetCut) (h : P s) : P (endBridge s) := by
  unfold Machine.endBridge
  split
  · exact h
  · exact k.recompute hc (k.same s _ rfl h)

theorem OnKey.switchOn (k : OnKey K P) (hc : K ≠ .budgetCut) (x : BayId) (h : P s) : P (switchOn x s) := by
  unfold Machine.switchOn
  split
  · exact k.setHeld x _ h
  · split
    · exact k.releaseHeld hc (k.endBridge hc (k.setSwitch hc x _ h))
    · exact k.setSwitch hc x _ h

theorem OnKey.switchOff (k : OnKey K P) (hc : K ≠ .budgetCut) (x : BayId) (h : P s) : P (switchOff x s) := by
  unfold Machine.switchOff
  split
  · exact k.setHeld x _ h
  · split
    · exact k.setSwitch hc x _ h
    · exact k.setHeld x _ h

theorem OnKey.requestOn (k : OnKey K P) (hc : K ≠ .budgetCut) (x : BayId) (h : P s) : P (requestOn x s) := by
  unfold Machine.requestOn
  split
  · exact k.switchOff hc _ (k.switchOn hc x h)
  · exact k.switchOn hc x h

theorem OnKey.startBridge (k : OnKey K P) (hc : K ≠ .budgetCut) (hb : K ≠ .bridgeOn) (why : BridgeReason) (h : P s) :
    P (startBridge why s) := by
  unfold Machine.startBridge
  split
  · exact k.releaseHeld hc (k.recompute hc (k.other _ _ _ hb.symm (k.same s _ rfl h)))
  · exact h

theorem OnKey.setBayState (k : OnKey K P) (hc : K ≠ .budgetCut) (x : BayId) (st : BayState) (h : P s) : P (setBayState x st s) :=
  k.recompute hc (k.same s _ rfl h)

theorem OnKey.goOnline (k : OnKey K P) (hc : K ≠ .budgetCut) {x : BayId} (hx : K ≠ .swapDone x) (d : Detail) (h : P s) :
    P (goOnline x d s) := k.other _ _ _ hx.symm (k.setBayState hc x _ (k.requestOn hc x h))

/-- A key of which the switching of bays posts nothing. -/
def aside (K : AttnKey) : Prop := K ≠ .budgetCut ∧ K ≠ .bridgeOn ∧ (∀ x, K ≠ .swapDone x) ∧ ∀ x, K ≠ .swapRefused x

theorem OnKey.swaps (k : OnKey K P) (hK : aside K) : Swaps False P where
  done x _ s h := k.other _ _ s (hK.2.2.1 x).symm h
  refused x _ s h := k.other _ _ s (hK.2.2.2 x).symm h
  mark _ _ s _ h := k.same s _ rfl h
  online x _ _ h := k.setBayState hK.1 x _ (k.requestOn hK.1 x h)
  standby x _ _ h := k.setBayState hK.1 x _ (k.switchOff hK.1 x h)
  release x _ s _ h := k.setBayState hK.1 x _ (k.same (Machine.switchOff x s) _ rfl (k.switchOff hK.1 x h))
  bridge why _ h := k.startBridge hK.1 hK.2.1 why h

end OnKeyWalk

/-! ### What the switching of bays never touches -/

/-- `t` differs from `s` in the power path, the bays, the relays, the budget, the pipeline and the Attention Queue alone. -/
def baysOnly (s t : State) : Prop :=
  t = { s with pp := t.pp, bays := t.bays, relays := t.relays, budget := t.budget, pipe := t.pipe, attn := t.attn }

section BaysOnly
variable {s t u : State}

theorem baysOnly.field {α : Type} (h : baysOnly s t) (f : State → α)
    (hf : ∀ p b r g q a, f { s with pp := p, bays := b, relays := r, budget := g, pipe := q, attn := a } = f s) : f t = f s :=
  (congrArg f h).trans (hf _ _ _ _ _ _)

theorem baysOnly.cache (h : baysOnly s t) : t.cache = s.cache := h.field State.cache fun _ _ _ _ _ _ => rfl
theorem baysOnly.upstream (h : baysOnly s t) : t.upstream = s.upstream := h.field State.upstream fun _ _ _ _ _ _ => rfl
theorem baysOnly.tables (h : baysOnly s t) : t.tables = s.tables := h.field State.tables fun _ _ _ _ _ _ => rfl
theorem baysOnly.motion (h : baysOnly s t) : t.motion = s.motion := h.field State.motion fun _ _ _ _ _ _ => rfl
theorem baysOnly.time (h : baysOnly s t) : t.time = s.time := h.field State.time fun _ _ _ _ _ _ => rfl
theorem baysOnly.flags (h : baysOnly s t) : t.flags = s.flags := h.field State.flags fun _ _ _ _ _ _ => rfl
theorem baysOnly.port (h : baysOnly s t) : t.port = s.port := h.field State.port fun _ _ _ _ _ _ => rfl
theorem baysOnly.mapInst (h : baysOnly s t) : t.mapInst = s.mapInst := h.field State.mapInst fun _ _ _ _ _ _ => rfl
theorem baysOnly.log (h : baysOnly s t) : t.log = s.log := h.field State.log fun _ _ _ _ _ _ => rfl

theorem baysOnly.refl (s : State) : baysOnly s s := rfl

theorem baysOnly.trans (h : baysOnly s t) (k : baysOnly t u) : baysOnly s u := by
  unfold baysOnly at h k ⊢
  rw [k, h]

theorem powerOnly.baysOnly (h : powerOnly s t) : baysOnly s t := by
  have hb := h.bays
  have hr := h.relays
  unfold powerOnly at h
  unfold Machine.baysOnly
  rw [hb, hr]
  exact h

theorem baysOnly.post (h : baysOnly s t) (k : AttnKey) (d : Detail) : baysOnly s (post k d t) := h.trans rfl

theorem baysOnly.updBay (h : baysOnly s t) (x : BayId) (f : Bay → Bay) : baysOnly s (updBay x f t) := h.trans rfl

theorem baysOnly.updRelay (h : baysOnly s t) (x : BayId) (f : Relay → Relay) : baysOnly s (updRelay x f t) := h.trans rfl

theorem baysOnly.recompute (h : baysOnly s t) : baysOnly s (recompute t) := h.trans (powerOnly.refl t).recompute.baysOnly

theorem baysOnly.switchOff (h : baysOnly s t) (x : BayId) : baysOnly s (switchOff x t) :=
  h.trans ((powerOnly.refl t).switchOff x).baysOnly

theorem baysOnly.requestOn (h : baysOnly s t) (x : BayId) : baysOnly s (requestOn x t) :=
  h.trans ((powerOnly.refl t).requestOn x).baysOnly

theorem baysOnly.startBridge (h : baysOnly s t) (why : BridgeReason) : baysOnly s (startBridge why t) :=
  h.trans ((powerOnly.refl t).startBridge why).baysOnly

theorem baysOnly.setBayState (h : baysOnly s t) (x : BayId) (st : BayState) : baysOnly s (setBayState x st t) :=
  ((h.updBay x _).updRelay x _).recompute

theorem baysOnly_swaps (s : State) : Swaps False (baysOnly s) where
  done _ _ _ h := h.post _ _
  refused _ _ _ h := h.post _ _
  mark _ _ _ _ h := h.updBay _ _
  online x _ _ h := (h.requestOn x).setBayState x _
  standby x _ _ h := (h.switchOff x).setBayState x _
  release x _ _ _ h := ((h.switchOff x).updBay x _).setBayState x _
  bridge why _ h := h.startBridge why

theorem settle_baysOnly (old s : State) : baysOnly s (settle old s) := (baysOnly_swaps s).settle old (baysOnly.refl s)

end BaysOnly

/-! ### The events that an action has made -/

section Settle
variable {P : State → Prop} {old s : State}

theorem standbyJoin_keeps {x : BayId} (k : ∀ u, P u → (u.bays.get x).state = .standby → (u.bays.get x).latch = true →
    parallelAllows x u = true → P (goOnline x dTakeOver u)) (h : P s) : P (standbyJoin x s) := by
  unfold standbyJoin
  split
  · next hc => exact k s h hc.1 hc.2.1 hc.2.2
  · exact h

/-- What a STANDBY bay that goes ONLINE by R25 keeps, the events of an action keep. -/
theorem settle_keeps (k : ∀ z u, P u → (u.bays.get z).state = .standby → (u.bays.get z).latch = true →
    parallelAllows z u = true → P (goOnline z dTakeOver u)) (h : P s) : P (settle old s) := by
  have one : ∀ o n x u, P u → P (settleOne o n x u) := fun o n x u hu => by
    unfold settleOne
    split
    · exact standbyJoin_keeps (k x) hu
    · exact hu
  exact one _ _ _ _ (one _ _ _ _ h)

/-- R25: with every switch and presence as it was an action has made no event. -/
theorem settle_of_level (hsw : s.pp.sw = old.pp.sw) (hp : ∀ x, (s.bays.get x).presence = (old.bays.get x).presence) :
    settle old s = s := by
  have gone : ∀ y, otherGone old s y = false := fun y => by
    rw [otherGone, hsw, hp y]
    cases (old.bays.get y).presence <;> cases old.pp.sw.get y <;> rfl
  have one : ∀ x u, settleOne old s x u = u := fun x u => if_neg (by rw [gone]; decide)
  rw [settle, one, one]

/-- From `s` to `t` bay `y` keeps its record and its relay, and its switch at most eases. -/
structure Rests (y : BayId) (s t : State) : Prop where
  bay : t.bays.get y = s.bays.get y
  relay : t.relays.get y = s.relays.get y
  follows : Follows y s t

theorem Rests.refl (y : BayId) (s : State) : Rests y s s := ⟨rfl, rfl, Follows.refl y s⟩

theorem Rests.trans {y : BayId} {t u : State} (h : Rests y s t) (k : Rests y t u) : Rests y s u :=
  ⟨k.bay.trans h.bay, k.relay.trans h.relay, h.follows.trans k.follows⟩

theorem Rests.power {y : BayId} {t : State} (h : powerOnly s t) (f : Follows y s t) : Rests y s t := ⟨by rw [h.bays], by rw [h.relays], f⟩

/-- An ONLINE bay's switch rests with it. -/
theorem Rests.sw_of_online {y : BayId} {t : State} (h : Rests y s t) (ho : (s.bays.get y).state = .online) :
    t.pp.sw.get y = s.pp.sw.get y := by
  obtain ⟨e, -⟩ | ⟨hne, -⟩ | ⟨hj, -, -⟩ := h.follows.switch
  · exact e
  · exact absurd ho hne
  · rw [ho] at hj; cases hj

/-- A switch that is OFF or held rests OFF or held. -/
theorem Rests.off_or_held {y : BayId} {t : State} (h : Rests y s t) (ho : s.pp.sw.get y = .off ∨ s.pp.held.get y = true) :
    t.pp.sw.get y = .off ∨ t.pp.held.get y = true := by
  obtain ⟨e, e'⟩ | ⟨-, e⟩ | ⟨-, e, -⟩ := h.follows.switch
  · rw [e, e']; exact ho
  · exact .inl e
  · exact .inr e

/-- A switch that is OFF rests OFF. -/
theorem Rests.off {y : BayId} {t : State} (h : Rests y s t) (ho : s.pp.sw.get y = .off) : t.pp.sw.get y = .off := by
  obtain ⟨e, -⟩ | ⟨-, e⟩ | ⟨-, -, e⟩ := h.follows.switch
  · rw [e]; exact ho
  · exact e
  · rw [e]; exact ho

theorem rests_requestOn_other (x : BayId) (s : State) : Rests x.other s (requestOn x s) :=
  .power ((powerOnly.refl s).requestOn x) (follows_requestOn_other x s)

theorem rests_switchOff_other (x : BayId) (s : State) : Rests x.other s (switchOff x s) :=
  .power ((powerOnly.refl s).switchOff x) (follows_switchOff_other x s)

theorem rests_startBridge (y : BayId) (why : BridgeReason) (s : State) : Rests y s (startBridge why s) :=
  .power ((powerOnly.refl s).startBridge why) (follows_startBridge y why s)

theorem rests_post (y : BayId) (k : AttnKey) (d : Detail) (s : State) : Rests y s (post k d s) := ⟨rfl, rfl, follows_post y k d s⟩

theorem rests_mapCache (y : BayId) (f : Line → Line) (s : State) : Rests y s (mapCache f s) := ⟨rfl, rfl, follows_mapCache y f s⟩

theorem rests_updBay_other (x : BayId) (f : Bay → Bay) (s : State) : Rests x.other s (updBay x f s) :=
  ⟨Pair.get_upd_other .., rfl, follows_updBay_other x f s⟩

theorem rests_updRelay_other (x : BayId) (f : Relay → Relay) (s : State) : Rests x.other s (updRelay x f s) :=
  ⟨rfl, Pair.get_upd_other .., follows_updRelay_other x f s⟩

theorem rests_recompute (y : BayId) (s : State) : Rests y s (recompute s) :=
  .power (powerOnly.refl s).recompute (follows_recompute y s)

theorem rests_setBayState_other (x : BayId) (st : BayState) (s : State) : Rests x.other s (setBayState x st s) :=
  ⟨get_bays_setBayState_other x st s, get_relays_setBayState_other x st s, follows_setBayState_other x st s⟩

theorem rests_goOnline_other (x : BayId) (d : Detail) (s : State) : Rests x.other s (goOnline x d s) :=
  ((rests_requestOn_other x s).trans (rests_setBayState_other x .online _)).trans (rests_post _ _ _ _)

/-- A bay that is not STANDBY takes no event. -/
theorem rests_settle {y : BayId} (hy : (s.bays.get y).state ≠ .standby) : Rests y s (settle old s) := by
  refine settle_keeps (P := Rests y s) (fun z u h hz _ _ => ?_) (Rests.refl y s)
  have hyz : y = z.other := eq_other_of_ne fun e => hy (by rw [← h.bay, e]; exact hz)
  exact hyz ▸ h.trans (hyz ▸ rests_goOnline_other z dTakeOver u)

/-- R25: a bay stays in its state, or is STANDBY and goes ONLINE. -/
theorem state_settle (y : BayId) : ((settle old s).bays.get y).state = (s.bays.get y).state
    ∨ ((s.bays.get y).state = .standby ∧ ((settle old s).bays.get y).state = .online) := by
  refine settle_keeps (P := fun u => (u.bays.get y).state = (s.bays.get y).state
    ∨ ((s.bays.get y).state = .standby ∧ (u.bays.get y).state = .online)) (fun z u h hz _ _ => ?_) (.inl rfl)
  by_cases hyz : y = z
  · subst hyz
    have hs : (s.bays.get y).state = .standby := h.elim (fun e => e ▸ hz) fun e => e.1
    exact .inr ⟨hs, state_goOnline_self y dTakeOver u⟩
  · rw [eq_other_of_ne hyz, get_goOnline_other, ← eq_other_of_ne hyz]
    exact h

/-- The queue keeps what the bays of a key do not post while they take the events of an action. -/
theorem OnKey.settle {K : AttnKey} (k : OnKey K P) (hc : K ≠ .budgetCut)
    (hd : ∀ x, K = .swapDone x → (s.bays.get x).state ≠ .standby) (h : P s) : P (settle old s) := by
  have both : P (Machine.settle old s) ∧ ∀ x, K = .swapDone x → ((Machine.settle old s).bays.get x).state ≠ .standby := by
    refine settle_keeps (P := fun u => P u ∧ ∀ x, K = .swapDone x → (u.bays.get x).state ≠ .standby)
      (fun z u hu hz _ _ => ⟨k.goOnline hc (fun e => hu.2 z e hz) _ hu.1, fun x hx => ?_⟩) ⟨h, hd⟩
    have hxz : x = z.other := eq_other_of_ne fun e => hu.2 x hx (e ▸ hz)
    rw [hxz, get_goOnline_other, ← hxz]
    exact hu.2 x hx
  exact both.1

theorem queued_settle {K : AttnKey} {d : Detail} (hc : K ≠ .budgetCut) (hd : ∀ x, K = .swapDone x → (s.bays.get x).state ≠ .standby)
    (h : queued s K d) : queued (settle old s) K d := (onKey_queued K d).settle hc hd h

end Settle

/-! ### Going ONLINE -/

section Online
variable (x : BayId) (d : Detail) (s : State)

theorem queued_goOnline : queued (goOnline x d s) (.swapDone x) d := queued_post _ _ _

theorem pp_goOnline : (goOnline x d s).pp = (requestOn x s).pp := setBayState_pp x .online _

theorem sw_goOnline : (goOnline x d s).pp.sw.get x = .on := by rw [pp_goOnline]; exact sw_requestOn_self x s

theorem get_goOnline_self : (goOnline x d s).bays.get x = (s.bays.get x).enter .online := by
  have h : (goOnline x d s).bays = (setBayState x .online (requestOn x s)).bays := rfl
  rw [h, setBayState_bays, req_bays, Pair.get_upd_self]

end Online

end Sys2Proof.Machine
end

