-- ==== Sys2Proof/Proofs/FaultedBays.lean ====
section
/-! PROOFS. What a fault leaves (R35): the bay's record and relay, its switch, its cache lines, what is posted, and the other bay. -/

namespace Sys2Proof.Machine

/-! ### Notices that a probe of Bay Probe ends with (R31, R32, R35, R45) -/

section ProbeEnd
variable (b : Bay) (x : BayId) (d : Detail) (s : State)

theorem rests_postProbeEnd (y : BayId) : Rests y s (postProbeEnd b x d s) := by
  unfold postProbeEnd
  split
  · exact rests_post ..
  · exact Rests.refl ..

theorem baysOnly_postProbeEnd : baysOnly s (postProbeEnd b x d s) := by
  unfold postProbeEnd
  split
  · exact (baysOnly.refl s).post _ _
  · exact baysOnly.refl s

variable {b x s}

theorem OnKey.postProbeEnd {K : AttnKey} {P : State → Prop} (k : OnKey K P) (hK : K ≠ .linkDone x) (h : P s) :
    P (postProbeEnd b x d s) := by
  unfold Machine.postProbeEnd
  split
  · exact k.other _ _ s hK.symm h
  · exact h

theorem probedByCommand_iff : probedByCommand b = true ↔ b.state = .probing ∧ b.probeCause = .bayProbe := by
  rw [probedByCommand, Bool.and_eq_true, beq_iff_eq, beq_iff_eq]

theorem queued_postProbeEnd (hb : b.state = .probing) (hc : b.probeCause = .bayProbe) : queued (postProbeEnd b x d s) (.linkDone x) d := by
  rw [postProbeEnd, if_pos (probedByCommand_iff.mpr ⟨hb, hc⟩)]
  exact queued_post ..

end ProbeEnd

/-! ### The fault -/

section Fault
variable (x : BayId) (why : FaultReason) (s : State)

theorem faulted_baysOnly : baysOnly s (faulted x why s) :=
  (((baysOnly.refl s).setBayState x _).updBay x _).switchOff x

theorem faulted_bays : (faulted x why s).bays = s.bays.upd x (fun b => markFaulted why (b.enter .faulted)) := by
  rw [faulted, off_bays, updBay_bays, setBayState_bays]
  cases x <;> rfl

theorem faulted_relays : (faulted x why s).relays = s.relays.upd x (Relay.enter .faulted) := by
  rw [faulted, ((powerOnly.refl _).switchOff x).relays, updBay_relays, setBayState_relays]

theorem rests_faulted_other : Rests x.other s (faulted x why s) :=
  ((rests_setBayState_other x .faulted s).trans (rests_updBay_other x _ _)).trans (rests_switchOff_other x _)

/-- The fault before what is posted of it. -/
theorem faulted_off_or_held : (faulted x why s).pp.sw.get x = .off ∨ (faulted x why s).pp.held.get x = true :=
  switchOff_self_off_or_held x _

/-- The frame of what follows the fault: postings and the cache's notice. -/
theorem enterFault_after : baysOnly (cacheDistrust x (faulted x why s)) (enterFault x why s) := by
  rw [enterFault_eq]
  exact ((baysOnly.refl _).post _ _).trans (baysOnly_postProbeEnd ..)

theorem rests_enterFault_self (y : BayId) : Rests y (faulted x why s) (enterFault x why s) := by
  rw [enterFault_eq]
  exact ((rests_mapCache y _ _).trans (rests_post y _ _ _)).trans (rests_postProbeEnd _ x _ _ y)

theorem get_enterFault : (enterFault x why s).bays.get x = markFaulted why ((s.bays.get x).enter .faulted) := by
  rw [(rests_enterFault_self x why s x).bay, faulted_bays, Pair.get_upd_self]

theorem relay_enterFault : (enterFault x why s).relays.get x = (s.relays.get x).enter .faulted := by
  rw [(rests_enterFault_self x why s x).relay, faulted_relays, Pair.get_upd_self]

theorem rests_enterFault_other : Rests x.other s (enterFault x why s) :=
  (rests_faulted_other x why s).trans (rests_enterFault_self x why s x.other)

theorem enterFault_off_or_held : (enterFault x why s).pp.sw.get x = .off ∨ (enterFault x why s).pp.held.get x = true :=
  (rests_enterFault_self x why s x).off_or_held (faulted_off_or_held x why s)

theorem cache_enterFault : (enterFault x why s).cache = (cacheDistrust x s).cache := by
  rw [(enterFault_after x why s).cache]
  exact congrArg (List.map _) (faulted_baysOnly x why s).cache

theorem upstream_enterFault : (enterFault x why s).upstream = s.upstream :=
  (enterFault_after x why s).upstream.trans (faulted_baysOnly x why s).upstream

theorem tables_enterFault : (enterFault x why s).tables = s.tables :=
  (enterFault_after x why s).tables.trans (faulted_baysOnly x why s).tables

theorem queued_enterFault : queued (enterFault x why s) (.bayFault x) (dFault why) := by
  rw [enterFault_eq]
  exact (onKey_queued _ _).postProbeEnd _ (by intro e; cases e) (queued_post ..)

variable {x why s}

theorem queued_enterFault_probe (hb : (s.bays.get x).state = .probing) (hc : (s.bays.get x).probeCause = .bayProbe) :
    queued (enterFault x why s) (.linkDone x) (if why = .admission then dNotAdmitted else dLinkFailed) := by
  rw [enterFault_eq]
  exact queued_postProbeEnd _ hb hc

theorem OnKey.enterFault {K : AttnKey} {P : State → Prop} (k : OnKey K P) (hc : K ≠ .budgetCut) (hf : K ≠ .bayFault x)
    (hl : K ≠ .linkDone x) (h : P s) : P (enterFault x why s) := by
  rw [enterFault_eq]
  refine k.postProbeEnd _ hl (k.other _ _ _ hf.symm (k.same (faulted x why s) _ rfl ?_))
  exact k.switchOff hc x (k.same (Machine.setBayState x .faulted s) _ rfl (k.setBayState hc x _ h))

end Fault

/-! ### No line of a bay is FRESH (R95) -/

theorem noFresh_cacheDistrust (x : BayId) (s : State) : ∀ cs ∈ (cacheDistrust x s).cache, noFreshSet x cs := by
  have hlines : noFreshIn (cacheDistrust x s).cache x := by
    refine noFresh_kill _ x (fun l => ?_) s.cache
    rintro ⟨hv, hb, hst⟩
    obtain ⟨valid, bay, code, value, state, age⟩ := l
    by_cases hx : bay = x
    · simp only [hx, if_true, Line.distrust] at hv hb hst
      cases valid <;> cases state <;> simp at hv hst
    · simp only [if_neg hx] at hb
      exact hx hb
  exact fun cs hcs => (noFreshSet_iff x cs).mpr (hlines cs hcs)

/-! ### A count at its limit (R64) -/

section Limit
variable {x : BayId} {s : State}

theorem countAtLimit_iff : countAtLimit s x = true ↔ servedState (s.bays.get x).state = true ∧ (s.relays.get x).failCount = faultLimit s := by
  rw [countAtLimit, Bool.and_eq_true, beq_iff_eq]

theorem faultIfReached_of_limit (h : countAtLimit s x = true) : faultIfReached x s = enterFault x .link s := if_pos h

theorem faultIfReached_of_not (h : ¬ countAtLimit s x = true) : faultIfReached x s = s := if_neg h

/-- R64, R25: the bay at its limit is FAULTED with reason LINK, and takes no event. -/
theorem rests_faultAtLimit_of_limit (h : countAtLimit s x = true) : Rests x (enterFault x .link s) (faultAtLimit x s) := by
  have hf : faultAtLimit x s = settle s (enterFault x .link s) := congrArg (settle s) (faultIfReached_of_limit h)
  rw [hf]
  exact rests_settle (by rw [get_enterFault]; exact (by decide : BayState.faulted ≠ .standby))

theorem servedState_of_join {a b : BayState} (h : b = a ∨ (a = .standby ∧ b = .online)) (ha : servedState a = true) : servedState b = true := by
  obtain rfl | ⟨-, rfl⟩ := h
  · exact ha
  · rfl

theorem relays_goOnline (z : BayId) (d : Detail) (u : State) : (goOnline z d u).relays = u.relays.upd z (Relay.enter .online) := by
  have h : (goOnline z d u).relays = (setBayState z .online (requestOn z u)).relays := rfl
  rw [h, setBayState_relays, ((powerOnly.refl u).requestOn z).relays]

/-- What entry into a state leaves of a relay, the events of an action leave. -/
theorem relay_settle {α : Type} (f : Relay → α) (hf : ∀ r, f (r.enter .online) = f r) (old u : State) (y : BayId) :
    f ((settle old u).relays.get y) = f (u.relays.get y) := by
  refine settle_keeps (P := fun w => f (w.relays.get y) = f (u.relays.get y)) (fun z w h _ _ _ => ?_) rfl
  rw [relays_goOnline]
  by_cases hyz : y = z
  · subst hyz; rw [Pair.get_upd_self, hf]; exact h
  · rw [Pair.get_upd_ne _ hyz]; exact h

/-- R64: a fault of one bay leaves the other at its limit. -/
theorem countAtLimit_faultAtLimit_other (h : countAtLimit s x.other = true) : countAtLimit (faultAtLimit x s) x.other = true := by
  have hr : Rests x.other s (faultIfReached x s) ∧ (faultIfReached x s).tables = s.tables := by
    unfold faultIfReached
    split
    · exact ⟨rests_enterFault_other x .link s, tables_enterFault x .link s⟩
    · exact ⟨Rests.refl .., rfl⟩
  obtain ⟨hserved, hcount⟩ := countAtLimit_iff.mp h
  refine countAtLimit_iff.mpr ⟨servedState_of_join (state_settle x.other) (by rw [hr.1.bay]; exact hserved), ?_⟩
  have htables : (faultAtLimit x s).tables = s.tables := (settle_baysOnly s _).tables.trans hr.2
  have hfail : ((faultAtLimit x s).relays.get x.other).failCount = ((faultIfReached x s).relays.get x.other).failCount :=
    relay_settle Relay.failCount (Relay.enter_failCount .online) s _ _
  rw [hfail, hr.1.relay, faultLimit_congr htables, hcount]

/-- R64, R166: what a FAULTED bay keeps while the other one is judged. -/
theorem rests_faultAtLimit_other (hs : (s.bays.get x.other).state ≠ .standby) : Rests x.other s (faultAtLimit x s) := by
  have hr : Rests x.other s (faultIfReached x s) := by
    unfold faultIfReached
    split
    · exact rests_enterFault_other x .link s
    · exact Rests.refl ..
  exact hr.trans (rests_settle (by rw [hr.bay]; exact hs))

end Limit

end Sys2Proof.Machine
end

