-- ==== Sys2Proof/Proofs/TableStates.lean ====
section
/-! PROOFS. What the table commands answer by the region's state and lock mark (R167 to R170, R177), and what a region that leaves service hands
over (R166). -/

namespace Sys2Proof.Machine

/-! ### The hand-over of CONFIG (R166) -/

section HandOver
variable (s : State)

theorem handOverConfig_acts : Acts (recompute (raiseHostMax s)) (handOverConfig s) :=
  ((((Acts.refl _).clampCount .A).clampCount .B).faultAtLimit .A).faultAtLimit .B

/-- R64: the counts are clamped before a bay is judged. -/
theorem countLaw_handOverConfig : countLaw (handOverConfig s) :=
  (((Acts.refl (clampCount .B (clampCount .A (recompute (raiseHostMax s))))).faultAtLimit .A).faultAtLimit .B).count
    ⟨min_le_right _ _, min_le_right _ _⟩

/-- R113: HOST_MAX is raised to MIN_LEVEL, and nothing after it moves it. -/
theorem hostMax_handOverConfig : (handOverConfig s).pipe.hostMax = max s.pipe.hostMax (minLevel s) := by
  have h := congrArg Pipeline.hostMax (handOverConfig_acts s).pipe
  rw [h, recompute_eq]
  rfl

end HandOver

/-- R165: MIN_LEVEL with CONFIG out of service. -/
theorem minLevel_of_out {s : State} (h : s.tables.config.state ≠ .inService) : minLevel s = 20 := by
  have hw : inEffect s .config 25 = Config.defaultWord .config 25 := if_neg h
  rw [minLevel, cfg, hw]
  decide

/-- R72: no entry of the built-in map has the poll flag. -/
theorem ringOf_builtin : ringOf .builtin = [] := by decide

/-! ### Commands that name a region (R167) -/

section Region
variable {r : RegionId} {b : Byte} {s : State}

theorem withRegion_of_some (hb : regionOfByte b = some r) (f : RegionId → State → State × Frame) (u : State) :
    withRegion [b] f u = f r u := by
  simp only [withRegion, hb]

theorem exec_tableClear (p : List Byte) (s : State) : exec (.tableClear p) s = .next (manage (withRegion p tableClear) s) := rfl

theorem exec_tableCheck (p : List Byte) (s : State) : exec (.tableCheck p) s = .next (manage (withRegion p tableCheck) s) := rfl

theorem exec_tableLock (p : List Byte) (s : State) : exec (.tableLock p) s = .next (manage (withRegion p tableLock) s) := rfl

variable (h : accepts s) (hb : regionOfByte b = some r) {t : State} {code : ResultCode} {data : List Byte}
include h hb

theorem exec_tableClear_of (ht : tableClear r (begun s) = (t, ⟨code, data⟩)) : exec (.tableClear [b]) s = .next (ended t code data) := by
  rw [exec_tableClear, manage_of_accepts h ((withRegion_of_some hb _ _).trans ht)]

theorem exec_tableCheck_of (ht : tableCheck r (begun s) = (t, ⟨code, data⟩)) : exec (.tableCheck [b]) s = .next (ended t code data) := by
  rw [exec_tableCheck, manage_of_accepts h ((withRegion_of_some hb _ _).trans ht)]

theorem exec_tableLock_of (ht : tableLock r (begun s) = (t, ⟨code, data⟩)) : exec (.tableLock [b]) s = .next (ended t code data) := by
  rw [exec_tableLock, manage_of_accepts h ((withRegion_of_some hb _ _).trans ht)]

theorem exec_tableWrite_of {off n : Byte} {rest : List Byte} (hl : rest.length = 4 * n.toNat)
    (ht : tableWrite r off.toNat (wordsOf rest) (begun s) = (t, ⟨code, data⟩)) :
    exec (.tableWrite (b :: off :: n :: rest)) s = .next (ended t code data) := by
  rw [exec_tableWrite, manage_of_accepts h ((tableWriteParams_of_region hb hl _).trans ht)]

end Region

/-! ### Table Clear (R168) -/

section Clear
variable {r : RegionId} {s : State}

theorem tableClear_of_lock (hl : (s.tables.get r).lock = true) : tableClear r s = (s, bareFrame .locked) := if_pos hl

theorem tableClear_of_checking (hl : (s.tables.get r).lock = false) (hs : (s.tables.get r).state = .checking) :
    tableClear r s = (s, bareFrame .busy) := by
  rw [tableClear, hl, if_neg Bool.false_ne_true, if_pos hs]

theorem tableClear_of_free (hl : (s.tables.get r).lock = false) (hs : (s.tables.get r).state ≠ .checking) :
    tableClear r s = (clearRegion r s, okFrame []) := by
  rw [tableClear, hl, if_neg Bool.false_ne_true, if_neg hs]

theorem clearRegion_of_inService (hs : (s.tables.get r).state = .inService) :
    clearRegion r s = leaveService r (updRegion r blankRegion s) := if_pos hs

/-- A region that has nothing to hand over is blank and EMPTY. -/
theorem clearRegion_of_plain (hs : (s.tables.get r).state ≠ .inService ∨ r = .curve ∨ r = .motion) :
    clearRegion r s = updRegion r blankRegion s := by
  by_cases hin : (s.tables.get r).state = .inService
  · rw [clearRegion_of_inService hin]
    obtain hne | rfl | rfl := hs
    · exact absurd hin hne
    all_goals rfl
  · exact if_neg hin

theorem tables_clearRegion : (clearRegion r s).tables = s.tables.upd r blankRegion := by
  unfold clearRegion
  split
  · exact ((Serves.refl (updRegion r blankRegion s)).leaveService r).tables
  · rfl

end Clear

/-! ### What the two hand-overs of a cleared region leave (R166) -/

theorem relays_clear_codemap (x : BayId) (s : State) : (leaveService .codemap (updRegion .codemap blankRegion s)).relays.get x
    = { s.relays.get x with ring := [], ptr := 0, pollDue := false } := by
  have h := newInstance_relays x (updRegion .codemap blankRegion s)
  rw [show mapInService (updRegion .codemap blankRegion s) = .builtin from rfl, ringOf_builtin] at h
  exact h

theorem hostMax_clear_config (s : State) : (leaveService .config (updRegion .config blankRegion s)).pipe.hostMax
    = max s.pipe.hostMax 20 := by
  have hout : (updRegion .config blankRegion s).tables.config.state ≠ .inService := (by decide : RegionState.empty ≠ .inService)
  have h := hostMax_handOverConfig (updRegion .config blankRegion s)
  rw [minLevel_of_out hout] at h
  exact h

/-! ### Table Check and Table Lock (R170, R177) -/

section CheckLock
variable {r : RegionId} {s : State}

theorem tableCheck_of_loading (hs : (s.tables.get r).state = .loading) :
    tableCheck r s = (updRegion r (fun g => { g with state := .checking }) s, bareFrame .accepted) := if_pos hs

theorem tableCheck_of_not (hs : (s.tables.get r).state ≠ .loading) : tableCheck r s = (s, bareFrame .state) := if_neg hs

theorem tableLock_of_inService (hs : (s.tables.get r).state = .inService) :
    tableLock r s = (updRegion r (fun g => { g with lock := true }) s, okFrame []) := if_pos hs

theorem tableLock_of_not (hs : (s.tables.get r).state ≠ .inService) : tableLock r s = (s, bareFrame .state) := if_neg hs

end CheckLock

/-! ### Table Write refused (R167) -/

section Write
variable {r : RegionId} {off : Nat} {ws : List Word} {s : State}

/-- R169: a word of the range that is written makes fewer blank words than the range has. -/
theorem Memory.blanks_ne_of_written {m : Memory} {i n : Nat} (h : ∃ k, k < n ∧ (Memory.get? m (i + k)).isSome = true) :
    Memory.blanks m i n ≠ n := by
  obtain ⟨k, hk, hsome⟩ := h
  intro he
  rw [Memory.blanks_eq_countP] at he
  have hall := List.countP_eq_length.mp (he.trans List.length_range.symm) k (List.mem_range.mpr hk)
  rw [Option.isNone_iff_eq_none.mp hall] at hsome
  exact Bool.false_ne_true hsome

variable (hr : rangeBad r off ws.length = false)
include hr

theorem tableWrite_of_lock (hl : (s.tables.get r).lock = true) : tableWrite r off ws s = (s, bareFrame .locked) := by
  rw [tableWrite, hr, if_neg Bool.false_ne_true, if_pos hl]

variable (hl : (s.tables.get r).lock = false)
include hl

theorem tableWrite_of_checking (hs : (s.tables.get r).state = .checking) : tableWrite r off ws s = (s, bareFrame .busy) := by
  rw [tableWrite, hr, if_neg Bool.false_ne_true, hl, if_neg Bool.false_ne_true, if_pos hs]

theorem tableWrite_of_inService (hs : (s.tables.get r).state = .inService) : tableWrite r off ws s = (s, bareFrame .state) := by
  rw [tableWrite, hr, if_neg Bool.false_ne_true, hl, if_neg Bool.false_ne_true, if_neg (by rw [hs]; decide), if_pos hs]

theorem tableWrite_of_written (hc : (s.tables.get r).state ≠ .checking) (hs : (s.tables.get r).state ≠ .inService)
    (hw : Memory.blanks (s.tables.get r).words off ws.length ≠ ws.length) : tableWrite r off ws s = (s, bareFrame .blank) := by
  rw [tableWrite, hr, if_neg Bool.false_ne_true, hl, if_neg Bool.false_ne_true, if_neg hc, if_neg hs, if_pos hw]

end Write

/-- Settles O60: each command is its body on `begun s`, which has the tables of `s`; a region that leaves service hands over by `leaveService`. -/
theorem tableCommandsByRegionState : Obligations.TableCommandsByRegionState := by
  refine ⟨fun r b off n rest s h hb => ⟨fun hl => ?clearLock, fun hl hs => ?clearBusy, fun hs => ?checkState, fun hs => ?lockState,
    fun h1 h48 hr hlen => ?write⟩, fun r b s h hb => ⟨fun hl hs => ?clear, fun hs => ?check, fun hs => ?lock⟩⟩
  case clearLock => exact exec_tableClear_of h hb (tableClear_of_lock hl)
  case clearBusy => exact exec_tableClear_of h hb (tableClear_of_checking hl hs)
  case checkState => exact exec_tableCheck_of h hb (tableCheck_of_not hs)
  case lockState => exact exec_tableLock_of h hb (tableLock_of_not hs)
  case check => exact exec_tableCheck_of h hb (tableCheck_of_loading hs)
  case lock => exact exec_tableLock_of h hb (tableLock_of_inService hs)
  case write =>
    have hws : (wordsOf rest).length = n.toNat := length_wordsOf hlen
    have hbad : rangeBad r off.toNat (wordsOf rest).length = false := by rw [hws]; exact rangeBad_of_le h1 h48 hr
    refine ⟨fun hl => exec_tableWrite_of h hb hlen (tableWrite_of_lock hbad hl), fun hl =>
      ⟨fun hs => exec_tableWrite_of h hb hlen (tableWrite_of_checking hbad hl hs),
       fun hs => exec_tableWrite_of h hb hlen (tableWrite_of_inService hbad hl hs), fun hc hs hw => ?_⟩⟩
    have hblanks := Memory.blanks_ne_of_written hw
    rw [← hws] at hblanks
    exact exec_tableWrite_of h hb hlen (tableWrite_of_written hbad hl hc hs hblanks)
  case clear =>
    refine ⟨_, exec_tableClear_of h hb (tableClear_of_free hl hs), (tables_clearRegion :), rfl, fun hp => ?plain, fun hin hr => ?codemap,
      fun hin hr => ?config⟩
    case plain => rw [clearRegion_of_plain (s := begun s) hp]; rfl
    case codemap =>
      subst hr
      rw [clearRegion_of_inService (s := begun s) hin]
      exact ⟨rfl, rfl, fun x => relays_clear_codemap x (begun s), rfl, rfl⟩
    case config =>
      subst hr
      rw [clearRegion_of_inService (s := begun s) hin]
      exact ⟨countLaw_handOverConfig _, hostMax_clear_config (begun s), budgetLaw_ended (handOverConfig_budget _) _ _⟩

end Sys2Proof.Machine
end

