-- ==== Sys2Proof/Proofs/TableCheck.lean ====
section
/-! PROOFS. The check of a region: its end and what it hands over (R166, R171), the order of its three tests (R171), and the words that fail field
validation (R172 to R175, R195). -/

namespace Sys2Proof.Machine

/-! ### The bays at their limit at a hand-over (R64, R166) -/

section Limits
variable {s : State} {x : BayId}

/-- The counts of a CONFIG hand-over before a bay is judged. -/
def clamped (s : State) : State := clampCount .B (clampCount .A (recompute (raiseHostMax s)))

theorem handOverConfig_eq (s : State) : handOverConfig s = faultAtLimit .B (faultAtLimit .A (clamped s)) := rfl

theorem clamped_bays (s : State) : (clamped s).bays = s.bays := recompute_bays (raiseHostMax s)

theorem clamped_failCount (x : BayId) (s : State) :
    ((clamped s).relays.get x).failCount = min ((s.relays.get x).failCount) (faultLimit s) := by
  have hr : (recompute (raiseHostMax s)).relays = s.relays := by rw [recompute_eq]; rfl
  have ht : (recompute (raiseHostMax s)).tables = s.tables := by rw [recompute_eq]; rfl
  have hl : faultLimit (recompute (raiseHostMax s)) = faultLimit s := faultLimit_congr ht
  have hl' : faultLimit (clampCount .A (recompute (raiseHostMax s))) = faultLimit s := hl
  cases x
  · calc ((clamped s).relays.get .A).failCount
        = min ((recompute (raiseHostMax s)).relays.get .A).failCount (faultLimit (recompute (raiseHostMax s))) := rfl
      _ = _ := by rw [hr, hl]
  · calc ((clamped s).relays.get .B).failCount
        = min ((recompute (raiseHostMax s)).relays.get .B).failCount (faultLimit (clampCount .A (recompute (raiseHostMax s)))) := rfl
      _ = _ := by rw [hr, hl']

theorem clamped_faultLimit (s : State) : faultLimit (clamped s) = faultLimit s :=
  faultLimit_congr (by
    have h : (clamped s).tables = (recompute (raiseHostMax s)).tables := rfl
    rw [h, recompute_eq]
    rfl)

/-- R64: a count at or above the limit stands at it once it is clamped. -/
theorem countAtLimit_clamped (hs : servedState (s.bays.get x).state = true) (hc : faultLimit s ≤ (s.relays.get x).failCount) :
    countAtLimit (clamped s) x = true :=
  countAtLimit_iff.mpr ⟨by rw [clamped_bays]; exact hs, by rw [clamped_failCount, clamped_faultLimit, min_eq_right hc]⟩

theorem faulted_of_limit (h : countAtLimit s x = true) :
    ((faultAtLimit x s).bays.get x).state = .faulted ∧ ((faultAtLimit x s).bays.get x).faultReason = .link := by
  rw [(rests_faultAtLimit_of_limit h).bay, get_enterFault]
  exact ⟨rfl, rfl⟩

/-- R166: a bay whose count is at or above the limit is FAULTED by the hand-over. -/
theorem faulted_handOverConfig (hs : servedState (s.bays.get x).state = true) (hc : faultLimit s ≤ (s.relays.get x).failCount) :
    ((handOverConfig s).bays.get x).state = .faulted ∧ ((handOverConfig s).bays.get x).faultReason = .link := by
  have hlim := countAtLimit_clamped hs hc
  rw [handOverConfig_eq]
  cases x with
  | A =>
    obtain ⟨hf, hr⟩ := faulted_of_limit hlim
    have hrest := (rests_faultAtLimit_other (x := .B) (s := faultAtLimit .A (clamped s))
      (show ((faultAtLimit .A (clamped s)).bays.get .A).state ≠ .standby by rw [hf]; decide)).bay
    have hbay : (faultAtLimit .B (faultAtLimit .A (clamped s))).bays.get .A = (faultAtLimit .A (clamped s)).bays.get .A := hrest
    rw [hbay]
    exact ⟨hf, hr⟩
  | B => exact faulted_of_limit (countAtLimit_faultAtLimit_other (x := .A) hlim)

end Limits

/-! ### The end of a check (R171) -/

section EndCheck
variable {r : RegionId} {s : State}

theorem exec_tableCheckEnd (r : RegionId) (s : State) : exec (.tableCheckEnd r) s = .next (endCheck r s) := rfl

theorem endCheck_of_not (h : (s.tables.get r).state ≠ .checking) : endCheck r s = s := if_neg h

theorem endCheck_of_fail (h : (s.tables.get r).state = .checking) {d : Detail} (hd : checkFailure r (s.tables.get r).words = some d) :
    endCheck r s = post (.tableDone r) d (setRegionState r .loading s) := by
  rw [endCheck, if_pos h]
  simp only [hd]

theorem endCheck_of_pass (h : (s.tables.get r).state = .checking) (hd : checkFailure r (s.tables.get r).words = none) :
    endCheck r s = post (.tableDone r) dPass (enterService r (setRegionState r .inService s)) := by
  rw [endCheck, if_pos h]
  simp only [hd]

theorem tables_enterService (r : RegionId) (s : State) : (enterService r s).tables = s.tables := ((Serves.refl s).enterService r).tables

/-- R59, R83: the rings are built from the map that has entered service. -/
theorem relays_enter_codemap (x : BayId) (s : State) : (enterService .codemap (setRegionState .codemap .inService s)).relays.get x
    = { s.relays.get x with ring := ringOf (.loaded s.tables.codemap.words), ptr := 0, pollDue := false } :=
  newInstance_relays x (setRegionState .codemap .inService s)

/-- R113: after the hand-over the MIN_LEVEL in effect is that of the CONFIG that entered service. -/
theorem hostMax_enter_config (s : State) : (enterService .config s).pipe.hostMax
    = max s.pipe.hostMax (minLevel (enterService .config s)) := by
  rw [minLevel_congr (tables_enterService .config s)]
  exact hostMax_handOverConfig s

theorem budgetLaw_enter_config (s : State) : budgetLaw (enterService .config s) := handOverConfig_budget s

theorem countLaw_enter_config (s : State) : countLaw (enterService .config s) := countLaw_handOverConfig s

theorem faulted_enter_config {x : BayId} (hs : servedState (s.bays.get x).state = true)
    (hc : faultLimit (enterService .config s) ≤ (s.relays.get x).failCount) :
    ((enterService .config s).bays.get x).state = .faulted ∧ ((enterService .config s).bays.get x).faultReason = .link := by
  rw [faultLimit_congr (tables_enterService .config s)] at hc
  exact faulted_handOverConfig hs hc

/-- R166: what CONFIG's entry into service leaves, the posting of its check included. -/
theorem config_checked (k : AttnKey) (d : Detail) (s : State) : budgetLaw (post k d (enterService .config s))
    ∧ countLaw (post k d (enterService .config s))
    ∧ (post k d (enterService .config s)).pipe.hostMax = max s.pipe.hostMax (minLevel (post k d (enterService .config s)))
    ∧ ∀ x, faultLimit (post k d (enterService .config s)) ≤ (s.relays.get x).failCount → servedState (s.bays.get x).state = true →
        ((post k d (enterService .config s)).bays.get x).state = .faulted
          ∧ ((post k d (enterService .config s)).bays.get x).faultReason = .link := by
  have hb := budgetLaw_enter_config s
  have hc := countLaw_enter_config s
  have hm := hostMax_enter_config s
  have hf := fun x => faulted_enter_config (s := s) (x := x)
  generalize enterService .config s = u at hb hc hm hf ⊢
  exact ⟨budgetLaw_post k d hb, hc, hm, fun x hl hs => hf x hs hl⟩

end EndCheck

/-! ### The three tests (R171) -/

section Tests
variable {r : RegionId} {m : Memory}

theorem lowestBlank_some {i : Nat} (hi : i < Config.regionSize r) (hb : Memory.get? m i = none)
    (hlow : ∀ k, k < i → (Memory.get? m k).isSome = true) : lowestBlank r m = some i :=
  List.find?_range_eq_some.mpr ⟨by rw [hb]; rfl, List.mem_range.mpr hi, fun k hk => by rw [Option.not_isNone]; exact hlow k hk⟩

theorem lowestBlank_none (h : ∀ i, i < Config.regionSize r → (Memory.get? m i).isSome = true) : lowestBlank r m = none :=
  List.find?_range_eq_none.mpr fun i hi => by rw [Option.not_isNone]; exact h i hi

theorem lowestFailing_some {i : Nat} (hi : i < Config.regionSize r - 1) (hf : wordFails r m i = true)
    (hlow : ∀ k, k < i → wordFails r m k = false) : lowestFailing r m = some i :=
  List.find?_range_eq_some.mpr ⟨hf, List.mem_range.mpr hi, fun k hk => by rw [hlow k hk]; rfl⟩

theorem lowestFailing_none (h : ∀ i, i < Config.regionSize r - 1 → wordFails r m i = false) : lowestFailing r m = none :=
  List.find?_range_eq_none.mpr fun i hi => by rw [h i hi]; rfl

theorem checkFailure_of_blank {i : Nat} (h : lowestBlank r m = some i) : checkFailure r m = some (dFailBlank i) := by
  simp only [checkFailure, h]

theorem checkFailure_of_sum (h : lowestBlank r m = none) (hs : regionSum r m ≠ 0) :
    checkFailure r m = some (dFailSum (Config.regionSize r - 1)) := by
  simp only [checkFailure, h, if_neg hs]

theorem checkFailure_of_field (h : lowestBlank r m = none) (hs : regionSum r m = 0) :
    checkFailure r m = (lowestFailing r m).map dFailField := by
  simp only [checkFailure, h, if_pos hs]
  cases lowestFailing r m <;> rfl

theorem regionSum_eq (r : RegionId) (m : Memory) :
    regionSum r m = ((List.range (Config.regionSize r)).map fun i => (Memory.get? m i).getD 0).sum := by
  rw [List.sum_eq_foldl, List.foldl_map]
  rfl

end Tests

/-! ### The fields of a word (R195) -/

section Words
variable (w : Word)

theorem bitField_one (i : Nat) : (bitField w i 1 == 1) = w.getLsbD i := by
  rw [← BitVec.testBit_toNat, Nat.testBit_eq_decide_div_mod_eq, Bool.eq_iff_iff, beq_iff_eq, decide_eq_true_eq]
  rfl

theorem bitField_one_ne (i : Nat) : (bitField w i 1 != 0) = w.getLsbD i := by
  have h : bitField w i 1 < 2 := Nat.mod_lt _ (by decide)
  rw [← bitField_one]
  generalize bitField w i 1 = n at h
  interval_cases n <;> rfl

theorem bitField_top {i n : Nat} (h : i + n = 32) : bitField w i n = w.toNat / 2 ^ i := by
  refine Nat.mod_eq_of_lt (Nat.div_lt_of_lt_mul ?_)
  rw [← Nat.pow_add, h]
  exact w.isLt

/-- R172: the value of a field lies within its range or not. -/
theorem inRange_eq_false_iff {r : Config.FieldRow} : inRange r w = false ↔ outOfRange r w := by
  unfold inRange outOfRange
  split <;> simp only [Bool.and_eq_false_iff, decide_eq_false_iff_not, not_le]

theorem rowFails_iff {rows : List Config.FieldRow} {i : Nat} :
    rowFails rows i w = true ↔ ∃ r, rows[i]? = some r ∧ outOfRange r w := by
  unfold rowFails
  cases rows[i]? with
  | none => simp
  | some r => simp [← inRange_eq_false_iff]

end Words

/-! ### CODEMAP (R173, R195) -/

section CodeMap

theorem entryLayoutFails_iff (w : Word) : entryLayoutFails w = true
    ↔ w.toNat / 16 % 16 ≠ 0 ∨ w.getLsbD 19 = true ∨ w.toNat / 2 ^ 21 ≠ 0 ∨ w.toNat / 4 % 4 = 3 ∨ w.toNat / 65536 % 8 = 7 := by
  rw [entryLayoutFails, bitField_one_ne, bitField_top w (i := 21) (n := 11) rfl]
  simp only [Bool.or_eq_true, bne_iff_ne, beq_iff_eq, or_assoc]
  rfl

theorem classOf_eq_timed {k : Nat} : classOf k = .timed ↔ k = 1 := by
  unfold classOf
  split <;> simp_all

theorem classOf_eq_fixed {k : Nat} : classOf k = .fixed ↔ k = 2 := by
  unfold classOf
  split <;> simp_all

theorem classOf_eq_none {k : Nat} (h : k < 3) : classOf k = .none ↔ k = 0 := by
  interval_cases k <;> decide

/-- R80: the tag codes name different tags, but for 0 and the 7 that no map in service has. -/
theorem tagOf_inj {j k : Nat} (hj : j < 8) (hk : k < 7) (h0 : k ≠ 0) : tagOf j = tagOf k ↔ j = k := by
  interval_cases j <;> interval_cases k <;> first | exact absurd rfl h0 | decide

theorem tagOf_eq_none {k : Nat} (hk : k < 7) : tagOf k = .none ↔ k = 0 := by
  interval_cases k <;> decide

variable (m : Memory) (c : Nat)

/-- The entry of code `c` as field validation reads it. -/
def entryAt (m : Memory) (c : Nat) : MapEntry := entryOf (Memory.read m (c + 1))

theorem entryAt_cls : (entryAt m c).cls = classOf (entryClass m c) := rfl
theorem entryAt_tag : (entryAt m c).tag = tagOf (entryTag m c) := rfl
theorem entryAt_maxAge : (entryAt m c).maxAge = entryAge m c := rfl
theorem entryAt_readPermit : (entryAt m c).readPermit = (Memory.read m (c + 1)).getLsbD 0 := bitField_one _ 0
theorem entryAt_writePermit : (entryAt m c).writePermit = (Memory.read m (c + 1)).getLsbD 1 := bitField_one _ 1
theorem entryAt_poll : (entryAt m c).poll = (Memory.read m (c + 1)).getLsbD 20 := bitField_one _ 20

theorem entryTag_lt : entryTag m c < 8 := Nat.mod_lt _ (by decide)
theorem entryClass_lt : entryClass m c < 4 := Nat.mod_lt _ (by decide)

/-- R173: what an entry's class forbids. -/
def classFails (e : MapEntry) : Bool :=
  match e.cls with
  | .fixed => e.writePermit || e.maxAge != 0
  | .none => e.maxAge != 0
  | .timed => e.maxAge == 0

theorem entryFails_eq (e : MapEntry) :
    entryFails e = (classFails e || (e.tag == .serial && e.cls != .fixed) || (e.poll && !e.readPermit)) := rfl

theorem classFails_iff (h : entryClass m c ≠ 3) : classFails (entryAt m c) = true
      ↔ (entryClass m c = 2 ∧ ((Memory.read m (c + 1)).getLsbD 1 = true ∨ entryAge m c ≠ 0))
        ∨ (entryClass m c = 0 ∧ entryAge m c ≠ 0) ∨ (entryClass m c = 1 ∧ entryAge m c = 0) := by
  have hlt := entryClass_lt m c
  rw [classFails, entryAt_cls, entryAt_maxAge, entryAt_writePermit]
  generalize entryClass m c = k at h hlt
  interval_cases k
  · simp [classOf]
  · simp [classOf]
  · simp [classOf]
  · exact absurd rfl h

theorem lowerTag_iff (h7 : entryTag m c ≠ 7) : ((entryAt m c).tag != .none && (lowerEntries m c).any fun q => q.tag == (entryAt m c).tag) = true
    ↔ entryTag m c ≠ 0 ∧ ∃ k, k < c ∧ entryTag m k = entryTag m c := by
  have hlt : entryTag m c < 7 := by have := entryTag_lt m c; omega
  rw [Bool.and_eq_true, bne_iff_ne, entryAt_tag, Ne, tagOf_eq_none hlt]
  refine and_congr_right fun h0 => ?_
  simp only [lowerEntries, List.any_map, List.any_eq_true, List.mem_range, Function.comp_apply, beq_iff_eq]
  exact exists_congr fun k => and_congr_right fun _ => tagOf_inj (entryTag_lt m k) hlt h0

theorem lowerPolls_eq : (lowerEntries m c).countP (fun q => q.poll)
    = (List.range c).countP fun k => (Memory.read m (k + 1)).getLsbD 20 := by
  rw [lowerEntries, List.countP_map]
  exact List.countP_congr fun k _ => by rw [Function.comp_apply, ← entryAt_poll m k]; rfl

/-- The entry's own conditions, with the code of its class known to exist. -/
theorem entryFails_iff (h3 : entryClass m c ≠ 3) : entryFails (entryAt m c) = true
    ↔ (entryClass m c = 2 ∧ ((Memory.read m (c + 1)).getLsbD 1 = true ∨ entryAge m c ≠ 0))
      ∨ (entryClass m c = 0 ∧ entryAge m c ≠ 0) ∨ (entryClass m c = 1 ∧ entryAge m c = 0)
      ∨ (entryTag m c = 6 ∧ entryClass m c ≠ 2)
      ∨ ((Memory.read m (c + 1)).getLsbD 20 = true ∧ (Memory.read m (c + 1)).getLsbD 0 = false) := by
  have hserial : (entryAt m c).tag = .serial ↔ entryTag m c = 6 := tagOf_inj (k := 6) (entryTag_lt m c) (by decide) (by decide)
  have hfixed : (entryAt m c).cls ≠ .fixed ↔ entryClass m c ≠ 2 := not_congr classOf_eq_fixed
  rw [entryFails_eq, Bool.or_eq_true, Bool.or_eq_true, classFails_iff m c h3, Bool.and_eq_true, Bool.and_eq_true, beq_iff_eq, bne_iff_ne,
    hserial, hfixed, entryAt_poll, entryAt_readPermit, Bool.not_eq_true', or_assoc, or_assoc, or_assoc]

theorem mapEntryFails_iff : mapEntryFails m c = true ↔ entryRefused m c := by
  have hm : mapEntryFails m c = (decide ((Memory.read m 0).toNat ≤ c) && Memory.read m (c + 1) != 0
      || entryLayoutFails (Memory.read m (c + 1)) || entryFails (entryAt m c)
      || ((entryAt m c).tag != .none && (lowerEntries m c).any fun q => q.tag == (entryAt m c).tag)
      || ((entryAt m c).poll && decide (8 ≤ (lowerEntries m c).countP fun q => q.poll))) := rfl
  have hlayout : entryLayoutFails (Memory.read m (c + 1)) = true ↔ (Memory.read m (c + 1)).toNat / 16 % 16 ≠ 0
      ∨ (Memory.read m (c + 1)).getLsbD 19 = true ∨ (Memory.read m (c + 1)).toNat / 2 ^ 21 ≠ 0 ∨ entryClass m c = 3 ∨ entryTag m c = 7 :=
    entryLayoutFails_iff _
  rw [hm, Bool.or_eq_true, Bool.or_eq_true, Bool.or_eq_true, Bool.or_eq_true, Bool.and_eq_true, decide_eq_true_eq, bne_iff_ne,
    hlayout, entryRefused]
  by_cases h3 : entryClass m c = 3
  · exact iff_of_true (.inl (.inl (.inl (.inr (.inr (.inr (.inr (.inl h3)))))))) (.inr (.inr (.inr (.inr (.inl h3)))))
  by_cases h7 : entryTag m c = 7
  · exact iff_of_true (.inl (.inl (.inl (.inr (.inr (.inr (.inr (.inr h7)))))))) (.inr (.inr (.inr (.inr (.inr (.inl h7))))))
  rw [entryFails_iff m c h3, lowerTag_iff m c h7, Bool.and_eq_true, decide_eq_true_eq, entryAt_poll, lowerPolls_eq]
  simp only [h3, h7, false_or, or_false, and_or_left, or_assoc]
  rw [or_left_comm (a := (Memory.read m (c + 1)).getLsbD 20 = true ∧ (Memory.read m (c + 1)).getLsbD 0 = false)]

end CodeMap

/-! ### CONFIG, CURVE and MOTION (R172, R174, R175) -/

section Fields
variable (m : Memory)

theorem configFails_iff (i : Nat) : configFails m i = true
    ↔ (∃ r, Config.configRows[i]? = some r ∧ outOfRange r (Memory.read m i))
      ∨ (i = 9 ∧ (Memory.read m 9).toNat ≤ (Memory.read m 8).toNat) := by
  rw [configFails, Bool.or_eq_true, Bool.and_eq_true, beq_iff_eq, decide_eq_true_eq, rowFails_iff]

theorem motionFails_iff (i : Nat) : motionFails m i = true
    ↔ (∃ r, Config.motionRows[i]? = some r ∧ outOfRange r (Memory.read m i))
      ∨ (i = 4 ∧ (Memory.read m 4).toNat ≤ (Memory.read m 1).toNat)
      ∨ (i = 5 ∧ (Memory.read m 5).toNat ≤ (Memory.read m 4).toNat) := by
  rw [motionFails, Bool.or_eq_true, Bool.or_eq_true, Bool.and_eq_true, Bool.and_eq_true, beq_iff_eq, beq_iff_eq, decide_eq_true_eq,
    decide_eq_true_eq, rowFails_iff, or_assoc]

theorem curveFails_count : curveFails m 0 = true ↔ (Memory.read m 0).toNat < 2 ∨ 16 < (Memory.read m 0).toNat := by
  rw [curveFails, if_pos rfl, Bool.or_eq_true, decide_eq_true_eq, decide_eq_true_eq]

theorem curveFails_param {i : Nat} (h1 : 1 ≤ i) (h5 : i ≤ 5) : curveFails m i = true
    ↔ ∃ r, Config.curveRows[i - 1]? = some r ∧ outOfRange r (Memory.read m i) := by
  rw [curveFails, if_neg (by omega), if_pos h5, rowFails_iff]

theorem breakpointOf_fst (w : Word) : (breakpointOf w).1 = w.toNat % 65536 := by
  have h : (breakpointOf w).1 = w.toNat / 2 ^ 0 % 2 ^ 16 := rfl
  rw [h, Nat.pow_zero, Nat.div_one]
  rfl

theorem breakpointOf_snd (w : Word) : (breakpointOf w).2 = w.toNat / 65536 := bitField_top w (i := 16) (n := 16) rfl

theorem breakpointFails_iff (j : Nat) : breakpointFails m (Memory.read m 0).toNat j = true ↔ breakpointRefused m j := by
  unfold breakpointFails breakpointRefused
  split
  · next h => simp only [bne_iff_ne, h, not_le.mpr h, true_and, false_and, or_false]
  · next h =>
    simp only [Bool.or_eq_true, Bool.and_eq_true, decide_eq_true_eq, breakpointOf_fst, breakpointOf_snd, h, not_lt.mp h, true_and,
      false_and, false_or]

theorem curveFails_breakpoint {j : Nat} (h1 : 1 ≤ j) : curveFails m (j + 5) = true ↔ breakpointRefused m j := by
  rw [curveFails, if_neg (by omega), if_neg (by omega), Nat.add_sub_cancel, breakpointFails_iff]

/-- R195: only TEMP_HOT and TEMP_MAX are signed. -/
theorem configRows_signed {i : Nat} {r : Config.FieldRow} (h : Config.configRows[i]? = some r) : r.signed = true ↔ i = 11 ∨ i = 12 := by
  obtain ⟨hi, rfl⟩ := List.getElem?_eq_some_iff.mp h
  have hall : ∀ k : Fin 26, (Config.configRows[k]).signed = true ↔ k.val = 11 ∨ k.val = 12 := by decide
  exact hall ⟨i, hi⟩

end Fields

/-- Settles O58: the end of a check is `endCheck` by the outcome of `checkFailure`; the tests are the lowest indices that `List.find?` gives;
each region's validation is read off its fields. -/
theorem tableChecks : Obligations.TableChecks := by
  refine ⟨fun r s => ⟨fun h => ?idle, fun h => ⟨fun d hd => ?fail, fun hd => ?pass⟩⟩,
    fun r m => ⟨fun i hi hb hlow => checkFailure_of_blank (lowestBlank_some hi hb hlow), fun hall => ?tests, regionSum_eq r m⟩,
    configFails_iff, fun m => decide_eq_true_iff, mapEntryFails_iff, curveFails_count, fun m i => curveFails_param m,
    fun m j h1 _ => curveFails_breakpoint m h1, motionFails_iff, by decide, fun i r => configRows_signed, by decide, by decide⟩
  case idle => rw [exec_tableCheckEnd, endCheck_of_not h]
  case fail =>
    rw [exec_tableCheckEnd, endCheck_of_fail h hd]
    rfl
  case pass =>
    refine ⟨_, by rw [exec_tableCheckEnd, endCheck_of_pass h hd], tables_enterService r _, queued_post _ _ _, fun hr => ?_, fun hr => ?_,
      fun hr => ?_⟩
    · obtain rfl | rfl := hr <;> rfl
    · subst hr
      exact ⟨rfl, rfl, rfl, fun x => relays_enter_codemap x s⟩
    · subst hr
      exact config_checked (.tableDone .config) dPass (setRegionState .config .inService s)
  case tests =>
    have hblank := lowestBlank_none hall
    refine ⟨fun hs => checkFailure_of_sum hblank hs, fun hs => ⟨fun i hi hf hlow => ?_, fun hf => ?_⟩⟩
    · rw [checkFailure_of_field hblank hs, lowestFailing_some hi hf hlow]
      rfl
    · rw [checkFailure_of_field hblank hs, lowestFailing_none hf]
      rfl

end Sys2Proof.Machine
end

