-- ==== Sys2Proof/Proofs/Episodes.lean ====
section
/-! PROOFS. Motion samples in ARMED, FALLING and IMPACT (R142 to R145), and the record and the window of an episode that ends (R146, R148, R151 to
R156). -/

namespace Sys2Proof.Machine

/-! ### The start of an episode (R34, R142, R144, R146) -/

section Begin
variable {s : State} {p : Sample}

theorem waitJoltHold_eq (b : Bay) : waitJoltHold b = { b with jolt := b.jolt.map holdStopped } := by
  obtain ⟨_, _, _, _, _, _, _, _, _, _, _, _, _, jolt, _⟩ := b
  cases jolt with
  | none => rfl
  | some j =>
    obtain ⟨earlier, serial, hold⟩ := j
    cases hold <;> rfl

theorem bays_beginEpisode (d : Detector) (n : Nat) (s : State) (x : BayId) :
    (beginEpisode d n s).bays.get x = { s.bays.get x with jolt := (s.bays.get x).jolt.map holdStopped } :=
  (get_waitHolds x _).trans (waitJoltHold_eq _)

theorem motion_beginEpisode (d : Detector) (n : Nat) (s : State) : (beginEpisode d n s).motion
    = { s.motion with
          detector := d, n := n, run := 0, park := true, window := .open, hold := none, stall := some 250,
          jolted := if s.motion.window = .closed then ⟨false, false⟩ else s.motion.jolted } := by
  have h : (beginEpisode d n s).motion = beginMotion d n (s.motion.window == .closed) s.motion := rfl
  rw [h, beginMotion]
  simp only [beq_iff_eq]
  rfl

/-- R145: the first sample of an episode that enters IMPACT does not end it. -/
theorem impactSample_enterImpact (k : DropKind) (hm : 1 < impactMax s) (hc : 0 < settleCount s) :
    impactSample p .impact (enterImpact k s) = cacheImpact { s with motion := { s.motion with
      detector := .impact, kind := k, impacts := 1, settle := 0, peak := p.m2, saturated := p.saturated, stall := some 250 } } := by
  have hpeak : max 0 p.m2 = p.m2 := Nat.zero_max _
  have hcount : countImpact p .impact (enterImpact k s).motion = { s.motion with
      detector := .impact, kind := k, impacts := 1, settle := 0, peak := p.m2, saturated := p.saturated, stall := some 250 } := by
    have h : countImpact p .impact (enterImpact k s).motion = { s.motion with
      detector := .impact, kind := k, impacts := 1, settle := 0, peak := max 0 p.m2, saturated := p.saturated, stall := some 250 } := rfl
    rw [h, hpeak]
  have hs : ¬ settleCount s ≤ 0 := not_le.mpr hc
  have hi : ¬ impactMax s ≤ 1 := not_le.mpr hm
  rw [impactSample, hcount, judgeImpact]
  exact (if_neg hs).trans (if_neg hi)

theorem armedSample_impact (hm : 1 < impactMax s) (hc : 0 < settleCount s) : armedSample p .impact s
    = cacheImpact { beginEpisode .impact 0 s with motion := { (beginEpisode .impact 0 s).motion with
        detector := .impact, kind := .strike, impacts := 1, settle := 0, peak := p.m2, saturated := p.saturated, stall := some 250 } } :=
  impactSample_enterImpact (s := beginEpisode .impact 0 s) .strike hm hc

theorem fallingSample_impact (hm : 1 < impactMax s) (hc : 0 < settleCount s) : fallingSample p .impact s
    = cacheImpact { s with motion := { s.motion with
        detector := .impact, kind := .fall, impacts := 1, settle := 0, peak := p.m2, saturated := p.saturated, stall := some 250 } } :=
  impactSample_enterImpact (s := restartStall s) .fall hm hc

end Begin

/-! ### The rows (R140) -/

section Rows
variable {x0 x1 y0 y1 z0 z1 : Byte} {s : State} {p : Sample} (hp : p = sampleOf x0 x1 y0 y1 z0 z1)
include hp

theorem exec_motionSample_armed (hd : s.motion.detector = .armed) :
    exec (.motionSample x0 x1 y0 y1 z0 z1) s = .next (armedSample p (classify s p) (laneIdle s)) := by
  subst hp
  have h : exec (.motionSample x0 x1 y0 y1 z0 z1) s = .next (takeSample (sampleOf x0 x1 y0 y1 z0 z1) (laneIdle s)) := rfl
  rw [h, takeSample, show (laneIdle s).motion.detector = .armed from hd]
  rfl

theorem exec_motionSample_falling (hd : s.motion.detector = .falling) :
    exec (.motionSample x0 x1 y0 y1 z0 z1) s = .next (fallingSample p (classify s p) (laneIdle s)) := by
  subst hp
  have h : exec (.motionSample x0 x1 y0 y1 z0 z1) s = .next (takeSample (sampleOf x0 x1 y0 y1 z0 z1) (laneIdle s)) := rfl
  rw [h, takeSample, show (laneIdle s).motion.detector = .falling from hd]
  rfl

theorem exec_motionSample_impact (hd : s.motion.detector = .impact) :
    exec (.motionSample x0 x1 y0 y1 z0 z1) s = .next (impactSample p (classify s p) (laneIdle s)) := by
  subst hp
  have h : exec (.motionSample x0 x1 y0 y1 z0 z1) s = .next (takeSample (sampleOf x0 x1 y0 y1 z0 z1) (laneIdle s)) := rfl
  rw [h, takeSample, show (laneIdle s).motion.detector = .impact from hd]
  rfl

end Rows

section Classes
variable {s : State} {p : Sample}

theorem armedSample_quiet {c : SampleClass} (hc : c = .still ∨ c = .other) :
    armedSample p c s = { s with motion := { s.motion with run := 0 } } := by
  obtain rfl | rfl := hc <;> rfl

theorem armedSample_low (h : s.motion.run + 1 < ffCount s) :
    armedSample p .low s = { s with motion := { s.motion with run := s.motion.run + 1 } } := if_neg (Nat.not_le.mpr h)

theorem armedSample_fall (h : ffCount s ≤ s.motion.run + 1) : armedSample p .low s = beginEpisode .falling (s.motion.run + 1) s := if_pos h

theorem fallingSample_quiet {c : SampleClass} (hc : c = .still ∨ c = .other) : fallingSample p c s = returnToArmed s := by
  obtain rfl | rfl := hc <;> rfl

end Classes

/-! ### The end of an episode (R146, R148, R151 to R156) -/

section End
variable {s : State}

/-- R148: with a hold the window only begins its close. -/
theorem returnToArmed_of_hold (h : joltHoldMs s ≠ 0) : returnToArmed s
    = { s with motion := { disarmMotion s.motion with window := .holding, hold := some (joltHoldMs s) } } := if_neg h

theorem writeRecord_of_none (e : DropEnding) (r : RestAxis) (h : s.log.next = none) :
    writeRecord e r s = post .drop dExhausted (clearJolted s) := by
  simp only [writeRecord, h]

/-- The detail of the DROP posting of sequence `q`. -/
def dropDetail (kept : Bool) (q : Nat) : Detail := if kept then dStored q else dDiscarded q

theorem dropDetail_value (kept : Bool) (q : Nat) : (dropDetail kept q).value = q := by cases kept <;> rfl

theorem writeRecord_of_some (e : DropEnding) (r : RestAxis) {q : Nat} (h : s.log.next = some q) : writeRecord e r s
    = post .drop (dropDetail (placeRecord (composeRecord q e r s) s.log.records).2 q)
        (clearJolted { s with log := { records := (placeRecord (composeRecord q e r s) s.log.records).1, next := nextSequence q } }) := by
  simp only [writeRecord, h]
  rfl

/-- R146, R151 to R156: what an episode leaves that ends with a record, where the close has a hold to wait for. -/
structure EpisodeEnd (e : DropEnding) (r : RestAxis) (s t : State) : Prop where
  motion : t.motion = { disarmMotion s.motion with window := .holding, hold := some (joltHoldMs s), jolted := ⟨false, false⟩ }
  exhausted : s.log.next = none → t.log = s.log ∧ queued t .drop dExhausted
  recorded : ∀ q, s.log.next = some q →
    t.log = { next := nextSequence q, records := (placeRecord (composeRecord q e r s) s.log.records).1 }
      ∧ ∃ d, queued t .drop d ∧ d.value = q

theorem endEpisode_spec (e : DropEnding) (r : RestAxis) (h : joltHoldMs s ≠ 0) : EpisodeEnd e r s (endEpisode e r s) := by
  unfold endEpisode
  cases hq : s.log.next with
  | none =>
    rw [writeRecord_of_none e r hq, returnToArmed_of_hold (s := post .drop dExhausted (clearJolted s)) h]
    exact ⟨rfl, fun _ => ⟨rfl, queued_of_attn rfl (queued_post .drop dExhausted (clearJolted s))⟩,
      fun q hn => (by cases hq.symm.trans hn)⟩
  | some q =>
    rw [writeRecord_of_some e r hq]
    have hd := dropDetail_value (placeRecord (composeRecord q e r s) s.log.records).2 q
    generalize dropDetail (placeRecord (composeRecord q e r s) s.log.records).2 q = d at hd ⊢
    rw [returnToArmed_of_hold (s := post .drop d (clearJolted { s with log := {
      records := (placeRecord (composeRecord q e r s) s.log.records).1, next := nextSequence q } })) h]
    refine ⟨rfl, fun hn => (by cases hq.symm.trans hn), fun q' hn => ?_⟩
    cases hq.symm.trans hn
    exact ⟨rfl, d, queued_of_attn rfl (queued_post .drop d _), hd⟩

/-- R145: what a sample counted in IMPACT does. -/
theorem judgeImpact_going (p : Sample) (hs : s.motion.settle < settleCount s) (hi : s.motion.impacts < impactMax s) :
    judgeImpact p s = s := (if_neg (Nat.not_le.mpr hs)).trans (if_neg (Nat.not_le.mpr hi))

theorem judgeImpact_ended (p : Sample) (h : settleCount s ≤ s.motion.settle ∨ impactMax s ≤ s.motion.impacts) : judgeImpact p s
    = endEpisode (if settleCount s ≤ s.motion.settle then .settled else .unsettled)
        (if settleCount s ≤ s.motion.settle then restAxisOf p else .none) s := by
  unfold judgeImpact
  split
  · rfl
  · next hs => exact if_pos (h.resolve_left hs)

/-- R151: the record of an episode in IMPACT. -/
theorem composeRecord_impact (q : Nat) (e : DropEnding) (r : RestAxis) (hd : s.motion.detector = .impact) : composeRecord q e r s
    = { seq := q, kind := s.motion.kind, n := if s.motion.kind = .fall then s.motion.n else 0,
        height := if s.motion.kind = .fall then dropHeight s.motion.n (odrHz s) else 0, peak := squareRoot s.motion.peak,
        saturated := s.motion.saturated, ending := e, rest := r, time := s.time.uptime, jolted := s.motion.jolted } := by
  have hk : recordKind s.motion = s.motion.kind := if_neg (by rw [hd]; decide)
  have hne : ¬ s.motion.detector = .falling := by rw [hd]; decide
  rw [composeRecord, hk, if_neg hne]

end End

/-- Settles O43: a sample in ARMED or FALLING is the case of its class; an episode that enters IMPACT counts its first sample. -/
theorem armedAndFallingSamples : Obligations.ArmedAndFallingSamples := by
  refine ⟨fun x0 x1 y0 y1 z0 z1 s p hp hd => ⟨fun hc hrun => ?low, fun hc => ?quiet, fun hc hrun => ?fall, fun hc hm hs => ?strike⟩,
    fun x0 x1 y0 y1 z0 z1 s p hp hd => ⟨fun hc => ?falling, fun hc hm hs => ?impact, fun hc hj => ?short⟩⟩
  case low => rw [exec_motionSample_armed hp hd, hc, armedSample_low (s := laneIdle s) hrun]; rfl
  case quiet => rw [exec_motionSample_armed hp hd, armedSample_quiet (s := laneIdle s) hc]; rfl
  case fall =>
    have hrow : exec (.motionSample x0 x1 y0 y1 z0 z1) s = .next (beginEpisode .falling (s.motion.run + 1) (laneIdle s)) := by
      rw [exec_motionSample_armed hp hd, hc, armedSample_fall (s := laneIdle s) hrun]
      rfl
    exact ⟨_, hrow, motion_beginEpisode _ _ (laneIdle s), rfl, rfl, rfl, bays_beginEpisode _ _ (laneIdle s)⟩
  case strike =>
    have hrow := exec_motionSample_armed hp hd
    rw [hc, armedSample_impact (s := laneIdle s) hm hs] at hrow
    refine ⟨_, hrow, ?_, rfl, rfl, rfl, bays_beginEpisode _ _ (laneIdle s)⟩
    have hb := motion_beginEpisode .impact 0 (laneIdle s)
    simp only [cacheImpact, mapCache_motion, hb]
    rfl
  case falling => rw [exec_motionSample_falling hp hd, hc]; rfl
  case impact =>
    have hrow := exec_motionSample_falling hp hd
    rw [hc, fallingSample_impact (s := laneIdle s) hm hs] at hrow
    exact ⟨_, hrow, rfl, rfl, rfl⟩
  case short => rw [exec_motionSample_falling hp hd, fallingSample_quiet hc, returnToArmed_of_hold (s := laneIdle s) hj]; rfl

/-- Settles O44: a sample in IMPACT is counted and judged; an episode that ends leaves what `EpisodeEnd` says. -/
theorem impactSamples : Obligations.ImpactSamples := by
  intro x0 x1 y0 y1 z0 z1 s p m hp hd hm
  have hrow : exec (.motionSample x0 x1 y0 y1 z0 z1) s = .next (judgeImpact p { laneIdle s with motion := m }) := by
    rw [exec_motionSample_impact hp hd, hm]
    rfl
  have hdet : m.detector = .impact := by rw [hm]; exact hd
  refine ⟨fun hs hi => ?going, fun hend hj => ?ended⟩
  case going => rw [hrow, judgeImpact_going (s := { laneIdle s with motion := m }) p hs hi]; rfl
  case ended =>
    have hspec := endEpisode_spec (s := { laneIdle s with motion := m }) (if settleCount s ≤ m.settle then .settled else .unsettled)
      (if settleCount s ≤ m.settle then restAxisOf p else .none) hj
    refine ⟨_, by rw [hrow, judgeImpact_ended (s := { laneIdle s with motion := m }) p hend]; rfl, hspec.motion, hspec.exhausted,
      fun q hq => ?_⟩
    obtain ⟨hlog, hpost⟩ := hspec.recorded q hq
    rw [composeRecord_impact (s := { laneIdle s with motion := m }) q _ _ hdet] at hlog
    exact ⟨hlog, hpost⟩

end Sys2Proof.Machine
end

