-- ==== Sys2Proof/Proofs/PowerLines.lean ====
section
/-! PROOFS. Power-on reset block by block (R14, R46, R69, R104, R118, R138, R161, R178, R190, R201, R202), and the rise and the fall of EXT_PRESENT
(R1, R6, R7, R10, R33). -/

namespace Sys2Proof.Machine

/-! ### Power-on reset -/

theorem porBay_eq (present closed : Bool) : porBay present closed = { Bay.reset with
    state := if present then .seating else .empty, presLine := present, presence := present,
    presDeb := if present then some 50 else none, latchLine := closed, latch := closed } := by
  have h : presenceDebounce State.reset = 50 := by decide
  rw [porBay, h]

theorem pollTimer_powerOn (l : Lines) (s : State) : (powerOn l s).pollTimer = 250 := rfl

theorem inEffect_powerOn (l : Lines) (s : State) (r : RegionId) (i : Nat) : inEffect (powerOn l s) r i = Config.defaultWord r i := by
  cases r <;> rfl

/-- R138: O is 300 or the first C, whichever is less, and C is at least MIN_LEVEL. -/
theorem output_powerOn (l : Lines) (s : State) : 20 ≤ (powerOn l s).pipe.o ∧ (powerOn l s).pipe.o ≤ 300 := by
  obtain ⟨hlo, -, -⟩ := (storeLaws_powerOn l s).output
  have hm : minLevel (powerOn l s) = 20 := minLevel_of_out (show RegionState.empty ≠ .inService by decide)
  exact ⟨hm ▸ hlo, Nat.min_le_left ..⟩

/-- Settles O14: the blocks of `powerOn`, each as its definition gives it. -/
theorem powerOnResetSetsEveryBlock : Obligations.PowerOnResetSetsEveryBlock := fun l s =>
  ⟨powerOn l s, rfl, powerOn_pp l s, porBay_eq .., porBay_eq .., fun x => (by cases x <;> rfl), pollTimer_powerOn l s, powerOn_cache l s,
   budgetLaw_powerOn l s, ⟨rfl, rfl, rfl, rfl, rfl, rfl, rfl, rfl, rfl, rfl⟩, output_powerOn l s,
   ⟨rfl, rfl, rfl, rfl, rfl, rfl, rfl, rfl, rfl, rfl, rfl, rfl⟩, rfl, fun r => ⟨by cases r <;> rfl, inEffect_powerOn l s r⟩,
   rfl, rfl, rfl, rfl, rfl, rfl, rfl⟩

/-! ### The bridge run (R8, R10) -/

/-- The bridge's part of the power path. -/
def bridgeRun (p : PowerPath) : BridgeState × Nat × Bool × Bool × Bool := (p.bridge, p.timer, p.bridgeSw, p.lowpwr, p.pfail)

section Run
variable {s : State}

theorem run_recompute (s : State) : bridgeRun (recompute s).pp = bridgeRun s.pp := by rw [recompute_pp]

theorem run_setSwitch (x : BayId) (v : Switch) (s : State) : bridgeRun (setSwitch x v s).pp = bridgeRun s.pp := run_recompute _

theorem run_releaseHeldOne (x : BayId) (s : State) : bridgeRun (releaseHeldOne x s).pp = bridgeRun s.pp := by
  unfold releaseHeldOne
  split
  · exact run_setSwitch ..
  · rfl

theorem run_releaseHeld (s : State) : bridgeRun (releaseHeld s).pp = bridgeRun s.pp :=
  (run_releaseHeldOne .B _).trans (run_releaseHeldOne .A s)

theorem endBridge_of_idle (h : s.pp.bridge = .idle) : endBridge s = s := if_pos h

theorem pp_endBridge (h : s.pp.bridge ≠ .idle) :
    (endBridge s).pp = { s.pp with bridge := .idle, timer := 0, bridgeSw := false, lowpwr := false, pfail := false } := by
  rw [endBridge, if_neg h]
  exact recompute_pp _

theorem held_endBridge (s : State) : (endBridge s).pp.held = s.pp.held := by
  by_cases h : s.pp.bridge = .idle
  · rw [endBridge_of_idle h]
  · rw [pp_endBridge h]

theorem bridge_endBridge (s : State) : (endBridge s).pp.bridge = .idle := by
  by_cases h : s.pp.bridge = .idle
  · rw [endBridge_of_idle h, h]
  · rw [pp_endBridge h]

/-- A turn-on leaves an idle bridge, and a turn-on without a pack leaves any run. -/
theorem run_switchOn {x : BayId} (h : s.pp.bridge = .idle ∨ (s.bays.get x).presence = false) :
    bridgeRun (switchOn x s).pp = bridgeRun s.pp := by
  unfold switchOn
  split
  · rfl
  split
  · next hp =>
    have hidle : (setSwitch x .on s).pp.bridge = .idle :=
      (bridge_setSwitch x .on s).trans (h.resolve_right (by rw [hp]; decide))
    rw [run_releaseHeld, endBridge_of_idle hidle, run_setSwitch]
  · exact run_setSwitch ..

theorem run_switchOff (x : BayId) (s : State) : bridgeRun (switchOff x s).pp = bridgeRun s.pp := by
  unfold switchOff
  split
  · rfl
  split
  · exact run_setSwitch ..
  · rfl

theorem run_goOnline {x : BayId} (d : Detail) (h : s.pp.bridge = .idle ∨ (s.bays.get x).presence = false) :
    bridgeRun (goOnline x d s).pp = bridgeRun s.pp := by
  rw [pp_goOnline, requestOn]
  split
  · exact (run_switchOff ..).trans (run_switchOn h)
  · exact run_switchOn h

/-- The events of an action leave an idle bridge. -/
theorem run_settle_of_idle (old : State) (h : s.pp.bridge = .idle) : bridgeRun (settle old s).pp = bridgeRun s.pp := by
  refine settle_keeps (P := fun u => bridgeRun u.pp = bridgeRun s.pp) (fun z u hu _ _ _ => ?_) rfl
  have hidle : u.pp.bridge = .idle := (congrArg Prod.fst hu).trans h
  exact (run_goOnline _ (.inl hidle)).trans hu

/-- The events of an action leave the run where no STANDBY bay has its pack. -/
theorem run_settle_of_absent (old : State) (h : ∀ x, canTakeOver s x = false) : bridgeRun (settle old s).pp = bridgeRun s.pp := by
  refine (settle_keeps (P := fun u => bridgeRun u.pp = bridgeRun s.pp ∧ ∀ z, canTakeOver u z = false)
    (fun z u ⟨hrun, hnone⟩ hz _ _ => ?_) ⟨rfl, h⟩).1
  have habsent : (u.bays.get z).presence = false := by
    rw [← Bool.not_eq_true]
    exact fun hp => Bool.false_ne_true ((hnone z).symm.trans (canTakeOver_iff.mpr ⟨hz, hp⟩))
  refine ⟨(run_goOnline _ (.inr habsent)).trans hrun, fun y => ?_⟩
  by_cases hy : y = z
  · rw [hy, canTakeOver, state_goOnline_self]
    rfl
  · rw [eq_other_of_ne hy, canTakeOver, get_goOnline_other]
    exact hnone z.other

end Run

/-! ### Held marks (R3, R6) -/

section Held
variable {s : State} {x : BayId}

theorem held_setSwitch_of_false {y : BayId} (v : Switch) (h : s.pp.held.get x = false) : (setSwitch y v s).pp.held.get x = false := by
  rw [held_setSwitch]
  by_cases hx : x = y
  · subst hx; rw [Pair.get_upd_self]
  · rw [Pair.get_upd_ne _ hx]; exact h

theorem held_releaseHeldOne {y : BayId} (h : s.pp.held.get x = false) : (releaseHeldOne y s).pp.held.get x = false := by
  unfold releaseHeldOne
  split
  · exact held_setSwitch_of_false _ h
  · exact h

theorem held_releaseHeld (h : s.pp.held.get x = false) : (releaseHeld s).pp.held.get x = false := held_releaseHeldOne (held_releaseHeldOne h)

theorem held_switchOn_self (x : BayId) (s : State) : (switchOn x s).pp.held.get x = false := by
  have hset : (setSwitch x .on s).pp.held.get x = false := by rw [held_setSwitch, Pair.get_upd_self]
  unfold switchOn
  split
  · exact Pair.get_upd_self ..
  split
  · exact held_releaseHeld (by rw [held_endBridge]; exact hset)
  · exact hset

theorem held_switchOn_of_false {y : BayId} (h : s.pp.held.get x = false) : (switchOn y s).pp.held.get x = false := by
  by_cases hy : y = x
  · rw [hy]; exact held_switchOn_self x s
  unfold switchOn
  split
  · exact (Pair.get_upd_ne _ (Ne.symm hy) _).trans h
  split
  · exact held_releaseHeld (by rw [held_endBridge]; exact held_setSwitch_of_false _ h)
  · exact held_setSwitch_of_false _ h

theorem held_switchOff_other (h : s.pp.held.get x.other = false) : (switchOff x s).pp.held.get x.other = false := by
  unfold switchOff
  split
  · exact (Pair.get_upd_other ..).trans h
  split
  · exact held_setSwitch_of_false _ h
  · exact (Pair.get_upd_other ..).trans h

/-- A switch that is not held and OFF, or whose bay is ONLINE, is not held by a turn-on. -/
theorem held_requestOn {z : BayId} (h : s.pp.held.get x = false) (hx : s.pp.sw.get x = .off ∨ (s.bays.get x).state = .online) :
    (requestOn z s).pp.held.get x = false := by
  unfold requestOn
  split
  · next hc =>
    obtain ⟨-, hjolt, hon⟩ := hc
    by_cases hz : x = z
    · subst hz
      have hs := held_switchOff_other (x := x.other) (s := switchOn x s)
      rw [other_other] at hs
      exact hs (held_switchOn_self x s)
    · obtain rfl : x = z.other := eq_other_of_ne hz
      rw [((powerOnly.refl s).switchOn z).bays] at hjolt
      obtain hoff | honl := hx
      · have heases := sw_eq_on_of_eases (follows_switchOn_other z s) hon
        cases hoff.symm.trans heases
      · cases hjolt.symm.trans honl
  · exact held_switchOn_of_false h

/-- R6: what a bay not ONLINE is left with: no held mark, and its switch OFF unless it went ONLINE since. -/
def heldReleased (x : BayId) (u : State) : Prop :=
  u.pp.held.get x = false ∧ (u.pp.sw.get x = .off ∨ (u.bays.get x).state = .online)

theorem heldReleased_settle (old : State) (h : heldReleased x s) : heldReleased x (settle old s) := by
  refine settle_keeps (P := heldReleased x) (fun z u hu _ _ _ => ?_) h
  obtain ⟨hheld, hsw⟩ := hu
  refine ⟨by rw [pp_goOnline]; exact held_requestOn hheld hsw, ?_⟩
  by_cases hz : x = z
  · rw [hz]; exact .inr (state_goOnline_self z _ u)
  · obtain rfl : x = z.other := eq_other_of_ne hz
    exact hsw.imp (rests_goOnline_other z _ u).off fun ho => by rw [get_goOnline_other]; exact ho

theorem heldReleased_setSwitch (x : BayId) (s : State) : heldReleased x (setSwitch x .off s) :=
  ⟨by rw [held_setSwitch, Pair.get_upd_self], .inl (by rw [sw_setSwitch, Pair.get_upd_self])⟩

/-- R6: with a source beside it, a held switch of a bay that is not ONLINE is released. -/
theorem heldReleased_releaseHeldOne (hh : s.pp.held.get x = true) (ho : (s.bays.get x).state ≠ .online) (hc : otherConducts s x = true) :
    heldReleased x (releaseHeldOne x s) := by
  rw [releaseHeldOne, if_pos ⟨hh, ho, hc⟩]
  exact heldReleased_setSwitch x s

theorem otherConducts_of_ext (h : s.pp.ext = true) : otherConducts s x = true := by
  rw [otherConducts, h]
  rfl

theorem heldReleased_releaseHeld (hext : s.pp.ext = true) (hh : s.pp.held.get x = true) (ho : (s.bays.get x).state ≠ .online) :
    heldReleased x (releaseHeld s) := by
  unfold releaseHeld
  cases x with
  | A =>
    have hA := heldReleased_releaseHeldOne hh ho (otherConducts_of_ext hext)
    generalize releaseHeldOne .A s = u at hA ⊢
    obtain ⟨hheld, hsw⟩ := hA
    unfold releaseHeldOne
    split
    · exact ⟨held_setSwitch_of_false _ hheld, hsw.imp (fun e => by rw [sw_setSwitch, Pair.get_upd_ne _ (by decide)]; exact e)
        fun e => by rw [setSwitch_bays]; exact e⟩
    · exact ⟨hheld, hsw⟩
  | B =>
    have hframe : (releaseHeldOne .A s).pp.ext = s.pp.ext ∧ (releaseHeldOne .A s).pp.held.get .B = s.pp.held.get .B := by
      unfold releaseHeldOne
      split
      · exact ⟨ext_setSwitch .., by rw [held_setSwitch, Pair.get_upd_ne _ (by decide)]⟩
      · exact ⟨rfl, rfl⟩
    refine heldReleased_releaseHeldOne (hframe.2.trans hh) ?_ (otherConducts_of_ext (hframe.1.trans hext))
    rw [((powerOnly.refl s).releaseHeldOne .A).bays]
    exact ho

end Held

/-! ### EXT_PRESENT -/

section Ext
variable {s : State}

theorem exec_extPresentChange (v : Bool) (s : State) : exec (.extPresentChange v) s = .next (settle s (extLine v s)) := rfl

theorem settle_self (s : State) : settle s s = s := settle_of_level rfl fun _ => rfl

theorem extLine_of_eq {v : Bool} (h : s.pp.ext = v) : extLine v s = s := if_pos h

theorem extLine_rises (h : s.pp.ext = false) : extLine true s = extArrives s := by
  rw [extLine, h, if_neg (by decide), if_pos rfl]

theorem extLine_falls (h : s.pp.ext = true) : extLine false s = extDeparts s := by
  rw [extLine, h, if_neg (by decide), if_neg (by decide)]

/-- The state in which EXT's arrival has been recorded. -/
def extRecorded (v : Bool) (d : Detail) (s : State) : State := recompute (post (.presence .ext) d (setExt v s))

theorem extRecorded_pp (v : Bool) (d : Detail) (s : State) : (extRecorded v d s).pp = { s.pp with ext := v } := recompute_pp _

theorem extRecorded_bays (v : Bool) (d : Detail) (s : State) : (extRecorded v d s).bays = s.bays := recompute_bays _

theorem extRecorded_relays (v : Bool) (d : Detail) (s : State) : (extRecorded v d s).relays = s.relays := by
  rw [extRecorded, recompute_eq]
  rfl

theorem extRecorded_tables (v : Bool) (d : Detail) (s : State) : (extRecorded v d s).tables = s.tables := by
  rw [extRecorded, recompute_eq]
  rfl

theorem queued_extRecorded (v : Bool) (d : Detail) (s : State) : queued (extRecorded v d s) (.presence .ext) d :=
  queued_recompute (by decide) (queued_post ..)

theorem extArrives_eq (s : State) : extArrives s = endBridge (releaseHeld (extRecorded true dArrived s)) := rfl

theorem queued_extArrives (s : State) : queued (settle s (extArrives s)) (.presence .ext) dArrived :=
  queued_settle (by decide) (fun x hx => by cases hx)
    ((onKey_queued _ _).endBridge (by decide) ((onKey_queued _ _).releaseHeld (by decide) (queued_extRecorded true dArrived s)))

theorem ext_extArrives (s : State) : (settle s (extArrives s)).pp.ext = true := by
  have hacts := ((Acts.refl (extRecorded true dArrived s)).releaseHeld.endBridge.settle s).ext
  rw [extRecorded_pp] at hacts
  exact hacts

theorem bridge_extArrives (s : State) : (extArrives s).pp.bridge = .idle := bridge_endBridge _

/-- R10: the run that EXT's arrival ends. -/
theorem run_extArrives (h : s.pp.bridge ≠ .idle) : bridgeRun (extArrives s).pp = (.idle, 0, false, false, false) := by
  have hb : (releaseHeld (extRecorded true dArrived s)).pp.bridge ≠ .idle := by
    rw [bridge_releaseHeld, extRecorded_pp]
    exact h
  rw [extArrives_eq, pp_endBridge hb]
  rfl

theorem heldReleased_extArrives {x : BayId} (hh : s.pp.held.get x = true) (ho : (s.bays.get x).state ≠ .online) :
    heldReleased x (extArrives s) := by
  have hr : heldReleased x (releaseHeld (extRecorded true dArrived s)) :=
    heldReleased_releaseHeld (by rw [extRecorded_pp]) (by rw [extRecorded_pp]; exact hh) (by rw [extRecorded_bays]; exact ho)
  rw [extArrives_eq]
  obtain ⟨hheld, hsw⟩ := hr
  exact ⟨by rw [held_endBridge]; exact hheld,
    hsw.imp (fun e => by rw [(endBridge_pp _).1]; exact e) fun e => by rw [endB_bays]; exact e⟩

theorem budgetLaw_extArrives (s : State) : budgetLaw (settle s (extArrives s)) :=
  ((Acts.refl (extRecorded true dArrived s)).releaseHeld.endBridge.settle s).budget (budgetLaw_recompute _)

/-! ### EXT falls -/

theorem anyConducts_of_ext (h : s.pp.ext = true) : anyConducts s = true := anyConducts_iff.mpr (.inl h)

theorem anyConducts_extRecorded (s : State) : anyConducts (extRecorded false dDeparted s)
    = (conductsBay s .A || conductsBay s .B || conductsBridge s) := by
  unfold anyConducts conductsBay conductsBridge
  rw [extRecorded_pp, extRecorded_bays]
  rfl

theorem extDeparts_of_source (h : conductsBay s .A = true ∨ conductsBay s .B = true ∨ conductsBridge s = true) :
    extDeparts s = extRecorded false dDeparted s := by
  have hc : anyConducts (extRecorded false dDeparted s) = true := by
    rw [anyConducts_extRecorded, Bool.or_eq_true, Bool.or_eq_true, or_assoc]
    exact h
  exact if_neg fun h => h.2 hc

theorem extDeparts_of_none (hext : s.pp.ext = true) (hA : conductsBay s .A = false) (hB : conductsBay s .B = false)
    (hbr : conductsBridge s = false) : extDeparts s = answerNoSource (extRecorded false dDeparted s) := by
  have hc : ¬ anyConducts (extRecorded false dDeparted s) = true := by
    rw [anyConducts_extRecorded, hA, hB, hbr]
    decide
  exact if_pos ⟨anyConducts_of_ext hext, hc⟩

theorem settle_extRecorded (v : Bool) (d : Detail) (s : State) : settle s (extRecorded v d s) = extRecorded v d s :=
  settle_of_level (by rw [extRecorded_pp]) fun _ => by rw [extRecorded_bays]

theorem takeOverBay_congr {t : State} (hb : t.bays = s.bays) (hr : t.relays = s.relays) : takeOverBay t = takeOverBay s := by
  unfold takeOverBay canTakeOver voltageRank
  rw [hb, hr]

theorem bridgeCanStart_congr {t : State} (hb : t.pp.bridge = s.pp.bridge) (hr : t.pp.bridgeReady = s.pp.bridgeReady)
    (ht : t.tables = s.tables) : bridgeCanStart t = bridgeCanStart s := by
  unfold bridgeCanStart bridgeAllowed cfg inEffect
  rw [hb, hr, ht]

theorem answerNoSource_of_none (h : takeOverBay s = none) : answerNoSource s = startBridge .emergency s := by
  simp only [answerNoSource, h]

theorem answerNoSource_of_some {x : BayId} (h : takeOverBay s = some x) : answerNoSource s = goOnline x dTakeOver s := by
  simp only [answerNoSource, h]

theorem startBridge_of_not (why : BridgeReason) (h : bridgeCanStart s = false) : startBridge why s = s := if_neg (by rw [h]; decide)

/-- R8: the run that starts. -/
theorem run_startBridge (why : BridgeReason) (h : bridgeCanStart s = true) :
    bridgeRun (startBridge why s).pp = (.running, 0, true, true, s.pp.pfail) := by
  rw [startBridge, if_pos h, run_releaseHeld, run_recompute]
  rfl

theorem queued_startBridge (why : BridgeReason) (h : bridgeCanStart s = true) : queued (startBridge why s) .bridgeOn (dBridge why) := by
  rw [startBridge, if_pos h]
  exact (onKey_queued _ _).releaseHeld (by decide) (queued_recompute (by decide) (queued_post ..))

end Ext

/-- Settles O15: the arrival and the departure of EXT, each followed by the events it made; where nothing conducts any more the answer of R33. -/
theorem extPresentRisesAndFalls : Obligations.ExtPresentRisesAndFalls := by
  refine ⟨fun s => ⟨fun h => ?same, fun h => ?rise⟩, fun s => ⟨fun h => ?low, fun h => ⟨fun hc => ?source, fun hA hB hbr => ?none⟩⟩⟩
  case same => rw [exec_extPresentChange, extLine_of_eq h, settle_self]
  case low => rw [exec_extPresentChange, extLine_of_eq h, settle_self]
  case rise =>
    have hrun := run_settle_of_idle s (bridge_extArrives s)
    refine ⟨_, by rw [exec_extPresentChange, extLine_rises h], ext_extArrives s, queued_extArrives s,
      (congrArg Prod.fst hrun).trans (bridge_extArrives s), fun hb => ?_,
      fun x hh ho => heldReleased_settle s (heldReleased_extArrives hh ho), budgetLaw_extArrives s⟩
    rw [run_extArrives hb] at hrun
    simpa [bridgeRun] using (congrArg Prod.snd hrun)
  case source => rw [exec_extPresentChange, extLine_falls h, extDeparts_of_source hc, settle_extRecorded]; rfl
  case none =>
    have hrow : exec (.extPresentChange false) s = .next (settle s (answerNoSource (extRecorded false dDeparted s))) := by
      rw [exec_extPresentChange, extLine_falls h, extDeparts_of_none h hA hB hbr]
    have htake := takeOverBay_congr (extRecorded_bays false dDeparted s) (extRecorded_relays false dDeparted s)
    have hpp := extRecorded_pp false dDeparted s
    have hstart : bridgeCanStart (extRecorded false dDeparted s) = bridgeCanStart s :=
      bridgeCanStart_congr (by rw [hpp]) (by rw [hpp]) (extRecorded_tables false dDeparted s)
    have hq := queued_extRecorded false dDeparted s
    refine ⟨fun hn hb => ?stuck, fun hn hb => ?bridge, fun x hx => ?pack⟩
    case stuck =>
      rw [hrow, answerNoSource_of_none (htake.trans hn), startBridge_of_not _ (hstart.trans hb), settle_extRecorded]
      rfl
    case bridge =>
      rw [answerNoSource_of_none (htake.trans hn)] at hrow
      have hnone : ∀ x, canTakeOver (startBridge .emergency (extRecorded false dDeparted s)) x = false := fun x => by
        rw [canTakeOver, bays_startBridge]
        exact takeOverBay_none.mp (htake.trans hn) x
      have hrun := (run_settle_of_absent s hnone).trans (run_startBridge .emergency (hstart.trans hb))
      rw [hpp] at hrun
      simp only [bridgeRun, Prod.mk.injEq] at hrun
      have hext := (((Acts.refl (extRecorded false dDeparted s)).startBridge .emergency).settle s).ext
      rw [hpp] at hext
      exact ⟨_, hrow, hext,
        queued_settle (by decide) (fun x hx => by cases hx) ((onKey_queued _ _).startBridge (by decide) (by decide) _ hq),
        queued_settle (by decide) (fun x hx => by cases hx) (queued_startBridge .emergency (hstart.trans hb)), hrun⟩
    case pack =>
      rw [answerNoSource_of_some (htake.trans hx)] at hrow
      have hst : ((goOnline x dTakeOver (extRecorded false dDeparted s)).bays.get x).state = .online := state_goOnline_self ..
      have hne : ((goOnline x dTakeOver (extRecorded false dDeparted s)).bays.get x).state ≠ .standby := by rw [hst]; decide
      have hrest := rests_settle (old := s) hne
      have hext := (((Acts.refl (extRecorded false dDeparted s)).goOnline x dTakeOver).settle s).ext
      rw [hpp] at hext
      exact ⟨_, hrow, hext,
        queued_settle (by decide) (fun y hy => by cases hy) ((onKey_queued _ _).goOnline (by decide) (fun e => by cases e) _ hq),
        queued_settle (fun e => by cases e) (fun y hy => by cases hy; exact hne) (queued_goOnline ..),
        (hrest.sw_of_online hst).trans (sw_goOnline ..), by rw [hrest.bay]; exact hst⟩

end Sys2Proof.Machine
end

