-- ==== Sys2Proof/Proofs/Lines.lean ====
section
/-! PROOFS. The presence and latch lines and their debounces (R17, R18), what a released presence line ends on the link of its bay (R55, R57, R58,
R68), and a latch that closes on a STANDBY or RELEASING bay (R25, R30). -/

namespace Sys2Proof.Machine

/-! ### Conditions that a state's bays alone decide -/

section Congr
variable {s t : State} {x : BayId}

theorem parallelAllows_congr (hsw : t.pp.sw.get x.other = s.pp.sw.get x.other)
    (hp : (t.bays.get x.other).presence = (s.bays.get x.other).presence) (hs : ∀ y, (t.relays.get y).snap = (s.relays.get y).snap)
    (ht : t.tables = s.tables) : parallelAllows x t = parallelAllows x s := by
  unfold parallelAllows
  rw [hsw, hp, voltsClose_congr hs ht]

/-- R24: what the rule asks of the other bay, a change of the bay itself leaves. -/
theorem parallelAllows_updBay (f : Bay → Bay) : parallelAllows x (updBay x f s) = parallelAllows x s :=
  parallelAllows_congr rfl (by rw [updBay_bays, Pair.get_upd_other]) (fun _ => rfl) rfl

theorem sw_switchOff_other : (switchOff x s).pp.sw.get x.other = s.pp.sw.get x.other := by
  unfold switchOff
  split
  · rfl
  split
  · rw [sw_setSwitch, Pair.get_upd_other]
  · rfl

theorem presence_get_updBay (y : BayId) {f : Bay → Bay} (hf : ∀ b, (f b).presence = b.presence) :
    ((updBay x f s).bays.get y).presence = (s.bays.get y).presence := presence_updBay hf

end Congr

/-! ### Bays that an action's events leave (R25) -/

section Kept
variable {old s : State} {x : BayId}

theorem otherGone_of_level {y : BayId} (hsw : s.pp.sw.get y = old.pp.sw.get y)
    (hp : (s.bays.get y).presence = (old.bays.get y).presence) : otherGone old s y = false := by
  rw [otherGone, hsw, hp]
  cases (old.bays.get y).presence <;> cases old.pp.sw.get y <;> rfl

theorem rests_standbyJoin_other (x : BayId) (s : State) : Rests x.other s (standbyJoin x s) :=
  standbyJoin_keeps (P := Rests x.other s) (fun _ hu _ _ _ => hu.trans (rests_goOnline_other x dTakeOver _)) (Rests.refl ..)

theorem settleOne_of_kept (new : State) (h : otherGone old new x.other = false) : settleOne old new x s = s := if_neg (by rw [h]; decide)

theorem rests_settleOne_other (new : State) : Rests x.other s (settleOne old new x s) := by
  unfold settleOne
  split
  · exact rests_standbyJoin_other x s
  · exact Rests.refl ..

/-- R25: a bay takes no event where the other's switch and presence are as they were. -/
theorem rests_settle_of_kept (h : otherGone old s x.other = false) : Rests x s (settle old s) := by
  unfold settle
  cases x with
  | A =>
    rw [settleOne_of_kept (x := .A) s h]
    exact rests_settleOne_other (x := .B) s
  | B =>
    rw [settleOne_of_kept (x := .B) s h]
    exact rests_settleOne_other (x := .A) s

end Kept

/-! ### The latch line and its debounce (R18) -/

section Latch
variable {x : BayId} {s : State}

theorem exec_latchLineChange (x : BayId) (v : Bool) (s : State) : exec (.latchLineChange x v) s = .next (latchLine x v s) := rfl

theorem exec_latchDebounceExpiry (x : BayId) (s : State) : exec (.latchDebounceExpiry x) s = .next (settle s (latchExpiry x s)) := rfl

theorem latchLine_of_eq {v : Bool} (h : (s.bays.get x).latchLine = v) : latchLine x v s = s := if_pos h

theorem latchLine_of_change {v : Bool} (h : (s.bays.get x).latchLine = !v) : latchLine x v s
    = updBay x (fun b => { b with latchLine := v, latchDeb := if v = b.latch then none else some (latchDebounce s) }) s := by
  have hne : ¬ (s.bays.get x).latchLine = v := by rw [h]; cases v <;> decide
  have hline : latchLine x v s = debounceLatch x (updBay x (fun b => { b with latchLine := v }) s) := if_neg hne
  rw [hline, debounceLatch, updBay_updBay]
  rfl

theorem latchExpiry_of_stopped (h : (s.bays.get x).latchDeb = none) : latchExpiry x s = s := if_pos (by rw [h]; rfl)

/-- The latch debounce stops. -/
def latchStopped (x : BayId) (s : State) : State := updBay x (fun b => { b with latchDeb := none }) s

/-- R18: with the line at the recorded level the debounce only stops. -/
theorem latchExpiry_of_level (h : (s.bays.get x).latchLine = (s.bays.get x).latch) :
    latchExpiry x s = latchStopped x s := by
  unfold latchExpiry
  split
  · next hn =>
    have hdeb : (s.bays.get x).latchDeb = none := Option.isNone_iff_eq_none.mp hn
    have hsame : { s.bays.get x with latchDeb := none } = s.bays.get x := by rw [← hdeb]
    cases x
    · exact congrArg (fun b => { s with bays := { s.bays with a := b } }) hsame.symm
    · exact congrArg (fun b => { s with bays := { s.bays with b := b } }) hsame.symm
  · rfl

theorem latchExpiry_closes (h : latchTurns s x true) : latchExpiry x s = latchCloses x (latchStopped x s) := by
  obtain ⟨hdeb, hline, hlatch⟩ := h
  have hrun : ¬ (s.bays.get x).latchDeb.isNone = true := by rw [Option.isNone_iff_eq_none]; exact Option.isSome_iff_ne_none.mp hdeb
  unfold latchExpiry
  rw [if_neg hrun]
  simp only [hline, hlatch]
  rfl

theorem latchExpiry_opens (h : latchTurns s x false) : latchExpiry x s = latchOpens x (latchStopped x s) := by
  obtain ⟨hdeb, hline, hlatch⟩ := h
  have hrun : ¬ (s.bays.get x).latchDeb.isNone = true := by rw [Option.isNone_iff_eq_none]; exact Option.isSome_iff_ne_none.mp hdeb
  unfold latchExpiry
  rw [if_neg hrun]
  simp only [hline, hlatch]
  rfl

/-- The bay with its latch recorded closed, the refuse indicator released and the deferred mark cleared (R29). -/
def latchShut (x : BayId) (s : State) : State :=
  updBay x (fun b => { b with latchDeb := none, latch := true, refuse := false, deferred := false }) s

/-- The bay with its latch recorded open. -/
def latchOpened (x : BayId) (s : State) : State := updBay x (fun b => { b with latchDeb := none, latch := false }) s

theorem state_latchShut (x : BayId) (s : State) : ((latchShut x s).bays.get x).state = (s.bays.get x).state := by
  rw [latchShut, updBay_bays, Pair.get_upd_self]

theorem latch_latchShut (x : BayId) (s : State) : ((latchShut x s).bays.get x).latch = true := by
  rw [latchShut, updBay_bays, Pair.get_upd_self]

theorem state_latchOpened (x : BayId) (s : State) : ((latchOpened x s).bays.get x).state = (s.bays.get x).state := by
  rw [latchOpened, updBay_bays, Pair.get_upd_self]

theorem parallelAllows_latchShut (x : BayId) (s : State) : parallelAllows x (latchShut x s) = parallelAllows x s := parallelAllows_updBay _

/-- R25, R30: what a closing latch does, by the bay's state. -/
theorem latchExpiry_shuts (h : latchTurns s x true) : latchExpiry x s
    = if (s.bays.get x).state = .standby then standbyJoin x (latchShut x s)
      else if (s.bays.get x).state = .releasing then returnBay x (latchShut x s)
      else latchShut x s := by
  have hu : updBay x (fun b => { b with latch := true, refuse := false, deferred := false }) (latchStopped x s) = latchShut x s :=
    updBay_updBay ..
  have hst : ((latchShut x s).bays.get x).state = (s.bays.get x).state := state_latchShut x s
  rw [latchExpiry_closes h, latchCloses]
  simp only [hu, hst]
  cases (s.bays.get x).state <;> rfl

theorem latchExpiry_unlatches (h : latchTurns s x false) : latchExpiry x s
    = if (s.bays.get x).state = .online then evaluateLatch x (latchOpened x s) else latchOpened x s := by
  have hu : updBay x (fun b => { b with latch := false }) (latchStopped x s) = latchOpened x s := updBay_updBay ..
  have hst : ((latchOpened x s).bays.get x).state = (s.bays.get x).state := state_latchOpened x s
  rw [latchExpiry_opens h, latchOpens]
  simp only [hu, hst]

theorem settle_updBay {f : Bay → Bay} (hf : ∀ b, (f b).presence = b.presence) : settle s (updBay x f s) = updBay x f s :=
  settle_of_level rfl fun y => presence_get_updBay y hf

end Latch

/-! ### A bay that goes ONLINE or STANDBY as an action (R25, R30) -/

section Placed
variable {x : BayId} {s : State}

theorem standbyJoin_of_joins (h : joins s x) : standbyJoin x s = goOnline x dTakeOver s := if_pos h

theorem standbyJoin_of_not (h : ¬ joins s x) : standbyJoin x s = s := if_neg h

/-- R25: the events of the take-over leave it. -/
theorem tookOver_settle (old : State) (d : Detail) (hb : (s.bays.get x).latch = true) :
    ((settle old (goOnline x d s)).bays.get x).state = .online ∧ (settle old (goOnline x d s)).pp.sw.get x = .on
      ∧ ((settle old (goOnline x d s)).bays.get x).latch = true ∧ queued (settle old (goOnline x d s)) (.swapDone x) d := by
  have hst : ((goOnline x d s).bays.get x).state = .online := state_goOnline_self ..
  have hne : ((goOnline x d s).bays.get x).state ≠ .standby := by rw [hst]; decide
  have hrest := rests_settle (old := old) hne
  refine ⟨by rw [hrest.bay]; exact hst, (hrest.sw_of_online hst).trans (sw_goOnline ..), ?_,
    queued_settle (fun e => by cases e) (fun y hy => by cases hy; exact hne) (queued_goOnline ..)⟩
  rw [hrest.bay, get_goOnline_self]
  exact hb

/-- A bay that goes ONLINE, SWAP_DONE aside. -/
theorem get_turnOnline : (setBayState x .online (requestOn x s)).bays.get x = (s.bays.get x).enter .online := by
  rw [setBayState_bays, req_bays, Pair.get_upd_self]

theorem sw_turnOnline : (setBayState x .online (requestOn x s)).pp.sw.get x = .on := by
  rw [setBayState_pp]
  exact sw_requestOn_self x s

theorem online_settle (old : State) : (settle old (setBayState x .online (requestOn x s))).bays.get x = (s.bays.get x).enter .online
    ∧ (settle old (setBayState x .online (requestOn x s))).pp.sw.get x = .on := by
  have hst : ((setBayState x .online (requestOn x s)).bays.get x).state = .online := by rw [get_turnOnline]; rfl
  have hrest := rests_settle (old := old) (s := setBayState x .online (requestOn x s)) (y := x) (by rw [hst]; decide)
  exact ⟨hrest.bay.trans get_turnOnline, (hrest.sw_of_online hst).trans sw_turnOnline⟩

/-- A bay that goes STANDBY. -/
theorem get_turnStandby : (setBayState x .standby (switchOff x s)).bays.get x = (s.bays.get x).enter .standby := by
  rw [setBayState_bays, off_bays, Pair.get_upd_self]

theorem otherGone_turnStandby (old : State) (hsw : s.pp.sw.get x.other = old.pp.sw.get x.other)
    (hp : (s.bays.get x.other).presence = (old.bays.get x.other).presence) :
    otherGone old (setBayState x .standby (switchOff x s)) x.other = false := by
  refine otherGone_of_level ?_ ?_
  · rw [setBayState_pp, sw_switchOff_other, hsw]
  · rw [setBayState_bays, off_bays, Pair.get_upd_other, hp]

end Placed

/-! ### The presence line (R17) -/

section Presence
variable {x : BayId} {s : State}

theorem exec_presenceLineChange (x : BayId) (v : Bool) (s : State) :
    exec (.presenceLineChange x v) s = .next (settle s (presenceLine x v s)) := rfl

theorem exec_presenceDebounceExpiry (x : BayId) (s : State) :
    exec (.presenceDebounceExpiry x) s = .next (settle s (presenceExpiry x s)) := rfl

/-- The line at its new level. -/
def lineAt (x : BayId) (v : Bool) (s : State) : State := updBay x (fun b => { b with presLine := v }) s

theorem get_lineAt (x : BayId) (v : Bool) (s : State) : (lineAt x v s).bays.get x = { s.bays.get x with presLine := v } :=
  Pair.get_upd_self ..

theorem presenceLine_of_eq {v : Bool} (h : (s.bays.get x).presLine = v) : presenceLine x v s = s := if_pos h

theorem presenceLine_rises (h : (s.bays.get x).presLine = false) : presenceLine x true s = presenceLineRises x (lineAt x true s) := by
  rw [presenceLine, h, if_neg (by decide)]
  rfl

theorem presenceLine_falls (h : (s.bays.get x).presLine = true) : presenceLine x false s = presenceLineFalls x (lineAt x false s) := by
  rw [presenceLine, h, if_neg (by decide)]
  rfl

/-- R17: the debounce of the line at its new level. -/
theorem debouncePresence_lineAt (x : BayId) (v : Bool) (s : State) : debouncePresence x (lineAt x v s)
    = updBay x (fun b => { b with presLine := v, presDeb := if v = b.presence then none else some (presenceDebounce s) }) s :=
  updBay_updBay ..

theorem presenceLineRises_of_ne (h : (s.bays.get x).state ≠ .empty) : presenceLineRises x s = debouncePresence x s :=
  if_neg fun hc => h hc.1

theorem presenceLineFalls_of_ne (h : (s.bays.get x).state ≠ .seating) :
    presenceLineFalls x s = debouncePresence x (failRecover x (loseLink x s)) := by
  have hst : ((failRecover x (loseLink x s)).bays.get x).state ≠ .seating := by rw [get_loseLink_bays]; exact h
  exact if_neg hst

theorem loseLink_of_none (h : (s.relays.get x).link = none) : loseLink x s = s := by simp only [loseLink, h]

theorem failRecover_of_not (h : (s.relays.get x).recover = .notRunning) : failRecover x s = s := if_pos h

end Presence

/-! ### What a released line ends on the link (R55, R57, R58, R68) -/

section Lost
variable {x : BayId} {s : State}

/-- The relay of a bay whose transaction in flight, if any, has ended LOST. -/
def linkLost (r : Relay) : Relay :=
  { r with
    link := none, slot := if r.link = none then r.slot else none,
    poll := if r.link.map PackTx.purpose = some .poll then none else r.poll,
    probe := if r.link.map PackTx.purpose = some .probe then none else r.probe }

/-- The upstream link after the loss: the master's transaction is refused, in flight or in the slot. -/
def upstreamLost (r : Relay) (u : Upstream) : Upstream :=
  if r.link.map PackTx.purpose = some .platform ∨ (r.link ≠ none ∧ r.slot ≠ none) then { tx := none, answer := .refused } else u

theorem linkLost_of_none {r : Relay} (h : r.link = none) : linkLost r = r := by
  obtain ⟨link, _, _, _, _, _, _, _, _, _⟩ := r
  subst h
  rfl

theorem upstreamLost_of_none {r : Relay} (h : r.link = none) (u : Upstream) : upstreamLost r u = u := by
  rw [upstreamLost, h]
  exact if_neg fun hc => hc.elim (fun e => by cases e) fun e => e.1 rfl

/-- R55, R57: the loss of a transaction in flight, whatever its purpose. -/
structure Lost (x : BayId) (s t : State) : Prop where
  relays : t.relays = s.relays.upd x linkLost
  upstream : t.upstream = upstreamLost (s.relays.get x) s.upstream
  bays : t.bays = s.bays
  attn : t.attn = s.attn
  time : t.time = s.time
  pp : t.pp = s.pp
  cache : t.cache = s.cache
  budget : t.budget = s.budget
  tables : t.tables = s.tables

/-- What `endLost` does beside the relay: it refuses the master where the transaction was the master's. -/
theorem endLost_spec (p : Purpose) (s : State) : ∃ g : Relay → Relay, ∃ u : Upstream,
    endLost x p s = { s with relays := s.relays.upd x g, upstream := u }
      ∧ (∀ r, g r = { r with poll := if p = .poll then none else r.poll, probe := if p = .probe then none else r.probe })
      ∧ u = if p = .platform then { tx := none, answer := .refused } else s.upstream := by
  cases p with
  | platform => exact ⟨id, _, by cases x <;> rfl, fun _ => rfl, rfl⟩
  | poll => exact ⟨_, _, rfl, fun _ => rfl, rfl⟩
  | probe => exact ⟨_, _, rfl, fun _ => rfl, rfl⟩
  | orphan => exact ⟨id, _, by cases x <;> rfl, fun _ => rfl, rfl⟩

theorem refuseSlot_spec (s : State) : refuseSlot x s = { s with
    relays := s.relays.upd x (fun r => { r with slot := none })
    upstream := if (s.relays.get x).slot = none then s.upstream else { tx := none, answer := .refused } } := by
  unfold refuseSlot
  cases hslot : (s.relays.get x).slot with
  | none =>
    have hsame : s.relays.upd x (fun r => { r with slot := none }) = s.relays.upd x id := Pair.upd_congr (by rw [← hslot]; rfl)
    rw [hsame]
    cases x <;> rfl
  | some q => rfl

theorem lost_loseLink (x : BayId) (s : State) : Lost x s (loseLink x s) := by
  cases hlink : (s.relays.get x).link with
  | none =>
    rw [loseLink_of_none hlink]
    refine ⟨?_, (upstreamLost_of_none hlink _).symm, rfl, rfl, rfl, rfl, rfl, rfl, rfl⟩
    have hsame : s.relays.upd x linkLost = s.relays.upd x id := Pair.upd_congr (linkLost_of_none hlink)
    rw [hsame]
    cases x <;> rfl
  | some tx =>
    obtain ⟨g, u, he, hg, hu⟩ := endLost_spec (x := x) tx.purpose (updRelay x (fun r => { r with link := none }) s)
    have hlose : loseLink x s = refuseSlot x (endLost x tx.purpose (updRelay x (fun r => { r with link := none }) s)) := by
      simp only [loseLink, hlink]
    rw [hlose, he, refuseSlot_spec]
    refine ⟨?_, ?_, rfl, rfl, rfl, rfl, rfl, rfl, rfl⟩
    · have hfuse : ((s.relays.upd x fun r => { r with link := none }).upd x g).upd x (fun r => { r with slot := none })
          = s.relays.upd x fun r => { g { r with link := none } with slot := none } := by cases x <;> rfl
      refine hfuse.trans (Pair.upd_congr ?_)
      rw [hg, linkLost, hlink]
      simp only [Option.map_some, Option.some.injEq, reduceCtorEq, if_false]
    · have hslot : ((((s.relays.upd x fun r => { r with link := none }).upd x g).get x).slot) = (s.relays.get x).slot := by
        rw [Pair.get_upd_self, hg, Pair.get_upd_self]
      have hup : u = if tx.purpose = .platform then { tx := none, answer := .refused } else s.upstream := hu
      show (if ((((s.relays.upd x fun r => { r with link := none }).upd x g).get x).slot) = none then u
        else ({ tx := none, answer := .refused } : Upstream)) = _
      rw [hslot, hup, upstreamLost, hlink]
      simp only [Option.map_some, Option.some.injEq, ne_eq, reduceCtorEq, not_false_eq_true, true_and]
      by_cases hp : tx.purpose = .platform
      · simp only [hp, if_true, true_or, ite_self]
      · simp only [hp, if_false, false_or, ite_not]

theorem failRecover_spec (s : State) : failRecover x s = { s with
    relays := s.relays.upd x (fun r => { r with recover := .notRunning })
    attn := if (s.relays.get x).recover = .notRunning then s.attn else (post (.linkDone x) dRecoverFail s).attn } := by
  unfold failRecover
  split
  · next h =>
    have hsame : s.relays.upd x (fun r => { r with recover := .notRunning }) = s.relays.upd x id := Pair.upd_congr (by rw [← h]; rfl)
    rw [hsame]
    cases x <;> rfl
  · rfl

/-- The bay whose line has fallen, with its debounce (R17). -/
theorem bays_debouncePresence {u : State} (hb : u.bays = (lineAt x false s).bays) (ht : u.tables = s.tables) :
    (debouncePresence x u).bays = s.bays.upd x fun b =>
      { b with presLine := false, presDeb := if b.presence then some (presenceDebounce s) else none } := by
  have hd : presenceDebounce u = presenceDebounce s := by
    unfold presenceDebounce cfg inEffect
    rw [ht]
  have hfuse : (debouncePresence x u).bays
      = s.bays.upd x fun b => { b with presLine := false, presDeb := presenceDeb u { b with presLine := false } } := by
    have h : (debouncePresence x u).bays = u.bays.upd x fun b => { b with presDeb := presenceDeb u b } := rfl
    rw [h, hb]
    cases x <;> rfl
  refine hfuse.trans (Pair.upd_congr ?_)
  rw [presenceDeb, hd]
  cases (s.bays.get x).presence <;> rfl

theorem post_attn_congr {k : AttnKey} {d : Detail} {t : State} (ha : t.attn = s.attn) (ht : t.time = s.time) :
    (post k d t).attn = (post k d s).attn := by
  unfold post
  rw [ha, ht]

/-- R17, R55, R57, R68: the line falling outside SEATING. -/
theorem lineFalls_spec (hl : (s.bays.get x).presLine = true) (hst : (s.bays.get x).state ≠ .seating) :
    presenceLine x false s = debouncePresence x (failRecover x (loseLink x (lineAt x false s))) := by
  rw [presenceLine_falls hl, presenceLineFalls_of_ne (by rw [get_lineAt]; exact hst)]

end Lost

/-- Settles O18: the two lines and their debounces by cases; a line that falls outside SEATING leaves the link as `Lost` and `failRecover` say. -/
theorem linesAreDebouncedAndLatchesRecorded : Obligations.LinesAreDebouncedAndLatchesRecorded := by
  refine ⟨⟨fun x v s h => ?latchSame, fun x v s h => ?latchTurn, fun x v s h => ?presSame, fun x v s h hup hdown => ?presTurn⟩,
    fun x s => ⟨fun h => ?stopped, fun h => ?level, fun h hs hr => ?shuts, fun h ho => ?opens⟩,
    fun x s h => ⟨fun hs => ⟨fun hp => ?joins, fun hp => ?stays⟩, fun hs => ?returns⟩, fun x s hl hst => ?falls⟩
  case latchSame => rw [exec_latchLineChange, latchLine_of_eq h]
  case latchTurn => rw [exec_latchLineChange, latchLine_of_change h]
  case presSame => rw [exec_presenceLineChange, presenceLine_of_eq h, settle_self]
  case presTurn =>
    have hline : presenceLine x v s = debouncePresence x (lineAt x v s) := by
      cases v with
      | true => rw [presenceLine_rises h, presenceLineRises_of_ne (by rw [get_lineAt]; exact hup rfl)]
      | false =>
        obtain ⟨hst, hlink, hrec⟩ := hdown rfl
        have hlose : loseLink x (lineAt x false s) = lineAt x false s := loseLink_of_none hlink
        have hfail : failRecover x (lineAt x false s) = lineAt x false s := failRecover_of_not hrec
        rw [presenceLine_falls h, presenceLineFalls_of_ne (by rw [get_lineAt]; exact hst), hlose, hfail]
    rw [exec_presenceLineChange, hline, debouncePresence_lineAt]
    exact congrArg _ (settle_updBay fun _ => rfl)
  case stopped => rw [exec_latchDebounceExpiry, latchExpiry_of_stopped h, settle_self]
  case level =>
    rw [exec_latchDebounceExpiry, latchExpiry_of_level h, latchStopped]
    exact congrArg _ (settle_updBay fun _ => rfl)
  case shuts =>
    have hrow : latchExpiry x s = latchShut x s := by rw [latchExpiry_shuts h, if_neg hs, if_neg hr]
    rw [exec_latchDebounceExpiry, hrow, latchShut]
    exact congrArg _ (settle_updBay fun _ => rfl)
  case opens =>
    rw [exec_latchDebounceExpiry, latchExpiry_unlatches h, if_neg ho, latchOpened]
    exact congrArg _ (settle_updBay fun _ => rfl)
  case joins =>
    have hj : joins (latchShut x s) x :=
      ⟨(state_latchShut x s).trans hs, latch_latchShut x s, (parallelAllows_latchShut x s).trans hp⟩
    have hrow : latchExpiry x s = goOnline x dTakeOver (latchShut x s) := by
      rw [latchExpiry_shuts h, if_pos hs]
      exact standbyJoin_of_joins hj
    obtain ⟨hst, hsw, hlatch, hq⟩ := tookOver_settle s dTakeOver (latch_latchShut x s)
    exact ⟨_, by rw [exec_latchDebounceExpiry, hrow], hst, hsw, hlatch, hq⟩
  case stays =>
    have hj : ¬ joins (latchShut x s) x := fun ⟨_, _, ha⟩ => by
      rw [parallelAllows_latchShut, hp] at ha
      cases ha
    have hrow : latchExpiry x s = latchShut x s := by
      rw [latchExpiry_shuts h, if_pos hs]
      exact standbyJoin_of_not hj
    rw [exec_latchDebounceExpiry, hrow, latchShut]
    exact congrArg _ (settle_updBay fun _ => rfl)
  case returns =>
    have hrow : latchExpiry x s = returnBay x (latchShut x s) := by
      rw [latchExpiry_shuts h, if_neg (by rw [hs]; decide), if_pos hs]
    refine ⟨_, by rw [exec_latchDebounceExpiry, hrow], ?_⟩
    rw [returnBay, parallelAllows_latchShut]
    cases hp : parallelAllows x s with
    | true =>
      obtain ⟨hb, hsw⟩ := online_settle (x := x) (s := latchShut x s) s
      rw [if_pos rfl]
      refine ⟨?_, fun _ => ⟨?_, hsw⟩, fun e => by cases e⟩
      · rw [hb]; exact latch_latchShut x s
      · rw [hb]; rfl
    | false =>
      have hb := (rests_settle_of_kept (x := x) (otherGone_turnStandby s (s := latchShut x s) (x := x) rfl
        (by rw [latchShut, updBay_bays, Pair.get_upd_other]))).bay.trans get_turnStandby
      rw [if_neg (by decide)]
      refine ⟨?_, fun e => (by cases e), fun _ => ?_⟩
      · rw [hb]; exact latch_latchShut x s
      · rw [hb]; rfl
  case falls =>
    have hlost := lost_loseLink x (lineAt x false s)
    have hrow : presenceLine x false s = debouncePresence x (failRecover x (loseLink x (lineAt x false s))) := lineFalls_spec hl hst
    rw [failRecover_spec] at hrow
    generalize loseLink x (lineAt x false s) = u at hlost hrow
    have hrelay : (u.relays.get x).recover = (s.relays.get x).recover := by rw [hlost.relays, Pair.get_upd_self]; rfl
    generalize hw : ({ u with
      relays := u.relays.upd x (fun r => { r with recover := .notRunning })
      attn := if (u.relays.get x).recover = .notRunning then u.attn else (post (.linkDone x) dRecoverFail u).attn } : State) = w at hrow
    have hbays := bays_debouncePresence (x := x) (s := s) (u := w) (by rw [← hw]; exact hlost.bays) (by rw [← hw]; exact hlost.tables)
    have hpp : (debouncePresence x w).pp = s.pp := by rw [← hw]; exact hlost.pp
    have hkept : settle s (debouncePresence x w) = debouncePresence x w :=
      settle_of_level (by rw [hpp]) fun y => by rw [hbays]; exact presence_get_updBay (s := s) y fun _ => rfl
    refine ⟨debouncePresence x w, by rw [exec_presenceLineChange, hrow, hkept], hbays, ?_, ?_, ?_, hpp, ?_, ?_⟩
    · have hr : (debouncePresence x w).relays = u.relays.upd x fun r => { r with recover := .notRunning } := by rw [← hw]; rfl
      rw [hr, hlost.relays]
      cases x <;> rfl
    · have hu : (debouncePresence x w).upstream = u.upstream := by rw [← hw]; rfl
      rw [hu, hlost.upstream]
      rfl
    · have ha : (debouncePresence x w).attn
          = if (u.relays.get x).recover = .notRunning then u.attn else (post (.linkDone x) dRecoverFail u).attn := by rw [← hw]; rfl
      rw [ha, hrelay, hlost.attn, post_attn_congr (s := s) hlost.attn hlost.time]
      rfl
    · rw [← hw]; exact hlost.cache
    · rw [← hw]; exact hlost.budget

end Sys2Proof.Machine
end

