-- ==== Sys2Proof/Proofs/Evaluations.lean ====
section
/-! PROOFS. Handover evaluations (R26 to R29): what decides one, a refusal, and what each kind carried out leaves; the rows that begin one for a
latch that opens and for Bay Release (R41, R43). -/

namespace Sys2Proof.Machine

/-! ### What decides an evaluation -/

/-- From `s` to `t` nothing changes that an evaluation of bay `x` asks for. -/
structure Judged (x : BayId) (s t : State) : Prop where
  ext : t.pp.ext = s.pp.ext
  bridge : t.pp.bridge = s.pp.bridge
  ready : t.pp.bridgeReady = s.pp.bridgeReady
  sw : t.pp.sw.get x.other = s.pp.sw.get x.other
  other : t.bays.get x.other = s.bays.get x.other
  snap : ∀ y, (t.relays.get y).snap = (s.relays.get y).snap
  tables : t.tables = s.tables
  flags : t.flags = s.flags
  window : t.motion.window = s.motion.window

section Judged
variable {x : BayId} {s t : State}

theorem judged_updBay (f : Bay → Bay) (s : State) : Judged x s (updBay x f s) :=
  ⟨rfl, rfl, rfl, rfl, Pair.get_upd_other .., fun _ => rfl, rfl, rfl, rfl⟩

theorem judged_begun (s : State) : Judged x s (begun s) := ⟨rfl, rfl, rfl, rfl, rfl, fun _ => rfl, rfl, rfl, rfl⟩

variable (h : Judged x s t)
include h

theorem Judged.inEffect (r : RegionId) (i : Nat) : inEffect t r i = inEffect s r i := by
  unfold Machine.inEffect
  rw [h.tables]

theorem Judged.holdSwap : holdSwap t x = holdSwap s x := by
  unfold Machine.holdSwap
  rw [h.flags]

theorem Judged.otherConducts : otherConducts t x = otherConducts s x := otherConducts_congr h.ext h.sw h.bridge (by rw [h.other])

theorem Judged.bayPower : bayPower t x.other = bayPower s x.other := by
  unfold Machine.bayPower rawPower hot bayLimit defaultPack tempHot cfg
  rw [h.snap, h.inEffect, h.inEffect, h.inEffect]

theorem Judged.totalWithout : totalWithout t x = totalWithout s x := by
  unfold Machine.totalWithout countedPower extPower bridgePower conductsBridge conductsBay extLimit bridgeMw cfg
  rw [h.bayPower, h.ext, h.sw, h.other, h.bridge, h.inEffect, h.inEffect]

theorem Judged.pMinRun : pMinRun t = pMinRun s := congrArg BitVec.toNat (h.inEffect .config 18)

theorem Judged.breakFirstOk : breakFirstOk t = breakFirstOk s := by
  unfold Machine.breakFirstOk cfg
  rw [h.inEffect]

theorem Judged.voltsClose : voltsClose t = voltsClose s := voltsClose_congr h.snap h.tables

theorem Judged.bridgeCanStart : bridgeCanStart t = bridgeCanStart s := bridgeCanStart_congr h.bridge h.ready h.tables

theorem Judged.refusalCase (r : RefusalReason) : refusalCase t x r = refusalCase s x r := by
  unfold Machine.refusalCase swapFree otherSource packAlternative
  rw [h.holdSwap, h.window, h.ext, h.other, h.totalWithout, h.pMinRun, h.bayPower, h.voltsClose, h.breakFirstOk, h.otherConducts,
    h.bridgeCanStart]

theorem Judged.handoverCase (k : HandoverKind) : handoverCase t x k = handoverCase s x k := by
  unfold Machine.handoverCase swapFree otherSource packAlternative
  rw [h.holdSwap, h.window, h.ext, h.other, h.totalWithout, h.pMinRun, h.bayPower, h.voltsClose, h.breakFirstOk, h.otherConducts,
    h.bridgeCanStart]

end Judged

/-! ### The cases (R26) -/

section Cases
variable {x : BayId} {s : State} {b : Bool}

theorem windowOpen_of_closed (h : s.motion.window = .closed) : windowOpen s = false := by
  rw [windowOpen, h]
  rfl

theorem windowOpen_of_not (h : s.motion.window ≠ .closed) : windowOpen s = true := by
  rw [windowOpen, bne_iff_ne]
  exact h

/-- R26: cases 3 to 5, with the window closed and no hold. -/
theorem evaluateCases_of_free (h : swapFree s x) : evaluateCases x b s
    = if s.pp.ext ∨ (s.bays.get x.other).state = .online then
        if pMinRun s ≤ totalWithout s x then (releaseBay x .plain (switchOff x s), .released .plain)
        else (refuseBay x b .lowBudget s, .refused .lowBudget)
      else if (s.bays.get x.other).state = .standby ∧ (s.bays.get x.other).latch ∧ pMinRun s ≤ (bayPower s x.other).power then
        handoverToStandby x b s
      else if bridgeCanStart s then (releaseBay x .bridgeHold (switchOff x (startBridge .hold s)), .released .bridgeHold)
      else (refuseBay x b .noSource s, .refused .noSource) := by
  obtain ⟨hhold, hwin⟩ := h
  rw [evaluateCases, if_neg (by rw [hhold]; decide), if_neg (by rw [windowOpen_of_closed hwin]; decide)]

/-- R29: a refused evaluation. -/
theorem evaluateCases_of_refusal {r : RefusalReason} (h : refusalCase s x r) :
    evaluateCases x b s = (refuseBay x b r s, .refused r) := by
  unfold refusalCase otherSource packAlternative at h
  cases r with
  | held => exact if_pos h
  | lowBudget =>
    obtain ⟨hfree, hsrc, hlow⟩ := h
    rw [evaluateCases_of_free hfree, if_pos hsrc, if_neg (Nat.not_le.mpr hlow)]
  | mismatch =>
    obtain ⟨hfree, hsrc, hpack, hvolt, hbreak, hbridge⟩ := h
    rw [evaluateCases_of_free hfree, if_neg hsrc, if_pos hpack, handoverToStandby, if_neg (by rw [hvolt]; decide), if_neg hbreak,
      if_neg (by rw [hbridge]; decide)]
  | noSource =>
    obtain ⟨hfree, hsrc, hpack, hbridge⟩ := h
    rw [evaluateCases_of_free hfree, if_neg hsrc, if_neg hpack, if_neg (by rw [hbridge]; decide)]
  | none => exact absurd h id
  | drop => exact absurd h id

/-- R27, R28: a handover of a kind, as one action. -/
def carriedOut (x : BayId) (k : HandoverKind) (s : State) : State :=
  match k with
  | .plain => releaseBay x .plain (switchOff x s)
  | .makeFirst => releaseBay x .makeFirst (switchOff x (goOnline x.other dTakeOver s))
  | .breakFirst => goOnline x.other dTakeOver (releaseBay x .breakFirst (switchOff x s))
  | .bridgeThrough => goOnline x.other dTakeOver (releaseBay x .bridgeThrough (switchOff x (startBridge .through s)))
  | .bridgeHold => releaseBay x .bridgeHold (switchOff x (startBridge .hold s))
  | .none => s

theorem evaluateCases_of_handover {k : HandoverKind} (h : handoverCase s x k) :
    evaluateCases x b s = (carriedOut x k s, .released k) := by
  unfold handoverCase otherSource packAlternative at h
  cases k with
  | plain =>
    obtain ⟨hfree, hsrc, hbudget⟩ := h
    rw [evaluateCases_of_free hfree, if_pos hsrc, if_pos hbudget]
    rfl
  | makeFirst =>
    obtain ⟨hfree, hsrc, hpack, hvolt⟩ := h
    rw [evaluateCases_of_free hfree, if_neg hsrc, if_pos hpack, handoverToStandby, if_pos hvolt]
    rfl
  | breakFirst =>
    obtain ⟨hfree, hsrc, hpack, hvolt, hbreak⟩ := h
    rw [evaluateCases_of_free hfree, if_neg hsrc, if_pos hpack, handoverToStandby, if_neg (by rw [hvolt]; decide), if_pos hbreak]
    rfl
  | bridgeThrough =>
    obtain ⟨hfree, hsrc, hpack, hvolt, hbreak, hbridge⟩ := h
    rw [evaluateCases_of_free hfree, if_neg hsrc, if_pos hpack, handoverToStandby, if_neg (by rw [hvolt]; decide), if_neg hbreak,
      if_pos hbridge]
    rfl
  | bridgeHold =>
    obtain ⟨hfree, hsrc, hpack, hbridge⟩ := h
    rw [evaluateCases_of_free hfree, if_neg hsrc, if_neg hpack, if_pos hbridge]
    rfl
  | none => exact absurd h id

/-- R40: a latch-open with the window open. -/
theorem evaluateCases_of_open (hh : holdSwap s x = false) (hw : s.motion.window ≠ .closed) :
    evaluateCases x true s = (updBay x (fun b => { b with deferred := true }) s, .deferred) := by
  rw [evaluateCases, if_neg (by rw [hh]; decide), if_pos (windowOpen_of_not hw), if_pos rfl]

/-! ### Refusals and deferrals (R29, R40) -/

theorem settle_refuseBay (r : RefusalReason) (s : State) : settle s (refuseBay x b r s) = refuseBay x b r s := by
  refine settle_of_level ?_ fun y => ?_
  · unfold refuseBay
    split <;> rfl
  · unfold refuseBay
    split
    · exact presence_get_updBay (s := s) y fun _ => rfl
    · exact presence_get_updBay (s := s) y fun _ => rfl

theorem evaluate_of_refusal {r : RefusalReason} (h : refusalCase s x r) : evaluate x b s = (refuseBay x b r s, .refused r) := by
  rw [evaluate, evaluateCases_of_refusal h, settle_refuseBay]

theorem evaluateLatch_of_refusal {r : RefusalReason} (h : refusalCase s x r) : evaluateLatch x s
    = post (.swapRefused x) (dRefusal r) (updBay x (fun b => { b with refusal := r, refuse := true }) s) := by
  rw [evaluateLatch, evaluate_of_refusal h]
  rfl

theorem evaluateLatch_of_open (hh : holdSwap s x = false) (hw : s.motion.window ≠ .closed) :
    evaluateLatch x s = updBay x (fun b => { b with deferred := true }) s := by
  rw [evaluateLatch, evaluate, evaluateCases_of_open hh hw]
  exact settle_updBay fun _ => rfl

theorem evaluate_of_handover {k : HandoverKind} (h : handoverCase s x k) :
    evaluate x b s = (settle s (carriedOut x k s), .released k) := by
  rw [evaluate, evaluateCases_of_handover h]

theorem evaluateLatch_of_handover {k : HandoverKind} (h : handoverCase s x k) : evaluateLatch x s = settle s (carriedOut x k s) := by
  rw [evaluateLatch, evaluate_of_handover h]

end Cases

/-! ### A bay released (R27, R28) -/

section Released
variable {x : BayId} {k : HandoverKind} {s t : State}

/-- Bay `x` is RELEASING by a handover of kind `k`, its switch OFF and not held. -/
structure Released (x : BayId) (k : HandoverKind) (t : State) : Prop where
  state : (t.bays.get x).state = .releasing
  last : (t.bays.get x).lastHandover = k
  refusal : (t.bays.get x).refusal = .none
  refuse : (t.bays.get x).refuse = false
  sw : t.pp.sw.get x = .off
  held : t.pp.held.get x = false

theorem get_releaseBay_self (x : BayId) (k : HandoverKind) (s : State) :
    (releaseBay x k s).bays.get x = (markReleased k (s.bays.get x)).enter .releasing := by
  rw [releaseBay_eq, setBayState_bays, Pair.get_upd_self, updBay_bays, Pair.get_upd_self]

theorem refuse_markReleased (k : HandoverKind) (b : Bay) : ((markReleased k b).enter .releasing).refuse = false := by
  have h : ((markReleased k b).enter .releasing).refuse
      = if b.state = .online ∧ BayState.releasing ≠ .online then false else false := rfl
  rw [h, ite_self]

/-- R5: with another source the switch is OFF and not held. -/
theorem heldReleased_switchOff (h : otherConducts s x = true) : heldReleased x (switchOff x s) := by
  unfold switchOff
  split
  · next hoff => exact ⟨Pair.get_upd_self .., .inl hoff⟩
  · exact heldReleased_setSwitch x s

theorem heldReleased.off (h : heldReleased x t) (hs : (t.bays.get x).state ≠ .online) : t.pp.sw.get x = .off := h.2.resolve_right hs

theorem released_of_switchOff (h : otherConducts s x = true) : Released x k (releaseBay x k (switchOff x s)) := by
  have hb := get_releaseBay_self x k (switchOff x s)
  refine ⟨by rw [hb]; rfl, by rw [hb]; rfl, by rw [hb]; rfl, by rw [hb]; exact refuse_markReleased .., ?_, ?_⟩
  · rw [sw_releaseBay]; exact sw_switchOff_of_conducts h
  · rw [sw_releaseBay]; exact (heldReleased_switchOff h).1

theorem heldReleased_goOnline (z : BayId) (d : Detail) (h : heldReleased x s) : heldReleased x (goOnline z d s) := by
  obtain ⟨hheld, hsw⟩ := h
  refine ⟨by rw [pp_goOnline]; exact held_requestOn hheld hsw, ?_⟩
  by_cases hz : x = z
  · rw [hz]; exact .inr (state_goOnline_self z _ s)
  · obtain rfl : x = z.other := eq_other_of_ne hz
    exact hsw.imp (rests_goOnline_other z _ s).off fun ho => by rw [get_goOnline_other]; exact ho

theorem Released.of_rests (h : Released x k s) (r : Rests x s t) (hr : heldReleased x t) : Released x k t := by
  have hst : (t.bays.get x).state = .releasing := by rw [r.bay]; exact h.state
  exact ⟨hst, by rw [r.bay]; exact h.last, by rw [r.bay]; exact h.refusal, by rw [r.bay]; exact h.refuse,
    hr.off (by rw [hst]; decide), hr.1⟩

theorem Released.heldReleased (h : Released x k s) : heldReleased x s := ⟨h.held, .inl h.sw⟩

theorem Released.goOnline_other (h : Released x k s) (d : Detail) : Released x k (goOnline x.other d s) := by
  have hrest := rests_goOnline_other x.other d s
  rw [other_other] at hrest
  exact h.of_rests hrest (heldReleased_goOnline x.other d h.heldReleased)

theorem Released.settle (h : Released x k s) (old : State) : Released x k (settle old s) :=
  h.of_rests (rests_settle (by rw [h.state]; decide)) (heldReleased_settle old h.heldReleased)

/-! ### The pack that takes over (R27) -/

theorem tookOver_goOnline (x : BayId) (s : State) : tookOver (goOnline x dTakeOver s) x :=
  ⟨state_goOnline_self .., sw_goOnline .., queued_goOnline ..⟩

theorem tookOver.rests (h : tookOver s x) (r : Rests x s t) (hq : queued t (.swapDone x) dTakeOver) : tookOver t x := by
  obtain ⟨hst, hsw, -⟩ := h
  exact ⟨by rw [r.bay]; exact hst, (r.sw_of_online hst).trans hsw, hq⟩

theorem tookOver.settle (h : tookOver s x) (old : State) : tookOver (settle old s) x := by
  have hne : (s.bays.get x).state ≠ .standby := by rw [h.1]; decide
  exact h.rests (rests_settle hne) (queued_settle (fun e => by cases e) (fun y hy => by cases hy; exact hne) h.2.2)

theorem rests_releaseBay_other (x : BayId) (k : HandoverKind) (s : State) : Rests x.other s (releaseBay x k s) :=
  (rests_updBay_other x _ s).trans (rests_setBayState_other x .releasing _)

theorem OnKey.releaseBay {K : AttnKey} {P : State → Prop} (w : OnKey K P) (hc : K ≠ .budgetCut) (x : BayId) (k : HandoverKind) (h : P s) :
    P (releaseBay x k s) := w.setBayState hc x .releasing (w.same s _ rfl h)

theorem queued_release {K : AttnKey} {d : Detail} (hc : K ≠ .budgetCut) (x : BayId) (k : HandoverKind) (h : queued s K d) :
    queued (releaseBay x k (switchOff x s)) K d :=
  (onKey_queued K d).releaseBay hc x k ((onKey_queued K d).switchOff hc x h)

theorem tookOver_release (k : HandoverKind) (h : tookOver s x.other) : tookOver (releaseBay x k (switchOff x s)) x.other :=
  h.rests ((rests_switchOff_other x s).trans (rests_releaseBay_other x k _)) (queued_release (fun e => by cases e) x k h.2.2)

/-! ### The bridge (R8, R10) -/

theorem run_release (x : BayId) (k : HandoverKind) (s : State) : bridgeRun (releaseBay x k (switchOff x s)).pp = bridgeRun s.pp := by
  rw [sw_releaseBay]
  exact run_switchOff x s

/-- R6: with EXT or the bridge a held switch is released, and a switch that is OFF stays so. -/
theorem off_releaseHeld (hb : s.pp.bridge ≠ .idle) (ho : (s.bays.get x).state ≠ .online)
    (h : s.pp.sw.get x = .off ∨ s.pp.held.get x = true) : (releaseHeld s).pp.sw.get x = .off := by
  have one : ∀ y u, u.pp.bridge ≠ .idle → (u.bays.get x).state ≠ .online → (u.pp.sw.get x = .off ∨ u.pp.held.get x = true) →
      (releaseHeldOne y u).pp.sw.get x = .off ∨ (y ≠ x ∧ (releaseHeldOne y u).pp.held.get x = true) := by
    intro y u hbu hou hu
    by_cases hy : x = y
    · subst hy
      obtain hoff | hheld := hu
      · unfold releaseHeldOne
        split
        · rw [sw_setSwitch, Pair.get_upd_self]; exact .inl rfl
        · exact .inl hoff
      · exact .inl ((heldReleased_releaseHeldOne hheld hou (otherConducts_of_bridge hbu)).off (by
          rw [((powerOnly.refl u).releaseHeldOne x).bays]; exact hou))
    · unfold releaseHeldOne
      split
      · rw [sw_setSwitch, Pair.get_upd_ne _ hy, held_setSwitch, Pair.get_upd_ne _ hy]
        exact hu.imp_right fun e => ⟨Ne.symm hy, e⟩
      · exact hu.imp_right fun e => ⟨Ne.symm hy, e⟩
  have hA := one .A s hb ho h
  have hB := one .B (releaseHeldOne .A s) (by rw [bridge_releaseHeldOne]; exact hb)
    (by rw [((powerOnly.refl s).releaseHeldOne .A).bays]; exact ho) (hA.imp_right And.right)
  obtain hoff | ⟨hne, hheld⟩ := hB
  · exact hoff
  obtain hoff | ⟨hne', -⟩ := hA
  · exact (Rests.power ((powerOnly.refl _).releaseHeldOne .B) (follows_releaseHeldOne x .B _)).off hoff
  · cases x
    · exact absurd rfl hne'
    · exact absurd rfl hne

theorem off_startBridge {why : BridgeReason} (hs : bridgeCanStart s = true) (ho : (s.bays.get x).state ≠ .online)
    (h : s.pp.sw.get x = .off ∨ s.pp.held.get x = true) : (startBridge why s).pp.sw.get x = .off := by
  rw [startBridge, if_pos hs]
  refine off_releaseHeld ?_ ?_ ?_
  · rw [recompute_pp]; exact (by decide : BridgeState.running ≠ .idle)
  · rw [recompute_bays]; exact ho
  · rw [recompute_pp]; exact h

/-- R10: a switch newly ON with its pack present ends the run. -/
theorem bridge_goOnline_of_off (d : Detail) (hoff : s.pp.sw.get x = .off) (hp : (s.bays.get x).presence = true) :
    (goOnline x d s).pp.bridge = .idle := by
  have hon : (switchOn x s).pp.bridge = .idle := by
    rw [switchOn, if_neg (by rw [hoff]; decide), if_pos hp, bridge_releaseHeld]
    exact bridge_endBridge _
  rw [pp_goOnline, requestOn]
  split
  · exact (congrArg Prod.fst (run_switchOff x.other (switchOn x s))).trans hon
  · exact hon

end Released

/-! ### What a handover leaves (R26 to R28) -/

section Carried
variable {x : BayId} {k : HandoverKind} {s t : State}

/-- No STANDBY bay has its latch closed. -/
def noneWaits (t : State) : Prop := ∀ z, ¬ ((t.bays.get z).state = .standby ∧ (t.bays.get z).latch = true)

theorem settle_of_noneWaits (old : State) (h : noneWaits s) : settle old s = s := by
  refine settle_keeps (P := fun u => u = s) (fun z u hu hz hl _ => ?_) rfl
  subst hu
  exact absurd ⟨hz, hl⟩ (h z)

/-- What the handover of `x` by kind `k` from `s` has left in `t`. -/
structure Carried (x : BayId) (k : HandoverKind) (s t : State) : Prop where
  released : Released x k t
  pack : k = .makeFirst ∨ k = .breakFirst ∨ k = .bridgeThrough → tookOver t x.other
  through : k = .bridgeThrough → t.pp.bridge = .idle ∧ queued t .bridgeOn (dBridge .through)
  hold : k = .bridgeHold → queued t .bridgeOn (dBridge .hold)
  run : k = .bridgeHold → ¬ ((s.bays.get x.other).state = .standby ∧ (s.bays.get x.other).latch = true) →
    t.pp.bridge = .running ∧ t.pp.lowpwr = true ∧ noneWaits t

theorem Carried.settle (h : Carried x k s t) (old : State) : Carried x k s (settle old t) where
  released := h.released.settle old
  pack := fun e => (h.pack e).settle old
  through := fun e => by
    obtain ⟨hidle, hq⟩ := h.through e
    exact ⟨(congrArg Prod.fst (run_settle_of_idle old hidle)).trans hidle, queued_settle (by decide) (fun y hy => by cases hy) hq⟩
  hold := fun e => queued_settle (by decide) (fun y hy => by cases hy) (h.hold e)
  run := fun e hn => by
    obtain ⟨hb, hl, hnone⟩ := h.run e hn
    rw [settle_of_noneWaits old hnone]
    exact ⟨hb, hl, hnone⟩

theorem otherConducts_of_other (hsw : s.pp.sw.get x.other ≠ .off) (hp : (s.bays.get x.other).presence = true) :
    otherConducts s x = true := by
  have h : conductsBay s x.other = true := conductsBay_iff.mpr ⟨hsw, hp⟩
  rw [otherConducts, h, Bool.or_true, Bool.true_or]

theorem otherConducts_startBridge {why : BridgeReason} (h : bridgeCanStart s = true) : otherConducts (startBridge why s) x = true :=
  otherConducts_of_bridge (by rw [bridge_startBridge h]; decide)

theorem carried_plain (hb : bayLaw s x.other) (h : otherSource s x) : Carried x .plain s (carriedOut x .plain s) := by
  obtain ⟨-, -, hpres, hon, -, -, -⟩ := hb
  have hc : otherConducts s x = true := by
    obtain hext | honl := h
    · exact otherConducts_of_ext hext
    · exact otherConducts_of_other (by rw [hon honl]; decide) (hpres (.inr (.inl (by rw [honl]; rfl))))
  exact ⟨released_of_switchOff hc, fun e => (by rcases e with e | e | e <;> cases e), fun e => (by cases e), fun e => (by cases e),
    fun e => (by cases e)⟩

theorem presence_of_standby (hb : bayLaw s x) (h : (s.bays.get x).state = .standby) : (s.bays.get x).presence = true := by
  obtain ⟨-, -, hpres, -, -, -, -⟩ := hb
  exact hpres (.inr (.inl (by rw [h]; rfl)))

theorem off_or_held_of_standby (hb : bayLaw s x) (h : (s.bays.get x).state = .standby) :
    s.pp.sw.get x = .off ∨ s.pp.held.get x = true := by
  obtain ⟨-, -, -, -, -, hstby, -⟩ := hb
  exact hstby h

theorem carried_makeFirst (hb : bayLaw s x.other) (h : (s.bays.get x.other).state = .standby) :
    Carried x .makeFirst s (carriedOut x .makeFirst s) := by
  have htook := tookOver_goOnline x.other s
  have hc : otherConducts (goOnline x.other dTakeOver s) x = true :=
    otherConducts_of_other (by rw [htook.2.1]; decide) (by rw [get_goOnline_self]; exact presence_of_standby hb h)
  exact ⟨released_of_switchOff hc, fun _ => tookOver_release .makeFirst htook, fun e => (by cases e), fun e => (by cases e),
    fun e => (by cases e)⟩

theorem carried_breakFirst (hc : otherConducts s x = true) : Carried x .breakFirst s (carriedOut x .breakFirst s) :=
  ⟨(released_of_switchOff hc).goOnline_other dTakeOver, fun _ => tookOver_goOnline x.other _, fun e => (by cases e), fun e => (by cases e),
    fun e => (by cases e)⟩

theorem carried_bridgeThrough (hb : bayLaw s x.other) (h : (s.bays.get x.other).state = .standby) (hs : bridgeCanStart s = true) :
    Carried x .bridgeThrough s (carriedOut x .bridgeThrough s) := by
  have hoff : (releaseBay x .bridgeThrough (switchOff x (startBridge .through s))).pp.sw.get x.other = .off := by
    rw [sw_releaseBay, sw_switchOff_other]
    exact off_startBridge hs (by rw [h]; decide) (off_or_held_of_standby hb h)
  have hpres : ((releaseBay x .bridgeThrough (switchOff x (startBridge .through s))).bays.get x.other).presence = true := by
    rw [get_releaseBay_other, off_bays, bays_startBridge]
    exact presence_of_standby hb h
  refine ⟨(released_of_switchOff (otherConducts_startBridge hs)).goOnline_other dTakeOver, fun _ => tookOver_goOnline x.other _,
    fun _ => ⟨bridge_goOnline_of_off dTakeOver hoff hpres, ?_⟩, fun e => (by cases e), fun e => (by cases e)⟩
  exact (onKey_queued _ _).goOnline (by decide) (fun e => by cases e) _ (queued_release (by decide) x _ (queued_startBridge .through hs))

theorem carried_bridgeHold (hs : bridgeCanStart s = true) : Carried x .bridgeHold s (carriedOut x .bridgeHold s) := by
  have hrel : Released x .bridgeHold (carriedOut x .bridgeHold s) := released_of_switchOff (otherConducts_startBridge hs)
  refine ⟨hrel, fun e => (by rcases e with e | e | e <;> cases e), fun e => (by cases e),
    fun _ => queued_release (by decide) x _ (queued_startBridge .hold hs), fun _ hn => ?_⟩
  have hrun : bridgeRun (carriedOut x .bridgeHold s).pp = (.running, 0, true, true, s.pp.pfail) :=
    (run_release x .bridgeHold _).trans (run_startBridge .hold hs)
  simp only [bridgeRun, Prod.mk.injEq] at hrun
  obtain ⟨hbridge, -, -, hlow, -⟩ := hrun
  refine ⟨hbridge, hlow, fun z => ?_⟩
  by_cases hz : z = x
  · rw [hz, hrel.state]
    exact fun e => by cases e.1
  · have hother : (carriedOut x .bridgeHold s).bays.get z = s.bays.get z := by
      rw [eq_other_of_ne hz, carriedOut, get_releaseBay_other, off_bays, bays_startBridge]
    rw [hother, eq_other_of_ne hz]
    exact hn

theorem carried_carriedOut (hb : bayLaw s x.other) (h : handoverCase s x k) : Carried x k s (carriedOut x k s) := by
  cases k with
  | plain => exact carried_plain hb h.2.1
  | makeFirst =>
    obtain ⟨-, -, ⟨hst, -⟩, -⟩ := h
    exact carried_makeFirst hb hst
  | breakFirst =>
    obtain ⟨-, -, -, -, -, hc⟩ := h
    exact carried_breakFirst hc
  | bridgeThrough =>
    obtain ⟨-, -, ⟨hst, -⟩, -, -, hs⟩ := h
    exact carried_bridgeThrough hb hst hs
  | bridgeHold =>
    obtain ⟨-, -, -, hs⟩ := h
    exact carried_bridgeHold hs
  | none => exact absurd h id

/-- R26: an evaluation carried out, with the events it made. -/
theorem carried_evaluateLatch (hb : bayLaw s x.other) (h : handoverCase s x k) : Carried x k s (evaluateLatch x s) := by
  rw [evaluateLatch_of_handover h]
  exact (carried_carriedOut hb h).settle s

theorem carriedOut_baysOnly (x : BayId) (k : HandoverKind) (s : State) : baysOnly s (carriedOut x k s) := by
  have hw := baysOnly_swaps s
  cases k with
  | plain => exact hw.release x .plain s (fun e => e.elim) (baysOnly.refl s)
  | makeFirst => exact hw.release x .makeFirst _ (fun e => e.elim) (hw.goOnline x.other dTakeOver (fun e => e.elim) (baysOnly.refl s))
  | breakFirst => exact hw.goOnline x.other dTakeOver (fun e => e.elim) (hw.release x .breakFirst s (fun e => e.elim) (baysOnly.refl s))
  | bridgeThrough =>
    exact hw.goOnline x.other dTakeOver (fun e => e.elim)
      (hw.release x .bridgeThrough _ (fun e => e.elim) (hw.bridge .through s (baysOnly.refl s)))
  | bridgeHold => exact hw.release x .bridgeHold _ (fun e => e.elim) (hw.bridge .hold s (baysOnly.refl s))
  | none => exact baysOnly.refl s

end Carried

end Sys2Proof.Machine
end

