-- ==== Sys2Proof/Proofs/Handovers.lean ====
section
/-! PROOFS. The latch that opens and Bay Release: what each makes of an evaluation that is refused or carried out (R26 to R29, R41, R43). -/

namespace Sys2Proof.Machine

section Rows
variable {x : BayId} {k : HandoverKind} {r : RefusalReason} {s t u : State}

/-! ### Frames around an evaluation -/

theorem Carried.congr (h : Carried x k s t) (hb : u.bays = t.bays) (hp : u.pp = t.pp) (ha : u.attn = t.attn) : Carried x k s u := by
  obtain ⟨⟨hst, hlast, href, hind, hsw, hheld⟩, hpack, hthrough, hhold, hrun⟩ := h
  refine ⟨⟨by rw [hb]; exact hst, by rw [hb]; exact hlast, by rw [hb]; exact href, by rw [hb]; exact hind, by rw [hp]; exact hsw,
    by rw [hp]; exact hheld⟩, fun e => ?_, fun e => ?_, fun e => queued_of_attn ha (hhold e), fun e hn => ?_⟩
  · obtain ⟨ho, hon, hq⟩ := hpack e
    exact ⟨by rw [hb]; exact ho, by rw [hp]; exact hon, queued_of_attn ha hq⟩
  · obtain ⟨hidle, hq⟩ := hthrough e
    exact ⟨by rw [hp]; exact hidle, queued_of_attn ha hq⟩
  · obtain ⟨hbr, hlow, hnone⟩ := hrun e hn
    exact ⟨by rw [hp]; exact hbr, by rw [hp]; exact hlow, fun z => by rw [hb]; exact hnone z⟩

theorem Carried.judged (h : Carried x k u t) (j : Judged x s u) : Carried x k s t where
  released := h.released
  pack := h.pack
  through := h.through
  hold := h.hold
  run := fun e hn => h.run e (by rw [j.other]; exact hn)

theorem bayLaw_of_judged (h : bayLaw s x.other) (j : Judged x s u) (hheld : u.pp.held.get x.other = s.pp.held.get x.other)
    (hr : u.relays = s.relays) : bayLaw u x.other := by
  unfold bayLaw at h ⊢
  rw [j.other, j.sw, hheld, hr]
  exact h

/-! ### A latch that opens (R41) -/

theorem judged_latchOpened (x : BayId) (s : State) : Judged x s (latchOpened x s) := judged_updBay _ s

theorem exec_latch_opens (ho : (s.bays.get x).state = .online) (h : latchTurns s x false) :
    exec (.latchDebounceExpiry x) s = .next (settle s (evaluateLatch x (latchOpened x s))) := by
  rw [exec_latchDebounceExpiry, latchExpiry_unlatches h, if_pos ho]

theorem exec_latch_refused (ho : (s.bays.get x).state = .online) (h : latchTurns s x false) (hr : refusalCase s x r) :
    exec (.latchDebounceExpiry x) s = .next (post (.swapRefused x) (dRefusal r)
      (updBay x (fun b => { b with latchDeb := none, latch := false, refusal := r, refuse := true }) s)) := by
  have hr' : refusalCase (latchOpened x s) x r := by rw [(judged_latchOpened x s).refusalCase]; exact hr
  rw [exec_latch_opens ho h, evaluateLatch_of_refusal hr', latchOpened, updBay_updBay]
  exact congrArg _ (settle_of_level rfl fun y => presence_get_updBay (s := s) y fun _ => rfl)

theorem carried_latch (hb : bayLaw s x.other) (hk : handoverCase s x k) : Carried x k s (evaluateLatch x (latchOpened x s)) := by
  have hj := judged_latchOpened x s
  have hk' : handoverCase (latchOpened x s) x k := by rw [hj.handoverCase]; exact hk
  exact (carried_evaluateLatch (bayLaw_of_judged hb hj rfl rfl) hk').judged hj

/-! ### Bay Release (R43) -/

theorem exec_bayRelease (p : List Byte) (s : State) : exec (.bayRelease p) s = .next (manage (withBay p bayRelease) s) := rfl

theorem exec_bayRelease_of {b : Byte} {code : ResultCode} {data : List Byte} (h : accepts s) (hb : bayOfByte b = some x)
    (ht : bayRelease x (begun s) = (t, ⟨code, data⟩)) : exec (.bayRelease [b]) s = .next (ended t code data) := by
  rw [exec_bayRelease, manage_of_accepts h ((withBay_of_some hb _ _).trans ht)]

theorem bayRelease_of_not (h : (s.bays.get x).state ≠ .online) : bayRelease x s = (s, bareFrame .state) := if_neg h

theorem bayRelease_of_refusal (ho : (s.bays.get x).state = .online) (hr : refusalCase s x r) :
    bayRelease x s = (updBay x (fun b => { b with refusal := r }) s, ⟨.refused, [byteOf (refusalCode r)]⟩) := by
  rw [bayRelease, if_pos ho]
  simp only [evaluate_of_refusal hr]
  rfl

theorem bayRelease_of_handover (ho : (s.bays.get x).state = .online) (hk : handoverCase s x k) :
    bayRelease x s = (settle s (carriedOut x k s), okFrame [byteOf (handoverCode k)]) := by
  rw [bayRelease, if_pos ho]
  simp only [evaluate_of_handover hk]

end Rows

/-- Settles O24: the evaluation asks for nothing that the opened latch or the frame of the command changes, and a refusal makes no event. -/
theorem refusedHandovers : Obligations.RefusedHandovers := by
  intro x r s ho hr
  refine ⟨fun h => exec_latch_refused ho h hr, fun h b hb => ?_⟩
  have hr' : refusalCase (begun s) x r := by rw [(judged_begun (x := x) s).refusalCase]; exact hr
  exact exec_bayRelease_of h hb (bayRelease_of_refusal (s := begun s) ho hr')

/-- Settles O25: the handover of each kind leaves what `Carried` says, and neither the events after it nor the result frame change that. -/
theorem handoversCarriedOut : Obligations.HandoversCarriedOut := by
  intro x k s hlaw ho hk i hi
  have hleft : ∃ t, exec i s = .next t ∧ Carried x k s t
      ∧ ∀ b, i = .bayRelease [b] → t.port.slot = .pending { code := .ok, data := [byteOf (handoverCode k)] } := by
    obtain ⟨rfl, hturn⟩ | ⟨h, b, hb, rfl⟩ := hi
    · exact ⟨_, exec_latch_opens ho hturn, (carried_latch (hlaw x.other) hk).settle s, fun b e => by cases e⟩
    · have hj := judged_begun (x := x) s
      have hk' : handoverCase (begun s) x k := by rw [hj.handoverCase]; exact hk
      have hc := ((carried_carriedOut (bayLaw_of_judged (hlaw x.other) hj rfl rfl) hk').settle (begun s)).judged hj
      exact ⟨_, exec_bayRelease_of h hb (bayRelease_of_handover (s := begun s) ho hk'), hc.congr rfl rfl rfl, fun _ _ => rfl⟩
  obtain ⟨t, hrow, hc, hslot⟩ := hleft
  obtain ⟨hst, hlast, href, hind, hsw, hheld⟩ := hc.released
  refine ⟨t, hrow, hst, hlast, href, hind, hsw, hheld, hc.pack, hc.through, fun e => ⟨hc.hold e, fun hn => ?_⟩, hslot⟩
  obtain ⟨hbridge, hlow, -⟩ := hc.run e hn
  exact ⟨hbridge, hlow⟩

end Sys2Proof.Machine
end

