-- ==== Sys2Proof/Proofs/FlagCommands.lean ====
section
/-! PROOFS. The flag commands (R202, R203) and the evaluation that a cleared HOLD_SWAP hands on (R41). -/

namespace Sys2Proof.Machine

/-! ### The commands (R202) -/

section Commands
variable {b : Byte} {old new : Bool} {s : State} {i : Instr}

/-- The rows that give flag number `b` the value `new` where it was `old`. -/
def puts (i : Instr) (b : Byte) (old new : Bool) : Prop :=
  (i = .flagSet [b] ∧ new = true) ∨ (i = .flagClear [b] ∧ new = false) ∨ (i = .flagToggle [b] ∧ new = !old)

theorem flagByte_eq (v : Bool) : byteOf (bitAt 0 v) = if v then 1 else 0 := by cases v <;> rfl

theorem flagCommand_of_some {f : Bool → Bool} (hold : flagGet s.flags b.toNat = some old) (hf : f old = new) : flagCommand [b] f s
    = (handFlag b.toNat old new { s with flags := flagPut s.flags b.toNat new }, okFrame [if old then 1 else 0]) := by
  simp only [flagCommand, hold, hf, flagByte_eq]

theorem exec_flag_of (h : accepts s) (hold : flagGet s.flags b.toNat = some old) (hi : puts i b old new) : exec i s
    = .next (ended (handFlag b.toNat old new { begun s with flags := flagPut s.flags b.toNat new }) .ok [if old then 1 else 0]) := by
  have row : ∀ f : Bool → Bool, f old = new → Host.Outcome.next (manage (flagCommand [b] f) s)
      = (.next (ended (handFlag b.toNat old new { begun s with flags := flagPut s.flags b.toNat new }) .ok [if old then 1 else 0])
          : Host.Outcome State Fault Refusal) :=
    fun f hf => congrArg _ (manage_of_accepts h (flagCommand_of_some (s := begun s) hold hf))
  obtain ⟨rfl, rfl⟩ | ⟨rfl, rfl⟩ | ⟨rfl, rfl⟩ := hi
  · exact row _ rfl
  · exact row _ rfl
  · exact row _ rfl

theorem exec_flagTest (h : accepts s) (hold : flagGet s.flags b.toNat = some old) :
    exec (.flagTest [b]) s = .next (ended (begun s) .ok [if old then 1 else 0]) := by
  have hrow : exec (.flagTest [b]) s = .next (manage (flagCommand [b] id) s) := rfl
  have hput : flagPut (begun s).flags b.toNat old = (begun s).flags := flagPut_get _ _ _ hold
  rw [hrow, manage_of_accepts h (flagCommand_of_some (s := begun s) hold rfl), id, handFlag_same, hput]

/-! ### What a change is handed to (R203) -/

/-- A flag that is set and is not HOLD_POLL, or is cleared and is no HOLD_SWAP, is handed to no block. -/
theorem handFlag_of_set {n : Nat} (h : n ≠ 2) : handFlag n old true s = s := by
  unfold handFlag
  cases old <;> simp [h]

theorem handFlag_of_clear {n : Nat} (h0 : n ≠ 0) (h1 : n ≠ 1) : handFlag n old false s = s := by
  unfold handFlag
  cases old <;> simp [h0, h1]

theorem handFlag_holdPoll (s : State) : handFlag 2 false true s
    = { s with relays := ⟨{ s.relays.a with pollDue := false }, { s.relays.b with pollDue := false }⟩ } := rfl

theorem toNat_of_bayOfByte {x : BayId} (h : bayOfByte b = some x) : b.toNat = bayCode x := by
  unfold bayOfByte at h
  split at h
  · next e => cases h; exact e
  · next e => cases h; exact e
  · cases h

theorem bayCode_le (x : BayId) : bayCode x ≤ 1 := by cases x <;> decide

theorem handFlag_holdSwap {x : BayId} (h : bayOfByte b = some x) (s : State) : handFlag b.toNat true false s = reevaluate x s := by
  rw [toNat_of_bayOfByte h]
  cases x <;> rfl

theorem reevaluate_of_not {x : BayId} (h : ¬ ((s.bays.get x).state = .online ∧ (s.bays.get x).refuse = true ∧ (s.bays.get x).latch = false)) :
    reevaluate x s = s := if_neg (by rw [Bool.not_eq_true]; exact h)

theorem reevaluate_of_refused {x : BayId} (ho : (s.bays.get x).state = .online) (hr : (s.bays.get x).refuse = true)
    (hl : (s.bays.get x).latch = false) : reevaluate x s = evaluateLatch x s :=
  if_pos ⟨ho, hr, by rw [hl]; decide⟩

/-- R203: a change that no block acts on. -/
theorem handFlag_idle {f : Flags} (h : 3 ≤ b.toNat ∨ new = old ∨ (new = true ∧ b.toNat ≤ 1) ∨ (new = false ∧ b.toNat = 2)
      ∨ (∃ x, bayOfByte b = some x ∧ ¬ ((s.bays.get x).state = .online ∧ (s.bays.get x).refuse = true ∧ (s.bays.get x).latch = false))) :
    handFlag b.toNat old new { s with flags := f } = { s with flags := f } := by
  obtain h3 | rfl | ⟨rfl, h1⟩ | ⟨rfl, h2⟩ | ⟨x, hx, hn⟩ := h
  · cases new with
    | true => exact handFlag_of_set (by omega)
    | false => exact handFlag_of_clear (by omega) (by omega)
  · exact handFlag_same ..
  · exact handFlag_of_set (by omega)
  · exact handFlag_of_clear (by omega) (by omega)
  · have hle := bayCode_le x
    rw [← toNat_of_bayOfByte hx] at hle
    cases new with
    | true => exact handFlag_of_set (by omega)
    | false =>
      cases old with
      | false => exact handFlag_same ..
      | true => exact (handFlag_holdSwap hx _).trans (reevaluate_of_not (s := { s with flags := f }) hn)

end Commands

/-! ### A HOLD_SWAP cleared (R41) -/

section Cleared
variable {x : BayId} {b : Byte} {s : State} {i : Instr}

/-- The state of the command with flag number `b` cleared. -/
def flagCleared (b : Byte) (s : State) : State := { begun s with flags := flagPut s.flags b.toNat false }

theorem holdSwap_flagCleared (hb : bayOfByte b = some x) (s : State) : holdSwap (flagCleared b s) x = false := by
  rw [flagCleared, toNat_of_bayOfByte hb]
  cases x <;> rfl

theorem exec_flag_clears (h : accepts s) (hb : bayOfByte b = some x) (hold : flagGet s.flags b.toNat = some true)
    (hi : i = .flagClear [b] ∨ i = .flagToggle [b]) (ho : (s.bays.get x).state = .online) (hr : (s.bays.get x).refuse = true)
    (hl : (s.bays.get x).latch = false) : exec i s = .next (ended (evaluateLatch x (flagCleared b s)) .ok [1]) := by
  have hputs : puts i b true false := hi.elim (fun e => .inr (.inl ⟨e, rfl⟩)) fun e => .inr (.inr ⟨e, rfl⟩)
  have hre : reevaluate x (flagCleared b s) = evaluateLatch x (flagCleared b s) := reevaluate_of_refused ho hr hl
  rw [exec_flag_of h hold hputs, handFlag_holdSwap hb, ← hre]
  rfl

end Cleared

/-- Settles O51: each command stores the flag and hands a change on; a HOLD_SWAP cleared with a refusal standing is one evaluation. -/
theorem flagCommandsAndClearedHolds : Obligations.FlagCommandsAndClearedHolds := by
  refine ⟨fun b old s h hold => ⟨exec_flagTest h hold, fun i new hi => ⟨fun hidle => ?idle, fun h2 ho hn => ?poll⟩⟩,
    fun x b s f i h hb hold hi ho hr hl hf => ?_⟩
  case idle => rw [exec_flag_of h hold hi, handFlag_idle (s := begun s) hidle]
  case poll =>
    subst ho hn
    rw [exec_flag_of h hold hi, h2, handFlag_holdPoll]
    rfl
  have hrow : exec i s = .next (ended (evaluateLatch x f) .ok [1]) := by
    rw [hf]
    exact exec_flag_clears h hb hold hi ho hr hl
  refine ⟨fun r hcase => ?refused, fun k hlaw hk => ?carried, fun hw => ?deferred⟩
  case refused => rw [hrow, evaluateLatch_of_refusal hcase]
  case carried =>
    have hlaw' : bayLaw f x.other := by rw [hf]; exact hlaw x.other
    have hrel := (carried_evaluateLatch hlaw' hk).released
    exact ⟨_, hrow, hrel.state, hrel.last, hrel.sw, rfl⟩
  case deferred =>
    have hhold : holdSwap f x = false := by rw [hf]; exact holdSwap_flagCleared hb s
    have hwin : f.motion.window ≠ .closed := by rw [hf]; exact hw
    rw [hrow, evaluateLatch_of_open hhold hwin]

end Sys2Proof.Machine
end

