-- ==== Sys2Proof/Proofs/Departures.lean ====
section
/-! PROOFS. What a departure leaves: the bay in EMPTY or SEATING with its context and switch (R19, R20, R30, R31, R34, R36, R38, R46), the other bay,
the cache and the queue; and the end of a jolt hold (R34). -/

namespace Sys2Proof.Machine

/-! ### Entering EMPTY -/

section Empty
variable (x : BayId) (save : Option (Option Half)) (d : Bool) (s : State)

/-- What a departure leaves of the bay's record. -/
structure Departed (save : Option (Option Half)) (s : State) (b b' : Bay) : Prop where
  state : b'.state = if b.presLine then .seating else .empty
  presLine : b'.presLine = b.presLine
  presence : b'.presence = b.presence
  jolt : b'.jolt = none
  context : b'.context = departedContext save s b.context
  deferred : b'.deferred = b.deferred
  presDeb : b.presLine = false → b'.presDeb = b.presDeb

theorem get_becomeEmpty : (becomeEmpty x save d s).bays.get x
    = Bay.enter .empty { s.bays.get x with context := departedContext save s (s.bays.get x).context } := by
  rw [becomeEmpty_bays, Pair.get_upd_self]

theorem get_enterSeating : (enterSeating x s).bays.get x
    = Bay.enter .seating { s.bays.get x with presDeb := some (presenceDebounce s) } := by
  rw [enterSeating, setBayState_bays, Pair.get_upd_self, updRelay_bays, updBay_bays, Pair.get_upd_self]

theorem departed_enterEmpty : Departed save s (s.bays.get x) ((enterEmpty x save d s).bays.get x) := by
  have hempty := get_becomeEmpty x save d s
  have hline : ((becomeEmpty x save d s).bays.get x).presLine = (s.bays.get x).presLine := by rw [hempty]; rfl
  unfold enterEmpty
  split
  · next h =>
    rw [get_enterSeating, hempty]
    rw [hline] at h
    exact ⟨by rw [h]; rfl, rfl, rfl, rfl, rfl, rfl, fun e => absurd (h.symm.trans e) (by decide)⟩
  · next h =>
    rw [hempty]
    rw [hline, Bool.not_eq_true] at h
    exact ⟨by rw [h]; rfl, rfl, rfl, rfl, rfl, rfl, fun _ => rfl⟩

theorem enterEmpty_of_released (h : (s.bays.get x).presLine = false) : enterEmpty x save d s = becomeEmpty x save d s := by
  have hline : ¬ ((becomeEmpty x save d s).bays.get x).presLine = true := by
    rw [get_becomeEmpty, Bool.not_eq_true]
    exact h
  exact if_neg hline

theorem get_becomeEmpty_relays : (becomeEmpty x save d s).relays.get x = (s.relays.get x).enter .empty := by
  rw [becomeEmpty_relays, Pair.get_upd_self]

/-! ### The other bay -/

theorem rests_parkDeparted_other : Rests x.other s (parkDeparted x save s) :=
  have hb : (parkDeparted x save s).bays.get x.other = s.bays.get x.other := by rw [parkDeparted_bays, Pair.get_upd_other]
  have hr : (parkDeparted x save s).relays.get x.other = s.relays.get x.other := by rw [(parkDeparted_units x save s).2]
  ⟨hb, hr, .of_eq hb hr (parkDeparted_units x save s).1⟩

theorem Rests.units {y : BayId} {t u : State} (h : SameUnits t u) : Rests y t u := ⟨by rw [h.bays], by rw [h.relays], Follows.units h⟩

theorem rests_becomeEmpty_other : Rests x.other s (becomeEmpty x save d s) :=
  (((rests_parkDeparted_other x save s).trans (rests_setBayState_other x .empty _)).trans (Rests.units (postDeparted_units x d _))).trans
    (rests_switchOff_other x _)

theorem rests_enterSeating_other : Rests x.other s (enterSeating x s) :=
  ((rests_updBay_other x _ s).trans (rests_updRelay_other x _ _)).trans (rests_setBayState_other x .seating _)

theorem rests_enterEmpty_other : Rests x.other s (enterEmpty x save d s) := by
  unfold enterEmpty
  split
  · exact (rests_becomeEmpty_other x save d s).trans (rests_enterSeating_other x _)
  · exact rests_becomeEmpty_other x save d s

/-! ### The switch -/

theorem pp_enterSeating : (enterSeating x s).pp = s.pp := setBayState_pp ..

theorem pp_enterEmpty : (enterEmpty x save d s).pp = (becomeEmpty x save d s).pp := by
  unfold enterEmpty
  split
  · exact pp_enterSeating x _
  · rfl

theorem off_or_held_enterEmpty : (enterEmpty x save d s).pp.sw.get x = .off ∨ (enterEmpty x save d s).pp.held.get x = true := by
  rw [pp_enterEmpty]
  exact switchOff_self_off_or_held x _

/-- The state in which the switch of a departed pack is requested OFF. -/
def leftBay (x : BayId) (save : Option (Option Half)) (d : Bool) (s : State) : State :=
  postDeparted x d (setBayState x .empty (parkDeparted x save s))

theorem becomeEmpty_eq : becomeEmpty x save d s = switchOff x (leftBay x save d s) := rfl

theorem leftBay_pp : (leftBay x save d s).pp = s.pp := by
  rw [leftBay, (postDeparted_units x d _).pp, setBayState_pp, (parkDeparted_units x save s).1]

theorem leftBay_bays : (leftBay x save d s).bays
    = s.bays.upd x (fun b => Bay.enter .empty { b with context := departedContext save s b.context }) := by
  rw [leftBay, (postDeparted_units x d _).bays, setBayState_bays, parkDeparted_bays]
  cases x <;> rfl

theorem otherConducts_leftBay : otherConducts (leftBay x save d s) x = otherConducts s x :=
  otherConducts_congr (by rw [leftBay_pp]) (by rw [leftBay_pp]) (by rw [leftBay_pp]) (by rw [leftBay_bays, Pair.get_upd_other])

/-! ### The queue -/

variable {x save d s}

theorem OnKey.postDeparted {K : AttnKey} {P : State → Prop} (k : OnKey K P) (hK : d = true → K ≠ .presence (.bay x)) (h : P s) :
    P (postDeparted x d s) := by
  unfold Machine.postDeparted
  split
  · next hd => exact k.other _ _ s (hK hd).symm h
  · exact h

theorem attn_parkDeparted : (parkDeparted x save s).attn = s.attn := by
  unfold parkDeparted
  cases save with
  | none => rfl
  | some serial =>
    simp only
    split <;> · show (saveContext x serial s).attn = _; unfold saveContext; split <;> rfl

theorem OnKey.leftBay {K : AttnKey} {P : State → Prop} (k : OnKey K P) (hc : K ≠ .budgetCut) (hK : d = true → K ≠ .presence (.bay x))
    (h : P s) : P (leftBay x save d s) :=
  k.postDeparted hK (k.setBayState hc x .empty (k.same s _ attn_parkDeparted h))

theorem OnKey.becomeEmpty {K : AttnKey} {P : State → Prop} (k : OnKey K P) (hc : K ≠ .budgetCut) (hK : d = true → K ≠ .presence (.bay x))
    (h : P s) : P (becomeEmpty x save d s) := k.switchOff hc x (k.leftBay hc hK h)

theorem OnKey.enterSeating {K : AttnKey} {P : State → Prop} (k : OnKey K P) (hc : K ≠ .budgetCut) (h : P s) : P (enterSeating x s) :=
  k.setBayState hc x .seating (k.same s _ rfl h)

theorem OnKey.enterEmpty {K : AttnKey} {P : State → Prop} (k : OnKey K P) (hc : K ≠ .budgetCut) (hK : d = true → K ≠ .presence (.bay x))
    (h : P s) : P (enterEmpty x save d s) := by
  unfold Machine.enterEmpty
  split
  · exact k.enterSeating hc (k.becomeEmpty hc hK h)
  · exact k.becomeEmpty hc hK h

theorem queued_enterEmpty : queued (enterEmpty x save true s) (.presence (.bay x)) dDeparted := by
  have hleft : queued (Machine.leftBay x save true s) (.presence (.bay x)) dDeparted := queued_post ..
  have hempty := (onKey_queued _ _).switchOff (fun e => by cases e) x hleft
  unfold Machine.enterEmpty
  split
  · exact (onKey_queued _ _).enterSeating (fun e => by cases e) hempty
  · exact hempty

/-! ### The other blocks -/

variable (x save d s)

theorem baysOnly_postDeparted : baysOnly s (postDeparted x d s) := by
  unfold postDeparted
  split
  · exact (baysOnly.refl s).post _ _
  · exact baysOnly.refl s

theorem baysOnly_enterEmpty : baysOnly (parkDeparted x save s) (enterEmpty x save d s) := by
  have hleft : baysOnly (parkDeparted x save s) (Machine.leftBay x save d s) :=
    ((baysOnly.refl _).setBayState x .empty).trans (baysOnly_postDeparted x d _)
  have hempty : baysOnly (parkDeparted x save s) (Machine.becomeEmpty x save d s) := hleft.switchOff x
  unfold Machine.enterEmpty
  split
  · exact ((hempty.updBay x _).updRelay x _).setBayState x .seating
  · exact hempty

/-- The cache is the one block beside the bay that the saving of a context changes. -/
structure SameBeside (s t : State) : Prop where
  tables : t.tables = s.tables
  mapInst : t.mapInst = s.mapInst
  motion : t.motion = s.motion
  time : t.time = s.time
  flags : t.flags = s.flags
  port : t.port = s.port
  upstream : t.upstream = s.upstream
  log : t.log = s.log

theorem SameBeside.refl (s : State) : SameBeside s s := ⟨rfl, rfl, rfl, rfl, rfl, rfl, rfl, rfl⟩

theorem SameBeside.trans {s t u : State} (h : SameBeside s t) (k : SameBeside t u) : SameBeside s u :=
  ⟨k.tables.trans h.tables, k.mapInst.trans h.mapInst, k.motion.trans h.motion, k.time.trans h.time, k.flags.trans h.flags,
   k.port.trans h.port, k.upstream.trans h.upstream, k.log.trans h.log⟩

theorem baysOnly.beside {s t : State} (h : baysOnly s t) : SameBeside s t :=
  ⟨h.tables, h.mapInst, h.motion, h.time, h.flags, h.port, h.upstream, h.log⟩

theorem beside_parkDeparted : SameBeside s (parkDeparted x save s) := by
  unfold parkDeparted
  cases save with
  | none => exact ⟨rfl, rfl, rfl, rfl, rfl, rfl, rfl, rfl⟩
  | some serial =>
    have hsave : SameBeside s (saveContext x serial s) := by
      unfold saveContext
      split <;> exact ⟨rfl, rfl, rfl, rfl, rfl, rfl, rfl, rfl⟩
    simp only
    split <;> exact hsave.trans ⟨rfl, rfl, rfl, rfl, rfl, rfl, rfl, rfl⟩

theorem beside_enterEmpty : SameBeside s (enterEmpty x save d s) :=
  (beside_parkDeparted x save s).trans (baysOnly_enterEmpty x save d s).beside

end Empty

/-! ### The end of a jolt hold (R34) -/

section Expire
variable {x : BayId} {s t : State}

/-- The serial that the jolt record of a bay holds. -/
def joltSerial (b : Bay) : Option Half := b.jolt.bind JoltRecord.serial

theorem joltExpire_eq (x : BayId) (s : State) :
    joltExpire x s = post (.jolt x) dExpired (enterEmpty x (some (joltSerial (s.bays.get x))) false s) := by
  unfold joltExpire joltSerial
  cases (s.bays.get x).jolt <;> rfl

/-- What the end of a jolt hold leaves, from state `s`. -/
structure HoldEnded (x : BayId) (s t : State) : Prop where
  state : (t.bays.get x).state = if (s.bays.get x).presLine then .seating else .empty
  jolt : (t.bays.get x).jolt = none
  context : (t.bays.get x).context
    = if reinsertWindow s = 0 then none else some { serial := joltSerial (s.bays.get x), departure := s.time.uptime }
  deferred : (t.bays.get x).deferred = (s.bays.get x).deferred
  posted : queued t (.jolt x) dExpired
  sw : t.pp.sw.get x = .off ∨ t.pp.held.get x = true

theorem holdEnded_joltExpire (x : BayId) (s : State) : HoldEnded x s (joltExpire x s) := by
  have h := departed_enterEmpty x (some (joltSerial (s.bays.get x))) false s
  rw [joltExpire_eq]
  exact ⟨h.state, h.jolt, h.context, h.deferred, queued_post .., off_or_held_enterEmpty x _ false s⟩

theorem HoldEnded.not_standby (h : HoldEnded x s t) : (t.bays.get x).state ≠ .standby := by
  rw [h.state]
  split <;> decide

theorem HoldEnded.rests {u : State} (h : HoldEnded x s t) (r : Rests x t u) (hq : queued u (.jolt x) dExpired) : HoldEnded x s u :=
  ⟨by rw [r.bay]; exact h.state, by rw [r.bay]; exact h.jolt, by rw [r.bay]; exact h.context, by rw [r.bay]; exact h.deferred, hq,
   r.off_or_held h.sw⟩

theorem HoldEnded.settle (h : HoldEnded x s t) (old : State) : HoldEnded x s (settle old t) :=
  h.rests (rests_settle h.not_standby) (queued_settle (fun e => by cases e) (fun y hy => by cases hy) h.posted)

theorem rests_joltExpire_other (x : BayId) (s : State) : Rests x.other s (joltExpire x s) := by
  rw [joltExpire_eq]
  exact (rests_enterEmpty_other x _ false s).trans (rests_post ..)

theorem beside_joltExpire (x : BayId) (s : State) : SameBeside s (joltExpire x s) := by
  rw [joltExpire_eq]
  exact (beside_enterEmpty x _ false s).trans ⟨rfl, rfl, rfl, rfl, rfl, rfl, rfl, rfl⟩

theorem OnKey.joltExpire {K : AttnKey} {P : State → Prop} (k : OnKey K P) (hc : K ≠ .budgetCut) (hx : K ≠ .jolt x) (h : P s) :
    P (joltExpire x s) := by
  rw [joltExpire_eq]
  exact k.other _ _ _ hx.symm (k.enterEmpty hc (fun e => by cases e) h)

theorem exec_joltHoldExpiry (x : BayId) (s : State) : exec (.joltHoldExpiry x) s = .next (settle s (joltHoldOut x s)) := rfl

theorem joltHoldOut_of_not (h : holdRuns (s.bays.get x) = false) : joltHoldOut x s = s := if_neg (by rw [h]; decide)

theorem joltHoldOut_of_runs (h : holdRuns (s.bays.get x) = true) : joltHoldOut x s = joltExpire x s := if_pos h

/-- R34: the row of the jolt hold. -/
theorem exec_joltHoldExpiry_of_runs (h : holdRuns (s.bays.get x) = true) : ∃ t, exec (.joltHoldExpiry x) s = .next t ∧ HoldEnded x s t :=
  ⟨_, by rw [exec_joltHoldExpiry, joltHoldOut_of_runs h], (holdEnded_joltExpire x s).settle s⟩

end Expire

end Sys2Proof.Machine
end

