-- ==== Sys2Proof/Proofs/Outcomes.lean ====
section
/-! PROOFS. The outcome of a pack transaction (R54, R58, R61 to R64): the count, the master's answer, and what a failed attempt leaves. -/

namespace Sys2Proof.Machine

/-! ### The end of a transaction -/

section Ends
variable {x : BayId} {s : State} {tx : PackTx} {r : TxResult}

/-- The link is idle and the outcome counted, before it is handed on. -/
def txClosed (x : BayId) (failed : Bool) (s : State) : State :=
  updRelay x (fun r => { r with link := none, failCount := if failed then min (r.failCount + 1) (faultLimit s) else 0 }) s

theorem countOutcome_closes (failed : Bool) :
    countOutcome x failed (updRelay x (fun q => { q with link := none }) s) = txClosed x failed s := updRelay_updRelay ..

theorem get_txClosed (x : BayId) (failed : Bool) (s : State) : (txClosed x failed s).relays.get x = { s.relays.get x with
    link := none, failCount := if failed then min ((s.relays.get x).failCount + 1) (faultLimit s) else 0 } := Pair.get_upd_self ..

/-- A relay whose link is idle, with this count and snapshot. -/
structure Idle (fails : Nat) (n : Snapshot) (r : Relay) : Prop where
  link : r.link = none
  count : r.failCount = fails
  snap : r.snap = n

theorem Idle.enter {fails : Nat} {n : Snapshot} {r : Relay} (h : Idle fails n r) (st : BayState) : Idle fails n (r.enter st) := by
  have hend : Idle fails n (endProbe r) := by
    refine ⟨?_, h.count, h.snap⟩
    unfold endProbe
    rw [h.link]
  unfold Relay.enter
  split
  · exact hend
  split
  · exact ⟨h.link, h.count, h.snap⟩
  · exact ⟨hend.link, hend.count, hend.snap⟩

theorem idle_txClosed (x : BayId) (failed : Bool) (s : State) :
    Idle (if failed then min ((s.relays.get x).failCount + 1) (faultLimit s) else 0) (s.relays.get x).snap
      ((txClosed x failed s).relays.get x) := by
  rw [get_txClosed]
  exact ⟨rfl, rfl, rfl⟩

theorem finishTx_of_failed (h : r.failed = true) : finishTx x tx r s = faultIfReached x (handOn x tx r (txClosed x true s)) := by
  simp only [finishTx, h, if_true, countOutcome_closes]

theorem finishTx_of_done (h : r.failed = false) : finishTx x tx r s = handOn x tx r (txClosed x false s) := by
  simp only [finishTx, h, Bool.false_eq_true, if_false, countOutcome_closes]

theorem exec_packTransactionEnd (x : BayId) (reply : PackReply) (s : State) :
    exec (.packTransactionEnd x reply) s = .next (settle s (completeTx x reply s)) := rfl

theorem exec_linkTimeout (x : BayId) (s : State) : exec (.linkTimeout x) s = .next (settle s (timeoutTx x s)) := rfl

theorem completeTx_of_idle (h : (s.relays.get x).link = none) (reply : PackReply) : completeTx x reply s = s := by
  simp only [completeTx, h]

theorem completeTx_of_link {reply : PackReply} (h : (s.relays.get x).link = some tx) (hr : resultOf tx.req.kind reply = some r) :
    completeTx x reply s = finishTx x tx r s := by simp only [completeTx, h, hr]

theorem completeTx_of_other {reply : PackReply} (h : (s.relays.get x).link = some tx) (hr : resultOf tx.req.kind reply = none) :
    completeTx x reply s = s := by simp only [completeTx, h, hr]

theorem timeoutTx_of_idle (h : (s.relays.get x).link = none) : timeoutTx x s = s := by simp only [timeoutTx, h]

theorem timeoutTx_of_link (h : (s.relays.get x).link = some tx) : timeoutTx x s = finishTx x tx .timeout s := by simp only [timeoutTx, h]

/-- R54: a read of a value that the pack answers. -/
theorem exec_valueEnd {lo hi : Byte} (h : (s.relays.get x).link = some tx) (hk : tx.req.kind = .readValue) :
    exec (.packTransactionEnd x (.value lo hi)) s = .next (settle s (handOn x tx (.doneValue (hi ++ lo)) (txClosed x false s))) := by
  rw [exec_packTransactionEnd, completeTx_of_link (r := .doneValue (hi ++ lo)) h (by rw [hk]; rfl), finishTx_of_done rfl]

end Ends

/-! ### The replies -/

theorem resultOf_refused (k : TxKind) : resultOf k .refusedByte = some .nack := by cases k <;> rfl

theorem resultOf_block_of_range {len : Byte} {bytes : List Byte} (h1 : 1 ≤ len.toNat) (h32 : len.toNat ≤ 32) :
    resultOf .readBlock (.block len bytes) = some (.doneBlock len bytes) := if_pos ⟨h1, h32⟩

theorem resultOf_block_of_not {len : Byte} {bytes : List Byte} (h : len.toNat = 0 ∨ 32 < len.toNat) :
    resultOf .readBlock (.block len bytes) = some .nack := if_neg (by omega)

/-! ### The master's answer (R58) -/

section Master
variable {x : BayId} {s : State} {u : UpTx} {n : Nat}

theorem answerMaster_frame (r : TxResult) (s : State) : answerMaster r s = { s with upstream := (answerMaster r s).upstream } := by
  unfold answerMaster
  split
  · split
    · cases r <;> rfl
    · rfl
  · rfl

theorem answerMaster_value (hu : s.upstream.tx = some u) (hst : u.stage = .stretched n) (v : Half) :
    answerMaster (.doneValue v) s = endUpstream (.data (readOut n (le16 v.toNat))) s := by simp only [answerMaster, hu, hst]

theorem answerMaster_block (hu : s.upstream.tx = some u) (hst : u.stage = .stretched n) (len : Byte) (bytes : List Byte) :
    answerMaster (.doneBlock len bytes) s = endUpstream (.data (readOut n (len :: bytes))) s := by simp only [answerMaster, hu, hst]

theorem answerMaster_write (hu : s.upstream.tx = some u) (hst : u.stage = .stretched n) :
    answerMaster .doneWrite s = endUpstream .acknowledged s := by simp only [answerMaster, hu, hst]

theorem answerMaster_failed {r : TxResult} (hr : r = .nack ∨ r = .timeout) (hu : s.upstream.tx = some u) (hst : u.stage = .stretched n) :
    answerMaster r s = endUpstream .refused s := by
  obtain rfl | rfl := hr <;> simp only [answerMaster, hu, hst]

end Master

/-! ### The cache's part -/

section Cache
variable (x : BayId) (c : Code) (g : Governing) (v : Half) (s : State)

theorem cacheFill_frame : cacheFill x c g v s = { s with cache := (cacheFill x c g v s).cache } := by
  unfold cacheFill
  split <;> rfl

theorem cacheWrite_frame : cacheWrite x c g v s = { s with cache := (cacheWrite x c g v s).cache } := by
  by_cases hi : g.inst = s.mapInst
  · cases hf : (cacheSet s.cache (setOf c)).find x c with
    | none => rw [cacheWrite_of_miss hf]
    | some w => rw [cacheWrite_of_found hi hf]; rfl
  · rw [cacheWrite_of_inst hi]

theorem cacheFailedWrite_frame : cacheFailedWrite x c s = { s with cache := (cacheFailedWrite x c s).cache } := by
  cases hf : (cacheSet s.cache (setOf c)).find x c with
  | none => rw [cacheFailedWrite_of_miss hf]
  | some w => rw [cacheFailedWrite_of_found hf]; rfl

variable {x c g v s} {t : State}

theorem cacheWrite_congr (hc : t.cache = s.cache) (hi : t.mapInst = s.mapInst) (hb : t.bays = s.bays) :
    (cacheWrite x c g v t).cache = (cacheWrite x c g v s).cache := by
  by_cases h : g.inst = s.mapInst
  · cases hf : (cacheSet s.cache (setOf c)).find x c with
    | none => rw [cacheWrite_of_miss hf, cacheWrite_of_miss (hc ▸ hf), hc]
    | some w =>
      rw [cacheWrite_of_found h hf, cacheWrite_of_found (h.trans hi.symm) (hc ▸ hf), hb]
      unfold updSet
      rw [hc]
  · rw [cacheWrite_of_inst h, cacheWrite_of_inst (hi ▸ h), hc]

theorem cacheFailedWrite_congr (hc : t.cache = s.cache) : (cacheFailedWrite x c t).cache = (cacheFailedWrite x c s).cache := by
  cases hf : (cacheSet s.cache (setOf c)).find x c with
  | none => rw [cacheFailedWrite_of_miss hf, cacheFailedWrite_of_miss (hc ▸ hf), hc]
  | some w =>
    rw [cacheFailedWrite_of_found hf, cacheFailedWrite_of_found (hc ▸ hf)]
    unfold updSet
    rw [hc]

end Cache

/-! ### What an outcome hands on -/

section HandOn
variable {x : BayId} {s : State} {tx : PackTx} {r : TxResult}

theorem handOn_platform (h : tx.purpose = .platform) : handOn x tx r s = handPlatform x tx.req r (answerMaster r s) := by
  simp only [handOn, h]

theorem handOn_poll (h : tx.purpose = .poll) : handOn x tx r s = handPoll x tx.req r s := by simp only [handOn, h]

theorem handOn_probe (h : tx.purpose = .probe) : handOn x tx r s = handProbe x tx.req r s := by simp only [handOn, h]

theorem handOn_orphan (h : tx.purpose = .orphan) : handOn x tx r s = handOrphan x tx.req r s := by simp only [handOn, h]

theorem handPlatform_failed {q : Request} (hr : r = .nack ∨ r = .timeout) :
    handPlatform x q r s = if q.kind = .writeValue then cacheFailedWrite x q.code s else s := by
  obtain ⟨kind, code, payload, gov⟩ := q
  obtain rfl | rfl := hr <;> cases kind <;> rfl

theorem handPlatform_read {q : Request} (hk : q.kind = .readValue) (v : Half) :
    handPlatform x q (.doneValue v) s = cacheFill x q.code q.gov v (updateSnapshot x q.gov.tag v s) := by
  obtain ⟨kind, code, payload, gov⟩ := q
  subst hk
  rfl

theorem handPlatform_write {q : Request} {lo hi : Byte} (hk : q.kind = .writeValue) (hp : q.payload = [lo, hi]) :
    handPlatform x q .doneWrite s = cacheWrite x q.code q.gov (hi ++ lo) s := by
  obtain ⟨kind, code, payload, gov⟩ := q
  subst hk hp
  rfl

/-- R58: only the write of a value is handed to the cache. -/
theorem handPlatform_frame {q : Request} (hk : q.kind ≠ .readValue) (hr : r.failed = false) :
    handPlatform x q r s = { s with cache := (handPlatform x q r s).cache } ∧ (q.kind ≠ .writeValue → handPlatform x q r s = s) := by
  obtain ⟨kind, code, payload, gov⟩ := q
  cases kind with
  | readValue => exact absurd rfl hk
  | readBlock => exact ⟨by cases r <;> rfl, fun _ => by cases r <;> rfl⟩
  | writeBlock => exact ⟨by cases r <;> rfl, fun _ => by cases r <;> rfl⟩
  | writeValue =>
    refine ⟨?_, fun h => absurd rfl h⟩
    cases r with
    | doneWrite =>
      obtain _ | ⟨lo, _ | ⟨hi, _ | ⟨b, bs⟩⟩⟩ := payload
      · rfl
      · rfl
      · exact cacheWrite_frame ..
      · rfl
    | doneValue => rfl
    | doneBlock => rfl
    | nack => cases hr
    | timeout => cases hr

end HandOn

/-- R54: a write or a block that the pack has taken is DONE. -/
theorem result_of_done {k : TxKind} {reply : PackReply} {r : TxResult} (hk : k ≠ .readValue) (h : resultOf k reply = some r)
    (hr : r.failed = false) : r = .doneWrite ∨ ∃ len bytes, r = .doneBlock len bytes := by
  cases r with
  | doneWrite => exact .inl rfl
  | doneBlock len bytes => exact .inr ⟨len, bytes, rfl⟩
  | nack => cases hr
  | timeout => cases hr
  | doneValue v =>
    have hno : ∀ c : Prop, ∀ _ : Decidable c, ∀ o : TxResult, (∀ w, o ≠ .doneValue w) →
        (if c then some o else some .nack) ≠ some (.doneValue v) := fun c _ o ho => by
      split
      · exact fun e => ho v (Option.some.inj e)
      · exact fun e => by cases e
    cases k with
    | readValue => exact absurd rfl hk
    | readBlock =>
      cases reply with
      | block len bytes => exact absurd h (hno _ _ _ fun w e => by cases e)
      | refusedByte => cases h
      | wrote => cases h
      | value => cases h
    | writeValue => cases reply <;> cases h
    | writeBlock => cases reply <;> cases h

/-- The state in which the outcome of a platform transaction other than a read has been handed on. -/
theorem handPlatform_spec {x : BayId} {s : State} {q : Request} {r : TxResult} (hk : q.kind ≠ .readValue) (hr : r.failed = false) :
    handPlatform x q r (answerMaster r (txClosed x false s)) = { txClosed x false s with
      upstream := (answerMaster r (txClosed x false s)).upstream
      cache := (handPlatform x q r (answerMaster r (txClosed x false s))).cache } := by
  rw [(handPlatform_frame hk hr).1, answerMaster_frame]

/-- Settles O31: what a write or a block that the pack has taken leaves. -/
theorem writesAndBlocksThatSucceed : Obligations.WritesAndBlocksThatSucceed := by
  intro x s tx reply r hl hp hk hres hr
  have hend : completeTx x reply s = handPlatform x tx.req r (answerMaster r (txClosed x false s)) := by
    rw [completeTx_of_link hl hres, finishTx_of_done hr, handOn_platform hp]
  have hspec := handPlatform_spec (x := x) (s := s) hk hr
  have hans := answerMaster_frame r (txClosed x false s)
  have hsettle : settle s (completeTx x reply s) = completeTx x reply s :=
    settle_of_level (by rw [hend, hspec]; rfl) fun _ => by rw [hend, hspec]; rfl
  refine ⟨completeTx x reply s, by rw [exec_packTransactionEnd, hsettle], ?_⟩
  rw [hend]
  obtain ⟨hlink, hcount, hsnap⟩ := idle_txClosed x false s
  refine ⟨by rw [hspec]; exact hlink, by rw [hspec]; exact hcount, by rw [hspec]; exact hsnap, by rw [hspec]; rfl, by rw [hspec]; rfl, by rw [hspec]; rfl, by rw [hspec]; rfl, fun hkind => ?_, fun lo hi hkind hpay => ?_,
    fun u n hu hst => ?_⟩
  · rw [(handPlatform_frame hk hr).2 hkind, hans]
    rfl
  · have hdone : r = .doneWrite := (result_of_done hk hres hr).resolve_right fun ⟨len, bytes, e⟩ => by
      rw [hkind, e] at hres
      cases reply <;> cases hres
    rw [hdone, handPlatform_write hkind hpay, answerMaster_frame]
    exact cacheWrite_congr rfl rfl rfl
  · have hup : (handPlatform x tx.req r (answerMaster r (txClosed x false s))).upstream = (answerMaster r (txClosed x false s)).upstream := by
      rw [hspec]
    rw [hup]
    refine ⟨fun e => ?_, fun len bytes e => ?_⟩
    · rw [e, answerMaster_write (s := txClosed x false s) hu hst]
      rfl
    · rw [e, answerMaster_block (s := txClosed x false s) hu hst]
      rfl

end Sys2Proof.Machine
end

