-- ==== Sys2Proof/Proofs/FailedAttempts.lean ====
section
/-! PROOFS. A failed attempt (R54, R58, R61, R62, R64): what NACK and TIMEOUT leave, and the fault of a bay whose count is at its limit. -/

namespace Sys2Proof.Machine

section Failed
variable {x : BayId} {s : State} {tx : PackTx} {r : TxResult}

/-- The count after a failed attempt. -/
def failedCount (s : State) (x : BayId) : Nat := min ((s.relays.get x).failCount + 1) (faultLimit s)

/-! ### By purpose -/

theorem handPoll_failed_of_none {q : Request} (hr : r = .nack ∨ r = .timeout) (h : (s.relays.get x).poll = none) : handPoll x q r s = s := by
  obtain rfl | rfl := hr <;> simp only [handPoll, h]

theorem handPoll_failed_of_some {q : Request} {p : Poll} (hr : r = .nack ∨ r = .timeout) (h : (s.relays.get x).poll = some p) :
    handPoll x q r s = if pollGoesOn s x p then s else updRelay x (fun r => { r with poll := none }) s := by
  obtain rfl | rfl := hr <;> simp only [handPoll, h]

theorem handProbe_failed {q : Request} (hr : r = .nack ∨ r = .timeout) : handProbe x q r s = probeFailure x s := by
  obtain rfl | rfl := hr <;> rfl

theorem handOrphan_failed {q : Request} (hr : r = .nack ∨ r = .timeout) : handOrphan x q r s = s := by
  obtain rfl | rfl := hr <;> rfl

theorem probeFailure_of_none (h : (s.relays.get x).probe = none) : probeFailure x s = s := by simp only [probeFailure, h]

theorem probeFailure_of_some {p : Probe} (h : (s.relays.get x).probe = some p) : probeFailure x s =
    if (s.relays.get x).failCount = faultLimit s ∨ linkRetries s + 1 ≤ p.attempts then enterFault x .link s else s := by
  simp only [probeFailure, h]

/-- What a failed attempt leaves that faults no bay. -/
structure FailedOn (x : BayId) (s : State) (tx : PackTx) (t : State) : Prop where
  bays : t.bays = s.bays
  pp : t.pp = s.pp
  attn : t.attn = s.attn
  tables : t.tables = s.tables
  idle : Idle (failedCount s x) (s.relays.get x).snap (t.relays.get x)
  cache : t.cache = if tx.purpose = .platform ∧ tx.req.kind = .writeValue then (cacheFailedWrite x tx.req.code s).cache else s.cache

theorem failedOn_txClosed (h : tx.purpose ≠ .platform) : FailedOn x s tx (txClosed x true s) :=
  ⟨rfl, rfl, rfl, rfl, idle_txClosed x true s, (if_neg fun hc => h hc.1).symm⟩

theorem failedOn_platform (hr : r = .nack ∨ r = .timeout) (h : tx.purpose = .platform) :
    FailedOn x s tx (handOn x tx r (txClosed x true s)) := by
  have hidle := idle_txClosed x true s
  rw [handOn_platform h, handPlatform_failed hr, answerMaster_frame]
  by_cases hk : tx.req.kind = .writeValue
  · rw [if_pos hk, cacheFailedWrite_frame]
    refine ⟨rfl, rfl, rfl, rfl, hidle, ?_⟩
    rw [if_pos ⟨h, hk⟩]
    exact cacheFailedWrite_congr rfl
  · rw [if_neg hk]
    exact ⟨rfl, rfl, rfl, rfl, hidle, (if_neg fun hc => hk hc.2).symm⟩

theorem failedOn_poll (hr : r = .nack ∨ r = .timeout) (h : tx.purpose = .poll) : FailedOn x s tx (handOn x tx r (txClosed x true s)) := by
  have hne : tx.purpose ≠ .platform := by rw [h]; decide
  have hc := failedOn_txClosed (x := x) (s := s) hne
  rw [handOn_poll h]
  cases hp : ((txClosed x true s).relays.get x).poll with
  | none => rw [handPoll_failed_of_none hr hp]; exact hc
  | some p =>
    rw [handPoll_failed_of_some hr hp]
    split
    · exact hc
    · obtain ⟨hlink, hcount, hsnap⟩ := hc.idle
      have hget := Pair.get_upd_self (txClosed x true s).relays x (fun r : Relay => { r with poll := none })
      exact ⟨hc.bays, hc.pp, hc.attn, hc.tables, hget ▸ ⟨hlink, hcount, hsnap⟩, hc.cache⟩

/-- R62: the failed read of a probe faults the bay or is left for another attempt. -/
theorem failed_probe (hr : r = .nack ∨ r = .timeout) (h : tx.purpose = .probe) :
    handOn x tx r (txClosed x true s) = enterFault x .link (txClosed x true s) ∨ handOn x tx r (txClosed x true s) = txClosed x true s := by
  rw [handOn_probe h, handProbe_failed hr]
  cases hp : ((txClosed x true s).relays.get x).probe with
  | none => exact .inr (probeFailure_of_none hp)
  | some p =>
    rw [probeFailure_of_some hp]
    exact ite_eq_or_eq ..

/-- A failed attempt hands on nothing that moves the bay, but for the failure of a probe. -/
theorem failedOn_or_fault (hr : r = .nack ∨ r = .timeout) : FailedOn x s tx (handOn x tx r (txClosed x true s))
    ∨ (tx.purpose = .probe ∧ handOn x tx r (txClosed x true s) = enterFault x .link (txClosed x true s)) := by
  cases h : tx.purpose with
  | platform => exact .inl (failedOn_platform hr h)
  | poll => exact .inl (failedOn_poll hr h)
  | probe =>
    obtain he | he := failed_probe (x := x) (s := s) hr h
    · exact .inr ⟨rfl, he⟩
    · rw [he]
      exact .inl (failedOn_txClosed (by rw [h]; decide))
  | orphan =>
    rw [handOn_orphan h, handOrphan_failed hr]
    exact .inl (failedOn_txClosed (by rw [h]; decide))

/-! ### The limit (R64) -/

theorem FailedOn.countAtLimit_iff {t : State} (h : FailedOn x s tx t) :
    countAtLimit t x = true ↔ servedState (s.bays.get x).state = true ∧ faultLimit s ≤ (s.relays.get x).failCount + 1 := by
  rw [Machine.countAtLimit_iff, h.bays, h.idle.count, faultLimit_congr h.tables, failedCount]
  exact and_congr_right fun _ => min_eq_right_iff

theorem not_countAtLimit_enterFault (why : FaultReason) (t : State) : ¬ countAtLimit (enterFault x why t) x = true := by
  rw [countAtLimit_iff, get_enterFault]
  exact fun h => by cases h.1

/-- A relay's count and snapshot pass through the fault and the events that follow an action. -/
theorem idle_relays {fails : Nat} {n : Snapshot} {t : State} (h : Idle fails n (t.relays.get x)) :
    Idle fails n ((enterFault x .link t).relays.get x) ∧ ∀ old, Idle fails n ((settle old t).relays.get x) := by
  refine ⟨by rw [relay_enterFault]; exact h.enter .faulted, fun old => ?_⟩
  refine settle_keeps (P := fun u => Idle fails n (u.relays.get x)) (fun z u hu _ _ _ => ?_) h
  rw [relays_goOnline]
  by_cases hz : x = z
  · rw [← hz, Pair.get_upd_self]
    exact hu.enter .online
  · rw [Pair.get_upd_ne _ hz]
    exact hu

theorem idle_faultIfReached {fails : Nat} {n : Snapshot} {t : State} (h : Idle fails n (t.relays.get x)) :
    Idle fails n ((faultIfReached x t).relays.get x) := by
  unfold faultIfReached
  split
  · exact (idle_relays h).1
  · exact h

theorem idle_finishTx_failed (hr : r = .nack ∨ r = .timeout) (hf : r.failed = true) :
    Idle (failedCount s x) (s.relays.get x).snap ((finishTx x tx r s).relays.get x) := by
  rw [finishTx_of_failed hf]
  refine idle_faultIfReached ?_
  obtain h | ⟨-, h⟩ := failedOn_or_fault (x := x) (s := s) (tx := tx) hr
  · exact h.idle
  · rw [h]
    exact (idle_relays (idle_txClosed x true s)).1

/-- R64: a served bay whose count reaches the limit is faulted, by its probe or by the count. -/
theorem finishTx_at_limit (hr : r = .nack ∨ r = .timeout) (hf : r.failed = true) (hs : servedState (s.bays.get x).state = true)
    (hl : faultLimit s ≤ (s.relays.get x).failCount + 1) : ∃ u, finishTx x tx r s = enterFault x .link u := by
  rw [finishTx_of_failed hf]
  obtain h | ⟨-, h⟩ := failedOn_or_fault (x := x) (s := s) (tx := tx) hr
  · exact ⟨_, faultIfReached_of_limit (h.countAtLimit_iff.mpr ⟨hs, hl⟩)⟩
  · exact ⟨_, by rw [h]; exact faultIfReached_of_not (not_countAtLimit_enterFault _ _)⟩

theorem finishTx_below_limit (hr : r = .nack ∨ r = .timeout) (hf : r.failed = true) (hp : tx.purpose ≠ .probe)
    (hl : (s.relays.get x).failCount + 1 < faultLimit s) :
    finishTx x tx r s = handOn x tx r (txClosed x true s) ∧ FailedOn x s tx (handOn x tx r (txClosed x true s)) := by
  have h : FailedOn x s tx (handOn x tx r (txClosed x true s)) := (failedOn_or_fault hr).resolve_right fun hc => hp hc.1
  exact ⟨by rw [finishTx_of_failed hf]; exact faultIfReached_of_not fun hc => absurd (h.countAtLimit_iff.mp hc).2 (by omega), h⟩

theorem upstream_faultIfReached (s : State) : (faultIfReached x s).upstream = s.upstream := by
  unfold faultIfReached
  split
  · exact upstream_enterFault x .link s
  · rfl

/-- R58: the master of a failed platform transaction is refused. -/
theorem upstream_finishTx_failed {u : UpTx} {n : Nat} (hr : r = .nack ∨ r = .timeout) (hf : r.failed = true) (hp : tx.purpose = .platform)
    (hu : s.upstream.tx = some u) (hst : u.stage = .stretched n) : (finishTx x tx r s).upstream = { tx := none, answer := .refused } := by
  rw [finishTx_of_failed hf, upstream_faultIfReached, handOn_platform hp, handPlatform_failed hr,
    answerMaster_failed (s := txClosed x true s) hr hu hst]
  split
  · rw [cacheFailedWrite_frame]
    rfl
  · rfl

/-! ### The poll (R61) -/

/-- R61: the poll of a failed read stays for a further attempt, or ends. -/
theorem poll_handPoll_failed {p : Poll} (hr : r = .nack ∨ r = .timeout) (hp : tx.purpose = .poll) (h : (s.relays.get x).poll = some p) :
    ((handOn x tx r (txClosed x true s)).relays.get x).poll
      = if (s.relays.get x).failCount + 1 < faultLimit s ∧ p.attempts ≤ linkRetries s ∧ steady (s.bays.get x).state = true
          ∧ (s.relays.get x).recover = .notRunning then some p else none := by
  have hpoll : ((txClosed x true s).relays.get x).poll = some p := by rw [get_txClosed]; exact h
  have hgoes : pollGoesOn (txClosed x true s) x p = true ↔ (s.relays.get x).failCount + 1 < faultLimit s ∧ p.attempts ≤ linkRetries s
      ∧ steady (s.bays.get x).state = true ∧ (s.relays.get x).recover = .notRunning := by
    have hretry : linkRetries (txClosed x true s) = linkRetries s := rfl
    have hlimit : faultLimit (txClosed x true s) = faultLimit s := rfl
    have hstate : (txClosed x true s).bays = s.bays := rfl
    rw [pollGoesOn, get_txClosed, hretry, hlimit, hstate]
    simp only [Bool.and_eq_true, bne_iff_ne, beq_iff_eq, decide_eq_true_eq, if_true, and_assoc, Nat.lt_succ_iff]
    refine and_congr_left fun _ => ?_
    omega
  rw [handOn_poll hp, handPoll_failed_of_some hr hpoll]
  split
  · next hg => rw [if_pos (hgoes.mp hg), hpoll]
  · next hg =>
    rw [if_neg (mt hgoes.mpr hg), updRelay_relays, Pair.get_upd_self]

theorem poll_enter_of_idle {q : Relay} (h : q.link = none) : (q.enter .faulted).poll = none := by
  have he : (q.enter .faulted).poll = if pollInFlight (endProbe q) then (endProbe q).poll else none := rfl
  have hno : pollInFlight (endProbe q) = false := by
    unfold endProbe
    rw [h]
    rfl
  rw [he, hno]
  rfl

theorem poll_settle (old u : State) (y : BayId) : ((settle old u).relays.get y).poll = (u.relays.get y).poll :=
  relay_settle Relay.poll (fun _ => rfl) old u y

theorem poll_finishTx_failed {p : Poll} (hr : r = .nack ∨ r = .timeout) (hf : r.failed = true) (hp : tx.purpose = .poll)
    (h : (s.relays.get x).poll = some p) : ((finishTx x tx r s).relays.get x).poll
      = if (s.relays.get x).failCount + 1 < faultLimit s ∧ p.attempts ≤ linkRetries s ∧ steady (s.bays.get x).state = true
          ∧ (s.relays.get x).recover = .notRunning then some p else none := by
  have hon := failedOn_poll (x := x) (s := s) hr hp
  rw [finishTx_of_failed hf]
  by_cases hc : countAtLimit (handOn x tx r (txClosed x true s)) x = true
  · have hlimit := (hon.countAtLimit_iff.mp hc).2
    rw [faultIfReached_of_limit hc, relay_enterFault, poll_enter_of_idle hon.idle.link, if_neg fun hg => by omega]
  · rw [faultIfReached_of_not hc]
    exact poll_handPoll_failed hr hp h

end Failed

/-- R54: the rows that end a transaction with a failure. -/
theorem exec_failedEnd {x : BayId} {s : State} {tx : PackTx} {i : Instr} (hl : (s.relays.get x).link = some tx)
    (hi : i = .linkTimeout x ∨ ∃ reply, i = .packTransactionEnd x reply ∧ resultOf tx.req.kind reply = some .nack) :
    ∃ r, (r = .nack ∨ r = .timeout) ∧ r.failed = true ∧ exec i s = .next (settle s (finishTx x tx r s)) := by
  obtain rfl | ⟨reply, rfl, hr⟩ := hi
  · exact ⟨.timeout, .inr rfl, rfl, by rw [exec_linkTimeout, timeoutTx_of_link hl]⟩
  · exact ⟨.nack, .inl rfl, rfl, by rw [exec_packTransactionEnd, completeTx_of_link hl hr]⟩

/-- Settles O29: the outcomes of the replies, and what a failed attempt leaves. -/
theorem repliesGiveOutcomesAndFailuresCount : Obligations.RepliesGiveOutcomesAndFailuresCount := by
  refine ⟨⟨resultOf_refused, fun _ _ => rfl, rfl, rfl, fun _ _ => resultOf_block_of_range, fun _ _ => resultOf_block_of_not,
    fun x reply s h => ⟨?end_, ?out⟩, fun x reply s tx hl hr => ?other⟩, fun x s tx i hl hi => ?failed⟩
  case end_ => rw [exec_packTransactionEnd, completeTx_of_idle h, settle_self]
  case out => rw [exec_linkTimeout, timeoutTx_of_idle h, settle_self]
  case other => rw [exec_packTransactionEnd, completeTx_of_other hl hr, settle_self]
  case failed =>
    obtain ⟨r, hr, hf, hrow⟩ := exec_failedEnd hl hi
    obtain ⟨hlink, hcount, hsnap⟩ := (idle_relays (idle_finishTx_failed (tx := tx) hr hf)).2 s
    refine ⟨_, hrow, hlink, hsnap, hcount, fun hlimit hs => ?_, fun hbelow hp => ?_, fun hp u n hu hst => ?_, fun hp p hpoll => ?_⟩
    · obtain ⟨u, hu⟩ := finishTx_at_limit (tx := tx) hr hf hs hlimit
      rw [hu]
      have hst : ((enterFault x .link u).bays.get x).state = .faulted := by rw [get_enterFault]; rfl
      have hrest := rests_settle (old := s) (s := enterFault x .link u) (y := x) (by rw [hst]; decide)
      refine ⟨by rw [hrest.bay]; exact hst, by rw [hrest.bay, get_enterFault]; rfl,
        queued_settle (fun e => by cases e) (fun y hy => by cases hy) (queued_enterFault x .link u),
        hrest.off_or_held (enterFault_off_or_held x .link u), ?_⟩
      rw [(settle_baysOnly s _).cache, cache_enterFault]
      exact noFresh_cacheDistrust x u
    · obtain ⟨he, hon⟩ := finishTx_below_limit hr hf hp hbelow
      have hsettle : settle s (finishTx x tx r s) = handOn x tx r (txClosed x true s) := by
        rw [he]
        exact settle_of_level (by rw [hon.pp]) fun _ => by rw [hon.bays]
      rw [hsettle]
      exact ⟨hon.bays, hon.pp, hon.attn, hon.cache⟩
    · rw [(settle_baysOnly s _).upstream]
      exact upstream_finishTx_failed hr hf hp hu hst
    · rw [poll_settle]
      exact poll_finishTx_failed hr hf hp hpoll

end Sys2Proof.Machine
end

