-- ==== Sys2Proof/Proofs/ReadOutcomes.lean ====
section
/-! PROOFS. A read that succeeds (R58, R61 to R63): the snapshot, the fill of the cache, the STANDBY bays that a VOLTAGE value takes ONLINE (R25), and
the probe's next read (R62). -/

namespace Sys2Proof.Machine

/-! ### What the take-overs of STANDBY bays keep (R25) -/

/-- `P` passes through the take-over of a STANDBY bay. -/
def KeptByJoins (P : State → Prop) : Prop :=
  ∀ z u, P u → (u.bays.get z).state = .standby → (u.bays.get z).latch = true → parallelAllows z u = true → P (goOnline z dTakeOver u)

section Kept
variable {x : BayId} {s : State} {P : State → Prop}

theorem KeptByJoins.updateSnapshot (k : KeptByJoins P) {g : Tag} {v : Half} (h : P (storeSnapshot x g v s)) :
    P (updateSnapshot x g v s) := by
  unfold Machine.updateSnapshot
  split
  · exact standbyJoin_keeps (k .B) (standbyJoin_keeps (k .A) h)
  · exact h

theorem keptByJoins_baysOnly (s : State) : KeptByJoins (baysOnly s) := fun z _ h _ _ _ =>
  (baysOnly_swaps s).goOnline z dTakeOver (fun e => e.elim) h

theorem keptByJoins_relay (x : BayId) {E : Relay → Prop} (hE : ∀ r, E r → E (r.enter .online)) :
    KeptByJoins (fun u => E (u.relays.get x)) := fun z u h _ _ _ => by
  change E ((goOnline z dTakeOver u).relays.get x)
  rw [relays_goOnline]
  by_cases hz : x = z
  · rw [← hz, Pair.get_upd_self]
    exact hE _ h
  · rw [Pair.get_upd_ne _ hz]
    exact h

theorem keptByJoins_idle (x : BayId) (fails : Nat) (n : Snapshot) : KeptByJoins (fun u => Idle fails n (u.relays.get x)) :=
  keptByJoins_relay x fun _ h => h.enter .online

theorem keptByJoins_steady (x : BayId) (b : Bool) : KeptByJoins (fun u => steady (u.bays.get x).state = b) := fun z u h hz _ _ => by
  change steady ((goOnline z dTakeOver u).bays.get x).state = b
  change steady (u.bays.get x).state = b at h
  by_cases hx : x = z
  · have hb : b = true := by rw [← h, hx, hz]; rfl
    rw [hb, hx, state_goOnline_self]
    rfl
  · rw [eq_other_of_ne hx, get_goOnline_other, ← eq_other_of_ne hx]
    exact h

/-- A bay that is not STANDBY takes no part in them. -/
theorem keptByJoins_rests {b : Bay} (hb : b.state ≠ .standby) (r : Relay) :
    KeptByJoins (fun u => u.bays.get x = b ∧ u.relays.get x = r) := fun z u ⟨h, hr⟩ hz _ _ => by
  have hx : x ≠ z := fun e => hb (by rw [← h, e]; exact hz)
  have hrest := rests_goOnline_other z dTakeOver u
  rw [← eq_other_of_ne hx] at hrest
  exact ⟨hrest.bay.trans h, hrest.relay.trans hr⟩

theorem keptByJoins_poll (x : BayId) (p : Option Poll) : KeptByJoins (fun u => (u.relays.get x).poll = p) :=
  keptByJoins_relay (E := fun r => r.poll = p) x fun _ h => h

end Kept

/-! ### The snapshot (R63) -/

section Store
variable {x : BayId} {s u w t : State} {n : Snapshot} {g : Tag} {v : Half}

/-- The transaction has ended DONE and the snapshot is `n`; the bays and the switches are as they were. -/
structure ReadDone (x : BayId) (n : Snapshot) (s w : State) : Prop where
  bays : w.bays = s.bays
  pp : w.pp = s.pp
  tables : w.tables = s.tables
  mapInst : w.mapInst = s.mapInst
  cache : w.cache = s.cache
  flags : w.flags = s.flags
  motion : w.motion = s.motion
  idle : Idle 0 n (w.relays.get x)
  other : w.relays.get x.other = s.relays.get x.other
  probe : (w.relays.get x).probe = (s.relays.get x).probe

theorem readDone_txClosed (x : BayId) (s : State) : ReadDone x (s.relays.get x).snap s (txClosed x false s) :=
  ⟨rfl, rfl, rfl, rfl, rfl, rfl, rfl, idle_txClosed x false s, Pair.get_upd_other .., by rw [get_txClosed]⟩

theorem ReadDone.answerMaster (h : ReadDone x n s w) (r : TxResult) : ReadDone x n s (answerMaster r w) := by
  rw [answerMaster_frame]
  exact ⟨h.bays, h.pp, h.tables, h.mapInst, h.cache, h.flags, h.motion, h.idle, h.other, h.probe⟩

/-- R61: the poll of a DONE read ends. -/
def pollEnded (x : BayId) (s : State) : State := updRelay x (fun r => { r with poll := none }) s

theorem ReadDone.pollEnded (h : ReadDone x n s w) : ReadDone x n s (pollEnded x w) := by
  obtain ⟨hlink, hcount, hsnap⟩ := h.idle
  have hget := Pair.get_upd_self w.relays x (fun r : Relay => { r with poll := none })
  exact ⟨h.bays, h.pp, h.tables, h.mapInst, h.cache, h.flags, h.motion, hget ▸ ⟨hlink, hcount, hsnap⟩,
    (Pair.get_upd_other ..).trans h.other, (congrArg Relay.probe hget).trans h.probe⟩

theorem poll_pollEnded (x : BayId) (s : State) : ((pollEnded x s).relays.get x).poll = none := by
  rw [pollEnded, updRelay_relays, Pair.get_upd_self]

theorem ReadDone.store (h : ReadDone x n s u) (g : Tag) (v : Half) : ReadDone x (n.put g v) s (storeSnapshot x g v u) := by
  obtain ⟨hlink, hcount, hsnap⟩ := h.idle
  have hput : ReadDone x (n.put g v) s (updRelay x (fun r => { r with snap := r.snap.put g v }) u) := by
    have hget := Pair.get_upd_self u.relays x (fun r : Relay => { r with snap := r.snap.put g v })
    exact ⟨h.bays, h.pp, h.tables, h.mapInst, h.cache, h.flags, h.motion, hget ▸ ⟨hlink, hcount, congrArg (Snapshot.put · g v) hsnap⟩,
      (Pair.get_upd_other ..).trans h.other, (congrArg Relay.probe hget).trans h.probe⟩
  unfold storeSnapshot
  split
  · rw [recompute_eq]
    exact ⟨hput.bays, hput.pp, hput.tables, hput.mapInst, hput.cache, hput.flags, hput.motion, hput.idle, hput.other, hput.probe⟩
  · exact hput

theorem ReadDone.snap (h : ReadDone x n s w) (y : BayId) : (w.relays.get y).snap = ((withSnap x n s).relays.get y).snap := by
  by_cases hy : y = x
  · rw [hy, withSnap, updRelay_relays, Pair.get_upd_self]
    exact h.idle.snap
  · rw [eq_other_of_ne hy, withSnap, updRelay_relays, Pair.get_upd_other, h.other]

theorem ReadDone.voltsClose (h : ReadDone x n s w) : voltsClose w = voltsClose (withSnap x n s) := voltsClose_congr h.snap h.tables

theorem ReadDone.parallelAllows (h : ReadDone x n s w) (y : BayId) : parallelAllows y w = parallelAllows y (withSnap x n s) :=
  parallelAllows_congr (by rw [h.pp]; rfl) (by rw [h.bays]; rfl) h.snap h.tables

theorem ReadDone.joins (h : ReadDone x n s w) (y : BayId) : joins w y ↔ joins (withSnap x n s) y := by
  unfold Machine.joins
  rw [h.bays, h.parallelAllows]
  rfl

theorem updateSnapshot_of_ne (h : g ≠ .voltage) : updateSnapshot x g v s = storeSnapshot x g v s := if_neg h

theorem updateSnapshot_voltage :
    updateSnapshot x .voltage v s = standbyJoin .B (standbyJoin .A (storeSnapshot x .voltage v s)) := if_pos rfl

theorem frame_updateSnapshot : baysOnly (storeSnapshot x g v u) (updateSnapshot x g v u) :=
  (keptByJoins_baysOnly _).updateSnapshot (baysOnly.refl _)

theorem ReadDone.idle_update (h : ReadDone x n s u) : Idle 0 (n.put g v) ((updateSnapshot x g v u).relays.get x) :=
  (keptByJoins_idle x 0 (n.put g v)).updateSnapshot (h.store g v).idle

end Store

/-! ### What follows the snapshot -/

section After
variable {x : BayId} {s u w t : State} {n : Snapshot} {tx : PackTx} {v : Half}

/-- From `u` to `t` the bays, the switches, the queue and the snapshots stay. -/
structure SamePlaces (u t : State) : Prop where
  bays : t.bays = u.bays
  pp : t.pp = u.pp
  attn : t.attn = u.attn
  tables : t.tables = u.tables
  snap : ∀ y, (t.relays.get y).snap = (u.relays.get y).snap

theorem SamePlaces.refl (u : State) : SamePlaces u u := ⟨rfl, rfl, rfl, rfl, fun _ => rfl⟩

theorem samePlaces_cacheFill (c : Code) (g : Governing) : SamePlaces u (cacheFill x c g v u) := by
  rw [cacheFill_frame]
  exact ⟨rfl, rfl, rfl, rfl, fun _ => rfl⟩

theorem probeAdvance_of_none (h : (s.relays.get x).probe = none) : probeAdvance x s = s := by simp only [probeAdvance, h]

theorem probeAdvance_of_last {p : Probe} (h : (s.relays.get x).probe = some p) (hr : p.reads.tail = []) :
    probeAdvance x s = admitPack x (updRelay x (fun r => { r with probe := none }) s) := by simp only [probeAdvance, h, hr]

theorem probeAdvance_of_next {p : Probe} {q : ProbeRead} {rest : List ProbeRead} (h : (s.relays.get x).probe = some p)
    (hr : p.reads.tail = q :: rest) :
    probeAdvance x s = updRelay x (fun r => { r with probe := some { p with reads := q :: rest, attempts := 0 } }) s := by
  simp only [probeAdvance, h, hr]

/-- The probe of a relay, if any, has a further read to make. -/
def readsOn (r : Relay) : Prop := ∀ p, r.probe = some p → ∃ q rest, p.reads.tail = q :: rest

theorem keptByJoins_readsOn (x : BayId) : KeptByJoins (fun u => readsOn (u.relays.get x)) :=
  keptByJoins_relay x fun _ _ _ hp => by cases hp

theorem samePlaces_probeAdvance (h : readsOn (u.relays.get x)) : SamePlaces u (probeAdvance x u) := by
  cases hp : (u.relays.get x).probe with
  | none => rw [probeAdvance_of_none hp]; exact SamePlaces.refl u
  | some p =>
    obtain ⟨q, rest, hrest⟩ := h p hp
    rw [probeAdvance_of_next hp hrest]
    refine ⟨rfl, rfl, rfl, rfl, fun y => ?_⟩
    rw [updRelay_relays]
    by_cases hy : y = x
    · rw [hy, Pair.get_upd_self]
    · rw [Pair.get_upd_ne _ hy]

theorem samePlaces_handOn_read (hk : tx.req.kind = .readValue) (hp : tx.purpose = .probe → readsOn (s.relays.get x)) :
    ∃ u, ReadDone x (s.relays.get x).snap s u
      ∧ SamePlaces (updateSnapshot x tx.req.gov.tag v u) (handOn x tx (.doneValue v) (txClosed x false s)) := by
  have hclosed := readDone_txClosed x s
  cases h : tx.purpose with
  | platform =>
    rw [handOn_platform h, handPlatform_read hk]
    exact ⟨_, hclosed.answerMaster _, samePlaces_cacheFill _ _⟩
  | poll =>
    rw [handOn_poll h]
    exact ⟨_, hclosed.pollEnded, samePlaces_cacheFill _ _⟩
  | orphan =>
    rw [handOn_orphan h]
    exact ⟨_, hclosed, SamePlaces.refl _⟩
  | probe =>
    rw [handOn_probe h]
    refine ⟨_, hclosed, samePlaces_probeAdvance ?_⟩
    refine (keptByJoins_readsOn x).updateSnapshot fun p hprobe => hp h p ?_
    rw [← (hclosed.store tx.req.gov.tag v).probe]
    exact hprobe

theorem SamePlaces.tookOver {y : BayId} (h : SamePlaces u t) (ht : tookOver u y) : tookOver t y := by
  obtain ⟨hst, hsw, hq⟩ := ht
  exact ⟨by rw [h.bays]; exact hst, by rw [h.pp]; exact hsw, queued_of_attn h.attn hq⟩

theorem SamePlaces.parallelAllows (h : SamePlaces u t) (y : BayId) : parallelAllows y t = parallelAllows y u :=
  parallelAllows_congr (by rw [h.pp]) (by rw [h.bays]) h.snap h.tables

/-! ### The joins of a VOLTAGE value (R25) -/

theorem tookOver.standbyJoin_other {y : BayId} (h : tookOver s y) : tookOver (standbyJoin y.other s) y := by
  refine standbyJoin_keeps (P := fun u => tookOver u y) (fun u hu _ _ _ => ?_) h
  have hrest := rests_goOnline_other y.other dTakeOver u
  rw [other_other] at hrest
  exact hu.rests hrest ((onKey_queued _ _).goOnline (fun e => by cases e) (fun e => other_ne y (AttnKey.swapDone.inj e).symm) dTakeOver hu.2.2)

theorem voltsClose_goOnline (y : BayId) (d : Detail) (s : State) : voltsClose (goOnline y d s) = voltsClose s := by
  refine voltsClose_congr (fun z => ?_) ((baysOnly_swaps s).goOnline y d (fun e => e.elim) (baysOnly.refl s)).tables
  rw [relays_goOnline]
  by_cases hz : z = y
  · rw [hz, Pair.get_upd_self]
    unfold Relay.enter
    split <;> rfl
  · rw [Pair.get_upd_ne _ hz]

/-- R24: beside an ONLINE bay with its pack present the voltages decide. -/
theorem parallelAllows_beside (y : BayId) (d : Detail) (s : State) (hp : (s.bays.get y).presence = true) :
    parallelAllows y.other (goOnline y d s) = voltsClose s := by
  rw [parallelAllows, other_other, if_pos ⟨sw_goOnline .., by rw [get_goOnline_self]; exact hp⟩, voltsClose_goOnline]

theorem joins_beside (hst : (s.bays.get .B).state = .standby) (hl : (s.bays.get .B).latch = true) (hv : voltsClose s = true) :
    joins (goOnline .A dTakeOver s) .B := by
  have hb : (goOnline .A dTakeOver s).bays.get .B = s.bays.get .B := get_goOnline_other (x := .A) dTakeOver s
  refine ⟨by rw [hb]; exact hst, by rw [hb]; exact hl, parallelAllows_of_close ?_⟩
  rw [voltsClose_goOnline]
  exact hv

/-- R24, R25: bay A has gone ONLINE and keeps bay B in STANDBY. -/
theorem settle_beside (old : State) (h : SamePlaces (goOnline .A dTakeOver w) t) (hp : (w.bays.get .A).presence = true)
    (hv : voltsClose w = false) : settle old t = t := by
  refine settle_keeps (P := fun e => e = t) (fun z e he hz _ ha => ?_) rfl
  subst he
  cases z with
  | A =>
    rw [h.bays, state_goOnline_self] at hz
    cases hz
  | B =>
    have hno : parallelAllows .B e = voltsClose w := (h.parallelAllows .B).trans (parallelAllows_beside .A dTakeOver w hp)
    rw [hno, hv] at ha
    cases ha

end After

/-! ### The fill (R89, R91) -/

theorem cache_cacheFill {x : BayId} {c : Code} {g : Governing} {v : Half} {s t : State} (hc : t.cache = s.cache)
    (hi : t.mapInst = s.mapInst) (hs : steady (t.bays.get x).state = steady (s.bays.get x).state) :
    (cacheFill x c g v t).cache = if g.cls ≠ .none ∧ g.inst = s.mapInst ∧ steady (s.bays.get x).state = true then
      s.cache.set (setOf c) ((cacheSet s.cache (setOf c)).fill x c v) else s.cache := by
  unfold cacheFill
  rw [hi, hs]
  split
  · exact congrArg (fun k => k.set (setOf c) ((cacheSet k (setOf c)).fill x c v)) hc
  · exact hc

theorem le16_append (lo hi : Byte) : le16 (hi ++ lo).toNat = [lo, hi] := by
  have hn : (hi ++ lo).toNat = 256 * hi.toNat + lo.toNat := by
    rw [BitVec.toNat_append, ← Nat.shiftLeft_add_eq_or_of_lt lo.isLt, Nat.shiftLeft_eq, Nat.mul_comm]
  have hlo : byteOf (hi ++ lo).toNat = lo := BitVec.eq_of_toNat_eq (by
    rw [hn, byteOf, BitVec.toNat_ofNat]
    have := lo.isLt
    omega)
  have hhi : byteOf ((hi ++ lo).toNat / 256) = hi := BitVec.eq_of_toNat_eq (by
    rw [hn, byteOf, BitVec.toNat_ofNat]
    have h1 := lo.isLt
    have h2 := hi.isLt
    omega)
  rw [le16, hlo, hhi]

/-- R63, R89: what a DONE read of a platform transaction or a poll leaves, before the events that follow it. -/
structure ReadKept (x : BayId) (s u : State) (q : Request) (v : Half) (t : State) : Prop where
  idle : Idle 0 (snapAfter s x q.gov.tag v) (t.relays.get x)
  cache : t.cache = if q.gov.cls ≠ .none ∧ q.gov.inst = s.mapInst ∧ steady (s.bays.get x).state = true then
    s.cache.set (setOf q.code) ((cacheSet s.cache (setOf q.code)).fill x q.code v) else s.cache
  upstream : t.upstream = u.upstream
  places : q.gov.tag ≠ .voltage → t.bays = s.bays ∧ t.pp = s.pp
  poll : (t.relays.get x).poll = (u.relays.get x).poll

theorem readKept_fill {x : BayId} {s u : State} (h : ReadDone x (s.relays.get x).snap s u) (q : Request) (v : Half) :
    ReadKept x s u q v (cacheFill x q.code q.gov v (updateSnapshot x q.gov.tag v u)) := by
  have hw := h.store q.gov.tag v
  have hframe : baysOnly (storeSnapshot x q.gov.tag v u) (updateSnapshot x q.gov.tag v u) := frame_updateSnapshot
  have hsteady : steady ((updateSnapshot x q.gov.tag v u).bays.get x).state = steady (s.bays.get x).state :=
    (keptByJoins_steady x _).updateSnapshot (by rw [hw.bays])
  have hup : (storeSnapshot x q.gov.tag v u).upstream = u.upstream ∧
      ((storeSnapshot x q.gov.tag v u).relays.get x).poll = (u.relays.get x).poll := by
    have hpoll : ((updRelay x (fun r => { r with snap := r.snap.put q.gov.tag v }) u).relays.get x).poll = (u.relays.get x).poll := by
      rw [updRelay_relays, Pair.get_upd_self]
    unfold storeSnapshot
    split
    · rw [recompute_eq]
      exact ⟨rfl, hpoll⟩
    · exact ⟨rfl, hpoll⟩
  have hfill := cacheFill_frame x q.code q.gov v (updateSnapshot x q.gov.tag v u)
  refine ⟨by rw [hfill]; exact h.idle_update, cache_cacheFill (hframe.cache.trans hw.cache) (hframe.mapInst.trans hw.mapInst) hsteady,
    by rw [hfill]; exact hframe.upstream.trans hup.1, fun hg => ?_, by
      rw [hfill]
      exact (keptByJoins_poll x _).updateSnapshot hup.2⟩
  rw [hfill, updateSnapshot_of_ne hg]
  exact ⟨hw.bays, hw.pp⟩

/-- R58: a DONE read of the master's, or of a poll. -/
theorem readKept_handOn {x : BayId} {s : State} {tx : PackTx} (lo hi : Byte) (hk : tx.req.kind = .readValue)
    (hp : tx.purpose = .platform ∨ tx.purpose = .poll) :
    ∃ u, ReadKept x s u tx.req (hi ++ lo) (handOn x tx (.doneValue (hi ++ lo)) (txClosed x false s))
      ∧ (tx.purpose = .poll → u.upstream = s.upstream ∧ (u.relays.get x).poll = none)
      ∧ (tx.purpose = .platform → ∀ m n, s.upstream.tx = some m → m.stage = .stretched n →
          u.upstream = { tx := none, answer := .data (([lo, hi] ++ List.replicate n 0xFF).take n) }) := by
  have hclosed := readDone_txClosed x s
  obtain h | h := hp
  · rw [handOn_platform h, handPlatform_read hk]
    refine ⟨_, readKept_fill (hclosed.answerMaster _) tx.req _, fun e => ?_, fun _ m n hm hst => ?_⟩
    · rw [h] at e
      cases e
    · rw [answerMaster_value (s := txClosed x false s) hm hst, le16_append]
      rfl
  · rw [handOn_poll h]
    refine ⟨_, readKept_fill hclosed.pollEnded tx.req _, fun _ => ⟨rfl, poll_pollEnded x _⟩, fun e => ?_⟩
    rw [h] at e
    cases e

/-- R63, R25: what a VOLTAGE value makes of STANDBY bays with their latch closed. -/
theorem joins_of_voltage {x : BayId} {s u e : State} {v : Half} {n : Snapshot} (h : ReadDone x n s u)
    (he : SamePlaces (updateSnapshot x .voltage v u) e) :
    (joins (withSnap x (n.put .voltage v) s) .A → tookOver (settle s e) .A)
      ∧ (joins (withSnap x (n.put .voltage v) s) .B → ¬ joins (withSnap x (n.put .voltage v) s) .A → tookOver (settle s e) .B)
      ∧ (joins (withSnap x (n.put .voltage v) s) .A → (s.bays.get .B).state = .standby → (s.bays.get .B).latch = true →
          voltsClose (withSnap x (n.put .voltage v) s) = true → tookOver (settle s e) .B)
      ∧ (joins (withSnap x (n.put .voltage v) s) .A → (s.bays.get .B).state = .standby → (s.bays.get .A).presence = true →
          voltsClose (withSnap x (n.put .voltage v) s) = false → ((settle s e).bays.get .B).state = .standby)
      ∧ (¬ joins (withSnap x (n.put .voltage v) s) .A → ¬ joins (withSnap x (n.put .voltage v) s) .B →
          (settle s e).bays = s.bays ∧ (settle s e).pp = s.pp) := by
  have hw := h.store .voltage v
  rw [updateSnapshot_voltage] at he
  rw [← hw.joins .A, ← hw.joins .B, ← hw.voltsClose, ← hw.bays]
  generalize storeSnapshot x .voltage v u = w at hw he
  refine ⟨fun hA => ?_, fun hB hA => ?_, fun hA hst hl hv => ?_, fun hA hst hp hv => ?_, fun hA hB => ?_⟩
  · rw [standbyJoin_of_joins hA] at he
    exact (he.tookOver (tookOver.standbyJoin_other (y := .A) (tookOver_goOnline .A w))).settle s
  · rw [standbyJoin_of_not hA, standbyJoin_of_joins hB] at he
    exact (he.tookOver (tookOver_goOnline .B w)).settle s
  · rw [standbyJoin_of_joins hA, standbyJoin_of_joins (joins_beside hst hl hv)] at he
    exact (he.tookOver (tookOver_goOnline .B _)).settle s
  · have hno : ¬ joins (goOnline .A dTakeOver w) .B := fun hc => by
      have ha : parallelAllows .B (goOnline .A dTakeOver w) = voltsClose w := parallelAllows_beside .A dTakeOver w hp
      have hallow := hc.2.2
      rw [ha, hv] at hallow
      cases hallow
    rw [standbyJoin_of_joins hA, standbyJoin_of_not hno] at he
    have hb : (goOnline .A dTakeOver w).bays.get .B = w.bays.get .B := get_goOnline_other (x := .A) dTakeOver w
    rw [settle_beside s he hp hv, he.bays, hb]
    exact hst
  · rw [standbyJoin_of_not hA, standbyJoin_of_not hB] at he
    have hsettle : settle s e = e := settle_of_level (by rw [he.pp, hw.pp]) fun _ => by rw [he.bays, hw.bays]
    rw [hsettle]
    exact ⟨he.bays, he.pp.trans hw.pp⟩

/-- Settles O30: a DONE read of the master's or of a poll, and the STANDBY bays that a VOLTAGE value takes ONLINE. -/
theorem readsThatSucceed : Obligations.ReadsThatSucceed := by
  refine ⟨fun x s tx lo hi hl hk hp => ?read, fun x s u tx lo hi hl hk hg hp hu => ?volts⟩
  case read =>
    obtain ⟨u, hkept, hpoll, hplat⟩ := readKept_handOn (x := x) (s := s) lo hi hk hp
    have hframe := settle_baysOnly s (handOn x tx (.doneValue (hi ++ lo)) (txClosed x false s))
    obtain ⟨hlink, hcount, hsnap⟩ := (idle_relays hkept.idle).2 s
    refine ⟨_, exec_valueEnd hl hk, hlink, hcount, hsnap, hframe.cache.trans hkept.cache, fun hg => ?_, fun e => ⟨?_, ?_⟩,
      fun e m n hm hst => ?_⟩
    · obtain ⟨hb, hpp⟩ := hkept.places hg
      have hsettle : settle s (handOn x tx (.doneValue (hi ++ lo)) (txClosed x false s))
          = handOn x tx (.doneValue (hi ++ lo)) (txClosed x false s) := settle_of_level (by rw [hpp]) fun _ => by rw [hb]
      rw [hsettle]
      exact ⟨hb, hpp⟩
    · rw [poll_settle, hkept.poll]
      exact (hpoll e).2
    · rw [hframe.upstream, hkept.upstream]
      exact (hpoll e).1
    · rw [hframe.upstream, hkept.upstream]
      exact hplat e m n hm hst
  case volts =>
    obtain ⟨w, hw, he⟩ := samePlaces_handOn_read (x := x) (s := s) (v := hi ++ lo) hk fun e p hprobe => by
      obtain ⟨p', r, r', rest, hp', hreads⟩ := hp e
      rw [hprobe] at hp'
      cases hp'
      exact ⟨r', rest, by rw [hreads]; rfl⟩
    rw [hg] at he
    subst hu
    exact ⟨_, exec_valueEnd hl hk, joins_of_voltage hw he⟩

/-! ### The probe's next read (R62) -/

/-- R62: a DONE read of a PROBING bay's probe that is not the last. -/
theorem handProbe_next {x : BayId} {s : State} {q : Request} {p : Probe} {r : ProbeRead} {rest : List ProbeRead} (v : Half)
    (hst : (s.bays.get x).state = .probing) (hp : (s.relays.get x).probe = some p) (hr : p.reads = r :: rest) (hrest : rest ≠ []) :
    ∃ t, settle s (handProbe x q (.doneValue v) (txClosed x false s)) = t
      ∧ (t.relays.get x).probe = some { p with reads := rest, attempts := 0 } ∧ (t.bays.get x).state = .probing
      ∧ Idle 0 (snapAfter s x q.gov.tag v) (t.relays.get x) ∧ t.cache = s.cache := by
  obtain ⟨q', rest', rfl⟩ := List.exists_cons_of_ne_nil hrest
  have hw := (readDone_txClosed x s).store q.gov.tag v
  have hns : (s.bays.get x).state ≠ .standby := by rw [hst]; decide
  have hkeep := (keptByJoins_rests hns ((storeSnapshot x q.gov.tag v (txClosed x false s)).relays.get x)).updateSnapshot
    (x := x) (g := q.gov.tag) (v := v) (s := txClosed x false s) ⟨by rw [hw.bays], rfl⟩
  have hframe : baysOnly (storeSnapshot x q.gov.tag v (txClosed x false s)) (updateSnapshot x q.gov.tag v (txClosed x false s)) :=
    frame_updateSnapshot
  have hidle := (readDone_txClosed x s).idle_update (g := q.gov.tag) (v := v)
  have hhand : handProbe x q (.doneValue v) (txClosed x false s) = probeAdvance x (updateSnapshot x q.gov.tag v (txClosed x false s)) := rfl
  have hcache := hframe.cache.trans hw.cache
  obtain ⟨hbay, hrelay⟩ := hkeep
  rw [hhand]
  generalize updateSnapshot x q.gov.tag v (txClosed x false s) = u at hbay hrelay hidle hcache
  have hprobe : (u.relays.get x).probe = some p := by rw [hrelay, hw.probe]; exact hp
  rw [probeAdvance_of_next hprobe (by rw [hr]; rfl)]
  have hget := Pair.get_upd_self u.relays x (fun r : Relay => { r with probe := some { p with reads := q' :: rest', attempts := 0 } })
  generalize hf : updRelay x (fun r => { r with probe := some { p with reads := q' :: rest', attempts := 0 } }) u = e
  have hrel : e.relays.get x = { u.relays.get x with probe := some { p with reads := q' :: rest', attempts := 0 } } := by rw [← hf]; exact hget
  have hb : e.bays.get x = s.bays.get x := by rw [← hf]; exact hbay
  have hrests := rests_settle (old := s) (s := e) (y := x) (by rw [hb]; exact hns)
  obtain ⟨hlink, hcount, hsnap⟩ := hidle
  refine ⟨_, rfl, by rw [hrests.relay, hrel], by rw [hrests.bay, hb]; exact hst, by rw [hrests.relay, hrel]; exact ⟨hlink, hcount, hsnap⟩, ?_⟩
  rw [(settle_baysOnly s e).cache, ← hf]
  exact hcache

/-- Settles O32: the next read of a probe, a further attempt, and a probe that fails. -/
theorem probeReadsAdvanceOrFail : Obligations.ProbeReadsAdvanceOrFail := by
  intro x s tx p r rest hst hl hpur hk hp hr
  have hprobe : ((txClosed x true s).relays.get x).probe = some p := by rw [get_txClosed]; exact hp
  have hfail : handOn x tx .timeout (txClosed x true s) =
      if ((txClosed x true s).relays.get x).failCount = faultLimit (txClosed x true s) ∨ linkRetries (txClosed x true s) + 1 ≤ p.attempts
      then enterFault x .link (txClosed x true s) else txClosed x true s := by
    rw [handOn_probe hpur, handProbe_failed (.inr rfl), probeFailure_of_some hprobe]
  have hrow : exec (.linkTimeout x) s = .next (settle s (faultIfReached x (handOn x tx .timeout (txClosed x true s)))) := by
    rw [exec_linkTimeout, timeoutTx_of_link hl, finishTx_of_failed rfl]
  have hclosed : FailedOn x s tx (txClosed x true s) := failedOn_txClosed (by rw [hpur]; decide)
  refine ⟨fun lo hi hrest => ?_, fun hlow hatt => ?_, fun hatt => ?_⟩
  · obtain ⟨t, ht, hnext, hstate, ⟨-, hcount, hsnap⟩, hcache⟩ := handProbe_next (q := tx.req) (hi ++ lo) hst hp hr hrest
    refine ⟨t, ?_, hnext, hstate, hsnap, hcount, hcache⟩
    rw [exec_valueEnd hl hk, handOn_probe hpur, ht]
  · have hnot : ¬ (((txClosed x true s).relays.get x).failCount = faultLimit (txClosed x true s)
        ∨ linkRetries (txClosed x true s) + 1 ≤ p.attempts) := by
      rintro (h | h)
      · rw [hclosed.idle.count] at h
        have hmin : failedCount s x = (s.relays.get x).failCount + 1 := min_eq_left (Nat.le_of_lt hlow)
        rw [hmin] at h
        exact absurd h (Nat.ne_of_lt hlow)
      · exact absurd (Nat.lt_of_lt_of_le hatt h) (Nat.lt_irrefl _)
    have hlimit : ¬ countAtLimit (txClosed x true s) x = true := fun h => absurd (hclosed.countAtLimit_iff.mp h).2 (by omega)
    rw [hfail, if_neg hnot, faultIfReached_of_not hlimit] at hrow
    refine ⟨txClosed x true s, ?_, hprobe, rfl, rfl⟩
    rw [hrow]
    exact congrArg _ (settle_of_level rfl fun _ => rfl)
  · rw [hfail, if_pos (.inr hatt), faultIfReached_of_not (not_countAtLimit_enterFault .link _)] at hrow
    have hf : ((enterFault x .link (txClosed x true s)).bays.get x).state = .faulted := by rw [get_enterFault]; rfl
    have hrest := rests_settle (old := s) (s := enterFault x .link (txClosed x true s)) (y := x) (by rw [hf]; decide)
    refine ⟨_, hrow, by rw [hrest.bay]; exact hf, by rw [hrest.bay, get_enterFault]; rfl,
      queued_settle (fun e => by cases e) (fun y hy => by cases hy) (queued_enterFault x .link _), fun hc => ?_⟩
    exact queued_settle (fun e => by cases e) (fun y hy => by cases hy)
      (queued_enterFault_probe (why := .link) (s := txClosed x true s) hst hc)

end Sys2Proof.Machine
end

