-- ==== Sys2Proof/Proofs/Placement.lean ====
section
/-! PROOFS. Placement and admission (R22, R23, R35, R39, R72): what a pack that is placed leaves of its bay, its switch, the cache and the queue, the
fault of a pack that is not admitted, and the probe that leads there (R62). -/

namespace Sys2Proof.Machine

/-! ### The switch of a placed pack (R23, step 3) -/

section Placement
variable {x : BayId} {b : Bay} {s u t old : State}

/-- R23, R24: the latch of bay `x` is closed and the paralleling rule allows. -/
def placesOnline (x : BayId) (u : State) : Prop := (u.bays.get x).latch = true ∧ parallelAllows x u = true

/-- R25: between `old` and `t` no event of bay `y` reaches the other bay. -/
def noEventOf (old t : State) (y : BayId) : Prop :=
  (old.pp.sw.get y = .on → t.pp.sw.get y = .on) ∧ (t.bays.get y).presence = (old.bays.get y).presence

theorem noEventOf.trans {y : BayId} (h : noEventOf old s y) (k : noEventOf s t y) : noEventOf old t y :=
  ⟨fun e => k.1 (h.1 e), k.2.trans h.2⟩

theorem noEventOf.refl (s : State) (y : BayId) : noEventOf s s y := ⟨id, rfl⟩

theorem otherGone_of_noEvent {y : BayId} (h : noEventOf old t y) : otherGone old t y = false := by
  rw [otherGone, h.2]
  by_cases hon : old.pp.sw.get y = .on
  · rw [h.1 hon, hon]
    cases (old.bays.get y).presence <;> rfl
  · rw [beq_false_of_ne hon]
    cases (old.bays.get y).presence <;> rfl

/-- Bay `x`, whose record was `b`, has been placed by the latch and the paralleling rule of state `u`. -/
structure Placement (x : BayId) (b : Bay) (u t : State) : Prop where
  online : placesOnline x u → t.bays.get x = b.enter .online
  standby : ¬ placesOnline x u → t.bays.get x = b.enter .standby
  relay : t.relays.get x = endProbe (u.relays.get x)
  on : placesOnline x u → t.pp.sw.get x = .on
  off : ¬ placesOnline x u → t.pp.sw.get x = .off ∨ t.pp.held.get x = true
  quiet : ¬ placesOnline x u → noEventOf u t x.other
  latch : b.latch = (u.bays.get x).latch

theorem Placement.state_on (h : Placement x b u t) (hp : placesOnline x u) : (t.bays.get x).state = .online := by
  rw [h.online hp]
  rfl

theorem Placement.state_off (h : Placement x b u t) (hp : ¬ placesOnline x u) : (t.bays.get x).state = .standby := by
  rw [h.standby hp]
  rfl

theorem placeSwitch_of_on (h : placesOnline x s) : placeSwitch x s = setBayState x .online (requestOn x s) := if_pos h

theorem placeSwitch_of_off (h : ¬ placesOnline x s) : placeSwitch x s = setBayState x .standby (switchOff x s) := if_neg h

theorem placement_placeSwitch (x : BayId) (s : State) : Placement x (s.bays.get x) s (placeSwitch x s) := by
  by_cases h : placesOnline x s
  · rw [placeSwitch_of_on h]
    refine ⟨fun _ => get_turnOnline, fun hn => absurd h hn, ?_, fun _ => sw_turnOnline, fun hn => absurd h hn, fun hn => absurd h hn, rfl⟩
    rw [setBayState_relays, Pair.get_upd_self, ((powerOnly.refl s).requestOn x).relays]
    rfl
  · rw [placeSwitch_of_off h]
    refine ⟨fun hn => absurd hn h, fun _ => get_turnStandby, ?_, fun hn => absurd hn h, fun _ => ?_, fun _ => ⟨fun e => ?_, ?_⟩, rfl⟩
    · rw [setBayState_relays, Pair.get_upd_self, ((powerOnly.refl s).switchOff x).relays]
      rfl
    · rw [setBayState_pp]
      exact switchOff_self_off_or_held x s
    · rw [setBayState_pp, sw_switchOff_other]
      exact e
    · rw [setBayState_bays, Pair.get_upd_other, off_bays]

/-- What the placement asks of the state it is judged in. -/
structure SamePlacing (x : BayId) (s u : State) : Prop where
  latch : (u.bays.get x).latch = (s.bays.get x).latch
  allows : parallelAllows x u = parallelAllows x s
  relay : u.relays.get x = s.relays.get x
  sw : u.pp.sw.get x.other = s.pp.sw.get x.other
  presence : (u.bays.get x.other).presence = (s.bays.get x.other).presence

theorem SamePlacing.trans (h : SamePlacing x s u) (k : SamePlacing x u t) : SamePlacing x s t :=
  ⟨k.latch.trans h.latch, k.allows.trans h.allows, k.relay.trans h.relay, k.sw.trans h.sw, k.presence.trans h.presence⟩

theorem SamePlacing.places (h : SamePlacing x s u) : placesOnline x u ↔ placesOnline x s := by
  unfold placesOnline
  rw [h.latch, h.allows]

theorem samePlacing_updBay {f : Bay → Bay} (hf : ∀ b, (f b).latch = b.latch) : SamePlacing x s (updBay x f s) :=
  ⟨by rw [updBay_bays, Pair.get_upd_self]; exact hf _, parallelAllows_updBay f, rfl, rfl, by rw [updBay_bays, Pair.get_upd_other]⟩

theorem samePlacing_post (k : AttnKey) (d : Detail) : SamePlacing x s (post k d s) := ⟨rfl, rfl, rfl, rfl, rfl⟩

theorem samePlacing_mapCache (f : Line → Line) : SamePlacing x s (mapCache f s) := ⟨rfl, rfl, rfl, rfl, rfl⟩

theorem Placement.congr (h : Placement x b u t) (k : SamePlacing x s u) : Placement x b s t := by
  refine ⟨fun hp => h.online (k.places.mpr hp), fun hp => h.standby (mt k.places.mp hp), by rw [h.relay, k.relay], fun hp => h.on (k.places.mpr hp),
    fun hp => h.off (mt k.places.mp hp), fun hp => ?_, h.latch.trans k.latch⟩
  obtain ⟨hsw, hpres⟩ := h.quiet (mt k.places.mp hp)
  exact ⟨fun e => hsw (by rw [k.sw]; exact e), hpres.trans k.presence⟩

/-- A bay that has been placed, and what follows leaves it. -/
theorem Placement.rests {w : State} (h : Placement x b u t) (r : Rests x t w)
    (hq : ¬ placesOnline x u → noEventOf t w x.other) : Placement x b u w := by
  refine ⟨fun hp => r.bay.trans (h.online hp), fun hp => r.bay.trans (h.standby hp), r.relay.trans h.relay, fun hp => (r.sw_of_online (h.state_on hp)).trans (h.on hp),
    fun hp => r.off_or_held (h.off hp), fun hp => (h.quiet hp).trans (hq hp), h.latch⟩

theorem Placement.post (h : Placement x b u t) (k : AttnKey) (d : Detail) : Placement x b u (post k d t) :=
  h.rests (rests_post ..) fun _ => noEventOf.refl ..

theorem Placement.postProbeEnd (h : Placement x b u t) (c : Bay) (d : Detail) : Placement x b u (postProbeEnd c x d t) := by
  unfold Machine.postProbeEnd
  split
  · exact h.post ..
  · exact h

/-- The events that follow an action reach the other bay's side alone. -/
theorem settle_of_quiet (h : otherGone old s x.other = false) : settle old s = settleOne old s x.other s := by
  unfold settle
  cases x with
  | A => rw [settleOne_of_kept (x := .A) s h]; rfl
  | B =>
    have hB : ∀ e, settleOne old s .B e = e := fun e => settleOne_of_kept (x := .B) s h
    rw [hB]
    rfl

theorem noEventOf_standbyJoin (y : BayId) (s : State) : noEventOf s (standbyJoin y s) y :=
  standbyJoin_keeps (P := fun u => noEventOf s u y)
    (fun u hu _ _ _ => ⟨fun _ => sw_goOnline .., by rw [get_goOnline_self]; exact hu.2⟩) (noEventOf.refl s y)

/-- The events of an action leave a bay that takes none. -/
theorem noEventOf_settle (h : otherGone old s x.other = false) : noEventOf s (settle old s) x.other := by
  rw [settle_of_quiet h]
  unfold settleOne
  split
  · exact noEventOf_standbyJoin ..
  · exact noEventOf.refl ..

/-- A bay whose latch is open takes no event. -/
theorem rests_settle_of_open (hl : (s.bays.get x).latch = false) : Rests x s (settle old s) ∧ noEventOf s (settle old s) x.other := by
  refine settle_keeps (P := fun u => Rests x s u ∧ noEventOf s u x.other) (fun z u ⟨h, hq⟩ _ hlatch _ => ?_)
    ⟨Rests.refl x s, noEventOf.refl ..⟩
  have hx : x ≠ z := fun e => by
    rw [← e, h.bay, hl] at hlatch
    cases hlatch
  have hz : z = x.other := eq_other_of_ne fun e => hx e.symm
  have hrest := rests_goOnline_other z dTakeOver u
  rw [← eq_other_of_ne hx] at hrest
  subst hz
  exact ⟨h.trans hrest, fun _ => sw_goOnline .., by rw [get_goOnline_self]; exact hq.2⟩

/-- R25: a placed bay takes no event of its placement, where the row leaves the other bay's switch and presence. -/
theorem Placement.rests_settle (h : Placement x b u t)
    (hq : (u.bays.get x).latch = true → ¬ placesOnline x u → noEventOf old u x.other) :
    Rests x t (settle old t) ∧ (¬ placesOnline x u → noEventOf t (settle old t) x.other) := by
  by_cases hp : placesOnline x u
  · exact ⟨Machine.rests_settle (by rw [h.state_on hp]; decide), fun hn => absurd hp hn⟩
  · cases hl : (u.bays.get x).latch with
    | true =>
      have hgone : otherGone old t x.other = false := otherGone_of_noEvent ((hq hl hp).trans (h.quiet hp))
      exact ⟨rests_settle_of_kept hgone, fun _ => noEventOf_settle hgone⟩
    | false =>
      have hopen : (t.bays.get x).latch = false := by rw [h.standby hp, ← hl, ← h.latch]; rfl
      obtain ⟨hrest, hquiet⟩ := rests_settle_of_open (old := old) hopen
      exact ⟨hrest, fun _ => hquiet⟩

theorem Placement.settle (h : Placement x b u t)
    (hq : (u.bays.get x).latch = true → ¬ placesOnline x u → noEventOf old u x.other) : Placement x b u (settle old t) :=
  h.rests (h.rests_settle hq).1 (h.rests_settle hq).2

end Placement

/-! ### Steps 2 to 4 of R23 -/

section Fresh
variable {x : BayId} {s u v t old : State}

theorem matchContext_eq (x : BayId) (s : State) : matchContext x s = clearContext x (mapCache (fun l =>
    if l.valid ∧ l.bay = x ∧ l.state = .parked then (if contextMatches s x then { l with state := .fresh } else Line.invalid) else l) s) := by
  unfold matchContext cacheRestore cacheDropParked
  cases contextMatches s x <;> rfl

theorem samePlacing_matchContext (x : BayId) (s : State) : SamePlacing x s (matchContext x s) := by
  rw [matchContext_eq]
  exact (samePlacing_mapCache _).trans (samePlacing_updBay fun _ => rfl)

/-- R23, R39: what a fresh insertion leaves of the bay, the cache and the queue. -/
structure Inserted (x : BayId) (s t : State) : Prop where
  place : Placement x { s.bays.get x with context := none } s t
  done : placesOnline x s → queued t (.swapDone x) (if contextMatches s x then dReinsertion else dInsertion)
  cache : t.cache = s.cache.map (CacheSet.mapLines fun l => if l.valid ∧ l.bay = x ∧ l.state = .parked then
    (if contextMatches s x then { l with state := .fresh } else Line.invalid) else l)

theorem placement_placeSwitch_matched (x : BayId) (s : State) :
    Placement x { s.bays.get x with context := none } s (placeSwitch x (matchContext x s)) :=
  get_matchContext x s ▸ (placement_placeSwitch x (matchContext x s)).congr (samePlacing_matchContext x s)

theorem placeFresh_of_on (h : placesOnline x s) : placeFresh x s
    = post (.swapDone x) (if contextMatches s x then dReinsertion else dInsertion) (placeSwitch x (matchContext x s)) := by
  have hst := (placement_placeSwitch_matched x s).state_on h
  simp only [placeFresh, hst, if_true]

theorem placeFresh_of_off (h : ¬ placesOnline x s) : placeFresh x s = placeSwitch x (matchContext x s) := by
  have hst : ((placeSwitch x (matchContext x s)).bays.get x).state ≠ .online := by
    rw [(placement_placeSwitch_matched x s).state_off h]
    decide
  simp only [placeFresh, hst, if_false]

theorem baysOnly_placeSwitch (x : BayId) (s : State) : baysOnly s (placeSwitch x s) := by
  unfold placeSwitch
  split
  · exact ((baysOnly.refl s).requestOn x).setBayState x .online
  · exact ((baysOnly.refl s).switchOff x).setBayState x .standby

theorem rests_placeSwitch_other (x : BayId) (s : State) : Rests x.other s (placeSwitch x s) := by
  unfold placeSwitch
  split
  · exact (rests_requestOn_other x s).trans (rests_setBayState_other x .online _)
  · exact (rests_switchOff_other x s).trans (rests_setBayState_other x .standby _)

theorem OnKey.placeSwitch {K : AttnKey} {P : State → Prop} (k : OnKey K P) (hc : K ≠ .budgetCut) (h : P s) : P (placeSwitch x s) := by
  unfold Machine.placeSwitch
  split
  · exact k.setBayState hc x .online (k.requestOn hc x h)
  · exact k.setBayState hc x .standby (k.switchOff hc x h)

theorem inserted_placeFresh (x : BayId) (s : State) : Inserted x s (placeFresh x s) := by
  have hplace := placement_placeSwitch_matched x s
  have hcache := (baysOnly_placeSwitch x (matchContext x s)).cache.trans (congrArg State.cache (matchContext_eq x s))
  by_cases h : placesOnline x s
  · rw [placeFresh_of_on h]
    exact ⟨hplace.post .., fun _ => queued_post .., hcache⟩
  · rw [placeFresh_of_off h]
    exact ⟨hplace, fun hp => absurd hp h, hcache⟩

theorem rests_matchContext_other (x : BayId) (s : State) : Rests x.other s (matchContext x s) := by
  rw [matchContext_eq]
  exact (rests_mapCache ..).trans (rests_updBay_other ..)

theorem rests_placeFresh_other (x : BayId) (s : State) : Rests x.other s (placeFresh x s) := by
  have h := (rests_matchContext_other x s).trans (rests_placeSwitch_other x (matchContext x s))
  by_cases hp : placesOnline x s
  · rw [placeFresh_of_on hp]
    exact h.trans (rests_post ..)
  · rw [placeFresh_of_off hp]
    exact h

theorem OnKey.placeFresh {K : AttnKey} {P : State → Prop} (k : OnKey K P) (hc : K ≠ .budgetCut) (hx : K ≠ .swapDone x) (h : P s) :
    P (placeFresh x s) := by
  have hm : P (Machine.matchContext x s) := by
    rw [matchContext_eq]
    exact k.same s _ rfl h
  by_cases hp : placesOnline x s
  · rw [placeFresh_of_on hp]
    exact k.other _ _ _ hx.symm (k.placeSwitch hc hm)
  · rw [placeFresh_of_off hp]
    exact k.placeSwitch hc hm

theorem Inserted.rests (h : Inserted x s t) (r : Rests x t u) (hq : ¬ placesOnline x s → noEventOf t u x.other)
    (hd : placesOnline x s → ∀ d, queued t (.swapDone x) d → queued u (.swapDone x) d) (hc : u.cache = t.cache) : Inserted x s u :=
  ⟨h.place.rests r hq, fun hp => hd hp _ (h.done hp), hc.trans h.cache⟩

theorem Inserted.settle (h : Inserted x s t)
    (hq : (s.bays.get x).latch = true → ¬ placesOnline x s → noEventOf old s x.other) : Inserted x s (settle old t) := by
  obtain ⟨hrest, hquiet⟩ := h.place.rests_settle hq
  refine h.rests hrest hquiet (fun hp d hd => queued_settle (fun e => by cases e) (fun y hy => ?_) hd) (settle_baysOnly old t).cache
  cases hy
  rw [h.place.state_on hp]
  decide

theorem Inserted.placedFresh (h : Inserted x s t) : placedFresh x s t := by
  refine ⟨?_, ⟨fun hl ha => ⟨h.place.state_on ⟨hl, ha⟩, h.place.on ⟨hl, ha⟩⟩, fun hn => ⟨h.place.state_off hn, h.place.off hn⟩⟩,
    fun hl ha => h.done ⟨hl, ha⟩⟩
  by_cases hp : placesOnline x s
  · rw [h.place.online hp]
    rfl
  · rw [h.place.standby hp]
    rfl

end Fresh

end Sys2Proof.Machine
end

