-- ==== Sys2Proof/Proofs/Alike.lean ====
section
/-! PROOFS. Two states with the same power path, bays, snapshots and tables: what the switches and the bays do in one they do in the other, whatever the
budget, the queue and the links hold. -/

namespace Sys2Proof.Machine

/-- From `s` to `t` nothing changes that the switching and the placing of bays ask for. -/
structure Alike (s t : State) : Prop where
  pp : t.pp = s.pp
  bays : t.bays = s.bays
  tables : t.tables = s.tables
  flags : t.flags = s.flags
  motion : t.motion = s.motion
  snap : ∀ y, (t.relays.get y).snap = (s.relays.get y).snap

section Alike
variable {s t u : State} {x : BayId}

theorem Alike.refl (s : State) : Alike s s := ⟨rfl, rfl, rfl, rfl, rfl, fun _ => rfl⟩

theorem Alike.trans (h : Alike s t) (k : Alike t u) : Alike s u :=
  ⟨k.pp.trans h.pp, k.bays.trans h.bays, k.tables.trans h.tables, k.flags.trans h.flags, k.motion.trans h.motion,
   fun y => (k.snap y).trans (h.snap y)⟩

theorem Alike.symm (h : Alike s t) : Alike t s :=
  ⟨h.pp.symm, h.bays.symm, h.tables.symm, h.flags.symm, h.motion.symm, fun y => (h.snap y).symm⟩

/-- A change of the relay that keeps the snapshot. -/
theorem alike_updRelay {f : Relay → Relay} (hf : ∀ r, (f r).snap = r.snap) : Alike s (updRelay x f s) := by
  refine ⟨rfl, rfl, rfl, rfl, rfl, fun y => ?_⟩
  rw [updRelay_relays]
  by_cases hy : y = x
  · rw [hy, Pair.get_upd_self, hf]
  · rw [Pair.get_upd_ne _ hy]

theorem alike_post (k : AttnKey) (d : Detail) (s : State) : Alike s (post k d s) := ⟨rfl, rfl, rfl, rfl, rfl, fun _ => rfl⟩

theorem alike_mapCache (f : Line → Line) (s : State) : Alike s (mapCache f s) := ⟨rfl, rfl, rfl, rfl, rfl, fun _ => rfl⟩

theorem alike_recompute (s : State) : Alike s (recompute s) := by
  rw [recompute_eq]
  exact ⟨rfl, rfl, rfl, rfl, rfl, fun _ => rfl⟩

theorem snap_enter (st : BayState) (r : Relay) : (r.enter st).snap = r.snap := by
  unfold Relay.enter
  split
  · rfl
  split <;> rfl

variable (h : Alike s t)
include h

/-! ### What is asked -/

theorem Alike.otherConducts (x : BayId) : otherConducts t x = otherConducts s x :=
  otherConducts_congr (by rw [h.pp]) (by rw [h.pp]) (by rw [h.pp]) (by rw [h.bays])

theorem Alike.parallelAllows (x : BayId) : parallelAllows x t = parallelAllows x s :=
  parallelAllows_congr (by rw [h.pp]) (by rw [h.bays]) h.snap h.tables

theorem Alike.judged (x : BayId) : Judged x s t :=
  ⟨by rw [h.pp], by rw [h.pp], by rw [h.pp], by rw [h.pp], by rw [h.bays], h.snap, h.tables, h.flags, by rw [h.motion]⟩

theorem Alike.joins (x : BayId) : joins t x ↔ joins s x := by
  unfold Machine.joins
  rw [h.bays, h.parallelAllows]

/-! ### What is done -/

theorem Alike.power (f : PowerPath → PowerPath) : Alike { s with pp := f s.pp } { t with pp := f t.pp } :=
  ⟨congrArg f h.pp, h.bays, h.tables, h.flags, h.motion, h.snap⟩

theorem Alike.recompute : Alike (recompute s) (recompute t) := (alike_recompute s).symm.trans (h.trans (alike_recompute t))

theorem Alike.post (k : AttnKey) (d : Detail) : Alike (post k d s) (post k d t) :=
  (alike_post k d s).symm.trans (h.trans (alike_post k d t))

theorem Alike.setHeld (x : BayId) (v : Bool) : Alike (setHeld x v s) (setHeld x v t) :=
  h.power fun p => { p with held := p.held.upd x (fun _ => v) }

theorem Alike.updPower (f : PowerPath → PowerPath) : Alike (updPower f s) (updPower f t) := (h.power f).recompute

theorem Alike.setSwitch (x : BayId) (v : Switch) : Alike (setSwitch x v s) (setSwitch x v t) := by
  unfold Machine.setSwitch
  exact h.updPower _

theorem Alike.releaseHeldOne (x : BayId) : Alike (releaseHeldOne x s) (releaseHeldOne x t) := by
  unfold Machine.releaseHeldOne
  rw [h.pp, h.bays, h.otherConducts]
  split
  · exact h.setSwitch x .off
  · exact h

theorem Alike.releaseHeld : Alike (releaseHeld s) (releaseHeld t) := (h.releaseHeldOne .A).releaseHeldOne .B

theorem Alike.endBridge : Alike (endBridge s) (endBridge t) := by
  unfold Machine.endBridge
  rw [h.pp]
  split
  · exact h
  · exact h.updPower _

theorem Alike.switchOn (x : BayId) : Alike (switchOn x s) (switchOn x t) := by
  unfold Machine.switchOn
  rw [h.pp, h.bays]
  split
  · exact h.setHeld x false
  split
  · exact (h.setSwitch x .on).endBridge.releaseHeld
  · exact h.setSwitch x .on

theorem Alike.switchOff (x : BayId) : Alike (switchOff x s) (switchOff x t) := by
  unfold Machine.switchOff
  rw [h.pp, h.otherConducts]
  split
  · exact h.setHeld x false
  split
  · exact h.setSwitch x .off
  · exact h.setHeld x true

theorem Alike.requestOn (x : BayId) : Alike (requestOn x s) (requestOn x t) := by
  have hon := h.switchOn x
  unfold Machine.requestOn
  rw [hon.pp, hon.bays, h.pp]
  split
  · exact hon.switchOff x.other
  · exact hon

theorem Alike.updBay (x : BayId) (f : Bay → Bay) : Alike (updBay x f s) (updBay x f t) :=
  ⟨h.pp, congrArg (fun b => Pair.upd b x f) h.bays, h.tables, h.flags, h.motion, h.snap⟩

theorem Alike.setBayState (x : BayId) (st : BayState) : Alike (setBayState x st s) (setBayState x st t) := by
  have hrelay : ∀ w : State, Alike w (updRelay x (Relay.enter st) w) := fun _ => alike_updRelay (snap_enter st)
  exact ((hrelay _).symm.trans ((h.updBay x _).trans (hrelay _))).recompute

theorem Alike.goOnline (x : BayId) (d : Detail) : Alike (goOnline x d s) (goOnline x d t) :=
  ((h.requestOn x).setBayState x .online).post _ _

theorem Alike.standbyJoin (x : BayId) : Alike (standbyJoin x s) (standbyJoin x t) := by
  by_cases hj : Machine.joins s x
  · rw [standbyJoin_of_joins hj, standbyJoin_of_joins ((h.joins x).mpr hj)]
    exact h.goOnline x dTakeOver
  · rw [standbyJoin_of_not hj, standbyJoin_of_not (mt (h.joins x).mp hj)]
    exact h

end Alike

end Sys2Proof.Machine
end

