-- ==== Sys2Proof/Proofs/Admission.lean ====
section
/-! PROOFS. Admission (R22, R23, R35, R62, R72): the last read of a probe, a probe without reads, and what admission leaves. -/

namespace Sys2Proof.Machine

section Admission
variable {x : BayId} {s v t u old : State}

theorem contextMatches_congr (hc : (t.bays.get x).context = (s.bays.get x).context) (hn : (t.relays.get x).snap = (s.relays.get x).snap) :
    contextMatches t x = contextMatches s x := by
  unfold contextMatches serialOf
  rw [hc, hn]

/-- R39: both serials are present and equal. -/
theorem contextMatches_iff : contextMatches s x = true
    ↔ ∃ c n, (s.bays.get x).context = some c ∧ c.serial = some n ∧ (s.relays.get x).snap.serial = some n := by
  unfold contextMatches serialOf
  cases (s.bays.get x).context with
  | none => exact ⟨fun h => (by cases h), fun ⟨c, n, h, _, _⟩ => (by cases h)⟩
  | some c =>
    cases (s.relays.get x).snap.serial with
    | none => exact ⟨fun h => (by cases h), fun ⟨c, n, _, _, h⟩ => (by cases h)⟩
    | some n =>
      refine ⟨fun h => ⟨c, n, rfl, beq_iff_eq.mp h, rfl⟩, fun ⟨c', n', hc, hs, hn⟩ => ?_⟩
      cases hc
      cases hn
      exact beq_iff_eq.mpr hs

theorem admissionOk_congr (hn : (t.relays.get x).snap = (s.relays.get x).snap) (ht : t.tables = s.tables) :
    admissionOk t x = admissionOk s x := by
  unfold admissionOk vMin vMax statusFaultMask tempMax cfg inEffect
  rw [hn, ht]

/-- R22: the values that are present pass. -/
theorem admissionOk_iff : admissionOk s x = true ↔
    (∀ w, (s.relays.get x).snap.voltage = some w → vMin s ≤ w.toNat ∧ w.toNat ≤ vMax s)
      ∧ (∀ w, (s.relays.get x).snap.status = some w → w &&& statusFaultMask s = 0)
      ∧ (∀ w, (s.relays.get x).snap.temperature = some w → w.toInt < tempMax s) := by
  unfold admissionOk
  rw [Bool.and_eq_true, Bool.and_eq_true, and_assoc]
  refine and_congr ?_ (and_congr ?_ ?_)
  · cases (s.relays.get x).snap.voltage with
    | none => exact ⟨fun _ _ e => (by cases e), fun _ => rfl⟩
    | some w => simp
  · cases (s.relays.get x).snap.status with
    | none => exact ⟨fun _ _ e => (by cases e), fun _ => rfl⟩
    | some w => simp
  · cases (s.relays.get x).snap.temperature with
    | none => exact ⟨fun _ _ e => (by cases e), fun _ => rfl⟩
    | some w => simp

/-! ### The pack is admitted -/

/-- The pack's fault reason is cleared (R23, step 1). -/
def reasonCleared (x : BayId) (s : State) : State := updBay x (fun b => { b with faultReason := .none }) s

theorem samePlacing_reasonCleared : SamePlacing x s (reasonCleared x s) := samePlacing_updBay fun _ => rfl

theorem get_reasonCleared : (reasonCleared x s).bays.get x = { s.bays.get x with faultReason := .none } := Pair.get_upd_self ..

theorem contextMatches_reasonCleared : contextMatches (reasonCleared x s) x = contextMatches s x :=
  contextMatches_congr (by rw [get_reasonCleared]) rfl

/-- R23: an admitted pack, placed as a fresh insertion; a probe of Bay Probe ends. -/
structure Admitted (x : BayId) (v t : State) : Prop where
  inserted : Inserted x (reasonCleared x v) t
  ended : (v.bays.get x).state = .probing → (v.bays.get x).probeCause = .bayProbe → queued t (.linkDone x) dAdmitted

theorem placePack_of_ne (h : (s.bays.get x).probeCause ≠ .joltReturn) :
    placePack x s = postProbeEnd (s.bays.get x) x dAdmitted (placeFresh x (reasonCleared x s)) := if_neg h

theorem queued_postProbeEnd_of_ne {K : AttnKey} {d d' : Detail} {b : Bay} (hK : K ≠ .linkDone x) (h : queued s K d) :
    queued (postProbeEnd b x d' s) K d := (onKey_queued K d).postProbeEnd _ hK h

theorem admitted_placePack (h : (s.bays.get x).probeCause ≠ .joltReturn) : Admitted x s (placePack x s) := by
  rw [placePack_of_ne h]
  have hin := inserted_placeFresh x (reasonCleared x s)
  refine ⟨⟨hin.place.postProbeEnd _ _, fun hp => queued_postProbeEnd_of_ne (fun e => by cases e) (hin.done hp), ?_⟩,
    fun hb hc => queued_postProbeEnd _ hb hc⟩
  rw [(baysOnly_postProbeEnd ..).cache]
  exact hin.cache

theorem Admitted.settle (h : Admitted x v t)
    (hq : (v.bays.get x).latch = true → ¬ placesOnline x v → noEventOf old v x.other) : Admitted x v (settle old t) := by
  have hsame := samePlacing_reasonCleared (x := x) (s := v)
  refine ⟨h.inserted.settle fun hl hn => ?_, fun hb hc => queued_settle (fun e => by cases e) (fun y hy => by cases hy) (h.ended hb hc)⟩
  have hquiet := hq (hsame.latch ▸ hl) (mt hsame.places.mpr hn)
  exact ⟨fun e => hsame.sw ▸ hquiet.1 e, hsame.presence.trans hquiet.2⟩

theorem Admitted.placedFresh (h : Admitted x v t) : placedFresh x v t := by
  have hsame := samePlacing_reasonCleared (x := x) (s := v)
  have hp := h.inserted.placedFresh
  unfold Machine.placedFresh placedByLatch at hp ⊢
  rw [hsame.latch, hsame.allows, contextMatches_reasonCleared] at hp
  exact hp

theorem Admitted.cache (h : Admitted x v t) : t.cache = v.cache.map (CacheSet.mapLines fun l =>
    if l.valid ∧ l.bay = x ∧ l.state = .parked then (if contextMatches v x then { l with state := .fresh } else Line.invalid) else l) := by
  rw [h.inserted.cache, contextMatches_reasonCleared]
  rfl

/-- The record that placement leaves beside the state. -/
theorem Admitted.get (h : Admitted x v t) : ∃ st, t.bays.get x = Bay.enter st { v.bays.get x with faultReason := .none, context := none } := by
  have hb := h.inserted.place
  rw [get_reasonCleared] at hb
  by_cases hp : placesOnline x (reasonCleared x v)
  · exact ⟨_, hb.online hp⟩
  · exact ⟨_, hb.standby hp⟩

theorem Admitted.relay (h : Admitted x v t) : t.relays.get x = endProbe (v.relays.get x) := h.inserted.place.relay

theorem Admitted.state (h : Admitted x v t) : (t.bays.get x).state = .online ∨ (t.bays.get x).state = .standby := by
  by_cases hp : placesOnline x (reasonCleared x v)
  · exact .inl (h.inserted.place.state_on hp)
  · exact .inr (h.inserted.place.state_off hp)

/-! ### The pack is not admitted -/

/-- R35: the bay of a pack that fails admission. -/
structure NotAdmitted (x : BayId) (v t : State) : Prop where
  bay : t.bays.get x = markFaulted .admission ((v.bays.get x).enter .faulted)
  relay : t.relays.get x = (v.relays.get x).enter .faulted
  fault : queued t (.bayFault x) (dFault .admission)
  ended : (v.bays.get x).state = .probing → (v.bays.get x).probeCause = .bayProbe → queued t (.linkDone x) dNotAdmitted
  off : t.pp.sw.get x = .off ∨ t.pp.held.get x = true
  lines : ∀ cs ∈ t.cache, noFreshSet x cs

theorem notAdmitted_enterFault (x : BayId) (s : State) : NotAdmitted x s (enterFault x .admission s) :=
  ⟨get_enterFault .., relay_enterFault .., queued_enterFault .., fun hb hc => queued_enterFault_probe (why := .admission) hb hc,
   enterFault_off_or_held .., by rw [cache_enterFault]; exact noFresh_cacheDistrust x s⟩

theorem NotAdmitted.state (h : NotAdmitted x v t) : (t.bays.get x).state = .faulted := by
  rw [h.bay]
  rfl

theorem NotAdmitted.settle (h : NotAdmitted x v t) (old : State) : NotAdmitted x v (settle old t) := by
  have r := rests_settle (old := old) (s := t) (y := x) (by rw [h.state]; decide)
  exact ⟨r.bay.trans h.bay, r.relay.trans h.relay, queued_settle (fun e => by cases e) (fun y hy => by cases hy) h.fault,
    fun hb hc => queued_settle (fun e => by cases e) (fun y hy => by cases hy) (h.ended hb hc), r.off_or_held h.off,
    by rw [(settle_baysOnly old t).cache]; exact h.lines⟩

/-! ### Admission -/

theorem admitPack_of_ok (h : admissionOk s x = true) : admitPack x s = settle s (placePack x s) := by
  have hf : (if admissionOk s x then placePack x s else enterFault x .admission s) = placePack x s := if_pos h
  exact congrArg (settle s) hf

theorem admitPack_of_not (h : admissionOk s x = false) : admitPack x s = settle s (enterFault x .admission s) := by
  have hf : (if admissionOk s x then placePack x s else enterFault x .admission s) = enterFault x .admission s := if_neg (by rw [h]; decide)
  exact congrArg (settle s) hf

theorem admitted_admitPack (hok : admissionOk s x = true) (hc : (s.bays.get x).probeCause ≠ .joltReturn) : Admitted x s (admitPack x s) := by
  rw [admitPack_of_ok hok]
  exact (admitted_placePack hc).settle fun _ _ => noEventOf.refl ..

theorem notAdmitted_admitPack (hok : admissionOk s x = false) : NotAdmitted x s (admitPack x s) := by
  rw [admitPack_of_not hok]
  exact (notAdmitted_enterFault x s).settle s

/-! ### The pack of the other bay that has taken over -/

theorem rests_placePack_other (hc : (s.bays.get x).probeCause ≠ .joltReturn) : Rests x.other s (placePack x s) := by
  rw [placePack_of_ne hc]
  exact ((rests_updBay_other x _ s).trans (rests_placeFresh_other x _)).trans (rests_postProbeEnd ..)

theorem OnKey.placePack {K : AttnKey} {P : State → Prop} (k : OnKey K P) (hb : K ≠ .budgetCut) (hx : K ≠ .swapDone x)
    (hl : K ≠ .linkDone x) (hc : (s.bays.get x).probeCause ≠ .joltReturn) (h : P s) : P (placePack x s) := by
  rw [placePack_of_ne hc]
  exact k.postProbeEnd _ hl (k.placeFresh hb hx (k.same s _ rfl h))

theorem swapDone_other_ne (x : BayId) : AttnKey.swapDone x.other ≠ .swapDone x := fun e => other_ne x (AttnKey.swapDone.inj e)

theorem tookOver_admitPack (h : tookOver s x.other) (hc : admissionOk s x = true → (s.bays.get x).probeCause ≠ .joltReturn) :
    tookOver (admitPack x s) x.other := by
  cases hok : admissionOk s x with
  | true =>
    rw [admitPack_of_ok hok]
    exact (h.rests (rests_placePack_other (hc hok)) ((onKey_queued _ _).placePack (fun e => by cases e) (swapDone_other_ne x)
      (fun e => by cases e) (hc hok) h.2.2)).settle s
  | false =>
    rw [admitPack_of_not hok]
    exact (h.rests (rests_enterFault_other x .admission s) ((onKey_queued _ _).enterFault (x := x) (why := .admission)
      (fun e => by cases e) (fun e => by cases e) (fun e => by cases e) h.2.2)).settle s

end Admission

end Sys2Proof.Machine
end

