-- ==== Sys2Proof/Proofs/LastRead.lean ====
section
/-! PROOFS. The last read of a probe (R54, R62, R63, R25): the state in which admission judges the pack, and what it leaves (R22, R23, R35, R39, R99). -/

namespace Sys2Proof.Machine

section LastRead
variable {x : BayId} {s u v w t : State} {g : Tag} {n : Snapshot}

/-- From the start of the row to the state `v` in which the pack is judged; `u` is the state that the statement judges it in. -/
structure AtPlacing (x : BayId) (g : Tag) (n : Snapshot) (s u v : State) : Prop where
  alike : Alike u v
  bay : v.bays.get x = s.bays.get x
  idle : Idle 0 n (v.relays.get x)
  probe : (v.relays.get x).probe = none
  quiet : noEventOf s v x.other
  cache : v.cache = s.cache
  window : v.motion = s.motion
  flags : v.flags = s.flags
  took : g = .voltage → joins (withSnap x n s) x.other → tookOver v x.other
  law : (∀ y, bayLaw s y) → ∀ y, bayLaw v y

/-- The bay law at the end of the probe. -/
theorem bayLaw_lastRead {val : Half} (h : ∀ y, bayLaw s y) :
    ∀ y, bayLaw (updRelay x (fun r => { r with probe := none }) (updateSnapshot x g val (txClosed x false s))) y := by
  have hclosed : ∀ y, bayLaw (txClosed x false s) y := calm_bayLaws.same x _ (fun _ => ⟨rfl, rfl⟩) h
  have hread := (bayLaw_ops (.linkTimeout x)).updateSnapshot x g val hclosed
  exact calm_bayLaws.relay x _ _ ⟨rfl, fun e => by cases e⟩ hread

theorem standbyJoin_of_state (h : (s.bays.get x).state ≠ .standby) : standbyJoin x s = s := if_neg fun hc => h hc.1

/-- R25: beside a bay that is not STANDBY the value's event reaches the other bay alone. -/
theorem updateSnapshot_beside {val : Half} (h : (s.bays.get x).state ≠ .standby) (hw : (storeSnapshot x g val s).bays = s.bays) :
    updateSnapshot x g val s = if g = .voltage then standbyJoin x.other (storeSnapshot x g val s) else storeSnapshot x g val s := by
  unfold updateSnapshot
  split
  · cases x with
    | A =>
      have hA : standbyJoin .A (storeSnapshot .A g val s) = storeSnapshot .A g val s := standbyJoin_of_state (by rw [hw]; exact h)
      rw [hA]
      rfl
    | B =>
      have hrest : Rests .B _ (standbyJoin .A (storeSnapshot .B g val s)) := rests_standbyJoin_other .A (storeSnapshot .B g val s)
      exact standbyJoin_of_state (x := .B) (by rw [hrest.bay, hw]; exact h)
  · rfl

/-- The state after the last read, the other bay having taken its event. -/
theorem atPlacing_updateSnapshot {val : Half} (hst : (s.bays.get x).state = .probing) (hn : n = snapAfter s x g val) :
    AtPlacing x g n s (beforePlacing x g n s)
      (updRelay x (fun r => { r with probe := none }) (updateSnapshot x g val (txClosed x false s))) := by
  have hns : (s.bays.get x).state ≠ .standby := by rw [hst]; decide
  have hw := (readDone_txClosed x s).store g val
  have hbeside := updateSnapshot_beside (s := txClosed x false s) (g := g) (val := val) hns hw.bays
  have hbay : (updateSnapshot x g val (txClosed x false s)).bays.get x = s.bays.get x
      ∧ (updateSnapshot x g val (txClosed x false s)).relays.get x = (storeSnapshot x g val (txClosed x false s)).relays.get x :=
    (keptByJoins_rests hns _).updateSnapshot ⟨by rw [hw.bays], rfl⟩
  have hframe : baysOnly (storeSnapshot x g val (txClosed x false s)) (updateSnapshot x g val (txClosed x false s)) :=
    frame_updateSnapshot
  have hput : (s.relays.get x).snap.put g val = n := hn.symm
  have hlaw : (∀ y, bayLaw s y) → _ := bayLaw_lastRead (x := x) (g := g) (val := val)
  rw [hput] at hw
  have halike : Alike (withSnap x n s) (storeSnapshot x g val (txClosed x false s)) :=
    ⟨hw.pp, hw.bays, hw.tables, hw.flags, hw.motion, hw.snap⟩
  generalize storeSnapshot x g val (txClosed x false s) = w at hw hbeside hbay hframe halike
  generalize updateSnapshot x g val (txClosed x false s) = e at hbeside hbay hframe hlaw
  obtain ⟨hb, hr⟩ := hbay
  have hquiet : noEventOf s w x.other := ⟨fun h => by rw [hw.pp]; exact h, by rw [hw.bays]⟩
  have hget := Pair.get_upd_self e.relays x (fun r : Relay => { r with probe := none })
  obtain ⟨hlink, hcount, hsnap⟩ := hw.idle
  refine ⟨?_, hb, hget ▸ hr ▸ ⟨hlink, hcount, hsnap⟩, congrArg Relay.probe hget, ?_, hframe.cache.trans hw.cache,
    hframe.motion.trans hw.motion, hframe.flags.trans hw.flags, fun hg hj => ?_, hlaw⟩
  · refine Alike.trans ?_ (alike_updRelay fun _ => rfl)
    rw [hbeside, beforePlacing]
    split
    · exact halike.standbyJoin x.other
    · exact halike
  · rw [hbeside]
    split
    · exact hquiet.trans (noEventOf_standbyJoin ..)
    · exact hquiet
  · have hjw : joins w x.other := (hw.joins x.other).mpr hj
    rw [hbeside, if_pos hg, standbyJoin_of_joins hjw]
    exact tookOver_goOnline x.other w

/-- R62: the last read of a probe leads to admission. -/
theorem exec_lastProbeRead (lo hi : Byte) (h : lastProbeRead s x g) (hn : n = snapAfter s x g (hi ++ lo)) :
    ∃ v, exec (.packTransactionEnd x (.value lo hi)) s = .next (settle s (admitPack x v))
      ∧ AtPlacing x g n s (beforePlacing x g n s) v := by
  obtain ⟨hst, ⟨p, r, hp, hreads⟩, tx, hl, hpur, hk, rfl⟩ := h
  refine ⟨_, ?_, atPlacing_updateSnapshot hst hn⟩
  have hns : (s.bays.get x).state ≠ .standby := by rw [hst]; decide
  have hw := (readDone_txClosed x s).store tx.req.gov.tag (hi ++ lo)
  have hkeep : (updateSnapshot x tx.req.gov.tag (hi ++ lo) (txClosed x false s)).bays.get x = s.bays.get x
      ∧ (updateSnapshot x tx.req.gov.tag (hi ++ lo) (txClosed x false s)).relays.get x
        = (storeSnapshot x tx.req.gov.tag (hi ++ lo) (txClosed x false s)).relays.get x :=
    (keptByJoins_rests hns _).updateSnapshot ⟨by rw [hw.bays], rfl⟩
  have hprobe : ((updateSnapshot x tx.req.gov.tag (hi ++ lo) (txClosed x false s)).relays.get x).probe = some p := by
    rw [hkeep.2, hw.probe]
    exact hp
  have hhand : handProbe x tx.req (.doneValue (hi ++ lo)) (txClosed x false s)
      = probeAdvance x (updateSnapshot x tx.req.gov.tag (hi ++ lo) (txClosed x false s)) := rfl
  rw [exec_valueEnd hl hk, handOn_probe hpur, hhand, probeAdvance_of_last hprobe (by rw [hreads]; rfl)]

theorem AtPlacing.admissionOk (h : AtPlacing x g n s u v) : admissionOk v x = admissionOk u x :=
  admissionOk_congr (h.alike.snap x) h.alike.tables

theorem AtPlacing.contextMatches (h : AtPlacing x g n s u v) : contextMatches v x = contextMatches u x :=
  contextMatches_congr (by rw [h.alike.bays]) (h.alike.snap x)

theorem AtPlacing.snap (h : AtPlacing x g n s u v) : (u.relays.get x).snap = n := (h.alike.snap x).symm.trans h.idle.snap

theorem Alike.placedByLatch (h : Alike u v) : placedByLatch x v t ↔ placedByLatch x u t := by
  unfold Machine.placedByLatch
  rw [h.bays, h.parallelAllows]

theorem Alike.placedFresh (h : Alike u v) : placedFresh x v t ↔ placedFresh x u t := by
  unfold Machine.placedFresh
  rw [h.placedByLatch, h.bays, h.parallelAllows, contextMatches_congr (by rw [h.bays]) (h.snap x)]

theorem tables_beforePlacing : (beforePlacing x g n s).tables = s.tables := by
  unfold beforePlacing
  split
  · exact (standbyJoin_keeps (P := baysOnly (withSnap x n s)) (fun u h _ _ _ => (baysOnly_swaps _).goOnline x.other dTakeOver (fun e => e.elim) h)
      (baysOnly.refl _)).tables
  · rfl

theorem AtPlacing.tables (h : AtPlacing x g n s (beforePlacing x g n s) v) : v.tables = s.tables := h.alike.tables.trans tables_beforePlacing

end LastRead

/-- Settles O33: a pack whose last probe read is DONE is placed as a fresh insertion, or its bay is faulted. -/
theorem admissionPlacesThePack : Obligations.AdmissionPlacesThePack := by
  intro x s u g lo hi n hlast hn hu
  obtain ⟨v, hrow, hat⟩ := exec_lastProbeRead lo hi hlast hn
  rw [← hu] at hat
  have hst : (v.bays.get x).state = .probing := by rw [hat.bay]; exact hlast.1
  refine ⟨?_, fun hok => ?_, fun hok hc => ?_⟩
  · have ht : u.tables = s.tables := by rw [hu]; exact tables_beforePlacing
    rw [admissionOk_iff, hat.snap]
    unfold vMin vMax statusFaultMask tempMax cfg inEffect
    rw [ht]
  · rw [← hat.admissionOk] at hok
    have h := (notAdmitted_admitPack hok).settle s
    refine ⟨_, hrow, h.state, by rw [h.bay]; rfl, h.fault, ?_, fun hb => h.ended hst (by rw [hat.bay]; exact hb), fun hg hj => ?_⟩
    · have hcontext : ((settle s (admitPack x v)).bays.get x).context = (v.bays.get x).context := by rw [h.bay]; rfl
      rw [hcontext, hat.bay]
    · exact (tookOver_admitPack (hat.took hg hj) fun e => by rw [hok] at e; cases e).settle s
  · rw [← hat.admissionOk] at hok
    have hcause : (v.bays.get x).probeCause ≠ .joltReturn := by rw [hat.bay]; exact hc
    have h := (admitted_admitPack hok hcause).settle (old := s) fun _ _ => hat.quiet
    obtain ⟨st, hget⟩ := h.get
    refine ⟨_, hrow, by rw [hget]; rfl, by rw [h.relay]; rfl, ?_, ?_, fun hb => h.ended hst (by rw [hat.bay]; exact hb),
      hat.alike.placedFresh.mp h.placedFresh, fun hg hj => (tookOver_admitPack (hat.took hg hj) fun _ => hcause).settle s⟩
    · rw [h.cache, hat.cache, hat.contextMatches]
    · rw [← hat.contextMatches, contextMatches_iff, hat.bay, hat.idle.snap]

end Sys2Proof.Machine
end

