-- ==== Sys2Proof/Proofs/Probes.lean ====
section
/-! PROOFS. A bay that enters PROBING (R21, R62, R72): the probe that starts, and the one without reads that completes at once; Link Recover (R66, R67) and
Bay Probe (R45). -/

namespace Sys2Proof.Machine

section Probed
variable {x : BayId} {c : ProbeCause} {s t v old : State}

/-- The state in which the probe of a bay that has entered PROBING starts. -/
def probed (x : BayId) (c : ProbeCause) (s : State) : State :=
  cacheDistrust x (updBay x (fun b => { b with probeCause := c }) (setBayState x .probing s))

theorem enterProbing_eq (x : BayId) (c : ProbeCause) (s : State) : enterProbing x c s = startProbe x (probed x c s) := rfl

theorem get_probed (x : BayId) (c : ProbeCause) (s : State) :
    (probed x c s).bays.get x = { (s.bays.get x).enter .probing with probeCause := c } := by
  have h : (probed x c s).bays = (setBayState x .probing s).bays.upd x (fun b => { b with probeCause := c }) := rfl
  rw [h, Pair.get_upd_self, setBayState_bays, Pair.get_upd_self]

theorem relay_probed (x : BayId) (c : ProbeCause) (s : State) : (probed x c s).relays.get x = dropPending (s.relays.get x) := by
  have h : (probed x c s).relays = (setBayState x .probing s).relays := rfl
  rw [h, setBayState_relays, Pair.get_upd_self]
  rfl

theorem pp_probed (x : BayId) (c : ProbeCause) (s : State) : (probed x c s).pp = s.pp := setBayState_pp x .probing s

theorem rests_probed_other (x : BayId) (c : ProbeCause) (s : State) : Rests x.other s (probed x c s) :=
  ((rests_setBayState_other x .probing s).trans (rests_updBay_other x _ _)).trans (rests_mapCache ..)

theorem baysOnly_probing (x : BayId) (s : State) : baysOnly s (setBayState x .probing s) := (baysOnly.refl s).setBayState x .probing

theorem cache_probed (x : BayId) (c : ProbeCause) (s : State) : (probed x c s).cache = (cacheDistrust x s).cache :=
  congrArg (List.map (CacheSet.mapLines fun l => if l.bay = x then l.distrust else l)) (baysOnly_probing x s).cache

theorem tables_probed (x : BayId) (c : ProbeCause) (s : State) : (probed x c s).tables = s.tables := (baysOnly_probing x s).tables

theorem snap_probed (x : BayId) (c : ProbeCause) (s : State) (y : BayId) :
    ((probed x c s).relays.get y).snap = (s.relays.get y).snap := by
  by_cases hy : y = x
  · rw [hy, relay_probed]
    rfl
  · rw [eq_other_of_ne hy, (rests_probed_other x c s).relay]

theorem probeReads_congr (ht : t.tables = s.tables) (hi : t.mapInst = s.mapInst) : probeReads t = probeReads s := by
  unfold probeReads mapInService
  rw [ht, hi]

theorem probeReads_probed (x : BayId) (c : ProbeCause) (s : State) : probeReads (probed x c s) = probeReads s :=
  probeReads_congr (tables_probed x c s) (baysOnly_probing x s).mapInst

theorem admissionOk_probed (x : BayId) (c : ProbeCause) (s : State) : admissionOk (probed x c s) x = admissionOk s x :=
  admissionOk_congr (snap_probed x c s x) (tables_probed x c s)

theorem presence_probed (x : BayId) (c : ProbeCause) (s : State) (y : BayId) :
    ((probed x c s).bays.get y).presence = (s.bays.get y).presence := by
  by_cases hy : y = x
  · rw [hy, get_probed]
    rfl
  · rw [eq_other_of_ne hy, (rests_probed_other x c s).bay]

theorem parallelAllows_probed (x : BayId) (c : ProbeCause) (s : State) : parallelAllows x (probed x c s) = parallelAllows x s :=
  parallelAllows_congr (by rw [pp_probed]) (presence_probed x c s x.other) (snap_probed x c s) (tables_probed x c s)

theorem contextMatches_probed (x : BayId) (c : ProbeCause) (s : State) : contextMatches (probed x c s) x = contextMatches s x :=
  contextMatches_congr (by rw [get_probed]; rfl) (snap_probed x c s x)

theorem placedFresh_probed : placedFresh x (probed x c s) t ↔ placedFresh x s t := by
  have hl : ((probed x c s).bays.get x).latch = (s.bays.get x).latch := by rw [get_probed]; rfl
  unfold placedFresh placedByLatch
  rw [hl, parallelAllows_probed, contextMatches_probed]

theorem noEventOf_probed (x : BayId) (c : ProbeCause) (s : State) : noEventOf s (probed x c s) x.other :=
  ⟨fun h => by rw [pp_probed]; exact h, presence_probed x c s x.other⟩

/-! ### The probe starts, or completes at once (R62, R72) -/

theorem startProbe_of_none (h : probeReads s = []) : startProbe x s = admitPack x s := by simp only [startProbe, h]

theorem startProbe_of_some (h : probeReads s ≠ []) : startProbe x s = updRelay x (fun q => { q with
    probe := some { reads := probeReads s, attempts := 0, background := (s.bays.get x).probeCause == .bayProbe } }) s := by
  obtain ⟨r, rest, hr⟩ := List.exists_cons_of_ne_nil h
  simp only [startProbe, hr]

/-- The bay is PROBING and its probe waits for its first read. -/
structure ProbeWaits (x : BayId) (c : ProbeCause) (s t : State) : Prop where
  bay : t.bays.get x = { (s.bays.get x).enter .probing with probeCause := c }
  relay : t.relays.get x = { dropPending (s.relays.get x) with
    probe := some { reads := probeReads s, attempts := 0, background := c == .bayProbe } }
  pp : t.pp = s.pp
  presence : ∀ y, (t.bays.get y).presence = (s.bays.get y).presence
  other : Rests x.other s t
  cache : t.cache = (cacheDistrust x s).cache

theorem probeWaits_enterProbing (h : probeReads s ≠ []) : ProbeWaits x c s (enterProbing x c s) := by
  rw [enterProbing_eq, startProbe_of_some (by rw [probeReads_probed]; exact h)]
  refine ⟨get_probed x c s, ?_, pp_probed x c s, presence_probed x c s, (rests_probed_other x c s).trans (rests_updRelay_other ..),
    cache_probed x c s⟩
  rw [updRelay_relays, Pair.get_upd_self, relay_probed, get_probed, probeReads_probed]

theorem enterProbing_of_none (h : probeReads s = []) : enterProbing x c s = admitPack x (probed x c s) := by
  rw [enterProbing_eq, startProbe_of_none (by rw [probeReads_probed]; exact h)]

theorem ProbeWaits.settle_self (h : ProbeWaits x c s t) : settle s t = t := settle_of_level (by rw [h.pp]) h.presence

/-! ### Postings of other keys after the placement -/

theorem Admitted.post_of_cause (h : Admitted x v t) (k : AttnKey) (d : Detail) (hk : ∀ y, k ≠ .swapDone y)
    (hc : (v.bays.get x).probeCause ≠ .bayProbe) : Admitted x v (post k d t) :=
  ⟨⟨h.inserted.place.post k d, fun hp => queued_post_of_ne d (hk x) (h.inserted.done hp), h.inserted.cache⟩, fun _ e => absurd e hc⟩

theorem NotAdmitted.post_of_cause (h : NotAdmitted x v t) (k : AttnKey) (d : Detail) (hk : k ≠ .bayFault x)
    (hc : (v.bays.get x).probeCause ≠ .bayProbe) : NotAdmitted x v (post k d t) :=
  ⟨h.bay, h.relay, queued_post_of_ne d hk h.fault, fun _ e => absurd e hc, h.off, h.lines⟩

end Probed

/-! ### Link Recover (R66, R67) -/

section Recover
variable {x : BayId} {s : State}

theorem exec_linkRecover_of {t : State} {b : Byte} {code : ResultCode} {data : List Byte} (h : accepts s) (hb : bayOfByte b = some x)
    (ht : linkRecover x (begun s) = (t, ⟨code, data⟩)) : exec (.linkRecover [b]) s = .next (ended t code data) := by
  have hrow : exec (.linkRecover [b]) s = .next (manage (withBay [b] linkRecover) s) := rfl
  rw [hrow, manage_of_accepts h ((withBay_of_some hb _ _).trans ht)]

theorem linkRecover_of_absent (h : (s.bays.get x).state = .empty ∨ (s.bays.get x).state = .seating ∨ (s.bays.get x).state = .jolt) :
    linkRecover x s = (s, bareFrame .state) := by
  unfold linkRecover
  obtain h | h | h := h <;> rw [h]

theorem linkRecover_of_probing (h : (s.bays.get x).state = .probing) : linkRecover x s = (s, bareFrame .busy) := by
  unfold linkRecover
  rw [h]

theorem linkRecover_of_served (h : steady (s.bays.get x).state = true ∨ (s.bays.get x).state = .faulted) : linkRecover x s =
    if (s.relays.get x).recover = .notRunning then (updRelay x acceptRecover s, bareFrame .accepted) else (s, bareFrame .busy) := by
  unfold linkRecover
  cases hst : (s.bays.get x).state with
  | standby => rfl
  | online => rfl
  | releasing => rfl
  | faulted => rfl
  | empty => rw [hst] at h; exact absurd h (by decide)
  | seating => rw [hst] at h; exact absurd h (by decide)
  | probing => rw [hst] at h; exact absurd h (by decide)
  | jolt => rw [hst] at h; exact absurd h (by decide)

theorem exec_linkRecoverBegin (x : BayId) (s : State) : exec (.linkRecoverBegin x) s = .next (beginRecover x s) := rfl

theorem exec_linkRecoverEnd (x : BayId) (o : Option Nat) (s : State) : exec (.linkRecoverEnd x o) s = .next (settle s (endRecover x o s)) := rfl

/-- The recovery has ended. -/
def recoverStopped (x : BayId) (s : State) : State := updRelay x (fun r => { r with recover := .notRunning }) s

theorem endRecover_of_not (h : (s.relays.get x).recover ≠ .running) (o : Option Nat) : endRecover x o s = s := if_neg h

theorem endRecover_of_held (h : (s.relays.get x).recover = .running) :
    endRecover x none s = post (.linkDone x) dRecoverFail (recoverStopped x s) := by
  rw [endRecover, if_pos h]
  rfl

theorem endRecover_of_released {k : Nat} (h : (s.relays.get x).recover = .running) (hk : k ≤ 16) :
    endRecover x (some k) s = post (.linkDone x) dRecoverOk (recovered x (recoverStopped x s)) := by
  have hok : recoverOk (some k) = true := decide_eq_true hk
  rw [endRecover, if_pos h]
  simp only [hok, if_true]
  rfl

/-- The count cleared by RECOVER_OK. -/
def recoverCleared (x : BayId) (s : State) : State := updRelay x (fun r => { r with recover := .notRunning, failCount := 0 }) s

theorem recovered_of_not (h : ¬ ((s.bays.get x).state = .faulted ∧ (s.bays.get x).faultReason = .link)) :
    recovered x (recoverStopped x s) = recoverCleared x s := by
  have hno : ¬ (((recoverStopped x s).bays.get x).state = .faulted ∧ ((recoverStopped x s).bays.get x).faultReason = .link) := h
  exact (if_neg hno).trans (updRelay_updRelay ..)

theorem recovered_of_link (hf : (s.bays.get x).state = .faulted) (hr : (s.bays.get x).faultReason = .link) :
    recovered x (recoverStopped x s) = enterProbing x .insertion (recoverCleared x s) := by
  have hyes : ((recoverStopped x s).bays.get x).state = .faulted ∧ ((recoverStopped x s).bays.get x).faultReason = .link := ⟨hf, hr⟩
  exact (if_pos hyes).trans (congrArg (enterProbing x .insertion) (updRelay_updRelay ..))

theorem get_recoverCleared (x : BayId) (s : State) :
    (recoverCleared x s).relays.get x = { s.relays.get x with recover := .notRunning, failCount := 0 } := Pair.get_upd_self ..

theorem alike_recoverCleared (x : BayId) (s : State) : Alike s (recoverCleared x s) := alike_updRelay fun _ => rfl

theorem settle_post_updRelay (k : AttnKey) (d : Detail) (f : Relay → Relay) :
    settle s (post k d (updRelay x f s)) = post k d (updRelay x f s) := settle_of_level rfl fun _ => rfl

end Recover

/-- R67: the faulted bay whose link has recovered probes its pack. -/
theorem linkRecoverEnd_probes {x : BayId} {s : State} {k : Nat} (hrun : (s.relays.get x).recover = .running) (hk : k ≤ 16)
    (hf : (s.bays.get x).state = .faulted) (hr : (s.bays.get x).faultReason = .link) (hreads : probeReads s ≠ []) :
    ∃ t, exec (.linkRecoverEnd x (some k)) s = .next (post (.linkDone x) dRecoverOk t) ∧ ProbeWaits x .insertion (recoverCleared x s) t := by
  have hw : ProbeWaits x .insertion (recoverCleared x s) (enterProbing x .insertion (recoverCleared x s)) := probeWaits_enterProbing hreads
  refine ⟨_, ?_, hw⟩
  rw [exec_linkRecoverEnd, endRecover_of_released hrun hk, recovered_of_link hf hr]
  exact congrArg _ (settle_of_level (by exact congrArg PowerPath.sw hw.pp) hw.presence)

/-- R67, R72: without reads the pack is judged at once. -/
theorem linkRecoverEnd_admits {x : BayId} {s : State} {k : Nat} (hrun : (s.relays.get x).recover = .running) (hk : k ≤ 16)
    (hf : (s.bays.get x).state = .faulted) (hr : (s.bays.get x).faultReason = .link) (hreads : probeReads s = []) :
    ∃ t, exec (.linkRecoverEnd x (some k)) s = .next t ∧ queued t (.linkDone x) dRecoverOk
      ∧ (admissionOk s x = true → Admitted x (probed x .insertion (recoverCleared x s)) t)
      ∧ (admissionOk s x = false → NotAdmitted x (probed x .insertion (recoverCleared x s)) t) := by
  have hcause : ((probed x .insertion (recoverCleared x s)).bays.get x).probeCause ≠ .bayProbe := by
    rw [get_probed]
    exact (by decide : ProbeCause.insertion ≠ .bayProbe)
  have hjolt : ((probed x .insertion (recoverCleared x s)).bays.get x).probeCause ≠ .joltReturn := by
    rw [get_probed]
    exact (by decide : ProbeCause.insertion ≠ .joltReturn)
  have hok : admissionOk (probed x .insertion (recoverCleared x s)) x = admissionOk s x :=
    (admissionOk_probed x .insertion _).trans (admissionOk_congr ((alike_recoverCleared x s).snap x) rfl)
  have hend : endRecover x (some k) s = post (.linkDone x) dRecoverOk (admitPack x (probed x .insertion (recoverCleared x s))) := by
    rw [endRecover_of_released hrun hk, recovered_of_link hf hr, enterProbing_of_none (s := recoverCleared x s) hreads]
  refine ⟨_, exec_linkRecoverEnd x (some k) s, ?_, fun h => ?_, fun h => ?_⟩
  · rw [hend]
    exact queued_settle (fun e => by cases e) (fun y hy => by cases hy) (queued_post ..)
  · rw [hend]
    refine ((admitted_admitPack (hok.trans h) hjolt).post_of_cause _ _ (fun y e => by cases e) hcause).settle fun _ _ => ?_
    exact noEventOf_probed x .insertion (recoverCleared x s)
  · rw [hend]
    exact ((notAdmitted_admitPack (hok.trans h)).post_of_cause _ _ (fun e => by cases e) hcause).settle s

/-- Settles O35: Link Recover by the state of the bay, its begin and its end. -/
theorem linkRecoverIsTakenAndRuns : Obligations.LinkRecoverIsTakenAndRuns := by
  refine ⟨fun x b s hb h => ⟨fun hst => ?absent, fun hst => ?probing, fun hst => ⟨fun hr => ?busy, fun hr => ?taken⟩⟩,
    fun x s => ⟨fun hr hl => ?begins, fun hn => ?not, fun o hr => ?ended, fun hr => ?held, fun k hr hk => ⟨fun hn => ?ok, fun hf hl hreads => ?probe,
      fun hf hl hreads => ?placed⟩⟩⟩
  case absent => exact exec_linkRecover_of h hb (linkRecover_of_absent (s := begun s) hst)
  case probing => exact exec_linkRecover_of h hb (linkRecover_of_probing (s := begun s) hst)
  case busy => exact exec_linkRecover_of h hb ((linkRecover_of_served (s := begun s) hst).trans (if_neg hr))
  case taken => exact exec_linkRecover_of h hb ((linkRecover_of_served (s := begun s) hst).trans (if_pos hr))
  case begins =>
    have hlink : (s.relays.get x).link.isNone = true := by rw [hl]; rfl
    rw [exec_linkRecoverBegin, beginRecover, if_pos ⟨hr, hlink⟩]
  case not =>
    rw [exec_linkRecoverBegin, beginRecover, if_neg fun hc => hn ⟨hc.1, Option.isNone_iff_eq_none.mp hc.2⟩]
  case ended => rw [exec_linkRecoverEnd, endRecover_of_not hr, settle_self]
  case held =>
    rw [exec_linkRecoverEnd, endRecover_of_held hr]
    exact congrArg _ (settle_post_updRelay ..)
  case ok =>
    rw [exec_linkRecoverEnd, endRecover_of_released hr hk, recovered_of_not hn]
    exact congrArg _ (settle_post_updRelay ..)
  case probe =>
    obtain ⟨t, hrow, hw⟩ := linkRecoverEnd_probes hr hk hf hl hreads
    have hrelay := hw.relay
    rw [get_recoverCleared] at hrelay
    have hr' : (post (.linkDone x) dRecoverOk t).relays.get x = t.relays.get x := rfl
    have hb' : (post (.linkDone x) dRecoverOk t).bays.get x = t.bays.get x := rfl
    refine ⟨_, hrow, by rw [hb', hw.bay]; rfl, by rw [hb', hw.bay], by rw [hr', hrelay]; rfl, by rw [hr', hrelay]; rfl, ?_, hw.pp, queued_post ..⟩
    rw [hr', hrelay]
    rfl
  case placed =>
    obtain ⟨t, hrow, hq, hyes, hno⟩ := linkRecoverEnd_admits hr hk hf hl hreads
    have hplaced : ∀ u, placedFresh x (probed x .insertion (recoverCleared x s)) u ↔ placedFresh x s u := fun u =>
      placedFresh_probed.trans (alike_recoverCleared x s).placedFresh
    have hrelay := relay_probed x .insertion (recoverCleared x s)
    rw [get_recoverCleared] at hrelay
    cases hok : admissionOk s x with
    | true =>
      have hin := hyes hok
      obtain ⟨st, hget⟩ := hin.get
      have hfin := hin.relay
      rw [hrelay] at hfin
      rw [get_probed] at hget
      exact ⟨t, hrow, by rw [hget]; rfl, by rw [hfin]; rfl, by rw [hfin]; rfl, by rw [hfin]; rfl, by rw [hfin]; rfl, hq,
        fun _ => ⟨by rw [hget]; rfl, (hplaced t).mp hin.placedFresh⟩, fun e => by cases e⟩
    | false =>
      have hout := hno hok
      have hfin := hout.relay
      have hbay := hout.bay
      rw [hrelay] at hfin
      rw [get_probed] at hbay
      exact ⟨t, hrow, by rw [hbay]; rfl, by rw [hfin]; rfl, by rw [hfin]; rfl, by rw [hfin]; rfl, by rw [hfin]; rfl, hq,
        fun e => (by cases e), fun _ => ⟨hout.state, by rw [hbay]; rfl, hout.fault, by rw [hbay]; rfl⟩⟩

end Sys2Proof.Machine
end

