-- ==== Sys2Proof/Proofs/BayCommands.lean ====
section
/-! PROOFS. Bay Return and Bay Probe (R44, R45, R62, R65, R72), and the bay commands in states that do not take them. -/

namespace Sys2Proof.Machine

section Commands
variable {x : BayId} {s t : State} {b : Byte} {code : ResultCode} {data : List Byte}

theorem exec_bayReturn_of (h : accepts s) (hb : bayOfByte b = some x) (ht : bayReturn x (begun s) = (t, ⟨code, data⟩)) :
    exec (.bayReturn [b]) s = .next (ended t code data) := by
  have hrow : exec (.bayReturn [b]) s = .next (manage (withBay [b] bayReturn) s) := rfl
  rw [hrow, manage_of_accepts h ((withBay_of_some hb _ _).trans ht)]

theorem exec_bayProbe_of (h : accepts s) (hb : bayOfByte b = some x) (ht : bayProbe x (begun s) = (t, ⟨code, data⟩)) :
    exec (.bayProbe [b]) s = .next (ended t code data) := by
  have hrow : exec (.bayProbe [b]) s = .next (manage (withBay [b] bayProbe) s) := rfl
  rw [hrow, manage_of_accepts h ((withBay_of_some hb _ _).trans ht)]

/-! ### Bay Return (R44) -/

theorem bayReturn_of_not (h : ¬ ((s.bays.get x).state = .releasing ∧ (s.bays.get x).latch = true)) :
    bayReturn x s = (s, bareFrame .state) := if_neg h

theorem bayReturn_of_taken (h : (s.bays.get x).state = .releasing) (hl : (s.bays.get x).latch = true) : bayReturn x s
    = (settle s (returnBay x s), okFrame [byteOf (bayStateCode ((settle s (returnBay x s)).bays.get x).state)]) := if_pos ⟨h, hl⟩

/-- R30: a bay with its latch closed returns as a pack is placed (R23, step 3). -/
theorem returnBay_of_closed (hl : (s.bays.get x).latch = true) : returnBay x s = placeSwitch x s := by
  unfold returnBay placeSwitch
  rw [hl]
  simp only [true_and]

theorem placement_returnBay (hl : (s.bays.get x).latch = true) : Placement x (s.bays.get x) s (settle s (returnBay x s)) := by
  rw [returnBay_of_closed hl]
  exact (placement_placeSwitch x s).settle fun _ _ => noEventOf.refl ..

/-! ### Bay Probe (R45) -/

theorem bayProbe_of_state (hf : (s.bays.get x).state ≠ .faulted) (hs : (s.bays.get x).state ≠ .standby) :
    bayProbe x s = (s, bareFrame .state) := if_neg fun h => h.elim hf hs

theorem bayProbe_of_busy (h : (s.bays.get x).state = .faulted ∨ (s.bays.get x).state = .standby) (hb : background s x = true) :
    bayProbe x s = (s, bareFrame .busy) := (if_pos h).trans (if_pos hb)

theorem bayProbe_of_taken (h : (s.bays.get x).state = .faulted ∨ (s.bays.get x).state = .standby) (hb : background s x = false) :
    bayProbe x s = (startBayProbe x s, bareFrame .accepted) := (if_pos h).trans (if_neg (by rw [hb]; decide))

theorem background_of_probe {p : Probe} (h : (s.relays.get x).probe = some p) (hb : p.background = true) : background s x = true := by
  unfold background
  rw [h]
  simp only [hb, Bool.or_true]

theorem background_of_none (hr : (s.relays.get x).recover = .notRunning) (hp : (s.relays.get x).probe = none) : background s x = false := by
  unfold background
  rw [hp, hr]
  rfl

theorem recover_of_background (h : background s x = false) : (s.relays.get x).recover = .notRunning := by
  unfold background at h
  rw [Bool.or_eq_false_iff] at h
  exact bne_eq_false_iff_eq.mp h.1

/-- The count cleared by Bay Probe (R65). -/
def countCleared (x : BayId) (s : State) : State := updRelay x (fun r => { r with failCount := 0 }) s

theorem get_countCleared (x : BayId) (s : State) : (countCleared x s).relays.get x = { s.relays.get x with failCount := 0 } :=
  Pair.get_upd_self ..

theorem alike_countCleared (x : BayId) (s : State) : Alike s (countCleared x s) := alike_updRelay fun _ => rfl

theorem startBayProbe_eq (x : BayId) (s : State) :
    startBayProbe x s = settle (countCleared x s) (enterProbing x .bayProbe (countCleared x s)) := rfl

theorem startBayProbe_waits (h : probeReads s ≠ []) : ProbeWaits x .bayProbe (countCleared x s) (startBayProbe x s) := by
  have hw : ProbeWaits x .bayProbe (countCleared x s) (enterProbing x .bayProbe (countCleared x s)) := probeWaits_enterProbing h
  rw [startBayProbe_eq, hw.settle_self]
  exact hw

theorem admissionOk_bayProbe : admissionOk (probed x .bayProbe (countCleared x s)) x = admissionOk s x :=
  (admissionOk_probed x .bayProbe _).trans (admissionOk_congr ((alike_countCleared x s).snap x) rfl)

theorem startBayProbe_of_none (h : probeReads s = []) :
    startBayProbe x s = settle (countCleared x s) (admitPack x (probed x .bayProbe (countCleared x s))) := by
  rw [startBayProbe_eq, enterProbing_of_none (s := countCleared x s) h]

theorem startBayProbe_admits (h : probeReads s = []) (hok : admissionOk s x = true) :
    Admitted x (probed x .bayProbe (countCleared x s)) (startBayProbe x s) := by
  have hjolt : ((probed x .bayProbe (countCleared x s)).bays.get x).probeCause ≠ .joltReturn := by
    rw [get_probed]
    exact (by decide : ProbeCause.bayProbe ≠ .joltReturn)
  rw [startBayProbe_of_none h]
  exact (admitted_admitPack (admissionOk_bayProbe.trans hok) hjolt).settle fun _ _ => noEventOf_probed x .bayProbe (countCleared x s)

theorem startBayProbe_refuses (h : probeReads s = []) (hok : admissionOk s x = false) :
    NotAdmitted x (probed x .bayProbe (countCleared x s)) (startBayProbe x s) := by
  rw [startBayProbe_of_none h]
  exact (notAdmitted_admitPack (admissionOk_bayProbe.trans hok)).settle _

theorem map_mapLines (f g : Line → Line) (c : List CacheSet) :
    (c.map (CacheSet.mapLines f)).map (CacheSet.mapLines g) = c.map (CacheSet.mapLines fun l => g (f l)) := by
  rw [List.map_map]
  rfl

/-- R95, R99: the notice of the probe and that of the placement, on one line. -/
theorem cache_startBayProbe (h : Admitted x (probed x .bayProbe (countCleared x s)) t) :
    t.cache = s.cache.map (CacheSet.mapLines fun l => if l.valid ∧ l.bay = x then
      (if l.state = .fresh then { l with state := .suspect }
       else if l.state = .parked then (if contextMatches s x then { l with state := .fresh } else Line.invalid) else l) else l) := by
  have hm : contextMatches (probed x .bayProbe (countCleared x s)) x = contextMatches s x :=
    (contextMatches_probed x .bayProbe _).trans (contextMatches_congr rfl ((alike_countCleared x s).snap x))
  rw [h.cache, hm, cache_probed]
  refine (map_mapLines _ _ s.cache).trans (congrArg (fun f => s.cache.map (CacheSet.mapLines f)) (funext fun l => ?_))
  obtain ⟨valid, bay, code, value, state, age⟩ := l
  by_cases hb : bay = x
  · cases valid <;> cases state <;> simp [hb, Line.distrust]
  · simp [hb]

end Commands

/-- Settles O26: the bay commands by the state of the bay. -/
theorem bayReturnAndBayProbe : Obligations.BayReturnAndBayProbe := by
  refine ⟨fun x b s hb h => ⟨fun hst => ?release, fun hst => ?noReturn, fun hf hs => ?noProbe, fun hst hbg => ?busy⟩,
    fun x b s hb h hst hl => ?returns, fun x b s hb h hst hbg => ?probes⟩
  case release => exact exec_bayRelease_of h hb (bayRelease_of_not (s := begun s) hst)
  case noReturn => exact exec_bayReturn_of h hb (bayReturn_of_not (s := begun s) hst)
  case noProbe => exact exec_bayProbe_of h hb (bayProbe_of_state (s := begun s) hf hs)
  case busy => exact exec_bayProbe_of h hb (bayProbe_of_busy (s := begun s) hst hbg)
  case returns =>
    have hplace := placement_returnBay (x := x) (s := begun s) hl
    have hallows : parallelAllows x (begun s) = parallelAllows x s := rfl
    refine ⟨_, exec_bayReturn_of h hb (bayReturn_of_taken (s := begun s) hst hl), fun ha => ?_, fun ha => ?_⟩
    · have hp : placesOnline x (begun s) := ⟨hl, hallows.trans ha⟩
      refine ⟨hplace.state_on hp, hplace.on hp, ?_⟩
      rw [hplace.state_on hp]
      rfl
    · have hp : ¬ placesOnline x (begun s) := fun hc => by
        have htrue := hallows.symm.trans hc.2
        rw [ha] at htrue
        cases htrue
      refine ⟨hplace.state_off hp, ?_⟩
      rw [hplace.state_off hp]
      rfl
  case probes =>
    have hrow := exec_bayProbe_of h hb (bayProbe_of_taken (s := begun s) hst hbg)
    have hrecover := recover_of_background hbg
    have hrelays : ∀ u : State, (ended u .accepted []).relays.get x = u.relays.get x := fun _ => rfl
    have hbays : ∀ u : State, ∀ y, (ended u .accepted []).bays.get y = u.bays.get y := fun _ _ => rfl
    have hprobed := relay_probed x .bayProbe (countCleared x (begun s))
    rw [get_countCleared] at hprobed
    by_cases hreads : probeReads s = []
    · cases hok : admissionOk s x with
      | true =>
        have hin := startBayProbe_admits (s := begun s) hreads hok
        obtain ⟨st, hget⟩ := hin.get
        have hfin := hin.relay
        rw [hprobed] at hfin
        have hstate : ((probed x .bayProbe (countCleared x (begun s))).bays.get x).state = .probing
            ∧ ((probed x .bayProbe (countCleared x (begun s))).bays.get x).probeCause = .bayProbe := by
          rw [get_probed]
          exact ⟨rfl, rfl⟩
        rw [get_probed] at hget
        have hfresh : placedFresh x s (startBayProbe x (begun s)) :=
          (alike_countCleared x (begun s)).placedFresh.mp (placedFresh_probed.mp hin.placedFresh)
        have hcache := cache_startBayProbe hin
        refine ⟨_, hrow, rfl, by rw [hbays, hget]; rfl, by rw [hrelays, hfin]; rfl, by rw [hrelays, hfin]; rfl, fun hn => absurd hreads hn,
          fun _ => ⟨by rw [hrelays, hfin]; rfl, background_of_none ?_ ?_, fun _ => ⟨by rw [hbays, hget]; rfl,
            hin.ended hstate.1 hstate.2, hfresh, ?_⟩, fun e => by cases e⟩⟩
        · rw [hrelays, hfin]
          exact hrecover
        · rw [hrelays, hfin]
          rfl
        · refine hcache.trans (congrArg (fun f => s.cache.map (CacheSet.mapLines f)) (funext fun l => ?_))
          obtain ⟨valid, bay, code, value, state, age⟩ := l
          cases state <;> rfl
      | false =>
        have hout := startBayProbe_refuses (s := begun s) hreads hok
        have hfin := hout.relay
        have hbay := hout.bay
        have hstate : ((probed x .bayProbe (countCleared x (begun s))).bays.get x).state = .probing
            ∧ ((probed x .bayProbe (countCleared x (begun s))).bays.get x).probeCause = .bayProbe := by
          rw [get_probed]
          exact ⟨rfl, rfl⟩
        rw [hprobed] at hfin
        rw [get_probed] at hbay
        refine ⟨_, hrow, rfl, by rw [hbays, hbay]; rfl, by rw [hrelays, hfin]; rfl, by rw [hrelays, hfin]; rfl, fun hn => absurd hreads hn,
          fun _ => ⟨by rw [hrelays, hfin]; rfl, background_of_none ?_ ?_, fun e => (by cases e), fun _ => ⟨hout.state, by rw [hbays, hbay]; rfl,
            hout.fault, hout.ended hstate.1 hstate.2, by rw [hbays, hbay]; rfl, hout.lines⟩⟩⟩
        · rw [hrelays, hfin]
          exact hrecover
        · rw [hrelays, hfin]
          rfl
    · have hw := startBayProbe_waits (x := x) (s := begun s) hreads
      have hfin := hw.relay
      rw [get_countCleared] at hfin
      refine ⟨_, hrow, rfl, by rw [hbays, hw.bay], by rw [hrelays, hfin]; rfl, by rw [hrelays, hfin]; rfl, fun _ => ⟨by rw [hbays, hw.bay]; rfl,
        by rw [hrelays, hfin]; rfl, background_of_probe (by rw [hrelays, hfin]) rfl, hw.pp, ?_, ?_⟩, fun e => absurd e hreads⟩
      · exact hw.other.bay
      · have hlines := noFresh_cacheDistrust x (countCleared x (begun s))
        rw [← hw.cache] at hlines
        exact hlines

end Sys2Proof.Machine
end

