-- ==== Sys2Proof/Proofs/Records.lean ====
section
/-! PROOFS. What the switching of bays leaves of a bay's record, and an evaluation beside a bay that is not STANDBY (R26). -/

namespace Sys2Proof.Machine

/-! ### The record (R13, R23, R34, R38) -/

/-- The part of a bay's record that no switching of bays changes: lines, debounces, reasons, the jolt record and the context. -/
def bayRecord (b : Bay) : Bay :=
  { b with state := .empty, refuse := false, refusal := .none, deferred := false, lastHandover := .none }

section Records
variable {x y : BayId} {s t : State} {b c : Bay}

theorem jolt_of_record (h : bayRecord b = bayRecord c) : b.jolt = c.jolt := (congrArg Bay.jolt h : (bayRecord b).jolt = (bayRecord c).jolt)
theorem context_of_record (h : bayRecord b = bayRecord c) : b.context = c.context :=
  (congrArg Bay.context h : (bayRecord b).context = (bayRecord c).context)
theorem faultReason_of_record (h : bayRecord b = bayRecord c) : b.faultReason = c.faultReason :=
  (congrArg Bay.faultReason h : (bayRecord b).faultReason = (bayRecord c).faultReason)

theorem bayRecord_enter {st : BayState} (h : ¬ (st = .empty ∨ st = .faulted)) (b : Bay) : bayRecord (b.enter st) = bayRecord b := by
  have hj := Bay.enter_jolt st (b := b) h
  unfold bayRecord
  rw [hj]
  rfl

theorem bayRecord_mark {f : Bay → Bay} (hf : marksOnly f) (b : Bay) : bayRecord (f b) = bayRecord b := by
  rw [hf b]
  rfl

theorem record_upd {f : Bay → Bay} (hf : ∀ b, bayRecord (f b) = bayRecord b) (p : Pair Bay) (x y : BayId) :
    bayRecord ((p.upd x f).get y) = bayRecord (p.get y) := by
  by_cases hy : y = x
  · rw [hy, Pair.get_upd_self, hf]
  · rw [Pair.get_upd_ne _ hy]

theorem swaps_record (y : BayId) (b : Bay) : Swaps False (fun u => bayRecord (u.bays.get y) = bayRecord b) where
  done _ _ _ h := h
  refused _ _ _ h := h
  mark x _ s hf h := (record_upd (bayRecord_mark hf) s.bays x y).trans h
  online x s _ h := by
    rw [setBayState_bays, req_bays]
    exact (record_upd (bayRecord_enter (by decide)) s.bays x y).trans h
  standby x s _ h := by
    rw [setBayState_bays, off_bays]
    exact (record_upd (bayRecord_enter (by decide)) s.bays x y).trans h
  release x k s _ h := by
    rw [releaseBay_eq, setBayState_bays, updBay_bays, off_bays]
    refine (record_upd (bayRecord_enter (by decide)) _ x y).trans ?_
    exact (record_upd (bayRecord_mark fun _ => rfl) s.bays x y).trans h
  bridge why s h := by
    rw [bays_startBridge]
    exact h

theorem record_settle (old s : State) (y : BayId) : bayRecord ((settle old s).bays.get y) = bayRecord (s.bays.get y) :=
  (swaps_record y (s.bays.get y)).settle old rfl

theorem record_evaluateLatch (x : BayId) (s : State) (y : BayId) :
    bayRecord ((evaluateLatch x s).bays.get y) = bayRecord (s.bays.get y) :=
  (swaps_record y (s.bays.get y)).evaluateLatch x (fun e => e.elim) rfl

end Records

/-! ### An evaluation beside a bay that is not STANDBY -/

section Beside
variable {x : BayId} {s : State} {b : Bool}

/-- R26: without a pack alternative, an evaluation refuses, defers, or releases the bay PLAIN or onto the bridge. -/
theorem evaluateCases_beside {P : State → Prop} (h : (s.bays.get x.other).state ≠ .standby) (hrefuse : ∀ r, P (refuseBay x b r s))
    (hdefer : P (updBay x (fun c => { c with deferred := true }) s)) (hplain : P (releaseBay x .plain (switchOff x s)))
    (hhold : P (releaseBay x .bridgeHold (switchOff x (startBridge .hold s)))) : P (evaluateCases x b s).1 := by
  unfold evaluateCases
  rw [if_neg fun hc : (s.bays.get x.other).state = .standby ∧ _ => h hc.1]
  split
  · exact hrefuse .held
  split
  · split
    · exact hdefer
    · exact hrefuse .drop
  split
  · split
    · exact hplain
    · exact hrefuse .lowBudget
  split
  · exact hhold
  · exact hrefuse .noSource

theorem rests_refuseBay_other (x : BayId) (b : Bool) (r : RefusalReason) (s : State) : Rests x.other s (refuseBay x b r s) := by
  unfold refuseBay
  split
  · exact (rests_updBay_other ..).trans (rests_post ..)
  · exact rests_updBay_other ..

theorem rests_evaluateCases_other (h : (s.bays.get x.other).state ≠ .standby) : Rests x.other s (evaluateCases x b s).1 :=
  evaluateCases_beside h (fun r => rests_refuseBay_other x b r s) (rests_updBay_other ..)
    ((rests_switchOff_other x s).trans (rests_releaseBay_other x .plain _))
    (((rests_startBridge x.other .hold s).trans (rests_switchOff_other x _)).trans (rests_releaseBay_other x .bridgeHold _))

theorem rests_evaluateLatch_other (h : (s.bays.get x.other).state ≠ .standby) : Rests x.other s (evaluateLatch x s) :=
  have hcases : Rests x.other s (evaluateCases x true s).1 := rests_evaluateCases_other h
  hcases.trans (rests_settle (by rw [hcases.bay]; exact h))

theorem OnKey.refuseBay {K : AttnKey} {P : State → Prop} (k : OnKey K P) (hK : K ≠ .swapRefused x) (r : RefusalReason) (h : P s) :
    P (refuseBay x b r s) := by
  unfold Machine.refuseBay
  split
  · exact k.other _ _ _ hK.symm (k.same s _ rfl h)
  · exact k.same s _ rfl h

theorem OnKey.evaluateLatch_beside {K : AttnKey} {P : State → Prop} (k : OnKey K P) (hc : K ≠ .budgetCut) (hb : K ≠ .bridgeOn)
    (hr : K ≠ .swapRefused x) (hx : K ≠ .swapDone x) (hs : (s.bays.get x.other).state ≠ .standby) (h : P s) : P (evaluateLatch x s) := by
  have hcases : P (evaluateCases x true s).1 :=
    evaluateCases_beside hs (fun r => k.refuseBay hr r h) (k.same s _ rfl h) (k.releaseBay hc x .plain (k.switchOff hc x h))
      (k.releaseBay hc x .bridgeHold (k.switchOff hc x (k.startBridge hc hb .hold h)))
  refine k.settle hc (fun y hy => ?_) hcases
  have hyx : y = x.other := eq_other_of_ne fun e => hx (by rw [hy, e])
  have hrest : Rests x.other s (evaluateCases x true s).1 := rests_evaluateCases_other hs
  rw [hyx, hrest.bay]
  exact hs

theorem tookOver_evaluateLatch (h : tookOver s x.other) : tookOver (evaluateLatch x s) x.other := by
  have hs : (s.bays.get x.other).state ≠ .standby := by rw [h.1]; decide
  exact h.rests (rests_evaluateLatch_other hs) ((onKey_queued _ _).evaluateLatch_beside (fun e => by cases e) (fun e => by cases e)
    (fun e => by cases e) (swapDone_other_ne x) hs h.2.2)

theorem baysOnly_evaluateLatch (x : BayId) (s : State) : baysOnly s (evaluateLatch x s) :=
  (baysOnly_swaps s).evaluateLatch x (fun e => e.elim) (baysOnly.refl s)

end Beside

end Sys2Proof.Machine
end

