-- ==== Sys2Proof/Proofs/JoltReturns.lean ====
section
/-! PROOFS. The pack of a jolt return that has passed admission (R37): the same pack goes back to where it was, a different one is a fresh insertion. -/

namespace Sys2Proof.Machine

theorem Judged.trans {x : BayId} {s t u : State} (h : Judged x s t) (k : Judged x t u) : Judged x s u :=
  ⟨k.ext.trans h.ext, k.bridge.trans h.bridge, k.ready.trans h.ready, k.sw.trans h.sw, k.other.trans h.other,
   fun y => (k.snap y).trans (h.snap y), k.tables.trans h.tables, k.flags.trans h.flags, k.window.trans h.window⟩

section Jolt
variable {x : BayId} {s v w t u old : State} {j : JoltRecord} {d : Detail}

/-! ### By the serials and the earlier state -/

/-- R37: both serials are present and equal. -/
theorem sameSerial_iff (hj : (s.bays.get x).jolt = some j) :
    sameSerial s x = true ↔ ∃ n, j.serial = some n ∧ (s.relays.get x).snap.serial = some n := by
  unfold sameSerial serialOf
  rw [hj]
  cases (s.relays.get x).snap.serial with
  | none => exact ⟨fun h => (by cases h), fun ⟨n, _, h⟩ => (by cases h)⟩
  | some n =>
    refine ⟨fun h => ⟨n, beq_iff_eq.mp h, rfl⟩, fun ⟨m, hm, hn⟩ => ?_⟩
    cases hn
    exact beq_iff_eq.mpr hm

/-- The jolt record is cleared and JOLT posted. -/
def joltCleared (x : BayId) (d : Detail) (s : State) : State := clearJolt x (post (.jolt x) d s)

theorem get_joltCleared : (joltCleared x d s).bays.get x = { s.bays.get x with jolt := none } := Pair.get_upd_self ..

theorem samePlacing_joltCleared : SamePlacing x s (joltCleared x d s) := (samePlacing_post ..).trans (samePlacing_updBay fun _ => rfl)

theorem judged_joltCleared : Judged x s (joltCleared x d s) := 
  Judged.trans (t := post (.jolt x) d s) ⟨rfl, rfl, rfl, rfl, rfl, fun _ => rfl, rfl, rfl, rfl⟩ (judged_updBay _ (post (.jolt x) d s))

theorem settleJolt_of_online (h : sameSerial s x = true) (hj : (s.bays.get x).jolt = some j) (he : j.earlier = .online) :
    settleJolt x s = returnOnline x (joltCleared x dSame s) := by
  simp only [settleJolt, h, hj, he, if_true]
  rfl

theorem settleJolt_of_standby (h : sameSerial s x = true) (hj : (s.bays.get x).jolt = some j) (he : j.earlier = .standby) :
    settleJolt x s = standbyJoin x (setBayState x .standby (switchOff x (joltCleared x dSame s))) := by
  simp only [settleJolt, h, hj, he, if_true]
  rfl

theorem settleJolt_of_probing (h : sameSerial s x = true) (hj : (s.bays.get x).jolt = some j) (he : j.earlier = .probing) :
    settleJolt x s = placeFresh x (joltCleared x dSame s) := by
  simp only [settleJolt, h, hj, he, if_true]
  rfl

theorem settleJolt_of_different (h : sameSerial s x = false) : settleJolt x s = placeFresh x (joltCleared x dDifferent (cacheDropBay x s)) := by
  rw [settleJolt, if_neg (by rw [h]; decide)]
  rfl

theorem placePack_of_jolt (h : (s.bays.get x).probeCause = .joltReturn) : placePack x s = settleJolt x (reasonCleared x s) := if_pos h

/-- The state in which the pack is placed, its fault reason and its jolt record cleared and JOLT posted. -/
def joltReturned (x : BayId) (d : Detail) (v : State) : State := joltCleared x d (reasonCleared x v)

theorem get_joltReturned : (joltReturned x d v).bays.get x = { v.bays.get x with faultReason := .none, jolt := none } := by
  rw [joltReturned, get_joltCleared, get_reasonCleared]

theorem samePlacing_joltReturned : SamePlacing x v (joltReturned x d v) := samePlacing_reasonCleared.trans samePlacing_joltCleared

theorem judged_joltReturned : Judged x v (joltReturned x d v) := Judged.trans (judged_updBay _ v) judged_joltCleared

theorem rests_joltReturned_other : Rests x.other v (joltReturned x d v) :=
  ((rests_updBay_other x _ v).trans (rests_post ..)).trans (rests_updBay_other ..)

theorem queued_joltReturned : queued (joltReturned x d v) (.jolt x) d := queued_post ..

theorem tookOver_joltReturned (h : tookOver v x.other) : tookOver (joltReturned x d v) x.other :=
  h.rests rests_joltReturned_other ((onKey_queued _ _).same (post (.jolt x) d (reasonCleared x v)) _ rfl
    (queued_post_of_ne d (fun e => by cases e) h.2.2))

/-! ### What every return leaves -/

/-- The jolt record and the fault reason are cleared, JOLT stands in the queue, and a pack that took over beside the bay has stayed. -/
structure Returned (x : BayId) (d : Detail) (v t : State) : Prop where
  jolt : (t.bays.get x).jolt = none
  reason : (t.bays.get x).faultReason = .none
  posted : queued t (.jolt x) d
  took : tookOver v x.other → tookOver t x.other

theorem Returned.settle (h : Returned x d v t) (old : State) : Returned x d v (settle old t) :=
  ⟨(jolt_of_record (record_settle old t x)).trans h.jolt, (faultReason_of_record (record_settle old t x)).trans h.reason,
   queued_settle (fun e => by cases e) (fun y hy => by cases hy) h.posted, fun ht => (h.took ht).settle old⟩

theorem returned_joltReturned : Returned x d v (joltReturned x d v) :=
  ⟨by rw [get_joltReturned], by rw [get_joltReturned], queued_joltReturned, tookOver_joltReturned⟩

theorem Returned.rests_other (h : Returned x d v t) (hrec : bayRecord (w.bays.get x) = bayRecord (t.bays.get x))
    (hq : queued t (.jolt x) d → queued w (.jolt x) d) (r : Rests x.other t w)
    (hd : queued t (.swapDone x.other) dTakeOver → queued w (.swapDone x.other) dTakeOver) : Returned x d v w :=
  ⟨(jolt_of_record hrec).trans h.jolt, (faultReason_of_record hrec).trans h.reason, hq h.posted,
   fun ht => (h.took ht).rests r (hd (h.took ht).2.2)⟩

theorem record_placeSwitch (x : BayId) (s : State) : bayRecord ((placeSwitch x s).bays.get x) = bayRecord (s.bays.get x) := by
  unfold placeSwitch
  split
  · exact (swaps_record x (s.bays.get x)).online x s (fun e => e.elim) rfl
  · exact (swaps_record x (s.bays.get x)).standby x s (fun e => e.elim) rfl

theorem Returned.placeSwitch (h : Returned x d v t) : Returned x d v (placeSwitch x t) :=
  h.rests_other (record_placeSwitch x t) (fun hq => (onKey_queued _ _).placeSwitch (fun e => by cases e) hq) (rests_placeSwitch_other x t)
    fun hq => (onKey_queued _ _).placeSwitch (fun e => by cases e) hq

theorem Returned.placeFresh (h : Returned x d v t) : Returned x d v (placeFresh x t) := by
  have hq : ∀ {K : AttnKey} {c : Detail}, K ≠ .budgetCut → K ≠ .swapDone x → queued t K c → queued (Machine.placeFresh x t) K c :=
    fun hb hx hk => (onKey_queued _ _).placeFresh hb hx hk
  obtain ⟨st, hget, hst⟩ : ∃ st, (Machine.placeFresh x t).bays.get x = Bay.enter st { t.bays.get x with context := none }
      ∧ ¬ (st = .empty ∨ st = .faulted) := by
    have hin := (inserted_placeFresh x t).place
    by_cases hp : placesOnline x t
    · exact ⟨_, hin.online hp, by decide⟩
    · exact ⟨_, hin.standby hp, by decide⟩
  refine ⟨?_, ?_, hq (fun e => by cases e) (fun e => by cases e) h.posted, fun ht => ?_⟩
  · rw [hget, Bay.enter_jolt st hst]
    exact h.jolt
  · rw [hget]
    exact h.reason
  · exact (h.took ht).rests (rests_placeFresh_other x t) (hq (fun e => by cases e) (swapDone_other_ne x) (h.took ht).2.2)

/-- A bay that turns ONLINE, SWAP_DONE aside. -/
def turnOnline (x : BayId) (s : State) : State := setBayState x .online (requestOn x s)

theorem rests_turnOnline_other (x : BayId) (s : State) : Rests x.other s (turnOnline x s) :=
  (rests_requestOn_other x s).trans (rests_setBayState_other x .online _)

theorem OnKey.turnOnline {K : AttnKey} {P : State → Prop} (k : OnKey K P) (hc : K ≠ .budgetCut) (h : P s) : P (turnOnline x s) :=
  k.setBayState hc x .online (k.requestOn hc x h)

theorem Returned.turnOnline (h : Returned x d v t) : Returned x d v (turnOnline x t) :=
  h.rests_other ((swaps_record x (t.bays.get x)).online x t (fun e => e.elim) rfl)
    (fun hq => (onKey_queued _ _).turnOnline (fun e => by cases e) hq) (rests_turnOnline_other x t)
    fun hq => (onKey_queued _ _).turnOnline (fun e => by cases e) hq

theorem Returned.evaluateLatch (h : Returned x d v t) : Returned x d v (evaluateLatch x t) := by
  refine ⟨(jolt_of_record (record_evaluateLatch x t x)).trans h.jolt, (faultReason_of_record (record_evaluateLatch x t x)).trans h.reason,
    ?_, fun ht => tookOver_evaluateLatch (h.took ht)⟩
  have hw := (onKey_queued (.jolt x) d).swaps ⟨fun e => (by cases e), fun e => (by cases e), fun y e => (by cases e), fun y e => (by cases e)⟩
  exact hw.evaluateLatch x (fun e => e.elim) h.posted

/-! ### The pack that was STANDBY -/

theorem Returned.standby (h : Returned x d v t) : Returned x d v (setBayState x .standby (switchOff x t)) :=
  h.rests_other ((swaps_record x (t.bays.get x)).standby x t (fun e => e.elim) rfl)
    (fun hq => (onKey_queued _ _).setBayState (fun e => by cases e) x .standby ((onKey_queued _ _).switchOff (fun e => by cases e) x hq))
    ((rests_switchOff_other x t).trans (rests_setBayState_other x .standby _))
    fun hq => (onKey_queued _ _).setBayState (fun e => by cases e) x .standby ((onKey_queued _ _).switchOff (fun e => by cases e) x hq)

theorem Returned.goOnline (h : Returned x d v t) : Returned x d v (goOnline x dTakeOver t) :=
  h.rests_other ((swaps_record x (t.bays.get x)).goOnline x dTakeOver (fun e => e.elim) rfl)
    (fun hq => (onKey_queued _ _).goOnline (fun e => by cases e) (fun e => by cases e) dTakeOver hq) (rests_goOnline_other x dTakeOver t)
    fun hq => (onKey_queued _ _).goOnline (fun e => by cases e) (swapDone_other_ne x) dTakeOver hq

theorem Returned.standbyJoin (h : Returned x d v t) : Returned x d v (standbyJoin x t) :=
  standbyJoin_keeps (P := Returned x d v) (fun _ hu _ _ _ => hu.goOnline) h

theorem enter_standby_online {b : Bay} (h : b.state ≠ .online) : (b.enter .standby).enter .online = b.enter .online := by
  unfold Bay.enter
  simp [h]

/-- The state in which the pack has gone STANDBY. -/
theorem joins_standby_iff : joins (setBayState x .standby (switchOff x s)) x ↔ placesOnline x s := by
  have hb : (setBayState x .standby (switchOff x s)).bays.get x = (s.bays.get x).enter .standby := get_turnStandby
  have ha : parallelAllows x (setBayState x .standby (switchOff x s)) = parallelAllows x s := by
    refine parallelAllows_congr (by rw [setBayState_pp, sw_switchOff_other]) (by rw [setBayState_bays, Pair.get_upd_other, off_bays])
      (fun y => ?_) (((baysOnly.refl s).switchOff x).setBayState x .standby).tables
    rw [setBayState_relays, ((powerOnly.refl s).switchOff x).relays]
    by_cases hy : y = x
    · rw [hy, Pair.get_upd_self, Relay.enter_snap]
    · rw [Pair.get_upd_ne _ hy]
  unfold joins placesOnline
  rw [hb, ha]
  exact and_iff_right rfl

theorem endProbe_endProbe (r : Relay) : endProbe (endProbe r) = endProbe r := by
  obtain ⟨link, slot, due, poll, count, ring, ptr, snap, probe, recover⟩ := r
  cases link with
  | none => rfl
  | some tx =>
    obtain ⟨req, purpose, timeout⟩ := tx
    cases purpose <;> rfl

/-- R37, R25: the pack that was STANDBY, placed. -/
theorem placement_standby (hs : (s.bays.get x).state ≠ .online) :
    Placement x (s.bays.get x) s (standbyJoin x (setBayState x .standby (switchOff x s))) := by
  by_cases h : placesOnline x s
  · rw [standbyJoin_of_joins (joins_standby_iff.mpr h)]
    refine ⟨fun _ => ?_, fun hn => absurd h hn, ?_, fun _ => sw_goOnline .., fun hn => absurd h hn, fun hn => absurd h hn, rfl⟩
    · have hmark : ∀ b : Bay, b.state ≠ .online → (b.enter .standby).enter .online = b.enter .online := fun b hb => by
        obtain ⟨st, _, _, _, _, _, _, refuse, _, _, _, _, _, _, _⟩ := b
        cases st <;> first | rfl | exact absurd rfl hb
      rw [get_goOnline_self, get_turnStandby, enter_standby_online hs]
    · rw [relays_goOnline, Pair.get_upd_self, setBayState_relays, Pair.get_upd_self, ((powerOnly.refl s).switchOff x).relays]
      exact endProbe_endProbe _
  · have hp := placement_placeSwitch x s
    rw [placeSwitch_of_off h] at hp
    rw [standbyJoin_of_not (mt joins_standby_iff.mp h)]
    exact hp

/-! ### The pack that was ONLINE with its switch still ON -/

theorem bay_turnOnline : (turnOnline x s).bays.get x = (s.bays.get x).enter .online := get_turnOnline

theorem requestOn_of_on (h : s.pp.sw.get x = .on) : requestOn x s = setHeld x false s := by
  have hon : switchOn x s = setHeld x false s := if_pos h
  rw [requestOn, if_neg fun hc => hc.1 h, hon]

/-- A switch that is ON already turns no other. -/
theorem judged_turnOnline (h : s.pp.sw.get x = .on) : Judged x s (turnOnline x s) := by
  have hb := rests_turnOnline_other x s
  have hpp : (turnOnline x s).pp = (setHeld x false s).pp := by
    rw [turnOnline, setBayState_pp, requestOn_of_on h]
  have hframe : baysOnly s (turnOnline x s) := ((baysOnly.refl s).requestOn x).setBayState x .online
  refine ⟨by rw [hpp]; rfl, by rw [hpp]; rfl, by rw [hpp]; rfl, by rw [hpp]; rfl, hb.bay, fun y => ?_, hframe.tables, hframe.flags,
    by rw [hframe.motion]⟩
  rw [turnOnline, setBayState_relays, ((powerOnly.refl s).requestOn x).relays]
  by_cases hy : y = x
  · rw [hy, Pair.get_upd_self, Relay.enter_snap]
  · rw [Pair.get_upd_ne _ hy]

theorem returnOnline_of_closed (h : s.pp.sw.get x = .on) (hl : (s.bays.get x).latch = true) : returnOnline x s = turnOnline x s := by
  rw [returnOnline, if_pos h, if_pos hl]
  rfl

theorem returnOnline_of_open (h : s.pp.sw.get x = .on) (hl : (s.bays.get x).latch = false) :
    returnOnline x s = evaluateLatch x (turnOnline x s) := by
  rw [returnOnline, if_pos h, if_neg (by rw [hl]; decide)]
  rfl

theorem returnOnline_of_off (h : s.pp.sw.get x ≠ .on) : returnOnline x s = placeSwitch x s := if_neg h

/-- A bay that is ONLINE, its switch ON, and what follows leaves it. -/
theorem online_rests (ho : (s.bays.get x).state = .online) (hsw : s.pp.sw.get x = .on) (r : Rests x s t) :
    (t.bays.get x).state = .online ∧ t.pp.sw.get x = .on := ⟨by rw [r.bay]; exact ho, (r.sw_of_online ho).trans hsw⟩

/-! ### The placement of a returned pack -/

/-- A return that is no fresh insertion only switches bays. -/
theorem returnOnline_keeps {P : State → Prop} (k : Swaps False P) (h : P s) : P (returnOnline x s) := by
  unfold returnOnline placeSwitch
  split
  · split
    · exact k.online x s (fun e => e.elim) h
    · exact k.evaluateLatch x (fun e => e.elim) (k.online x s (fun e => e.elim) h)
  split
  · exact k.online x s (fun e => e.elim) h
  · exact k.standby x s (fun e => e.elim) h

theorem Returned.returnOnline (h : Returned x d v t) : Returned x d v (returnOnline x t) := by
  unfold Machine.returnOnline
  split
  · split
    · exact h.turnOnline
    · exact h.turnOnline.evaluateLatch
  · exact h.placeSwitch

/-- R37: the pack comes back to the state it left, the cache and the context kept. -/
structure CameBack (x : BayId) (v w : State) : Prop where
  returned : Returned x dSame v w
  frame : baysOnly v w
  record : bayRecord (w.bays.get x) = bayRecord ((joltReturned x dSame v).bays.get x)

theorem baysOnly_joltReturned : baysOnly v (joltReturned x d v) := (((baysOnly.refl v).updBay x _).post _ _).updBay x _

theorem cameBack_returnOnline : CameBack x v (returnOnline x (joltReturned x dSame v)) :=
  ⟨returned_joltReturned.returnOnline, returnOnline_keeps (baysOnly_swaps v) baysOnly_joltReturned,
   returnOnline_keeps (swaps_record x _) rfl⟩

theorem cameBack_standby : CameBack x v (standbyJoin x (setBayState x .standby (switchOff x (joltReturned x dSame v)))) :=
  ⟨returned_joltReturned.standby.standbyJoin,
   (baysOnly_swaps v).standbyJoin x ((baysOnly_swaps v).standby x _ (fun e => e.elim) baysOnly_joltReturned),
   (swaps_record x _).standbyJoin x ((swaps_record x _).standby x _ (fun e => e.elim) rfl)⟩

theorem CameBack.settle (h : CameBack x v w) (old : State) : CameBack x v (settle old w) :=
  ⟨h.returned.settle old, h.frame.trans (settle_baysOnly old w), (record_settle old w x).trans h.record⟩

theorem CameBack.context (h : CameBack x v w) : (w.bays.get x).context = (v.bays.get x).context :=
  (context_of_record h.record).trans (by rw [get_joltReturned])

theorem get_mapLines (f : Line → Line) (cs : CacheSet) (y : Way) : (cs.mapLines f).get y = f (cs.get y) := by cases y <;> rfl

/-- A property of every line that a change of the lines leaves. -/
theorem lines_map {f : Line → Line} {p q : Line → Prop} (hf : ∀ l, p l → q (f l)) {c : List CacheSet} (h : ∀ cs ∈ c, ∀ y, p (cs.get y)) :
    ∀ cs ∈ c.map (CacheSet.mapLines f), ∀ y, q (cs.get y) := by
  intro cs hcs y
  obtain ⟨k, hk, rfl⟩ := List.mem_map.mp hcs
  rw [get_mapLines]
  exact hf _ (h k hk y)

/-- The line is not a valid one of bay `x`. -/
def lineOfOther (x : BayId) (l : Line) : Prop := ¬ (l.valid = true ∧ l.bay = x)

/-- R100: of a different pack no line of the bay stays valid. -/
theorem noLines_inserted (h : Inserted x (joltCleared x d (cacheDropBay x s)) t) : ∀ cs ∈ t.cache, ∀ y, lineOfOther x (cs.get y) := by
  have hdrop : ∀ cs ∈ (joltCleared x d (cacheDropBay x s)).cache, ∀ y, lineOfOther x (cs.get y) := by
    refine lines_map (f := fun l => if l.valid ∧ l.bay = x then Line.invalid else l) (p := fun _ => True) (q := lineOfOther x) (c := s.cache)
      (fun l _ => ?_) fun _ _ _ => trivial
    split
    · exact fun hc => Bool.noConfusion hc.1
    · next hn => exact hn
  rw [h.cache]
  refine lines_map (p := lineOfOther x) (q := lineOfOther x) (fun l hl => ?_) hdrop
  rw [if_neg fun hc : l.valid = true ∧ l.bay = x ∧ _ => hl ⟨hc.1, hc.2.1⟩]
  exact hl

/-- A different pack, before its placement. -/
theorem returned_dropped : Returned x dDifferent v (joltCleared x dDifferent (cacheDropBay x (reasonCleared x v))) := by
  have hget : (cacheDropBay x (reasonCleared x v)).bays.get x = { v.bays.get x with faultReason := .none } := get_reasonCleared
  refine ⟨by rw [get_joltCleared], by rw [get_joltCleared, hget], queued_post .., fun ht => ?_⟩
  refine ht.rests ((((rests_updBay_other x _ v).trans (rests_mapCache ..)).trans (rests_post ..)).trans (rests_updBay_other ..)) ?_
  exact (onKey_queued _ _).same (post (.jolt x) dDifferent (cacheDropBay x (reasonCleared x v))) _ rfl
    (queued_post_of_ne _ (fun e => by cases e) ht.2.2)

theorem samePlacing_dropped : SamePlacing x v (joltCleared x dDifferent (cacheDropBay x (reasonCleared x v))) :=
  (samePlacing_reasonCleared.trans (samePlacing_mapCache _)).trans samePlacing_joltCleared

end Jolt

/-! ### The end of the probe -/

section End
variable {x : BayId} {g : Tag} {n : Snapshot} {s u v : State} {j : JoltRecord} (hat : AtPlacing x g n s u v) (hj : (s.bays.get x).jolt = some j)
include hat hj

theorem AtPlacing.jolt : ((reasonCleared x v).bays.get x).jolt = some j := by
  rw [get_reasonCleared, hat.bay]
  exact hj

theorem AtPlacing.sameSerial : sameSerial (reasonCleared x v) x = true ↔ ∃ w, j.serial = some w ∧ n.serial = some w := by
  have hsnap : ((reasonCleared x v).relays.get x).snap = n := hat.idle.snap
  rw [sameSerial_iff (hat.jolt hj), hsnap]

variable (hc : (s.bays.get x).probeCause = .joltReturn)
include hc

omit hj in
theorem AtPlacing.placePack : placePack x v = settleJolt x (reasonCleared x v) := placePack_of_jolt (by rw [hat.bay]; exact hc)

variable (hsame : ∃ w, j.serial = some w ∧ n.serial = some w)

include hsame in
theorem AtPlacing.placePack_online (he : j.earlier = .online) : Machine.placePack x v = returnOnline x (joltReturned x dSame v) := by
  rw [hat.placePack hc, settleJolt_of_online ((hat.sameSerial hj).mpr hsame) (hat.jolt hj) he]
  rfl

include hsame in
theorem AtPlacing.placePack_standby (he : j.earlier = .standby) :
    Machine.placePack x v = standbyJoin x (setBayState x .standby (switchOff x (joltReturned x dSame v))) := by
  rw [hat.placePack hc, settleJolt_of_standby ((hat.sameSerial hj).mpr hsame) (hat.jolt hj) he]
  rfl

include hsame in
theorem AtPlacing.placePack_probing (he : j.earlier = .probing) : Machine.placePack x v = placeFresh x (joltReturned x dSame v) := by
  rw [hat.placePack hc, settleJolt_of_probing ((hat.sameSerial hj).mpr hsame) (hat.jolt hj) he]
  rfl

theorem AtPlacing.placePack_different (hd : ¬ ∃ w, j.serial = some w ∧ n.serial = some w) :
    Machine.placePack x v = placeFresh x (joltCleared x dDifferent (cacheDropBay x (reasonCleared x v))) := by
  rw [hat.placePack hc, settleJolt_of_different (by rw [← Bool.not_eq_true]; exact mt (hat.sameSerial hj).mp hd)]

end End

/-! ### What placement leaves after the events -/

section Placed
variable {x : BayId} {g : Tag} {n : Snapshot} {s u v w b : State} {d : Detail}

/-- The pack is placed and the events of the placement and of the row have run. -/
theorem AtPlacing.placement {c : Bay} (hat : AtPlacing x g n s u v) (h : Placement x c v w) : placedByLatch x u (settle s (settle v w)) := by
  have hp := (h.settle (old := v) fun _ _ => noEventOf.refl ..).settle (old := s) fun _ _ => hat.quiet
  rw [← hat.alike.placedByLatch]
  exact ⟨fun hl ha => ⟨hp.state_on ⟨hl, ha⟩, hp.on ⟨hl, ha⟩⟩, fun hn => ⟨hp.state_off hn, hp.off hn⟩⟩

theorem AtPlacing.inserted (hat : AtPlacing x g n s u v) (hb : SamePlacing x v b) (hm : Machine.contextMatches b x = Machine.contextMatches v x)
    (h : Inserted x b w) : placedFresh x u (settle s (settle v w)) ∧ Inserted x b (settle s (settle v w)) := by
  have hquiet : ∀ {o : State}, noEventOf o v x.other → noEventOf o b x.other := fun hq =>
    ⟨fun e => by rw [hb.sw]; exact hq.1 e, hb.presence.trans hq.2⟩
  have hin := (h.settle (old := v) fun _ _ => hquiet (noEventOf.refl ..)).settle (old := s) fun _ _ => hquiet hat.quiet
  refine ⟨?_, hin⟩
  rw [← hat.alike.placedFresh]
  have hp := hin.placedFresh
  unfold placedFresh placedByLatch at hp ⊢
  rw [hb.latch, hb.allows, hm] at hp
  exact hp

end Placed

/-- R37: a pack back from ONLINE whose switch is still ON, its latch closed. -/
theorem stays_online {x : BayId} {s v w : State} (ho : (w.bays.get x).state = .online) :
    Rests x w (settle s (settle v w)) :=
  have hfirst : Rests x w (settle v w) := rests_settle (by rw [ho]; decide)
  hfirst.trans (rests_settle (by rw [hfirst.bay, ho]; decide))

/-- R37, R26: a pack back from ONLINE whose switch is still ON, its latch open. -/
structure OpenReturn (x : BayId) (s u : State) (b : Bay) (t : State) : Prop where
  refused : ∀ r, refusalCase u x r → (t.bays.get x).state = .online ∧ t.pp.sw.get x = .on ∧ (t.bays.get x).refusal = r
    ∧ (t.bays.get x).refuse = true ∧ queued t (.swapRefused x) (dRefusal r)
  carried : ∀ k, (∀ y, bayLaw s y) → handoverCase u x k → (t.bays.get x).state = .releasing ∧ (t.bays.get x).lastHandover = k
    ∧ (t.bays.get x).refusal = .none ∧ t.pp.sw.get x = .off
  deferred : holdSwap s x = false → s.motion.window ≠ .closed → (t.bays.get x).state = .online ∧ t.pp.sw.get x = .on
    ∧ (t.bays.get x).deferred = true ∧ (t.bays.get x).refusal = b.refusal

theorem openReturn_evaluateLatch {x : BayId} {g : Tag} {n : Snapshot} {s u v : State} (hat : AtPlacing x g n s u v)
    (hon : v.pp.sw.get x = .on) :
    OpenReturn x s u (s.bays.get x) (settle s (settle v (evaluateLatch x (turnOnline x (joltReturned x dSame v))))) := by
  have hj : Judged x u (turnOnline x (joltReturned x dSame v)) :=
    ((hat.alike.judged x).trans judged_joltReturned).trans (judged_turnOnline hon)
  have hget : (turnOnline x (joltReturned x dSame v)).bays.get x = Bay.enter .online { s.bays.get x with faultReason := .none, jolt := none } := by
    rw [bay_turnOnline, get_joltReturned, hat.bay]
  have hsw : (turnOnline x (joltReturned x dSame v)).pp.sw.get x = .on := sw_turnOnline
  have hrest : Rests x.other v (turnOnline x (joltReturned x dSame v)) := rests_joltReturned_other.trans (rests_turnOnline_other x _)
  have hbaysOnly : baysOnly v (turnOnline x (joltReturned x dSame v)) := (baysOnly_joltReturned.requestOn x).setBayState x .online
  generalize turnOnline x (joltReturned x dSame v) = e at hj hget hsw hrest hbaysOnly
  have hflags : e.flags = s.flags := hbaysOnly.flags.trans hat.flags
  have hmotion : e.motion = s.motion := hbaysOnly.motion.trans hat.window
  refine ⟨fun r hr => ?_, fun k hl hk => ?_, fun hh hw => ?_⟩
  · have hr' : refusalCase e x r := by rw [hj.refusalCase]; exact hr
    rw [evaluateLatch_of_refusal hr']
    generalize hf : post (.swapRefused x) (dRefusal r) (updBay x (fun b => { b with refusal := r, refuse := true }) e) = f
    have hfb : f.bays.get x = { e.bays.get x with refusal := r, refuse := true } := by rw [← hf]; exact Pair.get_upd_self ..
    have hfo : (f.bays.get x).state = .online := by rw [hfb, hget]; rfl
    have hfs : f.pp.sw.get x = .on := by rw [← hf]; exact hsw
    have hfq : queued f (.swapRefused x) (dRefusal r) := by rw [← hf]; exact queued_post ..
    have r' : Rests x f (settle s (settle v f)) := stays_online hfo
    obtain ⟨hst, hon'⟩ := online_rests hfo hfs r'
    refine ⟨hst, hon', by rw [r'.bay, hfb], by rw [r'.bay, hfb], ?_⟩
    exact queued_settle (fun e => by cases e) (fun y hy => by cases hy) (queued_settle (fun e => by cases e) (fun y hy => by cases hy) hfq)
  · have hk' : handoverCase e x k := by rw [hj.handoverCase]; exact hk
    have hc := ((carried_evaluateLatch (hrest.follows.bayLaw (hat.law hl x.other)) hk').settle v).settle s
    exact ⟨hc.released.state, hc.released.last, hc.released.refusal, hc.released.sw⟩
  · have hh' : holdSwap e x = false := by unfold holdSwap at hh ⊢; rw [hflags]; exact hh
    rw [evaluateLatch_of_open hh' (by rw [hmotion]; exact hw)]
    generalize hf : updBay x (fun b => { b with deferred := true }) e = f
    have hfb : f.bays.get x = { e.bays.get x with deferred := true } := by rw [← hf]; exact Pair.get_upd_self ..
    have hfo : (f.bays.get x).state = .online := by rw [hfb, hget]; rfl
    have hfs : f.pp.sw.get x = .on := by rw [← hf]; exact hsw
    have r' : Rests x f (settle s (settle v f)) := stays_online hfo
    obtain ⟨hst, hon'⟩ := online_rests hfo hfs r'
    exact ⟨hst, hon', by rw [r'.bay, hfb], by rw [r'.bay, hfb, hget]; rfl⟩

/-- Settles O34: a jolt return by the serials, the earlier state, the switch and the latch. -/
theorem joltReturnsAreSettled : Obligations.JoltReturnsAreSettled := by
  intro x s u g lo hi n j hlast hn hu hok hc hj
  obtain ⟨v, hrow, hat⟩ := exec_lastProbeRead lo hi hlast hn
  rw [← hu] at hat
  rw [← hat.admissionOk] at hok
  rw [admitPack_of_ok hok] at hrow
  have hplacing : SamePlacing x v (joltReturned x dSame v) := samePlacing_joltReturned
  have hlatch : (v.bays.get x).latch = (s.bays.get x).latch := by rw [hat.bay]
  have hsw : u.pp.sw.get x = (joltReturned x dSame v).pp.sw.get x := by rw [← hat.alike.pp]; rfl
  have hends : ∀ {d}, Returned x d v (placePack x v) → ((settle s (settle v (placePack x v))).bays.get x).jolt = none
      ∧ ((settle s (settle v (placePack x v))).bays.get x).faultReason = .none
      ∧ (g = .voltage → joins (withSnap x n s) x.other → tookOver (settle s (settle v (placePack x v))) x.other)
      ∧ queued (settle s (settle v (placePack x v))) (.jolt x) d := fun hr =>
    have hr' := (hr.settle v).settle s
    ⟨hr'.jolt, hr'.reason, fun hg hj => hr'.took (hat.took hg hj), hr'.posted⟩
  have hback : CameBack x v (placePack x v) → (settle s (settle v (placePack x v))).cache = s.cache
      ∧ ((settle s (settle v (placePack x v))).bays.get x).context = (s.bays.get x).context := fun hw =>
    have hw' := (hw.settle v).settle s
    ⟨hw'.frame.cache.trans hat.cache, hw'.context.trans (by rw [hat.bay])⟩
  refine ⟨_, hrow, ?_⟩
  by_cases hsame : ∃ w, j.serial = some w ∧ n.serial = some w
  · cases he : j.earlier with
    | online =>
      have hpack := hat.placePack_online hj hc hsame he
      have hcame : CameBack x v (placePack x v) := hpack ▸ cameBack_returnOnline
      obtain ⟨hjolt, hreason, htook, hposted⟩ := hends hcame.returned
      refine ⟨hjolt, hreason, htook, fun _ => ⟨hposted, fun _ hon => ?_, fun _ hoff => ?_, fun e => (by cases e), fun _ => hback hcame,
        fun e => (by cases e)⟩, fun hn => absurd hsame hn⟩
      · rw [hsw] at hon
        refine ⟨fun hl => ?_, fun hl => ?_⟩
        · rw [hpack, returnOnline_of_closed hon (hplacing.latch.trans (hlatch.trans hl))]
          have hst : ((turnOnline x (joltReturned x dSame v)).bays.get x).state = .online := by rw [bay_turnOnline]; rfl
          exact online_rests hst sw_turnOnline (stays_online hst)
        · rw [hpack, returnOnline_of_open hon (hplacing.latch.trans (hlatch.trans hl))]
          have hopen := openReturn_evaluateLatch hat (by rw [← hat.alike.pp] at hsw; exact hon)
          exact ⟨hopen.refused, hopen.carried, hopen.deferred⟩
      · rw [hsw] at hoff
        rw [hpack, returnOnline_of_off hoff]
        exact hat.placement ((placement_placeSwitch x _).congr hplacing)
    | standby =>
      have hpack := hat.placePack_standby hj hc hsame he
      have hcame : CameBack x v (placePack x v) := hpack ▸ cameBack_standby
      obtain ⟨hjolt, hreason, htook, hposted⟩ := hends hcame.returned
      have hstate : ((joltReturned x dSame v).bays.get x).state ≠ .online := by
        rw [get_joltReturned, hat.bay]
        exact ne_of_eq_of_ne hlast.1 (by decide)
      refine ⟨hjolt, hreason, htook, fun _ => ⟨hposted, fun e => (by cases e), fun e => (by cases e), fun _ => ⟨?_, fun hl ha => ?_⟩,
        fun _ => hback hcame, fun e => (by cases e)⟩, fun hn => absurd hsame hn⟩
      · rw [hpack]
        exact hat.placement ((placement_standby hstate).congr hplacing)
      · have hp : placesOnline x (joltReturned x dSame v) :=
          hplacing.places.mpr ⟨hlatch.trans hl, (hat.alike.parallelAllows x).trans ha⟩
        rw [hpack, standbyJoin_of_joins (joins_standby_iff.mpr hp)]
        have htake := (tookOver_goOnline x (setBayState x .standby (switchOff x (joltReturned x dSame v)))).settle v |>.settle s
        exact htake.2.2
    | probing =>
      have hpack := hat.placePack_probing hj hc hsame he
      have hret : Returned x dSame v (placePack x v) := hpack ▸ returned_joltReturned.placeFresh
      obtain ⟨hjolt, hreason, htook, hposted⟩ := hends hret
      refine ⟨hjolt, hreason, htook, fun _ => ⟨hposted, fun e => (by cases e), fun e => (by cases e), fun e => (by cases e),
        fun hne => absurd rfl hne, fun _ => ?_⟩, fun hn => absurd hsame hn⟩
      rw [hpack]
      exact (hat.inserted hplacing (contextMatches_congr (by rw [get_joltReturned]) rfl) (inserted_placeFresh x _)).1
  · have hpack := hat.placePack_different hj hc hsame
    have hret : Returned x dDifferent v (placePack x v) := hpack ▸ returned_dropped.placeFresh
    obtain ⟨hjolt, hreason, htook, hposted⟩ := hends hret
    have hget : ((joltCleared x dDifferent (cacheDropBay x (reasonCleared x v))).bays.get x).context = (v.bays.get x).context := by
      have hclear : (cacheDropBay x (reasonCleared x v)).bays.get x = { v.bays.get x with faultReason := .none } := get_reasonCleared
      rw [get_joltCleared, hclear]
    have hin := hat.inserted samePlacing_dropped (contextMatches_congr hget rfl)
      (inserted_placeFresh x (joltCleared x dDifferent (cacheDropBay x (reasonCleared x v))))
    rw [hpack] at hjolt hreason htook hposted ⊢
    exact ⟨hjolt, hreason, htook, fun hs => absurd hs hsame, fun _ => ⟨hposted, hin.1, noLines_inserted hin.2⟩⟩

end Sys2Proof.Machine
end

