-- ==== Sys2Proof/Proofs/Falls.lean ====
section
/-! PROOFS. A recorded fall of presence (R17, R19, R30 to R36, R55, R68): the state in which the Bay Controller takes it, the jolt and the loss, and what
the answer to "no conducting source" and the events leave of the bay (R7, R33). -/

namespace Sys2Proof.Machine

/-! ### The state in which the bay takes the fall -/

section Before
variable {x : BayId} {s t : State}

/-- The recorded presence has fallen, the power path has taken it and the link has ended what was on it. -/
def beforeFall (x : BayId) (s : State) : State := failRecover x (loseLink x (recompute (updBay x (fun b => { b with presence := false }) s)))

theorem afterLoss_eq (x : BayId) (s : State) : afterLoss x s = fallByState x (beforeFall x s) := rfl

/-- From `s` to `t` a transaction and a recovery have ended on the link of `x`. -/
structure LinkEnded (x : BayId) (s t : State) : Prop where
  frame : t = { s with relays := t.relays, upstream := t.upstream, attn := t.attn }
  self : t.relays.get x = { linkLost (s.relays.get x) with recover := .notRunning }
  other : t.relays.get x.other = s.relays.get x.other
  failed : (s.relays.get x).recover ≠ .notRunning → queued t (.linkDone x) dRecoverFail

theorem loseLink_frame (x : BayId) (s : State) : loseLink x s = { s with relays := (loseLink x s).relays, upstream := (loseLink x s).upstream } := by
  cases hlink : (s.relays.get x).link with
  | none => rw [loseLink_of_none hlink]
  | some tx =>
    obtain ⟨g, u, he, -, -⟩ := endLost_spec (x := x) tx.purpose (updRelay x (fun r => { r with link := none }) s)
    have hlose : loseLink x s = refuseSlot x (endLost x tx.purpose (updRelay x (fun r => { r with link := none }) s)) := by
      simp only [loseLink, hlink]
    rw [hlose, he, refuseSlot_spec]
    rfl

theorem linkEnded_endLink (x : BayId) (s : State) : LinkEnded x s (failRecover x (loseLink x s)) := by
  have hframe := loseLink_frame x s
  have hrelays := (lost_loseLink x s).relays
  generalize loseLink x s = u at hframe hrelays
  have hrecover : (u.relays.get x).recover = (s.relays.get x).recover := by rw [hrelays, Pair.get_upd_self]; rfl
  have hfail := failRecover_spec (x := x) u
  refine ⟨?_, ?_, ?_, fun h => ?_⟩
  · rw [hfail, hframe]
  · rw [hfail]
    exact (Pair.get_upd_self ..).trans (by rw [hrelays, Pair.get_upd_self])
  · rw [hfail]
    exact (Pair.get_upd_other ..).trans (by rw [hrelays, Pair.get_upd_other])
  · rw [failRecover, if_neg (by rw [hrecover]; exact h)]
    exact queued_post ..

theorem OnKey.endLink {K : AttnKey} {P : State → Prop} (k : OnKey K P) (hK : K ≠ .linkDone x) (h : P s) : P (failRecover x (loseLink x s)) := by
  have hlost : P (loseLink x s) := k.same s _ (lost_loseLink x s).attn h
  unfold failRecover
  split
  · exact hlost
  · exact k.other _ _ _ hK.symm (k.same (loseLink x s) _ rfl hlost)

/-- What the Bay Controller finds. -/
structure Fallen (x : BayId) (s t : State) : Prop where
  bays : t.bays = s.bays.upd x (fun b => { b with presence := false })
  pp : t.pp = s.pp
  relay : t.relays.get x = { linkLost (s.relays.get x) with recover := .notRunning }
  other : t.relays.get x.other = s.relays.get x.other
  beside : SameBeside { s with upstream := t.upstream } t
  cache : t.cache = s.cache
  failed : (s.relays.get x).recover ≠ .notRunning → queued t (.linkDone x) dRecoverFail

theorem fallen_beforeFall (x : BayId) (s : State) : Fallen x s (beforeFall x s) := by
  obtain ⟨hframe, hself, hother, hfailed⟩ := linkEnded_endLink x (recompute (updBay x (fun b => { b with presence := false }) s))
  have hrec := recompute_eq (updBay x (fun b => { b with presence := false }) s)
  have hrelays : (recompute (updBay x (fun b => { b with presence := false }) s)).relays = s.relays := by rw [hrec]; rfl
  rw [hrelays] at hself hother hfailed
  refine ⟨?_, ?_, hself, hother, ?_, ?_, hfailed⟩
  · rw [beforeFall, hframe, hrec]
    rfl
  · rw [beforeFall, hframe, hrec]
    rfl
  · unfold beforeFall
    rw [hframe, hrec]
    exact ⟨rfl, rfl, rfl, rfl, rfl, rfl, rfl, rfl⟩
  · rw [beforeFall, hframe, hrec]
    rfl

theorem Fallen.get (h : Fallen x s t) : t.bays.get x = { s.bays.get x with presence := false } := by rw [h.bays, Pair.get_upd_self]

theorem Fallen.get_other (h : Fallen x s t) : t.bays.get x.other = s.bays.get x.other := by rw [h.bays, Pair.get_upd_other]

theorem Fallen.windowOpen (h : Fallen x s t) : windowOpen t = windowOpen s := by
  have hmotion : t.motion = s.motion := h.beside.motion
  unfold Machine.windowOpen
  rw [hmotion]

theorem OnKey.beforeFall {K : AttnKey} {P : State → Prop} (k : OnKey K P) (hc : K ≠ .budgetCut) (hK : K ≠ .linkDone x) (h : P s) :
    P (beforeFall x s) := k.endLink hK (k.recompute hc (k.same s _ rfl h))

end Before

/-! ### After the bay has moved: the answer of R33 and the events of R25 -/

section After
variable {x : BayId} {s t e old : State}

/-- Bay `x` is out of the way: what follows leaves it, the cache and the postings of other keys. -/
structure Fell (x : BayId) (e t : State) : Prop where
  rests : Rests x e t
  frame : baysOnly e t
  queue : ∀ K d, aside K → queued e K d → queued t K d

theorem rests_answerNoSource (h : (e.bays.get x).state ≠ .standby) : Rests x e (answerNoSource e) := by
  cases ht : takeOverBay e with
  | none =>
    rw [answerNoSource_of_none ht]
    exact rests_startBridge x .emergency e
  | some y =>
    have hy : x ≠ y := fun hxy => h (by rw [hxy]; exact (takeOverBay_spec ht).1)
    rw [answerNoSource_of_some ht]
    have hrest := rests_goOnline_other y dTakeOver e
    rw [← eq_other_of_ne hy] at hrest
    exact hrest

theorem fell_of_state {c : Prop} [Decidable c] (h : (e.bays.get x).state ≠ .standby) :
    Fell x e (settle old (if c then answerNoSource e else e)) := by
  have hrest : Rests x e (if c then answerNoSource e else e) := by
    split
    · exact rests_answerNoSource h
    · exact Rests.refl x e
  refine ⟨hrest.trans (rests_settle (by rw [hrest.bay]; exact h)), (baysOnly_swaps e).settle old ?_, fun K d hK hq => ?_⟩
  · split
    · exact (baysOnly_swaps e).answerNoSource (fun w => w.elim) (baysOnly.refl e)
    · exact baysOnly.refl e
  · have hw := (onKey_queued K d).swaps hK
    refine hw.settle old ?_
    split
    · exact hw.answerNoSource (fun w => w.elim) hq
    · exact hq

/-- The last source has gone with the presence of bay `x`. -/
def lastGone (x : BayId) (s : State) : Prop :=
  anyConducts s = true ∧ ¬ anyConducts (recompute (updBay x (fun b => { b with presence := false }) s)) = true

theorem presenceFalls_of_last (h : lastGone x s) : presenceFalls x s = answerNoSource (afterLoss x s) := if_pos h

theorem presenceFalls_of_not (h : ¬ lastGone x s) : presenceFalls x s = afterLoss x s := if_neg h

theorem fell_presenceFalls (h : ((afterLoss x s).bays.get x).state ≠ .standby) : Fell x (afterLoss x s) (settle old (presenceFalls x s)) :=
  fell_of_state (c := anyConducts s ∧ ¬ anyConducts (recompute (updBay x (fun b => { b with presence := false }) s))) h

theorem get_stopPresenceDeb (x : BayId) (s : State) : (stopPresenceDeb x s).bays.get x = { s.bays.get x with presDeb := none } :=
  Pair.get_upd_self ..

theorem presenceExpiry_falls (h : presenceTurns s x false) : presenceExpiry x s = presenceFalls x (stopPresenceDeb x s) := by
  obtain ⟨hdeb, hline, hpres⟩ := h
  have hrun : ¬ (s.bays.get x).presDeb.isNone = true := by rw [Option.isNone_iff_eq_none]; exact Option.isSome_iff_ne_none.mp hdeb
  unfold presenceExpiry
  rw [if_neg hrun]
  simp only [hline, hpres, Bool.not_false, Bool.false_eq_true, if_false, if_true]

theorem presenceExpiry_rises (h : (s.bays.get x).presDeb.isSome = true) (hline : (s.bays.get x).presLine = true) :
    presenceExpiry x s = recordRise x (stopPresenceDeb x s) := by
  have hrun : ¬ (s.bays.get x).presDeb.isNone = true := by rw [Option.isNone_iff_eq_none]; exact Option.isSome_iff_ne_none.mp h
  unfold presenceExpiry
  rw [if_neg hrun]
  simp only [hline, if_true]

/-- R17: the row of the debounce that runs out on a released line. -/
theorem exec_presence_falls (h : presenceTurns s x false)
    (hst : ((afterLoss x (stopPresenceDeb x s)).bays.get x).state ≠ .standby) :
    ∃ t, exec (.presenceDebounceExpiry x) s = .next t ∧ Fell x (afterLoss x (stopPresenceDeb x s)) t :=
  ⟨_, by rw [exec_presenceDebounceExpiry, presenceExpiry_falls h], fell_presenceFalls hst⟩

end After

/-! ### The jolt (R32) -/

section Jolts
variable {x : BayId} {s t e : State}

/-- What the entry into JOLT leaves of the bay, before what follows. -/
structure Jolted (x : BayId) (s t : State) : Prop where
  bay : t.bays.get x = markJolted (joltEarlierOf (s.bays.get x).state) (serialOf s x) ((s.bays.get x).enter .jolt)
  relay : t.relays.get x = (s.relays.get x).enter .jolt
  pp : t.pp = s.pp
  set : t.motion.jolted.get x = true
  lines : ∀ cs ∈ t.cache, noFreshSet x cs
  aborted : (s.bays.get x).state = .probing → (s.bays.get x).probeCause = .bayProbe → queued t (.linkDone x) dAborted

theorem jolted_enterJolt (x : BayId) (s : State) : Jolted x s (enterJolt x s) := by
  have hu := enterJolt_units x s
  refine ⟨?_, ?_, ?_, Pair.get_upd_self .., ?_, fun hst hc => ?_⟩
  · rw [hu.bays, updBay_bays, Pair.get_upd_self, setBayState_bays, Pair.get_upd_self]
  · rw [hu.relays, updBay_relays, setBayState_relays, Pair.get_upd_self]
  · rw [hu.pp, updBay_pp, setBayState_pp]
  · have hlines := noFresh_cacheDistrust x
      (updBay x (markJolted (joltEarlierOf (s.bays.get x).state) (serialOf s x)) (setBayState x .jolt s))
    have hcache := (baysOnly_postProbeEnd (b := s.bays.get x) (x := x) (d := dAborted) (s := cacheDistrust x
      (updBay x (markJolted (joltEarlierOf (s.bays.get x).state) (serialOf s x)) (setBayState x .jolt s)))).cache
    rw [← hcache] at hlines
    exact hlines
  · exact (onKey_queued _ _).same (postProbeEnd (s.bays.get x) x dAborted (cacheDistrust x
      (updBay x (markJolted (joltEarlierOf (s.bays.get x).state) (serialOf s x)) (setBayState x .jolt s)))) _ rfl
      (queued_postProbeEnd _ hst hc)

theorem OnKey.enterJolt {K : AttnKey} {P : State → Prop} (k : OnKey K P) (hc : K ≠ .budgetCut)
    (hK : (s.bays.get x).state = .probing → K ≠ .linkDone x) (h : P s) : P (enterJolt x s) := by
  have hset : P (cacheDistrust x (updBay x (markJolted (joltEarlierOf (s.bays.get x).state) (serialOf s x)) (Machine.setBayState x .jolt s))) :=
    k.same (Machine.setBayState x .jolt s) _ rfl (k.setBayState hc x .jolt h)
  have hend : P (Machine.postProbeEnd (s.bays.get x) x dAborted
      (cacheDistrust x (updBay x (markJolted (joltEarlierOf (s.bays.get x).state) (serialOf s x)) (Machine.setBayState x .jolt s)))) := by
    unfold Machine.postProbeEnd
    split
    · next hp => exact k.other _ _ _ (hK (probedByCommand_iff.mp hp).1).symm hset
    · exact hset
  exact k.same (Machine.postProbeEnd (s.bays.get x) x dAborted
    (cacheDistrust x (updBay x (markJolted (joltEarlierOf (s.bays.get x).state) (serialOf s x)) (Machine.setBayState x .jolt s)))) _ rfl hend

theorem fallByState_jolts (hst : (s.bays.get x).state = .online ∨ (s.bays.get x).state = .standby ∨ (s.bays.get x).state = .probing)
    (hw : windowOpen s = true) : fallByState x s = enterJolt x s := by
  unfold fallByState
  obtain h | h | h := hst <;> simp only [h, hw, if_true]

/-! ### The switch of a jolted pack (R34) -/

/-- Bay `x` is in JOLT, and its switch is as it was and not held, or the other switch is ON. -/
def joltSwitch (x : BayId) (w : Switch) (u : State) : Prop :=
  (u.bays.get x).state = .jolt ∧ ((u.pp.held.get x = false ∧ u.pp.sw.get x = w) ∨ u.pp.sw.get x.other = .on)

theorem sw_releaseHeld_of_unheld (h : s.pp.held.get x = false) : (releaseHeld s).pp.sw.get x = s.pp.sw.get x := by
  have one : ∀ y u, u.pp.held.get x = false → (releaseHeldOne y u).pp.sw.get x = u.pp.sw.get x := fun y u hu => by
    unfold releaseHeldOne
    split
    · next hc =>
      have hy : x ≠ y := fun e => by
        rw [← e, hu] at hc
        cases hc.1
      rw [sw_setSwitch, Pair.get_upd_ne _ hy]
    · rfl
  exact (one .B _ (held_releaseHeldOne h)).trans (one .A s h)

theorem unheld_startBridge (why : BridgeReason) (h : s.pp.held.get x = false) :
    (startBridge why s).pp.held.get x = false ∧ (startBridge why s).pp.sw.get x = s.pp.sw.get x := by
  unfold startBridge
  split
  · have hheld : (recompute (post .bridgeOn (dBridge why)
        { s with pp := { s.pp with bridge := .running, bridgeSw := true, timer := 0, lowpwr := true } })).pp.held.get x = false := by
      rw [recompute_pp]
      exact h
    exact ⟨held_releaseHeld hheld, (sw_releaseHeld_of_unheld hheld).trans (by rw [recompute_pp]; rfl)⟩
  · exact ⟨h, rfl⟩

theorem joltSwitch_goOnline {w : Switch} {y : BayId} (h : joltSwitch x w s) (hy : (s.bays.get y).state = .standby) :
    joltSwitch x w (goOnline y dTakeOver s) := by
  have hxy : x ≠ y := fun e => by
    rw [← e, h.1] at hy
    cases hy
  have hyx : y = x.other := eq_other_of_ne fun e => hxy e.symm
  have hrest := rests_goOnline_other y dTakeOver s
  rw [← eq_other_of_ne hxy] at hrest
  exact ⟨by rw [hrest.bay]; exact h.1, .inr (hyx ▸ sw_goOnline y dTakeOver s)⟩

theorem joltSwitch_answer {c : Prop} [Decidable c] (hst : (s.bays.get x).state = .jolt) (hheld : s.pp.held.get x = false) :
    joltSwitch x (s.pp.sw.get x) (if c then answerNoSource s else s) := by
  have h : joltSwitch x (s.pp.sw.get x) s := ⟨hst, .inl ⟨hheld, rfl⟩⟩
  split
  · cases ht : takeOverBay s with
    | none =>
      rw [answerNoSource_of_none ht]
      exact ⟨by rw [bays_startBridge]; exact hst, .inl (unheld_startBridge .emergency hheld)⟩
    | some y =>
      rw [answerNoSource_of_some ht]
      exact joltSwitch_goOnline h (takeOverBay_spec ht).1
  · exact h

/-- R34: what follows the jolt leaves a switch that is not held, unless the other switch turns ON. -/
theorem joltSwitch_fall (old : State) (hst : ((afterLoss x s).bays.get x).state = .jolt) (hheld : (afterLoss x s).pp.held.get x = false) :
    joltSwitch x ((afterLoss x s).pp.sw.get x) (settle old (presenceFalls x s)) := by
  refine settle_keeps (P := joltSwitch x _) (fun z u hu hz _ _ => joltSwitch_goOnline hu hz) ?_
  exact joltSwitch_answer (c := anyConducts s ∧ ¬ anyConducts (recompute (updBay x (fun b => { b with presence := false }) s))) hst hheld

end Jolts

theorem linkLost_link (r : Relay) : (linkLost r).link = none := rfl

/-- Settles O21: a fall in the drop window is a jolt, and what follows it leaves the bay. -/
theorem lossInTheWindowIsAJolt : Obligations.LossInTheWindowIsAJolt := by
  intro x s hturn hw hst
  have hstop : (stopPresenceDeb x s).bays.get x = { s.bays.get x with presDeb := none } := get_stopPresenceDeb x s
  have hf := fallen_beforeFall x (stopPresenceDeb x s)
  have hget := hf.get
  rw [hstop] at hget
  have hrelay : (beforeFall x (stopPresenceDeb x s)).relays.get x = { linkLost (s.relays.get x) with recover := .notRunning } := hf.relay
  have hwin : windowOpen (beforeFall x (stopPresenceDeb x s)) = true := hf.windowOpen.trans (windowOpen_of_not (s := s) hw)
  have hst' : ((beforeFall x (stopPresenceDeb x s)).bays.get x).state = (s.bays.get x).state := by rw [hget]
  have hloss : afterLoss x (stopPresenceDeb x s) = enterJolt x (beforeFall x (stopPresenceDeb x s)) :=
    (afterLoss_eq x _).trans (fallByState_jolts (by rw [hst']; exact hst) hwin)
  have hj := jolted_enterJolt x (beforeFall x (stopPresenceDeb x s))
  have hcause : ((beforeFall x (stopPresenceDeb x s)).bays.get x).probeCause = (s.bays.get x).probeCause := by rw [hget]
  have hfailed : (s.relays.get x).recover ≠ .notRunning → (s.bays.get x).state ≠ .probing →
      queued (enterJolt x (beforeFall x (stopPresenceDeb x s))) (.linkDone x) dRecoverFail := fun hr hp =>
    (onKey_queued _ _).enterJolt (fun e => by cases e) (fun e => absurd (hst'.symm.trans e) hp) (hf.failed hr)
  have hjst : ((afterLoss x (stopPresenceDeb x s)).bays.get x).state = .jolt := by rw [hloss, hj.bay]; rfl
  have hfell : Fell x (afterLoss x (stopPresenceDeb x s)) (settle s (presenceFalls x (stopPresenceDeb x s))) :=
    fell_presenceFalls (by rw [hjst]; decide)
  have hswitch := joltSwitch_fall (x := x) (s := stopPresenceDeb x s) s hjst
  have hpp : (afterLoss x (stopPresenceDeb x s)).pp = s.pp := by rw [hloss, hj.pp, hf.pp]; rfl
  have hrow : exec (.presenceDebounceExpiry x) s = .next (settle s (presenceFalls x (stopPresenceDeb x s))) := by
    rw [exec_presenceDebounceExpiry, presenceExpiry_falls hturn]
  rw [hpp] at hswitch
  obtain ⟨hrests, hframe, hqueue⟩ := hfell
  have haside : aside (.linkDone x) := ⟨fun e => (by cases e), fun e => (by cases e), fun y e => (by cases e), fun y e => (by cases e)⟩
  generalize settle s (presenceFalls x (stopPresenceDeb x s)) = t at hrests hframe hqueue hrow hswitch
  rw [hloss] at hrests hframe hqueue
  have htb := hrests.bay.trans hj.bay
  have htr := hrests.relay.trans hj.relay
  rw [hget] at htb
  rw [hrelay] at htr
  have hserial : serialOf (beforeFall x (stopPresenceDeb x s)) x = (s.relays.get x).snap.serial := by rw [serialOf, hrelay]; rfl
  rw [hserial] at htb
  exact ⟨t, hrow, by rw [htb]; rfl, by rw [htb]; rfl, by rw [htb]; rfl, by rw [htb]; rfl, by rw [htb]; rfl,
    by rw [hframe.motion]; exact hj.set, fun hheld => (hswitch hheld).2.imp And.right id, by rw [hframe.cache]; exact hj.lines,
    by rw [htr]; rfl, by rw [htr]; rfl, by rw [htr]; rfl, by rw [htr]; rfl, by rw [htr]; rfl,
    fun hp hc => hqueue _ _ haside (hj.aborted (hst'.trans hp) (hcause.trans hc)), fun hr hp => hqueue _ _ haside (hfailed hr hp)⟩

end Sys2Proof.Machine
end

