-- ==== Sys2Proof/Proofs/LossAndLastSource.lean ====
section
/-! PROOFS. A loss outside the drop window (R19, R30, R31, R36, R38, R97), and the loss of the last conducting source (R7, R33). -/

namespace Sys2Proof.Machine

/-! ### The lines of a bay whose pack departs (R97, R38) -/

/-- What a departure does to a line of bay `x`: `drop` where an earlier context goes or none stays, `discard` where the new one goes at once. -/
def departLine (view : MapView) (x : BayId) (drop discard : Bool) (l : Line) : Line :=
  if l.valid ∧ l.bay = x then
    if l.state = .fresh then
      if (mapEntry view l.code).cls = .fixed ∧ discard = false then { l with state := .parked } else Line.invalid
    else if l.state = .parked then (if drop then Line.invalid else l) else Line.invalid
  else l

section Lines
variable {x : BayId} {s t : State}

theorem departLine_not_fresh (view : MapView) (drop discard : Bool) (l : Line) :
    ¬ ((departLine view x drop discard l).valid = true ∧ (departLine view x drop discard l).bay = x
      ∧ (departLine view x drop discard l).state = .fresh) := by
  unfold departLine
  by_cases hl : l.valid = true ∧ l.bay = x
  · rw [if_pos hl]
    split
    · split
      · exact fun h => LineState.noConfusion h.2.2
      · exact fun h => Bool.noConfusion h.1
    split
    · next hp =>
      cases drop
      · exact fun h => LineState.noConfusion (hp.symm.trans h.2.2)
      · exact fun h => Bool.noConfusion h.1
    · exact fun h => Bool.noConfusion h.1
  · rw [if_neg hl]
    exact fun h => hl ⟨h.1, h.2.1⟩

/-- The EMPTY notice (R97). -/
theorem parkLine_eq (view : MapView) (l : Line) :
    (if l.valid ∧ l.bay = x then parkLine view l else l) = departLine view x false false l := by
  obtain ⟨valid, bay, code, value, state, age⟩ := l
  by_cases hb : bay = x
  · cases valid <;> cases state <;> simp [departLine, parkLine, hb]
  · simp [departLine, hb]

/-- The EMPTY notice after an earlier context has gone. -/
theorem dropParked_parkLine (view : MapView) (l : Line) : departLine view x false false
    (if l.valid ∧ l.bay = x ∧ l.state = .parked then Line.invalid else l) = departLine view x true false l := by
  obtain ⟨valid, bay, code, value, state, age⟩ := l
  by_cases hb : bay = x
  · cases valid <;> cases state <;> simp [departLine, hb, Line.invalid]
  · simp [departLine, hb]

/-- The EMPTY notice before the new context goes at once. -/
theorem parkLine_dropParked (view : MapView) (drop : Bool) (l : Line) :
    (if (departLine view x drop false l).valid ∧ (departLine view x drop false l).bay = x ∧ (departLine view x drop false l).state = .parked
      then Line.invalid else departLine view x drop false l) = departLine view x true true l := by
  obtain ⟨valid, bay, code, value, state, age⟩ := l
  by_cases hb : bay = x
  · cases valid with
    | false => simp [departLine]
    | true =>
      cases state with
      | fresh =>
        by_cases hc : (mapEntry view code).cls = .fixed
        · simp [departLine, hb, hc]
        · simp [departLine, hb, hc, Line.invalid]
      | suspect => simp [departLine, hb, Line.invalid]
      | parked => cases drop <;> simp [departLine, hb, Line.invalid]
  · simp [departLine, hb]

theorem cache_cacheEmpty : (cacheEmpty x s).cache = s.cache.map (CacheSet.mapLines (departLine (mapInService s) x false false)) :=
  congrArg (fun f => s.cache.map (CacheSet.mapLines f)) (funext (parkLine_eq (mapInService s)))

theorem cache_saveContext (serial : Option Half) : (cacheEmpty x (saveContext x serial s)).cache
    = s.cache.map (CacheSet.mapLines (departLine (mapInService s) x (s.bays.get x).context.isSome false)) := by
  have hmap : mapInService (saveContext x serial s) = mapInService s := by
    unfold saveContext
    split <;> rfl
  rw [cache_cacheEmpty, hmap]
  unfold saveContext
  cases (s.bays.get x).context with
  | none => rfl
  | some c =>
    refine (map_mapLines _ _ s.cache).trans (congrArg (fun f => s.cache.map (CacheSet.mapLines f)) (funext fun l => ?_))
    exact dropParked_parkLine (mapInService s) l

/-- R38: the new context goes at once. -/
def discards (save : Option (Option Half)) (s : State) : Bool := save.isSome && decide (reinsertWindow s = 0)

/-- R38: an earlier context goes, or none stays. -/
def dropsParked (x : BayId) (save : Option (Option Half)) (s : State) : Bool :=
  save.isSome && ((s.bays.get x).context.isSome || decide (reinsertWindow s = 0))

theorem cache_parkDeparted (x : BayId) (save : Option (Option Half)) (s : State) : (parkDeparted x save s).cache
    = s.cache.map (CacheSet.mapLines (departLine (mapInService s) x (dropsParked x save s) (discards save s))) := by
  cases save with
  | none => exact cache_cacheEmpty
  | some serial =>
    by_cases hw : reinsertWindow s = 0
    · have hpark : parkDeparted x (some serial) s = discardContext x (cacheEmpty x (saveContext x serial s)) := if_pos hw
      have hd : discards (some serial) s = true := decide_eq_true hw
      have hp : dropsParked x (some serial) s = true := by
        rw [dropsParked, decide_eq_true hw, Bool.or_true]
        rfl
      have hcache : (discardContext x (cacheEmpty x (saveContext x serial s))).cache = (cacheEmpty x (saveContext x serial s)).cache.map
          (CacheSet.mapLines fun l => if l.valid ∧ l.bay = x ∧ l.state = .parked then Line.invalid else l) := rfl
      rw [hpark, hd, hp, hcache, cache_saveContext]
      exact (map_mapLines _ _ s.cache).trans
        (congrArg (fun f => s.cache.map (CacheSet.mapLines f)) (funext (parkLine_dropParked (mapInService s) _)))
    · have hpark : parkDeparted x (some serial) s = cacheEmpty x (saveContext x serial s) := if_neg hw
      have hd : discards (some serial) s = false := decide_eq_false hw
      have hp : dropsParked x (some serial) s = (s.bays.get x).context.isSome := by
        rw [dropsParked, decide_eq_false hw, Bool.or_false]
        rfl
      rw [hpark, hd, hp, cache_saveContext]

theorem cache_enterEmpty (save : Option (Option Half)) (d : Bool) : (enterEmpty x save d s).cache
    = s.cache.map (CacheSet.mapLines (departLine (mapInService s) x (dropsParked x save s) (discards save s))) :=
  (baysOnly_enterEmpty x save d s).cache.trans (cache_parkDeparted x save s)

end Lines

/-! ### The departure (R19, R31) -/

section Departs
variable {x : BayId} {s t : State}

/-- R38: the context that a departure saves. -/
def savedSerial (x : BayId) (s : State) : Option (Option Half) := if steady (s.bays.get x).state then some (serialOf s x) else none

/-- The departure of the pack with the notice to Bay Probe (R31). -/
def departs (x : BayId) (s : State) : State := postProbeEnd (s.bays.get x) x dAborted (enterEmpty x (savedSerial x s) true s)

theorem postProbeEnd_of_ne {b : Bay} (h : b.state ≠ .probing) (d : Detail) : postProbeEnd b x d s = s :=
  if_neg fun hc => h (probedByCommand_iff.mp hc).1

/-- R30, R31, R36: outside the drop window every served or faulted bay takes the loss alike. -/
theorem fallByState_departs (hw : windowOpen s = false ∨ (s.bays.get x).state = .releasing ∨ (s.bays.get x).state = .faulted)
    (hst : (s.bays.get x).state = .probing ∨ steady (s.bays.get x).state = true ∨ (s.bays.get x).state = .faulted) :
    fallByState x s = departs x s := by
  have hend : ∀ e, (s.bays.get x).state ≠ .probing → e = postProbeEnd (s.bays.get x) x dAborted e := fun e h => (postProbeEnd_of_ne h _).symm
  unfold fallByState departs savedSerial
  cases h : (s.bays.get x).state with
  | online =>
    have hclosed : windowOpen s = false := hw.resolve_right fun e => by rw [h] at e; exact e.elim (fun e => by cases e) fun e => by cases e
    simp only [hclosed, abruptLoss, h]
    rfl
  | standby =>
    have hclosed : windowOpen s = false := hw.resolve_right fun e => by rw [h] at e; exact e.elim (fun e => by cases e) fun e => by cases e
    simp only [hclosed, abruptLoss, h]
    rfl
  | probing =>
    have hclosed : windowOpen s = false := hw.resolve_right fun e => by rw [h] at e; exact e.elim (fun e => by cases e) fun e => by cases e
    simp only [hclosed, abruptLoss, h]
    rfl
  | releasing => exact hend _ (by rw [h]; decide)
  | faulted => exact hend _ (by rw [h]; decide)
  | empty => rw [h] at hst; exact absurd hst (by decide)
  | seating => rw [h] at hst; exact absurd hst (by decide)
  | jolt => rw [h] at hst; exact absurd hst (by decide)

/-- What the departure leaves of a bay whose line is released. -/
structure Gone (x : BayId) (s t : State) : Prop where
  bay : t.bays.get x = Bay.enter .empty { s.bays.get x with context := departedContext (savedSerial x s) s (s.bays.get x).context }
  relay : t.relays.get x = (s.relays.get x).enter .empty
  posted : queued t (.presence (.bay x)) dDeparted
  off : t.pp.sw.get x = .off ∨ t.pp.held.get x = true
  aborted : (s.bays.get x).state = .probing → (s.bays.get x).probeCause = .bayProbe → queued t (.linkDone x) dAborted
  cache : t.cache = s.cache.map (CacheSet.mapLines (departLine (mapInService s) x (dropsParked x (savedSerial x s) s) (discards (savedSerial x s) s)))

theorem gone_departs (hline : (s.bays.get x).presLine = false) : Gone x s (departs x s) := by
  have hempty := enterEmpty_of_released x (savedSerial x s) true s hline
  have hr := rests_postProbeEnd (b := s.bays.get x) (x := x) (d := dAborted) (s := enterEmpty x (savedSerial x s) true s) x
  refine ⟨hr.bay.trans ?_, hr.relay.trans ?_, queued_postProbeEnd_of_ne (fun e => by cases e) queued_enterEmpty,
    hr.off_or_held (off_or_held_enterEmpty x _ true s), fun hst hc => queued_postProbeEnd _ hst hc, ?_⟩
  · rw [hempty]
    exact get_becomeEmpty x _ true s
  · rw [hempty]
    exact get_becomeEmpty_relays x _ true s
  · exact (baysOnly_postProbeEnd ..).cache.trans (cache_enterEmpty _ true)

end Departs

/-! ### The last conducting source (R7, R33) -/

section Dark
variable {x : BayId} {s e u : State} {save : Option (Option Half)} {d : Bool}

/-- Bay `x` is EMPTY with its switch held, no source conducts, and the other bay is as it was. -/
structure Dark (x : BayId) (s e : State) : Prop where
  pp : e.pp = { s.pp with held := s.pp.held.upd x (fun _ => true) }
  state : (e.bays.get x).state = .empty
  other : e.bays.get x.other = s.bays.get x.other
  tables : e.tables = s.tables
  dark : otherConducts s x = false

theorem dark_enterEmpty (hline : (s.bays.get x).presLine = false) (hc : otherConducts s x = false) (hsw : s.pp.sw.get x ≠ .off) :
    Dark x s (enterEmpty x save d s) := by
  have hempty := enterEmpty_of_released x save d s hline
  have hpp : (enterEmpty x save d s).pp = (switchOff x (leftBay x save d s)).pp := by rw [hempty, becomeEmpty_eq]
  have hoff : switchOff x (leftBay x save d s) = setHeld x true (leftBay x save d s) := by
    rw [switchOff, if_neg (by rw [leftBay_pp]; exact hsw), if_neg (by rw [otherConducts_leftBay, hc]; decide)]
  refine ⟨?_, by rw [hempty, get_becomeEmpty]; rfl, (rests_enterEmpty_other x save d s).bay, (beside_enterEmpty x save d s).tables, hc⟩
  rw [hpp, hoff]
  exact congrArg (fun p : PowerPath => { p with held := p.held.upd x (fun _ => true) }) (leftBay_pp x save d s)

theorem Dark.postProbeEnd (h : Dark x s e) (b : Bay) (c : Detail) : Dark x s (postProbeEnd b x c e) := by
  unfold Machine.postProbeEnd
  split
  · exact ⟨h.pp, h.state, h.other, h.tables, h.dark⟩
  · exact h

theorem Dark.held (h : Dark x s e) : e.pp.held.get x = true := by
  rw [h.pp]
  exact Pair.get_upd_self ..

theorem Dark.canTakeOver (h : Dark x s e) : canTakeOver e x = false ∧ canTakeOver e x.other = canTakeOver s x.other := by
  unfold Machine.canTakeOver
  rw [h.state, h.other]
  exact ⟨rfl, rfl⟩

theorem Dark.bridgeCanStart (h : Dark x s e) : bridgeCanStart e = bridgeCanStart s :=
  bridgeCanStart_congr (by rw [h.pp]) (by rw [h.pp]) h.tables

/-- R6: a held switch is released where the other's is not held and a source conducts. -/
theorem off_releaseHeld_beside (ho : u.pp.held.get x.other = false) (hh : u.pp.held.get x = true) (hst : (u.bays.get x).state ≠ .online)
    (hc : otherConducts u x = true) : (releaseHeld u).pp.sw.get x = .off := by
  have hother : releaseHeldOne x.other u = u := if_neg fun h => by
    rw [ho] at h
    cases h.1
  have hself : (releaseHeldOne x u).pp.sw.get x = .off := by
    rw [releaseHeldOne, if_pos ⟨hh, hst, hc⟩, sw_setSwitch, Pair.get_upd_self]
  unfold releaseHeld
  cases x with
  | A =>
    have hB : ∀ w, w = releaseHeldOne .A u → w.pp.held.get .B = false := fun w hw => by
      rw [hw]
      exact held_releaseHeldOne ho
    rw [releaseHeldOne, if_neg fun h => by rw [hB _ rfl] at h; cases h.1]
    exact hself
  | B =>
    have hA : releaseHeldOne .A u = u := hother
    rw [hA]
    exact hself

/-- R33: the STANDBY pack takes over, and the held switch of the lost pack is released. -/
theorem Dark.takesOver (h : Dark x s e) (hc : Machine.canTakeOver s x.other = true) (old : State) :
    tookOver (settle old (answerNoSource e)) x.other ∧ (settle old (answerNoSource e)).pp.sw.get x = .off := by
  obtain ⟨hx, ho⟩ := h.canTakeOver
  rw [answerNoSource_of_some (takeOverBay_of_other hx (ho.trans hc))]
  refine ⟨(tookOver_goOnline x.other e).settle old, ?_⟩
  have hpres : (e.bays.get x.other).presence = true := by
    rw [h.other]
    exact (canTakeOver_iff.mp hc).2
  have hsw : e.pp.sw.get x.other ≠ .on := fun hon => by
    have hcond : conductsBay s x.other = true := by
      refine conductsBay_iff.mpr ⟨?_, (canTakeOver_iff.mp hc).2⟩
      rw [h.pp] at hon
      exact ne_of_eq_of_ne hon (by decide)
    have hdark := h.dark
    unfold otherConducts at hdark
    rw [hcond, Bool.or_true, Bool.true_or] at hdark
    cases hdark
  have hrun : ∀ w, w = setSwitch x.other .on e → (endBridge w).pp.held.get x.other = false ∧ (endBridge w).pp.held.get x = true
      ∧ (endBridge w).bays = e.bays ∧ otherConducts (endBridge w) x = true := fun w hw => by
    have hbays : (endBridge w).bays = e.bays := by rw [endB_bays, hw, setSwitch_bays]
    refine ⟨by rw [held_endBridge, hw, held_setSwitch, Pair.get_upd_self], ?_, hbays, ?_⟩
    · rw [held_endBridge, hw, held_setSwitch, Pair.get_upd_ne _ (other_ne x).symm]
      exact h.held
    · refine otherConducts_of_other ?_ (by rw [hbays]; exact hpres)
      rw [(endBridge_pp w).1, hw, sw_setSwitch, Pair.get_upd_self]
      decide
  obtain ⟨hheldOther, hheld, hbays, hconducts⟩ := hrun _ rfl
  have hon : (switchOn x.other e).pp.sw.get x = .off := by
    rw [switchOn, if_neg hsw, if_pos hpres]
    exact off_releaseHeld_beside hheldOther hheld (by rw [hbays, h.state]; decide) hconducts
  have hreq : requestOn x.other e = switchOn x.other e := by
    refine if_neg fun hj => ?_
    have hst := hj.2.1
    rw [other_other, ((powerOnly.refl e).switchOn x.other).bays, h.state] at hst
    cases hst
  have hoff : (goOnline x.other dTakeOver e).pp.sw.get x = .off := by rw [pp_goOnline, hreq]; exact hon
  have hrest := rests_goOnline_other x.other dTakeOver e
  rw [other_other] at hrest
  exact (rests_settle (by rw [hrest.bay, h.state]; decide)).off hoff

/-- R33: without a pack that takes over the bridge starts, and the held switch is released. -/
theorem Dark.starts (h : Dark x s e) (hc : Machine.canTakeOver s x.other = false) (hb : Machine.bridgeCanStart s = true) (old : State) :
    bridgeRun (settle old (answerNoSource e)).pp = (.running, 0, true, true, s.pp.pfail)
      ∧ queued (settle old (answerNoSource e)) .bridgeOn (dBridge .emergency) ∧ (settle old (answerNoSource e)).pp.sw.get x = .off := by
  obtain ⟨hx, ho⟩ := h.canTakeOver
  have hnone : ∀ y, Machine.canTakeOver e y = false := fun y => by
    by_cases hy : y = x
    · rw [hy]; exact hx
    · rw [eq_other_of_ne hy, ho]; exact hc
  have hstart := h.bridgeCanStart.trans hb
  rw [answerNoSource_of_none (takeOverBay_none.mpr hnone)]
  have habsent : ∀ y, Machine.canTakeOver (startBridge .emergency e) y = false := fun y => by
    rw [Machine.canTakeOver, bays_startBridge]
    exact hnone y
  have hrun := (run_settle_of_absent old habsent).trans (run_startBridge .emergency hstart)
  have hfail : e.pp.pfail = s.pp.pfail := by rw [h.pp]
  have hst : ((startBridge .emergency e).bays.get x).state ≠ .standby := by rw [bays_startBridge, h.state]; decide
  refine ⟨by rw [hrun, hfail], queued_settle (fun e => by cases e) (fun y hy => by cases hy) (queued_startBridge .emergency hstart), ?_⟩
  exact (rests_settle hst).off (off_startBridge hstart (by rw [h.state]; decide) (.inr h.held))

/-- A turn-on of a bay without its pack leaves the other bay's switch as it is. -/
theorem beside_requestOn_of_absent (hp : (u.bays.get x.other).presence = false) (hst : (u.bays.get x).state ≠ .jolt) :
    (requestOn x.other u).pp.sw.get x = u.pp.sw.get x ∧ (requestOn x.other u).pp.held.get x = u.pp.held.get x := by
  have hreq : requestOn x.other u = switchOn x.other u := by
    refine if_neg fun hj => hst ?_
    have hj' := hj.2.1
    rw [other_other, ((powerOnly.refl u).switchOn x.other).bays] at hj'
    exact hj'
  rw [hreq]
  unfold switchOn
  rw [hp, if_neg (by decide : ¬ false = true)]
  split
  · exact ⟨rfl, Pair.get_upd_ne _ (other_ne x).symm _⟩
  · rw [sw_setSwitch, held_setSwitch]
    exact ⟨Pair.get_upd_ne _ (other_ne x).symm _, Pair.get_upd_ne _ (other_ne x).symm _⟩

/-- Bay `x` is EMPTY with its switch held at `w`, and no STANDBY bay has its pack. -/
structure HeldDark (x : BayId) (w : Switch) (u : State) : Prop where
  sw : u.pp.sw.get x = w
  held : u.pp.held.get x = true
  state : (u.bays.get x).state = .empty
  absent : (u.bays.get x.other).state = .standby → (u.bays.get x.other).presence = false

theorem HeldDark.goOnline {w : Switch} {z : BayId} (h : HeldDark x w u) (hz : (u.bays.get z).state = .standby) :
    HeldDark x w (goOnline z dTakeOver u) := by
  have hzx : z = x.other := eq_other_of_ne fun e => by
    rw [e, h.state] at hz
    cases hz
  subst hzx
  have hrest := rests_goOnline_other x.other dTakeOver u
  rw [other_other] at hrest
  obtain ⟨hsw, hheld⟩ := beside_requestOn_of_absent (h.absent hz) (by rw [h.state]; decide)
  refine ⟨?_, ?_, by rw [hrest.bay]; exact h.state, fun e => ?_⟩
  · rw [pp_goOnline, hsw]; exact h.sw
  · rw [pp_goOnline, hheld]; exact h.held
  · rw [state_goOnline_self] at e
    cases e

/-- Without a pack that takes over and without the bridge the switch stays held as it was. -/
theorem Dark.stays (h : Dark x s e) (hc : Machine.canTakeOver s x.other = false) (hb : Machine.bridgeCanStart s = false) (old : State) :
    (settle old (answerNoSource e)).pp.sw.get x = s.pp.sw.get x ∧ (settle old (answerNoSource e)).pp.held.get x = true := by
  obtain ⟨hx, ho⟩ := h.canTakeOver
  have hnone : ∀ y, Machine.canTakeOver e y = false := fun y => by
    by_cases hy : y = x
    · rw [hy]; exact hx
    · rw [eq_other_of_ne hy, ho]; exact hc
  rw [answerNoSource_of_none (takeOverBay_none.mpr hnone), startBridge_of_not _ (h.bridgeCanStart.trans hb)]
  have hdark : HeldDark x (s.pp.sw.get x) e := by
    refine ⟨by rw [h.pp], h.held, h.state, fun hst => ?_⟩
    rw [← Bool.not_eq_true]
    exact fun hp => Bool.false_ne_true ((hnone x.other).symm.trans (canTakeOver_iff.mpr ⟨hst, hp⟩))
  have hkept : HeldDark x (s.pp.sw.get x) (settle old e) := settle_keeps (fun z u hu hz _ _ => hu.goOnline hz) hdark
  exact ⟨hkept.sw, hkept.held⟩

end Dark

/-! ### The row (R17) -/

section Row
variable {x : BayId} {s : State}

/-- The state in which the Bay Controller takes a recorded fall whose debounce has run out. -/
def atFall (x : BayId) (s : State) : State := beforeFall x (stopPresenceDeb x s)

theorem afterLoss_atFall (x : BayId) (s : State) : afterLoss x (stopPresenceDeb x s) = fallByState x (atFall x s) := rfl

theorem get_atFall (x : BayId) (s : State) : (atFall x s).bays.get x = { s.bays.get x with presDeb := none, presence := false } := by
  rw [atFall, (fallen_beforeFall x _).get, get_stopPresenceDeb]

theorem atFall_other (x : BayId) (s : State) : (atFall x s).bays.get x.other = s.bays.get x.other :=
  (fallen_beforeFall x (stopPresenceDeb x s)).get_other.trans (Pair.get_upd_other ..)

theorem atFall_relay (x : BayId) (s : State) : (atFall x s).relays.get x = { linkLost (s.relays.get x) with recover := .notRunning } :=
  (fallen_beforeFall x (stopPresenceDeb x s)).relay

theorem atFall_pp (x : BayId) (s : State) : (atFall x s).pp = s.pp := (fallen_beforeFall x (stopPresenceDeb x s)).pp

theorem atFall_tables (x : BayId) (s : State) : (atFall x s).tables = s.tables := (fallen_beforeFall x (stopPresenceDeb x s)).beside.tables

theorem atFall_time (x : BayId) (s : State) : (atFall x s).time = s.time := (fallen_beforeFall x (stopPresenceDeb x s)).beside.time

theorem atFall_cache (x : BayId) (s : State) : (atFall x s).cache = s.cache := (fallen_beforeFall x (stopPresenceDeb x s)).cache

theorem windowOpen_atFall (x : BayId) (s : State) : windowOpen (atFall x s) = windowOpen s :=
  (fallen_beforeFall x (stopPresenceDeb x s)).windowOpen

theorem reinsertWindow_atFall (x : BayId) (s : State) : reinsertWindow (atFall x s) = reinsertWindow s := by
  unfold reinsertWindow cfg inEffect
  rw [atFall_tables]

theorem mapInService_atFall (x : BayId) (s : State) : mapInService (atFall x s) = mapInService s := by
  unfold mapInService
  rw [atFall_tables]

theorem otherConducts_atFall (x : BayId) (s : State) : otherConducts (atFall x s) x = otherConducts s x := by
  unfold otherConducts conductsBay conductsBridge
  rw [atFall_other, atFall_pp]

theorem bridgeCanStart_atFall (x : BayId) (s : State) : bridgeCanStart (atFall x s) = bridgeCanStart s :=
  bridgeCanStart_congr (by rw [atFall_pp]) (by rw [atFall_pp]) (atFall_tables x s)

/-- R33: a fall on the one bay that conducts is the loss of the last source. -/
theorem lastGone_of_dark (hp : (s.bays.get x).presence = true) (hsw : s.pp.sw.get x ≠ .off) (hc : otherConducts s x = false) :
    lastGone x s := by
  constructor
  · rw [anyConducts_eq x, conductsBay_iff.mpr ⟨hsw, hp⟩, Bool.or_true]
  · have hdark : otherConducts (recompute (updBay x (fun b => { b with presence := false }) s)) x = false := by
      refine (otherConducts_congr (s := s) ?_ ?_ ?_ ?_).trans hc
      · rw [recompute_pp]; rfl
      · rw [recompute_pp]; rfl
      · rw [recompute_pp]; rfl
      · rw [recompute_bays, updBay_bays, Pair.get_upd_other]
    have hout : conductsBay (recompute (updBay x (fun b => { b with presence := false }) s)) x = false := by
      rw [← Bool.not_eq_true, conductsBay_iff, recompute_bays, updBay_bays, Pair.get_upd_self]
      exact fun h => Bool.noConfusion h.2
    rw [anyConducts_eq x, hdark, hout]
    decide

/-- A change of one bay's record leaves what conducts beside it. -/
theorem otherConducts_updBay (f : Bay → Bay) : otherConducts (updBay x f s) x = otherConducts s x :=
  otherConducts_congr rfl rfl rfl (by rw [updBay_bays, Pair.get_upd_other])

/-- The row, where the loss takes the last source of an ONLINE bay. -/
theorem exec_lastLoss (hturn : presenceTurns s x false) (hw : s.motion.window = .closed) (hon : (s.bays.get x).state = .online)
    (hsw : s.pp.sw.get x ≠ .off) (hc : otherConducts s x = false) :
    ∃ e, exec (.presenceDebounceExpiry x) s = .next (settle s (answerNoSource e)) ∧ Dark x (atFall x s) e := by
  have hst : ((atFall x s).bays.get x).state = .online := by rw [get_atFall]; exact hon
  have hdeparts : fallByState x (atFall x s) = departs x (atFall x s) :=
    fallByState_departs (.inl (by rw [windowOpen_atFall]; exact windowOpen_of_closed hw)) (.inr (.inl (by rw [hst]; rfl)))
  refine ⟨departs x (atFall x s), ?_, ?_⟩
  · rw [exec_presenceDebounceExpiry, presenceExpiry_falls hturn, presenceFalls_of_last (lastGone_of_dark (s := stopPresenceDeb x s)
      (by rw [get_stopPresenceDeb]; exact hturn.2.2) hsw ((otherConducts_updBay _).trans hc)),
      afterLoss_atFall, hdeparts]
  · refine (dark_enterEmpty ?_ ?_ ?_).postProbeEnd _ _
    · rw [get_atFall]; exact hturn.2.1
    · rw [otherConducts_atFall]; exact hc
    · rw [atFall_pp]; exact hsw

theorem canTakeOver_atFall (x : BayId) (s : State) : canTakeOver (atFall x s) x.other = canTakeOver s x.other := by
  unfold canTakeOver
  rw [atFall_other]

/-- R97, R38: the lines after the departure, in the terms of the row. -/
theorem departLine_eq (x : BayId) (view : MapView) (st : Bool) (context : Option Context) (w : Nat) (l : Line) :
    departLine view x (st && (context.isSome || decide (w = 0))) (st && decide (w = 0)) l
      = if l.valid ∧ l.bay = x then
          (match l.state with
            | .suspect => Line.invalid
            | .parked => if st ∧ (context ≠ none ∨ w = 0) then Line.invalid else l
            | .fresh => if (mapEntry view l.code).cls = .fixed ∧ ¬ (st ∧ w = 0) then { l with state := .parked } else Line.invalid)
        else l := by
  obtain ⟨valid, bay, code, value, state, age⟩ := l
  cases state <;> cases st <;> cases context <;> by_cases hw : w = 0 <;> simp [departLine, hw]

end Row

/-- Settles O22: outside the window the pack departs; a pack that waits or the bridge answers the loss of the last source. -/
theorem lossOutsideTheWindow : Obligations.LossOutsideTheWindow := by
  refine ⟨fun x s hturn hw hst => ?_, fun x s hturn hw hon hsw hext hoc hbc => ⟨fun hc => ?_, fun hc hb => ?_⟩⟩
  · have hbay := get_atFall x s
    have hst' : ((atFall x s).bays.get x).state = (s.bays.get x).state := by rw [hbay]
    have hloss : afterLoss x (stopPresenceDeb x s) = departs x (atFall x s) :=
      (afterLoss_atFall x s).trans <| fallByState_departs (by rw [windowOpen_atFall, hst']; exact hw.imp_left windowOpen_of_closed) (by rw [hst']; exact hst)
    have hline : ((atFall x s).bays.get x).presLine = false := by rw [hbay]; exact hturn.2.1
    obtain ⟨htb, htr, hposted, hoff, haborted, hcache⟩ := gone_departs hline
    obtain ⟨t, hrow, hrests, hframe, hqueue⟩ := exec_presence_falls hturn (by rw [hloss, htb]; exact fun e => (by cases e))
    rw [hloss] at hrests hframe hqueue
    have htb' := hrests.bay.trans htb
    have htr' := hrests.relay.trans htr
    have haside : ∀ d, queued (departs x (atFall x s)) (.linkDone x) d → queued t (.linkDone x) d :=
      fun d => hqueue _ d ⟨fun e => (by cases e), fun e => (by cases e), fun y e => (by cases e), fun y e => (by cases e)⟩
    have hcached := hframe.cache.trans hcache
    have hsaved : savedSerial x (atFall x s) = if steady (s.bays.get x).state then some (s.relays.get x).snap.serial else none := by
      rw [savedSerial, hst', serialOf, atFall_relay]
      rfl
    have hcontext : (t.bays.get x).context = departedContext (savedSerial x (atFall x s)) (atFall x s) (s.bays.get x).context := by
      rw [htb', hbay]
      rfl
    refine ⟨t, hrow, by rw [htb']; rfl, by rw [htb', hbay]; rfl, by rw [htb']; rfl,
      hqueue _ _ ⟨fun e => (by cases e), fun e => (by cases e), fun y e => (by cases e), fun y e => (by cases e)⟩ hposted, ?_,
      by rw [htr', atFall_relay]; rfl, by rw [htr']; rfl, hrests.off_or_held hoff, fun h => ?_, fun h => ?_,
      fun hp hc => haside _ (haborted (hst'.trans hp) (by rw [hbay]; exact hc)), ?_⟩
    · rw [hcached]
      exact lines_map (p := fun _ => True) (q := fun l => ¬ (l.valid = true ∧ l.bay = x ∧ l.state = .fresh)) (fun l _ => departLine_not_fresh _ _ _ l) fun _ _ _ => trivial
    · rw [hcontext, hsaved, if_pos h, departedContext, reinsertWindow_atFall, atFall_time]
    · rw [hcontext, hsaved, if_neg (by rw [h]; decide), departedContext]
    · rw [hcached, atFall_cache, mapInService_atFall, discards, dropsParked, hsaved, reinsertWindow_atFall, hbay]
      refine congrArg (fun f => s.cache.map (CacheSet.mapLines f)) (funext fun l => ?_)
      have hsome : (if steady (s.bays.get x).state then some (s.relays.get x).snap.serial else none).isSome = steady (s.bays.get x).state := by
        cases steady (s.bays.get x).state <;> rfl
      rw [hsome]
      exact departLine_eq x _ _ _ _ l
  · obtain ⟨e, hrow, hdark⟩ := exec_lastLoss hturn hw hon hsw (by rw [otherConducts, hext, hoc, hbc]; rfl)
    obtain ⟨⟨hst, hother, hq⟩, hoff⟩ := hdark.takesOver ((canTakeOver_atFall x s).trans hc) s
    exact ⟨_, hrow, hst, hother, hoff, hq⟩
  · obtain ⟨e, hrow, hdark⟩ := exec_lastLoss hturn hw hon hsw (by rw [otherConducts, hext, hoc, hbc]; rfl)
    obtain ⟨hrun, hq, -⟩ := hdark.starts ((canTakeOver_atFall x s).trans hc) ((bridgeCanStart_atFall x s).trans hb) s
    simp only [bridgeRun, Prod.mk.injEq] at hrun
    obtain ⟨hbridge, htimer, hbsw, hlow, -⟩ := hrun
    exact ⟨_, hrow, hbridge, hlow, hbsw, htimer, hq⟩

end Sys2Proof.Machine
end

