-- ==== Sys2Proof/Proofs/Seating.lean ====
section
/-! PROOFS. SEATING begins and ends (R17, R19, R20, R46, R62, R65): the line that rises on an EMPTY bay, the line that falls in SEATING with and without
recorded presence, and the debounce that runs out. -/

namespace Sys2Proof.Machine

/-! ### The presence line -/

section Lines
variable {x : BayId} {s : State}

/-- R114: with the record current and O within its bounds a recomputation changes nothing. -/
theorem recompute_of_settled (hb : budgetLaw s) (ho : outputLaw s) : recompute s = s := by
  obtain ⟨hmin, hmax, -⟩ := ho
  have hrec : s.budget = computeBudget s := hb
  rw [hrec] at hmax
  have hcut : cutTo (computeBudget s).c (minLevel s) s.pipe.o = s.pipe.o := by
    rw [cutTo, if_neg (not_lt.mpr hmax), if_neg (not_lt.mpr hmin)]
  have hattn : cutAttn (computeBudget s).c s.pipe.o s = s.attn := if_neg (not_lt.mpr hmax)
  rw [recompute_eq, hcut, hattn, ← hrec]

theorem relay_enterSeating (x : BayId) (s : State) :
    (enterSeating x s).relays.get x = Relay.enter .seating { s.relays.get x with snap := Snapshot.absent, failCount := 0 } := by
  rw [enterSeating, setBayState_relays, Pair.get_upd_self, updRelay_relays, Pair.get_upd_self, updBay_relays]

theorem cache_enterSeating (x : BayId) (s : State) : (enterSeating x s).cache = s.cache :=
  (((baysOnly.refl s).updBay x _).updRelay x _).setBayState x .seating |>.cache

/-- R20: the line that rises on an EMPTY bay. -/
theorem exec_lineRises_empty (hst : (s.bays.get x).state = .empty) (hline : (s.bays.get x).presLine = false)
    (hp : (s.bays.get x).presence = false) : exec (.presenceLineChange x true) s = .next (enterSeating x (lineAt x true s)) := by
  have henter : presenceLineRises x (lineAt x true s) = enterSeating x (lineAt x true s) :=
    if_pos (by rw [get_lineAt]; exact ⟨hst, by rw [hp]; decide⟩)
  rw [exec_presenceLineChange, presenceLine_rises hline, henter]
  refine congrArg _ (settle_of_level (congrArg PowerPath.sw (pp_enterSeating ..)) fun y => ?_)
  by_cases hy : y = x
  · rw [hy, get_enterSeating, get_lineAt]
    rfl
  · rw [eq_other_of_ne hy, (rests_enterSeating_other x _).bay]
    exact congrArg Bay.presence (Pair.get_upd_other ..)

/-- The link has nothing that leaving PROBING or a served state ends. -/
theorem relay_enter_of_idle {r : Relay} (hlink : r.link = none) (hprobe : r.probe = none) (hdue : r.pollDue = false) (hpoll : r.poll = none) :
    r.enter .empty = r := by
  obtain ⟨link, slot, pollDue, poll, count, ring, ptr, snap, probe, recover⟩ := r
  subst hlink hprobe hdue hpoll
  rfl

theorem updRelay_of_fixed {f : Relay → Relay} (h : f (s.relays.get x) = s.relays.get x) : updRelay x f s = s := by
  have hfix : s.relays.upd x f = s.relays := (Pair.upd_congr (g := id) h).trans (by cases x <;> rfl)
  exact congrArg (fun r => { s with relays := r }) hfix

/-- The record of a bay whose line falls in SEATING without recorded presence. -/
def unseated (b : Bay) : Bay := { b with state := .empty, presLine := false, presDeb := none, jolt := none }

theorem unseated_of_seating {b : Bay} (h : b.state = .seating) :
    Bay.enter .empty { b with presLine := false, presDeb := none } = unseated b := by
  obtain ⟨state⟩ := b
  subst h
  rfl

/-- R20: the line that falls in SEATING without recorded presence. -/
theorem exec_lineFalls_unseated (hst : (s.bays.get x).state = .seating) (hline : (s.bays.get x).presLine = true)
    (hp : (s.bays.get x).presence = false) (hlink : (s.relays.get x).link = none) (hrec : (s.relays.get x).recover = .notRunning)
    (hprobe : (s.relays.get x).probe = none) (hdue : (s.relays.get x).pollDue = false) (hpoll : (s.relays.get x).poll = none)
    (hb : budgetLaw s) (ho : outputLaw s) : exec (.presenceLineChange x false) s
      = .next (updBay x unseated s) := by
  have hend : failRecover x (loseLink x (lineAt x false s)) = lineAt x false s := by
    rw [loseLink_of_none (s := lineAt x false s) hlink, failRecover_of_not (s := lineAt x false s) hrec]
  have hget := get_lineAt x false s
  have hfalls : presenceLineFalls x (lineAt x false s) = setBayState x .empty (stopPresenceDeb x (lineAt x false s)) := by
    unfold presenceLineFalls
    simp only [hend]
    rw [if_pos (by rw [hget]; exact hst), seatingLineFalls, if_neg (by rw [hget]; exact ne_of_eq_of_ne hp (by decide))]
  have hset : setBayState x .empty (stopPresenceDeb x (lineAt x false s)) = recompute (updBay x unseated s) := by
    have hbay : updBay x (Bay.enter .empty) (stopPresenceDeb x (lineAt x false s)) = updBay x unseated s :=
      (congrArg (updBay x (Bay.enter .empty)) (updBay_updBay ..)).trans
        ((updBay_updBay ..).trans (updBay_congr (unseated_of_seating hst)))
    rw [setBayState_eq, hbay, updRelay_of_fixed (s := updBay x unseated s) (relay_enter_of_idle hlink hprobe hdue hpoll)]
  rw [exec_presenceLineChange, presenceLine_falls hline, hfalls, hset, recompute_of_settled]
  · exact congrArg _ (settle_updBay fun _ => rfl)
  · exact Eq.trans hb (computeBudget_congr (s := s) (t := updBay x unseated s) rfl rfl rfl rfl (fun y => presence_get_updBay y fun _ => rfl)
      (fun _ => rfl) rfl).symm
  · exact ho

end Lines

/-! ### The fall in SEATING with recorded presence (R46) -/

section Seated
variable {x : BayId} {s t : State}

/-- The bay whose line has fallen in SEATING, its debounce stopped and what was on its link ended. -/
def seatingLeft (x : BayId) (s : State) : State := stopPresenceDeb x (failRecover x (loseLink x (lineAt x false s)))

theorem bays_seatingLeft (x : BayId) (s : State) : (seatingLeft x s).bays = s.bays.upd x fun b => { b with presLine := false, presDeb := none } := by
  have h : (failRecover x (loseLink x (lineAt x false s))).bays = (lineAt x false s).bays := by
    rw [(linkEnded_endLink x (lineAt x false s)).frame]
  have hleft : (seatingLeft x s).bays = (failRecover x (loseLink x (lineAt x false s))).bays.upd x fun b => { b with presDeb := none } := rfl
  rw [hleft, h]
  cases x <;> rfl

theorem pp_seatingLeft (x : BayId) (s : State) : (seatingLeft x s).pp = s.pp := by
  have h : (seatingLeft x s).pp = (failRecover x (loseLink x (lineAt x false s))).pp := rfl
  rw [h, (linkEnded_endLink x (lineAt x false s)).frame]
  rfl

theorem tables_seatingLeft (x : BayId) (s : State) : (seatingLeft x s).tables = s.tables := by
  have h : (seatingLeft x s).tables = (failRecover x (loseLink x (lineAt x false s))).tables := rfl
  rw [h, (linkEnded_endLink x (lineAt x false s)).frame]
  rfl

/-- R46: the row. -/
theorem exec_lineFalls_seated (hst : (s.bays.get x).state = .seating) (hline : (s.bays.get x).presLine = true)
    (hp : (s.bays.get x).presence = true) :
    exec (.presenceLineChange x false) s = .next (settle s (presenceFalls x (seatingLeft x s))) := by
  have hbays : (failRecover x (loseLink x (lineAt x false s))).bays = (lineAt x false s).bays := by
    rw [(linkEnded_endLink x (lineAt x false s)).frame]
  have hget : (failRecover x (loseLink x (lineAt x false s))).bays.get x = { s.bays.get x with presLine := false } := by
    rw [hbays, get_lineAt]
  have hfalls : presenceLineFalls x (lineAt x false s) = presenceFalls x (seatingLeft x s) := by
    unfold presenceLineFalls
    simp only
    rw [if_pos (by rw [hget]; exact hst), seatingLineFalls, if_pos (by rw [hget]; exact hp)]
    rfl
  rw [exec_presenceLineChange, presenceLine_falls hline, hfalls]

theorem fallByState_of_seating (h : (s.bays.get x).state = .seating) : fallByState x s = enterEmpty x none false s := by
  simp only [fallByState, h]

theorem otherConducts_beside (hb : t.bays.get x.other = s.bays.get x.other) (hpp : t.pp = s.pp) : otherConducts t x = otherConducts s x :=
  otherConducts_congr (by rw [hpp]) (by rw [hpp]) (by rw [hpp]) (by rw [hb])

/-- What the Bay Controller finds in place of the pack in SEATING. -/
structure SeatFallen (x : BayId) (s t : State) : Prop where
  bay : t.bays.get x = { s.bays.get x with presLine := false, presDeb := none, presence := false }
  other : t.bays.get x.other = s.bays.get x.other
  pp : t.pp = s.pp
  tables : t.tables = s.tables

theorem seatFallen_beforeFall (x : BayId) (s : State) : SeatFallen x s (beforeFall x (seatingLeft x s)) := by
  have h := fallen_beforeFall x (seatingLeft x s)
  refine ⟨?_, ?_, h.pp.trans (pp_seatingLeft x s), h.beside.tables.trans (tables_seatingLeft x s)⟩
  · rw [h.get, bays_seatingLeft, Pair.get_upd_self]
  · rw [h.get_other, bays_seatingLeft, Pair.get_upd_other]

/-- The queue holds of a key the entries of `s` alone. -/
def noneAdded (K : AttnKey) (s t : State) : Prop := ∀ e ∈ t.attn.queue, e.key = K → e ∈ s.attn.queue

theorem mem_of_mem_coalesce {k : AttnKey} {d : Detail} {now : Nat} {e : AttnEntry} {q : List AttnEntry} (hk : e.key ≠ k)
    (h : e ∈ coalesce k d now q) : e ∈ q := by
  induction q with
  | nil =>
    rw [coalesce, List.mem_singleton] at h
    rw [h] at hk
    exact absurd rfl hk
  | cons a rest ih =>
    unfold coalesce at h
    split at h
    · next ha =>
      obtain h | h := List.mem_cons.mp h
      · rw [h] at hk
        exact absurd ha hk
      · exact List.mem_cons_of_mem _ h
    · obtain h | h := List.mem_cons.mp h
      · rw [h]; exact List.mem_cons_self
      · exact List.mem_cons_of_mem _ (ih h)

theorem onKey_noneAdded (K : AttnKey) (s : State) : OnKey K (noneAdded K s) where
  same t u h ht e he := by
    rw [h] at he
    exact ht e he
  other k d t hk ht e he hK := ht e (mem_of_mem_coalesce (by rw [hK]; exact hk.symm) he) hK

theorem OnKey.presenceFalls {K : AttnKey} {P : State → Prop} (k : OnKey K P) (hK : aside K) (old : State) (h : P (afterLoss x s)) :
    P (Machine.settle old (Machine.presenceFalls x s)) := by
  refine (k.swaps hK).settle old ?_
  by_cases hl : lastGone x s
  · rw [presenceFalls_of_last hl]
    exact (k.swaps hK).answerNoSource (fun w => w.elim) h
  · rw [presenceFalls_of_not hl]
    exact h

end Seated

/-! ### The debounce that runs out (R17, R19) -/

section Rise
variable {x : BayId} {s t : State}

/-- What a recorded rise changes. -/
structure Risen (x : BayId) (s t : State) : Prop where
  bays : t.bays = s.bays.upd x fun b => { b with presence := true }
  relays : t.relays = s.relays
  frame : baysOnly s t

theorem risen_presenceRises (x : BayId) (s : State) : Risen x s (presenceRises x s) := by
  have hrec : baysOnly s (recompute (updBay x (fun b => { b with presence := true }) s)) := ((baysOnly.refl s).updBay x _).recompute
  have hbays : (recompute (updBay x (fun b => { b with presence := true }) s)).bays = s.bays.upd x fun b => { b with presence := true } :=
    recompute_bays _
  have hrelays : (recompute (updBay x (fun b => { b with presence := true }) s)).relays = s.relays := by rw [recompute_eq]; rfl
  unfold presenceRises
  generalize recompute (updBay x (fun b => { b with presence := true }) s) = u at hrec hbays hrelays
  have power : ∀ {v}, powerOnly u v → Risen x s v := fun h => ⟨h.bays.trans hbays, h.relays.trans hrelays, hrec.trans h.baysOnly⟩
  simp only
  split
  · exact power (powerOnly.refl u)
  · exact power (powerOnly.refl u).releaseHeld
  · exact power (powerOnly.refl u).endBridge.releaseHeld

theorem OnKey.presenceRises {K : AttnKey} {P : State → Prop} (k : OnKey K P) (hc : K ≠ .budgetCut) (h : P s) : P (presenceRises x s) := by
  have hrec : P (Machine.recompute (updBay x (fun b => { b with presence := true }) s)) := k.recompute hc (k.same s _ rfl h)
  unfold Machine.presenceRises
  generalize Machine.recompute (updBay x (fun b => { b with presence := true }) s) = u at hrec
  simp only
  split
  · exact hrec
  · exact k.releaseHeld hc hrec
  · exact k.releaseHeld hc (k.endBridge hc hrec)

/-- The seated pack with its presence recorded. -/
def seatedPack (x : BayId) (s : State) : State :=
  if (s.bays.get x).presence then s else post (.presence (.bay x)) dArrived (presenceRises x s)

theorem get_seatedPack (x : BayId) (s : State) : (seatedPack x s).bays.get x = { s.bays.get x with presence := true } := by
  unfold seatedPack
  split
  · next h =>
    generalize s.bays.get x = b at h
    obtain ⟨_, _, presence⟩ := b
    subst h
    rfl
  · exact (congrArg (fun p => Pair.get p x) (risen_presenceRises x s).bays).trans (Pair.get_upd_self ..)

theorem frame_seatedPack (x : BayId) (s : State) : baysOnly s (seatedPack x s) := by
  unfold seatedPack
  split
  · exact baysOnly.refl s
  · exact (risen_presenceRises x s).frame.post _ _

/-- R20: the debounce of a seated pack. -/
theorem recordRise_of_seating (h : (s.bays.get x).state = .seating) : recordRise x s = enterProbing x .insertion (seatedPack x s) := by
  unfold recordRise seatedPack
  cases hp : (s.bays.get x).presence with
  | true => simp only [h, if_true]
  | false =>
    have hst : ((presenceRises x s).bays.get x).state = .seating := by
      rw [(risen_presenceRises x s).bays, Pair.get_upd_self]
      exact h
    simp only [hst, Bool.false_eq_true, if_false]

theorem OnKey.enterProbing {K : AttnKey} {P : State → Prop} {c : ProbeCause} (k : OnKey K P) (hK : aside K) (hl : K ≠ .linkDone x)
    (hf : K ≠ .bayFault x) (hc : c ≠ .joltReturn) (h : P s) : P (enterProbing x c s) := by
  have hp : P (probed x c s) := k.same (Machine.setBayState x .probing s) _ rfl (k.setBayState hK.1 x .probing h)
  by_cases hreads : probeReads s = []
  · have hcause : ((probed x c s).bays.get x).probeCause ≠ .joltReturn := by
      rw [get_probed]
      exact hc
    have hdone : ∀ {y}, K ≠ .swapDone y := fun {y} => hK.2.2.1 y
    rw [enterProbing_of_none hreads]
    generalize probed x c s = v at hp hcause
    cases hok : admissionOk v x with
    | true =>
      rw [admitPack_of_ok hok]
      exact k.settle hK.1 (fun y e => absurd e hdone) (k.placePack hK.1 hdone hl hcause hp)
    | false =>
      rw [admitPack_of_not hok]
      exact k.settle hK.1 (fun y e => absurd e hdone) (k.enterFault hK.1 hf hl hp)
  · rw [enterProbing_eq, startProbe_of_some (by rw [probeReads_probed]; exact hreads)]
    exact k.same (probed x c s) _ rfl hp

/-- What the probe of an insertion leaves of the record, whether it waits or completes at once. -/
structure EnteredProbing (x : BayId) (s t : State) : Prop where
  presence : (t.bays.get x).presence = (s.bays.get x).presence
  presDeb : (t.bays.get x).presDeb = (s.bays.get x).presDeb
  cause : (t.bays.get x).probeCause = .insertion
  state : probeReads s = [] → (t.bays.get x).state = .online ∨ (t.bays.get x).state = .standby ∨ (t.bays.get x).state = .faulted

theorem enteredProbing_insertion (x : BayId) (s : State) : EnteredProbing x s (enterProbing x .insertion s) := by
  by_cases hreads : probeReads s = []
  · have hget := get_probed x .insertion s
    rw [enterProbing_of_none hreads]
    generalize probed x .insertion s = v at hget
    cases hok : admissionOk v x with
    | true =>
      have h := admitted_admitPack hok (by rw [hget]; exact (by decide : ProbeCause.insertion ≠ .joltReturn))
      obtain ⟨st, hbay⟩ := h.get
      rw [hget] at hbay
      exact ⟨by rw [hbay]; rfl, by rw [hbay]; rfl, by rw [hbay]; rfl, fun _ => h.state.imp_right .inl⟩
    | false =>
      have h := notAdmitted_admitPack hok
      have hbay := h.bay
      rw [hget] at hbay
      exact ⟨by rw [hbay]; rfl, by rw [hbay]; rfl, by rw [hbay]; rfl, fun _ => .inr (.inr h.state)⟩
  · have h : ProbeWaits x .insertion s (enterProbing x .insertion s) := probeWaits_enterProbing hreads
    exact ⟨by rw [h.bay]; rfl, by rw [h.bay]; rfl, by rw [h.bay], fun e => absurd e hreads⟩

theorem presence_of_record {b c : Bay} (h : bayRecord b = bayRecord c) : b.presence = c.presence :=
  (congrArg Bay.presence h : (bayRecord b).presence = (bayRecord c).presence)
theorem presDeb_of_record {b c : Bay} (h : bayRecord b = bayRecord c) : b.presDeb = c.presDeb :=
  (congrArg Bay.presDeb h : (bayRecord b).presDeb = (bayRecord c).presDeb)
theorem probeCause_of_record {b c : Bay} (h : bayRecord b = bayRecord c) : b.probeCause = c.probeCause :=
  (congrArg Bay.probeCause h : (bayRecord b).probeCause = (bayRecord c).probeCause)

end Rise

/-- Settles O19: the line in EMPTY and in SEATING, and the debounce of a seated pack. -/
theorem seatingBeginsAndEnds : Obligations.SeatingBeginsAndEnds := by
  refine ⟨fun x s => ⟨fun hst hline hp => ?begins, fun hst hline hp hlink hrec hprobe hdue hpoll hb ho => ?ends⟩,
    fun x s hst hline hp => ?falls, fun x s hdeb hline hst => ?rises⟩
  case begins =>
    have hbay := get_enterSeating x (lineAt x true s)
    have hrelay := relay_enterSeating x (lineAt x true s)
    have hrest := rests_enterSeating_other x (lineAt x true s)
    rw [get_lineAt] at hbay
    refine ⟨_, exec_lineRises_empty hst hline hp, by rw [hbay]; rfl, by rw [hbay]; rfl, by rw [hbay]; exact hp, by rw [hbay]; rfl,
      by rw [hrelay]; rfl, by rw [hrelay]; rfl, hrest.bay.trans (Pair.get_upd_other ..), hrest.relay, pp_enterSeating .., cache_enterSeating ..⟩
  case ends => exact exec_lineFalls_unseated hst hline hp hlink hrec hprobe hdue hpoll hb ho
  case falls =>
    have hseat := seatFallen_beforeFall x s
    have hloss : afterLoss x (seatingLeft x s) = enterEmpty x none false (beforeFall x (seatingLeft x s)) :=
      (afterLoss_eq x _).trans (fallByState_of_seating (by rw [hseat.bay]; exact hst))
    have hqueue : noneAdded (.presence (.bay x)) s (settle s (presenceFalls x (seatingLeft x s))) := by
      have k := onKey_noneAdded (.presence (.bay x)) s
      refine k.presenceFalls ⟨fun e => (by cases e), fun e => (by cases e), fun y e => (by cases e), fun y e => (by cases e)⟩ s ?_
      rw [hloss]
      refine k.enterEmpty (fun e => by cases e) (fun e => by cases e) (k.beforeFall (fun e => by cases e) (fun e => by cases e) ?_)
      exact k.same (failRecover x (loseLink x (lineAt x false s))) _ rfl
        (k.endLink (s := lineAt x false s) (fun e => by cases e) fun e he _ => he)
    have hlineF : ((beforeFall x (seatingLeft x s)).bays.get x).presLine = false := by rw [hseat.bay]
    have hcond : otherConducts (beforeFall x (seatingLeft x s)) x = otherConducts s x := otherConducts_beside hseat.other hseat.pp
    have htake : canTakeOver (beforeFall x (seatingLeft x s)) x.other = canTakeOver s x.other := by
      unfold canTakeOver
      rw [hseat.other]
    have hstart : bridgeCanStart (beforeFall x (seatingLeft x s)) = bridgeCanStart s :=
      bridgeCanStart_congr (by rw [hseat.pp]) (by rw [hseat.pp]) hseat.tables
    have hrow := exec_lineFalls_seated hst hline hp
    have hempty := get_becomeEmpty x none false (beforeFall x (seatingLeft x s))
    have hmove := enterEmpty_of_released x none false (beforeFall x (seatingLeft x s)) hlineF
    have hfell : Fell x (enterEmpty x none false (beforeFall x (seatingLeft x s))) (settle s (presenceFalls x (seatingLeft x s))) :=
      hloss ▸ fell_presenceFalls (by rw [hloss, hmove, hempty]; exact fun e => (by cases e))
    have hbay := hfell.rests.bay
    rw [hmove, hempty, hseat.bay] at hbay
    refine ⟨_, hrow, by rw [hbay]; rfl, by rw [hbay]; rfl, by rw [hbay]; rfl, by rw [hbay]; rfl, by rw [hbay]; rfl, hqueue, fun hc => ?_,
      fun hc hsw => ?_⟩
    · refine hfell.rests.off ?_
      rw [hmove, becomeEmpty_eq]
      exact sw_switchOff_of_conducts (by rw [otherConducts_leftBay, hcond]; exact hc)
    · have hlast : lastGone x (seatingLeft x s) := by
        refine lastGone_of_dark ?_ (by rw [pp_seatingLeft]; exact hsw) ?_
        · rw [bays_seatingLeft, Pair.get_upd_self]
          exact hp
        · exact (otherConducts_beside (by rw [bays_seatingLeft, Pair.get_upd_other]) (pp_seatingLeft x s)).trans hc
      have hdark : Dark x (beforeFall x (seatingLeft x s)) (afterLoss x (seatingLeft x s)) :=
        hloss ▸ dark_enterEmpty hlineF (hcond.trans hc) (by rw [hseat.pp]; exact hsw)
      rw [presenceFalls_of_last hlast]
      refine ⟨fun ht => ?_, fun ht hb => ?_, fun ht hb => ?_⟩
      · obtain ⟨⟨hon, hswOther, hq⟩, hoff⟩ := hdark.takesOver (htake.trans ht) s
        exact ⟨hon, hswOther, hoff, hq⟩
      · obtain ⟨hrun, hq, hoff⟩ := hdark.starts (htake.trans ht) (hstart.trans hb) s
        simp only [bridgeRun, Prod.mk.injEq] at hrun
        obtain ⟨hbridge, -⟩ := hrun
        exact ⟨hbridge, hoff, hq⟩
      · obtain ⟨hw, hheld⟩ := hdark.stays (htake.trans ht) (hstart.trans hb) s
        exact ⟨by rw [hw, hseat.pp], hheld⟩
  case rises =>
    have hstop : (stopPresenceDeb x s).bays.get x = { s.bays.get x with presDeb := none } := get_stopPresenceDeb x s
    have hrow : exec (.presenceDebounceExpiry x) s
        = .next (settle s (enterProbing x .insertion (seatedPack x (stopPresenceDeb x s)))) := by
      rw [exec_presenceDebounceExpiry, presenceExpiry_rises hdeb hline, recordRise_of_seating (by rw [hstop]; exact hst)]
    have hget := get_seatedPack x (stopPresenceDeb x s)
    rw [hstop] at hget
    have hframe := frame_seatedPack x (stopPresenceDeb x s)
    have hreads : probeReads (seatedPack x (stopPresenceDeb x s)) = probeReads s := probeReads_congr hframe.tables hframe.mapInst
    have hposted : (s.bays.get x).presence = false → queued (seatedPack x (stopPresenceDeb x s)) (.presence (.bay x)) dArrived := fun hp => by
      rw [seatedPack, hstop, if_neg (by exact ne_of_eq_of_ne hp (by decide))]
      exact queued_post ..
    generalize seatedPack x (stopPresenceDeb x s) = u at hrow hget hreads hposted
    have hplace := enteredProbing_insertion x u
    refine ⟨_, hrow, ?_, ?_, ?_, fun hp => ?_, fun hn => ?_, fun hn => ?_⟩
    · rw [presence_of_record (record_settle ..), hplace.presence, hget]
    · rw [presDeb_of_record (record_settle ..), hplace.presDeb, hget]
    · rw [probeCause_of_record (record_settle ..), hplace.cause]
    · exact queued_settle (fun e => by cases e) (fun y e => by cases e) ((onKey_queued _ _).enterProbing
        ⟨fun e => (by cases e), fun e => (by cases e), fun y e => (by cases e), fun y e => (by cases e)⟩ (fun e => by cases e)
        (fun e => by cases e) (by decide) (hposted hp))
    · have hw : ProbeWaits x .insertion u (enterProbing x .insertion u) := probeWaits_enterProbing (by rw [hreads]; exact hn)
      have hprobing : ((enterProbing x .insertion u).bays.get x).state = .probing := by rw [hw.bay]; rfl
      have hrest : Rests x (enterProbing x .insertion u) (settle s (enterProbing x .insertion u)) := rests_settle (by rw [hprobing]; decide)
      exact ⟨by rw [hrest.bay]; exact hprobing, by rw [hrest.relay, hw.relay, hreads]; rfl⟩
    · obtain hst' | ⟨-, hon⟩ := state_settle (old := s) (s := enterProbing x .insertion u) x
      · rw [hst']
        exact hplace.state (by rw [hreads]; exact hn)
      · exact .inl hon

end Sys2Proof.Machine
end

