-- ==== Sys2Proof/Proofs/JoltReturnsOrExpiries.lean ====
section
/-! PROOFS. Presence rising on a jolted bay (R6, R34, R37, R62, R65), and the jolt hold that runs out (R34). -/

namespace Sys2Proof.Machine

/-! ### The switches, as the recorded presence rises (R6, R10) -/

section Rise
variable {x y : BayId} {s u v : State}

/-- R6: a switch that is not held stays, and an ONLINE bay's. -/
theorem sw_releaseHeld_of_kept (h : s.pp.held.get y = false ∨ (s.bays.get y).state = .online) : (releaseHeld s).pp.sw.get y = s.pp.sw.get y := by
  have one : ∀ z u, (u.pp.held.get y = false ∨ (u.bays.get y).state = .online) → (releaseHeldOne z u).pp.sw.get y = u.pp.sw.get y
      ∧ ((releaseHeldOne z u).pp.held.get y = false ∨ ((releaseHeldOne z u).bays.get y).state = .online) := fun z u hu => by
    refine ⟨?_, hu.imp held_releaseHeldOne fun e => by rw [((powerOnly.refl u).releaseHeldOne z).bays]; exact e⟩
    unfold releaseHeldOne
    split
    · next hc =>
      have hy : y ≠ z := fun e => by
        subst e
        exact hu.elim (fun e => by rw [hc.1] at e; cases e) fun e => hc.2.1 e
      rw [sw_setSwitch, Pair.get_upd_ne _ hy]
    · rfl
  obtain ⟨hsw, hkept⟩ := one .A s h
  exact (one .B _ hkept).1.trans hsw

theorem held_sw_endBridge (s : State) : (endBridge s).pp.held = s.pp.held ∧ (endBridge s).pp.sw = s.pp.sw := ⟨held_endBridge s, (endBridge_pp s).1⟩

/-- The recorded presence rises, and the budget is recomputed. -/
def presenceRisen (x : BayId) (s : State) : State := recompute (updBay x (fun b => { b with presence := true }) s)

theorem pp_presenceRisen (x : BayId) (s : State) : (presenceRisen x s).pp = s.pp := recompute_pp _

theorem get_presenceRisen_other (x : BayId) (s : State) : (presenceRisen x s).bays.get x.other = s.bays.get x.other := by
  rw [presenceRisen, recompute_bays, updBay_bays, Pair.get_upd_other]

theorem presenceRises_of_off (h : s.pp.sw.get x = .off) : presenceRises x s = presenceRisen x s := by
  have hsw : (recompute (updBay x (fun b => { b with presence := true }) s)).pp.sw.get x = .off := by rw [recompute_pp]; exact h
  simp only [presenceRises, hsw]
  rfl

/-- R6, R10: the pack of a switch that is ON or PASSIVE conducts. -/
theorem presenceRises_of_conducts (h : s.pp.sw.get x ≠ .off) :
    presenceRises x s = releaseHeld (presenceRisen x s) ∨ presenceRises x s = releaseHeld (endBridge (presenceRisen x s)) := by
  have hsw : (recompute (updBay x (fun b => { b with presence := true }) s)).pp.sw.get x = s.pp.sw.get x := by rw [recompute_pp]; rfl
  cases hw : s.pp.sw.get x with
  | off => exact absurd hw h
  | passive =>
    rw [hw] at hsw
    refine .inl ?_
    simp only [presenceRises, hsw]
    rfl
  | on =>
    rw [hw] at hsw
    refine .inr ?_
    simp only [presenceRises, hsw]
    rfl

/-- The rise leaves the switch of the other bay, unless the switch is held and the pack that rises conducts. -/
theorem sw_other_presenceRises (h : s.pp.held.get x.other = false ∨ (s.bays.get x.other).state = .online ∨ s.pp.sw.get x = .off) :
    (presenceRises x s).pp.sw.get x.other = s.pp.sw.get x.other := by
  by_cases hoff : s.pp.sw.get x = .off
  · rw [presenceRises_of_off hoff, pp_presenceRisen]
  · have hkept : s.pp.held.get x.other = false ∨ (s.bays.get x.other).state = .online :=
      h.imp_right fun e => e.resolve_right hoff
    obtain e | e := presenceRises_of_conducts hoff
    · rw [e, sw_releaseHeld_of_kept (by rw [pp_presenceRisen, get_presenceRisen_other]; exact hkept), pp_presenceRisen]
    · rw [e, sw_releaseHeld_of_kept (by rw [held_endBridge, endB_bays, pp_presenceRisen, get_presenceRisen_other]; exact hkept),
        (endBridge_pp _).1, pp_presenceRisen]

/-- The rise leaves the bay's own switch where it is not held. -/
theorem sw_presenceRises (h : s.pp.held.get x = false) : (presenceRises x s).pp.sw.get x = s.pp.sw.get x := by
  by_cases hoff : s.pp.sw.get x = .off
  · rw [presenceRises_of_off hoff, pp_presenceRisen]
  · obtain e | e := presenceRises_of_conducts hoff
    · rw [e, sw_releaseHeld_of_kept (.inl (by rw [pp_presenceRisen]; exact h)), pp_presenceRisen]
    · rw [e, sw_releaseHeld_of_kept (.inl (by rw [held_endBridge, pp_presenceRisen]; exact h)), (endBridge_pp _).1, pp_presenceRisen]

/-- R6: the held switch of the other bay is released where the pack that rises conducts. -/
theorem off_other_presenceRises (hheld : s.pp.held.get x.other = true) (hst : (s.bays.get x.other).state ≠ .online)
    (hsw : s.pp.sw.get x ≠ .off) (hself : s.pp.held.get x = false) : (presenceRises x s).pp.sw.get x.other = .off := by
  have release : ∀ u, u.bays = (presenceRisen x s).bays → u.pp.held = s.pp.held → u.pp.sw = s.pp.sw →
      (releaseHeld u).pp.sw.get x.other = .off := fun u hb hh hs => by
    refine off_releaseHeld_beside (by rw [other_other, hh]; exact hself) (by rw [hh]; exact hheld)
      (by rw [hb, get_presenceRisen_other]; exact hst) (otherConducts_of_other ?_ ?_)
    · rw [other_other, hs]
      exact hsw
    · rw [other_other, hb, presenceRisen, recompute_bays, updBay_bays, Pair.get_upd_self]
  obtain e | e := presenceRises_of_conducts hsw
  · rw [e]
    exact release _ rfl (by rw [pp_presenceRisen]) (by rw [pp_presenceRisen])
  · rw [e]
    exact release _ (endB_bays _) (by rw [held_endBridge, pp_presenceRisen]) (by rw [(endBridge_pp _).1, pp_presenceRisen])

end Rise

/-! ### The return (R34) -/

section Return
variable {x : BayId} {s u v t old : State}

/-- The bay of a pack that returns from a jolt, before it enters PROBING. -/
def joltRisen (x : BayId) (s : State) : State :=
  recompute (updRelay x (fun r => { r with snap := Snapshot.absent, failCount := 0 }) (updBay x (setJoltHold .stopped) (presenceRises x s)))

structure JoltRise (x : BayId) (s u : State) : Prop where
  bay : u.bays.get x = setJoltHold .stopped { s.bays.get x with presence := true }
  other : u.bays.get x.other = s.bays.get x.other
  relay : u.relays.get x = { s.relays.get x with snap := Snapshot.absent, failCount := 0 }
  pp : u.pp = (presenceRises x s).pp
  frame : baysOnly s u

theorem joltRise_joltRisen (x : BayId) (s : State) : JoltRise x s (joltRisen x s) := by
  have hr := risen_presenceRises x s
  refine ⟨?_, ?_, ?_, recompute_pp _, ((hr.frame.updBay x _).updRelay x _).recompute⟩
  · rw [joltRisen, recompute_bays, updRelay_bays, updBay_bays, Pair.get_upd_self, hr.bays, Pair.get_upd_self]
  · rw [joltRisen, recompute_bays, updRelay_bays, updBay_bays, Pair.get_upd_other, hr.bays, Pair.get_upd_other]
  · have hrel : (joltRisen x s).relays = (presenceRises x s).relays.upd x (fun r => { r with snap := Snapshot.absent, failCount := 0 }) := by
      rw [joltRisen, recompute_eq]
      rfl
    rw [hrel, Pair.get_upd_self, hr.relays]

theorem recordRise_of_jolt (hst : (s.bays.get x).state = .jolt) (hp : (s.bays.get x).presence = false) :
    recordRise x s = enterProbing x .joltReturn (joltRisen x s) := by
  have hst' : ((presenceRises x s).bays.get x).state = .jolt := by
    rw [(risen_presenceRises x s).bays, Pair.get_upd_self]
    exact hst
  unfold recordRise
  simp only [hp, hst', Bool.false_eq_true, if_false]
  rfl

/-- The row, on a jolted bay. -/
theorem exec_presence_returns (hturn : presenceTurns s x true) (hst : (s.bays.get x).state = .jolt) : exec (.presenceDebounceExpiry x) s
    = .next (settle s (enterProbing x .joltReturn (joltRisen x (stopPresenceDeb x s)))) := by
  obtain ⟨hdeb, hline, hp⟩ := hturn
  have hstop := get_stopPresenceDeb x s
  rw [exec_presenceDebounceExpiry, presenceExpiry_rises hdeb hline,
    recordRise_of_jolt (by rw [hstop]; exact hst) (by rw [hstop]; exact hp)]

/-- R25: no event reaches a bay that is not STANDBY, nor the other bay where this one's switch and presence have not gone. -/
theorem settle_of_unmoved (hst : (s.bays.get x).state ≠ .standby) (h : otherGone old s x = false) : settle old s = s := by
  have hself : ∀ e, (e.bays.get x).state ≠ .standby → settleOne old s x e = e := fun e he => by
    unfold settleOne
    split
    · exact if_neg fun hc => he hc.1
    · rfl
  have hother : ∀ e, settleOne old s x.other e = e := fun e => settleOne_of_kept s (by rw [other_other]; exact h)
  unfold settle
  cases x with
  | A =>
    have hB : ∀ e, settleOne old s .B e = e := hother
    rw [hB, hself s hst]
  | B =>
    have hA : ∀ e, settleOne old s .A e = e := hother
    rw [hA, hself s hst]

/-! ### Without reads the pack is different (R37) -/

/-- The different pack, before its placement. -/
def droppedPack (x : BayId) (v : State) : State := joltCleared x dDifferent (cacheDropBay x (reasonCleared x v))

theorem admitPack_of_absent (hsnap : (v.relays.get x).snap = Snapshot.absent) (hc : (v.bays.get x).probeCause = .joltReturn) :
    admitPack x v = settle v (placeFresh x (droppedPack x v)) := by
  have hok : admissionOk v x = true := by
    rw [admissionOk_iff, hsnap]
    exact ⟨fun w e => (by cases e), fun w e => (by cases e), fun w e => (by cases e)⟩
  have hsame : sameSerial (reasonCleared x v) x = false := by
    have hs : serialOf (reasonCleared x v) x = none := congrArg Snapshot.serial hsnap
    unfold sameSerial
    rw [hs]
    cases ((reasonCleared x v).bays.get x).jolt <;> rfl
  rw [admitPack_of_ok hok, placePack_of_jolt hc, settleJolt_of_different hsame]
  rfl

theorem get_droppedPack (x : BayId) (v : State) :
    (droppedPack x v).bays.get x = { v.bays.get x with faultReason := .none, jolt := none } := by
  have hclear : (cacheDropBay x (reasonCleared x v)).bays.get x = { v.bays.get x with faultReason := .none } := get_reasonCleared
  rw [droppedPack, get_joltCleared, hclear]

theorem contextMatches_of_absent (h : (s.relays.get x).snap = Snapshot.absent) : contextMatches s x = false := by
  rw [← Bool.not_eq_true, contextMatches_iff, h]
  rintro ⟨c, n, -, -, e⟩
  cases e

/-- R24: without its voltage a pack joins no other switch that is ON on a present pack. -/
theorem parallelAllows_of_unread (h : (s.relays.get x).snap = Snapshot.absent) (hon : s.pp.sw.get x.other = .on)
    (hp : (s.bays.get x.other).presence = true) : parallelAllows x s = false := by
  rw [← Bool.not_eq_true, parallelAllows_iff ⟨hon, hp⟩, h]
  rintro ⟨v, w, e, -⟩
  cases e

/-- What the placement of the different pack leaves, when the events of the row have run. -/
structure DifferentPlaced (x : BayId) (v t : State) : Prop where
  returned : Returned x dDifferent v t
  inserted : Inserted x (droppedPack x v) t

/-- The row may have released the other switch, and the pack that waits had its latch open then. -/
theorem differentPlaced_admitPack (hsnap : (v.relays.get x).snap = Snapshot.absent) (hc : (v.bays.get x).probeCause = .joltReturn)
    (hp : (v.bays.get x.other).presence = (old.bays.get x.other).presence) : DifferentPlaced x v (settle old (admitPack x v)) := by
  have hplacing : SamePlacing x v (droppedPack x v) := samePlacing_dropped
  have hquiet : (v.pp.sw.get x.other = .on) → noEventOf old (droppedPack x v) x.other := fun hon =>
    ⟨fun _ => by rw [hplacing.sw]; exact hon, hplacing.presence.trans hp⟩
  have hret : Returned x dDifferent v (droppedPack x v) := returned_dropped
  have hin := (inserted_placeFresh x (droppedPack x v)).settle (old := v) fun _ _ => ⟨fun e => by rw [hplacing.sw]; exact e, hplacing.presence⟩
  rw [admitPack_of_absent hsnap hc]
  refine ⟨(hret.placeFresh.settle v).settle old, hin.settle fun hl hn => hquiet ?_⟩
  by_contra hoff
  exact hn ⟨hl, parallelAllows_of_ne_on (by rw [hplacing.sw]; exact hoff)⟩

end Return

theorem jolt_setJoltHold (h : HoldTimer) (b : Bay) : (setJoltHold h b).jolt = b.jolt.map fun j => { j with hold := h } := by
  unfold setJoltHold
  cases b.jolt <;> rfl

theorem setJoltHold_keeps (h : HoldTimer) (b : Bay) : setJoltHold h b = { b with jolt := (setJoltHold h b).jolt } := by
  unfold setJoltHold
  cases b.jolt <;> rfl

theorem latch_setJoltHold (h : HoldTimer) (b : Bay) : (setJoltHold h b).latch = b.latch := by rw [setJoltHold_keeps]

theorem presence_setJoltHold (h : HoldTimer) (b : Bay) : (setJoltHold h b).presence = b.presence := by rw [setJoltHold_keeps]

/-! ### The row -/

section Row
variable {x : BayId} {s u v : State}

/-- The state in which the probe of a returning pack starts, against the state of the row. -/
structure AtReturn (x : BayId) (s u : State) : Prop where
  bay : u.bays.get x = setJoltHold .stopped { s.bays.get x with presDeb := none, presence := true }
  presence : (u.bays.get x.other).presence = (s.bays.get x.other).presence
  relay : u.relays.get x = { s.relays.get x with snap := Snapshot.absent, failCount := 0 }
  self : s.pp.held.get x = false → u.pp.sw.get x = s.pp.sw.get x
  eased : u.pp.sw.get x.other = .on → s.pp.sw.get x.other = .on
  kept : s.pp.held.get x.other = false ∨ (s.bays.get x.other).state = .online ∨ s.pp.sw.get x = .off → u.pp.sw.get x.other = s.pp.sw.get x.other
  released : s.pp.held.get x.other = true → (s.bays.get x.other).state ≠ .online → s.pp.sw.get x ≠ .off → s.pp.held.get x = false →
    u.pp.sw.get x.other = .off
  reads : probeReads u = probeReads s

theorem exec_returns (hturn : presenceTurns s x true) (hst : (s.bays.get x).state = .jolt) : ∃ u, AtReturn x s u
    ∧ exec (.presenceDebounceExpiry x) s = .next (settle s (enterProbing x .joltReturn u)) := by
  have hu := joltRise_joltRisen x (stopPresenceDeb x s)
  have hother : (stopPresenceDeb x s).bays.get x.other = s.bays.get x.other := Pair.get_upd_other ..
  have hpp := hu.pp
  refine ⟨_, ⟨?_, ?_, hu.relay, fun h => ?_, fun h => ?_, fun h => ?_, fun hheld hne hsw hself => ?_,
    probeReads_congr hu.frame.tables hu.frame.mapInst⟩, exec_presence_returns hturn hst⟩
  · rw [hu.bay, get_stopPresenceDeb]
  · rw [hu.other, hother]
  · rw [hpp]
    exact sw_presenceRises (s := stopPresenceDeb x s) h
  · rw [hpp] at h
    exact sw_eq_on_of_eases (s := stopPresenceDeb x s) (follows_presenceRises_other x (stopPresenceDeb x s)) h
  · rw [hpp]
    exact sw_other_presenceRises (s := stopPresenceDeb x s) (by rw [hother]; exact h)
  · rw [hpp]
    exact off_other_presenceRises (s := stopPresenceDeb x s) hheld (by rw [hother]; exact hne) hsw hself

/-- R34, R62: the probe waits for its first read, and the switch stays. -/
theorem AtReturn.waits (h : AtReturn x s u) (hp : (s.bays.get x).presence = false) (hn : probeReads s ≠ []) :
    Rests x (enterProbing x .joltReturn u) (settle s (enterProbing x .joltReturn u)) ∧ ProbeWaits x .joltReturn u (enterProbing x .joltReturn u)
      ∧ (s.pp.held.get x = false → (settle s (enterProbing x .joltReturn u)).pp.sw.get x = s.pp.sw.get x) := by
  have hw : ProbeWaits x .joltReturn u (enterProbing x .joltReturn u) := probeWaits_enterProbing (by rw [h.reads]; exact hn)
  generalize enterProbing x .joltReturn u = e at hw
  have hstate : (e.bays.get x).state ≠ .standby := by rw [hw.bay]; exact (by decide : BayState.probing ≠ .standby)
  refine ⟨rests_settle hstate, hw, fun hheld => ?_⟩
  have hsw : e.pp.sw.get x = s.pp.sw.get x := by rw [hw.pp]; exact h.self hheld
  rw [settle_of_unmoved hstate, hsw]
  rw [otherGone, hsw, hp]
  cases s.pp.sw.get x <;> rfl

/-- The different pack of a return without reads, before its placement. -/
def unreadPack (x : BayId) (u : State) : State := droppedPack x (probed x .joltReturn u)

structure UnreadPack (x : BayId) (s u b : State) : Prop where
  bay : b.bays.get x = { Bay.enter .probing (setJoltHold .stopped { s.bays.get x with presDeb := none, presence := true }) with
    probeCause := .joltReturn, faultReason := .none, jolt := none }
  relay : b.relays.get x = dropPending { s.relays.get x with snap := Snapshot.absent, failCount := 0 }
  sw : b.pp.sw.get x.other = u.pp.sw.get x.other
  presence : (b.bays.get x.other).presence = (s.bays.get x.other).presence

theorem AtReturn.unread (h : AtReturn x s u) : UnreadPack x s u (unreadPack x u) := by
  have hplacing : SamePlacing x (probed x .joltReturn u) (unreadPack x u) := samePlacing_dropped
  refine ⟨?_, ?_, hplacing.sw.trans (by rw [pp_probed]), hplacing.presence.trans ((presence_probed ..).trans h.presence)⟩
  · rw [unreadPack, get_droppedPack, get_probed, h.bay]
  · rw [hplacing.relay, relay_probed, h.relay]

theorem UnreadPack.snap {b : State} (h : UnreadPack x s u b) : (b.relays.get x).snap = Snapshot.absent := by
  rw [h.relay]
  rfl

theorem UnreadPack.latch {b : State} (h : UnreadPack x s u b) : (b.bays.get x).latch = (s.bays.get x).latch := by
  rw [h.bay]
  exact latch_setJoltHold .stopped _

/-- R24, R6: the latch is closed, and the other switch is not ON on a present pack, or was held and is released. -/
theorem AtReturn.placesOnline (h : AtReturn x s u) (hl : (s.bays.get x).latch = true)
    (hc : s.pp.sw.get x.other ≠ .on ∨ (s.bays.get x.other).presence = false
      ∨ (s.pp.held.get x.other = true ∧ (s.bays.get x.other).state ≠ .online ∧ s.pp.sw.get x ≠ .off ∧ s.pp.held.get x = false)) :
    placesOnline x (unreadPack x u) := by
  refine ⟨h.unread.latch.trans hl, ?_⟩
  obtain hoff | habs | ⟨hheld, hne, hsw, hself⟩ := hc
  · exact parallelAllows_of_ne_on fun e => hoff (h.eased (h.unread.sw.symm.trans e))
  · exact parallelAllows_of_absent (h.unread.presence.trans habs)
  · refine parallelAllows_of_ne_on ?_
    rw [h.unread.sw, h.released hheld hne hsw hself]
    decide

theorem AtReturn.not_placesOnline (h : AtReturn x s u)
    (hc : (s.bays.get x).latch = false ∨ (s.pp.sw.get x.other = .on ∧ (s.bays.get x.other).presence = true
      ∧ (s.pp.held.get x.other = false ∨ (s.bays.get x.other).state = .online ∨ s.pp.sw.get x = .off))) :
    ¬ Machine.placesOnline x (unreadPack x u) := by
  rintro ⟨hl, ha⟩
  obtain hopen | ⟨hon, hpresent, hkept⟩ := hc
  · rw [h.unread.latch, hopen] at hl
    cases hl
  · rw [parallelAllows_of_unread h.unread.snap ?_ (h.unread.presence.trans hpresent)] at ha
    · cases ha
    · rw [h.unread.sw, h.kept hkept]
      exact hon

/-- R37, R62: without reads the different pack is placed at once. -/
theorem AtReturn.placed (h : AtReturn x s u) (hn : probeReads s = []) :
    Returned x dDifferent (probed x .joltReturn u) (settle s (enterProbing x .joltReturn u))
      ∧ Inserted x (unreadPack x u) (settle s (enterProbing x .joltReturn u)) := by
  have hsnap : ((probed x .joltReturn u).relays.get x).snap = Snapshot.absent := by rw [relay_probed, h.relay]; rfl
  have hd : DifferentPlaced x (probed x .joltReturn u) (settle s (admitPack x (probed x .joltReturn u))) :=
    differentPlaced_admitPack hsnap (by rw [get_probed]) ((presence_probed ..).trans h.presence)
  rw [enterProbing_of_none (by rw [h.reads]; exact hn)]
  exact ⟨hd.returned, hd.inserted⟩

theorem Inserted.get {b t : State} (h : Inserted x b t) : ∃ st, t.bays.get x = Bay.enter st { b.bays.get x with context := none } := by
  by_cases hp : Machine.placesOnline x b
  · exact ⟨_, h.place.online hp⟩
  · exact ⟨_, h.place.standby hp⟩

theorem Inserted.state {b t : State} (h : Inserted x b t) : (t.bays.get x).state = .online ∨ (t.bays.get x).state = .standby := by
  by_cases hp : Machine.placesOnline x b
  · exact .inl (h.place.state_on hp)
  · exact .inr (h.place.state_off hp)

end Row

/-- Settles O20: the presence that rises on a jolted bay, and the hold that runs out. -/
theorem joltedPackReturnsOrExpires : Obligations.JoltedPackReturnsOrExpires := by
  refine ⟨fun x s hturn hst => ?returns, fun x s => ⟨fun h => ?still, fun h => ?expires⟩⟩
  case still => rw [exec_joltHoldExpiry, joltHoldOut_of_not h, settle_self]
  case expires =>
    obtain ⟨t, hrow, hend⟩ := exec_joltHoldExpiry_of_runs h
    exact ⟨t, hrow, hend.state, hend.jolt, hend.posted, hend.sw, hend.context⟩
  case returns =>
    obtain ⟨u, hu, hrow⟩ := exec_returns hturn hst
    by_cases hn : probeReads s = []
    · obtain ⟨hret, hin⟩ := hu.placed hn
      generalize settle s (enterProbing x .joltReturn u) = t at hrow hret hin
      obtain ⟨st, htb⟩ := hin.get
      have htr := hin.place.relay
      rw [hu.unread.bay] at htb
      rw [hu.unread.relay] at htr
      refine ⟨t, hrow, by rw [htb]; exact presence_setJoltHold .stopped _, by rw [htb]; rfl, by rw [htr]; rfl, by rw [htr]; rfl,
        fun hne => absurd hn hne, fun _ => ⟨hret.posted, hret.jolt, by rw [htb]; rfl, hret.reason, by rw [htr]; rfl, hin.state,
        noLines_inserted hin, fun hl hc => ?_, fun hc => ?_⟩⟩
      · have hp := hu.placesOnline hl hc
        have hq := hin.done hp
        rw [contextMatches_of_absent hu.unread.snap] at hq
        exact ⟨hin.place.state_on hp, hin.place.on hp, hq⟩
      · have hp := hu.not_placesOnline hc
        exact ⟨hin.place.state_off hp, hin.place.off hp⟩
    · obtain ⟨hrest, hw, hsw⟩ := hu.waits hturn.2.2 hn
      have htb := hrest.bay.trans hw.bay
      have htr := hrest.relay.trans hw.relay
      rw [hu.bay] at htb
      rw [hu.relay, hu.reads] at htr
      refine ⟨_, hrow, by rw [htb]; exact presence_setJoltHold .stopped _, by rw [htb], by rw [htr]; rfl, by rw [htr]; rfl,
        fun _ => ⟨by rw [htb]; rfl, ?_, by rw [htr]; rfl, hsw⟩, fun he => absurd he hn⟩
      rw [htb]
      exact (Bay.enter_jolt .probing (by decide)).trans (jolt_setJoltHold ..)

end Sys2Proof.Machine
end

