-- ==== Sys2Proof/Proofs/WindowCloses.lean ====
section
/-! PROOFS. The close of the drop window (R34, R40, R147, R148): the deferred latch-opens, the jolt holds, and the rows that begin the close. -/

namespace Sys2Proof.Machine

/-! ### An evaluation with the window closed -/

section Closed
variable {x y : BayId} {s t u : State}

/-- R26: with the window closed an evaluation is refused by a reason, or carried out by a kind. -/
theorem refused_or_carried (x : BayId) (hw : s.motion.window = .closed) : (∃ r, refusalCase s x r) ∨ ∃ k, handoverCase s x k := by
  cases hh : holdSwap s x with
  | true => exact .inl ⟨.held, hh⟩
  | false =>
    have hfree : swapFree s x := ⟨hh, hw⟩
    by_cases hsrc : otherSource s x
    · by_cases hbudget : pMinRun s ≤ totalWithout s x
      · exact .inr ⟨.plain, hfree, hsrc, hbudget⟩
      · exact .inl ⟨.lowBudget, hfree, hsrc, Nat.not_le.mp hbudget⟩
    by_cases hpack : packAlternative s x
    · cases hv : voltsClose s with
      | true => exact .inr ⟨.makeFirst, hfree, hsrc, hpack, hv⟩
      | false =>
        by_cases hbreak : breakFirstOk s = true ∧ otherConducts s x = true
        · exact .inr ⟨.breakFirst, hfree, hsrc, hpack, hv, hbreak⟩
        cases hb : bridgeCanStart s with
        | true => exact .inr ⟨.bridgeThrough, hfree, hsrc, hpack, hv, hbreak, hb⟩
        | false => exact .inl ⟨.mismatch, hfree, hsrc, hpack, hv, hbreak, hb⟩
    · cases hb : bridgeCanStart s with
      | true => exact .inr ⟨.bridgeHold, hfree, hsrc, hpack, hb⟩
      | false => exact .inl ⟨.noSource, hfree, hsrc, hpack, hb⟩

/-- From `s` to `t` the deferred marks stay. -/
def deferredKept (s t : State) : Prop := ∀ y, (t.bays.get y).deferred = (s.bays.get y).deferred

theorem deferredKept.refl (s : State) : deferredKept s s := fun _ => rfl

theorem deferredKept.trans (h : deferredKept s t) (k : deferredKept t u) : deferredKept s u := fun y => (k y).trans (h y)

theorem deferredKept_of_bays (h : t.bays = s.bays) : deferredKept s t := fun y => by rw [h]

theorem deferredKept_upd {f : Bay → Bay} (hf : ∀ b, (f b).deferred = b.deferred) (h : t.bays = s.bays.upd x f) : deferredKept s t := fun y => by
  rw [h]
  by_cases hy : y = x
  · rw [hy, Pair.get_upd_self, hf]
  · rw [Pair.get_upd_ne _ hy]

theorem deferredKept_updBay {f : Bay → Bay} (hf : ∀ b, (f b).deferred = b.deferred) : deferredKept s (updBay x f s) := deferredKept_upd hf rfl

theorem deferredKept_setBayState (x : BayId) (st : BayState) (s : State) : deferredKept s (setBayState x st s) :=
  deferredKept_upd (f := Bay.enter st) (fun _ => rfl) (setBayState_bays x st s)

theorem deferredKept_goOnline (x : BayId) (d : Detail) (s : State) : deferredKept s (goOnline x d s) :=
  (deferredKept_of_bays (req_bays x s)).trans (deferredKept_setBayState x .online (requestOn x s))

theorem deferredKept_switchOff (x : BayId) (s : State) : deferredKept s (switchOff x s) := deferredKept_of_bays (off_bays x s)

theorem deferredKept_startBridge (why : BridgeReason) (s : State) : deferredKept s (startBridge why s) := deferredKept_of_bays (bays_startBridge why s)

theorem deferredKept_release (x : BayId) (k : HandoverKind) (s : State) : deferredKept s (releaseBay x k (switchOff x s)) := by
  have hmark : deferredKept (switchOff x s) (updBay x (markReleased k) (switchOff x s)) := deferredKept_updBay fun _ => rfl
  rw [releaseBay_eq]
  exact ((deferredKept_switchOff x s).trans hmark).trans (deferredKept_setBayState x .releasing _)

theorem deferredKept_settle (old s : State) : deferredKept s (settle old s) :=
  settle_keeps (P := deferredKept s) (fun z _ hu _ _ _ => hu.trans (deferredKept_goOnline z dTakeOver _)) (deferredKept.refl s)

theorem deferredKept_carriedOut (x : BayId) (k : HandoverKind) (s : State) : deferredKept s (carriedOut x k s) := by
  cases k with
  | plain => exact deferredKept_release x .plain s
  | makeFirst => exact (deferredKept_goOnline x.other dTakeOver s).trans (deferredKept_release x .makeFirst _)
  | breakFirst => exact (deferredKept_release x .breakFirst s).trans (deferredKept_goOnline x.other dTakeOver _)
  | bridgeThrough =>
    exact ((deferredKept_startBridge .through s).trans (deferredKept_release x .bridgeThrough _)).trans (deferredKept_goOnline x.other dTakeOver _)
  | bridgeHold => exact (deferredKept_startBridge .hold s).trans (deferredKept_release x .bridgeHold _)
  | none => exact deferredKept.refl s

/-- R40: with the window closed an evaluation defers nothing. -/
theorem deferredKept_evaluateLatch (x : BayId) (hw : s.motion.window = .closed) : deferredKept s (evaluateLatch x s) := by
  obtain ⟨r, hr⟩ | ⟨k, hk⟩ := refused_or_carried x hw
  · rw [evaluateLatch_of_refusal hr]
    exact deferredKept_updBay (s := s) fun _ => rfl
  · rw [evaluateLatch_of_handover hk]
    exact (deferredKept_carriedOut x k s).trans (deferredKept_settle s _)

end Closed

/-! ### The close for one bay (R40) -/

section One
variable {x y : BayId} {s t u : State}

/-- The deferred mark is cleared. -/
def undeferred (x : BayId) (s : State) : State := updBay x (fun b => { b with deferred := false }) s

theorem get_undeferred (x : BayId) (s : State) : (undeferred x s).bays.get x = { s.bays.get x with deferred := false } := Pair.get_upd_self ..

theorem closeDeferred_of_not (h : (s.bays.get x).deferred = false) : closeDeferred x s = s := if_neg (by rw [h]; decide)

theorem closeDeferred_of_open (hd : (s.bays.get x).deferred = true) (hst : (s.bays.get x).state = .online) (hl : (s.bays.get x).latch = false) :
    closeDeferred x s = evaluateLatch x (undeferred x s) := by
  have h : closeDeferred x s = if (s.bays.get x).state = .online ∧ ¬ (s.bays.get x).latch then evaluateLatch x (undeferred x s)
    else undeferred x s := if_pos hd
  rw [h, if_pos ⟨hst, by rw [hl]; decide⟩]

theorem closeDeferred_of_other (hd : (s.bays.get x).deferred = true) (hn : ¬ ((s.bays.get x).state = .online ∧ (s.bays.get x).latch = false)) :
    closeDeferred x s = undeferred x s := by
  have h : closeDeferred x s = if (s.bays.get x).state = .online ∧ ¬ (s.bays.get x).latch then evaluateLatch x (undeferred x s)
    else undeferred x s := if_pos hd
  rw [h, if_neg fun hc => hn ⟨hc.1, by rw [← Bool.not_eq_true]; exact hc.2⟩]

/-- What closing does for one bay, whatever its part. -/
theorem closeDeferred_keeps {P : State → Prop} (hs : P s) (hu : P (undeferred x s)) (he : P (evaluateLatch x (undeferred x s))) :
    P (closeDeferred x s) := by
  by_cases hd : (s.bays.get x).deferred = true
  · by_cases ho : (s.bays.get x).state = .online ∧ (s.bays.get x).latch = false
    · rw [closeDeferred_of_open hd ho.1 ho.2]
      exact he
    · rw [closeDeferred_of_other hd ho]
      exact hu
  · rw [closeDeferred_of_not (by rw [← Bool.not_eq_true]; exact hd)]
    exact hs

theorem windowCloseOne_of_not (h : ((closeDeferred x s).bays.get x).state ≠ .jolt) : windowCloseOne x s = closeDeferred x s := if_neg h

theorem windowCloseOne_of_jolt (h : ((closeDeferred x s).bays.get x).state = .jolt) :
    windowCloseOne x s = startJoltHold x (closeDeferred x s) := if_pos h

theorem windowCloseOne_of_idle (hd : (s.bays.get x).deferred = false) (hst : (s.bays.get x).state ≠ .jolt) : windowCloseOne x s = s := by
  have h := closeDeferred_of_not hd
  rw [windowCloseOne_of_not (by rw [h]; exact hst), h]

/-- R148: the start of a jolt hold, with a hold and without. -/
theorem startJoltHold_of_hold (h : joltHoldMs s ≠ 0) : startJoltHold x s = updBay x (setJoltHold (.running (joltHoldMs s))) s := if_neg h

theorem startJoltHold_of_none (h : joltHoldMs s = 0) : startJoltHold x s = settle s (joltExpire x s) := if_pos h

/-! What it leaves beside the bays -/

theorem beside_closeDeferred (x : BayId) (s : State) : SameBeside s (closeDeferred x s) := by
  have hu : baysOnly s (undeferred x s) := (baysOnly.refl s).updBay x _
  exact closeDeferred_keeps (SameBeside.refl s) hu.beside (hu.trans (baysOnly_evaluateLatch x _)).beside

theorem beside_startJoltHold (x : BayId) (s : State) : SameBeside s (startJoltHold x s) := by
  by_cases h : joltHoldMs s = 0
  · rw [startJoltHold_of_none h]
    exact (beside_joltExpire x s).trans (settle_baysOnly s _).beside
  · rw [startJoltHold_of_hold h]
    exact ((baysOnly.refl s).updBay x _).beside

theorem beside_windowCloseOne (x : BayId) (s : State) : SameBeside s (windowCloseOne x s) := by
  unfold windowCloseOne
  split
  · exact (beside_closeDeferred x s).trans (beside_startJoltHold x _)
  · exact beside_closeDeferred x s

/-! What it leaves of the other bay -/

theorem rests_closeDeferred_other (h : (s.bays.get x.other).state ≠ .standby) : Rests x.other s (closeDeferred x s) := by
  have hu : Rests x.other s (undeferred x s) := rests_updBay_other x _ s
  exact closeDeferred_keeps (Rests.refl ..) hu (hu.trans (rests_evaluateLatch_other (by rw [hu.bay]; exact h)))

theorem rests_windowCloseOne_other (h : (s.bays.get x.other).state ≠ .standby) : Rests x.other s (windowCloseOne x s) := by
  have hc := rests_closeDeferred_other h
  unfold windowCloseOne
  split
  · refine hc.trans ?_
    generalize closeDeferred x s = u at hc
    have hu : (u.bays.get x.other).state ≠ .standby := by rw [hc.bay]; exact h
    by_cases hj : joltHoldMs u = 0
    · rw [startJoltHold_of_none hj]
      have hr := rests_joltExpire_other x u
      exact hr.trans (rests_settle (by rw [hr.bay]; exact hu))
    · rw [startJoltHold_of_hold hj]
      exact rests_updBay_other ..
  · exact hc

/-! What it leaves of the queue -/

theorem OnKey.windowCloseOne {K : AttnKey} {P : State → Prop} (k : OnKey K P) (hK : aside K) (hx : K ≠ .jolt x) (h : P s) :
    P (windowCloseOne x s) := by
  have hc : P (closeDeferred x s) := (k.swaps hK).closeDeferred x h
  unfold Machine.windowCloseOne
  split
  · by_cases hj : joltHoldMs (closeDeferred x s) = 0
    · rw [startJoltHold_of_none hj]
      exact k.settle hK.1 (fun y e => absurd e (hK.2.2.1 y)) (k.joltExpire hK.1 hx hc)
    · rw [startJoltHold_of_hold hj]
      exact k.same (closeDeferred x s) _ rfl hc
  · exact hc

/-! The deferred marks -/

theorem deferred_closeDeferred (hw : s.motion.window = .closed) :
    ((closeDeferred x s).bays.get x).deferred = false ∧ ((closeDeferred x s).bays.get x.other).deferred = (s.bays.get x.other).deferred := by
  have hu : ((undeferred x s).bays.get x).deferred = false ∧ ((undeferred x s).bays.get x.other).deferred = (s.bays.get x.other).deferred :=
    ⟨by rw [get_undeferred], by rw [undeferred, updBay_bays, Pair.get_upd_other]⟩
  have he := deferredKept_evaluateLatch (s := undeferred x s) x hw
  by_cases hd : (s.bays.get x).deferred = true
  · by_cases ho : (s.bays.get x).state = .online ∧ (s.bays.get x).latch = false
    · rw [closeDeferred_of_open hd ho.1 ho.2]
      exact ⟨(he x).trans hu.1, (he x.other).trans hu.2⟩
    · rw [closeDeferred_of_other hd ho]
      exact hu
  · have hd' : (s.bays.get x).deferred = false := by rw [← Bool.not_eq_true]; exact hd
    rw [closeDeferred_of_not hd']
    exact ⟨hd', rfl⟩

theorem deferredKept_startJoltHold (x : BayId) (s : State) : deferredKept s (startJoltHold x s) := by
  by_cases hj : joltHoldMs s = 0
  · rw [startJoltHold_of_none hj]
    refine deferredKept.trans (fun y => ?_) (deferredKept_settle s _)
    by_cases hy : y = x
    · rw [hy]
      exact (holdEnded_joltExpire x s).deferred
    · rw [eq_other_of_ne hy, (rests_joltExpire_other x s).bay]
  · rw [startJoltHold_of_hold hj]
    refine deferredKept_updBay fun b => ?_
    rw [setJoltHold_keeps]

theorem deferred_windowCloseOne (hw : s.motion.window = .closed) :
    ((windowCloseOne x s).bays.get x).deferred = false ∧ ((windowCloseOne x s).bays.get x.other).deferred = (s.bays.get x.other).deferred := by
  obtain ⟨hself, hother⟩ := deferred_closeDeferred (x := x) hw
  unfold windowCloseOne
  split
  · have hk := deferredKept_startJoltHold x (closeDeferred x s)
    exact ⟨(hk x).trans hself, (hk x.other).trans hother⟩
  · exact ⟨hself, hother⟩

end One

/-! ### The close for both bays, A before B -/

section Both
variable {x : BayId} {s t u : State}

/-- The window is CLOSED, and the bays have not taken it yet. -/
def windowShut (s : State) : State := { s with motion := { s.motion with window := .closed, hold := none } }

theorem closeWindow_eq (s : State) : closeWindow s = windowCloseOne .B (windowCloseOne .A (windowShut s)) := rfl

theorem beside_closeWindow (s : State) : SameBeside (windowShut s) (closeWindow s) :=
  (beside_windowCloseOne .A (windowShut s)).trans (beside_windowCloseOne .B _)

/-- R40: no deferred mark stays. -/
theorem deferred_closeWindow (s : State) (x : BayId) : ((closeWindow s).bays.get x).deferred = false := by
  obtain ⟨hA, -⟩ := deferred_windowCloseOne (x := .A) (s := windowShut s) rfl
  have hwin : (windowCloseOne .A (windowShut s)).motion.window = .closed := by rw [(beside_windowCloseOne .A (windowShut s)).motion]; rfl
  obtain ⟨hB, hkept⟩ := deferred_windowCloseOne (x := .B) hwin
  cases x with
  | A => exact hkept.trans hA
  | B => exact hB

theorem closeWindow_of_idle (h : ∀ x, (s.bays.get x).deferred = false ∧ (s.bays.get x).state ≠ .jolt) : closeWindow s = windowShut s := by
  have hA : windowCloseOne .A (windowShut s) = windowShut s := windowCloseOne_of_idle (s := windowShut s) (h .A).1 (h .A).2
  rw [closeWindow_eq, hA]
  exact windowCloseOne_of_idle (s := windowShut s) (h .B).1 (h .B).2

/-- From `s` to `t` bay `x` and its JOLT postings stay. -/
structure Around (x : BayId) (s t : State) : Prop where
  rests : Rests x s t
  beside : SameBeside s t
  posted : ∀ d, queued s (.jolt x) d → queued t (.jolt x) d

theorem Around.refl (x : BayId) (s : State) : Around x s s := ⟨Rests.refl x s, SameBeside.refl s, fun _ h => h⟩

theorem around_windowCloseOne (h : (s.bays.get x).state ≠ .standby) : Around x s (windowCloseOne x.other s) := by
  have hrest : Rests x.other.other s (windowCloseOne x.other s) := rests_windowCloseOne_other (by rw [other_other]; exact h)
  rw [other_other] at hrest
  refine ⟨hrest, beside_windowCloseOne x.other s, fun d hq => ?_⟩
  exact (onKey_queued (.jolt x) d).windowCloseOne ⟨fun e => (by cases e), fun e => (by cases e), fun y e => (by cases e), fun y e => (by cases e)⟩
    (fun e => other_ne x (AttnKey.jolt.inj e).symm) hq

/-- The close takes a bay that is not STANDBY by itself, before or after the other bay. -/
theorem closeWindow_around (h : (s.bays.get x).state ≠ .standby)
    (own : ∀ u, Around x (windowShut s) u → ((windowCloseOne x u).bays.get x).state ≠ .standby) :
    ∃ u, Around x (windowShut s) u ∧ Around x (windowCloseOne x u) (closeWindow s) := by
  cases x with
  | A => exact ⟨windowShut s, Around.refl .., around_windowCloseOne (x := .A) (own _ (Around.refl ..))⟩
  | B =>
    have hA : Around .B (windowShut s) (windowCloseOne .A (windowShut s)) := around_windowCloseOne (x := .B) h
    exact ⟨_, hA, Around.refl ..⟩

theorem joltHoldMs_congr (h : t.tables = s.tables) : joltHoldMs t = joltHoldMs s := by
  unfold joltHoldMs cfg inEffect
  rw [h]

end Both

/-! ### Deferred latch-opens (R40) -/

section Deferred
variable {x y : BayId} {s t : State}

theorem state_upd_ne_jolt {f : Bay → Bay} {p : Pair Bay} (hf : ∀ b : Bay, b.state ≠ .jolt → (f b).state ≠ .jolt) (h : (p.get y).state ≠ .jolt) :
    ((p.upd x f).get y).state ≠ .jolt := by
  by_cases hy : y = x
  · rw [hy, Pair.get_upd_self]
    exact hf _ (hy ▸ h)
  · rw [Pair.get_upd_ne _ hy]
    exact h

/-- The switching of bays takes no bay to JOLT. -/
theorem swaps_notJolt (y : BayId) : Swaps False (fun u => (u.bays.get y).state ≠ .jolt) where
  done _ _ _ h := h
  refused _ _ _ h := h
  mark x f s hf h := state_upd_ne_jolt (fun b hb => by rw [hf b]; exact hb) h
  online x s _ h := by
    rw [setBayState_bays, req_bays]
    exact state_upd_ne_jolt (fun b _ => by exact (by decide : BayState.online ≠ .jolt)) h
  standby x s _ h := by
    rw [setBayState_bays, off_bays]
    exact state_upd_ne_jolt (fun b _ => by exact (by decide : BayState.standby ≠ .jolt)) h
  release x k s _ h := by
    rw [releaseBay_eq, setBayState_bays, updBay_bays, off_bays]
    refine state_upd_ne_jolt (fun b _ => by exact (by decide : BayState.releasing ≠ .jolt)) (state_upd_ne_jolt (fun b hb => ?_) h)
    exact hb
  bridge why s h := by
    rw [bays_startBridge]
    exact h

theorem exec_windowHoldExpiry (s : State) : exec .windowHoldExpiry s = .next (holdOut s) := rfl

theorem exec_windowHoldExpiry_of_holding (h : s.motion.window = .holding) : exec .windowHoldExpiry s = .next (closeWindow s) := by
  rw [exec_windowHoldExpiry, holdOut, if_pos h]

/-- The close takes one deferred latch-open, of a bay that is ONLINE. -/
theorem windowCloseOne_of_open (hst : (s.bays.get x).state = .online) (hd : (s.bays.get x).deferred = true) (hl : (s.bays.get x).latch = false) :
    windowCloseOne x s = evaluateLatch x (undeferred x s) := by
  have hclose := closeDeferred_of_open hd hst hl
  have hjolt : ((evaluateLatch x (undeferred x s)).bays.get x).state ≠ .jolt :=
    (swaps_notJolt x).evaluateLatch x (fun e => e.elim) (by rw [get_undeferred]; exact ne_of_eq_of_ne hst (by decide))
  rw [windowCloseOne_of_not (by rw [hclose]; exact hjolt), hclose]

theorem closeWindow_of_one (hst : (s.bays.get x).state = .online) (hd : (s.bays.get x).deferred = true) (hl : (s.bays.get x).latch = false)
    (hdo : (s.bays.get x.other).deferred = false) (hjo : (s.bays.get x.other).state ≠ .jolt) :
    closeWindow s = evaluateLatch x (undeferred x (windowShut s)) := by
  have hself : windowCloseOne x (windowShut s) = evaluateLatch x (undeferred x (windowShut s)) :=
    windowCloseOne_of_open (s := windowShut s) hst hd hl
  have hother : (undeferred x (windowShut s)).bays.get x.other = s.bays.get x.other := Pair.get_upd_other ..
  have hbefore : windowCloseOne x.other (windowShut s) = windowShut s := windowCloseOne_of_idle (s := windowShut s) hdo hjo
  have hafter : windowCloseOne x.other (evaluateLatch x (undeferred x (windowShut s))) = evaluateLatch x (undeferred x (windowShut s)) := by
    refine windowCloseOne_of_idle ?_ ?_
    · rw [deferredKept_evaluateLatch (s := undeferred x (windowShut s)) x rfl, hother, hdo]
    · exact (swaps_notJolt x.other).evaluateLatch x (fun e => e.elim) (by rw [hother]; exact hjo)
  rw [closeWindow_eq]
  cases x with
  | A => rw [hself]; exact hafter
  | B =>
    have hA : windowCloseOne .A (windowShut s) = windowShut s := hbefore
    rw [hA, hself]

/-- R28, R40: with both bays deferred and EXT absent, bay A is released PLAIN, and is no source for bay B. -/
structure PlainFirst (s e : State) : Prop where
  carried : Carried .A .plain (undeferred .A (windowShut s)) e
  other : e.bays.get .B = s.bays.get .B
  start : bridgeCanStart e = bridgeCanStart s
  ext : e.pp.ext = s.pp.ext
  beside : SameBeside (windowShut s) e

theorem plainFirst_evaluateLatch (hlaw : ∀ x, bayLaw s x) (hbudget : pMinRun s ≤ totalWithout s .A) (hon : (s.bays.get .B).state = .online)
    (hhold : holdSwap s .A = false) : PlainFirst s (evaluateLatch .A (undeferred .A (windowShut s))) := by
  have hjudged : Judged .A (windowShut s) (undeferred .A (windowShut s)) := judged_updBay _ _
  have hcase : handoverCase (undeferred .A (windowShut s)) .A .plain := by
    rw [hjudged.handoverCase]
    exact ⟨⟨hhold, rfl⟩, .inr hon, hbudget⟩
  have hother : (undeferred .A (windowShut s)).bays.get .B = s.bays.get .B := rfl
  have hb : baysOnly (windowShut s) (evaluateLatch .A (undeferred .A (windowShut s))) :=
    ((baysOnly.refl _).updBay .A _).trans (baysOnly_evaluateLatch .A _)
  have hrest : Rests .B (undeferred .A (windowShut s)) (evaluateLatch .A (undeferred .A (windowShut s))) :=
    rests_evaluateLatch_other (x := .A) (ne_of_eq_of_ne hon (by decide))
  have hlawB : bayLaw (undeferred .A (windowShut s)) (BayId.other .A) := hlaw .B
  have hreleased : Released .A .plain (carriedOut .A .plain (undeferred .A (windowShut s))) :=
    (carried_carriedOut hlawB hcase).released
  have hkept : (carriedOut .A .plain (undeferred .A (windowShut s))).bays.get .B = s.bays.get .B := by
    have hB := get_releaseBay_other .A .plain (switchOff .A (undeferred .A (windowShut s)))
    rw [off_bays] at hB
    exact hB
  have hnone : noneWaits (carriedOut .A .plain (undeferred .A (windowShut s))) := fun z => by
    cases z with
    | A => rw [hreleased.state]; exact fun e => (by cases e.1)
    | B => rw [hkept, hon]; exact fun e => (by cases e.1)
  have hacts : Acts (undeferred .A (windowShut s)) (evaluateLatch .A (undeferred .A (windowShut s))) := (Acts.refl _).evaluateLatch .A
  have hrun : bridgeRun (evaluateLatch .A (undeferred .A (windowShut s))).pp = bridgeRun s.pp := by
    rw [evaluateLatch_of_handover hcase, settle_of_noneWaits _ hnone]
    exact run_release .A .plain (undeferred .A (windowShut s))
  exact ⟨carried_evaluateLatch hlawB hcase, hrest.bay.trans hother,
    bridgeCanStart_congr (congrArg Prod.fst hrun) hacts.bridgeReady hb.tables, hacts.ext, hb.beside⟩

/-- The evaluation of bay B after it (R26, R28). -/
theorem plainFirst_second {e : State} (h : PlainFirst s e) (hext : s.pp.ext = false) (hhold : holdSwap s .B = false) :
    (bridgeCanStart s = true → handoverCase (undeferred .B e) .B .bridgeHold)
      ∧ (bridgeCanStart s = false → refusalCase (undeferred .B e) .B .noSource) := by
  have hA : ((undeferred .B e).bays.get .A).state = .releasing := h.carried.released.state
  have hwin : (undeferred .B e).motion.window = .closed := by
    have hm : (undeferred .B e).motion = (windowShut s).motion := h.beside.motion
    rw [hm]
    rfl
  have hfree : swapFree (undeferred .B e) .B := by
    have hf : (undeferred .B e).flags = s.flags := h.beside.flags
    exact ⟨by unfold holdSwap at hhold ⊢; rw [hf]; exact hhold, hwin⟩
  have hsrc : ¬ otherSource (undeferred .B e) .B := by
    have he : (undeferred .B e).pp.ext = false := h.ext.trans hext
    rintro (hx | hx)
    · rw [he] at hx
      cases hx
    · have hx' : ((undeferred .B e).bays.get .A).state = .online := hx
      rw [hA] at hx'
      cases hx'
  have hpack : ¬ packAlternative (undeferred .B e) .B := fun hx => by
    have hx' : ((undeferred .B e).bays.get .A).state = .standby := hx.1
    rw [hA] at hx'
    cases hx'
  have hstart : bridgeCanStart (undeferred .B e) = bridgeCanStart s := h.start
  exact ⟨fun hb => ⟨hfree, hsrc, hpack, hstart.trans hb⟩, fun hb => ⟨hfree, hsrc, hpack, hstart.trans hb⟩⟩

theorem closeWindow_of_both (hst : ∀ x, (s.bays.get x).state = .online ∧ (s.bays.get x).deferred = true ∧ (s.bays.get x).latch = false)
    (h : PlainFirst s (evaluateLatch .A (undeferred .A (windowShut s)))) :
    closeWindow s = evaluateLatch .B (undeferred .B (evaluateLatch .A (undeferred .A (windowShut s)))) := by
  obtain ⟨hA, hdA, hlA⟩ := hst .A
  obtain ⟨hB, hdB, hlB⟩ := hst .B
  have hfirst : windowCloseOne .A (windowShut s) = evaluateLatch .A (undeferred .A (windowShut s)) :=
    windowCloseOne_of_open (s := windowShut s) hA hdA hlA
  rw [closeWindow_eq, hfirst]
  exact windowCloseOne_of_open (by rw [h.other]; exact hB) (by rw [h.other]; exact hdB) (by rw [h.other]; exact hlB)

end Deferred

/-! ### The rows that begin the close (R34, R148, R149) -/

section Begins
variable {x : BayId} {s u t : State}

/-- From `s` to `u` the row has composed its record, and left what the close asks for. -/
structure Composed (s u : State) : Prop where
  bays : u.bays = s.bays
  tables : u.tables = s.tables
  time : u.time = s.time

theorem composed_writeRecord (e : DropEnding) (r : RestAxis) (s : State) : Composed s (writeRecord e r s) := by
  cases hq : s.log.next with
  | none => rw [writeRecord_of_none e r hq]; exact ⟨rfl, rfl, rfl⟩
  | some q => rw [writeRecord_of_some e r hq]; exact ⟨rfl, rfl, rfl⟩

theorem returnToArmed_of_none (h : joltHoldMs s = 0) : returnToArmed s = closeWindow { s with motion := disarmMotion s.motion } := if_pos h

theorem endEpisode_of_none (e : DropEnding) (r : RestAxis) (h : joltHoldMs s = 0) :
    endEpisode e r s = closeWindow { writeRecord e r s with motion := disarmMotion (writeRecord e r s).motion } :=
  returnToArmed_of_none ((joltHoldMs_congr (composed_writeRecord e r s).tables).trans h)

/-- R145: the state with one more sample counted in IMPACT. -/
def counted (x0 x1 y0 y1 z0 z1 : Byte) (s : State) : State :=
  { laneIdle s with motion := countImpact (sampleOf x0 x1 y0 y1 z0 z1) (classify s (sampleOf x0 x1 y0 y1 z0 z1)) s.motion }

/-- R148: with JOLT_HOLD_ms of 0 each of the rows closes the window at once. -/
theorem closes_of_begins {i : Instr} (hi : beginsClose i s) (hj : joltHoldMs s = 0) : ∃ u, exec i s = .next (closeWindow u) ∧ Composed s u
    ∧ u.motion.detector = if i = .windowHoldExpiry then s.motion.detector else .armed := by
  have ended : ∀ e r (v : State), v.bays = s.bays → v.tables = s.tables → v.time = s.time →
      ∃ u, endEpisode e r v = closeWindow u ∧ Composed s u ∧ u.motion.detector = .armed := fun e r v hb ht hm => by
    obtain ⟨hb', ht', hm'⟩ := composed_writeRecord e r v
    exact ⟨_, endEpisode_of_none e r ((joltHoldMs_congr ht).trans hj), ⟨hb'.trans hb, ht'.trans ht, hm'.trans hm⟩, rfl⟩
  cases i with
  | windowHoldExpiry => exact ⟨s, exec_windowHoldExpiry_of_holding hi, ⟨rfl, rfl, rfl⟩, rfl⟩
  | stallTimeout =>
    obtain ⟨hd, hrun⟩ := hi
    obtain ⟨u, hu, hc, hdet⟩ := ended .stalled .none s rfl rfl rfl
    refine ⟨u, ?_, hc, hdet⟩
    have hrow : exec .stallTimeout s = .next (stallOut s) := rfl
    have hruns : ¬ s.motion.stall.isNone = true := by
      rw [Option.isNone_iff_eq_none]
      exact Option.isSome_iff_ne_none.mp hrun
    rw [hrow, stallOut, if_neg fun hc => hc.elim hd hruns, hu]
  | motionSample x0 x1 y0 y1 z0 z1 =>
    obtain ⟨hd, hcls⟩ | ⟨hd, hend⟩ := hi
    · exact ⟨_, (exec_motionSample_falling rfl hd).trans (congrArg _ ((fallingSample_quiet (s := laneIdle s) hcls).trans
        (returnToArmed_of_none (s := laneIdle s) hj))), ⟨rfl, rfl, rfl⟩, rfl⟩
    · obtain ⟨u, hu, hc, hdet⟩ := ended
        (if settleCount s ≤ (counted x0 x1 y0 y1 z0 z1 s).motion.settle then .settled else .unsettled)
        (if settleCount s ≤ (counted x0 x1 y0 y1 z0 z1 s).motion.settle then restAxisOf (sampleOf x0 x1 y0 y1 z0 z1) else .none)
        (counted x0 x1 y0 y1 z0 z1 s) rfl rfl rfl
      exact ⟨u, (exec_motionSample_impact rfl hd).trans (congrArg _
        ((judgeImpact_ended (s := counted x0 x1 y0 y1 z0 z1 s) _ hend.symm).trans hu)), hc, hdet⟩
  | _ => exact absurd hi id

end Begins

/-! ### The jolt holds at the close (R34) -/

section Holds
variable {x : BayId} {s c t : State}

theorem reinsertWindow_congr (h : c.tables = s.tables) : reinsertWindow c = reinsertWindow s := by
  unfold reinsertWindow cfg inEffect
  rw [h]

theorem HoldEnded.congr (h : HoldEnded x c t) (hb : c.bays.get x = s.bays.get x) (ht : c.tables = s.tables) (hm : c.time = s.time) :
    HoldEnded x s t := by
  obtain ⟨hstate, hjolt, hcontext, hdef, hposted, hsw⟩ := h
  rw [hb] at hstate hdef
  rw [hb, reinsertWindow_congr ht, hm] at hcontext
  exact ⟨hstate, hjolt, hcontext, hdef, hposted, hsw⟩

theorem get_closeDeferred_of_jolt (h : (s.bays.get x).state = .jolt) :
    (closeDeferred x s).bays.get x = { s.bays.get x with deferred := false } := by
  by_cases hd : (s.bays.get x).deferred = true
  · rw [closeDeferred_of_other hd fun ho => (by cases h.symm.trans ho.1), get_undeferred]
  · have hd' : (s.bays.get x).deferred = false := by rw [← Bool.not_eq_true]; exact hd
    rw [closeDeferred_of_not hd', ← hd']

theorem windowCloseOne_jolt (h : (s.bays.get x).state = .jolt) : windowCloseOne x s = startJoltHold x (closeDeferred x s) :=
  windowCloseOne_of_jolt (by rw [get_closeDeferred_of_jolt h]; exact h)

/-- R34: with JOLT_HOLD_ms of 0 the hold runs out at the close. -/
theorem holdEnded_windowCloseOne (h : (s.bays.get x).state = .jolt) (hj : joltHoldMs s = 0) :
    HoldEnded x (undeferred x s) (windowCloseOne x s) := by
  have hb := beside_closeDeferred x s
  rw [windowCloseOne_jolt h, startJoltHold_of_none ((joltHoldMs_congr hb.tables).trans hj)]
  exact ((holdEnded_joltExpire x _).settle _).congr (by rw [get_closeDeferred_of_jolt h, get_undeferred]) hb.tables hb.time

theorem holdEnded_closeWindow (h : (s.bays.get x).state = .jolt) (hj : joltHoldMs s = 0) : HoldEnded x (undeferred x s) (closeWindow s) := by
  have own : ∀ u, Around x (windowShut s) u → HoldEnded x (undeferred x s) (windowCloseOne x u) := fun u hu =>
    (holdEnded_windowCloseOne (by rw [hu.rests.bay]; exact h) ((joltHoldMs_congr hu.beside.tables).trans hj)).congr
      (by rw [get_undeferred, get_undeferred, hu.rests.bay]; rfl) hu.beside.tables hu.beside.time
  obtain ⟨u, hu, ht⟩ := closeWindow_around (x := x) (s := s) (by rw [h]; decide) fun u hu => (own u hu).not_standby
  exact (own u hu).rests ht.rests (ht.posted _ (own u hu).posted)

/-- R34: else the hold starts. -/
theorem holdRuns_closeWindow {j : JoltRecord} (h : (s.bays.get x).state = .jolt) (hrec : (s.bays.get x).jolt = some j) (hj : joltHoldMs s ≠ 0) :
    ((closeWindow s).bays.get x).state = .jolt ∧ ((closeWindow s).bays.get x).jolt = some { j with hold := .running (joltHoldMs s) } := by
  have own : ∀ u, Around x (windowShut s) u →
      (windowCloseOne x u).bays.get x = setJoltHold (.running (joltHoldMs s)) { s.bays.get x with deferred := false } := fun u hu => by
    have hub : u.bays.get x = s.bays.get x := hu.rests.bay
    have hms : joltHoldMs (closeDeferred x u) = joltHoldMs s := joltHoldMs_congr ((beside_closeDeferred x u).tables.trans hu.beside.tables)
    have hst : (u.bays.get x).state = .jolt := by rw [hub]; exact h
    rw [windowCloseOne_jolt hst, startJoltHold_of_hold (by rw [hms]; exact hj), updBay_bays, Pair.get_upd_self, get_closeDeferred_of_jolt hst,
      hub, hms]
  have hstate : (setJoltHold (.running (joltHoldMs s)) { s.bays.get x with deferred := false }).state = .jolt := by
    rw [setJoltHold_keeps]
    exact h
  obtain ⟨u, hu, ht⟩ := closeWindow_around (x := x) (s := s) (by rw [h]; decide) fun u hu => by rw [own u hu, hstate]; decide
  rw [ht.rests.bay, own u hu, jolt_setJoltHold, hrec]
  exact ⟨hstate, rfl⟩

end Holds

/-- Settles O45: the stall timer ends an episode, and the close of the window takes the deferred latch-opens and the jolt holds. -/
theorem stallAndWindowHoldRunOut : Obligations.StallAndWindowHoldRunOut := by
  refine ⟨fun s => ⟨fun h => ?still, fun hd hrun hj => ?stalled⟩, fun s => ⟨fun h => ?other, fun h => ?closes⟩,
    fun x s f hw hst hd hl hdo hjo hf => ⟨fun r hr => ?refused, fun k hlaw hk => ?carried⟩, fun s hw hlaw hext hbudget hboth => ?both,
    fun i s hi hj => ?begins⟩
  case still =>
    have hrow : exec .stallTimeout s = .next (stallOut s) := rfl
    rw [hrow, stallOut, if_pos (h.imp_right fun e => by rw [e]; rfl)]
  case stalled =>
    have hrow : exec .stallTimeout s = .next (stallOut s) := rfl
    have hruns : ¬ s.motion.stall.isNone = true := by
      rw [Option.isNone_iff_eq_none]
      exact Option.isSome_iff_ne_none.mp hrun
    obtain ⟨hmotion, hnone, hlog⟩ := endEpisode_spec (s := s) .stalled .none hj
    refine ⟨endEpisode .stalled .none s, by rw [hrow, stallOut, if_neg fun hc => hc.elim hd hruns], hmotion, hnone, fun q hq k hk => ?_⟩
    subst hk
    exact hlog q hq
  case other => rw [exec_windowHoldExpiry, holdOut, if_neg h]
  case closes =>
    have hm := (beside_closeWindow s).motion
    exact ⟨_, exec_windowHoldExpiry_of_holding h, by rw [hm]; rfl, by rw [hm]; rfl, deferred_closeWindow s,
      fun hj x j hst _ hrec => holdRuns_closeWindow hst hrec hj, closeWindow_of_idle⟩
  case refused =>
    subst hf
    have hr' : refusalCase (undeferred x (windowShut s)) x r := hr
    rw [exec_windowHoldExpiry_of_holding hw, closeWindow_of_one hst hd hl hdo hjo, evaluateLatch_of_refusal hr']
    rfl
  case carried =>
    subst hf
    have hk' : handoverCase (undeferred x (windowShut s)) x k := hk
    have hlaw' : bayLaw (undeferred x (windowShut s)) x.other := (follows_updBay_other x _ (windowShut s)).bayLaw (hlaw x.other)
    have hc := carried_evaluateLatch hlaw' hk'
    have hm := (beside_closeWindow s).motion
    rw [closeWindow_of_one hst hd hl hdo hjo] at hm
    exact ⟨_, by rw [exec_windowHoldExpiry_of_holding hw, closeWindow_of_one hst hd hl hdo hjo], hc.released.state, hc.released.last,
      hc.released.sw, by rw [hm]; rfl⟩
  case both =>
    have hopen : ∀ x, (s.bays.get x).state = .online ∧ (s.bays.get x).deferred = true ∧ (s.bays.get x).latch = false := fun x => by
      obtain ⟨hst, hd, hl, -⟩ := hboth x
      exact ⟨hst, hd, hl⟩
    obtain ⟨hA, -, -, hholdA⟩ := hboth .A
    obtain ⟨hB, -, -, hholdB⟩ := hboth .B
    have hfirst := plainFirst_evaluateLatch hlaw hbudget hB hholdA
    have hclose := closeWindow_of_both hopen hfirst
    generalize evaluateLatch .A (undeferred .A (windowShut s)) = e at hfirst hclose
    obtain ⟨hbridge, hrefused⟩ := plainFirst_second hfirst hext hholdB
    have hrel := hfirst.carried.released
    have hrest : Rests .A (undeferred .B e) (evaluateLatch .B (undeferred .B e)) :=
      rests_evaluateLatch_other (x := .B) (by rw [show ((undeferred .B e).bays.get (BayId.other .B)).state = .releasing from hrel.state]; decide)
    have hbayA : (evaluateLatch .B (undeferred .B e)).bays.get .A = e.bays.get .A := hrest.bay
    refine ⟨_, by rw [exec_windowHoldExpiry_of_holding hw, hclose], by rw [hbayA]; exact hrel.state, by rw [hbayA]; exact hrel.last,
      hrest.off (s := undeferred .B e) hrel.sw, fun hb => ?_, fun hb => ?_⟩
    · obtain ⟨-, -, -, hstart⟩ := hbridge hb
      have hc : Carried .B .bridgeHold (undeferred .B e) (evaluateLatch .B (undeferred .B e)) := by
        rw [evaluateLatch_of_handover (hbridge hb)]
        exact (carried_bridgeHold hstart).settle _
      refine ⟨hc.released.state, hc.released.last, (hc.run rfl fun hn => ?_).1⟩
      exact absurd (hrel.state.symm.trans hn.1) (by decide)
    · rw [evaluateLatch_of_refusal (hrefused hb)]
      have hget : (undeferred .B e).bays.get .B = { s.bays.get .B with deferred := false } := by rw [get_undeferred, hfirst.other]
      generalize undeferred .B e = v at hget
      have hpost : (post (.swapRefused .B) (dRefusal .noSource) (updBay .B (fun b => { b with refusal := .noSource, refuse := true }) v)).bays.get .B
          = { v.bays.get .B with refusal := .noSource, refuse := true } := rfl
      exact ⟨by rw [hpost, hget]; exact hB, by rw [hpost], by rw [hpost], queued_post ..⟩
  case begins =>
    obtain ⟨u, hrow, hc, hdet⟩ := closes_of_begins hi hj
    have hm := (beside_closeWindow u).motion
    refine ⟨_, hrow, by rw [hm]; rfl, by rw [hm]; rfl, deferred_closeWindow u, by rw [hm]; exact hdet, fun x hst => ?_⟩
    have hend := holdEnded_closeWindow (s := u) (x := x) (by rw [hc.bays]; exact hst) ((joltHoldMs_congr hc.tables).trans hj)
    have hget : (undeferred x u).bays.get x = { s.bays.get x with deferred := false } := by rw [get_undeferred, hc.bays]
    obtain ⟨hstate, hjolt, hcontext, -, hposted, -⟩ := hend
    have hwin : reinsertWindow (undeferred x u) = reinsertWindow s := reinsertWindow_congr hc.tables
    have htime : (undeferred x u).time = s.time := hc.time
    rw [hget] at hstate
    rw [hget, hwin, htime] at hcontext
    exact ⟨hjolt, hposted, hstate, hcontext⟩

end Sys2Proof.Machine
end

