-- ==== Sys2Proof/Proofs/ResetEvents.lean ====
section
/-! PROOFS. The events of a software reset (R41, R47, R70, R189): what the restarted probes, the cleared flags and the closing window keep of the relays,
the upstream link, the Attention Queue and the cache. -/

namespace Sys2Proof.Machine

/-! ### A property that the events keep -/

/-- Beside admission: a hold that runs out, the flags cleared and the window shut. -/
structure ResetWalk (P : State → Prop) : Prop extends Admits False P where
  expire : ∀ x v s, P s → P (enterEmpty x (some v) false s)
  flags : ∀ f s, P s → P { s with flags := f }
  shut : ∀ s, P s → P (windowShut s)

section Walk
variable {P : State → Prop} {s : State} {x : BayId}

theorem ResetWalk.windowCloseOne (k : ResetWalk P) (x : BayId) (h : P s) : P (windowCloseOne x s) := by
  have hc : P (closeDeferred x s) := k.closeDeferred x h
  unfold Machine.windowCloseOne
  split
  · by_cases hj : joltHoldMs (closeDeferred x s) = 0
    · rw [startJoltHold_of_none hj, joltExpire_eq]
      exact k.settle _ (k.note _ _ _ (k.expire x _ _ hc))
    · rw [startJoltHold_of_hold hj]
      exact k.record x _ _ (keepsPlace_setJoltHold _) hc
  · exact hc

theorem ResetWalk.flagsReset (k : ResetWalk P) (h : P s) : P (flagsReset s) := by
  have h1 : P { s with flags := flagsClear } := k.flags _ s h
  have h2 : P (if s.flags.holdSwapA then reevaluate .A { s with flags := flagsClear } else { s with flags := flagsClear }) := by
    split
    · exact k.reevaluate .A h1
    · exact h1
  unfold Machine.flagsReset
  simp only
  split
  · exact k.reevaluate .B h2
  · exact h2

theorem ResetWalk.windowReset (k : ResetWalk P) (h : P s) : P (windowReset s) := by
  unfold Machine.windowReset
  split
  · exact k.windowCloseOne .B (k.windowCloseOne .A (k.shut s h))
  · exact h

theorem ResetWalk.resetEvents (k : ResetWalk P) (h : P s) : P (resetEvents s) :=
  k.windowReset (k.flagsReset (k.restartProbe .B (k.restartProbe .A h)))

end Walk

/-! ### The upstream link -/

section Walks
variable {s t : State} {x y : BayId}

theorem beside_enterFault (x : BayId) (why : FaultReason) (s : State) : SameBeside s (faulted x why s) :=
  (((baysOnly.refl s).setBayState x .faulted).updBay x _).switchOff x |>.beside

/-- A part that the bays never touch is kept by admission and by the evaluations. -/
theorem admits_of_beside {P : State → Prop} (k : ∀ s t, SameBeside s t → P s → P t) : Admits False P where
  done _ _ s h := k s _ ((baysOnly.refl s).post _ _).beside h
  refused _ _ s h := k s _ ((baysOnly.refl s).post _ _).beside h
  mark x f s _ h := k s _ ((baysOnly.refl s).updBay x f).beside h
  online x s _ h := k s _ (((baysOnly.refl s).requestOn x).setBayState x .online).beside h
  standby x s _ h := k s _ (((baysOnly.refl s).switchOff x).setBayState x .standby).beside h
  release x _ s _ h := k s _ ((((baysOnly.refl s).switchOff x).updBay x _).setBayState x .releasing).beside h
  bridge why s h := k s _ ((baysOnly.refl s).startBridge why).beside h
  note _ _ s h := k s _ ((baysOnly.refl s).post _ _).beside h
  lines _ s h := k s _ ⟨rfl, rfl, rfl, rfl, rfl, rfl, rfl, rfl⟩ h
  fault x why s _ h := k s _ (beside_enterFault x why s) h
  record x f s _ h := k s _ ((baysOnly.refl s).updBay x f).beside h
  probing x s _ h := k s _ ((baysOnly.refl s).setBayState x .probing).beside h
  probe x _ s _ h := k s _ ((baysOnly.refl s).updRelay x _).beside h

/-- It is kept by the events too, where the flags and the window leave it. -/
theorem resetWalk_of_beside {P : State → Prop} (k : ∀ s t, SameBeside s t → P s → P t) (hf : ∀ f s, P s → P { s with flags := f })
    (hw : ∀ s, P s → P (windowShut s)) : ResetWalk P where
  toAdmits := admits_of_beside k
  expire x v s h := k s _ (beside_enterEmpty x (some v) false s) h
  flags := hf
  shut := hw

theorem upstream_resetEvents (s : State) : (resetEvents s).upstream = s.upstream :=
  (resetWalk_of_beside (P := fun u => u.upstream = s.upstream) (fun _ _ h e => h.upstream.trans e) (fun _ _ e => e) fun _ e => e).resetEvents rfl

/-! ### The relays (R70) -/

/-- The relay of a link that rests, its probe aside. -/
def restingRelay (ring : List Code) (n : Snapshot) (r : Relay) : Prop :=
  r = { link := none, slot := none, pollDue := false, poll := none, failCount := 0, ring := ring, ptr := 0, snap := n, probe := r.probe,
        recover := .notRunning }

theorem restingRelay_enter {ring : List Code} {n : Snapshot} {r : Relay} (st : BayState) (h : restingRelay ring n r) :
    restingRelay ring n (r.enter st) := by
  unfold restingRelay at h ⊢
  rw [h]
  cases st <;> rfl

/-- The relays of both bays rest, with the rings and the snapshots of `s` where no bay enters SEATING. -/
def restingRelays (s t : State) : Prop := ∀ y, ∃ n, restingRelay (s.relays.get y).ring n (t.relays.get y)

theorem restingRelays_upd {f : Relay → Relay} (hf : ∀ ring n r, restingRelay ring n r → ∃ m, restingRelay ring m (f r))
    {p : Pair Relay} {u : State} (hp : u.relays = p.upd x f) (h : ∀ y, ∃ n, restingRelay (s.relays.get y).ring n (p.get y)) : restingRelays s u := by
  intro y
  obtain ⟨n, hn⟩ := h y
  rw [hp]
  by_cases hy : y = x
  · rw [hy, Pair.get_upd_self]
    exact hf _ n _ (hy ▸ hn)
  · rw [Pair.get_upd_ne _ hy]
    exact ⟨n, hn⟩

theorem restingRelays_setBayState {u : State} (st : BayState) (h : restingRelays s u) : restingRelays s (setBayState x st u) :=
  restingRelays_upd (f := Relay.enter st) (fun _ n _ hr => ⟨n, restingRelay_enter st hr⟩) (setBayState_relays x st u) h

theorem restingRelays_congr {u v : State} (e : v.relays = u.relays) (h : restingRelays s u) : restingRelays s v := by
  intro y
  rw [e]
  exact h y

theorem restingRelays_becomeEmpty {u : State} (save : Option (Option Half)) (h : restingRelays s u) :
    restingRelays s (becomeEmpty x save false u) :=
  restingRelays_upd (f := Relay.enter .empty) (fun _ n _ hr => ⟨n, restingRelay_enter .empty hr⟩) (becomeEmpty_relays ..) h

theorem restingRelays_enterSeating {u : State} (h : restingRelays s u) : restingRelays s (enterSeating x u) := by
  have hclear : ∀ ring n r, restingRelay ring n r → ∃ m, restingRelay ring m { r with snap := Snapshot.absent, failCount := 0 } :=
    fun ring n r hr => ⟨Snapshot.absent, by
      unfold restingRelay at hr ⊢
      rw [hr]⟩
  exact restingRelays_setBayState .seating (restingRelays_upd hclear (x := x) (p := u.relays) rfl h)

theorem restingRelays_enterEmpty {u : State} (save : Option (Option Half)) (h : restingRelays s u) :
    restingRelays s (enterEmpty x save false u) := by
  unfold enterEmpty
  split
  · exact restingRelays_enterSeating (restingRelays_becomeEmpty save h)
  · exact restingRelays_becomeEmpty save h

theorem resetWalk_restingRelays (s : State) : ResetWalk (restingRelays s) where
  done _ _ _ h := h
  refused _ _ _ h := h
  mark _ _ _ _ h := h
  online x u _ h := restingRelays_setBayState .online (restingRelays_congr ((powerOnly.refl u).requestOn x).relays h)
  standby x u _ h := restingRelays_setBayState .standby (restingRelays_congr ((powerOnly.refl u).switchOff x).relays h)
  release x n u _ h := restingRelays_setBayState .releasing (restingRelays_congr (u := u) ((powerOnly.refl u).switchOff x).relays h)
  bridge why u h := restingRelays_congr ((powerOnly.refl u).startBridge why).relays h
  note _ _ _ h := h
  lines _ _ h := h
  fault x why u _ h := restingRelays_congr (u := setBayState x .faulted u)
    ((powerOnly.refl (updBay x (markFaulted why) (setBayState x .faulted u))).switchOff x).relays (restingRelays_setBayState .faulted h)
  record _ _ _ _ h := h
  probing x u _ h := restingRelays_setBayState .probing h
  probe x p u _ h := by
    have hprobe : ∀ ring n r, restingRelay ring n r → ∃ m, restingRelay ring m { r with probe := some p } := fun ring n r hr => ⟨n, by
      unfold restingRelay at hr ⊢
      rw [hr]⟩
    exact restingRelays_upd hprobe (x := x) (p := u.relays) rfl h
  expire x v u h := restingRelays_enterEmpty (some v) h
  flags _ _ h := h
  shut _ h := h

/-! ### The Attention Queue (R201) -/

/-- Every posting stands since `n`. -/
def postedAt (n : Nat) (s : State) : Prop := s.time.uptime = n ∧ ∀ e ∈ s.attn.queue, e.first = n

theorem first_of_mem_coalesce {k : AttnKey} {d : Detail} {n : Nat} {q : List AttnEntry} (h : ∀ e ∈ q, e.first = n) :
    ∀ e ∈ coalesce k d n q, e.first = n := by
  induction q with
  | nil =>
    intro e he
    rw [coalesce, List.mem_singleton] at he
    rw [he]
  | cons a rest ih =>
    have hrest := ih fun e he => h e (List.mem_cons_of_mem a he)
    have ha := h a List.mem_cons_self
    unfold coalesce
    split
    · exact List.forall_mem_cons.mpr ⟨ha, fun e he => h e (List.mem_cons_of_mem a he)⟩
    · exact List.forall_mem_cons.mpr ⟨ha, hrest⟩

theorem postedAt_post {n : Nat} (k : AttnKey) (d : Detail) (h : postedAt n s) : postedAt n (post k d s) := by
  obtain ⟨hn, hq⟩ := h
  subst hn
  exact ⟨rfl, first_of_mem_coalesce hq⟩

theorem postedAt_congr {n : Nat} (ht : t.time = s.time) (ha : t.attn = s.attn) (h : postedAt n s) : postedAt n t := by
  unfold postedAt
  rw [ht, ha]
  exact h

/-- What holds of the queue and the time base, and a posting keeps. -/
structure Postings (P : State → Prop) : Prop where
  same : ∀ s t, t.time = s.time → t.attn = s.attn → P s → P t
  post : ∀ k d s, P s → P (post k d s)

variable {P : State → Prop}

theorem Postings.recompute (k : Postings P) (h : P s) : P (recompute s) := by
  rw [recompute_eq]
  refine k.same { s with attn := cutAttn (computeBudget s).c s.pipe.o s } _ rfl rfl ?_
  unfold cutAttn
  split
  · exact k.same (Machine.post .budgetCut (dCeiling (computeBudget s).c) s) _ rfl rfl (k.post _ _ s h)
  · exact h

theorem Postings.setSwitch (k : Postings P) (x : BayId) (v : Switch) (h : P s) : P (setSwitch x v s) := k.recompute (k.same s _ rfl rfl h)

theorem Postings.releaseHeldOne (k : Postings P) (x : BayId) (h : P s) : P (releaseHeldOne x s) := by
  unfold Machine.releaseHeldOne
  split
  · exact k.setSwitch x _ h
  · exact h

theorem Postings.releaseHeld (k : Postings P) (h : P s) : P (releaseHeld s) := k.releaseHeldOne .B (k.releaseHeldOne .A h)

theorem Postings.endBridge (k : Postings P) (h : P s) : P (endBridge s) := by
  unfold Machine.endBridge
  split
  · exact h
  · exact k.recompute (k.same s _ rfl rfl h)

theorem Postings.switchOff (k : Postings P) (x : BayId) (h : P s) : P (switchOff x s) := by
  unfold Machine.switchOff
  split
  · exact k.same s _ rfl rfl h
  · split
    · exact k.setSwitch x _ h
    · exact k.same s _ rfl rfl h

theorem Postings.switchOn (k : Postings P) (x : BayId) (h : P s) : P (switchOn x s) := by
  unfold Machine.switchOn
  split
  · exact k.same s _ rfl rfl h
  · split
    · exact k.releaseHeld (k.endBridge (k.setSwitch x _ h))
    · exact k.setSwitch x _ h

theorem Postings.requestOn (k : Postings P) (x : BayId) (h : P s) : P (requestOn x s) := by
  unfold Machine.requestOn
  split
  · exact k.switchOff _ (k.switchOn x h)
  · exact k.switchOn x h

theorem Postings.startBridge (k : Postings P) (why : BridgeReason) (h : P s) : P (startBridge why s) := by
  unfold Machine.startBridge
  split
  · exact k.releaseHeld (k.recompute (k.post _ _ _ (k.same s _ rfl rfl h)))
  · exact h

theorem Postings.setBayState (k : Postings P) (x : BayId) (st : BayState) (h : P s) : P (setBayState x st s) :=
  k.recompute (k.same s _ rfl rfl h)

theorem Postings.enterEmpty (k : Postings P) (x : BayId) (save : Option (Option Half)) (h : P s) : P (enterEmpty x save false s) := by
  have hempty : P (becomeEmpty x save false s) :=
    k.switchOff x (k.setBayState x .empty (k.same s _ (beside_parkDeparted x save s).time attn_parkDeparted h))
  unfold Machine.enterEmpty
  split
  · exact k.setBayState x .seating (k.same (becomeEmpty x save false s) _ rfl rfl hempty)
  · exact hempty

theorem Postings.resetWalk (k : Postings P) : ResetWalk P where
  done _ _ s h := k.post _ _ s h
  refused _ _ s h := k.post _ _ s h
  mark _ _ s _ h := k.same s _ rfl rfl h
  online x _ _ h := k.setBayState x .online (k.requestOn x h)
  standby x _ _ h := k.setBayState x .standby (k.switchOff x h)
  release x _ s _ h := k.setBayState x .releasing (k.same (Machine.switchOff x s) _ rfl rfl (k.switchOff x h))
  bridge why _ h := k.startBridge why h
  note _ _ s h := k.post _ _ s h
  lines _ s h := k.same s _ rfl rfl h
  fault x _ s _ h := k.switchOff x (k.same (Machine.setBayState x .faulted s) _ rfl rfl (k.setBayState x .faulted h))
  record _ _ s _ h := k.same s _ rfl rfl h
  probing x _ _ h := k.setBayState x .probing h
  probe _ _ s _ h := k.same s _ rfl rfl h
  expire x v _ h := k.enterEmpty x (some v) h
  flags _ s h := k.same s _ rfl rfl h
  shut s h := k.same s _ rfl rfl h

theorem postings_postedAt (n : Nat) : Postings (postedAt n) :=
  ⟨fun _ _ ht ha h => postedAt_congr ht ha h, fun k d _ h => postedAt_post k d h⟩

end Walks

end Sys2Proof.Machine
end

