-- ==== Sys2Proof/Proofs/RestartedProbes.lean ====
section
/-! PROOFS. The bays through the events of a software reset (R22, R23, R35, R37, R41, R47, R70): what an action of one bay leaves of the other, the pack
whose probe is restarted, and the cache that the reset has emptied. -/

namespace Sys2Proof.Machine

/-! ### What an action of one bay leaves of the other (R25) -/

section Yields
variable {x : BayId} {s t u : State}

/-- From `s` to `t` bay `x` rests, or is STANDBY with its latch closed and goes ONLINE. -/
def Yields (x : BayId) (s t : State) : Prop :=
  Rests x s t ∨ ((s.bays.get x).state = .standby ∧ (t.bays.get x).state = .online ∧ (t.bays.get x).latch = true)

theorem Yields.refl (x : BayId) (s : State) : Yields x s s := .inl (Rests.refl x s)

theorem Yields.trans (h : Yields x s t) (k : Yields x t u) : Yields x s u := by
  obtain hr | ⟨hst, hon, hl⟩ := h
  · obtain kr | ⟨kst, kon, kl⟩ := k
    · exact .inl (hr.trans kr)
    · exact .inr ⟨by rw [← hr.bay]; exact kst, kon, kl⟩
  · obtain kr | ⟨kst, -⟩ := k
    · exact .inr ⟨hst, by rw [kr.bay]; exact hon, by rw [kr.bay]; exact hl⟩
    · rw [hon] at kst
      cases kst

theorem Yields.rests (h : Yields x s t) (hst : (s.bays.get x).state ≠ .standby) : Rests x s t := h.resolve_right fun e => hst e.1

theorem yields_goOnline_self (d : Detail) (hst : (s.bays.get x).state = .standby) (hl : (s.bays.get x).latch = true) :
    Yields x s (goOnline x d s) := .inr ⟨hst, state_goOnline_self x d s, by rw [get_goOnline_self]; exact hl⟩

theorem yields_settle (x : BayId) (old s : State) : Yields x s (settle old s) := by
  refine settle_keeps (P := Yields x s) (fun z u hu hz hl _ => hu.trans ?_) (Yields.refl x s)
  by_cases hzx : z = x
  · subst hzx
    exact yields_goOnline_self dTakeOver hz hl
  · have hrest := rests_goOnline_other z dTakeOver u
    rw [← eq_other_of_ne fun e => hzx e.symm] at hrest
    exact .inl hrest

/-- R26: what an evaluation does, by its outcome. -/
theorem evaluateCases_keeps {P : State → Prop} {b : Bool} (hrefuse : ∀ r, P (refuseBay x b r s))
    (hdefer : P (updBay x (fun c => { c with deferred := true }) s)) (hcarry : ∀ k, handoverCase s x k → P (carriedOut x k s)) :
    P (evaluateCases x b s).1 := by
  by_cases hw : s.motion.window = .closed
  · obtain ⟨r, hr⟩ | ⟨k, hk⟩ := refused_or_carried x hw
    · rw [evaluateCases_of_refusal hr]
      exact hrefuse r
    · rw [evaluateCases_of_handover hk]
      exact hcarry k hk
  · unfold evaluateCases
    rw [if_pos (windowOpen_of_not hw)]
    split
    · exact hrefuse .held
    split
    · exact hdefer
    · exact hrefuse .drop

theorem rests_release_other (x : BayId) (k : HandoverKind) (s : State) : Rests x.other s (releaseBay x k (switchOff x s)) :=
  (rests_switchOff_other x s).trans (rests_releaseBay_other x k _)

theorem yields_carriedOut {k : HandoverKind} (h : handoverCase s x k) : Yields x.other s (carriedOut x k s) := by
  cases k with
  | plain => exact .inl (rests_release_other x .plain s)
  | makeFirst =>
    obtain ⟨-, -, ⟨hst, hl, -⟩, -⟩ := h
    exact (yields_goOnline_self dTakeOver hst hl).trans (.inl (rests_release_other x .makeFirst _))
  | breakFirst =>
    obtain ⟨-, -, ⟨hst, hl, -⟩, -⟩ := h
    have hrest := rests_release_other x .breakFirst s
    exact Yields.trans (.inl hrest) (yields_goOnline_self dTakeOver (by rw [hrest.bay]; exact hst) (by rw [hrest.bay]; exact hl))
  | bridgeThrough =>
    obtain ⟨-, -, ⟨hst, hl, -⟩, -⟩ := h
    have hrest := (rests_startBridge x.other .through s).trans (rests_release_other x .bridgeThrough _)
    exact Yields.trans (.inl hrest) (yields_goOnline_self dTakeOver (by rw [hrest.bay]; exact hst) (by rw [hrest.bay]; exact hl))
  | bridgeHold => exact .inl ((rests_startBridge x.other .hold s).trans (rests_release_other x .bridgeHold _))
  | none => exact absurd h id

theorem yields_evaluateLatch (x : BayId) (s : State) : Yields x.other s (evaluateLatch x s) := by
  have hcases : Yields x.other s (evaluateCases x true s).1 :=
    evaluateCases_keeps (fun r => .inl (rests_refuseBay_other x true r s)) (.inl (rests_updBay_other ..)) fun _ hk => yields_carriedOut hk
  exact hcases.trans (yields_settle x.other s _)

theorem yields_reevaluate (x : BayId) (s : State) : Yields x.other s (reevaluate x s) := by
  unfold reevaluate
  split
  · exact yields_evaluateLatch x s
  · exact Yields.refl ..

theorem yields_windowCloseOne (x : BayId) (s : State) : Yields x.other s (windowCloseOne x s) := by
  have hu : Yields x.other s (undeferred x s) := .inl (rests_updBay_other x _ s)
  have hc : Yields x.other s (closeDeferred x s) := closeDeferred_keeps (Yields.refl ..) hu (hu.trans (yields_evaluateLatch x _))
  unfold windowCloseOne
  split
  · refine hc.trans ?_
    by_cases hj : joltHoldMs (closeDeferred x s) = 0
    · rw [startJoltHold_of_none hj]
      exact Yields.trans (.inl (rests_joltExpire_other x _)) (yields_settle x.other _ _)
    · rw [startJoltHold_of_hold hj]
      exact .inl (rests_updBay_other ..)
  · exact hc

/-- R37, R23: what placement does, by the cause and the record of the jolt. -/
theorem placePack_cases {P : State → Prop}
    (hfresh : (s.bays.get x).probeCause ≠ .joltReturn → P (postProbeEnd (s.bays.get x) x dAdmitted (placeFresh x (reasonCleared x s))))
    (honline : (s.bays.get x).probeCause = .joltReturn → P (returnOnline x (joltReturned x dSame s)))
    (hstandby : P (standbyJoin x (setBayState x .standby (switchOff x (joltReturned x dSame s)))))
    (hsame : P (placeFresh x (joltReturned x dSame s))) (hdiff : P (placeFresh x (droppedPack x s))) : P (placePack x s) := by
  by_cases hc : (s.bays.get x).probeCause = .joltReturn
  · rw [placePack_of_jolt hc]
    cases hs : sameSerial (reasonCleared x s) x with
    | false =>
      rw [settleJolt_of_different hs]
      exact hdiff
    | true =>
      cases hj : ((reasonCleared x s).bays.get x).jolt with
      | none =>
        unfold sameSerial at hs
        rw [hj] at hs
        cases hs
      | some j =>
        cases he : j.earlier with
        | online =>
          rw [settleJolt_of_online hs hj he]
          exact honline hc
        | standby =>
          rw [settleJolt_of_standby hs hj he]
          exact hstandby
        | probing =>
          rw [settleJolt_of_probing hs hj he]
          exact hsame
  · rw [placePack_of_ne hc]
    exact hfresh hc

theorem rests_droppedPack_other (x : BayId) (s : State) : Rests x.other s (droppedPack x s) :=
  (((rests_updBay_other x _ s).trans (rests_mapCache ..)).trans (rests_post ..)).trans (rests_updBay_other ..)

theorem yields_placePack (x : BayId) (s : State) : Yields x.other s (placePack x s) := by
  refine placePack_cases (fun hc => ?_) (fun _ => ?_) (.inl ?_) (.inl ?_) (.inl ?_)
  · rw [← placePack_of_ne hc]
    exact .inl (rests_placePack_other hc)
  · refine Yields.trans (t := joltReturned x dSame s) (.inl rests_joltReturned_other) ?_
    unfold returnOnline
    split
    · split
      · exact .inl (rests_turnOnline_other x _)
      · exact Yields.trans (.inl (rests_turnOnline_other x _)) (yields_evaluateLatch x _)
    · exact .inl (rests_placeSwitch_other x _)
  · exact (rests_joltReturned_other.trans ((rests_switchOff_other x _).trans (rests_setBayState_other x .standby _))).trans
      (rests_standbyJoin_other x _)
  · exact rests_joltReturned_other.trans (rests_placeFresh_other x _)
  · exact (rests_droppedPack_other x s).trans (rests_placeFresh_other x _)

theorem yields_admitPack (x : BayId) (s : State) : Yields x.other s (admitPack x s) := by
  cases hok : admissionOk s x with
  | true =>
    rw [admitPack_of_ok hok]
    exact (yields_placePack x s).trans (yields_settle ..)
  | false =>
    rw [admitPack_of_not hok]
    exact Yields.trans (.inl (rests_enterFault_other x .admission s)) (yields_settle ..)

theorem restartProbe_of_not (h : (s.bays.get x).state ≠ .probing) : restartProbe x s = s := if_neg h

theorem restartProbe_of_probing (h : (s.bays.get x).state = .probing) : restartProbe x s = settle s (startProbe x s) := if_pos h

theorem yields_restartProbe (x : BayId) (s : State) : Yields x.other s (restartProbe x s) := by
  by_cases h : (s.bays.get x).state = .probing
  · rw [restartProbe_of_probing h]
    refine Yields.trans ?_ (yields_settle ..)
    by_cases hr : probeReads s = []
    · rw [startProbe_of_none hr]
      exact yields_admitPack x s
    · rw [startProbe_of_some hr]
      exact .inl (rests_updRelay_other ..)
  · rw [restartProbe_of_not h]
    exact Yields.refl ..

end Yields

/-! ### The pack whose probe completes at once (R22, R23, R37) -/

section Placed
variable {x : BayId} {K : Prop} {b c : Bay} {s t u : State}

/-- The bay of a pack that has been placed or faulted; `K` is that it returned from a jolt to a switch still ON with its latch open. -/
def Placed (K : Prop) (b : Bay) : Prop :=
  b.state = .standby ∨ b.state = .faulted ∨ (b.state = .online ∧ (b.latch = true ∨ K)) ∨ (b.state = .releasing ∧ K)

theorem Placed.yields (h : Placed K (s.bays.get x)) (y : Yields x s t) : Placed K (t.bays.get x) := by
  obtain hr | ⟨-, hon, hl⟩ := y
  · rw [hr.bay]
    exact h
  · exact .inr (.inr (.inl ⟨hon, .inl hl⟩))

theorem Placement.placed (h : Placement x b u t) : Placed K (t.bays.get x) := by
  by_cases hp : placesOnline x u
  · refine .inr (.inr (.inl ⟨h.state_on hp, .inl ?_⟩))
    rw [h.online hp]
    exact h.latch.trans hp.1
  · exact .inl (h.state_off hp)

theorem state_carriedOut {k : HandoverKind} (h : handoverCase s x k) : ((carriedOut x k s).bays.get x).state = .releasing := by
  have hrel : ∀ k u, ((releaseBay x k u).bays.get x).state = .releasing := fun k u => by rw [get_releaseBay_self]; rfl
  have hon : ∀ u, (goOnline x.other dTakeOver u).bays.get x = u.bays.get x := fun u => by
    have hr := (rests_goOnline_other x.other dTakeOver u).bay
    rw [other_other] at hr
    exact hr
  cases k with
  | plain => exact hrel ..
  | makeFirst => exact hrel ..
  | breakFirst => exact (congrArg Bay.state (hon _)).trans (hrel ..)
  | bridgeThrough => exact (congrArg Bay.state (hon _)).trans (hrel ..)
  | bridgeHold => exact hrel ..
  | none => exact absurd h id

/-- R26: an evaluation leaves an ONLINE bay ONLINE or RELEASING. -/
theorem state_evaluateLatch (hon : (s.bays.get x).state = .online) :
    ((evaluateLatch x s).bays.get x).state = .online ∨ ((evaluateLatch x s).bays.get x).state = .releasing := by
  have hcases : ((evaluateCases x true s).1.bays.get x).state = .online ∨ ((evaluateCases x true s).1.bays.get x).state = .releasing := by
    refine evaluateCases_keeps (P := fun u => (u.bays.get x).state = .online ∨ (u.bays.get x).state = .releasing) (fun r => .inl ?_) (.inl ?_)
      fun _ hk => .inr (state_carriedOut hk)
    · have hb : (refuseBay x true r s).bays.get x = { s.bays.get x with refusal := r, refuse := true } := Pair.get_upd_self ..
      rw [hb]
      exact hon
    · rw [updBay_bays, Pair.get_upd_self]
      exact hon
  have hne : ((evaluateCases x true s).1.bays.get x).state ≠ .standby := by
    obtain e | e := hcases <;> rw [e] <;> decide
  have hrest : Rests x (evaluateCases x true s).1 (evaluateLatch x s) := rests_settle hne
  rw [hrest.bay]
  exact hcases

theorem placed_evaluateLatch (hk : K) (hon : (s.bays.get x).state = .online) : Placed K ((evaluateLatch x s).bays.get x) :=
  (state_evaluateLatch hon).elim (fun e => .inr (.inr (.inl ⟨e, .inr hk⟩))) fun e => .inr (.inr (.inr ⟨e, hk⟩))

theorem Placed.of_open (h : Placed K b) (hon : b.state = .online) (hl : b.latch = false) : K := by
  obtain e | e | ⟨-, e⟩ | ⟨e, -⟩ := h
  · cases hon.symm.trans e
  · cases hon.symm.trans e
  · exact e.resolve_left fun e => by cases hl.symm.trans e
  · cases hon.symm.trans e

/-- R41: an evaluation of the bay itself. -/
theorem Placed.reevaluate (h : Placed K (s.bays.get x)) : Placed K ((Machine.reevaluate x s).bays.get x) := by
  unfold Machine.reevaluate
  split
  · next hc =>
    obtain ⟨hon, -, hl⟩ := hc
    exact placed_evaluateLatch (h.of_open hon (by rw [← Bool.not_eq_true]; exact hl)) hon
  · exact h

theorem Placed.not_jolt (h : Placed K b) : b.state ≠ .jolt := by
  obtain e | e | ⟨e, -⟩ | ⟨e, -⟩ := h <;> rw [e] <;> decide

/-- R40: the close for the bay itself. -/
theorem Placed.windowCloseOne (h : Placed K (s.bays.get x)) : Placed K ((Machine.windowCloseOne x s).bays.get x) := by
  have hu : Placed K ((undeferred x s).bays.get x) := by rw [get_undeferred]; exact h
  have hc : Placed K ((closeDeferred x s).bays.get x) := by
    by_cases hd : (s.bays.get x).deferred = true
    · by_cases ho : (s.bays.get x).state = .online ∧ (s.bays.get x).latch = false
      · rw [closeDeferred_of_open hd ho.1 ho.2]
        exact placed_evaluateLatch (h.of_open ho.1 ho.2) (by rw [get_undeferred]; exact ho.1)
      · rw [closeDeferred_of_other hd ho]
        exact hu
    · rw [closeDeferred_of_not (by rw [← Bool.not_eq_true]; exact hd)]
      exact h
  rw [windowCloseOne_of_not hc.not_jolt]
  exact hc

/-- R37: a pack that returned from a jolt to a switch still ON, its latch open. -/
def openReturn (x : BayId) (s : State) : Prop :=
  (s.bays.get x).probeCause = .joltReturn ∧ (s.bays.get x).latch = false ∧ s.pp.sw.get x = .on

theorem placed_placePack (x : BayId) (s : State) : Placed (openReturn x s) ((placePack x s).bays.get x) := by
  refine placePack_cases (P := fun u => Placed (openReturn x s) (u.bays.get x)) (fun _ => ?_) (fun hc => ?_) ?_ ?_ ?_
  · exact ((inserted_placeFresh x _).place.postProbeEnd _ _).placed
  · have hl : ((joltReturned x dSame s).bays.get x).latch = (s.bays.get x).latch := by rw [get_joltReturned]
    by_cases hsw : (joltReturned x dSame s).pp.sw.get x = .on
    · cases hlatch : (s.bays.get x).latch with
      | true =>
        rw [returnOnline_of_closed hsw (hl.trans hlatch)]
        exact .inr (.inr (.inl ⟨by rw [bay_turnOnline]; rfl, .inl (by rw [bay_turnOnline]; exact hl.trans hlatch)⟩))
      | false =>
        rw [returnOnline_of_open hsw (hl.trans hlatch)]
        exact placed_evaluateLatch ⟨hc, hlatch, hsw⟩ (by rw [bay_turnOnline]; rfl)
    · rw [returnOnline_of_off hsw]
      exact (placement_placeSwitch x _).placed
  · refine standbyJoin_keeps (P := fun u => Placed (openReturn x s) (u.bays.get x)) (fun u hu hst hl _ => hu.yields (yields_goOnline_self _ hst hl))
      (.inl ?_)
    rw [get_turnStandby]
    rfl
  · exact (inserted_placeFresh x _).place.placed
  · exact (inserted_placeFresh x _).place.placed

theorem placed_admitPack (x : BayId) (s : State) : Placed (openReturn x s) ((admitPack x s).bays.get x) := by
  cases hok : admissionOk s x with
  | true =>
    rw [admitPack_of_ok hok]
    exact (placed_placePack x s).yields (yields_settle ..)
  | false => exact .inr (.inl (notAdmitted_admitPack hok).state)

theorem placed_restartProbe (hst : (s.bays.get x).state = .probing) (hr : probeReads s = []) :
    Placed (openReturn x s) ((restartProbe x s).bays.get x) := by
  rw [restartProbe_of_probing hst, startProbe_of_none hr]
  exact (placed_admitPack x s).yields (yields_settle ..)

end Placed

/-! ### The cache that the reset has emptied (R104) -/

section Blank
variable {x : BayId} {s t : State}

def blank (s : State) : Prop := s.cache = List.replicate 16 CacheSet.reset

theorem blank_of_map {f : Line → Line} (hf : f Line.invalid = Line.invalid) (h : blank s) (ht : t.cache = s.cache.map (CacheSet.mapLines f)) :
    blank t := by
  have hset : CacheSet.mapLines f CacheSet.reset = CacheSet.reset := by
    unfold CacheSet.mapLines CacheSet.reset
    simp only [hf]
  unfold blank at h ⊢
  rw [ht, h, List.map_replicate, hset]

theorem blank_of_frame (h : blank s) (ht : baysOnly s t) : blank t := ht.cache.trans h

/-- A change of the valid lines alone. -/
theorem ite_valid {p : Prop} [Decidable p] {g : Line} : (if Line.invalid.valid = true ∧ p then g else Line.invalid) = Line.invalid :=
  if_neg fun e => Bool.noConfusion e.1

theorem blank_inserted {b : State} (h : blank b) (hi : Inserted x b t) : blank t := by
  refine blank_of_map ?_ h hi.cache
  exact ite_valid

theorem blank_droppedPack (h : blank s) : blank (droppedPack x s) :=
  blank_of_map (s := s) (f := fun l => if l.valid ∧ l.bay = x then Line.invalid else l) ite_valid h rfl

theorem blank_placePack (h : blank s) : blank (placePack x s) := by
  have hret : blank (joltReturned x dSame s) := blank_of_frame h baysOnly_joltReturned
  refine placePack_cases (fun _ => ?_) (fun _ => ?_) ?_ ?_ ?_
  · exact blank_of_frame (blank_inserted (b := reasonCleared x s) h (inserted_placeFresh x _)) (baysOnly_postProbeEnd ..)
  · exact blank_of_frame h cameBack_returnOnline.frame
  · exact blank_of_frame h cameBack_standby.frame
  · exact blank_inserted hret (inserted_placeFresh x _)
  · exact blank_inserted (blank_droppedPack h) (inserted_placeFresh x _)

theorem blank_cacheDistrust (h : blank s) : blank (cacheDistrust x s) := by
  refine blank_of_map (s := s) (f := fun l => if l.bay = x then l.distrust else l) ?_ h rfl
  rw [show Line.invalid.distrust = Line.invalid from rfl, ite_self]

theorem blank_admitPack (h : blank s) : blank (admitPack x s) := by
  cases hok : admissionOk s x with
  | true =>
    rw [admitPack_of_ok hok]
    exact blank_of_frame (blank_placePack h) (settle_baysOnly ..)
  | false =>
    have hf : blank (enterFault x .admission s) := (cache_enterFault x .admission s).trans (blank_cacheDistrust h)
    rw [admitPack_of_not hok]
    exact blank_of_frame hf (settle_baysOnly ..)

theorem blank_restartProbe (h : blank s) : blank (restartProbe x s) := by
  by_cases hst : (s.bays.get x).state = .probing
  · rw [restartProbe_of_probing hst]
    refine blank_of_frame ?_ (settle_baysOnly ..)
    by_cases hr : probeReads s = []
    · rw [startProbe_of_none hr]
      exact blank_admitPack h
    · rw [startProbe_of_some hr]
      exact h
  · rw [restartProbe_of_not hst]
    exact h

theorem blank_reevaluate (h : blank s) : blank (reevaluate x s) := by
  unfold reevaluate
  split
  · exact blank_of_frame h (baysOnly_evaluateLatch x s)
  · exact h

theorem blank_windowCloseOne (h : blank s) : blank (windowCloseOne x s) := by
  have hu : baysOnly s (undeferred x s) := (baysOnly.refl s).updBay x _
  have hc : blank (closeDeferred x s) :=
    closeDeferred_keeps h (blank_of_frame h hu) (blank_of_frame h (hu.trans (baysOnly_evaluateLatch x _)))
  unfold windowCloseOne
  split
  · by_cases hj : joltHoldMs (closeDeferred x s) = 0
    · rw [startJoltHold_of_none hj, joltExpire_eq]
      refine blank_of_frame (s := post _ _ _) ?_ (settle_baysOnly ..)
      refine blank_of_map ?_ hc (cache_enterEmpty _ false)
      exact ite_valid
    · rw [startJoltHold_of_hold hj]
      exact hc
  · exact hc

end Blank

end Sys2Proof.Machine
end

