-- ==== Sys2Proof/Proofs/ResetPart.lean ====
section
/-! PROOFS. Reset Part block by block (R15, R41, R47, R70, R84, R104, R119, R139, R162, R179, R189, R190, R201 to R203). -/

namespace Sys2Proof.Machine

/-! ### The blocks before the events -/

section Base
variable {s t : State} {y : BayId}

theorem mapInService_out (h : (s.tables.codemap).state = .empty) : mapInService s = .builtin := if_neg (by rw [h]; decide)

/-- The tables of a software reset. -/
def tablesCleared (s : State) : State :=
  { s with tables := ⟨resetRegion s.tables.config, resetRegion s.tables.codemap, resetRegion s.tables.curve, resetRegion s.tables.motion⟩ }

theorem tablesReset_of_leaves (h : leavesByReset s.tables.codemap = true) : tablesReset s = newInstance (tablesCleared s) := if_pos h

theorem tablesReset_of_stays (h : leavesByReset s.tables.codemap = false) : tablesReset s = tablesCleared s := if_neg (by rw [h]; decide)

theorem leavesByReset_iff {g : Region} : leavesByReset g = true ↔ g.lock = false ∧ g.state = .inService := by
  rw [leavesByReset, Bool.and_eq_true, Bool.not_eq_true', beq_iff_eq]

/-- R70, R83: the ring of a bay after the reset. -/
def ringKept (s : State) (y : BayId) : List Code := if leavesByReset s.tables.codemap then [] else (s.relays.get y).ring

theorem relays_beforeRecompute (s : State) (y : BayId) :
    (beforeRecompute s).relays.get y = { resetRelay (s.relays.get y) with ring := ringKept s y } := by
  unfold ringKept
  cases h : leavesByReset s.tables.codemap with
  | true =>
    have hres : tablesReset (relayReset (emptyAttn s)) = newInstance (tablesCleared (relayReset (emptyAttn s))) := tablesReset_of_leaves h
    have hlock : s.tables.codemap.lock = false := (leavesByReset_iff.mp h).1
    have hcode : resetRegion s.tables.codemap = { s.tables.codemap with state := .empty, words := [] } := if_neg (by rw [hlock]; decide)
    have hring : ∀ u : State, u.tables = (tablesCleared s).tables → ringOf (mapInService u) = [] := fun u hu => by
      have hm : mapInService u = .builtin := mapInService_out (by rw [hu]; exact congrArg Region.state hcode)
      rw [hm, ringOf_builtin]
    unfold beforeRecompute
    rw [hres]
    have hB := hring (rebuildRing .A { tablesCleared (relayReset (emptyAttn s)) with mapInst := s.mapInst + 1 }) rfl
    have hA := hring { tablesCleared (relayReset (emptyAttn s)) with mapInst := s.mapInst + 1 } rfl
    cases y with
    | A => exact congrArg (fun c => { resetRelay s.relays.a with ring := c }) hA
    | B => exact congrArg (fun c => { resetRelay s.relays.b with ring := c }) hB
  | false =>
    have hres : tablesReset (relayReset (emptyAttn s)) = tablesCleared (relayReset (emptyAttn s)) := tablesReset_of_stays h
    unfold beforeRecompute
    rw [hres]
    cases y <;> rfl

theorem relays_resetBase (s : State) (y : BayId) : (resetBase s).relays.get y = { resetRelay (s.relays.get y) with ring := ringKept s y } := by
  rw [resetBase_recompute, recompute_eq]
  exact relays_beforeRecompute s y

theorem mapInst_resetBase (s : State) : (resetBase s).mapInst = if leavesByReset s.tables.codemap then s.mapInst + 1 else s.mapInst := by
  have hm : (resetBase s).mapInst = (tablesReset (relayReset (emptyAttn s))).mapInst := by
    rw [resetBase_recompute, recompute_eq]
    rfl
  rw [hm]
  cases h : leavesByReset s.tables.codemap with
  | true => rw [tablesReset_of_leaves (s := relayReset (emptyAttn s)) h]; rfl
  | false => rw [tablesReset_of_stays (s := relayReset (emptyAttn s)) h]; rfl

theorem upstream_resetBase (s : State) : (resetBase s).upstream = s.upstream := by
  rw [resetBase_recompute, recompute_eq]
  exact beforeRecompute_field State.upstream s _ fun _ _ _ => rfl

theorem pipe_resetBase (s : State) : ∃ o, (resetBase s).pipe = { s.pipe with
    o := o, mode := .auto, hostMax := 1000, s := 16 * s.pipe.o, d := s.pipe.o, t := s.pipe.o, clampedLux := false, ceilingLimited := false } := by
  have hp : (beforeRecompute s).pipe = (pipeReset s).pipe := beforeRecompute_field State.pipe s _ fun _ _ _ => rfl
  refine ⟨(recompute (beforeRecompute s)).pipe.o, ?_⟩
  have hb : (resetBase s).pipe = (recompute (beforeRecompute s)).pipe := rfl
  rw [hb, recompute_pipe, hp]
  rfl

theorem postedAt_resetBase (s : State) : postedAt s.time.uptime (resetBase s) := by
  have ha : (beforeRecompute s).attn = { queue := [], req := false } := beforeRecompute_field State.attn s _ fun _ _ _ => rfl
  have ht : (beforeRecompute s).time = s.time := beforeRecompute_field State.time s _ fun _ _ _ => rfl
  have hbase : postedAt s.time.uptime (beforeRecompute s) := ⟨by rw [ht], by rw [ha]; exact fun e he => (by cases he)⟩
  exact (postings_postedAt _).same (recompute (beforeRecompute s)) _ rfl rfl ((postings_postedAt _).recompute hbase)

/-- R201, R119: the reset itself posts a BUDGET_CUT alone. -/
theorem queue_resetBase (s : State) : (resetBase s).attn.queue = if (resetBase s).budget.c < s.pipe.o
    then [{ key := .budgetCut, count := 1, first := s.time.uptime, detail := ⟨0, (resetBase s).budget.c⟩ }] else [] := by
  have ha : (beforeRecompute s).attn = { queue := [], req := false } := beforeRecompute_field State.attn s _ fun _ _ _ => rfl
  have ht : (beforeRecompute s).time = s.time := beforeRecompute_field State.time s _ fun _ _ _ => rfl
  have ho : (beforeRecompute s).pipe.o = s.pipe.o := beforeRecompute_field (fun u => u.pipe.o) s _ fun _ _ _ => rfl
  have hc : (resetBase s).budget.c = (computeBudget (beforeRecompute s)).c := congrArg Budget.c (recompute_budget (beforeRecompute s))
  have hq : (resetBase s).attn = cutAttn (computeBudget (beforeRecompute s)).c (beforeRecompute s).pipe.o (beforeRecompute s) := by
    rw [resetBase_recompute, recompute_eq]
    rfl
  rw [hc, hq, ho, cutAttn]
  split
  · rw [post, ha, ht]
    rfl
  · rw [ha]

end Base

/-! ### The bays through the events -/

section Events
variable {x : BayId} {s t u v : State} {P : State → Prop}

/-- What the evaluations of cleared holds and the close keep. -/
theorem flagsReset_keeps (hf : ∀ u, P u → P { u with flags := flagsClear }) (hr : ∀ y u, P u → P (reevaluate y u)) (h : P s) :
    P (flagsReset s) := by
  have h1 := hf s h
  have h2 : P (if s.flags.holdSwapA then reevaluate .A { s with flags := flagsClear } else { s with flags := flagsClear }) := by
    split
    · exact hr .A _ h1
    · exact h1
  unfold flagsReset
  simp only
  split
  · exact hr .B _ h2
  · exact h2

theorem windowReset_keeps (hs : ∀ u, P u → P (windowShut u)) (hc : ∀ y u, P u → P (windowCloseOne y u)) (h : P s) : P (windowReset s) := by
  unfold windowReset
  split
  · exact hc .B _ (hc .A _ (hs s h))
  · exact h

/-- The restarts take a bay in PROBING by itself, before or after the other bay. -/
theorem restart_around (hst : (s.bays.get x).state = .probing) : ∃ u, Rests x s u ∧ probeReads u = probeReads s
    ∧ Yields x (restartProbe x u) (restartProbe .B (restartProbe .A s)) := by
  cases x with
  | A => exact ⟨s, Rests.refl .., rfl, yields_restartProbe .B _⟩
  | B =>
    have hrest : Rests .B s (restartProbe .A s) := (yields_restartProbe .A s).rests (by rw [show (s.bays.get (BayId.other .A)).state = _ from hst]; decide)
    have hacts := (Acts.refl s).restartProbe .A
    exact ⟨_, hrest, probeReads_congr hacts.tables hacts.moves.mapInst, Yields.refl ..⟩

/-- R70, R47: the probe of the bay waits for its first read again. -/
structure ProbeRestarted (x : BayId) (s t : State) : Prop where
  state : (t.bays.get x).state = .probing
  cause : (t.bays.get x).probeCause = (s.bays.get x).probeCause
  relay : (t.relays.get x).probe = some { reads := probeReads s, attempts := 0, background := (s.bays.get x).probeCause == .bayProbe }

theorem ProbeRestarted.rests (h : ProbeRestarted x s t) (r : Rests x t u) : ProbeRestarted x s u :=
  ⟨by rw [r.bay]; exact h.state, by rw [r.bay]; exact h.cause, by rw [r.relay]; exact h.relay⟩

theorem ProbeRestarted.yields (h : ProbeRestarted x s t) (y : Yields x t u) : ProbeRestarted x s u :=
  h.rests (y.rests (by rw [h.state]; decide))

theorem settle_updRelay (x : BayId) (f : Relay → Relay) (s : State) : settle s (updRelay x f s) = updRelay x f s :=
  settle_of_level (s := updRelay x f s) rfl fun _ => rfl

theorem probeRestarted_restartProbe (hst : (s.bays.get x).state = .probing) (hr : probeReads s ≠ []) :
    ProbeRestarted x s (restartProbe x s) := by
  rw [restartProbe_of_probing hst, startProbe_of_some hr, settle_updRelay]
  exact ⟨hst, rfl, by rw [updRelay_relays, Pair.get_upd_self]⟩

theorem ProbeRestarted.reevaluate (h : ProbeRestarted x s t) (y : BayId) : ProbeRestarted x s (Machine.reevaluate y t) := by
  by_cases hy : x = y
  · subst hy
    rw [reevaluate_of_not fun hc => (by cases h.state.symm.trans hc.1)]
    exact h
  · have hx : x = y.other := eq_other_of_ne hy
    subst hx
    exact h.yields (yields_reevaluate y t)

theorem ProbeRestarted.windowCloseOne (h : ProbeRestarted x s t) (y : BayId) : ProbeRestarted x s (Machine.windowCloseOne y t) := by
  by_cases hy : x = y
  · subst hy
    have hu : ProbeRestarted x s (undeferred x t) := ⟨by rw [get_undeferred]; exact h.state, by rw [get_undeferred]; exact h.cause, h.relay⟩
    have hc : ProbeRestarted x s (closeDeferred x t) := by
      by_cases hd : (t.bays.get x).deferred = true
      · rw [closeDeferred_of_other hd fun ho => (by cases h.state.symm.trans ho.1)]
        exact hu
      · rw [closeDeferred_of_not (by rw [← Bool.not_eq_true]; exact hd)]
        exact h
    rw [windowCloseOne_of_not (by rw [hc.state]; decide)]
    exact hc
  · have hx : x = y.other := eq_other_of_ne hy
    subst hx
    exact h.yields (yields_windowCloseOne y t)

theorem probeRestarted_resetEvents (hst : (s.bays.get x).state = .probing) (hr : probeReads s ≠ []) : ProbeRestarted x s (resetEvents s) := by
  obtain ⟨u, hu, hreads, hy⟩ := restart_around hst
  have hown := probeRestarted_restartProbe (s := u) (x := x) (by rw [hu.bay]; exact hst) (by rw [hreads]; exact hr)
  have hown' : ProbeRestarted x s (restartProbe x u) := ⟨hown.state, by rw [hown.cause, hu.bay], by rw [hown.relay, hreads, hu.bay]⟩
  refine windowReset_keeps (P := ProbeRestarted x s) (fun _ h => ⟨h.state, h.cause, h.relay⟩) (fun y _ h => h.windowCloseOne y) ?_
  exact flagsReset_keeps (P := ProbeRestarted x s) (fun _ h => ⟨h.state, h.cause, h.relay⟩) (fun y _ h => h.reevaluate y) (hown'.yields hy)

theorem Placed.reevaluate_of {K : Prop} (h : Placed K (s.bays.get x)) (y : BayId) : Placed K ((Machine.reevaluate y s).bays.get x) := by
  by_cases hy : x = y
  · exact hy ▸ h.reevaluate
  · have hx : x = y.other := eq_other_of_ne hy
    subst hx
    exact h.yields (yields_reevaluate y s)

theorem Placed.windowCloseOne_of {K : Prop} (h : Placed K (s.bays.get x)) (y : BayId) : Placed K ((Machine.windowCloseOne y s).bays.get x) := by
  by_cases hy : x = y
  · exact hy ▸ h.windowCloseOne
  · have hx : x = y.other := eq_other_of_ne hy
    subst hx
    exact h.yields (yields_windowCloseOne y s)

/-- R22, R35, R37: without reads the pack is placed or faulted at once. -/
theorem placed_resetEvents (hst : (s.bays.get x).state = .probing) (hr : probeReads s = []) :
    Placed (openReturn x s) ((resetEvents s).bays.get x) := by
  obtain ⟨u, hu, hreads, hy⟩ := restart_around hst
  have hopen : openReturn x u → openReturn x s := fun ⟨hc, hl, hsw⟩ =>
    ⟨by rw [← hu.bay]; exact hc, by rw [← hu.bay]; exact hl, sw_eq_on_of_eases hu.follows hsw⟩
  have hown := placed_restartProbe (s := u) (x := x) (by rw [hu.bay]; exact hst) (by rw [hreads]; exact hr)
  have hown' : Placed (openReturn x s) ((restartProbe x u).bays.get x) :=
    hown.imp id (Or.imp id (Or.imp (And.imp id (Or.imp id hopen)) (And.imp id hopen)))
  refine windowReset_keeps (P := fun w => Placed (openReturn x s) (w.bays.get x)) (fun _ h => h) (fun y _ h => h.windowCloseOne_of y) ?_
  exact flagsReset_keeps (P := fun w => Placed (openReturn x s) (w.bays.get x)) (fun _ h => h) (fun y _ h => h.reevaluate_of y) (hown'.yields hy)

/-- A bay in JOLT takes nothing before the close. -/
theorem jolt_before_close (hst : (s.bays.get x).state = .jolt) :
    (flagsReset (restartProbe .B (restartProbe .A s))).bays.get x = s.bays.get x := by
  have hrestart : ∀ y u, u.bays.get x = s.bays.get x → (restartProbe y u).bays.get x = s.bays.get x := fun y u hu => by
    by_cases hy : x = y
    · subst hy
      rw [restartProbe_of_not (by rw [hu, hst]; decide), hu]
    · have hx : x = y.other := eq_other_of_ne hy
      subst hx
      rw [((yields_restartProbe y u).rests (by rw [hu, hst]; decide)).bay, hu]
  refine flagsReset_keeps (P := fun u => u.bays.get x = s.bays.get x) (fun _ h => h) (fun y u hu => ?_) (hrestart .B _ (hrestart .A s rfl))
  by_cases hy : x = y
  · subst hy
    rw [reevaluate_of_not fun hc => (by rw [hu, hst] at hc; cases hc.1), hu]
  · have hx : x = y.other := eq_other_of_ne hy
    subst hx
    rw [((yields_reevaluate y u).rests (by rw [hu, hst]; decide)).bay, hu]

theorem motion_before_close (s : State) : (flagsReset (restartProbe .B (restartProbe .A s))).motion = s.motion := by
  have k : Admits False fun u => u.motion = s.motion := admits_of_beside fun _ _ h e => h.motion.trans e
  exact flagsReset_keeps (P := fun u => u.motion = s.motion) (fun _ h => h) (fun y _ h => k.reevaluate y h)
    (k.restartProbe .B (k.restartProbe .A rfl))

end Events

end Sys2Proof.Machine
end

