-- ==== Sys2Proof/Proofs/ResetPartBlocks.lean ====
section
/-! PROOFS. Reset Part settled: every block after the reset, and the clearing of a HOLD_SWAP flag that it hands on (R41, R189, R202, R203). -/

namespace Sys2Proof.Machine

/-! ### The events where nothing makes the Bay Controller act -/

section Idle
variable {s : State} {x : BayId}

theorem windowReset_of_closed (h : s.motion.window = .closed) : windowReset s = s :=
  if_neg fun ho => (bne_iff_ne.mp ho) h

theorem windowReset_of_open (h : s.motion.window ≠ .closed) : windowReset s = closeWindow s := if_pos (bne_iff_ne.mpr h)

theorem restarts_of_idle (h : ∀ y, (s.bays.get y).state ≠ .probing) : restartProbe .B (restartProbe .A s) = s := by
  rw [restartProbe_of_not (h .A), restartProbe_of_not (h .B)]

/-- R202: no HOLD_SWAP flag was set. -/
theorem flagsReset_of_none (h : ∀ y, holdSwap s y = false) : flagsReset s = { s with flags := flagsClear } := by
  have hA : s.flags.holdSwapA = false := h .A
  have hB : s.flags.holdSwapB = false := h .B
  simp only [flagsReset, hA, hB]
  rfl

/-- R203: one HOLD_SWAP flag was set. -/
theorem flagsReset_of_one (h : holdSwap s x = true) (ho : holdSwap s x.other = false) :
    flagsReset s = reevaluate x { s with flags := flagsClear } := by
  cases x with
  | A =>
    have hA : s.flags.holdSwapA = true := h
    have hB : s.flags.holdSwapB = false := ho
    simp only [flagsReset, hA, hB]
    rfl
  | B =>
    have hB : s.flags.holdSwapB = true := h
    have hA : s.flags.holdSwapA = false := ho
    simp only [flagsReset, hA, hB]
    rfl

theorem resetEvents_of_idle (h : ∀ y, (s.bays.get y).state ≠ .probing) (hf : ∀ y, holdSwap s y = false) (hw : s.motion.window = .closed) :
    resetEvents s = { s with flags := flagsClear } := by
  rw [resetEvents, restarts_of_idle h, flagsReset_of_none hf]
  exact windowReset_of_closed hw

/-- One clearing alone. -/
theorem resetEvents_of_one (h : ∀ y, (s.bays.get y).state ≠ .probing) (hx : holdSwap s x = true) (ho : holdSwap s x.other = false)
    (hw : s.motion.window = .closed) : resetEvents s = reevaluate x { s with flags := flagsClear } := by
  have k : Admits False fun u => u.motion = s.motion := admits_of_beside fun _ _ h e => h.motion.trans e
  rw [resetEvents, restarts_of_idle h, flagsReset_of_one hx ho]
  refine windowReset_of_closed ?_
  rw [k.reevaluate (s := { s with flags := flagsClear }) x rfl]
  exact hw

end Idle

/-! ### The blocks of the part after the reset -/

section Part
variable {s : State} {x : BayId}

theorem exec_resetPart_of_accepts (h : accepts s) : exec (.resetPart []) s = .next (softReset (begun s)) := by
  rw [exec_resetPart, resetPart_of_accepts h]

/-- After the events the reset takes the poll timer and the port alone. -/
theorem softReset_field {α : Sort*} (f : State → α) (s : State) (hf : ∀ u n p, f { u with pollTimer := n, port := p } = f u) :
    f (softReset s) = f (resetEvents (resetBase s)) := by
  obtain ⟨n, p, h⟩ := resetTail_form (resetBase s)
  rw [softReset_eq, h]
  exact hf ..

theorem blank_softReset (s : State) : (softReset s).cache = List.replicate 16 CacheSet.reset := by
  have hr : blank (restartProbe .B (restartProbe .A (resetBase s))) := blank_restartProbe (blank_restartProbe (resetBase_cache s))
  rw [softReset_field State.cache s fun _ _ _ => rfl, resetEvents]
  exact windowReset_keeps (P := blank) (fun _ h => h) (fun _ _ h => blank_windowCloseOne h)
    (flagsReset_keeps (P := blank) (fun _ h => h) (fun _ _ h => blank_reevaluate h) hr)

theorem upstream_softReset (s : State) : (softReset s).upstream = s.upstream := by
  rw [softReset_field State.upstream s fun _ _ _ => rfl, upstream_resetEvents, upstream_resetBase]

/-- R70: the relay of each bay. -/
theorem restingRelay_softReset (s : State) (x : BayId) : ∃ n, restingRelay (ringKept s x) n ((softReset s).relays.get x) := by
  have hbase : restingRelays (resetBase s) (resetBase s) := fun y => by
    rw [relays_resetBase]
    exact ⟨_, rfl⟩
  have h := (resetWalk_restingRelays (resetBase s)).resetEvents hbase x
  rw [relays_resetBase] at h
  rw [softReset_field State.relays s fun _ _ _ => rfl]
  exact h

theorem levels_softReset (s : State) (x : BayId) : ((softReset s).bays.get x).levels = (s.bays.get x).levels := by
  rw [softReset_field State.bays s fun _ _ _ => rfl, (resetEvents_keeps (resetBase s)).levels x]
  have h := (restart_acts (resetBase s)).levels x
  rw [resetBase_bays] at h
  exact h

/-- The motion block and the window before the events' last one. -/
theorem softReset_closes (s : State) : ∃ u, u.motion = { disarmMotion s.motion with jolted := ⟨false, false⟩ }
    ∧ u.tables = (softReset s).tables ∧ (softReset s).motion = (windowReset u).motion ∧ (softReset s).bays = (windowReset u).bays
    ∧ ∀ x, (s.bays.get x).state = .jolt → u.bays.get x = s.bays.get x := by
  refine ⟨flagsReset (restartProbe .B (restartProbe .A (resetBase s))), ?_, ?_, softReset_field State.motion s fun _ _ _ => rfl,
    softReset_field State.bays s fun _ _ _ => rfl, fun x hst => ?_⟩
  · rw [motion_before_close, resetBase_motion]
  · rw [softReset_eq, resetTail_tables]
    exact (Acts.flagsFollow _).tables.trans (restart_acts (resetBase s)).tables
  · rw [jolt_before_close (by rw [resetBase_bays]; exact hst), resetBase_bays]

/-- R162: the monitor is ARMED, with its window CLOSED. -/
theorem motion_softReset (h : motionLaw s.motion) : (softReset s).motion
    = { disarmMotion s.motion with window := .closed, hold := none, jolted := ⟨false, false⟩ } := by
  obtain ⟨u, hpre, -, hm, -, -⟩ := softReset_closes s
  rw [hm]
  by_cases hw : s.motion.window = .closed
  · have hu : u.motion.window = .closed := by rw [hpre]; exact hw
    have hhold : s.motion.hold = none := by
      obtain ⟨-, -, -, hrun⟩ := h
      rw [hw] at hrun
      exact Option.isSome_eq_false_iff.mp hrun |> Option.isNone_iff_eq_none.mp
    rw [windowReset_of_closed hu, hpre]
    unfold disarmMotion
    rw [hw, hhold]
  · have hu : u.motion.window ≠ .closed := by rw [hpre]; exact hw
    rw [windowReset_of_open hu, (beside_closeWindow u).motion, windowShut, hpre]

theorem pipe_softReset (s : State) : ∃ o, (softReset s).pipe = { s.pipe with
    o := o, mode := .auto, hostMax := 1000, s := 16 * s.pipe.o, d := s.pipe.o, t := s.pipe.o, clampedLux := false, ceilingLimited := false } := by
  obtain ⟨n, hn⟩ := resetTail_pipe (resetBase s)
  obtain ⟨o, ho⟩ := pipe_resetBase s
  rw [ho] at hn
  exact ⟨n, hn⟩

/-- R201: every entry was posted by the reset. -/
theorem postedAt_softReset (s : State) : postedAt s.time.uptime (softReset s) := by
  rw [softReset_field (postedAt s.time.uptime) s fun _ _ _ => rfl]
  exact (postings_postedAt _).resetWalk.resetEvents (postedAt_resetBase s)

theorem req_softReset (s : State) : (softReset s).attn.req = !(softReset s).attn.queue.isEmpty := by
  have hempty : attnLaw (beforeRecompute s).attn := by
    have ha : (beforeRecompute s).attn = { queue := [], req := false } := beforeRecompute_field State.attn s _ fun _ _ _ => rfl
    rw [ha]
    exact ⟨List.nodup_nil, fun e he => (by cases he), rfl⟩
  have hbase : attnLaw (resetBase s).attn := (Acts.refl (beforeRecompute s)).recompute.moves.attn hempty
  obtain ⟨-, -, hreq⟩ := resetTail_attn (resetBase s) hbase
  exact hreq

theorem probeReads_softReset (s : State) : probeReads (softReset s) = probeReads (resetBase s) :=
  probeReads_congr (resetTail_tables _) (resetTail_mapInst _)

/-- R40, R162: an open window closes, and the jolt holds start. -/
theorem jolt_softReset {j : JoltRecord} (hw : s.motion.window ≠ .closed) (hrec : (s.bays.get x).jolt = some j)
    (hst : (s.bays.get x).state = .jolt) (hj : joltHoldMs (softReset s) ≠ 0) : ((softReset s).bays.get x).state = .jolt
      ∧ ((softReset s).bays.get x).jolt = some { j with hold := .running (joltHoldMs (softReset s)) } := by
  obtain ⟨u, hpre, htables, -, hb, hjolt⟩ := softReset_closes s
  have hms : joltHoldMs u = joltHoldMs (softReset s) := joltHoldMs_congr htables
  have hbay := hjolt x hst
  rw [hb, windowReset_of_open (by rw [hpre]; exact hw), ← hms]
  exact holdRuns_closeWindow (by rw [hbay]; exact hst) (by rw [hbay]; exact hrec) (by rw [hms]; exact hj)

theorem deferred_softReset (hw : s.motion.window ≠ .closed) (x : BayId) : ((softReset s).bays.get x).deferred = false := by
  obtain ⟨u, hpre, -, -, hb, -⟩ := softReset_closes s
  rw [hb, windowReset_of_open (by rw [hpre]; exact hw)]
  exact deferred_closeWindow u x

theorem resetBase_holdSwap (s : State) (y : BayId) : holdSwap (resetBase s) y = holdSwap s y := by
  unfold holdSwap
  rw [resetBase_flags]

theorem resetBase_window (s : State) : (resetBase s).motion.window = s.motion.window := by
  rw [resetBase_motion]
  rfl

/-- R189: nothing makes the Bay Controller act. -/
theorem softReset_of_idle (h : ∀ y, holdSwap s y = false ∧ (s.bays.get y).state ≠ .probing) (hw : s.motion.window = .closed) :
    softReset s = portReset (pollTimerReset { resetBase s with flags := flagsClear }) := by
  rw [softReset_eq, resetTail, resetEvents_of_idle (fun y => by rw [resetBase_bays]; exact (h y).2)
    (fun y => by rw [resetBase_holdSwap]; exact (h y).1) (by rw [resetBase_window]; exact hw)]

end Part

end Sys2Proof.Machine
end

