-- ==== Sys2Proof/Proofs/ResetPartSettled.lean ====
section
/-! PROOFS. Reset Part settled (O50): the clauses of the probes, the relays and the flags, put together. -/

namespace Sys2Proof.Machine

/-! ### The probes (R22, R35, R47, R70) -/

section Probes
variable {s : State} {x : BayId}

theorem probing_softReset (hst : (s.bays.get x).state = .probing) (hr : probeReads (softReset s) ≠ []) :
    ((softReset s).bays.get x).state = .probing ∧ ((softReset s).bays.get x).probeCause = (s.bays.get x).probeCause
      ∧ ((softReset s).relays.get x).probe
          = some { reads := probeReads (softReset s), attempts := 0, background := (s.bays.get x).probeCause == .bayProbe } := by
  rw [probeReads_softReset] at hr ⊢
  obtain ⟨hstate, hcause, hrelay⟩ := probeRestarted_resetEvents (s := resetBase s) (x := x) (by rw [resetBase_bays]; exact hst) hr
  rw [resetBase_bays] at hcause hrelay
  rw [softReset_field State.bays s fun _ _ _ => rfl, softReset_field State.relays s fun _ _ _ => rfl]
  exact ⟨hstate, hcause, hrelay⟩

theorem placed_softReset (hst : (s.bays.get x).state = .probing) (hr : probeReads (softReset s) = []) :
    Placed (openReturn x s) ((softReset s).bays.get x) := by
  rw [probeReads_softReset] at hr
  have h := placed_resetEvents (s := resetBase s) (x := x) (by rw [resetBase_bays]; exact hst) hr
  have hopen : openReturn x (resetBase s) → openReturn x s := by
    unfold openReturn
    rw [resetBase_bays, resetBase_pp]
    exact id
  rw [softReset_field State.bays s fun _ _ _ => rfl]
  exact h.imp id (Or.imp id (Or.imp (And.imp id (Or.imp id hopen)) (And.imp id hopen)))

end Probes

/-- R179: the region of a software reset, with its lock written out. -/
theorem resetRegion_eq (g : Region) : resetRegion g = if g.lock then g else { state := .empty, lock := false, words := [] } := by
  cases h : g.lock with
  | true => exact if_pos h
  | false =>
    have hr : resetRegion g = { g with state := .empty, words := [] } := if_neg (by rw [h]; decide)
    rw [hr, h]
    rfl

/-! ### A cleared HOLD_SWAP (R41, R203) -/

section Cleared
variable {s : State} {x : BayId}

/-- The flags take no part in the blocks before the events. -/
theorem resetBase_unflagged (f : Flags) (s : State) : resetBase { s with flags := f } = { resetBase s with flags := f } := by
  have hbefore : beforeRecompute { s with flags := f } = { beforeRecompute s with flags := f } := by
    cases h : leavesByReset s.tables.codemap with
    | true =>
      unfold beforeRecompute
      rw [tablesReset_of_leaves (s := relayReset (emptyAttn s)) h, tablesReset_of_leaves (s := relayReset (emptyAttn { s with flags := f })) h]
      rfl
    | false =>
      unfold beforeRecompute
      rw [tablesReset_of_stays (s := relayReset (emptyAttn s)) h, tablesReset_of_stays (s := relayReset (emptyAttn { s with flags := f })) h]
      rfl
  rw [resetBase_recompute, resetBase_recompute, hbefore, recompute_eq, recompute_eq]
  generalize beforeRecompute s = u
  have hc : computeBudget { u with flags := f } = computeBudget u := rfl
  have hm : minLevel { u with flags := f } = minLevel u := rfl
  rw [hc, hm]
  unfold motionReset cutAttn post
  simp only

/-- The reset of the same state without its flags, before the poll timer and the port. -/
def unflaggedBase (s : State) : State := { resetBase s with flags := flagsClear }

theorem softReset_of_unflagged (hst : ∀ y, (s.bays.get y).state ≠ .probing) (hw : s.motion.window = .closed) :
    softReset { s with flags := flagsClear } = portReset (pollTimerReset (unflaggedBase s)) := by
  rw [softReset_of_idle (s := { s with flags := flagsClear }) (fun y => ⟨by cases y <;> rfl, hst y⟩) hw, resetBase_unflagged]
  rfl

/-- What the reset without its flags answers. -/
theorem unflaggedBase_of_exec {t0 : State} (h : accepts s) (hst : ∀ y, (s.bays.get y).state ≠ .probing) (hw : s.motion.window = .closed)
    (ht0 : exec (.resetPart []) { s with flags := flagsClear } = .next t0) : portReset (pollTimerReset (unflaggedBase (begun s))) = t0 := by
  have he := (exec_resetPart_of_accepts (s := { s with flags := flagsClear }) h).symm.trans ht0
  injection he with ht
  exact (softReset_of_unflagged (s := begun s) hst hw).symm.trans ht

theorem softReset_of_one (hst : ∀ y, (s.bays.get y).state ≠ .probing) (hw : s.motion.window = .closed) (hx : holdSwap s x = true)
    (ho : holdSwap s x.other = false) (hon : (s.bays.get x).state = .online) (href : (s.bays.get x).refuse = true)
    (hl : (s.bays.get x).latch = false) : softReset s = portReset (pollTimerReset (evaluateLatch x (unflaggedBase s))) := by
  have hev : resetEvents (resetBase s) = reevaluate x (unflaggedBase s) :=
    resetEvents_of_one (fun y => by rw [resetBase_bays]; exact hst y) (by rw [resetBase_holdSwap]; exact hx)
      (by rw [resetBase_holdSwap]; exact ho) (by rw [resetBase_window]; exact hw)
  have hbay : (unflaggedBase s).bays = s.bays := resetBase_bays s
  rw [softReset_eq, resetTail, hev, reevaluate_of_refused (by rw [hbay]; exact hon) (by rw [hbay]; exact href) (by rw [hbay]; exact hl)]

theorem judged_ported (x : BayId) (s : State) : Judged x s (portReset (pollTimerReset s)) :=
  ⟨rfl, rfl, rfl, rfl, rfl, fun _ => rfl, rfl, rfl, rfl⟩

/-- The bay law of the other bay holds in the base: its probe is gone. -/
theorem bayLaw_unflaggedBase (h : bayLaw s x) : bayLaw (unflaggedBase s) x := by
  obtain ⟨h1, h2, h3, h4, h5, h6, -⟩ := h
  have hb : (unflaggedBase s).bays = s.bays := resetBase_bays s
  have hp : (unflaggedBase s).pp = s.pp := resetBase_pp s
  have hr : ((unflaggedBase s).relays.get x).probe = none := congrArg Relay.probe (relays_resetBase s x)
  unfold bayLaw
  rw [hb, hp, hr]
  exact ⟨h1, h2, h3, h4, h5, h6, fun e => (by cases e)⟩

end Cleared

/-- Settles O50: what each block takes of Reset Part, and what the blocks that act do. -/
theorem resetPartResetsEveryBlock : Obligations.ResetPartResetsEveryBlock := by
  refine ⟨fun s h => ⟨softReset (begun s), exec_resetPart_of_accepts h, rfl, ?flags, ?log, softReset_time _, ?ext, ?ready, ?lane, ?pending,
    upstream_softReset _, fun r => ?table, blank_softReset _, fun x => ?relay, ?timer, motion_softReset (s := begun s), ?pipe, ?map,
    budgetLaw_softReset _, ⟨req_softReset _, ?first⟩, fun x hst => ⟨probing_softReset (s := begun s) hst, fun hr => ?placed⟩,
    fun hw x => ⟨deferred_softReset (s := begun s) hw x, fun j hrec hst hj => jolt_softReset (s := begun s) hw hrec hst hj⟩,
    fun hidle hw => ?idle⟩, fun x s t0 h hst hw hx ho hon href hl ht0 => ⟨fun r hr => ?refused, fun k hlaw hk => ?carried⟩⟩
  case flags => exact resetTail_flags _
  case log => rw [softReset_eq, resetTail_log, resetBase_log]; rfl
  case ext => rw [softReset_eq, resetTail_ext, resetBase_pp]; rfl
  case ready => rw [softReset_eq, resetTail_ready, resetBase_pp]; rfl
  case lane => rw [softReset_eq, resetTail_lane, resetBase_lane]; rfl
  case pending => rw [softReset_eq, resetTail_pending, resetBase_pending]; rfl
  case table =>
    rw [get_resetBase r (begun s), resetRegion_eq]
    rfl
  case timer =>
    rw [softReset_eq, resetTail]
    generalize resetEvents (resetBase (begun s)) = u
    rfl
  case relay =>
    obtain ⟨n, hn⟩ := restingRelay_softReset (begun s) x
    have hlev := levels_softReset (begun s) x
    have hring : ringKept (begun s) x = if s.tables.codemap.lock = false ∧ s.tables.codemap.state = .inService then []
        else (s.relays.get x).ring := if_congr leavesByReset_iff rfl rfl
    unfold restingRelay at hn
    rw [← hring, hn]
    unfold Bay.levels at hlev
    injection hlev with hpl hlev
    injection hlev with hp hlev
    injection hlev with hll hl
    exact ⟨rfl, rfl, rfl, rfl, rfl, rfl, rfl, rfl, hpl, hp, hll, hl⟩
  case pipe =>
    obtain ⟨o, ho⟩ := pipe_softReset (begun s)
    rw [ho]
    exact ⟨rfl, rfl, rfl, rfl, rfl, rfl, rfl, rfl, rfl⟩
  case map =>
    rw [softReset_eq, resetTail_mapInst, mapInst_resetBase]
    exact if_congr leavesByReset_iff rfl rfl
  case first => exact (postedAt_softReset (begun s)).2
  case placed =>
    obtain hs | hf | ⟨ho, -⟩ | ⟨hr, hc, hl, hsw⟩ := placed_softReset (s := begun s) hst hr
    · exact .inr (.inl hs)
    · exact .inr (.inr (.inl hf))
    · exact .inl ho
    · exact .inr (.inr (.inr ⟨hc, hl, hsw, hr⟩))
  case idle =>
    have hb := softReset_of_idle (s := begun s) hidle hw
    have hpp : (softReset (begun s)).pp = s.pp := by rw [hb]; exact resetBase_pp (begun s)
    have hbays : (softReset (begun s)).bays = s.bays := by rw [hb]; exact resetBase_bays (begun s)
    have hq : (softReset (begun s)).attn.queue = (resetBase (begun s)).attn.queue := by rw [hb]; rfl
    have hc : (softReset (begun s)).budget = (resetBase (begun s)).budget := by rw [hb]; rfl
    have hrel : (softReset (begun s)).relays = (resetBase (begun s)).relays := by rw [hb]; rfl
    refine ⟨hpp, hbays, fun x => by rw [hrel, relays_resetBase]; rfl, ?_⟩
    rw [hq, hc]
    exact queue_resetBase (begun s)
  case refused =>
    have hu := unflaggedBase_of_exec h hst hw ht0
    have hone := softReset_of_one (s := begun s) hst hw hx ho hon href hl
    rw [exec_resetPart_of_accepts h, hone, ← hu]
    rw [← hu, (judged_ported x _).refusalCase] at hr
    rw [evaluateLatch_of_refusal hr]
    generalize unflaggedBase (begun s) = c
    rfl
  case carried =>
    have hu := unflaggedBase_of_exec h hst hw ht0
    have hone := softReset_of_one (s := begun s) hst hw hx ho hon href hl
    rw [← hu, (judged_ported x _).handoverCase] at hk
    have hc := (carried_evaluateLatch (bayLaw_unflaggedBase (s := begun s) (hlaw x.other)) hk).released
    exact ⟨_, (exec_resetPart_of_accepts h).trans (congrArg _ hone), hc.state, hc.last, hc.sw⟩

end Sys2Proof.Machine
end

