-- ==== Sys2Proof/Proofs/DropWindow.lean ====
section
/-! PROOFS. The open drop window (R26, case 2, R40, R43): no latch event and no Bay Release takes a bay out of ONLINE, and a loss is a jolt. -/

namespace Sys2Proof.Machine

section Open
variable {x y : BayId} {b : Bool} {s t u : State}

/-- Bay `x` is ONLINE while the drop window is open. -/
def onlineInWindow (x : BayId) (s : State) : Prop := (s.bays.get x).state = .online ∧ s.motion.window ≠ .closed

theorem onlineInWindow.rests (h : onlineInWindow x s) (r : Rests x s t) (hm : t.motion = s.motion) : onlineInWindow x t :=
  ⟨by rw [r.bay]; exact h.1, by rw [hm]; exact h.2⟩

theorem state_refuseBay (r : RefusalReason) (s : State) : ((refuseBay x b r s).bays.get x).state = (s.bays.get x).state := by
  have hkeep : ∀ f : Bay → Bay, keepsPlace f → ((updBay x f s).bays.get x).state = (s.bays.get x).state := fun f hf => state_updBay hf s
  cases b with
  | true => exact hkeep (fun c => { c with refusal := r, refuse := true }) fun _ => ⟨rfl, rfl, rfl⟩
  | false => exact hkeep (fun c => { c with refusal := r }) fun _ => ⟨rfl, rfl, rfl⟩

/-- R26, cases 1 and 2: the bay stays where it is. -/
theorem state_evaluateCases_of_window (hw : s.motion.window ≠ .closed) :
    ((evaluateCases x b s).1.bays.get x).state = (s.bays.get x).state := by
  unfold evaluateCases
  rw [if_pos (windowOpen_of_not hw)]
  split
  · exact state_refuseBay .held s
  · split
    · exact state_updBay (f := fun c => { c with deferred := true }) (fun _ => ⟨rfl, rfl, rfl⟩) s
    · exact state_refuseBay .drop s

/-- An evaluation of either bay leaves the bay ONLINE. -/
theorem onlineInWindow.evaluate (h : onlineInWindow x s) (y : BayId) (b : Bool) : onlineInWindow x (Machine.evaluate y b s).1 := by
  have hmotion : (Machine.evaluate y b s).1.motion = s.motion := ((baysOnly_swaps s).evaluate y b (fun e => e.elim) (baysOnly.refl s)).motion
  have hcases : ((evaluateCases y b s).1.bays.get x).state = .online := by
    by_cases hy : x = y
    · subst hy
      exact (state_evaluateCases_of_window h.2).trans h.1
    · have hx : x = y.other := eq_other_of_ne hy
      have hne : (s.bays.get y.other).state ≠ .standby := by rw [← hx, h.1]; decide
      have hrest : Rests y.other s (evaluateCases y b s).1 := rests_evaluateCases_other hne
      rw [hx, hrest.bay, ← hx]
      exact h.1
  have hsettle : Rests x (evaluateCases y b s).1 (Machine.evaluate y b s).1 := rests_settle (by rw [hcases]; decide)
  exact ⟨by rw [hsettle.bay]; exact hcases, by rw [hmotion]; exact h.2⟩

/-! ### A latch that closes or opens -/

theorem rests_returnBay_other (y : BayId) (s : State) : Rests y.other s (returnBay y s) := by
  unfold returnBay
  split
  · exact (rests_requestOn_other y s).trans (rests_setBayState_other ..)
  · exact (rests_switchOff_other y s).trans (rests_setBayState_other ..)

/-- R18, R25, R29, R30, R40: the latch debounce of either bay leaves the bay ONLINE. -/
theorem state_latchExpiry (h : onlineInWindow x s) (y : BayId) : ((latchExpiry y s).bays.get x).state = .online := by
  have hself : ∀ f : Bay → Bay, keepsPlace f → ((updBay y f s).bays.get x).state = .online := fun f hf => (state_updBay hf s).trans h.1
  by_cases hrun : (s.bays.get y).latchDeb = none
  · rw [latchExpiry_of_stopped hrun]
    exact h.1
  have hdeb : (s.bays.get y).latchDeb.isSome = true := Option.isSome_iff_ne_none.mpr hrun
  by_cases hlevel : (s.bays.get y).latchLine = (s.bays.get y).latch
  · rw [latchExpiry_of_level hlevel]
    exact hself _ fun _ => ⟨rfl, rfl, rfl⟩
  cases hline : (s.bays.get y).latchLine with
  | true =>
    have hshut : ((latchShut y s).bays.get x).state = .online := hself _ fun _ => ⟨rfl, rfl, rfl⟩
    rw [latchExpiry_shuts ⟨hdeb, hline, Bool.eq_not_of_ne fun e => hlevel (hline.trans e.symm)⟩]
    have hmove : ∀ {st : BayState} {v : State}, (s.bays.get y).state = st → st ≠ .online → Rests y.other (latchShut y s) v →
        (v.bays.get x).state = .online := fun {st v} hst hne hv => by
      have hx : x = y.other := eq_other_of_ne fun e => hne (by rw [← hst, ← e]; exact h.1)
      rw [← hx] at hv
      rw [hv.bay]
      exact hshut
    split
    · next hst => exact hmove hst (by decide) (rests_standbyJoin_other ..)
    split
    · next hst => exact hmove hst (by decide) (rests_returnBay_other ..)
    · exact hshut
  | false =>
    have hopened : onlineInWindow x (latchOpened y s) := ⟨hself _ fun _ => ⟨rfl, rfl, rfl⟩, h.2⟩
    rw [latchExpiry_unlatches ⟨hdeb, hline, Bool.eq_not_of_ne fun e => hlevel (hline.trans e.symm)⟩]
    split
    · exact (hopened.evaluate y true).1
    · exact hopened.1

theorem state_latchRows (h : onlineInWindow x s) (y : BayId) :
    (∀ v, ((latchLine y v s).bays.get x).state = .online) ∧ ((settle s (latchExpiry y s)).bays.get x).state = .online := by
  refine ⟨fun v => ?_, ?_⟩
  · by_cases hv : (s.bays.get y).latchLine = v
    · rw [latchLine_of_eq hv]
      exact h.1
    · rw [latchLine_of_change (Bool.eq_not_of_ne hv)]
      exact (state_updBay (f := fun c => { c with latchLine := v, latchDeb := if v = c.latch then none else some (latchDebounce s) })
        (fun _ => ⟨rfl, rfl, rfl⟩) s).trans h.1
  · have hst := state_latchExpiry h y
    have hrest : Rests x (latchExpiry y s) (settle s (latchExpiry y s)) := rests_settle (by rw [hst]; decide)
    rw [hrest.bay]
    exact hst

/-! ### Bay Release -/

theorem bayRelease_fst (x : BayId) (s : State) :
    (bayRelease x s).1 = if (s.bays.get x).state = .online then (evaluate x false s).1 else s := by
  unfold bayRelease
  split
  · cases (evaluate x false s).2 <;> rfl
  · rfl

theorem onlineInWindow.command (h : onlineInWindow x s) (p : List Byte) : onlineInWindow x (manage (withBay p bayRelease) s) := by
  refine manage_keeps (P := onlineInWindow x) (fun _ _ h => h) (fun _ _ h => h) (fun _ _ h => h) (fun u hu => ?_) h
  refine withBay_keeps (P := onlineInWindow x) (fun y v hv => ?_) p hu
  rw [bayRelease_fst]
  split
  · exact hv.evaluate y false
  · exact hv

theorem bayRelease_of_window (ho : (s.bays.get x).state = .online) (hh : holdSwap s x = false) (hw : s.motion.window ≠ .closed) :
    bayRelease x s = (updBay x (fun c => { c with refusal := .drop }) s, ⟨.refused, [byteOf (refusalCode .drop)]⟩) := by
  have hcases : evaluateCases x false s = (refuseBay x false .drop s, .refused .drop) := by
    rw [evaluateCases, if_neg (by rw [hh]; decide), if_pos (windowOpen_of_not hw), if_neg (by decide)]
  have heval : evaluate x false s = (refuseBay x false .drop s, .refused .drop) := by
    rw [evaluate, hcases, settle_refuseBay]
  rw [bayRelease, if_pos ho]
  simp only [heval]
  rfl

/-! ### A latch-open and a loss -/

theorem exec_latch_deferred (ho : (s.bays.get x).state = .online) (hh : holdSwap s x = false) (hw : s.motion.window ≠ .closed)
    (h : latchTurns s x false) : exec (.latchDebounceExpiry x) s
      = .next (updBay x (fun c => { c with latchDeb := none, latch := false, deferred := true }) s) := by
  have hopen : evaluateLatch x (latchOpened x s) = updBay x (fun c => { c with deferred := true }) (latchOpened x s) :=
    evaluateLatch_of_open (s := latchOpened x s) hh hw
  rw [exec_latch_opens ho h, hopen, latchOpened, updBay_updBay]
  exact congrArg _ (settle_of_level rfl fun y => presence_get_updBay (s := s) y fun _ => rfl)

/-- R32: a recorded fall of presence is a jolt. -/
theorem state_fall_of_window (hw : s.motion.window ≠ .closed) (hturn : presenceTurns s x false)
    (hst : (s.bays.get x).state = .online ∨ (s.bays.get x).state = .standby ∨ (s.bays.get x).state = .probing) :
    ∃ t, exec (.presenceDebounceExpiry x) s = .next t ∧ (t.bays.get x).state = .jolt := by
  have hf := fallen_beforeFall x (stopPresenceDeb x s)
  have hget := hf.get
  rw [get_stopPresenceDeb] at hget
  have hloss : afterLoss x (stopPresenceDeb x s) = enterJolt x (beforeFall x (stopPresenceDeb x s)) :=
    (afterLoss_eq x _).trans (fallByState_jolts (by rw [hget]; exact hst) (hf.windowOpen.trans (windowOpen_of_not (s := s) hw)))
  have hjolt : ((afterLoss x (stopPresenceDeb x s)).bays.get x).state = .jolt := by rw [hloss, (jolted_enterJolt x _).bay]; rfl
  obtain ⟨t, hrow, hfell⟩ := exec_presence_falls hturn (by rw [hjolt]; decide)
  exact ⟨t, hrow, by rw [hfell.rests.bay]; exact hjolt⟩

end Open

/-- Settles O12: with the window open the evaluation holds or defers, and a fall of presence is taken as a jolt. -/
theorem theDropWindowHoldsAndDefers : Obligations.TheDropWindowHoldsAndDefers := by
  refine ⟨fun s t x y hw => ⟨fun ho b p hrow => ?online, fun hst hturn hrow => ?jolt⟩,
    fun x s ho hh hw => ⟨exec_latch_deferred ho hh hw, fun h b hb => exec_bayRelease_of h hb (bayRelease_of_window (s := begun s) ho hh hw)⟩⟩
  case online =>
    obtain ⟨hline, hexpiry⟩ := state_latchRows (x := x) ⟨ho, hw⟩ y
    obtain h | h | h := hrow
    · rw [exec_latchLineChange] at h
      cases h
      exact hline b
    · rw [exec_latchDebounceExpiry] at h
      cases h
      exact hexpiry
    · rw [exec_bayRelease] at h
      cases h
      exact (onlineInWindow.command ⟨ho, hw⟩ p).1
  case jolt =>
    obtain ⟨u, hu, hjolt⟩ := state_fall_of_window hw hturn hst
    cases hrow.symm.trans hu
    exact hjolt

end Sys2Proof.Machine
end

