-- ==== Sys2Proof/Proofs/SparedParts.lean ====
section
/-! PROOFS. What a row leaves of Table Memory, the Drop Log, the flags, the time base, the sample lane, the poll period timer, the lines of the power
path, the monitor, the pipeline and the slot (chapters 2, 3, 7 to 10), part by part. -/

namespace Sys2Proof.Machine

/-! ### The rows that a part may change in, power-on reset aside -/

def changesTables : Instr → Bool
  | .resetPart _ | .tableClear _ | .tableWrite _ | .tableCheck _ | .tableLock _ | .tableCheckEnd _ => true
  | _ => false

def changesLog : Instr → Bool
  | .motionSample .. | .stallTimeout | .dropLogClear _ => true
  | _ => false

def changesFlags : Instr → Bool
  | .resetPart _ | .flagSet _ | .flagClear _ | .flagToggle _ => true
  | _ => false

def changesPollTimer : Instr → Bool
  | .resetPart _ | .pollPeriodExpiry => true
  | _ => false

def changesMotion : Instr → Bool
  | .resetPart _ | .motionSample .. | .stallTimeout | .windowHoldExpiry => true
  | _ => false

def changesPipe : Instr → Bool
  | .resetPart _ | .lightSample .. | .brightnessSet _ | .brightnessQuery _ | .tableClear _ | .tableCheckEnd _ => true
  | _ => false

/-- From `s` to `u` every part that row `i` does not change is as it was. -/
structure Spared (i : Instr) (s u : State) : Prop where
  tables : changesTables i = false → u.tables = s.tables ∧ u.mapInst = s.mapInst
  log : changesLog i = false → u.log = s.log
  flags : changesFlags i = false → u.flags = s.flags
  time : i ≠ .uptimeTick → u.time = s.time
  lane : movesLane i = false → u.lane = s.lane
  pollTimer : changesPollTimer i = false → u.pollTimer = s.pollTimer
  ext : (∀ v, i ≠ .extPresentChange v) → u.pp.ext = s.pp.ext
  ready : (∀ v, i ≠ .bridgeReadyChange v) → u.pp.bridgeReady = s.pp.bridgeReady
  motion : changesMotion i = false → u.motion = { s.motion with jolted := u.motion.jolted }
  pipe : changesPipe i = false → u.pipe = { s.pipe with o := u.pipe.o }
  port : movesSlot i = false → u.port = s.port

section Spares
variable {i : Instr} {s t u : State}

theorem Spared.refl (i : Instr) (s : State) : Spared i s s :=
  ⟨fun _ => ⟨rfl, rfl⟩, fun _ => rfl, fun _ => rfl, fun _ => rfl, fun _ => rfl, fun _ => rfl, fun _ => rfl, fun _ => rfl, fun _ => rfl,
    fun _ => rfl, fun _ => rfl⟩

theorem Spared.moves (h : Spared i s t) (a : Moves t u) : Spared i s u where
  tables e := ⟨a.tables.trans (h.tables e).1, a.mapInst.trans (h.tables e).2⟩
  log e := a.log.trans (h.log e)
  flags e := a.flags.trans (h.flags e)
  time e := a.time.trans (h.time e)
  lane e := a.lane.trans (h.lane e)
  pollTimer e := a.pollTimer.trans (h.pollTimer e)
  ext e := a.ext.trans (h.ext e)
  ready e := a.bridgeReady.trans (h.ready e)
  motion e := by rw [a.motion, h.motion e]
  pipe e := by rw [a.pipe, h.pipe e]
  port e := a.port.trans (h.port e)

/-- The rows of the monitor. -/
theorem Spared.keeps (h : Spared i s t) (a : Keeps t u) (hm : changesMotion i = true) (hl : changesLog i = false → u.log = t.log) :
    Spared i s u where
  tables e := ⟨a.tables.trans (h.tables e).1, a.mapInst.trans (h.tables e).2⟩
  log e := (hl e).trans (h.log e)
  flags e := a.flags.trans (h.flags e)
  time e := a.time.trans (h.time e)
  lane e := a.lane.trans (h.lane e)
  pollTimer e := a.pollTimer.trans (h.pollTimer e)
  ext e := a.ext.trans (h.ext e)
  ready e := a.bridgeReady.trans (h.ready e)
  motion e := absurd (hm.symm.trans e) (by decide)
  pipe e := by rw [a.pipe, h.pipe e]
  port e := a.port.trans (h.port e)

/-- The rows that bring a region into service or out of it. -/
theorem Spared.serves (h : Spared i s t) (a : Serves t u) (ht : changesTables i = true) (hp : changesPipe i = true) : Spared i s u where
  tables e := absurd (ht.symm.trans e) (by decide)
  log e := a.log.trans (h.log e)
  flags e := a.flags.trans (h.flags e)
  time e := a.time.trans (h.time e)
  lane e := a.lane.trans (h.lane e)
  pollTimer e := a.pollTimer.trans (h.pollTimer e)
  ext e := a.ext.trans (h.ext e)
  ready e := a.bridgeReady.trans (h.ready e)
  motion e := by rw [a.motion, h.motion e]
  pipe e := absurd (hp.symm.trans e) (by decide)
  port e := a.port.trans (h.port e)

theorem Spared.region (h : Spared i s t) (ht : changesTables i = true) (r : RegionId) (f : Region → Region) : Spared i s (updRegion r f t) :=
  { h with tables := fun e => absurd (ht.symm.trans e) (by decide) }

theorem Spared.slot (h : Spared i s t) (hm : movesSlot i = true) (v : Slot) : Spared i s (setSlot v t) :=
  { h with port := fun e => absurd (hm.symm.trans e) (by decide) }

theorem Spared.ext_line (h : Spared (.extPresentChange v) s t) : Spared (.extPresentChange v) s (settling (extLine v) t) := by
  refine Spared.moves ?_ ((Acts.refl (extLine v t)).settle _).moves
  unfold extLine
  split
  · exact h
  · have hset : Spared (.extPresentChange v) s (setExt v t) := { h with ext := fun e => absurd rfl (e v) }
    have hfollow := hset.moves (Acts.extFollows t v).moves
    cases v <;> exact hfollow

theorem Spared.softReset (h : Spared (.resetPart p) s t) : Spared (.resetPart p) s (Machine.softReset t) where
  tables e := by cases e
  log e := by rw [softReset_eq, resetTail_log, resetBase_log]; exact h.log e
  flags e := by cases e
  time e := (softReset_time t).trans (h.time e)
  lane e := by rw [softReset_eq, resetTail_lane, resetBase_lane]; exact h.lane e
  pollTimer e := by cases e
  ext e := by rw [softReset_eq, resetTail_ext, resetBase_pp]; exact h.ext e
  ready e := by rw [softReset_eq, resetTail_ready, resetBase_pp]; exact h.ready e
  motion e := by cases e
  pipe e := by cases e
  port e := by cases e

end Spares

theorem spared_rows {i : Instr} (hpor : ∀ l, i ≠ .powerOnReset l) (s : State) : RowSteps i (Spared i s) (Spared i s) where
  weaken _ h := h
  link t u _ h := { h with }
  slot _ v hm h := h.slot hm v
  slotEnd _ v hm h := h.slot hm v
  lane _ hm h := { h with lane := fun e => absurd (hm.symm.trans e) (by decide) }
  deny x c t _ h := h.moves ((Acts.refl t).deny x c).moves
  por l _ hi := absurd hi (hpor l)
  ext v t hi h := by
    subst hi
    exact h.ext_line
  presLine x v t _ h := h.moves (Turns.settling ((Turns.refl t).presenceLine x v)).moves
  presExpiry x t _ h := h.moves (Turns.settling ((Turns.refl t).presenceExpiry x)).moves
  latchLine x v t _ h := h.moves ((Turns.refl t).latchLine x v).moves
  latchExpiry x t _ h := h.moves (Turns.settling ((Turns.refl t).latchExpiry x)).moves
  ready v t hi h := { h with ready := fun e => absurd hi (e v) }
  expire t _ h := h.moves (Acts.refl t).expireBridge.moves
  joltOut x t _ h := h.moves (Acts.settling ((Acts.refl t).joltHoldOut x)).moves
  context x t _ h := h.moves ((Acts.refl t).contextOut x).moves
  uptime t hi h := { h with time := fun e => absurd hi e }
  age t _ h := h.moves (Acts.refl t).age.moves
  pollPeriod t hi h := by
    subst hi
    have hset : Spared .pollPeriodExpiry s { t with pollTimer := Machine.pollPeriod t } := { h with pollTimer := nofun }
    exact hset.moves (((Acts.refl _).makeDue .A).makeDue .B).moves
  pollStart x t _ h := h.moves ((Acts.refl t).startPoll x).moves
  pollRetry x t _ h := h.moves ((Acts.refl t).retryPoll x).moves
  probeRead x t _ h := h.moves ((Acts.refl t).startProbeRead x).moves
  slotStart x t _ h := h.moves ((Acts.refl t).startSlot x).moves
  complete x r t _ h := h.moves (Acts.settling ((Acts.refl t).completeTx x r)).moves
  timeout x t _ h := h.moves (Acts.settling ((Acts.refl t).timeoutTx x)).moves
  recoverBegin x t _ h := h.moves ((Acts.refl t).beginRecover x).moves
  recoverEnd x o t _ h := h.moves (Acts.settling ((Acts.refl t).endRecover x o)).moves
  light _ _ _ l o t hi h := by
    subst hi
    exact { h with pipe := nofun }
  sample _ _ _ _ _ _ p t hi h := by
    subst hi
    exact h.keeps ((Keeps.refl t).takeSample p) rfl nofun
  stall t hi h := by
    subst hi
    exact h.keeps (Keeps.refl t).stallOut rfl nofun
  hold t hi h := by
    subst hi
    exact h.keeps (Keeps.refl t).holdOut rfl fun _ => log_holdOut t
  check r _ hi h := by
    subst hi
    exact endCheck_keeps (P := Spared _ s) (fun _ _ a h => h.serves a rfl rfl) (fun r f _ h => h.region rfl r f) r h
  forward k p n t _ h := h.moves ((Acts.refl t).reachForwarding k p n).moves
  seen _ _ hi h := by
    subst hi
    exact { h with port := nofun }
  sense _ _ _ _ _ _ h := { h with }
  flag p t n a b hi h := by
    have hflags : changesFlags i = true := by obtain ⟨rfl, -⟩ | ⟨rfl, -⟩ | ⟨rfl, -⟩ := hi <;> rfl
    have hput : Spared i s { t with flags := flagPut t.flags n b } := { h with flags := fun e => absurd (hflags.symm.trans e) (by decide) }
    exact hput.moves ((Acts.refl _).handFlag n a b).moves
  reset p _ hi h := by
    subst hi
    exact h.softReset
  release _ x t _ h := h.moves ((Acts.refl t).bayRelease x).moves
  giveBack _ x t _ h := h.moves ((Acts.refl t).bayReturn x).moves
  probe _ x t _ h := h.moves ((Acts.refl t).bayProbe x).moves
  recover _ x t _ h := h.moves ((Acts.refl t).linkRecover x).moves
  flush p t _ h := h.moves ((Acts.refl t).cacheFlush p).moves
  bright p t m l n hi h := by
    subst hi
    have hset : Spared (.brightnessSet p) s { t with pipe := brightnessPipe m l n t } := { h with pipe := nofun }
    exact hset.moves (Acts.refl _).recompute.moves
  sticky _ _ hi h := by
    subst hi
    exact { h with pipe := nofun }
  logClear _ _ hi h := by
    subst hi
    exact { h with log := nofun }
  clear _ r _ hi h := by
    subst hi
    exact tableClear_keeps (P := Spared _ s) (fun _ _ a h => h.serves a rfl rfl) (fun r f _ h => h.region rfl r f) r h
  write _ r off ws _ hi h := by
    subst hi
    exact tableWrite_keeps (P := Spared _ s) (fun r f _ h => h.region rfl r f) r off ws h
  begin _ r _ hi h := by
    subst hi
    exact tableCheck_keeps (P := Spared _ s) (fun r f _ h => h.region rfl r f) r h
  lock _ r _ hi h := by
    subst hi
    exact tableLock_keeps (P := Spared _ s) (fun r f _ h => h.region rfl r f) r h

end Sys2Proof.Machine
end

