-- ==== Sys2Proof/Proofs/RecordedLevels.lean ====
section
/-! PROOFS. The lines and the recorded levels of the bays (R17, R18, R46): each is changed by its own row of its own bay. -/

namespace Sys2Proof.Machine

/-! ### The rows of no line -/

section Lineless
variable {i : Instr} {s t : State}

/-- The rows of the presence and latch lines and of their debounces. -/
def ofLine (i : Instr) : Prop :=
  (∃ x v, i = .presenceLineChange x v) ∨ (∃ x, i = .presenceDebounceExpiry x) ∨ (∃ x v, i = .latchLineChange x v)
    ∨ ∃ x, i = .latchDebounceExpiry x

/-- From `s` to `t` no line and no recorded level changes. -/
def levelsKept (s t : State) : Prop := ∀ x, (t.bays.get x).levels = (s.bays.get x).levels

theorem levelsKept.acts {u : State} (h : levelsKept s t) (a : Acts t u) : levelsKept s u := fun x => (a.levels x).trans (h x)

theorem levelsKept.trans {u : State} (h : levelsKept s t) (k : levelsKept t u) : levelsKept s u := fun x => (k x).trans (h x)

theorem levels_rows (hpor : ∀ l, i ≠ .powerOnReset l) (hline : ¬ ofLine i) (s : State)
    (hl : ∀ u t j, completed i u = some j → runCommand j u = .next t → levelsKept s u → levelsKept s t) : RowKeeps i (levelsKept s) where
  acts _ _ a h := h.acts a
  lines _ _ hi := absurd hi hline
  slot _ _ h := h
  por l _ hi := absurd hi (hpor l)
  ext _ _ _ h := h
  ready _ _ _ h := h
  uptime _ _ h := h
  poll _ _ h := h
  lane _ h := h
  light _ _ _ _ _ _ _ h := h
  sample _ _ _ _ _ _ p t _ h := h.trans ((Keeps.refl t).takeSample p).levels
  stall t _ h := h.trans (Keeps.refl t).stallOut.levels
  hold t _ h := h.trans (Keeps.refl t).holdOut.levels
  check r _ _ h := endCheck_keeps (P := levelsKept s) (fun _ _ a h => h.trans a.levels) (fun _ _ _ h => h) r h
  seen _ _ _ h := h
  sense _ _ _ _ _ _ h := h
  flag _ _ _ _ _ h := h
  reset _ t _ h := h.trans (levels_softReset t)
  bright _ t m l n _ h := h.trans fun x => by rw [setBrightness, recompute_bays]
  sticky _ _ _ h := h
  logClear _ _ _ h := h
  clear _ r _ _ h := tableClear_keeps (P := levelsKept s) (fun _ _ a h => h.trans a.levels) (fun _ _ _ h => h) r h
  write _ r off ws _ _ h := tableWrite_keeps (P := levelsKept s) (fun _ _ _ h => h) r off ws h
  begin _ r _ _ h := tableCheck_keeps (P := levelsKept s) (fun _ _ _ h => h) r h
  lock _ r _ _ h := tableLock_keeps (P := levelsKept s) (fun _ _ _ h => h) r h
  last := hl

theorem levelsKept_of_lineless (hc : completed i s = none) (hpor : ∀ l, i ≠ .powerOnReset l) (hline : ¬ ofLine i)
    (e : exec i s = .next t) : levelsKept s t :=
  row_keeps hc (P := levelsKept s) (fun _ _ a h => h.acts a) (levels_rows hpor hline s) (fun _ => rfl) e

end Lineless

/-! ### The rows of a line -/

section Walk
variable {P : State → Prop} {x : BayId} {s : State}

theorem presenceFalls_keeps (ha : ∀ s t, Acts s t → P s → P t) (hp : ∀ s, P s → P (updBay x (fun b => { b with presence := false }) s))
    (h : P s) : P (presenceFalls x s) := by
  have hloss : P (afterLoss x s) :=
    ha _ _ (((((Acts.refl _).recompute).loseLink x).failRecover x).fallByState x) (hp s h)
  by_cases hlast : lastGone x s
  · rw [presenceFalls_of_last hlast]
    exact ha _ _ (Acts.refl _).answerNoSource hloss
  · rw [presenceFalls_of_not hlast]
    exact hloss

theorem presenceRises_keeps (ha : ∀ s t, Acts s t → P s → P t) (hp : ∀ s, P s → P (updBay x (fun b => { b with presence := true }) s))
    (h : P s) : P (presenceRises x s) := by
  have hrec : P (recompute (updBay x (fun b => { b with presence := true }) s)) := ha _ _ (Acts.refl _).recompute (hp s h)
  unfold presenceRises
  simp only
  split
  · exact hrec
  · exact ha _ _ (Acts.refl _).releaseHeld hrec
  · exact ha _ _ (Acts.refl _).endBridge.releaseHeld hrec

theorem presenceLine_keeps {v : Bool} (ha : ∀ s t, Acts s t → P s → P t) (hl : ∀ s, P s → P (updBay x (fun b => { b with presLine := v }) s))
    (hp : v = false → ∀ s, P s → P (updBay x (fun b => { b with presence := false }) s)) (h : P s) : P (presenceLine x v s) := by
  unfold presenceLine
  split
  · exact h
  cases v with
  | true =>
    have hline := hl s h
    simp only [if_true]
    unfold presenceLineRises
    split
    · exact ha _ _ ((Acts.refl _).enterSeating x) hline
    · exact ha _ _ ((Acts.refl _).updBay x _) hline
  | false =>
    have hlost : P (failRecover x (loseLink x (updBay x (fun b => { b with presLine := false }) s))) :=
      ha _ _ (((Acts.refl _).loseLink x).failRecover x) (hl s h)
    simp only [Bool.false_eq_true, if_false]
    unfold presenceLineFalls
    simp only
    split
    · have hstop : P (stopPresenceDeb x (failRecover x (loseLink x (updBay x (fun b => { b with presLine := false }) s)))) :=
        ha _ _ ((Acts.refl _).updBay x _) hlost
      unfold seatingLineFalls
      split
      · exact presenceFalls_keeps ha (hp rfl) hstop
      · exact ha _ _ ((Acts.refl _).setBayState x .empty) hstop
    · exact ha _ _ ((Acts.refl _).updBay x _) hlost

theorem presenceExpiry_keeps (ha : ∀ s t, Acts s t → P s → P t) (hp : ∀ v s, P s → P (updBay x (fun b => { b with presence := v }) s))
    (h : P s) : P (presenceExpiry x s) := by
  have hstop : P (stopPresenceDeb x s) := ha _ _ ((Acts.refl _).updBay x _) h
  have hrise : P (recordRise x (stopPresenceDeb x s)) := by
    generalize stopPresenceDeb x s = u at hstop
    have hrisen : P (if (u.bays.get x).presence then u else presenceRises x u) := by
      split
      · exact hstop
      · exact presenceRises_keeps ha (hp true) hstop
    unfold recordRise
    generalize (if (u.bays.get x).presence then u else presenceRises x u) = w at hrisen
    simp only
    split
    · refine ha _ _ ((Acts.refl _).enterProbing x .insertion) ?_
      split
      · exact hrisen
      · exact ha _ _ ((Acts.refl _).post _ _) hrisen
    · split
      · exact hrisen
      · exact ha _ _ ((Acts.refl _).joltReturn x) hrisen
    · exact hrisen
  unfold presenceExpiry
  split
  · exact h
  · simp only
    split
    · exact hrise
    split
    · exact presenceFalls_keeps ha (hp false) hstop
    · exact hstop

theorem latchLine_keeps {v : Bool} (ha : ∀ s t, Acts s t → P s → P t) (hl : ∀ s, P s → P (updBay x (fun b => { b with latchLine := v }) s))
    (h : P s) : P (latchLine x v s) := by
  unfold latchLine
  split
  · exact h
  · exact ha _ _ ((Acts.refl _).updBay x _) (hl s h)

theorem latchExpiry_keeps (ha : ∀ s t, Acts s t → P s → P t) (hl : ∀ v s, P s → P (updBay x (fun b => { b with latch := v }) s)) (h : P s) :
    P (latchExpiry x s) := by
  have hstop : P (updBay x (fun b => { b with latchDeb := none }) s) := ha _ _ ((Acts.refl _).updBay x _) h
  unfold latchExpiry
  split
  · exact h
  · simp only
    generalize updBay x (fun b => { b with latchDeb := none }) s = u at hstop
    split
    · exact hstop
    split
    · have hclosed : P (updBay x (fun b => { b with latch := true, refuse := false, deferred := false }) u) := by
        have hmark := ha _ _ ((Acts.refl _).updBay x fun b => { b with refuse := false, deferred := false }) (hl true u hstop)
        rw [updBay_updBay] at hmark
        exact hmark
      unfold Machine.latchCloses
      simp only
      split
      · exact ha _ _ ((Acts.refl _).standbyJoin x) hclosed
      · exact ha _ _ ((Acts.refl _).returnBay x) hclosed
      · exact hclosed
    · have hopen := hl false u hstop
      unfold Machine.latchOpens
      simp only
      split
      · exact ha _ _ ((Acts.refl _).evaluateLatch x) hopen
      · exact hopen

end Walk

section LineRows
variable {i : Instr} {s t u : State}

/-- From `s` to `u` each level that row `i` does not change is as it was. -/
structure Levelled (i : Instr) (s u : State) : Prop where
  presLine : ∀ x, (∀ v, i ≠ .presenceLineChange x v) → (u.bays.get x).presLine = (s.bays.get x).presLine
  latchLine : ∀ x, (∀ v, i ≠ .latchLineChange x v) → (u.bays.get x).latchLine = (s.bays.get x).latchLine
  latch : ∀ x, i ≠ .latchDebounceExpiry x → (u.bays.get x).latch = (s.bays.get x).latch
  presence : ∀ x, i ≠ .presenceDebounceExpiry x → i ≠ .presenceLineChange x false → (u.bays.get x).presence = (s.bays.get x).presence

theorem Levelled.levels (h : Levelled i s t) (k : levelsKept t u) : Levelled i s u := by
  have hk : ∀ x, (u.bays.get x).presLine = (t.bays.get x).presLine ∧ (u.bays.get x).presence = (t.bays.get x).presence
      ∧ (u.bays.get x).latchLine = (t.bays.get x).latchLine ∧ (u.bays.get x).latch = (t.bays.get x).latch := fun x => by
    have hx := k x
    unfold Bay.levels at hx
    injection hx with hpl hx
    injection hx with hp hx
    injection hx with hll hl
    exact ⟨hpl, hp, hll, hl⟩
  refine ⟨fun x e => ?_, fun x e => ?_, fun x e => ?_, fun x e e' => ?_⟩
  · rw [(hk x).1]; exact h.presLine x e
  · rw [(hk x).2.2.1]; exact h.latchLine x e
  · rw [(hk x).2.2.2]; exact h.latch x e
  · rw [(hk x).2.1]; exact h.presence x e e'

theorem Levelled.refl (i : Instr) (s : State) : Levelled i s s := ⟨fun _ _ => rfl, fun _ _ => rfl, fun _ _ => rfl, fun _ _ _ => rfl⟩

theorem Levelled.acts (s t : State) (a : Acts s t) {s0 : State} (h : Levelled i s0 s) : Levelled i s0 t := h.levels a.levels

/-- A change that the row may make in its own bay. -/
theorem Levelled.updBay {y : BayId} {f : Bay → Bay} (h : Levelled i s t) (hpl : (∀ v, i ≠ .presenceLineChange y v) → ∀ b, (f b).presLine = b.presLine)
    (hll : (∀ v, i ≠ .latchLineChange y v) → ∀ b, (f b).latchLine = b.latchLine) (hl : i ≠ .latchDebounceExpiry y → ∀ b, (f b).latch = b.latch)
    (hp : i ≠ .presenceDebounceExpiry y → i ≠ .presenceLineChange y false → ∀ b, (f b).presence = b.presence) :
    Levelled i s (Machine.updBay y f t) := by
  have hget : ∀ {α : Type} (g : Bay → α) x, (x = y → ∀ b, g (f b) = g b) → g ((Machine.updBay y f t).bays.get x) = g (t.bays.get x) :=
    fun g x hg => by
      rw [updBay_bays]
      by_cases hx : x = y
      · rw [hx, Pair.get_upd_self, hg hx]
      · rw [Pair.get_upd_ne _ hx]
  refine ⟨fun x e => ?_, fun x e => ?_, fun x e => ?_, fun x e e' => ?_⟩
  · rw [hget Bay.presLine x fun hx => hpl (hx ▸ e)]; exact h.presLine x e
  · rw [hget Bay.latchLine x fun hx => hll (hx ▸ e)]; exact h.latchLine x e
  · rw [hget Bay.latch x fun hx => hl (hx ▸ e)]; exact h.latch x e
  · rw [hget Bay.presence x fun hx => hp (hx ▸ e) (hx ▸ e')]; exact h.presence x e e'

theorem levelled_of_line (hi : ofLine i) (e : exec i s = .next t) : Levelled i s t := by
  obtain ⟨x, v, rfl⟩ | ⟨x, rfl⟩ | ⟨x, v, rfl⟩ | ⟨x, rfl⟩ := hi
  all_goals (injection e with e; subst e)
  · refine Levelled.acts (presenceLine x v s) _ ((Acts.refl _).settle s) (presenceLine_keeps (P := Levelled _ s) (fun _ _ a h => h.acts _ _ a)
      (fun u h => ?_) (fun hv u h => ?_) (Levelled.refl ..))
    · exact h.updBay (fun e => absurd rfl (e v)) (fun _ _ => rfl) (fun _ _ => rfl) fun _ _ _ => rfl
    · subst hv
      exact h.updBay (fun _ _ => rfl) (fun _ _ => rfl) (fun _ _ => rfl) fun _ e => absurd rfl e
  · refine Levelled.acts (presenceExpiry x s) _ ((Acts.refl _).settle s) (presenceExpiry_keeps (P := Levelled _ s) (fun _ _ a h => h.acts _ _ a)
      (fun v u h => ?_) (Levelled.refl ..))
    exact h.updBay (fun _ _ => rfl) (fun _ _ => rfl) (fun _ _ => rfl) fun e => absurd rfl e
  · refine latchLine_keeps (P := Levelled _ s) (fun _ _ a h => h.acts _ _ a) (fun u h => ?_) (Levelled.refl ..)
    exact h.updBay (fun _ _ => rfl) (fun e => absurd rfl (e v)) (fun _ _ => rfl) fun _ _ _ => rfl
  · refine Levelled.acts (latchExpiry x s) _ ((Acts.refl _).settle s) (latchExpiry_keeps (P := Levelled _ s) (fun _ _ a h => h.acts _ _ a)
      (fun v u h => ?_) (Levelled.refl ..))
    exact h.updBay (fun _ _ => rfl) (fun _ _ => rfl) (fun e => absurd rfl e) fun _ _ _ => rfl

theorem movesSlot_of_commandRow {c : BitVec 7} {p : List Byte} {j : Instr} (h : commandRow c p = some j) : movesSlot j = true := by
  unfold commandRow at h
  split at h
  · cases h
  all_goals (injection h with h; subst h; rfl)

theorem not_ofLine_of_slot {j : Instr} (h : movesSlot j = true) : ¬ ofLine j := by
  rintro (⟨x, v, rfl⟩ | ⟨x, rfl⟩ | ⟨x, v, rfl⟩ | ⟨x, rfl⟩)
  all_goals cases h

/-- Every row but power-on reset, a byte that completes a command included. -/
theorem levelled_exec (hpor : ∀ l, i ≠ .powerOnReset l) (e : exec i s = .next t) : Levelled i s t := by
  by_cases hline : ofLine i
  · exact levelled_of_line hline e
  obtain ⟨j, hc, he, hj⟩ := exec_as_row i s
  have hjpor : ∀ l, j ≠ .powerOnReset l := by
    obtain rfl | ⟨c, p, hj⟩ := hj
    · exact hpor
    · exact ne_powerOnReset_of_commandRow hj
  have hjline : ¬ ofLine j := by
    obtain rfl | ⟨c, p, hj⟩ := hj
    · exact hline
    · exact not_ofLine_of_slot (movesSlot_of_commandRow hj)
  exact (Levelled.refl i s).levels (levelsKept_of_lineless hc hjpor hjline (he ▸ e))

end LineRows

end Sys2Proof.Machine
end

