-- ==== Sys2Proof/Proofs/PacksKept.lean ====
section
/-! PROOFS. What the walks leave of the bays' records, the snapshots and the counts (R34, R38, R63, R64): the switching of bays keeps all of them, a
fault keeps the contexts and the snapshots, and an admission keeps the snapshots. -/

namespace Sys2Proof.Machine

/-! ### The parts of a bay and of its relay -/

section Kept
variable {α β : Type} {C L : Prop} {g : Bay → α} {r : Relay → β} {s t u : State}

/-- From `s` to `u` the part `g` of each bay and `r` of each relay are as they were, and where `C` and `L` are given the cache and the upstream link. -/
structure PacksKept (C L : Prop) (g : Bay → α) (r : Relay → β) (s u : State) : Prop where
  bay : ∀ x, g (u.bays.get x) = g (s.bays.get x)
  relay : ∀ x, r (u.relays.get x) = r (s.relays.get x)
  cache : C → u.cache = s.cache
  upstream : L → u.upstream = s.upstream

theorem PacksKept.refl (C L : Prop) (g : Bay → α) (r : Relay → β) (s : State) : PacksKept C L g r s s :=
  ⟨fun _ => rfl, fun _ => rfl, fun _ => rfl, fun _ => rfl⟩

theorem PacksKept.power (h : PacksKept C L g r s t) (a : powerOnly t u) : PacksKept C L g r s u :=
  ⟨fun x => by rw [a.bays]; exact h.bay x, fun x => by rw [a.relays]; exact h.relay x, fun e => a.cache.trans (h.cache e),
    fun e => a.upstream.trans (h.upstream e)⟩

theorem PacksKept.post (h : PacksKept C L g r s t) (k : AttnKey) (d : Detail) : PacksKept C L g r s (post k d t) := h.power (post_frame k d t)

theorem PacksKept.updBay (h : PacksKept C L g r s t) (x : BayId) {f : Bay → Bay} (hf : ∀ b, g (f b) = g b) :
    PacksKept C L g r s (updBay x f t) := by
  refine { h with bay := fun y => ?_ }
  rw [updBay_bays]
  by_cases hy : y = x
  · rw [hy, Pair.get_upd_self, hf]
    exact h.bay x
  · rw [Pair.get_upd_ne _ hy]
    exact h.bay y

theorem PacksKept.updRelay (h : PacksKept C L g r s t) (x : BayId) {f : Relay → Relay} (hf : ∀ q, r (f q) = r q) :
    PacksKept C L g r s (updRelay x f t) := by
  refine { h with relay := fun y => ?_ }
  rw [updRelay_relays]
  by_cases hy : y = x
  · rw [hy, Pair.get_upd_self, hf]
    exact h.relay x
  · rw [Pair.get_upd_ne _ hy]
    exact h.relay y

theorem PacksKept.setBayState (h : PacksKept C L g r s t) (x : BayId) (st : BayState) (hg : ∀ b : Bay, g (b.enter st) = g b)
    (hr : ∀ q : Relay, r (q.enter st) = r q) : PacksKept C L g r s (setBayState x st t) :=
  ((h.updBay x hg).updRelay x hr).power (setBayState_only x st t)

/-! ### The walks -/

/-- The switching of bays does not touch the part `g` of a bay, and no change of bay state touches the part `r` of a relay. -/
structure Blind (g : Bay → α) (r : Relay → β) : Prop where
  marks : ∀ f, marksOnly f → ∀ b, g (f b) = g b
  enter : ∀ st, st ≠ .empty → st ≠ .faulted → ∀ b : Bay, g (b.enter st) = g b
  relay : ∀ st (q : Relay), r (q.enter st) = r q

theorem Blind.swaps (k : Blind g r) (C L : Prop) (s : State) : Swaps False (PacksKept C L g r s) where
  done _ _ _ h := h.post _ _
  refused _ _ _ h := h.post _ _
  mark x f _ hf h := h.updBay x (k.marks f hf)
  online x t _ h := (h.power ((powerOnly.refl t).requestOn x)).setBayState x .online (k.enter _ nofun nofun) (k.relay _)
  standby x t _ h := (h.power ((powerOnly.refl t).switchOff x)).setBayState x .standby (k.enter _ nofun nofun) (k.relay _)
  release x n t _ h := by
    have hmark : marksOnly (markReleased n) := fun _ => rfl
    rw [releaseBay_eq]
    exact ((h.power ((powerOnly.refl t).switchOff x)).updBay x (k.marks _ hmark)).setBayState x .releasing (k.enter _ nofun nofun) (k.relay _)
  bridge why t h := h.power ((powerOnly.refl t).startBridge why)

theorem Blind.faults (k : Blind g r) (L : Prop) (s : State) (hf : ∀ b : Bay, g (b.enter .faulted) = g b)
    (hm : ∀ why b, g (markFaulted why b) = g b) : Faults False (PacksKept False L g r s) where
  toSwaps := k.swaps False L s
  note _ _ _ h := h.post _ _
  lines _ _ h := { h with cache := nofun }
  fault x why _ _ h := ((h.setBayState x .faulted hf (k.relay _)).updBay x (hm why)).power ((powerOnly.refl _).switchOff x)

theorem Blind.admits (k : Blind g r) (L : Prop) (s : State) (hg : ∀ b c, g b = g c)
    (hr : ∀ p (q : Relay), r { q with probe := some p } = r q) : Admits False (PacksKept False L g r s) where
  toFaults := k.faults L s (fun _ => hg _ _) fun _ _ => hg _ _
  record x _ _ _ h := h.updBay x fun _ => hg _ _
  probing x _ _ h := h.setBayState x .probing (fun _ => hg _ _) (k.relay _)
  probe x p _ _ h := h.updRelay x (hr p)

end Kept

/-! ### The records, the snapshots and the counts -/

/-- The jolt record, the cause and the reason of a bay. -/
def pastRecord (b : Bay) : Option JoltRecord × ProbeCause × FaultReason := (b.jolt, b.probeCause, b.faultReason)

/-- The same with its context. -/
def packRecord (b : Bay) : Option Context × Option JoltRecord × ProbeCause × FaultReason := (b.context, pastRecord b)

/-- The snapshot and the failure count of a relay. -/
def packCounts (r : Relay) : Snapshot × Nat := (r.snap, r.failCount)

theorem packCounts_enter (st : BayState) (q : Relay) : packCounts (q.enter st) = packCounts q := by
  unfold Relay.enter
  split
  · rfl
  · split <;> rfl

theorem packRecord_marks {f : Bay → Bay} (hf : marksOnly f) (b : Bay) : packRecord (f b) = packRecord b := by
  rw [hf b]
  rfl

theorem blind_record : Blind packRecord packCounts where
  marks _ hf := packRecord_marks hf
  enter st he hf b := by
    have hj : (b.enter st).jolt = b.jolt := if_neg fun e => e.elim he hf
    unfold packRecord pastRecord
    rw [hj]
    rfl
  relay := packCounts_enter

theorem blind_context : Blind Bay.context Relay.snap where
  marks _ hf b := congrArg Prod.fst (packRecord_marks hf b)
  enter _ _ _ _ := rfl
  relay := snap_enter

theorem blind_snap : Blind (fun _ => ()) Relay.snap where
  marks _ _ _ := rfl
  enter _ _ _ _ := rfl
  relay := snap_enter

/-! ### The rows that end in a fault -/

/-- Beside faults: what a timeout and a region that enters or leaves service change. -/
structure Outcomes (P : State → Prop) : Prop extends Faults False P where
  relay : ∀ x f s, (∀ q : Relay, (f q).snap = q.snap) → P s → P (updRelay x f s)
  cache : ∀ c s, P s → P { s with cache := c }
  region : ∀ r f s, P s → P (updRegion r f s)
  host : ∀ s, P s → P (recompute (raiseHostMax s))
  inst : ∀ n s, P s → P { s with mapInst := n }

theorem outcomes_context (L : Prop) (s : State) : Outcomes (PacksKept False L Bay.context Relay.snap s) where
  toFaults := blind_context.faults L s (fun _ => rfl) fun _ _ => rfl
  relay x _ _ hf h := h.updRelay x hf
  cache _ _ h := { h with cache := nofun }
  region _ _ _ h := { h with }
  host t h := PacksKept.power { h with } (u := recompute (raiseHostMax t)) (t := raiseHostMax t) (powerOnly.refl _).recompute
  inst _ _ h := { h with }

section OutcomesWalk
variable {P : State → Prop} {s : State}

theorem Outcomes.cacheFailedWrite (k : Outcomes P) (x : BayId) (c : Code) (h : P s) : P (cacheFailedWrite x c s) := by
  unfold Machine.cacheFailedWrite
  split
  · exact h
  · exact k.cache _ s h

theorem handPlatform_timeout (x : BayId) (q : Request) (s : State) :
    handPlatform x q .timeout s = if q.kind = .writeValue then cacheFailedWrite x q.code s else s := by
  obtain ⟨kind, c, payload, gov⟩ := q
  cases kind <;> rfl

theorem answerMaster_timeout (s : State) : ∃ u, answerMaster .timeout s = { s with upstream := u } := by
  unfold answerMaster
  split
  · split
    · exact ⟨_, rfl⟩
    · exact ⟨_, rfl⟩
  · exact ⟨_, rfl⟩

theorem Outcomes.probeFailure (k : Outcomes P) (x : BayId) (h : P s) : P (probeFailure x s) := by
  unfold Machine.probeFailure
  split
  · split
    · exact k.enterFault x .link nofun h
    · exact h
  · exact h

/-- R54, R58, R61, R62, R64: a timeout is handed on by the purpose of its transaction. -/
theorem Outcomes.timeoutTx (k : Outcomes P) (hl : ∀ u s, P s → P { s with upstream := u }) (x : BayId) (h : P s) :
    P (settling (timeoutTx x) s) := by
  refine k.settling ?_
  unfold Machine.timeoutTx
  split
  · next tx _ =>
    have hcount : P (countOutcome x true (updRelay x (fun q => { q with link := none }) s)) :=
      k.relay x _ _ (fun _ => rfl) (k.relay x _ _ (fun _ => rfl) h)
    have hhand : P (handOn x tx .timeout (countOutcome x true (updRelay x (fun q => { q with link := none }) s))) := by
      generalize countOutcome x true (updRelay x (fun q => { q with link := none }) s) = u at hcount
      unfold handOn
      split
      · obtain ⟨a, ha⟩ := answerMaster_timeout u
        rw [handPlatform_timeout, ha]
        split
        · exact k.cacheFailedWrite x _ (hl a u hcount)
        · exact hl a u hcount
      · unfold handPoll
        simp only
        split
        · split
          · exact hcount
          · exact k.relay x _ u (fun _ => rfl) hcount
        · exact hcount
      · exact k.probeFailure x hcount
      · exact hcount
    exact k.faultIfReached x hhand
  · exact h

theorem Outcomes.handOverConfig (k : Outcomes P) (h : P s) : P (handOverConfig s) :=
  k.faultAtLimit .B (k.faultAtLimit .A (k.relay .B _ _ (fun _ => rfl) (k.relay .A _ _ (fun _ => rfl) (k.host s h))))

theorem Outcomes.newInstance (k : Outcomes P) (h : P s) : P (newInstance s) :=
  k.relay .B _ _ (fun _ => rfl) (k.relay .A _ _ (fun _ => rfl) (k.inst _ s h))

theorem Outcomes.endCheck (k : Outcomes P) (r : RegionId) (h : P s) : P (endCheck r s) := by
  obtain e | ⟨-, d, e⟩ | ⟨-, -, e⟩ := endCheck_cases r s
  · rw [e]
    exact h
  · rw [e]
    exact k.note _ _ _ (k.region r _ s h)
  · rw [e]
    have hset : P (setRegionState r .inService s) := k.region r _ s h
    refine k.note _ _ _ ?_
    cases r
    · exact k.handOverConfig hset
    · exact k.newInstance hset
    · exact hset
    · exact hset

theorem Outcomes.tableClear (k : Outcomes P) (r : RegionId) (h : P s) : P (tableClear r s).1 := by
  have hset : P (updRegion r blankRegion s) := k.region r _ s h
  obtain e | ⟨-, -, e⟩ | ⟨-, -, e⟩ := tableClear_cases r s
  · rw [e]
    exact h
  · rw [e]
    exact hset
  · rw [e]
    cases r
    · exact k.handOverConfig hset
    · exact k.lines _ _ (k.newInstance hset)
    · exact hset
    · exact hset

end OutcomesWalk

/-! ### The rows that end in an admission -/

section AdmissionRows
variable {L : Prop} {s t : State}

theorem admits_snap (L : Prop) (s : State) : Admits False (PacksKept False L (fun _ => ()) Relay.snap s) :=
  blind_snap.admits L s (fun _ _ => rfl) fun _ _ => rfl

/-- R67: a recovery that ends. -/
theorem PacksKept.endRecover (h : PacksKept False L (fun _ => ()) Relay.snap s t) (x : BayId) (o : Option Nat) :
    PacksKept False L (fun _ => ()) Relay.snap s (settling (endRecover x o) t) := by
  refine (admits_snap L s).settling ?_
  have hend : PacksKept False L (fun _ => ()) Relay.snap s (Machine.updRelay x (fun r => { r with recover := .notRunning }) t) :=
    h.updRelay x fun _ => rfl
  unfold Machine.endRecover
  split
  · simp only
    split
    · refine PacksKept.post ?_ _ _
      have hcount := hend.updRelay x (f := fun r => { r with failCount := 0 }) fun _ => rfl
      unfold recovered
      simp only
      split
      · exact (admits_snap L s).enterProbing x .insertion nofun hcount
      · exact hcount
    · exact hend.post _ _
  · exact h

theorem PacksKept.bayProbe (h : PacksKept False L (fun _ => ()) Relay.snap s t) (x : BayId) :
    PacksKept False L (fun _ => ()) Relay.snap s (bayProbe x t).1 := by
  unfold Machine.bayProbe
  split
  · split
    · exact h
    · exact (admits_snap L s).settling ((admits_snap L s).enterProbing x .bayProbe nofun (h.updRelay x fun _ => rfl))
  · exact h

end AdmissionRows

/-! ### The rows of the power lines and the latch -/

section SwitchRows
variable {s t : State}

theorem PacksKept.extLine (h : PacksKept True True packRecord packCounts s t) (v : Bool) :
    PacksKept True True packRecord packCounts s (settling (Machine.extLine v) t) := by
  refine (blind_record.swaps True True s).settling ?_
  have hset : PacksKept True True packRecord packCounts s (setExt v t) := { h with }
  unfold Machine.extLine
  split
  · exact h
  cases v with
  | true => exact hset.power (((powerOnly.refl _).post _ _).recompute.releaseHeld.endBridge)
  | false =>
    have hgone := hset.power (((powerOnly.refl _).post (.presence .ext) dDeparted).recompute)
    simp only [Bool.false_eq_true, if_false]
    unfold extDeparts
    simp only
    split
    · exact (blind_record.swaps True True s).answerNoSource nofun hgone
    · exact hgone

/-- R18: what the latch debounce comes to. -/
theorem latchExpiry_elim {P : State → Prop} {x : BayId} (h : P s) (hstop : P (latchStopped x s)) (hshut : P (latchShut x s))
    (hjoin : P (standbyJoin x (latchShut x s))) (hback : P (returnBay x (latchShut x s))) (hopen : P (latchOpened x s))
    (heval : P (evaluateLatch x (latchOpened x s))) : P (latchExpiry x s) := by
  by_cases hrun : (s.bays.get x).latchDeb = none
  · rw [latchExpiry_of_stopped hrun]
    exact h
  have hdeb : (s.bays.get x).latchDeb.isSome = true := Option.isSome_iff_ne_none.mpr hrun
  by_cases hlevel : (s.bays.get x).latchLine = (s.bays.get x).latch
  · rw [latchExpiry_of_level hlevel]
    exact hstop
  cases hline : (s.bays.get x).latchLine with
  | true =>
    rw [latchExpiry_shuts ⟨hdeb, hline, Bool.eq_not_of_ne fun e => hlevel (hline.trans e.symm)⟩]
    split
    · exact hjoin
    split
    · exact hback
    · exact hshut
  | false =>
    rw [latchExpiry_unlatches ⟨hdeb, hline, Bool.eq_not_of_ne fun e => hlevel (hline.trans e.symm)⟩]
    split
    · exact heval
    · exact hopen

theorem PacksKept.latchExpiry (h : PacksKept True True packRecord packCounts s t) (x : BayId) :
    PacksKept True True packRecord packCounts s (settling (Machine.latchExpiry x) t) := by
  have k := blind_record.swaps True True s
  have hshut : PacksKept True True packRecord packCounts s (latchShut x t) := h.updBay x fun _ => rfl
  have hopen : PacksKept True True packRecord packCounts s (latchOpened x t) := h.updBay x fun _ => rfl
  exact k.settling (latchExpiry_elim h (h.updBay x fun _ => rfl) hshut (k.standbyJoin x hshut) (k.returnBay x nofun hshut) hopen
    (k.evaluateLatch x nofun hopen))

end SwitchRows

end Sys2Proof.Machine
end

