-- ==== Sys2Proof/Proofs/LeftParts.lean ====
section
/-! PROOFS. What a row leaves of the Reading Cache, the Attention Queue, the power path and the budget, the relays, the upstream link and the bay
records (chapters 1 to 6, 10 and 11). The rows that move bays are ordered by how far they reach; a part that a row changes without moving a bay is
named for it. -/

namespace Sys2Proof.Machine

/-! ### How far a row reaches, and what it changes beside -/

/-- 1: the switching of bays. 2: a fault. 3: an admission. 4: a loss, a return or a reset. 0: no bay moves. -/
def reach : Instr → Nat
  | .powerOnReset _ | .presenceLineChange .. | .presenceDebounceExpiry _ | .joltHoldExpiry _ | .packTransactionEnd .. | .motionSample ..
  | .stallTimeout | .windowHoldExpiry | .resetPart _ => 4
  | .linkRecoverEnd .. | .bayProbe _ => 3
  | .linkTimeout _ | .tableCheckEnd _ | .tableClear _ => 2
  | .extPresentChange _ | .latchDebounceExpiry _ | .flagClear _ | .flagToggle _ | .bayRelease _ | .bayReturn _ => 1
  | _ => 0

/-- Row `i` reaches `n` at least. -/
def reaches (n : Nat) (i : Instr) : Bool := Nat.ble n (reach i)

theorem reaches_of_le {m n : Nat} {i : Instr} (hmn : m ≤ n) (h : reaches n i = true) : reaches m i = true :=
  Nat.ble_eq.mpr (hmn.trans (Nat.ble_eq.mp h))

theorem not_reaches {m n : Nat} {i : Instr} (h : reaches n i = true) (hm : reaches m i = false) (hmn : m ≤ n := by decide) {p : Prop} : p :=
  absurd ((reaches_of_le hmn h).symm.trans hm) (by decide)

def ownCache : Instr → Bool
  | .contextWindowExpiry _ | .ageTick | .readValue _ | .cacheFlush _ => true
  | _ => false

def ownAttn : Instr → Bool
  | .bridgeExpiry | .codeByteCheck _ | .permitCheck _ | .senseAttention _ | .brightnessSet _ => true
  | _ => false

def ownPower : Instr → Bool
  | .bridgeReadyChange _ | .bridgeExpiry => true
  | _ => false

def ownBudget : Instr → Bool
  | .bridgeExpiry | .brightnessSet _ => true
  | _ => false

def ownLevel : Instr → Bool
  | .bridgeExpiry | .brightnessSet _ | .lightSample .. => true
  | _ => false

def ownRelays : Instr → Bool
  | .pollPeriodExpiry | .pollStart _ | .pollRetry _ | .probeReadStart _ | .slotTransactionStart _ | .linkRecoverBegin _ | .readValue _
  | .writeValue .. | .readBlock _ | .writeBlock _ | .flagSet _ | .linkRecover _ => true
  | _ => false

def ownBays : Instr → Bool
  | .latchLineChange .. | .contextWindowExpiry _ => true
  | _ => false

/-- From `s` to `u` every part that row `i` does not change is as it was. -/
structure Left (i : Instr) (s u : State) : Prop where
  cache : reaches 2 i = false → ownCache i = false → u.cache = s.cache
  attn : reaches 1 i = false → ownAttn i = false → u.attn = s.attn
  power : reaches 1 i = false → ownPower i = false → u.pp = s.pp
  budget : reaches 1 i = false → ownBudget i = false → u.budget = s.budget
  level : reaches 1 i = false → ownLevel i = false → u.pipe.o = s.pipe.o
  relays : reaches 1 i = false → ownRelays i = false → u.relays = s.relays
  snap : reaches 4 i = false → ∀ x, (u.relays.get x).snap = (s.relays.get x).snap
  fails : reaches 2 i = false → ∀ x, (u.relays.get x).failCount = (s.relays.get x).failCount
  bays : reaches 1 i = false → ownBays i = false → u.bays = s.bays
  context : reaches 3 i = false → (∀ x, i ≠ .contextWindowExpiry x) → ∀ x, (u.bays.get x).context = (s.bays.get x).context
  record : reaches 2 i = false → ∀ x, pastRecord (u.bays.get x) = pastRecord (s.bays.get x)
  upstream : movesLink i = false → u.upstream = s.upstream

section Lefts
variable {i : Instr} {s t u : State}

theorem Left.refl (i : Instr) (s : State) : Left i s s :=
  ⟨fun _ _ => rfl, fun _ _ => rfl, fun _ _ => rfl, fun _ _ => rfl, fun _ _ => rfl, fun _ _ => rfl, fun _ _ => rfl, fun _ _ => rfl,
    fun _ _ => rfl, fun _ _ _ => rfl, fun _ _ => rfl, fun _ => rfl⟩

/-! #### The rows that move bays -/

/-- A loss, a return or a reset leaves the upstream link alone, if that. -/
theorem Left.far (h : Left i s t) (hr : reaches 4 i = true) (hu : movesLink i = false → u.upstream = t.upstream) : Left i s u where
  cache e := not_reaches hr e
  attn e := not_reaches hr e
  power e := not_reaches hr e
  budget e := not_reaches hr e
  level e := not_reaches hr e
  relays e := not_reaches hr e
  snap e := not_reaches hr e
  fails e := not_reaches hr e
  bays e := not_reaches hr e
  context e := not_reaches hr e
  record e := not_reaches hr e
  upstream e := (hu e).trans (h.upstream e)

theorem Left.admitted (h : Left i s t) (hr : reaches 3 i = true) (k : PacksKept False (movesLink i = false) (fun _ => ()) Relay.snap t u) :
    Left i s u where
  cache e := not_reaches hr e
  attn e := not_reaches hr e
  power e := not_reaches hr e
  budget e := not_reaches hr e
  level e := not_reaches hr e
  relays e := not_reaches hr e
  snap e x := (k.relay x).trans (h.snap e x)
  fails e := not_reaches hr e
  bays e := not_reaches hr e
  context e := not_reaches hr e
  record e := not_reaches hr e
  upstream e := (k.upstream e).trans (h.upstream e)

theorem Left.faulted (h : Left i s t) (hr : reaches 2 i = true) (k : PacksKept False (movesLink i = false) Bay.context Relay.snap t u) :
    Left i s u where
  cache e := not_reaches hr e
  attn e := not_reaches hr e
  power e := not_reaches hr e
  budget e := not_reaches hr e
  level e := not_reaches hr e
  relays e := not_reaches hr e
  snap e x := (k.relay x).trans (h.snap e x)
  fails e := not_reaches hr e
  bays e := not_reaches hr e
  context e e' x := (k.bay x).trans (h.context e e' x)
  record e := not_reaches hr e
  upstream e := (k.upstream e).trans (h.upstream e)

theorem Left.switched (h : Left i s t) (hr : reaches 1 i = true) (k : PacksKept True True packRecord packCounts t u) : Left i s u where
  cache e e' := (k.cache trivial).trans (h.cache e e')
  attn e := not_reaches hr e
  power e := not_reaches hr e
  budget e := not_reaches hr e
  level e := not_reaches hr e
  relays e := not_reaches hr e
  snap e x := (congrArg Prod.fst (k.relay x)).trans (h.snap e x)
  fails e x := (congrArg Prod.snd (k.relay x)).trans (h.fails e x)
  bays e := not_reaches hr e
  context e e' x := (congrArg Prod.fst (k.bay x)).trans (h.context e e' x)
  record e x := (congrArg Prod.snd (k.bay x)).trans (h.record e x)
  upstream e := (k.upstream trivial).trans (h.upstream e)

/-! #### The rows that move none -/

theorem Left.bay (h : Left i s t) (hb : ownBays i = true) (x : BayId) {f : Bay → Bay} (hf : ∀ b, packRecord (f b) = packRecord b) :
    Left i s (updBay x f t) := by
  have hget : PacksKept True True packRecord packCounts t (updBay x f t) := (PacksKept.refl ..).updBay x hf
  exact { h with
          bays := fun _ e => absurd (hb.symm.trans e) (by decide)
          context := fun e e' y => (congrArg Prod.fst (hget.bay y)).trans (h.context e e' y)
          record := fun e y => (congrArg Prod.snd (hget.bay y)).trans (h.record e y) }

theorem links_left (hr : ownRelays i = true) (s : State) : Links (movesLink i = true) (Left i s) where
  link hL _ _ h := { h with upstream := fun e => absurd (hL.symm.trans e) (by decide) }
  timer _ _ h := { h with }
  relay x f t hf hc h := by
    have hget : ∀ {α : Type} (g : Relay → α) y, g (f (t.relays.get x)) = g (t.relays.get x) →
        g ((updRelay x f t).relays.get y) = g (t.relays.get y) := fun g y hg => by
      rw [updRelay_relays]
      by_cases hy : y = x
      · rw [hy, Pair.get_upd_self, hg]
      · rw [Pair.get_upd_ne _ hy]
    exact { h with
            relays := fun _ e => absurd (hr.symm.trans e) (by decide)
            snap := fun e y => (hget Relay.snap y hf.1).trans (h.snap e y)
            fails := fun e y => (hget Relay.failCount y hc).trans (h.fails e y) }

theorem Left.contextOut (h : Left (.contextWindowExpiry x) s t) : Left (.contextWindowExpiry x) s (contextOut x t) := by
  have hlines : PacksKept False True pastRecord packCounts t (cacheDropParked x t) :=
    ⟨fun _ => rfl, fun _ => rfl, nofun, fun _ => rfl⟩
  have hget : PacksKept False True pastRecord packCounts t (clearContext x (cacheDropParked x t)) :=
    hlines.updBay x (f := fun b => { b with context := none }) fun _ => rfl
  unfold Machine.contextOut
  split
  · exact { h with
            cache := nofun
            bays := nofun
            context := fun _ e => absurd rfl (e x)
            record := fun e y => (hget.bay y).trans (h.record e y) }
  · exact h

theorem Left.expireBridge (h : Left .bridgeExpiry s t) : Left .bridgeExpiry s (expireBridge t) := by
  unfold Machine.expireBridge
  split
  · rw [recompute_eq]
    exact { h with attn := nofun, power := nofun, budget := nofun, level := nofun }
  · exact h

theorem Left.cacheFlush (h : Left (.cacheFlush p) s t) : Left (.cacheFlush p) s (Machine.cacheFlush p t).1 := by
  have hlines : ∀ f, Left (.cacheFlush p) s (mapCache f t) := fun _ => { h with cache := nofun }
  unfold Machine.cacheFlush
  split
  · split
    · exact hlines _
    · exact hlines _
    · exact hlines _
    · exact h
  · exact h

theorem Left.setBrightness (h : Left (.brightnessSet p) s t) (m : PipeMode) (l n : Nat) :
    Left (.brightnessSet p) s (Machine.setBrightness m l n t) := by
  unfold Machine.setBrightness
  rw [recompute_eq]
  exact { h with attn := nofun, budget := nofun, level := nofun }

/-- R203: a flag command hands its change on. -/
theorem Left.handFlag {p : List Byte} {n : Nat} {a b : Bool} (h : Left i s t) (hi : flips i p a b) : Left i s (Machine.handFlag n a b t) := by
  obtain ⟨rfl, rfl⟩ | hclear := hi
  · have k := links_left (i := .flagSet p) rfl s
    by_cases hn : n = 2
    · subst hn
      cases a with
      | true => rw [handFlag_same]; exact h
      | false =>
        exact k.same .B (fun r => { r with pollDue := false }) (fun _ => ⟨rfl, rfl, rfl⟩)
          (k.same .A (fun r => { r with pollDue := false }) (fun _ => ⟨rfl, rfl, rfl⟩) h)
    · rw [handFlag_of_set hn]
      exact h
  · have hreach : reaches 1 i = true := by obtain ⟨rfl, -⟩ | ⟨rfl, -⟩ := hclear <;> rfl
    refine h.switched hreach ((blind_record.swaps True True t).handFlag n a b (fun x f u hf k => ?_) (PacksKept.refl ..))
    exact k.updRelay x fun r => by rw [hf]; rfl

/-- The upstream link through the rows of the monitor and the jolt hold. -/
theorem losses_upstream (s : State) : Losses False fun u => u.upstream = s.upstream where
  toAdmits := admits_of_beside fun _ _ h e => h.upstream.trans e
  outside _ _ h e := h.upstream.trans e
  expire x v u _ e := (beside_enterEmpty (x := x) (save := some v) (d := false) (s := u)).upstream.trans e

theorem upstream_joltHoldOut (x : BayId) (s : State) : (settling (joltHoldOut x) s).upstream = s.upstream := by
  have k := losses_upstream s
  refine k.settling ?_
  unfold joltHoldOut
  split
  · exact k.joltExpire x nofun rfl
  · rfl

end Lefts

/-! ### The rows -/

theorem left_rows (i : Instr) (s : State) : RowSteps i (Left i s) (Left i s) where
  weaken _ h := h
  link _ _ hu h := { h with upstream := fun e => absurd (hu.symm.trans e) (by decide) }
  slot _ _ _ h := { h with }
  slotEnd _ _ _ h := { h with }
  lane _ _ h := { h with }
  deny x c _ hd h := by
    obtain ⟨b, rfl⟩ | ⟨d, rfl⟩ := hd
    · exact { h with attn := nofun, upstream := nofun }
    · exact { h with attn := nofun, upstream := nofun }
  por _ _ hi h := by
    subst hi
    exact h.far rfl nofun
  ext v _ hi h := by
    subst hi
    exact h.switched rfl ((PacksKept.refl ..).extLine v)
  presLine _ _ _ hi h := by
    subst hi
    exact h.far rfl nofun
  presExpiry _ _ hi h := by
    subst hi
    exact h.far rfl nofun
  latchLine x v t hi h := by
    subst hi
    by_cases hv : (t.bays.get x).latchLine = v
    · rw [latchLine_of_eq hv]
      exact h
    · rw [latchLine_of_change (Bool.eq_not_of_ne hv)]
      exact h.bay rfl x fun _ => rfl
  latchExpiry x _ hi h := by
    subst hi
    exact h.switched rfl ((PacksKept.refl ..).latchExpiry x)
  ready _ _ hi h := by
    subst hi
    exact { h with power := nofun }
  expire _ hi h := by
    subst hi
    exact h.expireBridge
  joltOut x t hi h := by
    subst hi
    exact h.far rfl fun _ => upstream_joltHoldOut x t
  context _ _ hi h := by
    subst hi
    exact h.contextOut
  uptime _ _ h := { h with }
  age _ hi h := by
    subst hi
    exact { h with cache := nofun }
  pollPeriod _ hi h := by
    subst hi
    exact (links_left rfl s).pollPeriodOut h
  pollStart x _ hi h := by
    subst hi
    exact (links_left rfl s).startPoll x h
  pollRetry x _ hi h := by
    subst hi
    exact (links_left rfl s).retryPoll x h
  probeRead x _ hi h := by
    subst hi
    exact (links_left rfl s).startProbeRead x h
  slotStart x _ hi h := by
    subst hi
    exact (links_left rfl s).startSlot rfl x h
  complete _ _ _ hi h := by
    subst hi
    exact h.far rfl nofun
  timeout x _ hi h := by
    subst hi
    exact h.faulted rfl ((outcomes_context _ _).timeoutTx (fun _ _ k => { k with upstream := nofun }) x (PacksKept.refl ..))
  recoverBegin x _ hi h := by
    subst hi
    exact (links_left rfl s).beginRecover x h
  recoverEnd x o _ hi h := by
    subst hi
    exact h.admitted rfl ((PacksKept.refl ..).endRecover x o)
  light _ _ _ _ _ _ hi h := by
    subst hi
    exact { h with level := nofun }
  sample _ _ _ _ _ _ p t hi h := by
    subst hi
    exact h.far rfl fun _ => (losses_upstream t).episodes.takeSample p rfl
  stall t hi h := by
    subst hi
    exact h.far rfl fun _ => (losses_upstream t).episodes.stallOut rfl
  hold t hi h := by
    subst hi
    exact h.far rfl fun _ => (losses_upstream t).episodes.holdOut rfl
  check r _ hi h := by
    subst hi
    exact h.faulted rfl ((outcomes_context _ _).endCheck r (PacksKept.refl ..))
  forward k p n _ hk h := by
    cases k with
    | readValue =>
      obtain ⟨m, rfl⟩ := hk
      exact (links_left rfl s).reachForwarding rfl _ p n (fun _ _ _ _ h => { h with cache := nofun }) h
    | writeValue =>
      obtain ⟨a, b, rfl⟩ := hk
      exact (links_left rfl s).reachForwarding rfl _ p n nofun h
    | readBlock =>
      obtain ⟨m, rfl⟩ := hk
      exact (links_left rfl s).reachForwarding rfl _ p n nofun h
    | writeBlock =>
      obtain ⟨q, rfl⟩ := hk
      exact (links_left rfl s).reachForwarding rfl _ p n nofun h
  seen _ _ _ h := { h with }
  sense _ _ _ _ hi _ h := by
    subst hi
    exact { h with attn := nofun }
  flag p t n a b hi h := Left.handFlag (t := { t with flags := flagPut t.flags n b }) { h with } hi
  reset _ _ hi h := by
    subst hi
    exact h.far rfl nofun
  release _ x t hi h := by
    subst hi
    exact h.switched rfl ((blind_record.swaps True True t).bayRelease x (PacksKept.refl ..))
  giveBack _ x t hi h := by
    subst hi
    exact h.switched rfl ((blind_record.swaps True True t).bayReturn x (PacksKept.refl ..))
  probe _ x _ hi h := by
    subst hi
    exact h.admitted rfl ((PacksKept.refl ..).bayProbe x)
  recover _ x _ hi h := by
    subst hi
    exact (links_left rfl s).linkRecover x h
  flush _ _ hi h := by
    subst hi
    exact h.cacheFlush
  bright _ _ m l n hi h := by
    subst hi
    exact h.setBrightness m l n
  sticky _ _ _ h := { h with }
  logClear _ _ _ h := { h with }
  clear _ r _ hi h := by
    subst hi
    exact h.faulted rfl ((outcomes_context _ _).tableClear r (PacksKept.refl ..))
  write _ r off ws _ _ h := tableWrite_keeps (P := Left i s) (fun _ _ _ h => { h with }) r off ws h
  begin _ r _ _ h := tableCheck_keeps (P := Left i s) (fun _ _ _ h => { h with }) r h
  lock _ r _ _ h := tableLock_keeps (P := Left i s) (fun _ _ _ h => { h with }) r h

end Sys2Proof.Machine
end

