-- ==== Sys2Proof/Proofs/WhatRowsLeave.lean ====
section
/-! PROOFS. What each row leaves alone, settled (chapters 1 to 11): the parts of the rows read off `Spared`, `Levelled` and `Left`. -/

namespace Sys2Proof.Machine

section Rises
variable {x : BayId} {s : State}

/-- R17, R20: a presence line that rises leaves the cache. -/
theorem cache_presenceLine_rises (x : BayId) (s : State) : (settling (presenceLine x true) s).cache = s.cache := by
  refine (settle_baysOnly s _).cache.trans ?_
  unfold presenceLine
  split
  · rfl
  · simp only [if_true]
    unfold presenceLineRises
    split
    · exact cache_enterSeating x _
    · rfl

end Rises

/-- Settles O13: the rows taken apart by what they run, each part kept by every row that is not named for it. -/
theorem whatEachRowLeavesAlone : Obligations.WhatEachRowLeavesAlone := by
  refine ⟨fun i s t hc e => ?first, fun i s t hc e => ?second, fun i s t x e hpor => ?levels, fun i s t hc e => ?bays⟩
  case first =>
    by_cases hpor : ∃ l, i = .powerOnReset l
    · obtain ⟨l, rfl⟩ := hpor
      exact ⟨trivial, trivial, trivial, trivial, trivial, trivial⟩
    have h : Spared i s t := (spared_rows (fun l hl => hpor ⟨l, hl⟩) s).exec hc (Spared.refl i s) e
    clear hc e hpor
    refine ⟨?_, ?_, ?_, ?_, ?_, ?_⟩
    · cases i with
      | powerOnReset | resetPart | tableClear | tableWrite | tableCheck | tableLock | tableCheckEnd => trivial
      | _ => exact h.tables rfl
    · cases i with
      | powerOnReset | motionSample | stallTimeout | dropLogClear => trivial
      | _ => exact h.log rfl
    · cases i with
      | powerOnReset | resetPart | flagSet | flagClear | flagToggle => trivial
      | _ => exact h.flags rfl
    · cases i with
      | powerOnReset | uptimeTick => trivial
      | _ => exact h.time nofun
    · cases i with
      | powerOnReset | lightSample | motionSample | frameDiscard | laneGapDiscard => trivial
      | _ => exact h.lane rfl
    · cases i with
      | powerOnReset | resetPart | pollPeriodExpiry => trivial
      | _ => exact h.pollTimer rfl
  case second =>
    by_cases hpor : ∃ l, i = .powerOnReset l
    · obtain ⟨l, rfl⟩ := hpor
      exact ⟨trivial, trivial, trivial, trivial, trivial⟩
    have h : Spared i s t := (spared_rows (fun l hl => hpor ⟨l, hl⟩) s).exec hc (Spared.refl i s) e
    clear hc e hpor
    refine ⟨?_, ?_, ?_, ?_, ?_⟩
    · cases i with
      | powerOnReset | extPresentChange => trivial
      | _ => exact h.ext nofun
    · cases i with
      | powerOnReset | bridgeReadyChange => trivial
      | _ => exact h.ready nofun
    · cases i with
      | powerOnReset | resetPart | motionSample | stallTimeout | windowHoldExpiry => trivial
      | _ => exact h.motion rfl
    · cases i with
      | powerOnReset | resetPart | lightSample | brightnessSet | brightnessQuery | tableClear | tableCheckEnd => trivial
      | _ => exact h.pipe rfl
    · cases i with
      | powerOnReset | resultRead | invalidCommand | identify | senseAttention | flagTest | flagSet | flagClear | flagToggle | resetPart
      | powerQuery | bayQuery | bayRelease | bayReturn | bayProbe | linkRecover | cacheFlush | cacheInspect | budgetQuery | brightnessSet
      | brightnessQuery | dropStateQuery | dropLogRead | dropLogClear | tableClear | tableWrite | tableCheck | tableRead | tableLock => trivial
      | _ => exact h.port rfl
  case levels =>
    have h := levelled_exec hpor e
    exact ⟨h.presLine x, h.latchLine x, h.latch x, h.presence x⟩
  case bays =>
    have h : Left i s t := (left_rows i s).exec hc (Left.refl i s) e
    have hrise : ∀ x, i = .presenceLineChange x true → t.cache = s.cache := by
      rintro x rfl
      injection e with e
      subst e
      exact cache_presenceLine_rises x s
    have hready : ∀ v, i = .bridgeReadyChange v → t.pp = { s.pp with bridgeReady := t.pp.bridgeReady } := by
      rintro v rfl
      injection e with e
      subst e
      rfl
    clear hc e
    refine ⟨?_, hrise, ?_, ?_, ?_, ?_, ?_, ?_, ?_, ?_, ?_⟩
    · cases i with
      | powerOnReset | presenceLineChange | presenceDebounceExpiry | joltHoldExpiry | contextWindowExpiry | ageTick | packTransactionEnd
      | linkTimeout | linkRecoverEnd | motionSample | stallTimeout | windowHoldExpiry | tableCheckEnd | readValue | resetPart | bayProbe
      | cacheFlush | tableClear => trivial
      | _ => exact h.cache rfl rfl
    · cases i with
      | powerOnReset | extPresentChange | presenceLineChange | presenceDebounceExpiry | latchDebounceExpiry | bridgeExpiry | joltHoldExpiry
      | packTransactionEnd | linkTimeout | linkRecoverEnd | motionSample | stallTimeout | windowHoldExpiry | tableCheckEnd | codeByteCheck
      | permitCheck | senseAttention | flagClear | flagToggle | resetPart | bayRelease | bayReturn | bayProbe | brightnessSet
      | tableClear => trivial
      | _ => exact h.attn rfl rfl
    · cases i with
      | powerOnReset | extPresentChange | presenceLineChange | presenceDebounceExpiry | latchDebounceExpiry | bridgeExpiry | joltHoldExpiry
      | packTransactionEnd | linkTimeout | linkRecoverEnd | motionSample | stallTimeout | windowHoldExpiry | tableCheckEnd | flagClear
      | flagToggle | resetPart | bayRelease | bayReturn | bayProbe | tableClear => trivial
      | brightnessSet => exact h.power rfl rfl
      | bridgeReadyChange v => exact ⟨hready v rfl, h.budget rfl rfl, h.level rfl rfl⟩
      | lightSample => exact ⟨h.power rfl rfl, h.budget rfl rfl⟩
      | _ => exact ⟨h.power rfl rfl, h.budget rfl rfl, h.level rfl rfl⟩
    · cases i with
      | powerOnReset | extPresentChange | presenceLineChange | presenceDebounceExpiry | latchDebounceExpiry | joltHoldExpiry
      | pollPeriodExpiry | pollStart | pollRetry | probeReadStart | slotTransactionStart | packTransactionEnd | linkTimeout
      | linkRecoverBegin | linkRecoverEnd | motionSample | stallTimeout | windowHoldExpiry | tableCheckEnd | readValue | writeValue
      | readBlock | writeBlock | flagSet | flagClear | flagToggle | resetPart | bayRelease | bayReturn | bayProbe | linkRecover
      | tableClear => trivial
      | _ => exact h.relays rfl rfl
    · cases i with
      | powerOnReset | presenceLineChange | presenceDebounceExpiry | joltHoldExpiry | packTransactionEnd | motionSample | stallTimeout
      | windowHoldExpiry | resetPart => trivial
      | _ => exact h.snap rfl
    · cases i with
      | powerOnReset | presenceLineChange | presenceDebounceExpiry | joltHoldExpiry | packTransactionEnd | linkTimeout | linkRecoverEnd
      | motionSample | stallTimeout | windowHoldExpiry | tableCheckEnd | tableClear | resetPart | bayProbe => trivial
      | _ => exact h.fails rfl
    · cases i with
      | extPresentChange | latchLineChange | latchDebounceExpiry | bridgeReadyChange | bridgeExpiry | joltHoldExpiry | contextWindowExpiry
      | uptimeTick | ageTick | pollPeriodExpiry | pollStart | pollRetry | probeReadStart | linkRecoverBegin | linkRecoverEnd | lightSample
      | motionSample | frameDiscard | laneGapDiscard | stallTimeout | windowHoldExpiry | tableCheckEnd => exact h.upstream rfl
      | _ => trivial
    · cases i with
      | powerOnReset | extPresentChange | presenceLineChange | presenceDebounceExpiry | latchLineChange | latchDebounceExpiry | joltHoldExpiry
      | contextWindowExpiry | packTransactionEnd | linkTimeout | linkRecoverEnd | motionSample | stallTimeout | windowHoldExpiry
      | tableCheckEnd | flagClear | flagToggle | resetPart | bayRelease | bayReturn | bayProbe | tableClear => trivial
      | _ => exact h.bays rfl rfl
    · cases i with
      | powerOnReset | presenceLineChange | presenceDebounceExpiry | joltHoldExpiry | contextWindowExpiry | packTransactionEnd
      | linkRecoverEnd | motionSample | stallTimeout | windowHoldExpiry | resetPart | bayProbe => trivial
      | _ => exact h.context rfl nofun
    · have hrecord : reaches 2 i = false → ∀ x, (t.bays.get x).jolt = (s.bays.get x).jolt ∧ (t.bays.get x).probeCause = (s.bays.get x).probeCause
          ∧ (t.bays.get x).faultReason = (s.bays.get x).faultReason := fun e x => by
        have hx := h.record e x
        unfold pastRecord at hx
        injection hx with hj hx
        injection hx with hcause hreason
        exact ⟨hj, hcause, hreason⟩
      cases i with
      | powerOnReset | presenceLineChange | presenceDebounceExpiry | joltHoldExpiry | packTransactionEnd | linkTimeout | linkRecoverEnd
      | motionSample | stallTimeout | windowHoldExpiry | tableCheckEnd | tableClear | resetPart | bayProbe => trivial
      | _ => exact hrecord rfl

end Sys2Proof.Machine
end
